-- ==== Sys2Proof/Word.lean ====
section
/-! DEFINITION. The machine's word types and their plainest arithmetic (R4, R5). -/

namespace Sys2Proof

/-- A 64-bit register value or virtual address. -/
abbrev Word := BitVec 64
/-- One byte of memory. -/
abbrev Byte := BitVec 8
/-- The number of an x or f register. -/
abbrev Reg := BitVec 5

/-- Bits [lo + n - 1 : lo] of a number, numbered as R4 numbers them. -/
def bitsAt (v lo n : Nat) : Nat := (v / 2 ^ lo) % 2 ^ n

/-- Bit i of a number as a Bool (R4). -/
def bitAt (v i : Nat) : Bool := (v / 2 ^ i) % 2 == 1

/-- The two's-complement reading of the low n bits of v. -/
def signedOf (n v : Nat) : Int :=
  let m := v % 2 ^ n
  if m < 2 ^ (n - 1) then (m : Int) else (m : Int) - (2 ^ n : Nat)

/-- The low n bits of an integer, as an unsigned number. -/
def unsignedOf (n : Nat) (i : Int) : Nat := (i % ((2 ^ n : Nat) : Int)).toNat

/-- The low n bits of v sign-extended to a 64-bit word. -/
def sextWord (n v : Nat) : Word := BitVec.ofInt 64 (signedOf n v)

/-- A Bool as the number 0 or 1. -/
def b2n (b : Bool) : Nat := if b then 1 else 0

/-- v with bits [lo + n - 1 : lo] replaced by the low n bits of f. -/
def putBits (v lo n f : Nat) : Nat :=
  v - bitsAt v lo n * 2 ^ lo + (f % 2 ^ n) * 2 ^ lo

/-- Little-endian bytes of a number, n of them (R5). -/
def bytesOf : Nat → Nat → List Byte
  | 0, _ => []
  | n + 1, v => BitVec.ofNat 8 v :: bytesOf n (v / 256)

/-- The number whose little-endian bytes these are (R5). -/
def ofBytes : List Byte → Nat
  | [] => 0
  | b :: r => b.toNat + 256 * ofBytes r

/-- The smallest multiple of m that is at least v. -/
def roundUp (v m : Nat) : Nat := (v + m - 1) / m * m

/-- Ceiling division. -/
def ceilDiv (v m : Nat) : Nat := (v + m - 1) / m

end Sys2Proof
end

