-- ==== Sys2Proof/Machine/Float.lean ====
section
/-! DEFINITION. Floating-point formats, exact values, rounding, narrowing and block scales (R126 to R144), and the landing
transforms (R133, R263). -/

namespace Sys2Proof.Machine

/-- A value a format can hold, or an exact result before rounding: (−1)^neg × m × 2^e. -/
inductive FV where
  | nan
  | inf (neg : Bool)
  | fin (neg : Bool) (m : Nat) (e : Int)
deriving DecidableEq, Repr

/-- Rounding modes: those of R135, and RISC-V's RMM for the scalar instructions. -/
inductive Rm where
  | rne | rtz | rdn | rup | sr | rmm
deriving DecidableEq, Repr

/-- A floating-point format (R127): exponent bits, fraction bits, bias, and whether it has infinities. -/
structure Fmt where
  eb : Nat
  mb : Nat
  bias : Nat
  hasInf : Bool
deriving DecidableEq, Repr

def bf16 : Fmt := ⟨8, 7, 127, true⟩
def fp32 : Fmt := ⟨8, 23, 127, true⟩
def fp64 : Fmt := ⟨11, 52, 1023, true⟩
def fp16 : Fmt := ⟨5, 10, 15, true⟩
def e4m3 : Fmt := ⟨4, 3, 7, false⟩
def e5m2 : Fmt := ⟨5, 2, 15, true⟩

/-- Bits of the format. -/
def Fmt.width (f : Fmt) : Nat := 1 + f.eb + f.mb
/-- Bits of precision. -/
def Fmt.prec (f : Fmt) : Nat := f.mb + 1
/-- Exponent of the unit of the least subnormal. -/
def Fmt.qmin (f : Fmt) : Int := 1 - (f.bias : Int) - f.mb
/-- The all-ones exponent field. -/
def Fmt.eTop (f : Fmt) : Nat := 2 ^ f.eb - 1
/-- The significand of the greatest finite value, as an integer of `prec` bits. -/
def Fmt.maxM (f : Fmt) : Nat := if f.hasInf then 2 ^ f.prec - 1 else 2 ^ f.prec - 2
/-- The exponent of the greatest finite value's unit. -/
def Fmt.maxQ (f : Fmt) : Int := f.qmin + (f.eTop : Int) - (if f.hasInf then 2 else 1)
/-- The canonical NaN (R127). -/
def Fmt.nanBits (f : Fmt) : Nat :=
  if f.hasInf then f.eTop * 2 ^ f.mb + 2 ^ (f.mb - 1) else f.eTop * 2 ^ f.mb + (2 ^ f.mb - 1)
/-- The sign bit's weight. -/
def Fmt.signBit (f : Fmt) : Nat := 2 ^ (f.eb + f.mb)
/-- An infinity's bits. -/
def Fmt.infBits (f : Fmt) (neg : Bool) : Nat := b2n neg * f.signBit + f.eTop * 2 ^ f.mb
/-- The greatest finite value's bits. -/
def Fmt.maxBits (f : Fmt) (neg : Bool) : Nat :=
  b2n neg * f.signBit + (if f.hasInf then f.eTop * 2 ^ f.mb - 1 else f.eTop * 2 ^ f.mb + 2 ^ f.mb - 2)

/-- The value of a bit pattern (R127, R128). -/
def Fmt.decode (f : Fmt) (b : Nat) : FV :=
  let neg := bitAt b (f.eb + f.mb)
  let e := bitsAt b f.mb f.eb
  let m := bitsAt b 0 f.mb
  if e = f.eTop ∧ f.hasInf then (if m = 0 then .inf neg else .nan)
  else if e = f.eTop ∧ m = 2 ^ f.mb - 1 then .nan
  else if e = 0 then .fin neg m f.qmin
  else .fin neg (2 ^ f.mb + m) (f.qmin + e - 1)

/-- Whether a bit pattern is a signalling NaN (scalar instructions only, R129). -/
def Fmt.isSnan (f : Fmt) (b : Nat) : Bool :=
  bitsAt b f.mb f.eb == f.eTop && bitsAt b 0 f.mb != 0 && !bitAt b (f.mb - 1)

/-- Whether a value is a subnormal of the format: non-zero and below the least normal. -/
def Fmt.isSub (f : Fmt) (v : FV) : Bool :=
  match v with
  | .fin _ m e =>
    -- m × 2^e < 2^(qmin + mb)
    m != 0 && (let d := f.qmin + f.mb - e
               decide (0 ≤ d) && decide (m < 2 ^ d.toNat))
  | _ => false

/-- Number of bits of a natural number. -/
def bitLen (m : Nat) : Nat := if m = 0 then 0 else Nat.log2 m + 1

/-- A rounded magnitude m × 2^q, whether it differs from the exact value, and the part of a unit cut off was at least
the half (for tininess after rounding). -/
structure Rounded where
  m : Nat
  q : Int
  inexact : Bool
deriving DecidableEq, Repr

/-- Whether the magnitude lo + rem / 2^d (and a little more when sticky) is rounded away from zero (R135, R136). `u` is the
draw of SR. -/
def roundsUp (mode : Rm) (u : Nat) (neg : Bool) (lo rem d : Nat) (sticky : Bool) : Bool :=
  let half := 2 * rem
  let unit := 2 ^ d
  match mode with
  | .rne => decide (unit < half) || (half == unit && (sticky || lo % 2 == 1))
  | .rmm => decide (unit ≤ half)
  | .rtz => false
  | .rdn => neg && (rem != 0 || sticky)
  | .rup => !neg && (rem != 0 || sticky)
  | .sr => decide (u % 2 ^ 32 < rem * 2 ^ 32 / unit)

/-- Rounds m × 2^e (a little more when sticky) to p bits with no unit below 2^qmin and no upper limit. -/
def roundMag (mode : Rm) (u : Nat) (neg : Bool) (m : Nat) (e : Int) (sticky : Bool) (p : Nat) (qmin : Int) : Rounded :=
  let q := max qmin (e + bitLen m - p)
  if q ≤ e then
    let lo := m * 2 ^ (e - q).toNat
    ⟨if sticky && roundsUp mode u neg lo 0 0 true then lo + 1 else lo, q, sticky⟩
  else
    let d := (q - e).toNat
    let lo := m / 2 ^ d
    let rem := m % 2 ^ d
    ⟨if roundsUp mode u neg lo rem d sticky then lo + 1 else lo, q, rem != 0 || sticky⟩

/-- Whether m × 2^q exceeds the format's greatest finite value. -/
def Fmt.tooBig (f : Fmt) (m : Nat) (q : Int) : Bool :=
  m != 0 && (decide (f.maxQ < q) || (q == f.maxQ && decide (f.maxM < m)))

/-- The bits of a magnitude that fits. -/
def Fmt.encodeFin (f : Fmt) (neg : Bool) (m : Nat) (q : Int) : Nat :=
  let (m, q) := if m = 2 ^ f.prec then (2 ^ f.mb, q + 1) else (m, q)
  let s := b2n neg * f.signBit
  if m < 2 ^ f.mb then s + m
  else s + (q - f.qmin + 1).toNat * 2 ^ f.mb + (m - 2 ^ f.mb)

/-- A rounding's outcome: the bits, whether SR drew, and the conditions the scalar flags are made of. -/
structure RR where
  bits : Nat
  drew : Bool
  inexact : Bool
  ovf : Bool
  tiny : Bool
deriving DecidableEq, Repr

/-- Whether overflow under a mode gives the greatest finite value (IEEE 754). -/
def overflowToMax (mode : Rm) (neg : Bool) : Bool :=
  match mode with
  | .rtz => true
  | .rdn => !neg
  | .rup => neg
  | _ => false

/-- `round_to` of a magnitude with a sticky bit (R135), with results that are subnormal after rounding flushed when `fz`
(R139). -/
def Fmt.roundSticky (f : Fmt) (mode : Rm) (u : Nat) (fz neg : Bool) (m : Nat) (e : Int) (sticky : Bool) : RR :=
  let r := roundMag mode u neg m e sticky f.prec f.qmin
  let drew := r.inexact && mode == .sr
  if f.tooBig r.m r.q then
    -- at or above 2^(emax + 1) nothing is drawn (R224, R240; for other roundings DESIGN CHOICE, log 131)
    let past := decide (f.maxQ + f.prec < e + bitLen m)
    ⟨if overflowToMax mode neg then f.maxBits neg else if f.hasInf then f.infBits neg else f.nanBits, drew && !past, true,
      true, false⟩
  else
    let sub := decide (r.m < 2 ^ f.mb)
    -- tininess after rounding: rounded as if the exponent had no lower limit
    let t := roundMag mode u neg m e sticky f.prec (f.qmin - 2 * f.prec - 2)
    let tiny := decide (t.m * 2 ^ (t.q - (f.qmin - 2 * f.prec - 2)).toNat < 2 ^ (f.mb + 2 * f.prec + 2))
    if fz && sub then ⟨b2n neg * f.signBit, drew, r.inexact || r.m != 0, false, tiny⟩
    else ⟨f.encodeFin neg r.m r.q, drew, r.inexact, false, tiny⟩

/-- `round_to` of an exact value (R135). -/
def Fmt.round (f : Fmt) (mode : Rm) (u : Nat) (fz : Bool) (v : FV) : RR :=
  match v with
  | .nan => ⟨f.nanBits, false, false, false, false⟩
  | .inf neg => ⟨if f.hasInf then f.infBits neg else f.nanBits, false, false, false, false⟩
  | .fin neg m e => f.roundSticky mode u fz neg m e false

/-- `flush_src` (R139): a subnormal source becomes zero of its sign. -/
def Fmt.flush (f : Fmt) (fz : Bool) (v : FV) : FV :=
  if fz && f.isSub v then (match v with | .fin neg _ e => .fin neg 0 e | w => w) else v

/-- A zero. -/
def FV.zero (neg : Bool) : FV := .fin neg 0 0
/-- Whether a value is a zero. -/
def FV.isZero : FV → Bool
  | .fin _ m _ => m == 0
  | _ => false
/-- Whether a value is a NaN. -/
def FV.isNan : FV → Bool
  | .nan => true
  | _ => false
/-- The sign; a NaN's is positive. -/
def FV.neg? : FV → Bool
  | .nan => false
  | .inf n => n
  | .fin n _ _ => n
/-- The value with its sign inverted. -/
def FV.negate : FV → FV
  | .nan => .nan
  | .inf n => .inf (!n)
  | .fin n m e => .fin (!n) m e
/-- The magnitude. -/
def FV.abs : FV → FV
  | .nan => .nan
  | .inf _ => .inf false
  | .fin _ m e => .fin false m e
/-- The value times 2^k. -/
def FV.scale (v : FV) (k : Int) : FV :=
  match v with
  | .fin n m e => .fin n m (e + k)
  | w => w

/-- The product, exact. -/
def FV.mul (a b : FV) : FV :=
  match a, b with
  | .nan, _ | _, .nan => .nan
  | .inf s, .inf t => .inf (s != t)
  | .inf s, .fin t m _ => if m = 0 then .nan else .inf (s != t)
  | .fin s m _, .inf t => if m = 0 then .nan else .inf (s != t)
  | .fin s m e, .fin t n d => .fin (s != t) (m * n) (e + d)

/-- The signed significand of a finite value at a unit 2^q not above its own. -/
def sigAt (neg : Bool) (m : Nat) (e q : Int) : Int :=
  let v : Int := ((m * 2 ^ (e - q).toNat : Nat) : Int)
  if neg then -v else v

/-- The sum, exact. An exact zero sum of unlike signs is −0 where `negZero` says so (RDN, and SR by R135). -/
def FV.add (negZero : Bool) (a b : FV) : FV :=
  match a, b with
  | .nan, _ | _, .nan => .nan
  | .inf s, .inf t => if s = t then .inf s else .nan
  | .inf s, .fin _ _ _ => .inf s
  | .fin _ _ _, .inf t => .inf t
  | .fin s m e, .fin t n d =>
    if m = 0 ∧ n = 0 then .fin (if s = t then s else negZero) 0 (min e d)
    else
      let q := min e d
      let v := sigAt s m e q + sigAt t n d q
      if v = 0 then .fin negZero 0 q else .fin (decide (v < 0)) v.natAbs q

/-- Whether the mode gives −0 for an exact zero sum (R135). -/
def Rm.negZero (m : Rm) : Bool := m == .rdn || m == .sr

/-- a < b, false where either is a NaN; zeros are equal. -/
def FV.lt (a b : FV) : Bool :=
  match a, b with
  | .nan, _ | _, .nan => false
  | .inf s, .inf t => s && !t
  | .inf s, .fin _ _ _ => s
  | .fin _ _ _, .inf t => !t
  | .fin s m e, .fin t n d => decide (sigAt s m e (min e d) < sigAt t n d (min e d))

/-- a = b as numbers. -/
def FV.eq (a b : FV) : Bool := !a.isNan && !b.isNan && !a.lt b && !b.lt a

/-- Integer square root of m by n bits, from the highest. -/
def isqrtBits (m : Nat) : Nat → Nat → Nat
  | 0, r => r
  | k + 1, r => isqrtBits m k (if (r + 2 ^ k) * (r + 2 ^ k) ≤ m then r + 2 ^ k else r)
/-- Integer square root. -/
def isqrt (m : Nat) : Nat := isqrtBits m (bitLen m / 2 + 1) 0

/-- The quotient of two finite values with enough bits and a sticky bit. -/
def divMag (m : Nat) (e : Int) (n : Nat) (d : Int) : Nat × Int × Bool :=
  let k := 128 + bitLen n
  (m * 2 ^ k / n, e - d - k, m * 2 ^ k % n != 0)

/-- Division, correctly rounded. -/
def Fmt.div (f : Fmt) (mode : Rm) (u : Nat) (fz : Bool) (a b : FV) : RR :=
  match a, b with
  | .nan, _ | _, .nan => f.round mode u fz .nan
  | .inf _, .inf _ => f.round mode u fz .nan
  | .inf s, .fin t _ _ => f.round mode u fz (.inf (s != t))
  | .fin s _ _, .inf t => f.round mode u fz (.zero (s != t))
  | .fin s m e, .fin t n d =>
    if n = 0 then f.round mode u fz (if m = 0 then .nan else .inf (s != t))
    else if m = 0 then f.round mode u fz (.zero (s != t))
    else
      let r := divMag m e n d
      f.roundSticky mode u fz (s != t) r.1 r.2.1 r.2.2

/-- The square root of a positive magnitude with enough bits and a sticky bit. -/
def sqrtMag (m : Nat) (e : Int) : Nat × Int × Bool :=
  let k : Nat := 256 + (if e % 2 = 0 then 0 else 1)
  let x := m * 2 ^ k
  let r := isqrt x
  (r, (e - k) / 2, r * r != x)

/-- Square root, correctly rounded. -/
def Fmt.sqrt (f : Fmt) (mode : Rm) (u : Nat) (fz : Bool) (a : FV) : RR :=
  match a with
  | .nan => f.round mode u fz .nan
  | .inf s => f.round mode u fz (if s then .nan else .inf false)
  | .fin s m e =>
    if m = 0 then f.round mode u fz (.zero s)
    else if s then f.round mode u fz .nan
    else
      let r := sqrtMag m e
      f.roundSticky mode u fz false r.1 r.2.1 r.2.2

/-- A finite value rounded to an integer, with whether SR drew and whether it was inexact. -/
def roundInt (mode : Rm) (u : Nat) (neg : Bool) (m : Nat) (e : Int) : Int × Bool :=
  if 0 ≤ e then
    let v : Int := ((m * 2 ^ e.toNat : Nat) : Int)
    (if neg then -v else v, false)
  else
    let d := (-e).toNat
    let lo := m / 2 ^ d
    let rem := m % 2 ^ d
    let r : Int := ((if roundsUp mode u neg lo rem d false then lo + 1 else lo : Nat) : Int)
    (if neg then -r else r, rem != 0)

/-- `saturate` (R149). -/
def saturate (x lo hi : Int) : Int := if x < lo then lo else if hi < x then hi else x

/-- The value of an integer. -/
def FV.ofInt (i : Int) : FV := .fin (decide (i < 0)) i.natAbs 0

/-- The value of an E8M0 code (R130). -/
def e8m0Val (c : Nat) : FV := if c % 256 = 255 then .nan else .fin false 1 ((c % 256 : Nat) - (127 : Int))

/-- An entry of the overflow table (R141). -/
inductive Ovf where
  | maxfin | inf | nan
deriving DecidableEq, Repr

/-- The entry of a format code (R141): 0b11 reads as MAXFIN. -/
def ovfEntry (table : BitVec 32) (code : Nat) : Ovf :=
  match bitsAt table.toNat (2 * code) 2 with
  | 1 => .inf
  | 2 => .nan
  | _ => .maxfin

/-- What an overflow-table entry gives (R141): INF for a format without infinity reads as NAN. -/
def Fmt.ovfBits (f : Fmt) (o : Ovf) (neg : Bool) : Nat :=
  match o with
  | .maxfin => f.maxBits neg
  | .inf => if f.hasInf then f.infBits neg else f.nanBits
  | .nan => f.nanBits

/-- `narrow` to a floating-point memory format (R140). `keepSub` says the format is never flushed (E4M3, E5M2). -/
def Fmt.narrow (f : Fmt) (mode : Rm) (u : Nat) (fz : Bool) (o : Ovf) (v : FV) : RR :=
  match v with
  | .nan => ⟨f.nanBits, false, false, false, false⟩
  | .inf neg => ⟨f.ovfBits o neg, false, false, true, false⟩
  | .fin neg m e =>
    let r := roundMag mode u neg m e false f.prec f.qmin
    let drew := r.inexact && mode == .sr
    let sub := decide (r.m < 2 ^ f.mb)
    if f.tooBig r.m r.q then
      ⟨if overflowToMax mode neg then f.maxBits neg else f.ovfBits o neg, drew, true, true, false⟩
    else if fz && sub && decide (16 ≤ f.width) then ⟨b2n neg * f.signBit, drew, true, false, true⟩
    else ⟨f.encodeFin neg r.m r.q, drew, r.inexact, false, false⟩

/-- Narrowing a floating-point value to an n-bit integer (R142): rounded, then saturated; NaN gives 0. -/
def narrowInt (n : Nat) (mode : Rm) (u : Nat) (v : FV) : Int × Bool :=
  let hi : Int := ((2 ^ (n - 1) : Nat) : Int) - 1
  let lo : Int := -((2 ^ (n - 1) : Nat) : Int)
  match v with
  | .nan => (0, false)
  | .inf neg => (if neg then lo else hi, false)
  | .fin neg m e =>
    let r := roundInt mode u neg m e
    (saturate r.1 lo hi, r.2 && mode == .sr)

/-- floor(log2) of a non-zero magnitude. -/
def floorLog2 (m : Nat) (e : Int) : Int := (bitLen m : Int) - 1 + e

/-- The block-scale code for a maximum magnitude and a destination's emax (R143, R144). -/
def scaleCode (emax : Int) (v : FV) : Nat :=
  match v with
  | .fin _ m e => if m = 0 then 127 else (saturate (floorLog2 m e - emax + 127) 0 254).toNat
  | _ => 255

/-- emax of a destination format code (R143). -/
def emaxOf (code : Nat) : Int :=
  match code with
  | 1 => 8 | 2 => 15 | 3 => 15 | 4 => 127 | 5 => 6 | 7 => 6 | _ => 14

/-- The floating-point memory format of a code of R126. -/
def fmtCode (code : Nat) : Option Fmt :=
  match code with
  | 1 => some e4m3
  | 2 => some e5m2
  | 3 => some fp16
  | 4 => some bf16
  | _ => none

/-- A packed stream of bits, most significant bit first, as O-RAN packs mantissas (R133). -/
def beBits (bs : List Byte) : Nat := bs.foldl (fun v b => v * 256 + b.toNat) 0

/-- Mantissa k of w bits of the 3w payload bytes of a PRB (R133). -/
def bfpMantissa (w : Nat) (payload k : Nat) : Int :=
  signedOf w (payload / 2 ^ (24 * w - w * (k + 1)))

/-- Rounds a value to bf16 under RNE without flushing, as landing transforms do. -/
def toBf16 (v : FV) : Nat := (bf16.round .rne 0 false v).bits

/-- One PRB of BFP as 12 cbf16 elements (R133). -/
def bfpPrb (w : Nat) (prb : List Byte) : List Byte :=
  let e := (prb.headD 0).toNat % 16
  let payload := beBits ((prb.drop 1).take (3 * w))
  (List.range 24).flatMap fun k => bytesOf 2 (toBf16 ((FV.ofInt (bfpMantissa w payload k)).scale e))

/-- The mantissa widths of XPARM 0 to 5 (R263). -/
def bfpWidth (xparm : Nat) : Option Nat :=
  match xparm with
  | 0 => some 8 | 1 => some 9 | 2 => some 10 | 3 => some 12 | 4 => some 14 | 5 => some 16
  | _ => none

/-- Bytes of a source unit of a landing transform (R263); COPY and W8X take single bytes. -/
def xfUnit (xf xparm : Nat) : Option Nat :=
  match xf with
  | 0 | 2 => some 1
  | 1 => (bfpWidth xparm).map fun w => 1 + 3 * w
  | 4 => some 2
  | 5 => some 4
  | _ => none

/-- One source unit converted (R263). COPY and BREV leave the bytes as they are. -/
def xfConvert (xf xparm : Nat) (bs : List Byte) : List Byte :=
  match xf with
  | 1 => bfpPrb ((bfpWidth xparm).getD 8) bs
  | 2 => bytesOf 2 (toBf16 ((if xparm % 2 = 0 then e4m3 else e5m2).decode (ofBytes bs)))
  | 4 => if xparm = 255 then bytesOf 2 bf16.nanBits
         else bytesOf 2 (toBf16 ((bf16.decode (ofBytes bs)).scale ((xparm : Int) - 127)))
  | 5 =>
    let s : Int := -((xparm % 16 : Nat) : Int)
    bytesOf 2 (toBf16 ((FV.ofInt (signedOf 16 (ofBytes (bs.take 2)))).scale s)) ++
      bytesOf 2 (toBf16 ((FV.ofInt (signedOf 16 (ofBytes (bs.drop 2)))).scale s))
  | _ => bs

/-- Cuts a list into pieces of n bytes; the fuel bounds the pieces. -/
def pieces (n : Nat) : Nat → List Byte → List (List Byte)
  | 0, _ => []
  | _, [] => []
  | k + 1, bs => bs.take n :: pieces n k (bs.drop n)

/-- A whole payload converted unit by unit. Bytes that are no whole number of units, as an early close can leave them, end in a unit that
is converted as if zeros filled it (R185; DESIGN CHOICE, log 142). -/
def xfAll (xf xparm : Nat) (bs : List Byte) : List Byte :=
  match xf with
  | 0 => bs
  | _ => (pieces ((xfUnit xf xparm).getD 1) bs.length bs).flatMap (xfConvert xf xparm)

end Sys2Proof.Machine
end

