-- ==== Sys2Proof/Syntax/Operand.lean ====
section
/-! DEFINITION. The operand types of the instruction syntax, and the standard RISC-V instructions that have
no row of their own in the opcode table (RV64I computation and control flow, M, Zba, Zbb; R16, R152). -/

namespace Sys2Proof

/-- How a standard instruction stood in memory: in its own 32 bits, or as the 16-bit parcel of the C extension
that expands to it (R150). -/
inductive Form where
  | w32
  | c16 (parcel : BitVec 16)
deriving DecidableEq, Repr

/-- The bytes the instruction occupies (R150). -/
def Form.len : Form → Nat
  | .w32 => 4
  | .c16 _ => 2

/-- Widths of a standard scalar load. -/
inductive LoadKind where
  | lb | lh | lw | ld | lbu | lhu | lwu
deriving DecidableEq, Repr

/-- Widths of a standard scalar store. -/
inductive StoreKind where
  | sb | sh | sw | sd
deriving DecidableEq, Repr

/-- Operations of the A extension's AMOs. -/
inductive AmoOp where
  | swap | add | xor | and | or | min | max | minu | maxu
deriving DecidableEq, Repr

/-- Load-reserved or store-conditional. -/
inductive LrScOp where
  | lr | sc
deriving DecidableEq, Repr

/-- The three CSR operations of Zicsr. -/
inductive CsrOp where
  | rw | rs | rc
deriving DecidableEq, Repr

/-- The source of a CSR instruction: a register, or the 5-bit immediate of the i forms. -/
inductive CsrSrc where
  | reg (rs1 : Reg)
  | imm (z : BitVec 5)
deriving DecidableEq, Repr

/-- Precision of a scalar floating-point instruction. -/
inductive FpFmt where
  | s | d
deriving DecidableEq, Repr

/-- The scalar F and D instructions (R129, R152), by operation. -/
inductive FpOp where
  | load (f : FpFmt) (rd rs1 : Reg) (imm : BitVec 12)
  | store (f : FpFmt) (rs2 rs1 : Reg) (imm : BitVec 12)
  | add (f : FpFmt) (rd rs1 rs2 : Reg) (rm : BitVec 3)
  | sub (f : FpFmt) (rd rs1 rs2 : Reg) (rm : BitVec 3)
  | mul (f : FpFmt) (rd rs1 rs2 : Reg) (rm : BitVec 3)
  | div (f : FpFmt) (rd rs1 rs2 : Reg) (rm : BitVec 3)
  | sqrt (f : FpFmt) (rd rs1 : Reg) (rm : BitVec 3)
  | madd (f : FpFmt) (rd rs1 rs2 rs3 : Reg) (rm : BitVec 3)
  | msub (f : FpFmt) (rd rs1 rs2 rs3 : Reg) (rm : BitVec 3)
  | nmsub (f : FpFmt) (rd rs1 rs2 rs3 : Reg) (rm : BitVec 3)
  | nmadd (f : FpFmt) (rd rs1 rs2 rs3 : Reg) (rm : BitVec 3)
  | sgnj (f : FpFmt) (k : BitVec 2) (rd rs1 rs2 : Reg)
  | minmax (f : FpFmt) (isMax : Bool) (rd rs1 rs2 : Reg)
  | cmp (f : FpFmt) (k : BitVec 2) (rd rs1 rs2 : Reg)
  | classify (f : FpFmt) (rd rs1 : Reg)
  | toInt (f : FpFmt) (k : BitVec 2) (rd rs1 : Reg) (rm : BitVec 3)
  | ofInt (f : FpFmt) (k : BitVec 2) (rd rs1 : Reg) (rm : BitVec 3)
  | cvtSD (rd rs1 : Reg) (rm : BitVec 3)
  | cvtDS (rd rs1 : Reg) (rm : BitVec 3)
  | mvXF (f : FpFmt) (rd rs1 : Reg)
  | mvFX (f : FpFmt) (rd rs1 : Reg)
deriving DecidableEq, Repr

/-- Register-register and register-immediate integer operations of RV64I, M, Zba and Zbb. -/
inductive AluOp where
  | add | sub | sll | slt | sltu | xor | srl | sra | or | and
  | addw | subw | sllw | srlw | sraw
  | mul | mulh | mulhsu | mulhu | div | divu | rem | remu
  | mulw | divw | divuw | remw | remuw
  | adduw | sh1add | sh2add | sh3add | sh1adduw | sh2adduw | sh3adduw | slliuw
  | andn | orn | xnor | min | minu | max | maxu | rol | ror | rolw | rorw
  | zexth
deriving DecidableEq, Repr

/-- One-operand operations of Zbb. -/
inductive UnOp where
  | clz | ctz | cpop | clzw | ctzw | cpopw | sextb | sexth | orcb | rev8
deriving DecidableEq, Repr

/-- Branch conditions. -/
inductive BrOp where
  | eq | ne | lt | ge | ltu | geu
deriving DecidableEq, Repr

/-- The standard integer instructions without a row in the opcode table. -/
inductive Base where
  | lui (rd : Reg) (imm : BitVec 20)
  | auipc (rd : Reg) (imm : BitVec 20)
  | jal (rd : Reg) (off : BitVec 21)
  | jalr (rd rs1 : Reg) (imm : BitVec 12)
  | branch (op : BrOp) (rs1 rs2 : Reg) (off : BitVec 13)
  | immOp (op : AluOp) (rd rs1 : Reg) (imm : Word)
  | regOp (op : AluOp) (rd rs1 rs2 : Reg)
  | unary (op : UnOp) (rd rs1 : Reg)
deriving DecidableEq, Repr

/-- The operand fields of a 48-bit vector instruction (R157): lookahead, latch-destination bit, key, the S bit,
the memory format code of classes 4 and 5, and the four 6-bit register or immediate fields. -/
structure VOp where
  la : BitVec 4
  dk : Bool
  km : BitVec 3
  s : Bool
  fmt : BitVec 4
  vs3 : BitVec 6
  vs2 : BitVec 6
  vs1 : BitVec 6
  vd : BitVec 6
deriving DecidableEq, Repr

/-- The register a REGISTER_WRITE step writes: a CSR by number, an MMIO register by its offset in the MMIO region and the
size of the store, a host-port register that the host writes through BAR0 (R9, R293, R294), or PF0's AtomicOp Requester
Enable in its configuration space (R302). -/
inductive RegTarget where
  | csr (n : BitVec 12)
  | mmio (off : Nat) (size : Nat)
  | bar0 (off : Nat) (size : Nat)
  | atomicEnable
deriving DecidableEq, Repr

/-- The data of a write that arrives at a port, and whether its TLP is marked as poisoned (R364). -/
structure Tlp where
  data : List Byte
  poisoned : Bool
deriving DecidableEq, Repr

/-- What a request of the twin module asks for (R303). -/
inductive TwinOp where
  | read (n : Nat)
  | write (data : List Byte) (poisoned : Bool)
  | fetchAdd (n : Nat) (v : Word) (poisoned : Bool)
  | swap (n : Nat) (v : Word) (poisoned : Bool)
  | doorbell (idx : Nat) (v : Word) (sender : Nat)
deriving DecidableEq, Repr

/-- Where an ECC event strikes (R359). `refetched` is a copy of translations for an address, or of instructions; `buffered` a sector
in the strip buffer; `command` a byte that the oldest unfinished command of a hart's context carries in its engine's buffers; `frame` the
next frame in a fronthaul port's buffers. -/
inductive EccLoc where
  | vecLane (lane : BitVec 5) (reg : BitVec 6) (byte : Nat)
  | xReg (r : Reg)
  | fReg (r : Reg)
  | keyReg (k : BitVec 3) (granule : BitVec 5)
  | csr (n : BitVec 12)
  | accElem (cl row : Nat) (idx : Nat)
  | refetched (va : Nat)
  | sector (pa : Nat)
  | buffered (sector : Nat)
  | command (hart ctx : Nat) (byte : Nat)
  | frame (port : Nat) (sending : Bool)
  | l2Entry (pa : Nat)
  | l2Tag | dquEntry | rcbCopy | leaseTable | faultPtr
deriving DecidableEq, Repr

end Sys2Proof
end

