-- ==== Sys2Proof/Syntax.lean ====
section
/-! DEFINITION. The instruction type: one constructor for each row of spec/opcode_table.json, in the table's order.
Instructions the cores fetch (scalar extension, standard and 48-bit vector instructions), the engine commands and weight
blocks, and the steps that the device or its surroundings take. -/

namespace Sys2Proof

/-- One step of the machine, one constructor per row of the opcode table. -/
inductive Instr where
  /-- vconf (R173): Sets vcfg from x[rs1][12:0], setting VBAD for an unsupported request and returning MVL times GRP. -/
  | vconf (rd : Reg) (rs1 : Reg)
  /-- vconfi (R155): Acts as vconf with vcfg[11:0] taken from the immediate and PROT set to 0. -/
  | vconfi (rd : Reg) (imm : BitVec 12)
  /-- vstrip (R52): Commits the buffered stores, writes the journal, opens a strip and grants vl. -/
  | vstrip (rd : Reg) (rs1 : Reg)
  /-- vstripi (R155): Acts as vstrip with the requested length taken from a 12-bit unsigned immediate. -/
  | vstripi (rd : Reg) (imm : BitVec 12)
  /-- vclose (R175): Performs a commit point and ends the opened strip without opening another. -/
  | vclose
  /-- jspawn (R43): Spawns a child job with one task, as jspawnn with n = 1. -/
  | jspawn (rd : Reg) (rs1 : Reg)
  /-- jspawnn (R43): Commits, validates and inherits the child RCB, enqueues n tasks and returns a result code. -/
  | jspawnn (rd : Reg) (rs1 : Reg) (rs2 : Reg)
  /-- jcont (R46): Copies a task descriptor into the continuation slot of the current job, or empties the slot when rs1 is x0. -/
  | jcont (rd : Reg) (rs1 : Reg)
  /-- tend (R50): Ends the task: commits, drains sinks, unbinds streams, sets POISON and decrements COUNT. -/
  | tend
  /-- tendr (R50): Ends the task as tend does and writes x[rs1] to the job's RESULT. -/
  | tendr (rs1 : Reg)
  /-- jabandon (R176): Commits and abandons the current job as at a cliff at this instant, stopping the task. -/
  | jabandon
  /-- jdefer (R176): Commits and defers the current job to class 3 with no cliff. -/
  | jdefer
  /-- tnow (R177): Reads the integer nanoseconds of the local CTC. -/
  | tnow (rd : Reg)
  /-- cpost (R179): Commits, reads a command word and posts it to an engine context, returning its sequence number. -/
  | cpost (rd : Reg) (rs1 : Reg)
  /-- tlread (R180): Returns DONE or POSTED of an engine context without acquiring. -/
  | tlread (rd : Reg) (rs1 : Reg)
  /-- tlwait (R180): Commits, then waits until DONE of a context reaches a number, and acquires. -/
  | tlwait (rs1 : Reg) (rs2 : Reg)
  /-- tlpoll (R180): Returns 1 with an acquire when the wait of tlwait would be satisfied, and 0 otherwise. -/
  | tlpoll (rd : Reg) (rs1 : Reg) (rs2 : Reg)
  /-- mgang (R181): Commits and joins the row hinge with a matrix command, supplying A from a vector register group. -/
  | mgangVreg (rd : Reg) (rs1 : Reg) (v : BitVec 6)
  /-- mgang (R181): Commits and joins the hinge, supplying A from memory through a base and pitches. -/
  | mgangCsram (rd : Reg) (rs1 : Reg) (rs2 : Reg) (rs3 : Reg)
  /-- mgang (R181): Commits and joins the hinge with a command that takes no A operand (MZERO, MDRAIN). -/
  | mgangNoOperand (rd : Reg) (rs1 : Reg)
  /-- wdrive (R182): Commits and joins the four row cores, handing the row to its JMA to run a weight chain. -/
  | wdrive (rs1 : Reg)
  /-- tagwany (R183): Commits, then waits until any masked copy tag is set, and acquires. -/
  | tagwany (rd : Reg) (rs1 : Reg)
  /-- tagwall (R183): Commits, then waits until every masked copy tag is set, and acquires. -/
  | tagwall (rd : Reg) (rs1 : Reg)
  /-- tagffr (R183): Returns the index of the lowest set masked tag, or 64 when none is set. -/
  | tagffr (rd : Reg) (rs1 : Reg)
  /-- tagclr (R183): Clears the masked bits of ctags. -/
  | tagclr (rs1 : Reg)
  /-- sbind (R184): Reads a stream descriptor and binds a vector register to a stream slot. -/
  | sbind (q : BitVec 3) (v : BitVec 6) (rs1 : Reg)
  /-- sunbind (R185): Unbinds a stream slot, handing on sink data or discarding source read-ahead. -/
  | sunbind (q : BitVec 3)
  /-- sflush (R185): Closes pending sink output of a slot, or discards its source read-ahead. -/
  | sflush (q : BitVec 3)
  /-- sstat (R186): Returns the status word of a stream slot. -/
  | sstat (rd : Reg) (q : BitVec 3)
  /-- sskip (R185): Discards units from a source stream, waiting for FIFO bytes as needed. -/
  | sskip (q : BitVec 3) (rs1 : Reg)
  /-- llw (R187): Consuming latch load of 4 bytes, which waits for the word to be full and clears its full bit. -/
  | llw (rd : Reg) (rs1 : Reg)
  /-- lld (R187): Consuming latch load of 8 bytes, which waits for the word to be full and clears its full bit. -/
  | lld (rd : Reg) (rs1 : Reg)
  /-- llpw (R187): Peeking latch load of 4 bytes, which waits for the word to be full and leaves the bit set. -/
  | llpw (rd : Reg) (rs1 : Reg)
  /-- llpd (R187): Peeking latch load of 8 bytes, which waits for the word to be full and leaves the bit set. -/
  | llpd (rd : Reg) (rs1 : Reg)
  /-- lsw (R187): Latch store of 4 bytes, which waits for the word to be empty and sets its full bit. -/
  | lsw (rs2 : Reg) (rs1 : Reg)
  /-- lsd (R187): Latch store of 8 bytes, which waits for the word to be empty and sets its full bit. -/
  | lsd (rs2 : Reg) (rs1 : Reg)
  /-- lclr (R187): Clears the full bit of a latch word without waiting. -/
  | lclr (rs1 : Reg)
  /-- scfence (R114): Commits and orders all earlier memory operations before all later ones at the named scope. -/
  | scfence (scope : BitVec 2)
  /-- chkerr (R188): Waits for every older instruction to complete and returns chkint. -/
  | chkerr (rd : Reg)
  /-- rnd (R189): Draws one 64-bit random value. -/
  | rnd (rd : Reg)
  /-- hret (R57): Ends a handler activation and frees the message's queue entry. -/
  | hret
  /-- hwait (R57): Waits, as wfi does, for an interrupt or for a message that starts an activation. -/
  | hwait
  /-- msend (R191): Validates a message header and sends its payload, or holds it for the next commit point on a vector core. -/
  | msend (rd : Reg) (rs1 : Reg) (rs2 : Reg)
  /-- mpoll (R193): Returns the number of pending queue entries or of messages in flight. -/
  | mpoll (rd : Reg) (rs1 : Reg)
  /-- ovfld (R194): Loads the core's overflow table. -/
  | ovfld (rs1 : Reg)
  /-- mcack (R194): Clears VALID of mcrec0 in M-mode. -/
  | mcack
  /-- LOAD (R80): Standard scalar load, checked by region and translation and returning the newest buffered data. -/
  | load (k : LoadKind) (rd : Reg) (rs1 : Reg) (imm : BitVec 12) (form : Form)
  /-- STORE (R396): Standard scalar store, checked at execution and buffered on a vector core. -/
  | store (k : StoreKind) (rs2 : Reg) (rs1 : Reg) (imm : BitVec 12) (form : Form)
  /-- AMO (R80): Standard atomic memory operation; a commit point on a vector core, and a PCIe AtomicOp on a window. -/
  | amo (op : AmoOp) (dbl : Bool) (aq : Bool) (rl : Bool) (rd : Reg) (rs1 : Reg) (rs2 : Reg)
  /-- LR_SC (R152): Load-reserved or store-conditional with a 128-byte reservation granule, counting as an AMO. -/
  | lrSc (op : LrScOp) (dbl : Bool) (aq : Bool) (rl : Bool) (rd : Reg) (rs1 : Reg) (rs2 : Reg)
  /-- fence (R109): RISC-V fence acting at DEVICE scope; a commit point on a vector core. -/
  | fence (fm : BitVec 4) (pred : BitVec 4) (succ : BitVec 4) (rd : Reg) (rs1 : Reg)
  /-- fence.i (R82): Orders instruction fetch after visible stores; a commit point. -/
  | fenceI (imm : BitVec 12) (rd : Reg) (rs1 : Reg)
  /-- sfence.vma (R106): Invalidates matching entries of the hart's L1 TLB and of the cluster L2 TLB. -/
  | sfenceVma (rs1 : Reg) (rs2 : Reg)
  /-- wfi (R152): Stalls until an interrupt is pending while the budget counts. -/
  | wfi
  /-- ecall (R331): Raises an environment call, a closing trap. -/
  | ecall
  /-- ebreak (R331): Raises a breakpoint, a closing trap. -/
  | ebreak (form : Form)
  /-- sret (R332): Returns from an S-mode trap with WARL-normalised status fields. -/
  | sret
  /-- mret (R332): Returns from an M-mode trap, releasing any forced stop that waited for it. -/
  | mret
  /-- CSR_INSTRUCTION (R10): Reads and/or writes a CSR, raising illegal instruction for a privilege breach or a write to a read-only CSR. -/
  | csr (op : CsrOp) (rd : Reg) (src : CsrSrc) (csr : BitVec 12)
  /-- FP_SCALAR_INSTRUCTION (R129): Scalar F or D instruction on a vector core's control hart, following RISC-V with fcsr. -/
  | fpScalar (op : FpOp) (form : Form)
  /-- vfadd (R226): Floating-point add, rounded once. -/
  | vfadd (o : VOp)
  /-- vfsub (R226): Floating-point subtract, rounded once. -/
  | vfsub (o : VOp)
  /-- vfmul (R226): Floating-point multiply, rounded once. -/
  | vfmul (o : VOp)
  /-- vfmin (R227): Floating-point minimum with NaN and signed-zero rules. -/
  | vfmin (o : VOp)
  /-- vfmax (R227): Floating-point maximum with NaN and signed-zero rules. -/
  | vfmax (o : VOp)
  /-- vfdiv (R226): Correctly rounded floating-point division. -/
  | vfdiv (o : VOp)
  /-- vfsgnj (R227): Takes the magnitude of a with the sign of b. -/
  | vfsgnj (o : VOp)
  /-- vfma (R226): Fused a × b + c. -/
  | vfma (o : VOp)
  /-- vfms (R226): Fused a × b − c. -/
  | vfms (o : VOp)
  /-- vfnma (R226): Fused −(a × b) − c. -/
  | vfnma (o : VOp)
  /-- vfnms (R226): Fused −(a × b) + c. -/
  | vfnms (o : VOp)
  /-- vfsqrt (R226): Correctly rounded square root. -/
  | vfsqrt (o : VOp)
  /-- vfrcp (R228): Reciprocal estimate, nearest in the element type. -/
  | vfrcp (o : VOp)
  /-- vfrsqrt (R228): Reciprocal square root estimate. -/
  | vfrsqrt (o : VOp)
  /-- vfabs (R227): Clears the sign of each element. -/
  | vfabs (o : VOp)
  /-- vfneg (R227): Inverts the sign of each element. -/
  | vfneg (o : VOp)
  /-- vfexp2 (R228): Base-2 exponential estimate. -/
  | vfexp2 (o : VOp)
  /-- vflog2 (R228): Base-2 logarithm estimate. -/
  | vflog2 (o : VOp)
  /-- vfclass (R230): Classifies each flushed source into a one-hot class mask. -/
  | vfclass (o : VOp)
  /-- vfceq (R229): Floating-point equality compare into a key register. -/
  | vfceq (o : VOp)
  /-- vfclt (R229): Floating-point less-than compare into a key register. -/
  | vfclt (o : VOp)
  /-- vfcle (R229): Floating-point less-or-equal compare into a key register. -/
  | vfcle (o : VOp)
  /-- vcadd (R241): Complex add. -/
  | vcadd (o : VOp)
  /-- vcsub (R241): Complex subtract. -/
  | vcsub (o : VOp)
  /-- vcmul (R241): Complex multiply, rounded once per component. -/
  | vcmul (o : VOp)
  /-- vcmulj (R241): Complex multiply by the conjugate of b. -/
  | vcmulj (o : VOp)
  /-- vcmac (R241): Complex multiply-accumulate into vd. -/
  | vcmac (o : VOp)
  /-- vcmacj (R241): Complex conjugate multiply-accumulate into vd. -/
  | vcmacj (o : VOp)
  /-- vcmsc (R241): Complex multiply-subtract from vd. -/
  | vcmsc (o : VOp)
  /-- vcelim (R242): Elimination step d − a×b×c, rounded once per component. -/
  | vcelim (o : VOp)
  /-- vcrcp (R243): Complex reciprocal, correctly rounded per component. -/
  | vcrcp (o : VOp)
  /-- vcnorm (R243): Squared complex magnitude. -/
  | vcnorm (o : VOp)
  /-- vcconj (R243): Complex conjugate. -/
  | vcconj (o : VOp)
  /-- vcrotj (R243): Multiplies each element by j. -/
  | vcrotj (o : VOp)
  /-- vbfly (R244): Radix-2 butterfly into a destination register pair. -/
  | vbfly (o : VOp)
  /-- vbflyi (R244): Inverse radix-2 butterfly using conjugated twiddles. -/
  | vbflyi (o : VOp)
  /-- vadd (R231): Integer add modulo 2^EW. -/
  | vadd (o : VOp)
  /-- vsub (R231): Integer subtract modulo 2^EW. -/
  | vsub (o : VOp)
  /-- vmul (R231): Low half of the integer product. -/
  | vmul (o : VOp)
  /-- vmulh (R231): High half of the signed product. -/
  | vmulh (o : VOp)
  /-- vand (R231): Bitwise AND. -/
  | vand (o : VOp)
  /-- vor (R231): Bitwise OR. -/
  | vor (o : VOp)
  /-- vxor (R231): Bitwise XOR. -/
  | vxor (o : VOp)
  /-- vsll (R231): Logical shift left. -/
  | vsll (o : VOp)
  /-- vsrl (R231): Logical shift right. -/
  | vsrl (o : VOp)
  /-- vsra (R231): Arithmetic shift right. -/
  | vsra (o : VOp)
  /-- vmin (R231): Signed minimum. -/
  | vmin (o : VOp)
  /-- vmax (R231): Signed maximum. -/
  | vmax (o : VOp)
  /-- vminu (R231): Unsigned minimum. -/
  | vminu (o : VOp)
  /-- vmaxu (R231): Unsigned maximum. -/
  | vmaxu (o : VOp)
  /-- vsadd (R231): Signed saturating add. -/
  | vsadd (o : VOp)
  /-- vceq (R232): Integer equality compare into a key register. -/
  | vceq (o : VOp)
  /-- vclt (R232): Signed less-than compare into a key register. -/
  | vclt (o : VOp)
  /-- vcltu (R232): Unsigned less-than compare into a key register. -/
  | vcltu (o : VOp)
  /-- vid (R233): Writes each element's index. -/
  | vid (o : VOp)
  /-- vmv (R233): Bit copy of a vector, or broadcast of an x register. -/
  | vmv (o : VOp)
  /-- vslideup (R246): Slides elements up by n. -/
  | vslideup (o : VOp)
  /-- vslidedn (R246): Slides elements down by n, filling with +0. -/
  | vslidedn (o : VOp)
  /-- vrotl (R246): Rotates elements toward lower indices. -/
  | vrotl (o : VOp)
  /-- vgather (R247): Gathers elements by an index vector. -/
  | vgather (o : VOp)
  /-- vzip (R247): Interleaves two vectors. -/
  | vzip (o : VOp)
  /-- vunzip (R247): Separates even and odd positions. -/
  | vunzip (o : VOp)
  /-- vbrev (R247): Bit-reversed permutation of positions. -/
  | vbrev (o : VOp)
  /-- vcompress (R247): Packs the active source elements to the bottom. -/
  | vcompress (o : VOp)
  /-- vredsum (R250): Tree-reduced sum into element 0. -/
  | vredsum (o : VOp)
  /-- vredmax (R250): Tree-reduced maximum into element 0. -/
  | vredmax (o : VOp)
  /-- vredbs (R251): Block-scaled sum over element groups. -/
  | vredbs (o : VOp)
  /-- vdot (R250): Dot product by tree reduction. -/
  | vdot (o : VOp)
  /-- vext (R248): Extracts one element to an x register. -/
  | vext (o : VOp)
  /-- vins (R248): Inserts an x register value into one element. -/
  | vins (o : VOp)
  /-- kand (R234): Key AND. -/
  | kand (o : VOp)
  /-- kor (R234): Key OR. -/
  | kor (o : VOp)
  /-- kxor (R234): Key XOR. -/
  | kxor (o : VOp)
  /-- kandn (R234): Key AND-NOT. -/
  | kandn (o : VOp)
  /-- knot (R234): Key NOT. -/
  | knot (o : VOp)
  /-- kpop (R234): Counts set key bits below vl. -/
  | kpop (o : VOp)
  /-- kffs (R234): Finds the first set key bit below vl. -/
  | kffs (o : VOp)
  /-- kvl (R234): Sets key bits below a scalar length. -/
  | kvl (o : VOp)
  /-- vfcvtif (R235): Converts integer elements to floating point. -/
  | vfcvtif (o : VOp)
  /-- vfcvtfi (R235): Converts floating-point elements to saturated integers. -/
  | vfcvtfi (o : VOp)
  /-- vpwl (R237): Applies a 16-segment piecewise-linear function. -/
  | vpwl (o : VOp)
  /-- vbscale (R236): Derives one block scale per block of elements. -/
  | vbscale (o : VOp)
  /-- vrnd (R238): Writes one random draw per active element. -/
  | vrnd (o : VOp)
  /-- vracc (R239): Reads the core's accumulator slice into a vector. -/
  | vracc (o : VOp)
  /-- vwacc (R239): Writes a vector into the core's accumulator slice. -/
  | vwacc (o : VOp)
  /-- vzacc (R239): Zeroes the core's slice of an accumulator. -/
  | vzacc (o : VOp)
  /-- vld (R217): Unit-stride vector load with widening. -/
  | vld (o : VOp)
  /-- vlds (R217): Strided vector load. -/
  | vlds (o : VOp)
  /-- vldx (R217): Indexed vector load. -/
  | vldx (o : VOp)
  /-- vldbs (R218): Block-scaled vector load. -/
  | vldbs (o : VOp)
  /-- vldk (R219): Loads key bits from memory. -/
  | vldk (o : VOp)
  /-- vst (R217): Unit-stride vector store with narrowing. -/
  | vst (o : VOp)
  /-- vsts (R217): Strided vector store. -/
  | vsts (o : VOp)
  /-- vstx (R217): Indexed vector store. -/
  | vstx (o : VOp)
  /-- vstbs (R218): Block-scaled vector store, writing elements and scales. -/
  | vstbs (o : VOp)
  /-- vstk (R219): Stores key bits to memory. -/
  | vstk (o : VOp)
  /-- vamo (R220): Commits, checks every element, then performs per-element atomic operations. -/
  | vamo (o : VOp)
  /-- VCFG_WRITE (R173): A CSR write of vcfg performs vconf with the written value. -/
  | vcfgWrite (v : Word)
  /-- LANEMAP_WRITE (R200): Sets the active lanes from the next task start, recording retirements permanently. -/
  | lanemapWrite (v : Word)
  /-- SRVROLE_WRITE (R55): Sets a stream core's role while the role map is unlocked. -/
  | srvroleWrite (v : Word)
  /-- REGISTER_WRITE (R9): Write to a CSR or MMIO register that has no behaviour of its own, under its access codes and store permissions. -/
  | registerWrite (t : RegTarget) (v : Word)
  /-- BMODE_WRITE (R84): Updates CHAN and WINEN and starts a bank mode change when MODE differs. -/
  | bmodeWrite (cl : Nat) (bank : Nat) (v : Word)
  /-- MODE_CHANGE_COMPLETE (R84): A bank mode change finishes, BUSY clears and stalled accesses proceed under the new mode. -/
  | modeChangeComplete (cl : Nat) (bank : Nat)
  /-- FQLEVEL_RESET (R399): Empties an arrival queue, moving HEAD to the tail and zeroing LEVEL and DROPS. -/
  | fqlevelReset (cl : Nat) (bank : Nat)
  /-- FLUSHALL (R98): Starts writing back every dirty line, dropping all tags, freeing entries and renewing domain keys. -/
  | flushall
  /-- DOMCLR (R98): Starts writing back and dropping every tag of one dedup domain. -/
  | domclr (dom : BitVec 12)
  /-- CLRCNT (R98): Zeroes the L2 event counters. -/
  | clrcnt
  /-- L2_COMMAND_COMPLETE (R98): A running L2CMD operation completes and BUSY clears. -/
  | l2CommandComplete
  /-- L2_WRITEBACK (R397): Dirty data is written back to the L2 at an implementation-chosen instant. -/
  | l2Writeback (line : Nat) (dom : Option (BitVec 12)) (dirty : Bool)
  /-- L2_ALLOCATION_TIMEOUT (R95): After 512 cycles without a free entry, the request proceeds without allocation and WTHRU increments. -/
  | l2AllocationTimeout (line : Nat) (isWrite : Bool)
  /-- EFWAKE_WRITE (R342): Marks chain repair complete on named rows, releasing a waiting resume. -/
  | efwakeWrite (cl : Nat) (rows : BitVec 4)
  /-- TSTEP_WRITE (R378): Steps a time counter forward while unlocked, firing the skipped scheduling events. -/
  | tstepWrite (ctr : Nat) (v : Word)
  /-- TBEACON (R310): Sends a beacon carrying the counter's value to another counter. -/
  | tbeacon (ctr : Nat) (target : Nat)
  /-- BEACON_RECEIVE (R310): A beacon arrives and TDIFF and TDSRC are updated. -/
  | beaconReceive (ctr : Nat) (src : Nat)
  /-- TXPROD_WRITE (R309): Makes transmit descriptors ready on a fronthaul ring. -/
  | txprodWrite (port : Nat) (ring : Nat) (v : Word)
  /-- TX_LAUNCH (R309): At its LAUNCH time the port sends a frame, or marks it LATE, and writes back DONE. -/
  | txLaunch (port : Nat) (ring : Nat)
  /-- PWRCAP_WRITE (R27): Firmware sets its power-cap source. -/
  | pwrcapWrite (v : Word)
  /-- I3C_POWER_CAP_WRITE (R27): The management controller sets its power-cap source over I3C. -/
  | i3cPowerCapWrite (v : Word)
  /-- POWER_CAP_APPLY (R27): A new effective cap takes effect within 1 ms of the write. -/
  | powerCapApply
  /-- POWER_WINDOW (R28): Each 1 ms average is compared with the cap and grants and pacing are adjusted. -/
  | powerWindow (watts : Nat)
  /-- GRANT_RAISE (R29): Grants rise by one eighth every 100 µs once the average falls below the cap. -/
  | grantRaise
  /-- COLD_START_REQUEST (R311): RSTREQ 01 starts a cold start. -/
  | coldStartRequest
  /-- WARM_START_REQUEST (R313): RSTREQ 10 begins orderly shutdown, then a warm start. -/
  | warmStartRequest
  /-- SHUTDOWN_DRAIN_TIMEOUT (R313): After 10 ms the remaining tasks and commands take forced stops and shutdown proceeds. -/
  | shutdownDrainTimeout
  /-- ROLELOCK_WRITE (R315): Locks the role map and starts DQU dispatch. -/
  | rolelockWrite (v : Word)
  /-- ATTEST (R317): Writes a signed attestation report over a nonce. -/
  | attest
  /-- LCSET (R319): Checks an authorised life-cycle transition, records it with a pending wipe and forces a cold start. -/
  | lcset
  /-- SVNSET (R317): Raises the stored minimum security version. -/
  | svnset
  /-- MAILBOX_BADOP (R317): An unassigned mailbox opcode completes with RESULT BADOP. -/
  | mailboxBadop
  /-- POWER_ON (R312): Power-on runs the start steps through firmware verification to hart start. -/
  | powerOn
  /-- I3C_COLD_REQUEST (R391): An I3C cold request begins a fresh cold start. -/
  | i3cColdRequest
  /-- FREEZE (R321): Asserting the FREEZE pin stops every die clock within 3 cycles. -/
  | freeze
  /-- HOST_SUBMISSION (R296): A 128-byte DMWr to a submission page is retried, refused or accepted as a root job. -/
  | hostSubmission (page : Nat) (off : Nat) (record : Tlp)
  /-- SUBMISSION_PAGE_OTHER_ACCESS (R295): Any other write to a submission page is dropped, and a read completes Unsupported Request. -/
  | submissionPageOtherAccess (page : Nat) (isRead : Bool)
  /-- HOST_PORT_RESET (R299): A hot reset, FLR or host link loss resets PF0 state and abandons non-KEEP jobs as HOST_LOST. -/
  | hostPortReset
  /-- HOST_LINK_UP (R387): The host link trains, UP sets and event 2 is sent. -/
  | hostLinkUp
  /-- HOST_RING_ITIME (R298): ITIME µs after the oldest pending record, the ring's MSI-X interrupt is sent. -/
  | hostRingItime (ring : Nat)
  /-- CXL_MEM_ACCESS (R300): A host CXL.mem access reaches LPDDR6 through the L2 within the HDM range. -/
  | cxlMemAccess (off : Nat) (len : Nat) (data : Option (List Byte)) (poisoned : Bool)
  /-- TWIN_REQUEST (R303): A memory request or AtomicOp from the twin is served within the exported ranges or aborted. -/
  | twinRequest (pa : Nat) (op : TwinOp)
  /-- TWDOOR_STORE (R304): An 8-byte store to TWDOOR rings a stream-core queue on the twin. -/
  | twdoorStore (idx : Nat) (v : Word)
  /-- TWIN_HEARTBEAT_SEND (R303): Every 10 µs the module sends a heartbeat to its twin. -/
  | twinHeartbeatSend
  /-- TWIN_HEARTBEAT_RECEIVE (R388): A heartbeat arrives; when UP was clear it sets and event 4 is sent. -/
  | twinHeartbeatReceive
  /-- TWIN_HEARTBEAT_TIMEOUT (R388): 30 µs without a heartbeat clears UP and twin accesses fail. -/
  | twinHeartbeatTimeout
  /-- FRAME_RECEIVE (R305): A received frame is checked, routed and landed, or dropped and counted. -/
  | frameReceive (port : Nat) (sub : Nat) (fcsOk : Bool) (frame : List Byte)
  /-- SUBPORT_LINK_LOST (R386): A fronthaul sub-port loses its link, setting LOS and sending event 5. -/
  | subportLinkLost (port : Nat) (sub : Nat)
  /-- SUBPORT_LINK_UP (R385): A fronthaul sub-port link comes up and event 6 is sent. -/
  | subportLinkUp (port : Nat) (sub : Nat)
  /-- MESSAGE_LAND (R191): A message reaches its destination and lands whole with its transform, once room exists. -/
  | messageLand (idx : Nat)
  /-- HANDLER_ACTIVATION (R57): A waiting hwait starts an activation for a queued message. -/
  | handlerActivation
  /-- COMPLETION_MESSAGE_SEND (R375): A waiting completion message is delivered once its queue has room, or dropped beyond 256. -/
  | completionMessageSend
  /-- PREFETCH_FILL (R61): The DQU fills an empty prefetch slot with the task chosen by R63. -/
  | prefetchFill (hart : Nat)
  /-- PREFETCH_RECALL (R62): An unstarted prefetched task is returned to the tideline for a more urgent one. -/
  | prefetchRecall (hart : Nat)
  /-- WAITING_CONTINUATION_ENQUEUE (R374): A continuation that waited for a free queue entry is enqueued when one frees. -/
  | waitingContinuationEnqueue
  /-- JOB_RELEASE (R74): A PENDING job becomes RUNNING at its release time. -/
  | jobRelease (job : Nat)
  /-- JOB_CLIFF (R75): At its cliff a job is abandoned under DROP or deferred under DEFER. -/
  | jobCliff (job : Nat)
  /-- ABANDON_SIGNAL (R75): The abandon signal reaches a running core, which stops at its next commit point or at once. -/
  | abandonSignal
  /-- ABANDON_GRACE_EXPIRY (R75): At cliff + 2,000 ns a task still running takes a forced stop. -/
  | abandonGraceExpiry
  /-- BUDGET_EXPIRY (R346): tbudget reaches zero and the task takes a forced stop, with a BUDGET record. -/
  | budgetExpiry
  /-- RECLAIM_LATE (R376): Reclaim exceeds the lease cap plus 200 ns and RCLATE counts it. -/
  | reclaimLate (cl : Nat) (row : Nat)
  /-- PROGRESS_TIMEOUT (R345): The element-progress timer expires and the core raises PROGRESS. -/
  | progressTimeout
  /-- INTERRUPT (R54): An interrupt is taken, rewinding an opened strip or leaving a wait. -/
  | interrupt (code : BitVec 6)
  /-- LATCH_WAIT_END (R86): A latch operation or window write waiting on a full bit completes once the word changes state. -/
  | latchWaitEnd
  /-- TIMELINE_WAIT_END (R180): A waiting tlwait completes once DONE reaches its number. -/
  | timelineWaitEnd
  /-- TAG_WAIT_END (R183): A waiting tag wait completes once its tag condition holds. -/
  | tagWaitEnd
  /-- STREAM_WAIT_END (R213): A pop, push or sskip that stalled resumes once data or space arrives. -/
  | streamWaitEnd
  /-- POST_STALL_END (R179): A stalled cpost or mgang proceeds once COUNT or queue space frees. -/
  | postStallEnd
  /-- CHAIN_START (R273): After the wdrive joins and earlier matrix commands complete, the JMA begins the chain. -/
  | chainStart (cl : Nat) (row : Nat)
  /-- WDENSE (R282): Dense weight block computes into staging and merges. -/
  | wdense (cl : Nat) (row : Nat)
  /-- WSPARSE (R282): Structured-sparse weight block computes and merges. -/
  | wsparse (cl : Nat) (row : Nat)
  /-- WTWO (R282): W2 weight block computes, merges and may set SAT. -/
  | wtwo (cl : Nat) (row : Nat)
  /-- WLRC (R283): Adds a low-rank correction to the working tiles. -/
  | wlrc (cl : Nat) (row : Nat)
  /-- WACT (R284): Applies a piecewise-linear function to the working tiles. -/
  | wact (cl : Nat) (row : Nat)
  /-- WOUT (R285): Narrows the working tiles to memory or to a latch window. -/
  | wout (cl : Nat) (row : Nat)
  /-- WOUT_WINDOW_TIMEOUT (R291): A WOUT window wait times out and the chain ends with PROGRESS. -/
  | woutWindowTimeout (cl : Nat) (row : Nat) (col : Nat)
  /-- WSEL (R286): Transfers on SAT, a threshold or always. -/
  | wsel (cl : Nat) (row : Nat)
  /-- WCALL (R287): Pushes the successor on the link stack and transfers. -/
  | wcall (cl : Nat) (row : Nat)
  /-- WRET (R287): Pops the link stack and transfers. -/
  | wret (cl : Nat) (row : Nat)
  /-- WEND (R287): Ends the chain with DONE and resumes the cores. -/
  | wend (cl : Nat) (row : Nat)
  /-- MMA (R258): Dense matrix multiply-accumulate into a tile. -/
  | mma (cl : Nat) (row : Nat)
  /-- MMAS (R259): Structured-sparse matrix multiply-accumulate. -/
  | mmas (cl : Nat) (row : Nat)
  /-- MMAW2 (R258): W2 weights times INT8 activations multiply-accumulate. -/
  | mmaw2 (cl : Nat) (row : Nat)
  /-- MSLIDE (R258): Sliding correlation of taps against a signal. -/
  | mslide (cl : Nat) (row : Nat)
  /-- MZERO (R260): Zeroes an accumulator tile. -/
  | mzero (cl : Nat) (row : Nat)
  /-- MDRAIN (R260): Writes a tile to memory narrowed, optionally zeroing it. -/
  | mdrain (cl : Nat) (row : Nat)
  /-- MATRIX_COMMAND_COMPLETE (R261): A matrix command finishes, merging its contribution and advancing DONE of context 0. -/
  | matrixCommandComplete (cl : Nat) (row : Nat)
  /-- COPYND (R263): Copies a tensor of up to 7 dimensions with a transform, skipping faulting sectors. -/
  | copynd (cl : Nat) (ce : Nat) (queue : Nat)
  /-- FILL (R264): Writes LEN bytes of a repeating pattern. -/
  | fill (cl : Nat) (ce : Nat) (queue : Nat)
  /-- REPLAY (R264): Copies the miss list of a PARTIAL command and completes it when all succeed. -/
  | replay (cl : Nat) (ce : Nat) (queue : Nat)
  /-- LDPCDEC (R269): Layered offset min-sum LDPC decoding, with optional HARQ combining. -/
  | ldpcdec (hart : Nat)
  /-- LDPCENC (R268): LDPC encoding per TS 38.212. -/
  | ldpcenc (hart : Nat)
  /-- POLDEC (R269): Successive-cancellation list polar decoding. -/
  | poldec (hart : Nat)
  /-- POLENC (R268): Polar encoding per TS 38.212. -/
  | polenc (hart : Nat)
  /-- RMATCH (R268): Rate matching by bit selection and interleaving. -/
  | rmatch (hart : Nat)
  /-- DEMATCH (R268): Inverse rate matching of LLRs, with optional HARQ combining. -/
  | dematch (hart : Nat)
  /-- COMMAND_PUBLISH (R266): A copy or codec command writes its record, advances DONE, sets its tag and decrements COUNT. -/
  | commandPublish (hart : Nat) (ctx : Nat)
  /-- HELD_FAULT_RECORD_WRITE (R382): A held fault record is written when queue space frees. -/
  | heldFaultRecordWrite (cl : Nat)
  /-- RESIDUE_MISMATCH (R351): A residue mismatch rewinds and replays or re-executes, raising cause 48 on the third attempt. -/
  | residueMismatch (dclass : BitVec 2) (elem : BitVec 16) (lane : Option (BitVec 5))
  /-- MIRROR_MISMATCH (R358): A primary and mirror result differ under PROT, replaying and raising MIRROR on the third attempt. -/
  | mirrorMismatch (elem : BitVec 16) (lane : BitVec 5) (mlane : BitVec 5)
  /-- JMA_RESIDUE_MISMATCH (R353): A slice mismatch reruns the command or block, failing it on the third mismatch. -/
  | jmaResidueMismatch (cl : Nat) (row : Nat) (col : Nat)
  /-- ECC_CORRECTED (R360): A corrected error is written back corrected and CORR is set for the consumer. -/
  | eccCorrected (loc : EccLoc)
  /-- ECC_UNCORRECTABLE (R359): An uncorrectable error poisons its granule or is fatal. -/
  | eccUncorrectable (loc : EccLoc)
  /-- PATROL_SCRUB (R360): Patrol scrubbing reads and corrects sectors on its schedule. -/
  | patrolScrub
  /-- POWER_LOSS (R391): Power is lost at any instant, during a start or in operation, ending all activity with no ORDERLY record left behind. -/
  | powerLoss
  /-- MILZIN_CREDIT (R304): A Milzin credit returns from the twin, and a TWDOOR store stalled for lack of credit proceeds. -/
  | milzinCredit
deriving DecidableEq, Repr

end Sys2Proof
end

