-- ==== Sys2Proof/WellFormed.lean ====
section
/-! DEFINITION. Which instructions are well formed: the field rules of R153 to R159 and of the standard encodings. -/

namespace Sys2Proof

/-- The shapes of R158. `AD` and `TD` are shapes A and T of the instructions that read their destination, which never
name a latch window (R157); the shapes from `L` on are those of classes 4 and 5 (R159, R217 to R220). -/
inductive Shape where
  | A | AD | T | TD | U | Z | V | K | P | I | E | N | B | R | W | W0 | KK | KU | XK | KX
  | L | LS | LX | LB | LK | AM
deriving DecidableEq, Repr

/-- Whether FUNCT[6] may be set (R157, R159). -/
inductive SMode where
  | no | opt | req
deriving DecidableEq, Repr

/-- The place of a vector instruction in the tables of R159: CLASS, FUNCT[5:0] (FUNCT[5:4] in classes 4 and 5), its
shape and its S column. -/
structure VRow where
  cls : Nat
  fn : Nat
  shape : Shape
  sm : SMode
deriving DecidableEq, Repr

/-- The row of R159's tables that a vector instruction stands in, with its operand fields. -/
def Instr.vrow : Instr → Option (VRow × VOp)
  | .vfadd o => some (⟨0, 0, .A, .opt⟩, o)
  | .vfsub o => some (⟨0, 1, .A, .opt⟩, o)
  | .vfmul o => some (⟨0, 2, .A, .opt⟩, o)
  | .vfmin o => some (⟨0, 3, .A, .opt⟩, o)
  | .vfmax o => some (⟨0, 4, .A, .opt⟩, o)
  | .vfdiv o => some (⟨0, 5, .A, .opt⟩, o)
  | .vfsgnj o => some (⟨0, 6, .A, .opt⟩, o)
  | .vfma o => some (⟨0, 8, .T, .opt⟩, o)
  | .vfms o => some (⟨0, 9, .T, .opt⟩, o)
  | .vfnma o => some (⟨0, 10, .T, .opt⟩, o)
  | .vfnms o => some (⟨0, 11, .T, .opt⟩, o)
  | .vfsqrt o => some (⟨0, 16, .U, .no⟩, o)
  | .vfrcp o => some (⟨0, 17, .U, .no⟩, o)
  | .vfrsqrt o => some (⟨0, 18, .U, .no⟩, o)
  | .vfabs o => some (⟨0, 19, .U, .no⟩, o)
  | .vfneg o => some (⟨0, 20, .U, .no⟩, o)
  | .vfexp2 o => some (⟨0, 21, .U, .no⟩, o)
  | .vflog2 o => some (⟨0, 22, .U, .no⟩, o)
  | .vfclass o => some (⟨0, 23, .U, .no⟩, o)
  | .vfceq o => some (⟨0, 24, .K, .opt⟩, o)
  | .vfclt o => some (⟨0, 25, .K, .opt⟩, o)
  | .vfcle o => some (⟨0, 26, .K, .opt⟩, o)
  | .vcadd o => some (⟨1, 0, .A, .opt⟩, o)
  | .vcsub o => some (⟨1, 1, .A, .opt⟩, o)
  | .vcmul o => some (⟨1, 2, .A, .opt⟩, o)
  | .vcmulj o => some (⟨1, 3, .A, .opt⟩, o)
  | .vcmac o => some (⟨1, 4, .AD, .opt⟩, o)
  | .vcmacj o => some (⟨1, 5, .AD, .opt⟩, o)
  | .vcmsc o => some (⟨1, 6, .AD, .opt⟩, o)
  | .vcelim o => some (⟨1, 8, .TD, .opt⟩, o)
  | .vcrcp o => some (⟨1, 16, .U, .no⟩, o)
  | .vcnorm o => some (⟨1, 17, .U, .no⟩, o)
  | .vcconj o => some (⟨1, 18, .U, .no⟩, o)
  | .vcrotj o => some (⟨1, 19, .U, .no⟩, o)
  | .vbfly o => some (⟨1, 24, .P, .no⟩, o)
  | .vbflyi o => some (⟨1, 25, .P, .no⟩, o)
  | .vadd o => some (⟨2, 0, .A, .opt⟩, o)
  | .vsub o => some (⟨2, 1, .A, .opt⟩, o)
  | .vmul o => some (⟨2, 2, .A, .opt⟩, o)
  | .vmulh o => some (⟨2, 3, .A, .opt⟩, o)
  | .vand o => some (⟨2, 4, .A, .opt⟩, o)
  | .vor o => some (⟨2, 5, .A, .opt⟩, o)
  | .vxor o => some (⟨2, 6, .A, .opt⟩, o)
  | .vsll o => some (⟨2, 7, .A, .opt⟩, o)
  | .vsrl o => some (⟨2, 8, .A, .opt⟩, o)
  | .vsra o => some (⟨2, 9, .A, .opt⟩, o)
  | .vmin o => some (⟨2, 10, .A, .opt⟩, o)
  | .vmax o => some (⟨2, 11, .A, .opt⟩, o)
  | .vminu o => some (⟨2, 12, .A, .opt⟩, o)
  | .vmaxu o => some (⟨2, 13, .A, .opt⟩, o)
  | .vsadd o => some (⟨2, 14, .A, .opt⟩, o)
  | .vceq o => some (⟨2, 16, .K, .opt⟩, o)
  | .vclt o => some (⟨2, 17, .K, .opt⟩, o)
  | .vcltu o => some (⟨2, 18, .K, .opt⟩, o)
  | .vid o => some (⟨2, 24, .Z, .no⟩, o)
  | .vmv o => some (⟨2, 25, .V, .opt⟩, o)
  | .vslideup o => some (⟨3, 0, .I, .opt⟩, o)
  | .vslidedn o => some (⟨3, 1, .I, .opt⟩, o)
  | .vrotl o => some (⟨3, 2, .I, .opt⟩, o)
  | .vgather o => some (⟨3, 3, .A, .no⟩, o)
  | .vzip o => some (⟨3, 4, .A, .no⟩, o)
  | .vunzip o => some (⟨3, 5, .A, .no⟩, o)
  | .vbrev o => some (⟨3, 6, .U, .no⟩, o)
  | .vcompress o => some (⟨3, 7, .U, .no⟩, o)
  | .vredsum o => some (⟨3, 16, .U, .no⟩, o)
  | .vredmax o => some (⟨3, 17, .U, .no⟩, o)
  | .vredbs o => some (⟨3, 18, .A, .no⟩, o)
  | .vdot o => some (⟨3, 19, .A, .no⟩, o)
  | .vext o => some (⟨3, 24, .E, .opt⟩, o)
  | .vins o => some (⟨3, 25, .N, .opt⟩, o)
  | .kand o => some (⟨6, 0, .KK, .no⟩, o)
  | .kor o => some (⟨6, 1, .KK, .no⟩, o)
  | .kxor o => some (⟨6, 2, .KK, .no⟩, o)
  | .kandn o => some (⟨6, 3, .KK, .no⟩, o)
  | .knot o => some (⟨6, 4, .KU, .no⟩, o)
  | .kpop o => some (⟨6, 5, .XK, .no⟩, o)
  | .kffs o => some (⟨6, 6, .XK, .no⟩, o)
  | .kvl o => some (⟨6, 7, .KX, .req⟩, o)
  | .vfcvtif o => some (⟨7, 0, .U, .no⟩, o)
  | .vfcvtfi o => some (⟨7, 1, .U, .no⟩, o)
  | .vpwl o => some (⟨7, 2, .A, .no⟩, o)
  | .vbscale o => some (⟨7, 8, .B, .no⟩, o)
  | .vrnd o => some (⟨7, 16, .Z, .no⟩, o)
  | .vracc o => some (⟨7, 24, .R, .no⟩, o)
  | .vwacc o => some (⟨7, 25, .W, .no⟩, o)
  | .vzacc o => some (⟨7, 26, .W0, .no⟩, o)
  | .vld o => some (⟨4, 0, .L, .no⟩, o)
  | .vlds o => some (⟨4, 0, .LS, .req⟩, o)
  | .vldx o => some (⟨4, 1, .LX, .no⟩, o)
  | .vldbs o => some (⟨4, 2, .LB, .req⟩, o)
  | .vldk o => some (⟨4, 3, .LK, .no⟩, o)
  | .vst o => some (⟨5, 0, .L, .no⟩, o)
  | .vsts o => some (⟨5, 0, .LS, .req⟩, o)
  | .vstx o => some (⟨5, 1, .LX, .no⟩, o)
  | .vstbs o => some (⟨5, 2, .LB, .req⟩, o)
  | .vstk o => some (⟨5, 3, .LK, .no⟩, o)
  | .vamo o => some (⟨5, 2, .AM, .no⟩, o)
  | _ => none

/-- A field that names one of the keys 1 to 7 (R158). -/
def isKeyField (f : BitVec 6) : Bool := decide (1 ≤ f.toNat) && decide (f.toNat ≤ 7)

/-- A field that names an x register: bit 5 is zero (R158). -/
def isXField (f : BitVec 6) : Bool := decide (f.toNat < 32)

/-- The shapes whose destination may be a latch window (R157). -/
def Shape.allowsWindow : Shape → Bool
  | .A | .T | .U | .V | .Z | .I | .N | .R => true
  | _ => false

/-- The field rules of each shape (R158, R159). -/
def Shape.fieldsOk (sh : Shape) (o : VOp) : Bool :=
  match sh with
  | .A | .AD => decide (o.vs3 = 0) && (!o.s || isXField o.vs2)
  | .T | .TD => !o.s || isXField o.vs2
  | .U => decide (o.vs2 = 0) && decide (o.vs3 = 0)
  | .Z => decide (o.vs1 = 0) && decide (o.vs2 = 0) && decide (o.vs3 = 0)
  | .V => decide (o.vs3 = 0) && (if o.s then decide (o.vs1 = 0) && isXField o.vs2 else decide (o.vs2 = 0))
  | .K => decide (o.vs3 = 0) && isKeyField o.vd && (!o.s || isXField o.vs2)
  | .P => decide (o.vd.toNat % 2 = 0)
  | .I => if o.s then isXField o.vs2 && decide (o.vs3 = 0) else decide (o.vs2 = 0)
  | .E => isXField o.vd && (if o.s then isXField o.vs2 && decide (o.vs3 = 0) else decide (o.vs2 = 0))
  | .N => isXField o.vs1 && (if o.s then isXField o.vs2 && decide (o.vs3 = 0) else decide (o.vs2 = 0))
  | .B => decide (1 ≤ o.vs2.toNat) && decide (o.vs2.toNat ≤ 8)
  | .R => decide (o.vs1.toNat < 4) && decide (o.vs2 = 0) && decide (o.vs3.toNat ≤ 7)
  | .W => decide (o.vd.toNat < 4) && decide (o.vs2 = 0) && decide (o.vs3.toNat ≤ 7)
  | .W0 => decide (o.vd.toNat < 4) && decide (o.vs1 = 0) && decide (o.vs2 = 0) && decide (o.vs3 = 0)
  | .KK => isKeyField o.vd && isKeyField o.vs1 && isKeyField o.vs2 && decide (o.vs3 = 0)
  | .KU => isKeyField o.vd && isKeyField o.vs1 && decide (o.vs2 = 0) && decide (o.vs3 = 0)
  | .XK => isXField o.vd && isKeyField o.vs1 && decide (o.vs2 = 0) && decide (o.vs3 = 0)
  | .KX => isKeyField o.vd && decide (o.vs1 = 0) && isXField o.vs2 && decide (o.vs3 = 0)
  | .L => isXField o.vs1 && decide (o.vs2 = 0) && decide (o.vs3 = 0)
  | .LS => isXField o.vs1 && isXField o.vs2 && decide (o.vs3 = 0)
  | .LX => isXField o.vs1 && decide (o.vs3 = 0)
  | .LB => isXField o.vs1 && isXField o.vs2
  | .LK => isXField o.vs1 && isKeyField o.vd && decide (o.vs2 = 0) && decide (o.vs3 = 0)
  | .AM => isXField o.vs1 && decide (o.vs3.toNat ≤ 8)

/-- The instructions whose KM is required to be zero: class 6 and the accumulator instructions (R157). -/
def VRow.noKey (r : VRow) : Bool := r.cls == 6 || r.shape == .R || r.shape == .W || r.shape == .W0

/-- The format field: a code of R126 in classes 4 and 5 (zero for key moves and `vamo`), zero elsewhere (R159). -/
def VRow.fmtOk (r : VRow) (o : VOp) : Bool :=
  if (r.cls == 4 || r.cls == 5) && r.shape != .LK && r.shape != .AM then decide (o.fmt.toNat ≤ 9)
  else decide (o.fmt = 0)

/-- The S bit against the S column (R157, R159). -/
def SMode.ok (m : SMode) (s : Bool) : Bool :=
  match m with
  | .no => !s
  | .opt => true
  | .req => s

/-- Every field rule of one vector instruction (R157 to R159). -/
def VRow.ok (r : VRow) (o : VOp) : Bool :=
  r.sm.ok o.s && r.shape.fieldsOk o && r.fmtOk o && (!r.noKey || decide (o.km = 0))
    && (!o.dk || (r.shape.allowsWindow && decide (o.vd.toNat < 8)))

/-- A rounding-mode field that RISC-V assigns: 0 to 4 or dynamic (R129). -/
def rmOk (rm : BitVec 3) : Bool := decide (rm.toNat ≠ 5) && decide (rm.toNat ≠ 6)

/-- The field rules of the scalar floating-point instructions. -/
def FpOp.ok : FpOp → Bool
  | .add _ _ _ _ rm | .sub _ _ _ _ rm | .mul _ _ _ _ rm | .div _ _ _ _ rm => rmOk rm
  | .sqrt _ _ _ rm | .toInt _ _ _ _ rm | .ofInt _ _ _ _ rm => rmOk rm
  | .madd _ _ _ _ _ rm | .msub _ _ _ _ _ rm | .nmsub _ _ _ _ _ rm | .nmadd _ _ _ _ _ rm => rmOk rm
  | .cvtSD _ _ rm | .cvtDS _ _ rm => rmOk rm
  | .sgnj _ k _ _ _ | .cmp _ k _ _ _ => decide (k.toNat ≤ 2)
  | .load _ _ _ _ | .store _ _ _ _ | .minmax _ _ _ _ _ | .classify _ _ _ | .mvXF _ _ _ | .mvFX _ _ _ => true

/-- A form field: a parcel of the C extension does not end in 0b11 (R150). -/
def Form.ok : Form → Bool
  | .w32 => true
  | .c16 p => decide (p.toNat % 4 ≠ 3)

/-- The immediate of a register-immediate operation: 12 signed bits, or a shift amount below the width. -/
def AluOp.immOk (op : AluOp) (imm : Word) : Bool :=
  match op with
  | .add | .slt | .sltu | .xor | .or | .and | .addw => decide (sextWord 12 imm.toNat = imm)
  | .sll | .srl | .sra | .ror | .slliuw => decide (imm.toNat < 64)
  | .sllw | .srlw | .sraw | .rorw => decide (imm.toNat < 32)
  | _ => false

/-- The register-register operations: every one but the immediate-only `slli.uw`. -/
def AluOp.regOk : AluOp → Bool
  | .slliuw => false
  | _ => true

/-- Which standard integer instructions are well formed. -/
def Base.ok : Base → Bool
  | .immOp op _ _ imm => op.immOk imm
  | .regOp op _ _ rs2 => op.regOk && (op != .zexth || decide (rs2 = 0))
  | .jal _ off => decide (off.toNat % 2 = 0)
  | .branch _ _ _ off => decide (off.toNat % 2 = 0)
  | _ => true

/-- The clusters, rows, columns and harts of the module (R18 to R22). -/
def isCluster (c : Nat) : Bool := decide (c < 16)
/-- A row of a cluster. -/
def isRow (c r : Nat) : Bool := decide (c < 16) && decide (r < 4)
/-- A hart number. -/
def isHart (n : Nat) : Bool := decide (n < 3328)
/-- A bank of a cluster. -/
def isBank (c b : Nat) : Bool := decide (c < 16) && decide (b < 32)
/-- A time counter (R310). -/
def isCounter (n : Nat) : Bool := decide (n ≤ 16) || (decide (24 ≤ n) && decide (n ≤ 31))
/-- A queue of a copy engine (R178). -/
def isCeQueue (c e q : Nat) : Bool := decide (c < 16) && decide (e < 2) && decide (q < 16)
/-- A ring or sub-port of a fronthaul port (R24, R309). -/
def isPort (p i n : Nat) : Bool := decide (p < 8) && decide (i < n)

/-- Whether an ECC event names a place the module has (R359). -/
def EccLoc.ok : EccLoc → Bool
  | .vecLane _ _ byte => decide (byte < 4096)
  | .accElem cl row idx => isRow cl row && decide (idx < 4096)
  | .command n ctx _ => isHart n && decide (1 ≤ ctx) && decide (ctx ≤ 3)
  | .frame p _ => decide (p < 8)
  | _ => true

/-- Whether the numbers of an event or of a step of an engine name parts that the module has. -/
def Instr.argsOk : Instr → Bool
  | .bmodeWrite c b _ | .modeChangeComplete c b | .fqlevelReset c b => isBank c b
  | .efwakeWrite c _ | .heldFaultRecordWrite c => isCluster c
  | .tstepWrite n _ | .tbeacon n _ => isCounter n
  | .beaconReceive n m => isCounter n && isCounter m
  | .txprodWrite p r _ | .txLaunch p r => isPort p r 16
  | .hostSubmission p o _ => decide (p < 4096) && decide (o < 4096)
  | .submissionPageOtherAccess p _ => decide (p < 4096)
  | .hostRingItime r => decide (r < 65536)
  | .twdoorStore i _ => decide (i < 49152)
  | .frameReceive p s _ _ | .subportLinkLost p s | .subportLinkUp p s => isPort p s 4
  | .prefetchFill n | .prefetchRecall n => isHart n
  | .reclaimLate c r | .chainStart c r | .wdense c r | .wsparse c r | .wtwo c r | .wlrc c r | .wact c r | .wout c r
  | .wsel c r | .wcall c r | .wret c r | .wend c r | .mma c r | .mmas c r | .mmaw2 c r | .mslide c r | .mzero c r
  | .mdrain c r | .matrixCommandComplete c r => isRow c r
  | .woutWindowTimeout c r k | .jmaResidueMismatch c r k => isRow c r && decide (k < 4)
  | .copynd c e q | .fill c e q | .replay c e q => isCeQueue c e q
  | .ldpcdec n | .ldpcenc n | .poldec n | .polenc n | .rmatch n | .dematch n => isHart n
  | .commandPublish n c => isHart n && decide (c < 4)
  | .eccCorrected l | .eccUncorrectable l => l.ok
  | _ => true

/-- Well-formed instructions. Events and engine steps have no encoding: their numbers are in range. -/
def Instr.wf (i : Instr) : Bool :=
  match i.vrow with
  | some (r, o) => r.ok o
  | none =>
    match i with
    | .lrSc op _ _ _ _ _ rs2 => op == .sc || decide (rs2 = 0)
    | .load _ _ _ _ f | .store _ _ _ _ f | .ebreak f => f.ok
    | .fpScalar op f => op.ok && f.ok
    | i => i.argsOk

end Sys2Proof
end

