-- ==== Sys2Proof/Decode.lean ====
section
/-! DEFINITION. Decoding of the instruction stream (R150 to R160), total on any bytes and rejecting by name, and the
encoder written from the same tables. -/

namespace Sys2Proof

/-- Why bytes are no instruction. The number is what `stval` or `mtval` receives (R151). -/
inductive DecodeError where
  | reservedParcel (bits : Nat)
  | unassigned32 (bits : Nat)
  | unassigned48 (bits : Nat)
  | tooLong (bits : Nat)
deriving DecidableEq, Repr

/-- The instruction bits an illegal-instruction exception reports (R151). -/
def DecodeError.bits : DecodeError → Nat
  | .reservedParcel b | .unassigned32 b | .unassigned48 b | .tooLong b => b

/-- What the bytes at the program counter are: a row of the opcode table, or a standard integer instruction. -/
inductive Decoded where
  | row (i : Instr)
  | base (b : Base) (form : Form)
deriving DecidableEq, Repr

/-- The length in bytes that the first parcel announces; none for 64 bits and longer (R150). -/
def parcelLen (p : Nat) : Option Nat :=
  if p % 4 ≠ 3 then some 2
  else if p % 32 ≠ 31 then some 4
  else if p % 64 = 31 then some 6
  else none

/-- The R-form fields of a 32-bit word, low to high (R153). -/
structure RForm where
  opc : Nat
  rd : Nat
  f3 : Nat
  rs1 : Nat
  rs2 : Nat
  f7 : Nat
deriving DecidableEq, Repr

/-- Cuts a 32-bit word into its R-form fields. -/
def rUnpack (w : Nat) : RForm where
  opc := bitsAt w 0 7
  rd := bitsAt w 7 5
  f3 := bitsAt w 12 3
  rs1 := bitsAt w 15 5
  rs2 := bitsAt w 20 5
  f7 := bitsAt w 25 7

/-- Joins R-form fields into a 32-bit word. -/
def rPack (f : RForm) : Nat :=
  f.opc + 2 ^ 7 * f.rd + 2 ^ 12 * f.f3 + 2 ^ 15 * f.rs1 + 2 ^ 20 * f.rs2 + 2 ^ 25 * f.f7

/-- The fields of a 48-bit vector instruction (R157). -/
structure VForm where
  cls : Nat
  funct : Nat
  vd : Nat
  vs1 : Nat
  vs2 : Nat
  vs3 : Nat
  km : Nat
  dk : Nat
  la : Nat
deriving DecidableEq, Repr

/-- Cuts a 48-bit instruction into its fields (R157). -/
def vUnpack (w : Nat) : VForm where
  cls := bitsAt w 6 3
  funct := bitsAt w 9 7
  vd := bitsAt w 16 6
  vs1 := bitsAt w 22 6
  vs2 := bitsAt w 28 6
  vs3 := bitsAt w 34 6
  km := bitsAt w 40 3
  dk := bitsAt w 43 1
  la := bitsAt w 44 4

/-- Joins the fields of a vector instruction (R157). -/
def vPack (f : VForm) : Nat :=
  31 + 2 ^ 6 * f.cls + 2 ^ 9 * f.funct + 2 ^ 16 * f.vd + 2 ^ 22 * f.vs1 + 2 ^ 28 * f.vs2
    + 2 ^ 34 * f.vs3 + 2 ^ 40 * f.km + 2 ^ 43 * f.dk + 2 ^ 44 * f.la

/-- A register number from a field. -/
def regOf (n : Nat) : Reg := BitVec.ofNat 5 n

/-- FUNCT from the row of the table and the operand fields (R157, R159). -/
def VRow.funct (r : VRow) (o : VOp) : Nat :=
  if r.cls == 4 || r.cls == 5 then 16 * r.fn + 64 * b2n o.s + o.fmt.toNat else r.fn + 64 * b2n o.s

/-- The 48 bits of a vector instruction (R157). -/
def VRow.encode (r : VRow) (o : VOp) : Nat :=
  vPack { cls := r.cls, funct := r.funct o, vd := o.vd.toNat, vs1 := o.vs1.toNat, vs2 := o.vs2.toNat,
          vs3 := o.vs3.toNat, km := o.km.toNat, dk := b2n o.dk, la := o.la.toNat }

/-- The operand fields of a decoded vector instruction; the format field exists in classes 4 and 5 only (R157). -/
def VForm.op (f : VForm) : VOp where
  la := BitVec.ofNat 4 f.la
  dk := f.dk == 1
  km := BitVec.ofNat 3 f.km
  s := f.funct / 64 == 1
  fmt := if f.cls == 4 || f.cls == 5 then BitVec.ofNat 4 (f.funct % 16) else 0
  vs3 := BitVec.ofNat 6 f.vs3
  vs2 := BitVec.ofNat 6 f.vs2
  vs1 := BitVec.ofNat 6 f.vs1
  vd := BitVec.ofNat 6 f.vd

/-- FUNCT[5:0], or FUNCT[5:4] in classes 4 and 5 (R157). In those classes S tells instructions apart. -/
def VForm.fn (f : VForm) : Nat :=
  if f.cls == 4 || f.cls == 5 then (f.funct % 64) / 16 else f.funct % 64

/-- The instruction of class 0 with the function code (R159). -/
def vctor0 (fn : Nat) (o : VOp) : Option Instr :=
  match fn with
  | 0 => some (.vfadd o)
  | 1 => some (.vfsub o)
  | 2 => some (.vfmul o)
  | 3 => some (.vfmin o)
  | 4 => some (.vfmax o)
  | 5 => some (.vfdiv o)
  | 6 => some (.vfsgnj o)
  | 8 => some (.vfma o)
  | 9 => some (.vfms o)
  | 10 => some (.vfnma o)
  | 11 => some (.vfnms o)
  | 16 => some (.vfsqrt o)
  | 17 => some (.vfrcp o)
  | 18 => some (.vfrsqrt o)
  | 19 => some (.vfabs o)
  | 20 => some (.vfneg o)
  | 21 => some (.vfexp2 o)
  | 22 => some (.vflog2 o)
  | 23 => some (.vfclass o)
  | 24 => some (.vfceq o)
  | 25 => some (.vfclt o)
  | 26 => some (.vfcle o)
  | _ => none

/-- The instruction of class 1 with the function code (R159). -/
def vctor1 (fn : Nat) (o : VOp) : Option Instr :=
  match fn with
  | 0 => some (.vcadd o)
  | 1 => some (.vcsub o)
  | 2 => some (.vcmul o)
  | 3 => some (.vcmulj o)
  | 4 => some (.vcmac o)
  | 5 => some (.vcmacj o)
  | 6 => some (.vcmsc o)
  | 8 => some (.vcelim o)
  | 16 => some (.vcrcp o)
  | 17 => some (.vcnorm o)
  | 18 => some (.vcconj o)
  | 19 => some (.vcrotj o)
  | 24 => some (.vbfly o)
  | 25 => some (.vbflyi o)
  | _ => none

/-- The instruction of class 2 with the function code (R159). -/
def vctor2 (fn : Nat) (o : VOp) : Option Instr :=
  match fn with
  | 0 => some (.vadd o)
  | 1 => some (.vsub o)
  | 2 => some (.vmul o)
  | 3 => some (.vmulh o)
  | 4 => some (.vand o)
  | 5 => some (.vor o)
  | 6 => some (.vxor o)
  | 7 => some (.vsll o)
  | 8 => some (.vsrl o)
  | 9 => some (.vsra o)
  | 10 => some (.vmin o)
  | 11 => some (.vmax o)
  | 12 => some (.vminu o)
  | 13 => some (.vmaxu o)
  | 14 => some (.vsadd o)
  | 16 => some (.vceq o)
  | 17 => some (.vclt o)
  | 18 => some (.vcltu o)
  | 24 => some (.vid o)
  | 25 => some (.vmv o)
  | _ => none

/-- The instruction of class 3 with the function code (R159). -/
def vctor3 (fn : Nat) (o : VOp) : Option Instr :=
  match fn with
  | 0 => some (.vslideup o)
  | 1 => some (.vslidedn o)
  | 2 => some (.vrotl o)
  | 3 => some (.vgather o)
  | 4 => some (.vzip o)
  | 5 => some (.vunzip o)
  | 6 => some (.vbrev o)
  | 7 => some (.vcompress o)
  | 16 => some (.vredsum o)
  | 17 => some (.vredmax o)
  | 18 => some (.vredbs o)
  | 19 => some (.vdot o)
  | 24 => some (.vext o)
  | 25 => some (.vins o)
  | _ => none

/-- The instruction of class 4 with the function code (R159). -/
def vctor4 (fn : Nat) (s : Bool) (o : VOp) : Option Instr :=
  match fn, s with
  | 0, false => some (.vld o)
  | 0, true => some (.vlds o)
  | 1, false => some (.vldx o)
  | 2, true => some (.vldbs o)
  | 3, false => some (.vldk o)
  | _, _ => none

/-- The instruction of class 5 with the function code (R159). -/
def vctor5 (fn : Nat) (s : Bool) (o : VOp) : Option Instr :=
  match fn, s with
  | 0, false => some (.vst o)
  | 0, true => some (.vsts o)
  | 1, false => some (.vstx o)
  | 2, true => some (.vstbs o)
  | 3, false => some (.vstk o)
  | 2, false => some (.vamo o)
  | _, _ => none

/-- The instruction of class 6 with the function code (R159). -/
def vctor6 (fn : Nat) (o : VOp) : Option Instr :=
  match fn with
  | 0 => some (.kand o)
  | 1 => some (.kor o)
  | 2 => some (.kxor o)
  | 3 => some (.kandn o)
  | 4 => some (.knot o)
  | 5 => some (.kpop o)
  | 6 => some (.kffs o)
  | 7 => some (.kvl o)
  | _ => none

/-- The instruction of class 7 with the function code (R159). -/
def vctor7 (fn : Nat) (o : VOp) : Option Instr :=
  match fn with
  | 0 => some (.vfcvtif o)
  | 1 => some (.vfcvtfi o)
  | 2 => some (.vpwl o)
  | 8 => some (.vbscale o)
  | 16 => some (.vrnd o)
  | 24 => some (.vracc o)
  | 25 => some (.vwacc o)
  | 26 => some (.vzacc o)
  | _ => none

/-- The instruction that CLASS and FUNCT name (R159). -/
def vctor (cls fn : Nat) (o : VOp) : Option Instr :=
  match cls with
  | 0 => vctor0 fn o
  | 1 => vctor1 fn o
  | 2 => vctor2 fn o
  | 3 => vctor3 fn o
  | 4 => vctor4 fn o.s o
  | 5 => vctor5 fn o.s o
  | 6 => vctor6 fn o
  | _ => vctor7 fn o

/-- Decodes 48 bits: the instruction its table names, when every field rule holds (R157 to R159). -/
def decode48 (w : Nat) : Option Instr :=
  let f := vUnpack w
  match vctor f.cls f.fn f.op with
  | some i => if i.wf then some i else none
  | none => none

/-- Decodes an R-form or I-form instruction of custom-0 (R153 to R155). -/
def decodeCustom0 (w : Nat) : Option Instr :=
  let f := rUnpack w
  let rd := regOf f.rd
  let rs1 := regOf f.rs1
  let rs2 := regOf f.rs2
  match f.f3 with
  | 1 => if f.rs1 = 0 then some (.vconfi rd (BitVec.ofNat 12 (bitsAt w 20 12))) else none
  | 2 => if f.rs1 = 0 then some (.vstripi rd (BitVec.ofNat 12 (bitsAt w 20 12))) else none
  | 0 =>
    match f.f7 with
    | 0 => if f.rs2 = 0 then some (.vconf rd rs1) else none
    | 1 => if f.rs2 = 0 then some (.vstrip rd rs1) else none
    | 2 => if f.rd = 0 ∧ f.rs1 = 0 ∧ f.rs2 = 0 then some (.vclose) else none
    | 8 => if f.rs2 = 0 then some (.jspawn rd rs1) else none
    | 9 => some (.jspawnn rd rs1 rs2)
    | 10 => if f.rs2 = 0 then some (.jcont rd rs1) else none
    | 11 => if f.rd = 0 ∧ f.rs1 = 0 ∧ f.rs2 = 0 then some (.tend) else none
    | 12 => if f.rd = 0 ∧ f.rs2 = 0 then some (.tendr rs1) else none
    | 13 => if f.rd = 0 ∧ f.rs1 = 0 ∧ f.rs2 = 0 then some (.jabandon) else none
    | 14 => if f.rd = 0 ∧ f.rs1 = 0 ∧ f.rs2 = 0 then some (.jdefer) else none
    | 15 => if f.rs1 = 0 ∧ f.rs2 = 0 then some (.tnow rd) else none
    | 16 => if f.rs2 = 0 then some (.cpost rd rs1) else none
    | 17 => if f.rs2 = 0 then some (.tlread rd rs1) else none
    | 18 => if f.rd = 0 then some (.tlwait rs1 rs2) else none
    | 19 => some (.tlpoll rd rs1 rs2)
    | 24 => if f.rd = 0 ∧ f.rs2 = 0 then some (.wdrive rs1) else none
    | 32 => if f.rs2 = 0 then some (.tagwany rd rs1) else none
    | 33 => if f.rs2 = 0 then some (.tagwall rd rs1) else none
    | 34 => if f.rs2 = 0 then some (.tagffr rd rs1) else none
    | 35 => if f.rd = 0 ∧ f.rs2 = 0 then some (.tagclr rs1) else none
    | 42 => if f.rd = 0 ∧ f.rs1 = 0 ∧ f.rs2 < 8 then some (.sunbind (BitVec.ofNat 3 f.rs2)) else none
    | 43 => if f.rd = 0 ∧ f.rs1 = 0 ∧ f.rs2 < 8 then some (.sflush (BitVec.ofNat 3 f.rs2)) else none
    | 44 => if f.rs1 = 0 ∧ f.rs2 < 8 then some (.sstat rd (BitVec.ofNat 3 f.rs2)) else none
    | 45 => if f.rd = 0 ∧ f.rs2 < 8 then some (.sskip (BitVec.ofNat 3 f.rs2) rs1) else none
    | 48 => if f.rs2 = 0 then some (.llw rd rs1) else none
    | 49 => if f.rs2 = 0 then some (.lld rd rs1) else none
    | 50 => if f.rs2 = 0 then some (.llpw rd rs1) else none
    | 51 => if f.rs2 = 0 then some (.llpd rd rs1) else none
    | 52 => if f.rd = 0 then some (.lsw rs2 rs1) else none
    | 53 => if f.rd = 0 then some (.lsd rs2 rs1) else none
    | 54 => if f.rd = 0 ∧ f.rs2 = 0 then some (.lclr rs1) else none
    | 56 => if f.rd = 0 ∧ f.rs1 = 0 ∧ f.rs2 < 4 then some (.scfence (BitVec.ofNat 2 f.rs2)) else none
    | 57 => if f.rs1 = 0 ∧ f.rs2 = 0 then some (.chkerr rd) else none
    | 58 => if f.rs1 = 0 ∧ f.rs2 = 0 then some (.rnd rd) else none
    | 64 => if f.rd = 0 ∧ f.rs1 = 0 ∧ f.rs2 = 0 then some (.hret) else none
    | 65 => if f.rd = 0 ∧ f.rs1 = 0 ∧ f.rs2 = 0 then some (.hwait) else none
    | 66 => some (.msend rd rs1 rs2)
    | 67 => if f.rs2 = 0 then some (.mpoll rd rs1) else none
    | 120 => if f.rd = 0 ∧ f.rs2 = 0 then some (.ovfld rs1) else none
    | 121 => if f.rd = 0 ∧ f.rs1 = 0 ∧ f.rs2 = 0 then some (.mcack) else none
    | 40 => if f.rs2 < 8 then some (.sbind (BitVec.ofNat 3 f.rs2) (BitVec.ofNat 6 f.rd) rs1) else none
    | 41 => if f.rs2 < 8 then some (.sbind (BitVec.ofNat 3 f.rs2) (BitVec.ofNat 6 (f.rd + 32)) rs1) else none
    | _ => none
  | _ => none

/-- Decodes the G-form of custom-1 (R153, R156). F2 is bits [26:25], rs3 bits [31:27]. -/
def decodeCustom1 (w : Nat) : Option Instr :=
  let f := rUnpack w
  let rd := regOf f.rd
  let rs1 := regOf f.rs1
  match f.f3 with
  | 0 => if f.f7 < 2 then some (.mgangVreg rd rs1 (BitVec.ofNat 6 (f.rs2 + 32 * f.f7))) else none
  | 1 => if f.f7 % 4 = 0 then some (.mgangCsram rd rs1 (regOf f.rs2) (regOf (f.f7 / 4))) else none
  | 2 => if f.rs2 = 0 ∧ f.f7 = 0 then some (.mgangNoOperand rd rs1) else none
  | _ => none

/-- The operations of OP (0b0110011): RV64I, M, Zba, Zbb. -/
def opOf (f7 f3 : Nat) : Option AluOp :=
  match f7, f3 with
  | 0, 0 => some .add | 32, 0 => some .sub | 0, 1 => some .sll | 0, 2 => some .slt | 0, 3 => some .sltu
  | 0, 4 => some .xor | 0, 5 => some .srl | 32, 5 => some .sra | 0, 6 => some .or | 0, 7 => some .and
  | 1, 0 => some .mul | 1, 1 => some .mulh | 1, 2 => some .mulhsu | 1, 3 => some .mulhu
  | 1, 4 => some .div | 1, 5 => some .divu | 1, 6 => some .rem | 1, 7 => some .remu
  | 16, 2 => some .sh1add | 16, 4 => some .sh2add | 16, 6 => some .sh3add
  | 32, 7 => some .andn | 32, 6 => some .orn | 32, 4 => some .xnor
  | 5, 4 => some .min | 5, 5 => some .minu | 5, 6 => some .max | 5, 7 => some .maxu
  | 48, 1 => some .rol | 48, 5 => some .ror
  | _, _ => none

/-- The operations of OP-32 (0b0111011). -/
def op32Of (f7 f3 : Nat) : Option AluOp :=
  match f7, f3 with
  | 0, 0 => some .addw | 32, 0 => some .subw | 0, 1 => some .sllw | 0, 5 => some .srlw | 32, 5 => some .sraw
  | 1, 0 => some .mulw | 1, 4 => some .divw | 1, 5 => some .divuw | 1, 6 => some .remw | 1, 7 => some .remuw
  | 4, 0 => some .adduw | 16, 2 => some .sh1adduw | 16, 4 => some .sh2adduw | 16, 6 => some .sh3adduw
  | 48, 1 => some .rolw | 48, 5 => some .rorw | 4, 4 => some .zexth
  | _, _ => none

/-- Decodes OP-IMM (0b0010011). -/
def decodeOpImm (w : Nat) : Option Base :=
  let f := rUnpack w
  let rd := regOf f.rd
  let rs1 := regOf f.rs1
  let imm := sextWord 12 (bitsAt w 20 12)
  let sh := BitVec.ofNat 64 (bitsAt w 20 6)
  match f.f3 with
  | 0 => some (.immOp .add rd rs1 imm)
  | 2 => some (.immOp .slt rd rs1 imm)
  | 3 => some (.immOp .sltu rd rs1 imm)
  | 4 => some (.immOp .xor rd rs1 imm)
  | 6 => some (.immOp .or rd rs1 imm)
  | 7 => some (.immOp .and rd rs1 imm)
  | 1 =>
    match bitsAt w 26 6, bitsAt w 20 12 with
    | 0, _ => some (.immOp .sll rd rs1 sh)
    | _, 0x600 => some (.unary .clz rd rs1)
    | _, 0x601 => some (.unary .ctz rd rs1)
    | _, 0x602 => some (.unary .cpop rd rs1)
    | _, 0x604 => some (.unary .sextb rd rs1)
    | _, 0x605 => some (.unary .sexth rd rs1)
    | _, _ => none
  | 5 =>
    match bitsAt w 26 6, bitsAt w 20 12 with
    | 0, _ => some (.immOp .srl rd rs1 sh)
    | 16, _ => some (.immOp .sra rd rs1 sh)
    | 24, _ => some (.immOp .ror rd rs1 sh)
    | _, 0x287 => some (.unary .orcb rd rs1)
    | _, 0x6B8 => some (.unary .rev8 rd rs1)
    | _, _ => none
  | _ => none

/-- Decodes OP-IMM-32 (0b0011011). -/
def decodeOpImm32 (w : Nat) : Option Base :=
  let f := rUnpack w
  let rd := regOf f.rd
  let rs1 := regOf f.rs1
  let sh := BitVec.ofNat 64 f.rs2
  match f.f3, f.f7 with
  | 0, _ => some (.immOp .addw rd rs1 (sextWord 12 (bitsAt w 20 12)))
  | 1, 0 => some (.immOp .sllw rd rs1 sh)
  | 1, 48 =>
    match f.rs2 with
    | 0 => some (.unary .clzw rd rs1)
    | 1 => some (.unary .ctzw rd rs1)
    | 2 => some (.unary .cpopw rd rs1)
    | _ => none
  | 1, f7 => if f7 / 2 = 2 then some (.immOp .slliuw rd rs1 (BitVec.ofNat 64 (bitsAt w 20 6))) else none
  | 5, 0 => some (.immOp .srlw rd rs1 sh)
  | 5, 32 => some (.immOp .sraw rd rs1 sh)
  | 5, 48 => some (.immOp .rorw rd rs1 sh)
  | _, _ => none

/-- Decodes the AMO major opcode (0b0101111): the A extension. -/
def decodeAmo (w : Nat) : Option Instr :=
  let f := rUnpack w
  let rd := regOf f.rd
  let rs1 := regOf f.rs1
  let rs2 := regOf f.rs2
  let aq := bitAt w 26
  let rl := bitAt w 25
  let amo (op : AmoOp) : Option Instr :=
    if f.f3 = 2 then some (.amo op false aq rl rd rs1 rs2)
    else if f.f3 = 3 then some (.amo op true aq rl rd rs1 rs2) else none
  match f.f7 / 4 with
  | 0 => amo .add
  | 1 => amo .swap
  | 2 =>
    if f.rs2 = 0 ∧ (f.f3 = 2 ∨ f.f3 = 3) then some (.lrSc .lr (f.f3 == 3) aq rl rd rs1 rs2) else none
  | 3 => if f.f3 = 2 ∨ f.f3 = 3 then some (.lrSc .sc (f.f3 == 3) aq rl rd rs1 rs2) else none
  | 4 => amo .xor
  | 8 => amo .or
  | 12 => amo .and
  | 16 => amo .min
  | 20 => amo .max
  | 24 => amo .minu
  | 28 => amo .maxu
  | _ => none

/-- Decodes SYSTEM (0b1110011): environment calls, returns, `wfi`, `sfence.vma` and Zicsr. -/
def decodeSystem (w : Nat) : Option Instr :=
  let f := rUnpack w
  let rd := regOf f.rd
  let n := BitVec.ofNat 12 (bitsAt w 20 12)
  match f.f3 with
  | 0 =>
    if f.rd = 0 ∧ f.f7 = 9 then some (.sfenceVma (regOf f.rs1) (regOf f.rs2))
    else if f.rd = 0 ∧ f.rs1 = 0 then
      match bitsAt w 20 12 with
      | 0x000 => some .ecall
      | 0x001 => some (.ebreak .w32)
      | 0x102 => some .sret
      | 0x302 => some .mret
      | 0x105 => some .wfi
      | _ => none
    else none
  | 1 => some (.csr .rw rd (.reg (regOf f.rs1)) n)
  | 2 => some (.csr .rs rd (.reg (regOf f.rs1)) n)
  | 3 => some (.csr .rc rd (.reg (regOf f.rs1)) n)
  | 5 => some (.csr .rw rd (.imm (regOf f.rs1)) n)
  | 6 => some (.csr .rs rd (.imm (regOf f.rs1)) n)
  | 7 => some (.csr .rc rd (.imm (regOf f.rs1)) n)
  | _ => none

/-- The precision a 2-bit fmt field names: 0 single, 1 double. -/
def fmtOf (n : Nat) : Option FpFmt :=
  match n with
  | 0 => some .s
  | 1 => some .d
  | _ => none

/-- Decodes OP-FP (0b1010011): F and D. -/
def decodeOpFp (w : Nat) : Option FpOp :=
  let f := rUnpack w
  let rd := regOf f.rd
  let rs1 := regOf f.rs1
  let rs2 := regOf f.rs2
  let rm := BitVec.ofNat 3 f.f3
  let k := BitVec.ofNat 2 f.rs2
  match fmtOf (f.f7 % 4) with
  | none => none
  | some p =>
    match f.f7 / 4 with
    | 0 => some (.add p rd rs1 rs2 rm)
    | 1 => some (.sub p rd rs1 rs2 rm)
    | 2 => some (.mul p rd rs1 rs2 rm)
    | 3 => some (.div p rd rs1 rs2 rm)
    | 11 => if f.rs2 = 0 then some (.sqrt p rd rs1 rm) else none
    | 4 => if f.f3 < 3 then some (.sgnj p (BitVec.ofNat 2 f.f3) rd rs1 rs2) else none
    | 5 => if f.f3 < 2 then some (.minmax p (f.f3 == 1) rd rs1 rs2) else none
    | 20 => if f.f3 < 3 then some (.cmp p (BitVec.ofNat 2 f.f3) rd rs1 rs2) else none
    | 24 => if f.rs2 < 4 then some (.toInt p k rd rs1 rm) else none
    | 26 => if f.rs2 < 4 then some (.ofInt p k rd rs1 rm) else none
    | 8 =>
      match p, f.rs2 with
      | .s, 1 => some (.cvtSD rd rs1 rm)
      | .d, 0 => some (.cvtDS rd rs1 rm)
      | _, _ => none
    | 28 =>
      if f.rs2 = 0 then
        match f.f3 with
        | 0 => some (.mvXF p rd rs1)
        | 1 => some (.classify p rd rs1)
        | _ => none
      else none
    | 30 => if f.rs2 = 0 ∧ f.f3 = 0 then some (.mvFX p rd rs1) else none
    | _ => none

/-- Decodes the four fused major opcodes. -/
def decodeFma (w : Nat) : Option FpOp :=
  let f := rUnpack w
  let rd := regOf f.rd
  let rs1 := regOf f.rs1
  let rs2 := regOf f.rs2
  let rs3 := regOf (f.f7 / 4)
  let rm := BitVec.ofNat 3 f.f3
  match fmtOf (f.f7 % 4) with
  | none => none
  | some p =>
    match f.opc with
    | 0x43 => some (.madd p rd rs1 rs2 rs3 rm)
    | 0x47 => some (.msub p rd rs1 rs2 rs3 rm)
    | 0x4B => some (.nmsub p rd rs1 rs2 rs3 rm)
    | 0x4F => some (.nmadd p rd rs1 rs2 rs3 rm)
    | _ => none

/-- The B-type offset. -/
def bOffset (w : Nat) : BitVec 13 :=
  BitVec.ofNat 13 (2 ^ 12 * bitsAt w 31 1 + 2 ^ 11 * bitsAt w 7 1 + 2 ^ 5 * bitsAt w 25 6 + 2 * bitsAt w 8 4)

/-- The J-type offset. -/
def jOffset (w : Nat) : BitVec 21 :=
  BitVec.ofNat 21 (2 ^ 20 * bitsAt w 31 1 + 2 ^ 12 * bitsAt w 12 8 + 2 ^ 11 * bitsAt w 20 1 + 2 * bitsAt w 21 10)

/-- The S-type immediate. -/
def sImm (w : Nat) : BitVec 12 := BitVec.ofNat 12 (32 * bitsAt w 25 7 + bitsAt w 7 5)

/-- Wraps a scalar floating-point operation when its rounding-mode field is assigned. -/
def fpRow (op : FpOp) (form : Form) : Option Decoded :=
  if op.ok then some (.row (.fpScalar op form)) else none

/-- Decodes a 32-bit instruction (R150, R152 to R156). -/
def decode32 (w : Nat) : Option Decoded :=
  let f := rUnpack w
  let rd := regOf f.rd
  let rs1 := regOf f.rs1
  let rs2 := regOf f.rs2
  let imm := BitVec.ofNat 12 (bitsAt w 20 12)
  let bs (b : Base) : Option Decoded := some (.base b .w32)
  let row (i : Option Instr) : Option Decoded := i.map .row
  match f.opc with
  | 0x0B => row (decodeCustom0 w)
  | 0x2B => row (decodeCustom1 w)
  | 0x37 => bs (.lui rd (BitVec.ofNat 20 (bitsAt w 12 20)))
  | 0x17 => bs (.auipc rd (BitVec.ofNat 20 (bitsAt w 12 20)))
  | 0x6F => bs (.jal rd (jOffset w))
  | 0x67 => if f.f3 = 0 then bs (.jalr rd rs1 imm) else none
  | 0x63 =>
    match f.f3 with
    | 0 => bs (.branch .eq rs1 rs2 (bOffset w))
    | 1 => bs (.branch .ne rs1 rs2 (bOffset w))
    | 4 => bs (.branch .lt rs1 rs2 (bOffset w))
    | 5 => bs (.branch .ge rs1 rs2 (bOffset w))
    | 6 => bs (.branch .ltu rs1 rs2 (bOffset w))
    | 7 => bs (.branch .geu rs1 rs2 (bOffset w))
    | _ => none
  | 0x03 =>
    let ld (k : LoadKind) : Option Decoded := some (.row (.load k rd rs1 imm .w32))
    match f.f3 with
    | 0 => ld .lb
    | 1 => ld .lh
    | 2 => ld .lw
    | 3 => ld .ld
    | 4 => ld .lbu
    | 5 => ld .lhu
    | 6 => ld .lwu
    | _ => none
  | 0x23 =>
    let st (k : StoreKind) : Option Decoded := some (.row (.store k rs2 rs1 (sImm w) .w32))
    match f.f3 with
    | 0 => st .sb
    | 1 => st .sh
    | 2 => st .sw
    | 3 => st .sd
    | _ => none
  | 0x13 => (decodeOpImm w).map (.base · .w32)
  | 0x1B => (decodeOpImm32 w).map (.base · .w32)
  | 0x33 => (opOf f.f7 f.f3).map fun op => .base (.regOp op rd rs1 rs2) .w32
  | 0x3B =>
    match op32Of f.f7 f.f3 with
    | some .zexth => if f.rs2 = 0 then bs (.regOp .zexth rd rs1 rs2) else none
    | some op => bs (.regOp op rd rs1 rs2)
    | none => none
  | 0x0F =>
    match f.f3 with
    | 0 => some (.row (.fence (BitVec.ofNat 4 (bitsAt w 28 4)) (BitVec.ofNat 4 (bitsAt w 24 4))
        (BitVec.ofNat 4 (bitsAt w 20 4)) rd rs1))
    | 1 => some (.row (.fenceI imm rd rs1))
    | _ => none
  | 0x2F => row (decodeAmo w)
  | 0x73 => row (decodeSystem w)
  | 0x07 =>
    match f.f3 with
    | 2 => fpRow (.load .s rd rs1 imm) .w32
    | 3 => fpRow (.load .d rd rs1 imm) .w32
    | _ => none
  | 0x27 =>
    match f.f3 with
    | 2 => fpRow (.store .s rs2 rs1 (sImm w)) .w32
    | 3 => fpRow (.store .d rs2 rs1 (sImm w)) .w32
    | _ => none
  | 0x53 => (decodeOpFp w).bind (fpRow · .w32)
  | 0x43 | 0x47 | 0x4B | 0x4F => (decodeFma w).bind (fpRow · .w32)
  | _ => none

/-- A register of the C extension's 3-bit fields: x8 to x15. -/
def cReg (n : Nat) : Reg := BitVec.ofNat 5 (8 + n)

/-- Quadrant 0 of the C extension. -/
def decodeC0 (p : Nat) : Option Decoded :=
  let form := Form.c16 (BitVec.ofNat 16 p)
  let rs1 := cReg (bitsAt p 7 3)
  let r2 := cReg (bitsAt p 2 3)
  let w := BitVec.ofNat 12 (8 * bitsAt p 10 3 + 4 * bitsAt p 6 1 + 64 * bitsAt p 5 1)
  let d := BitVec.ofNat 12 (8 * bitsAt p 10 3 + 64 * bitsAt p 5 2)
  match bitsAt p 13 3 with
  | 0 =>
    let imm := 16 * bitsAt p 11 2 + 64 * bitsAt p 7 4 + 4 * bitsAt p 6 1 + 8 * bitsAt p 5 1
    if imm = 0 then none else some (.base (.immOp .add r2 2 (BitVec.ofNat 64 imm)) form)
  | 1 => fpRow (.load .d r2 rs1 d) form
  | 2 => some (.row (.load .lw r2 rs1 w form))
  | 3 => some (.row (.load .ld r2 rs1 d form))
  | 5 => fpRow (.store .d r2 rs1 d) form
  | 6 => some (.row (.store .sw r2 rs1 w form))
  | 7 => some (.row (.store .sd r2 rs1 d form))
  | _ => none

/-- Quadrant 1 of the C extension. -/
def decodeC1 (p : Nat) : Option Decoded :=
  let form := Form.c16 (BitVec.ofNat 16 p)
  let rd := regOf (bitsAt p 7 5)
  let r1 := cReg (bitsAt p 7 3)
  let r2 := cReg (bitsAt p 2 3)
  let imm6 := 32 * bitsAt p 12 1 + bitsAt p 2 5
  let bs (b : Base) : Option Decoded := some (.base b form)
  let off9 : BitVec 13 := BitVec.ofInt 13 (signedOf 9
    (256 * bitsAt p 12 1 + 8 * bitsAt p 10 2 + 64 * bitsAt p 5 2 + 2 * bitsAt p 3 2 + 32 * bitsAt p 2 1))
  match bitsAt p 13 3 with
  | 0 => bs (.immOp .add rd rd (sextWord 6 imm6))
  | 1 => if rd = 0 then none else bs (.immOp .addw rd rd (sextWord 6 imm6))
  | 2 => bs (.immOp .add rd 0 (sextWord 6 imm6))
  | 3 =>
    if imm6 = 0 then none
    else if rd = 2 then
      bs (.immOp .add 2 2 (sextWord 10
        (512 * bitsAt p 12 1 + 16 * bitsAt p 6 1 + 64 * bitsAt p 5 1 + 128 * bitsAt p 3 2 + 32 * bitsAt p 2 1)))
    else bs (.lui rd (BitVec.ofInt 20 (signedOf 6 imm6)))
  | 4 =>
    match bitsAt p 10 2 with
    | 0 => bs (.immOp .srl r1 r1 (BitVec.ofNat 64 imm6))
    | 1 => bs (.immOp .sra r1 r1 (BitVec.ofNat 64 imm6))
    | 2 => bs (.immOp .and r1 r1 (sextWord 6 imm6))
    | _ =>
      match bitsAt p 12 1, bitsAt p 5 2 with
      | 0, 0 => bs (.regOp .sub r1 r1 r2)
      | 0, 1 => bs (.regOp .xor r1 r1 r2)
      | 0, 2 => bs (.regOp .or r1 r1 r2)
      | 0, 3 => bs (.regOp .and r1 r1 r2)
      | 1, 0 => bs (.regOp .subw r1 r1 r2)
      | 1, 1 => bs (.regOp .addw r1 r1 r2)
      | _, _ => none
  | 5 => bs (.jal 0 (BitVec.ofInt 21 (signedOf 12
      (2048 * bitsAt p 12 1 + 16 * bitsAt p 11 1 + 256 * bitsAt p 9 2 + 1024 * bitsAt p 8 1 + 64 * bitsAt p 7 1
        + 128 * bitsAt p 6 1 + 2 * bitsAt p 3 3 + 32 * bitsAt p 2 1))))
  | 6 => bs (.branch .eq r1 0 off9)
  | _ => bs (.branch .ne r1 0 off9)

/-- Quadrant 2 of the C extension. -/
def decodeC2 (p : Nat) : Option Decoded :=
  let form := Form.c16 (BitVec.ofNat 16 p)
  let rd := regOf (bitsAt p 7 5)
  let rs2 := regOf (bitsAt p 2 5)
  let bs (b : Base) : Option Decoded := some (.base b form)
  let dsp := BitVec.ofNat 12 (32 * bitsAt p 12 1 + 8 * bitsAt p 5 2 + 64 * bitsAt p 2 3)
  let wsp := BitVec.ofNat 12 (32 * bitsAt p 12 1 + 4 * bitsAt p 4 3 + 64 * bitsAt p 2 2)
  let sdsp := BitVec.ofNat 12 (8 * bitsAt p 10 3 + 64 * bitsAt p 7 3)
  let swsp := BitVec.ofNat 12 (4 * bitsAt p 9 4 + 64 * bitsAt p 7 2)
  match bitsAt p 13 3 with
  | 0 => bs (.immOp .sll rd rd (BitVec.ofNat 64 (32 * bitsAt p 12 1 + bitsAt p 2 5)))
  | 1 => fpRow (.load .d rd 2 dsp) form
  | 2 => if rd = 0 then none else some (.row (.load .lw rd 2 wsp form))
  | 3 => if rd = 0 then none else some (.row (.load .ld rd 2 dsp form))
  | 4 =>
    if bitsAt p 12 1 = 0 then
      if rs2 = 0 then (if rd = 0 then none else bs (.jalr 0 rd 0)) else bs (.regOp .add rd 0 rs2)
    else if rs2 = 0 then
      if rd = 0 then some (.row (.ebreak form)) else bs (.jalr 1 rd 0)
    else bs (.regOp .add rd rd rs2)
  | 5 => fpRow (.store .d rs2 2 sdsp) form
  | 6 => some (.row (.store .sw rs2 2 swsp form))
  | _ => some (.row (.store .sd rs2 2 sdsp form))

/-- Decodes a 16-bit parcel of the C extension (R150, R152). -/
def decode16 (p : Nat) : Option Decoded :=
  match p % 4 with
  | 0 => decodeC0 p
  | 1 => decodeC1 p
  | 2 => decodeC2 p
  | _ => none

/-- Decodes the instruction whose first bytes are the low bytes of w, 6 bytes of which count at most (R150). -/
def decode (w : Nat) : Except DecodeError Decoded :=
  match parcelLen (w % 2 ^ 16) with
  | some 2 =>
    match decode16 (w % 2 ^ 16) with
    | some d => .ok d
    | none => .error (.reservedParcel (w % 2 ^ 16))
  | some 4 =>
    match decode32 (w % 2 ^ 32) with
    | some d => .ok d
    | none => .error (.unassigned32 (w % 2 ^ 32))
  | some _ =>
    match decode48 (w % 2 ^ 48) with
    | some i => .ok (.row i)
    | none => .error (.unassigned48 (w % 2 ^ 48))
  | none => .error (.tooLong (w % 2 ^ 32))

/-- The instruction this decoder reads from an instruction whose bits are w, bit 0 the least significant bit of its
first word. Every parcel above the table's bits is zero. -/
def decodeTableWord (nbits w : Nat) : Option Instr :=
  match decode (w % 2 ^ nbits) with
  | .ok (.row i) => some i
  | _ => none

/-- The bits of an I-type standard instruction. -/
def iPack (opc rd f3 rs1 imm : Nat) : Nat := rPack ⟨opc, rd, f3, rs1, imm % 32, imm / 32⟩

/-- The bits of an S-type standard instruction. -/
def sPack (opc f3 rs1 rs2 imm : Nat) : Nat := rPack ⟨opc, imm % 32, f3, rs1, rs2, imm / 32⟩

/-- funct3 of a load. -/
def LoadKind.f3 : LoadKind → Nat
  | .lb => 0
  | .lh => 1
  | .lw => 2
  | .ld => 3
  | .lbu => 4
  | .lhu => 5
  | .lwu => 6

/-- funct3 of a store. -/
def StoreKind.f3 : StoreKind → Nat
  | .sb => 0
  | .sh => 1
  | .sw => 2
  | .sd => 3

/-- funct5 of an AMO. -/
def AmoOp.f5 : AmoOp → Nat
  | .add => 0
  | .swap => 1
  | .xor => 4
  | .or => 8
  | .and => 12
  | .min => 16
  | .max => 20
  | .minu => 24
  | .maxu => 28

/-- The fmt field of a precision. -/
def FpFmt.code : FpFmt → Nat
  | .s => 0
  | .d => 1

/-- The 32 bits of a scalar floating-point instruction. -/
def FpOp.encode : FpOp → Nat
  | .load f rd rs1 imm => iPack 0x07 rd.toNat (2 + f.code) rs1.toNat imm.toNat
  | .store f rs2 rs1 imm => sPack 0x27 (2 + f.code) rs1.toNat rs2.toNat imm.toNat
  | .add f rd rs1 rs2 rm => rPack ⟨0x53, rd.toNat, rm.toNat, rs1.toNat, rs2.toNat, f.code⟩
  | .sub f rd rs1 rs2 rm => rPack ⟨0x53, rd.toNat, rm.toNat, rs1.toNat, rs2.toNat, 4 + f.code⟩
  | .mul f rd rs1 rs2 rm => rPack ⟨0x53, rd.toNat, rm.toNat, rs1.toNat, rs2.toNat, 8 + f.code⟩
  | .div f rd rs1 rs2 rm => rPack ⟨0x53, rd.toNat, rm.toNat, rs1.toNat, rs2.toNat, 12 + f.code⟩
  | .sqrt f rd rs1 rm => rPack ⟨0x53, rd.toNat, rm.toNat, rs1.toNat, 0, 44 + f.code⟩
  | .madd f rd rs1 rs2 rs3 rm => rPack ⟨0x43, rd.toNat, rm.toNat, rs1.toNat, rs2.toNat, 4 * rs3.toNat + f.code⟩
  | .msub f rd rs1 rs2 rs3 rm => rPack ⟨0x47, rd.toNat, rm.toNat, rs1.toNat, rs2.toNat, 4 * rs3.toNat + f.code⟩
  | .nmsub f rd rs1 rs2 rs3 rm => rPack ⟨0x4B, rd.toNat, rm.toNat, rs1.toNat, rs2.toNat, 4 * rs3.toNat + f.code⟩
  | .nmadd f rd rs1 rs2 rs3 rm => rPack ⟨0x4F, rd.toNat, rm.toNat, rs1.toNat, rs2.toNat, 4 * rs3.toNat + f.code⟩
  | .sgnj f k rd rs1 rs2 => rPack ⟨0x53, rd.toNat, k.toNat, rs1.toNat, rs2.toNat, 16 + f.code⟩
  | .minmax f mx rd rs1 rs2 => rPack ⟨0x53, rd.toNat, b2n mx, rs1.toNat, rs2.toNat, 20 + f.code⟩
  | .cmp f k rd rs1 rs2 => rPack ⟨0x53, rd.toNat, k.toNat, rs1.toNat, rs2.toNat, 80 + f.code⟩
  | .classify f rd rs1 => rPack ⟨0x53, rd.toNat, 1, rs1.toNat, 0, 112 + f.code⟩
  | .toInt f k rd rs1 rm => rPack ⟨0x53, rd.toNat, rm.toNat, rs1.toNat, k.toNat, 96 + f.code⟩
  | .ofInt f k rd rs1 rm => rPack ⟨0x53, rd.toNat, rm.toNat, rs1.toNat, k.toNat, 104 + f.code⟩
  | .cvtSD rd rs1 rm => rPack ⟨0x53, rd.toNat, rm.toNat, rs1.toNat, 1, 32⟩
  | .cvtDS rd rs1 rm => rPack ⟨0x53, rd.toNat, rm.toNat, rs1.toNat, 0, 33⟩
  | .mvXF f rd rs1 => rPack ⟨0x53, rd.toNat, 0, rs1.toNat, 0, 112 + f.code⟩
  | .mvFX f rd rs1 => rPack ⟨0x53, rd.toNat, 0, rs1.toNat, 0, 120 + f.code⟩

/-- Major opcode, funct7 and funct3 of a register-register integer operation; `slli.uw` has no such form. -/
def AluOp.regCode : AluOp → Nat × Nat × Nat
  | .add => (0x33, 0, 0) | .sub => (0x33, 32, 0) | .sll => (0x33, 0, 1)
  | .slt => (0x33, 0, 2) | .sltu => (0x33, 0, 3) | .xor => (0x33, 0, 4)
  | .srl => (0x33, 0, 5) | .sra => (0x33, 32, 5) | .or => (0x33, 0, 6)
  | .and => (0x33, 0, 7) | .mul => (0x33, 1, 0) | .mulh => (0x33, 1, 1)
  | .mulhsu => (0x33, 1, 2) | .mulhu => (0x33, 1, 3) | .div => (0x33, 1, 4)
  | .divu => (0x33, 1, 5) | .rem => (0x33, 1, 6) | .remu => (0x33, 1, 7)
  | .sh1add => (0x33, 16, 2) | .sh2add => (0x33, 16, 4) | .sh3add => (0x33, 16, 6)
  | .andn => (0x33, 32, 7) | .orn => (0x33, 32, 6) | .xnor => (0x33, 32, 4)
  | .min => (0x33, 5, 4) | .minu => (0x33, 5, 5) | .max => (0x33, 5, 6)
  | .maxu => (0x33, 5, 7) | .rol => (0x33, 48, 1) | .ror => (0x33, 48, 5)
  | .addw => (0x3B, 0, 0) | .subw => (0x3B, 32, 0) | .sllw => (0x3B, 0, 1)
  | .srlw => (0x3B, 0, 5) | .sraw => (0x3B, 32, 5) | .mulw => (0x3B, 1, 0)
  | .divw => (0x3B, 1, 4) | .divuw => (0x3B, 1, 5) | .remw => (0x3B, 1, 6)
  | .remuw => (0x3B, 1, 7) | .adduw => (0x3B, 4, 0) | .sh1adduw => (0x3B, 16, 2)
  | .sh2adduw => (0x3B, 16, 4) | .sh3adduw => (0x3B, 16, 6) | .rolw => (0x3B, 48, 1)
  | .rorw => (0x3B, 48, 5) | .zexth => (0x3B, 4, 4)
  | .slliuw => (0, 0, 0)

/-- Major opcode, funct3 and the bits above a shift amount of a register-immediate integer operation. -/
def AluOp.immCode : AluOp → Nat × Nat × Nat
  | .add => (0x13, 0, 0) | .slt => (0x13, 2, 0) | .sltu => (0x13, 3, 0)
  | .xor => (0x13, 4, 0) | .or => (0x13, 6, 0) | .and => (0x13, 7, 0)
  | .sll => (0x13, 1, 0) | .srl => (0x13, 5, 0) | .sra => (0x13, 5, 0x400) | .ror => (0x13, 5, 0x600)
  | .addw => (0x1B, 0, 0) | .sllw => (0x1B, 1, 0) | .slliuw => (0x1B, 1, 0x080)
  | .srlw => (0x1B, 5, 0) | .sraw => (0x1B, 5, 0x400) | .rorw => (0x1B, 5, 0x600)
  | _ => (0, 0, 0)

/-- Major opcode, funct3 and bits [31:20] of a one-operand integer operation. -/
def UnOp.code : UnOp → Nat × Nat × Nat
  | .clz => (0x13, 1, 0x600) | .ctz => (0x13, 1, 0x601) | .cpop => (0x13, 1, 0x602)
  | .sextb => (0x13, 1, 0x604) | .sexth => (0x13, 1, 0x605) | .orcb => (0x13, 5, 0x287) | .rev8 => (0x13, 5, 0x6B8)
  | .clzw => (0x1B, 1, 0x600) | .ctzw => (0x1B, 1, 0x601) | .cpopw => (0x1B, 1, 0x602)

/-- funct3 of a branch. -/
def BrOp.f3 : BrOp → Nat
  | .eq => 0 | .ne => 1 | .lt => 4 | .ge => 5 | .ltu => 6 | .geu => 7

/-- The 32 bits of a standard integer instruction (R152). -/
def Base.encode : Base → Nat
  | .lui rd imm => 0x37 + 2 ^ 7 * rd.toNat + 2 ^ 12 * imm.toNat
  | .auipc rd imm => 0x17 + 2 ^ 7 * rd.toNat + 2 ^ 12 * imm.toNat
  | .jal rd off =>
    let o := off.toNat
    0x6F + 2 ^ 7 * rd.toNat + 2 ^ 12 * bitsAt o 12 8 + 2 ^ 20 * bitsAt o 11 1 + 2 ^ 21 * bitsAt o 1 10 + 2 ^ 31 * bitsAt o 20 1
  | .jalr rd rs1 imm => iPack 0x67 rd.toNat 0 rs1.toNat imm.toNat
  | .branch op rs1 rs2 off =>
    let o := off.toNat
    rPack ⟨0x63, bitsAt o 11 1 + 2 * bitsAt o 1 4, op.f3, rs1.toNat, rs2.toNat, bitsAt o 5 6 + 2 ^ 6 * bitsAt o 12 1⟩
  | .immOp op rd rs1 imm =>
    let c := op.immCode
    iPack c.1 rd.toNat c.2.1 rs1.toNat (c.2.2 + imm.toNat % 2 ^ 12)
  | .regOp op rd rs1 rs2 =>
    let c := op.regCode
    rPack ⟨c.1, rd.toNat, c.2.2, rs1.toNat, rs2.toNat, c.2.1⟩
  | .unary op rd rs1 =>
    let c := op.code
    iPack c.1 rd.toNat c.2.1 rs1.toNat c.2.2

/-- An instruction's 32 bits in its own form, or the parcel it was expanded from. -/
def Form.pack (form : Form) (w : Nat) : Nat × Nat :=
  match form with
  | .w32 => (4, w)
  | .c16 p => (2, p.toNat)

/-- funct3 of a CSR operation: 1 to 3, plus 4 for the immediate source. -/
def CsrOp.f3 : CsrOp → Nat
  | .rw => 1
  | .rs => 2
  | .rc => 3

/-- The length in bytes and the bits of an instruction; none for the steps that have no encoding. -/
def encode (i : Instr) : Option (Nat × Nat) :=
  match i.vrow with
  | some (r, o) => some (6, r.encode o)
  | none =>
  match i with
  | .vconf rd rs1 => some (4, rPack ⟨0x0B, rd.toNat, 0, rs1.toNat, 0, 0⟩)
  | .vstrip rd rs1 => some (4, rPack ⟨0x0B, rd.toNat, 0, rs1.toNat, 0, 1⟩)
  | .vclose => some (4, rPack ⟨0x0B, 0, 0, 0, 0, 2⟩)
  | .jspawn rd rs1 => some (4, rPack ⟨0x0B, rd.toNat, 0, rs1.toNat, 0, 8⟩)
  | .jspawnn rd rs1 rs2 => some (4, rPack ⟨0x0B, rd.toNat, 0, rs1.toNat, rs2.toNat, 9⟩)
  | .jcont rd rs1 => some (4, rPack ⟨0x0B, rd.toNat, 0, rs1.toNat, 0, 10⟩)
  | .tend => some (4, rPack ⟨0x0B, 0, 0, 0, 0, 11⟩)
  | .tendr rs1 => some (4, rPack ⟨0x0B, 0, 0, rs1.toNat, 0, 12⟩)
  | .jabandon => some (4, rPack ⟨0x0B, 0, 0, 0, 0, 13⟩)
  | .jdefer => some (4, rPack ⟨0x0B, 0, 0, 0, 0, 14⟩)
  | .tnow rd => some (4, rPack ⟨0x0B, rd.toNat, 0, 0, 0, 15⟩)
  | .cpost rd rs1 => some (4, rPack ⟨0x0B, rd.toNat, 0, rs1.toNat, 0, 16⟩)
  | .tlread rd rs1 => some (4, rPack ⟨0x0B, rd.toNat, 0, rs1.toNat, 0, 17⟩)
  | .tlwait rs1 rs2 => some (4, rPack ⟨0x0B, 0, 0, rs1.toNat, rs2.toNat, 18⟩)
  | .tlpoll rd rs1 rs2 => some (4, rPack ⟨0x0B, rd.toNat, 0, rs1.toNat, rs2.toNat, 19⟩)
  | .wdrive rs1 => some (4, rPack ⟨0x0B, 0, 0, rs1.toNat, 0, 24⟩)
  | .tagwany rd rs1 => some (4, rPack ⟨0x0B, rd.toNat, 0, rs1.toNat, 0, 32⟩)
  | .tagwall rd rs1 => some (4, rPack ⟨0x0B, rd.toNat, 0, rs1.toNat, 0, 33⟩)
  | .tagffr rd rs1 => some (4, rPack ⟨0x0B, rd.toNat, 0, rs1.toNat, 0, 34⟩)
  | .tagclr rs1 => some (4, rPack ⟨0x0B, 0, 0, rs1.toNat, 0, 35⟩)
  | .sunbind q => some (4, rPack ⟨0x0B, 0, 0, 0, q.toNat, 42⟩)
  | .sflush q => some (4, rPack ⟨0x0B, 0, 0, 0, q.toNat, 43⟩)
  | .sstat rd q => some (4, rPack ⟨0x0B, rd.toNat, 0, 0, q.toNat, 44⟩)
  | .sskip q rs1 => some (4, rPack ⟨0x0B, 0, 0, rs1.toNat, q.toNat, 45⟩)
  | .llw rd rs1 => some (4, rPack ⟨0x0B, rd.toNat, 0, rs1.toNat, 0, 48⟩)
  | .lld rd rs1 => some (4, rPack ⟨0x0B, rd.toNat, 0, rs1.toNat, 0, 49⟩)
  | .llpw rd rs1 => some (4, rPack ⟨0x0B, rd.toNat, 0, rs1.toNat, 0, 50⟩)
  | .llpd rd rs1 => some (4, rPack ⟨0x0B, rd.toNat, 0, rs1.toNat, 0, 51⟩)
  | .lsw rs2 rs1 => some (4, rPack ⟨0x0B, 0, 0, rs1.toNat, rs2.toNat, 52⟩)
  | .lsd rs2 rs1 => some (4, rPack ⟨0x0B, 0, 0, rs1.toNat, rs2.toNat, 53⟩)
  | .lclr rs1 => some (4, rPack ⟨0x0B, 0, 0, rs1.toNat, 0, 54⟩)
  | .scfence scope => some (4, rPack ⟨0x0B, 0, 0, 0, scope.toNat, 56⟩)
  | .chkerr rd => some (4, rPack ⟨0x0B, rd.toNat, 0, 0, 0, 57⟩)
  | .rnd rd => some (4, rPack ⟨0x0B, rd.toNat, 0, 0, 0, 58⟩)
  | .hret => some (4, rPack ⟨0x0B, 0, 0, 0, 0, 64⟩)
  | .hwait => some (4, rPack ⟨0x0B, 0, 0, 0, 0, 65⟩)
  | .msend rd rs1 rs2 => some (4, rPack ⟨0x0B, rd.toNat, 0, rs1.toNat, rs2.toNat, 66⟩)
  | .mpoll rd rs1 => some (4, rPack ⟨0x0B, rd.toNat, 0, rs1.toNat, 0, 67⟩)
  | .ovfld rs1 => some (4, rPack ⟨0x0B, 0, 0, rs1.toNat, 0, 120⟩)
  | .mcack => some (4, rPack ⟨0x0B, 0, 0, 0, 0, 121⟩)
  | .vconfi rd imm => some (4, iPack 0x0B rd.toNat 1 0 imm.toNat)
  | .vstripi rd imm => some (4, iPack 0x0B rd.toNat 2 0 imm.toNat)
  | .sbind q v rs1 => some (4, rPack ⟨0x0B, v.toNat % 32, 0, rs1.toNat, q.toNat, 40 + v.toNat / 32⟩)
  | .mgangVreg rd rs1 v => some (4, rPack ⟨0x2B, rd.toNat, 0, rs1.toNat, v.toNat % 32, v.toNat / 32⟩)
  | .mgangCsram rd rs1 rs2 rs3 => some (4, rPack ⟨0x2B, rd.toNat, 1, rs1.toNat, rs2.toNat, 4 * rs3.toNat⟩)
  | .mgangNoOperand rd rs1 => some (4, rPack ⟨0x2B, rd.toNat, 2, rs1.toNat, 0, 0⟩)
  | .load k rd rs1 imm form => some (form.pack (iPack 0x03 rd.toNat k.f3 rs1.toNat imm.toNat))
  | .store k rs2 rs1 imm form => some (form.pack (sPack 0x23 k.f3 rs1.toNat rs2.toNat imm.toNat))
  | .amo op dbl aq rl rd rs1 rs2 =>
    some (4, rPack ⟨0x2F, rd.toNat, 2 + b2n dbl, rs1.toNat, rs2.toNat, 4 * op.f5 + 2 * b2n aq + b2n rl⟩)
  | .lrSc op dbl aq rl rd rs1 rs2 =>
    some (4, rPack ⟨0x2F, rd.toNat, 2 + b2n dbl, rs1.toNat, rs2.toNat,
      4 * (if op = .lr then 2 else 3) + 2 * b2n aq + b2n rl⟩)
  | .fence fm pred succ rd rs1 =>
    some (4, iPack 0x0F rd.toNat 0 rs1.toNat (256 * fm.toNat + 16 * pred.toNat + succ.toNat))
  | .fenceI imm rd rs1 => some (4, iPack 0x0F rd.toNat 1 rs1.toNat imm.toNat)
  | .sfenceVma rs1 rs2 => some (4, rPack ⟨0x73, 0, 0, rs1.toNat, rs2.toNat, 9⟩)
  | .wfi => some (4, iPack 0x73 0 0 0 0x105)
  | .ecall => some (4, iPack 0x73 0 0 0 0)
  | .ebreak form => some (form.pack (iPack 0x73 0 0 0 1))
  | .sret => some (4, iPack 0x73 0 0 0 0x102)
  | .mret => some (4, iPack 0x73 0 0 0 0x302)
  | .csr op rd (.reg rs1) n => some (4, iPack 0x73 rd.toNat op.f3 rs1.toNat n.toNat)
  | .csr op rd (.imm z) n => some (4, iPack 0x73 rd.toNat (4 + op.f3) z.toNat n.toNat)
  | .fpScalar op form => some (form.pack op.encode)
  | _ => none

/-- The bits an illegal-instruction exception reports for an instruction (R151). -/
def instrBits (i : Instr) : Word :=
  match encode i with
  | some (_, w) => BitVec.ofNat 64 w
  | none => 0

/-- The bytes an instruction occupies; 0 for the steps that have no encoding (R150). -/
def instrLen (i : Instr) : Nat :=
  match encode i with
  | some (n, _) => n
  | none => 0

end Sys2Proof
end

