-- ==== Sys2Proof/Config.lean ====
section
/-! DEFINITION. The values the spec leaves open (opaque constants: nothing can be proved about their values), and
the constants of the implementation. -/

namespace Sys2Proof.Config

/-- What the host's bus addresses hold, byte by byte, where neither this module nor the host has written (R35, R101,
R302). DESIGN CHOICE, log 14. -/
opaque hostByte : Nat → Byte
/-- The value of the n-th read of the twin module's memory (R35, R303). -/
opaque twinData : Nat → Word
/-- Whether the completer of the n-th request to the twin answers Unsupported Request or Completer Abort (R302, R303). -/
opaque completerAborts : Nat → Bool
/-- Undefined register content: the n-th free 64-bit value (R12, R163). DESIGN CHOICE, log 15. -/
opaque freeWord : Nat → Word
/-- Byte a of vector storage after the n-th change that leaves its content open (R163, R201). -/
opaque freeByte : Nat → Nat → Byte
/-- Undefined key content after the n-th breach of R163. -/
opaque freeKey : Nat → BitVec 2048
/-- Entry (row, column) of TS 38.212's base graph (true: base graph 2) for the lifting set of Z: the shift before
reduction modulo Z, or none where the graph has no edge (R267 to R269). DESIGN CHOICE, log 40. -/
opaque ldpcShift : (bg2 : Bool) → (z row col : Nat) → Option Nat
/-- The input interleaver of a polar code of more than 164 bits, for which TS 38.212 has no pattern (R268). -/
opaque polarInterleaveOpen : (kp k : Nat) → Nat
/-- A firmware image in the boot flash (R316): its header up to the signature, the fields the header holds, the signature,
the public key it comes with, and its code. Where the fields stand in the header is open (DESIGN CHOICE, log 17). -/
structure Image where
  head : List Byte
  svn : BitVec 32
  entry : Nat
  sig : List Byte
  key : List Byte
  code : List Byte
deriving Inhabited

/-- The image in slot A (false) or B (true) of the boot flash. DESIGN CHOICE, log 17. -/
opaque bootImage : (slotB : Bool) → Image
/-- The SHAKE256 digest of the public key fixed in MANUFACTURE (R316). -/
opaque keyDigest : List Byte
/-- SEED of the identity key (R317). -/
opaque identitySeed : BitVec 512
/-- The secret of a chain of one of the identity key's one-time keys. -/
opaque identitySecret : (leaf chain : Nat) → BitVec 512
/-- The key of the identity key's randomizers. -/
opaque identityPrf : BitVec 512
/-- The outcome of a content-hash compare of two unequal lines of a domain, by key generation and domain: true where the hashes under
that domain's key collide (R93). DESIGN CHOICE, log 18. -/
opaque hashCollides : (gen dom a b : Nat) → Bool

/-- Whether Unwene's monotonic storage fails at the n-th start (R391). DESIGN CHOICE, log 16. -/
opaque storageFails : Nat → Bool
/-- Whether a BIST failure outside the vector lane slices is found at the n-th start (R391). -/
opaque bistFails : Nat → Bool
/-- The lanes of a vector core that BIST finds failing at the n-th start (R391). -/
opaque bistLanes : (n hart : Nat) → BitVec 32
/-- Whether LPDDR6 training fails at the n-th start (R391). -/
opaque trainingFails : Nat → Bool
/-- Whether the saved LPDDR6 training passes its check at the n-th start (R311). -/
opaque trainingOk : Nat → Bool
/-- Whether the n-th signing under way had advanced its one-time index when a start cut it short (R318). -/
opaque signingBegun : Nat → Bool
/-- An LCSET request as it stands in the mailbox buffer, in an encoding the spec leaves open (R319): the target state, the
public key and the signature. -/
structure LcRequest where
  target : Option (Fin 4)
  key : List Byte
  sig : List Byte
deriving Inhabited

/-- The LCSET request in a mailbox buffer. DESIGN CHOICE, log 17. -/
opaque lcRequest : List Byte → LcRequest
/-- The bytes that an LCSET signature covers: target state, one-time index, identity public key (R319). -/
opaque lcMessage : (target : Option (Fin 4)) → (ots : Nat) → (identity : List Byte) → List Byte
/-- The attestation report's bytes: nonce, measurement, life-cycle state, minimum SVN, slot B, one-time index (R317). DESIGN CHOICE, log 17. -/
opaque report : List Byte → List Byte → Nat → Nat → Bool → Nat → List Byte

/-- Cycles per 1,000 ns are 1,900: the 1.9 GHz clock (R7, R18). -/
def cyclesPerUs : Nat := 1900
/-- The physical address at which firmware's first instruction lies (DESIGN CHOICE, log 1). -/
def firmwareEntry : Word := 0

end Sys2Proof.Config
end

