-- ==== Sys2Proof/Machine/Memory.lean ====
section
/-! DEFINITION. Sparse tables in canonical form, and memory as one of them: the list is sorted by strictly rising
key and lists no value equal to what an unlisted key reads as. -/

namespace Sys2Proof.Machine

/-- A sparse table: the listed keys, strictly rising. -/
abbrev Tab (α : Type) := List (Nat × α)

/-- What key k holds, d where k is not listed. -/
def tabGet {α : Type} (d : α) : Tab α → Nat → α
  | [], _ => d
  | (a, v) :: r, k => if a = k then v else tabGet d r k

/-- Lists v at key k, keeping the keys sorted. -/
def tabInsert {α : Type} : Tab α → Nat → α → Tab α
  | [], k, v => [(k, v)]
  | (a, w) :: r, k, v =>
    if a = k then (k, v) :: r else if k < a then (k, v) :: (a, w) :: r else (a, w) :: tabInsert r k v

/-- Takes key k off the list. -/
def tabErase {α : Type} (t : Tab α) (k : Nat) : Tab α := t.filter fun p => p.1 != k

/-- Stores v at key k: a value equal to the default d takes the key off the list. -/
def tabSet {α : Type} [DecidableEq α] (d : α) (t : Tab α) (k : Nat) (v : α) : Tab α :=
  if v = d then tabErase t k else tabInsert t k v

/-- The canonical form: every key is at least lo, keys rise strictly, and no value equals d. -/
def tabWf {α : Type} [DecidableEq α] (d : α) : Nat → Tab α → Bool
  | _, [] => true
  | lo, (a, v) :: r => decide (lo ≤ a) && decide (v ≠ d) && tabWf d (a + 1) r

/-- Physical memory, LPDDR6 and CSRAM, by byte address (R5, R30). -/
abbrev Memory := List Host.Cell

/-- What a byte of memory that nothing has written reads as: zero, since a start zeroes every SRAM and every byte
of LPDDR6 (R312 steps 4 and 5). DEDUCED, log 11. -/
def memDefault : Byte := 0

/-- The canonical form of memory. -/
def Memory.wf (m : Memory) : Bool := tabWf memDefault 0 m

/-- One byte of memory. -/
def memByte (m : Memory) (a : Nat) : Byte := tabGet memDefault m a

/-- Stores one byte. -/
def memSetByte (m : Memory) (a : Nat) (b : Byte) : Memory := tabSet memDefault m a b

/-- n bytes from address a upward. -/
def memBytes (m : Memory) (a : Nat) : Nat → List Byte
  | 0 => []
  | n + 1 => memByte m a :: memBytes m (a + 1) n

/-- Stores a list of bytes from address a upward. -/
def memSetBytes (m : Memory) (a : Nat) : List Byte → Memory
  | [] => m
  | b :: r => memSetBytes (memSetByte m a b) (a + 1) r

/-- The little-endian number in n bytes at a (R5). -/
def memRead (m : Memory) (a n : Nat) : Nat := ofBytes (memBytes m a n)

/-- Stores the low n bytes of v at a, little-endian (R5). -/
def memWrite (m : Memory) (a n v : Nat) : Memory := memSetBytes m a (bytesOf n v)

/-- Zeroes every byte of [lo, hi). -/
def memZero (m : Memory) (lo hi : Nat) : Memory := m.filter fun c => c.1 < lo || hi ≤ c.1

end Sys2Proof.Machine
end

