-- ==== Sys2Proof/Machine/State.lean ====
section
/-! DEFINITION. The state of one LX9 module as plain data, its reset value, and the reasons a step can stop. -/

namespace Sys2Proof.Machine

/-- Privilege modes (R25). -/
inductive Mode where
  | u | s | m
deriving DecidableEq, Repr

/-- The privileged-architecture CSRs of one hart (R16, R152, R331, R332). -/
structure Csrs where
  mstatus : Word
  mtvec : Word
  mscratch : Word
  mepc : Word
  mcause : Word
  mtval : Word
  medeleg : Word
  mideleg : Word
  mie : Word
  mip : Word
  mcounteren : Word
  menvcfg : Word
  mcycleOff : Word
  minstret : Word
  stvec : Word
  sscratch : Word
  sepc : Word
  scause : Word
  stval : Word
  scounteren : Word
  senvcfg : Word
  satp : Word
deriving DecidableEq, Repr

/-- What a stream slot binds (R208, R210). -/
inductive SlotKind where
  | memSource
  | fifoSource (bank : Nat)
  | memSink
  | msgSink (hdst hland : Word)
deriving DecidableEq, Repr

/-- A bound stream slot: the register, the pattern of its descriptor, how far it has moved, and the bytes a message sink has
gathered, each with its poison mark (R208 to R214, R361). -/
structure Slot where
  reg : Nat
  kind : SlotKind
  fmt : Nat
  base : Word
  counts : List Nat
  strides : List Int
  pos : Nat
  moved : Nat
  gathered : List Byte
  marks : List Bool
deriving DecidableEq, Repr

/-- What a message is: a core's own, or one of the device-generated kinds of R297. -/
inductive MsgKind where
  | core | completion | portEvent | fdomain | faultQueue | doorbell
deriving DecidableEq, Repr

/-- A message, its payload already in its landed form (R190, R191, R297). -/
structure Msg where
  kind : MsgKind
  src : Option Nat
  toFifo : Bool
  cl : Nat
  dest : Nat
  queue : Nat
  chan : Nat
  land : Option Nat
  data : List Byte
  poisoned : Bool
deriving DecidableEq, Repr

/-- What a machine check puts into the records beside its cause and element (R354). -/
structure McInfo where
  psn : Bool
  src : Nat
  dclass : Nat
  lane : Option Nat
  attempts : Nat
  mlane : Nat
  pc : Option Word
  insn : Option Nat
deriving DecidableEq, Repr

/-- An exception: its cause, what `stval` or `mtval` receives, the element it names, whether it belongs to the rewinding
group of R333, and the machine-check record of causes 48 and 49. -/
structure Exc where
  cause : Nat
  tval : Word
  elem : Option Nat
  rewinds : Bool
  mc : Option McInfo
deriving DecidableEq, Repr

/-- One entry of the strip buffer: a checked store by physical address, a held message, or the mark of a sector that an
uncorrectable error poisoned (R51, R117, R359). -/
inductive BufEntry where
  | store (pa : Nat) (data : List Byte) (scope : BitVec 2) (poisoned : Bool)
  | msg (m : Msg)
  | mark (sector : Nat)
deriving DecidableEq, Repr

/-- Bytes popped from an arrival queue and not yet committed: bank, count, and the queue's reset count (R87, R399). -/
structure Pop where
  bank : Nat
  bytes : Nat
  gen : Nat
deriving DecidableEq, Repr

/-- The journal of an opened strip (R52). -/
structure Journal where
  pc : Word
  x : List (Nat × Word)
  f : Vector Word 32
  frm : BitVec 3
  fflags : BitVec 5
  vcfg : Word
  vregs : List (Nat × List Byte)
  keys : Vector (BitVec 2048) 8
  rngctr : Word
  slots : Vector (Option Slot) 8
  vl : Nat
  xpoison : BitVec 32
  fpoison : BitVec 32
  vpoison : List Nat
  kpoison : List Nat
  cpoison : List Nat
deriving DecidableEq, Repr

/-- The window a long-latency instruction's lookahead leaves open (R162, R163). Registers are numbered in one space:
x 0 to 31, f 32 to 63, v 64 to 127, keys 128 to 135. -/
structure LaWin where
  left : Nat
  dst : List Nat
  src : List Nat
deriving DecidableEq, Repr

/-- The vector unit's state of one core (R195, R201, R206). -/
structure Vec where
  vcfg : Word
  vl : Nat
  xckmask : Word
  vckmask : Word
  store : Tab Byte
  epoch : Nat
  keys : Vector (BitVec 2048) 8
  nwin : Vector Word 8
  slots : Vector (Option Slot) 8
  sfElem : BitVec 16
  sfCause : BitVec 8
  replays : BitVec 4
  vlimit : Nat
  pageKept : Option Word
  replayPc : Option Word
  replayDepth : Nat
  resReplay : Bool
  vprogtmo : BitVec 32
  lanemap : BitVec 32
  lanes : BitVec 32
  wdstate : Word
  strip : Option Journal
  attempt : Nat
  vpoison : List Nat
  kpoison : List Nat
deriving DecidableEq, Repr

/-- A running task on a core (R49, R66, R74). `bad` says that another core of its gang ended with POISON set (R370),
`stopMc` that the budget stop of its gang waits for its machine-check handler's return (R346), `ran` the cycles that the cores of its
gang that have ended ran it (R68). -/
structure TaskRun where
  id : Nat
  job : Nat
  tidx : Nat
  gang : Bool
  counts : Bool
  started : Nat
  signal : Bool
  graceAt : Option Nat
  trapDepth : Nat
  mcAt : Nat
  borrower : Bool
  bad : Bool
  stopMc : Bool
  ran : Nat
deriving DecidableEq, Repr

/-- What a core is doing. -/
inductive RunState where
  | program
  | idle
  | task (t : TaskRun)
  | fenced
  | held
deriving DecidableEq, Repr

/-- What a waiting instruction waits for (R171, R344). -/
inductive WaitOn where
  | latch (pa : Nat) (isStore : Bool)
  | window (win pa : Nat)
  | pop (slot : Nat) (bank : Nat) (need : Nat)
  | push (slot : Nat)
  | skip (slot : Nat) (bank : Nat) (need : Nat)
  | hinge (isDrive : Bool)
  | chain
  | interlock
  | timeline (ctx : Nat) (n : Nat)
  | tags (mask : Word) (all : Bool)
  | post (ctx : Nat)
  | wfi
  | hwait
  | messages
  | modeChange (bank : Nat)
  | slotStall (slot : Nat) (sink : Bool) (bank : Nat)
  | credit
deriving DecidableEq, Repr

/-- A waiting hart: what for, the element it has reached (R345), and whether the wait is timed whatever it waits for, as that
of a vector instruction is (R344). -/
structure Wait where
  on : WaitOn
  va : Word
  elem : Nat
  timed : Bool
deriving DecidableEq, Repr

/-- An activation of a stream core's handler bank (R57): the queue entry it serves, and the mode, pc and poison marks of the
core's own program, which waits. -/
structure Activation where
  queue : Nat
  entry : Nat
  mode : Mode
  pc : Word
  xpoison : BitVec 32
deriving DecidableEq, Repr

/-- An entry of a stream core's message queue (R191, R297). -/
structure QEntry where
  entry : Nat
  addr : Word
  len : Nat
deriving DecidableEq, Repr

/-- The words of a latch window that a vector instruction has written before a wait or a trap: its address, how many, how many
handlers were running (R116), and the window register and the bank's generation that its check was made with (R90). -/
structure WinDone where
  pc : Word
  words : Nat
  depth : Nat
  issue : Option (Word × Nat)
deriving DecidableEq, Repr

/-- What a published command that its hart has not acquired brings to it: context, sequence number, tag, whether its completion set
the tag's bit (R183), and the bits of `chkint` (R188, R197). -/
structure ChkPend where
  ctx : Nat
  seq : Nat
  tag : Nat
  sets : Bool
  bits : BitVec 4
deriving DecidableEq, Repr

/-- A cached translation (R105). -/
structure TlbEntry where
  asid : Nat
  glob : Bool
  base : Nat
  size : Nat
  pa : Nat
  perms : BitVec 8
  wx : Bool
  hostfile : Bool
  dom : Option (BitVec 12)
  pd : Bool
deriving DecidableEq, Repr

/-- A matrix command's failure that a core has still to take (R343, R353). -/
structure MatFault where
  seq : Nat
  cause : Nat
  va : Word
  words : Nat
  addr : Word
  lane : Nat
deriving DecidableEq, Repr

/-- One core: a vector core's control hart and vector unit, or a stream core (R22, R49, R195). `nest` counts the trap handlers
it is in; `ovfBad` says that the overflow table is poisoned (R361); `trap` is an exception, with its instruction's bits, whose commit
of the older stores still waits (R54); `posting` is the command that a stalled `cpost` or `mgang` has read (R179). -/
structure Hart where
  num : Nat
  run : RunState
  pc : Word
  x : Vector Word 32
  xAlt : Vector Word 32
  act : Option Activation
  f : Vector Word 32
  frm : BitVec 3
  fflags : BitVec 5
  mode : Mode
  csr : Csrs
  vec : Vec
  ovf : BitVec 32
  ovfBad : Bool
  rngkey : Word
  rngctr : Word
  chkint : BitVec 4
  chkPend : List ChkPend
  ctags : Word
  tbudget : BitVec 32
  jobrcb : Word
  srvrole : BitVec 4
  mcrec0 : Word
  mcrec1 : Word
  mcrec2 : Word
  mcrec3 : Word
  posted : Vector Nat 4
  done : Vector Nat 4
  resv : Option Nat
  wait : Option Wait
  progress : Nat
  attempts : Nat
  nest : Nat
  trap : Option (Exc × Nat)
  posting : Option Nat
  prefetch : List Nat
  queues : Tab (List QEntry)
  tlb : List TlbEntry
  buf : List BufEntry
  pops : List Pop
  matFaults : List MatFault
  la : List LaWin
  winDone : List WinDone
  xpoison : BitVec 32
  fpoison : BitVec 32
  cpoison : List Nat
  eccSeen : List Nat
deriving DecidableEq, Repr

/-- A CSRAM bank: its mode register, arrival queue and full bits (R84 to R88), the device's own writes that wait for the end of
its mode change, and the completions of jobs, with their instants, that are ordered after those writes (R124). -/
structure Bank where
  mode : BitVec 2
  chan : BitVec 12
  winen : Bool
  busy : Option (BitVec 2)
  head : Nat
  level : Nat
  drops : Nat
  popped : Nat
  gen : Nat
  full : List Nat
  stalled : List (Nat × List Byte × Bool)
  after : List (Nat × Nat)
deriving DecidableEq, Repr

/-- Where a command stands (R264, R266). -/
inductive CmdState where
  | queued
  | started
  | finished
  | partly
deriving DecidableEq, Repr

/-- A copy or codec command posted and not yet published (R178, R262 to R270); `lost` numbers the bytes it carries that its engine's
buffers lost (R359), `corrected` says that data it consumes was corrected there (R360), `stagingBad` that what it stages is poisoned
(R361), `owes` that its PARTIAL record waits for its fault records (R393), and `missBad` that its miss list is poisoned (R363). -/
structure Cmd where
  hart : Nat
  ctx : Nat
  seq : Nat
  words : Nat
  addr : Word
  satp : Word
  mode : Mode
  job : Option Nat
  task : Option Nat
  order : Nat
  cl : Nat
  ce : Nat
  queue : Nat
  slot : Nat
  state : CmdState
  status : Nat
  bytes : Nat
  aux : Word
  misses : List (Nat × Nat)
  staging : List Byte
  stagingBad : Bool
  bad : Bool
  poisoned : Bool
  lost : List Nat
  corrected : Bool
  owes : Bool
  missBad : Bool
deriving DecidableEq, Repr

/-- The A operand of one core's join (R156, R255). -/
inductive AForm where
  | vreg (image : List Byte) (bad : List Nat)
  | csram (base rowPitch tilePitch : Nat)
  | none
deriving DecidableEq, Repr

/-- One core's join at the hinge (R254). -/
structure Join where
  col : Nat
  isDrive : Bool
  addr : Word
  words : Nat
  form : AForm
  rd : Reg
deriving DecidableEq, Repr

/-- How a matrix command that has run will complete: its status, and what a failed one met (R261, R343, R353). -/
structure MatResult where
  status : Nat
  cause : Nat
  va : Word
  write : Bool
  hostfile : Bool
  poisoned : Bool
  lane : Nat
deriving DecidableEq, Repr

/-- A matrix command issued by a gang (R254 to R261). -/
structure MatCmd where
  words : Nat
  addr : Word
  forms : List AForm
  seqs : List Nat
  satp : Word
  mode : Mode
  job : Option Nat
  task : Option Nat
  hart : Nat
  wseqs : List Nat
  result : Option MatResult
  reruns : Nat
deriving DecidableEq, Repr

/-- What stands in a row's matrix queue: a command, or the zeroing of one core's slices at a task start behind the commands
an earlier task left running (R49, R50). -/
inductive MatItem where
  | cmd (c : MatCmd)
  | clear (col : Nat)
deriving DecidableEq, Repr

/-- A weight chain, running or kept for resume (R273, R275). `header` is that of a WOUT to a window that has been fetched and
has not ended: its content is fetched once (R123). `gens` holds the generations of the banks that a WOUT to a window was checked
with, column by column; it is empty before that check (R84, R285). -/
structure Chain where
  block : Word
  links : List Word
  sat : Bool
  outWords : List Nat
  since : List (Option Nat)
  begun : Bool
  satp : Word
  mode : Mode
  reruns : Nat
  header : Option Nat
  gens : List Nat
deriving DecidableEq, Repr

/-- A row's hinge, matrix queue, accumulators and chain (R21, R254, R273). -/
structure Row where
  joins : List Join
  queue : List MatItem
  acc : Tab (BitVec 32)
  apoison : List Nat
  chain : Option Chain
  resume : Option Chain
  repair : Bool
deriving DecidableEq, Repr

/-- The task descriptor (R41); `bad` marks one that was read from poisoned bytes (R361). -/
structure Desc where
  entry : Word
  arg : Word
  kind : BitVec 2
  bad : Bool
deriving DecidableEq, Repr

/-- A live or final job as the DQU holds it (R36 to R40). `contSeq` is the enqueue sequence number of a continuation that waits for
an entry (R58, R374); `recBad` marks the fields read from the second sector of the RCB, `resultBad` the result (R361). -/
structure Job where
  addr : Word
  pa : Nat
  deadline : Word
  release : Word
  slack : BitVec 32
  budget : BitVec 32
  ctl : Word
  route : Word
  user : Word
  satp : Word
  priv : Bool
  parent : Option Nat
  state : BitVec 8
  count : Nat
  clamped : Bool
  poison : Bool
  deferred : Bool
  abchild : Bool
  result : Word
  cont : Option Desc
  contDue : Bool
  contSeq : Nat
  abandonAt : Option Nat
  lost : Bool
  keep : Bool
  runningAt : Nat
  recBad : Bool
  resultBad : Bool
deriving DecidableEq, Repr

/-- A queued task (R58, R59). -/
structure QTask where
  id : Nat
  job : Nat
  tidx : Nat
  desc : Desc
  seq : Nat
  since : Nat
  slots : List Nat
deriving DecidableEq, Repr

/-- A row under reclaim: since when, for which task, of which lease, and whether RCLATE has counted it (R69, R376). -/
structure Reclaim where
  since : Nat
  task : Nat
  lease : Nat
  late : Bool
deriving DecidableEq, Repr

/-- The deadline queue unit's own state beside its registers (R58 to R71, R374, R375). -/
structure Dqu where
  jobs : Tab (Option Job)
  nextJob : Nat
  queue : List QTask
  nextTask : Nat
  seq : Nat
  deficit : Tab Int
  pointer : Nat
  reserved : Tab (Option Nat)
  reclaim : Tab (Option Reclaim)
  validAt : Tab Nat
  compWait : List Msg
deriving DecidableEq, Repr

/-- A time counter: its value in 2^-32 ns at a cycle, and its increment per cycle (R72, R310). -/
structure Counter where
  base : Nat
  since : Nat
  inc : Nat
  locked : Bool
  diff : Word
  fresh : Bool
  src : Nat
deriving DecidableEq, Repr

/-- A tag of the deduplicating L2 (R91). -/
structure L2Tag where
  line : Nat
  dom : Option (BitVec 12)
  entry : Nat
  dirty : Bool
deriving DecidableEq, Repr

/-- A data entry of the L2 (R93). -/
structure L2Entry where
  id : Nat
  slice : Nat
  content : Nat
  dom : Option (BitVec 12)
  refs : Nat
  poisoned : Bool
deriving DecidableEq, Repr

/-- A request of the L2 that waits for a data entry (R95): a fill or a write, under the domain it asks with, since a cycle. -/
structure L2Req where
  line : Nat
  dom : Option (BitVec 12)
  isWrite : Bool
  since : Nat
deriving DecidableEq, Repr

/-- The deduplicating L2 (R91 to R99). `stored` lists the lines that hold a core's stores not yet written back to it (R397), `asked`
the lines that cores have accessed, each with the domain of its translation (R92). -/
structure L2 where
  tags : List L2Tag
  entries : List L2Entry
  nextId : Nat
  keyGen : Nat
  stored : List Nat
  asked : List (Nat × Option (BitVec 12))
  waiting : List L2Req
  busy : Bool
  unshare : Nat
  wthru : Nat
  hmiss : Nat
  shares : Nat
deriving DecidableEq, Repr

/-- Life-cycle states (R319). -/
inductive LifeCycle where
  | manufacture | provisioned | deployed | decommissioned
deriving DecidableEq, Repr

/-- The root of trust's storage and mailbox (R311 to R320). -/
structure Unwene where
  life : LifeCycle
  ots : Nat
  svnMin : BitVec 32
  orderly : Option LifeCycle
  wipe : Bool
  retired : Tab (BitVec 32)
  fused : Tab (BitVec 32)
  result : BitVec 8
  pending : Option Nat
deriving DecidableEq, Repr

/-- The power controller, start-up and containment flags (R27 to R29, R314, R390). -/
structure Power where
  capFw : Nat
  capI3c : Nat
  capEff : Nat
  excursion : Bool
  grant : Vector Nat 4
  pacing : Vector Nat 4
  below : Bool
  bootCode : BitVec 8
  bootStep : BitVec 8
  wiped : Bool
  bootSlot : Bool
  bootKind : BitVec 2
  locked : Bool
  port15 : Option Nat
  shutdown : Bool
  shutSince : Nat
  frozen : Bool
  fatal : Option (BitVec 8)
  off : Bool
  held : Bool
  request : BitVec 2
deriving DecidableEq, Repr

/-- A record that the host port has accepted and the DQU has neither enqueued nor rejected yet (R296): its page and slot, the slot's address,
the record with the page's values, the page's KEEP, whether a byte that has to be zero is not, and the instant of a host-port reset
that has come meanwhile and loses its job (R299). -/
structure Accept where
  page : Nat
  slot : Nat
  pa : Nat
  record : List Byte
  keep : Bool
  defect : Bool
  bad : Bool
  lostAt : Option Nat
deriving DecidableEq, Repr

/-- The ports: the host port's link state, the records it has accepted, oldest first (R296), PF0's MSI-X table by vector and the doorbell credits (R293, R294, R303, R304); the twin's requests that wait
for a bank's mode change (R84); the fronthaul buffers that hold a byte lost to an error, by 2 × port, + 1 for transmission (R359);
the bytes of the host's bus addresses that this module or the host has written, and the 4 KiB pages there whose completer answers
Unsupported Request or Completer Abort (R35, R302; DESIGN CHOICE, log 14). -/
structure Ports where
  hostUp : Bool
  rstSeen : Bool
  cxlActive : Bool
  atomicEnable : Bool
  accepting : List Accept
  msix : Tab (BitVec 128)
  twinUp : Bool
  twinHeld : List (Nat × TwinOp)
  credits : Nat
  ringPend : Tab (Nat × Nat)
  subUp : Tab Bool
  fhLost : List Nat
  hostMem : Tab (Option Byte)
  hostRefuses : List Nat
  heartbeats : Nat
  lastBeat : Nat
deriving DecidableEq, Repr

/-- One turn of the environment's agenda: which hart's turn it is, one instruction of that hart, how much time passes, which
step of the device or its surroundings happens next, whether the DQU takes up the oldest accepted submission (R296), or what the host
does to its own memory. The model's own field, no state of the spec. DESIGN CHOICE, log 12. -/
inductive Turn where
  | hart (n : Nat)
  | run
  | ticks (n : Nat)
  | event (i : Instr)
  | evict (hart : Nat) (va : Nat)
  | evictL2 (line : Nat)
  | record
  | hostWrites (bus : Nat) (data : List Byte)
  | hostRefuses (page : Nat) (on : Bool)
deriving DecidableEq, Repr

/-- The module. `cpu` is the hart whose turn it is; `parked` lists the others that differ from what they are at the start;
`entry` is the firmware's entry point (R312, R316). `agenda` is what the environment still has to do, `round` what it does
again and again after each instruction once the agenda is empty (DESIGN CHOICE, log 12). -/
structure State where
  cpu : Hart
  entry : Word
  parked : Tab (Option Hart)
  mem : Memory
  banks : Tab Bank
  rows : Tab Row
  l2tlb : Tab (List TlbEntry)
  mmio : Tab (Option Word)
  cmds : List Cmd
  order : Nat
  inflight : List Msg
  held : Tab (List (List Byte))
  dqu : Dqu
  counters : Tab Counter
  beacons : List (Nat × Nat)
  cycles : Nat
  l2 : L2
  power : Power
  unwene : Unwene
  ports : Ports
  poison : List Nat
  agenda : List Turn
  round : List Turn
  free : Nat
deriving DecidableEq, Repr

/-- Why the machine stops. -/
inductive Fault where
  /-- Raised by Machine/Step.lean when the state's agenda names a hart number above 3,327, which the module does
  not have (R22): the state is no state of the module. Safe. -/
  | noSuchHart
deriving DecidableEq, Repr

/-- Why a step has no meaning. -/
inductive Refusal where
  /-- Raised by exec for a row of the opcode table that has no meaning yet. Safe. -/
  | notModelled (mnemonic : String)
deriving DecidableEq, Repr

/-- The CSRs at reset: zero where the spec and the privileged architecture give no value (DESIGN CHOICE, log 2); UXL and SXL read 2, FS 3 (PRESUMED, log 7). -/
def Csrs.reset : Csrs where
  mstatus := 0xA00006000
  mtvec := 0
  mscratch := 0
  mepc := 0
  mcause := 0
  mtval := 0
  medeleg := 0
  mideleg := 0
  mie := 0
  mip := 0
  mcounteren := 0
  menvcfg := 0
  mcycleOff := 0
  minstret := 0
  stvec := 0
  sscratch := 0
  sepc := 0
  scause := 0
  stval := 0
  scounteren := 0
  senvcfg := 0
  satp := 0

/-- `vcfg` at reset and task start: EW 32, NREG 32, GRP 1, RNE, FZ 0, SCOPE CLUSTER (R49, R196). -/
def vcfgReset : Word := 0x40A

/-- The vector unit at reset: storage zeroed (R312), CSRs at their reset values (R195 to R200). -/
def Vec.reset : Vec where
  vcfg := vcfgReset
  vl := 0
  xckmask := 0
  vckmask := 0
  store := []
  epoch := 0
  keys := Vector.replicate 8 0
  nwin := Vector.replicate 8 0
  slots := Vector.replicate 8 none
  sfElem := 0
  sfCause := 0
  replays := 0
  vlimit := 0
  pageKept := none
  replayPc := none
  replayDepth := 0
  resReplay := false
  vprogtmo := 0x00100000
  lanemap := 0xFFFFFFFF
  lanes := 0xFFFFFFFF
  wdstate := 0
  strip := none
  attempt := 1
  vpoison := []
  kpoison := []

/-- Hart n at step 7 of a start: M-mode at the firmware entry point (R312). -/
def Hart.reset (n : Nat) : Hart where
  num := n
  run := .program
  pc := Config.firmwareEntry
  x := Vector.replicate 32 0
  xAlt := Vector.replicate 32 0
  act := none
  f := Vector.replicate 32 0
  frm := 0
  fflags := 0
  mode := .m
  csr := Csrs.reset
  vec := Vec.reset
  ovf := 0
  ovfBad := false
  rngkey := 0
  rngctr := 0
  chkint := 0
  chkPend := []
  ctags := 0
  tbudget := 0xFFFFFFFF
  jobrcb := 0
  srvrole := 0
  mcrec0 := 0
  mcrec1 := 0
  mcrec2 := 0
  mcrec3 := 0
  posted := Vector.replicate 4 0
  done := Vector.replicate 4 0
  resv := none
  wait := none
  progress := 0
  attempts := 0
  nest := 0
  trap := none
  posting := none
  prefetch := []
  queues := []
  tlb := []
  buf := []
  pops := []
  matFaults := []
  la := []
  winDone := []
  xpoison := 0
  fpoison := 0
  cpoison := []
  eccSeen := []

/-- A bank at reset: CACHE mode, everything zero (R84, R88, R312). -/
def Bank.reset : Bank where
  mode := 0
  chan := 0
  winen := false
  busy := none
  head := 0
  level := 0
  drops := 0
  popped := 0
  gen := 0
  full := []
  stalled := []
  after := []

/-- A row at reset: nothing joined, accumulators zero (R312). -/
def Row.reset : Row where
  joins := []
  queue := []
  acc := []
  apoison := []
  chain := none
  resume := none
  repair := false

/-- The TINC reset value, 1/1.9 ns per cycle with 32 fraction bits (R310). -/
def tincReset : Nat := 0x0086BCA1AF

/-- A time counter at reset (R310). -/
def Counter.reset : Counter where
  base := 0
  since := 0
  inc := tincReset
  locked := false
  diff := 0
  fresh := false
  src := 0

/-- The DQU at reset: it holds no task (R312). -/
def Dqu.reset : Dqu where
  jobs := []
  nextJob := 0
  queue := []
  nextTask := 0
  seq := 0
  deficit := []
  pointer := 0
  reserved := []
  reclaim := []
  validAt := []
  compWait := []

/-- The L2 at reset: no valid tag, no entry in use (R312). -/
def L2.reset : L2 where
  tags := []
  entries := []
  nextId := 0
  keyGen := 0
  stored := []
  asked := []
  waiting := []
  busy := false
  unshare := 0
  wthru := 0
  hmiss := 0
  shares := 0

/-- The root of trust at the first start: MANUFACTURE (DESIGN CHOICE, log 3). -/
def Unwene.reset : Unwene where
  life := .manufacture
  ots := 0
  svnMin := 0
  orderly := none
  wipe := false
  retired := []
  fused := []
  result := 0
  pending := none

/-- The power controller after a cold start: both cap sources 600 W (R27, R312), start step 7, cold (R314). -/
def Power.reset : Power where
  capFw := 600
  capI3c := 600
  capEff := 600
  excursion := false
  grant := Vector.replicate 4 8
  pacing := Vector.replicate 4 0
  below := false
  bootCode := 0
  bootStep := 7
  wiped := true
  bootSlot := false
  bootKind := 1
  locked := false
  port15 := none
  shutdown := false
  shutSince := 0
  frozen := false
  fatal := none
  off := false
  held := false
  request := 0

/-- The ports at reset: every link down (R294, R303, R384). DESIGN CHOICE, log 77. -/
def Ports.reset : Ports where
  hostUp := false
  rstSeen := false
  cxlActive := false
  atomicEnable := false
  accepting := []
  msix := []
  twinUp := false
  twinHeld := []
  credits := 0
  ringPend := []
  subUp := []
  fhLost := []
  hostMem := []
  hostRefuses := []
  heartbeats := 0
  lastBeat := 0

/-- The module right after a cold start (R312), hart 0 to move (DESIGN CHOICE, log 4). -/
def State.reset : State where
  cpu := Hart.reset 0
  entry := Config.firmwareEntry
  parked := []
  mem := []
  banks := []
  rows := []
  l2tlb := []
  mmio := []
  cmds := []
  order := 0
  inflight := []
  held := []
  dqu := Dqu.reset
  counters := []
  beacons := []
  cycles := 0
  l2 := L2.reset
  power := Power.reset
  unwene := Unwene.reset
  ports := Ports.reset
  poison := []
  agenda := []
  round := []
  free := 0

end Sys2Proof.Machine
end

