-- ==== Sys2Proof/Machine/Basic.lean ====
section
/-! DEFINITION. The monad the meanings are written in, and the accessors of harts, registers, banks, rows and time. -/

namespace Sys2Proof.Machine

/-- Why an instruction does not run to its end. -/
inductive Stop where
  | exc (e : Exc)
  | excBits (cause : Nat)
  | wait (w : Wait)
  | overflow (elem : Nat) (va : Word)
  | ended
deriving DecidableEq, Repr

/-- What the body of a meaning is: it changes the state and may stop early, keeping the changes it has made. -/
abbrev M := ExceptT Stop (StateM State)

/-- The causes whose Strip column of R331 says rewinding. PROGRESS is decided where it is raised (R345). -/
def rewindingCause (c : Nat) : Bool := [1, 5, 7, 12, 13, 15, 31, 50].contains c

/-- An exception without an element. -/
def Exc.plain (cause : Nat) (tval : Word) : Exc := ⟨cause, tval, none, rewindingCause cause, none⟩

/-- Raises a cause with its trap value. -/
def raise {α : Type} (cause : Nat) (tval : Word) : M α := throw (.exc (.plain cause tval))

/-- Raises a cause at an element of a vector instruction. -/
def raiseAt {α : Type} (cause : Nat) (tval : Word) (elem : Option Nat) : M α :=
  throw (.exc { Exc.plain cause tval with elem := elem })

/-- An illegal-instruction exception: cause 2, the instruction's bits as trap value (R151). -/
def illegal {α : Type} : M α := throw (.excBits 2)

/-- Raises an illegal-instruction exception unless b holds. -/
def need (b : Bool) : M Unit := if b then pure () else illegal

/-- Waits: the instruction executes again until what it waits for has come. DEDUCED, log 51. -/
def waitFor {α : Type} (on : WaitOn) (va : Word) (elem : Nat) : M α := throw (.wait ⟨on, va, elem, false⟩)

/-- Waits in an instruction whose every wait is timed (R344). -/
def waitTimed {α : Type} (on : WaitOn) (va : Word) (elem : Nat) : M α := throw (.wait ⟨on, va, elem, true⟩)

/-- Whether hart n is a vector core (R22). -/
def isVcNum (n : Nat) : Bool := decide (n % 208 < 16)
/-- The cluster of hart n (R22). -/
def clusterOf (n : Nat) : Nat := n / 208
/-- The number of harts of the module (R22). -/
def hartCount : Nat := 3328
/-- The hart number of VCn of CLc (R22). -/
def vcNum (c n : Nat) : Nat := c * 208 + n
/-- The hart number of SCn of CLc (R22). -/
def scNum (c n : Nat) : Nat := c * 208 + 16 + n

/-- Whether this hart is a vector core's control hart. -/
def Hart.isVc (h : Hart) : Bool := isVcNum h.num
/-- The hart's cluster. -/
def Hart.cluster (h : Hart) : Nat := clusterOf h.num
/-- A vector core's number n in its cluster. -/
def Hart.vcIdx (h : Hart) : Nat := h.num % 208
/-- A stream core's number in its cluster. -/
def Hart.scIdx (h : Hart) : Nat := h.num % 208 - 16
/-- The vector row of a vector core (R20). -/
def Hart.row (h : Hart) : Nat := h.vcIdx / 4
/-- The vector column of a vector core (R20). -/
def Hart.col (h : Hart) : Nat := h.vcIdx % 4
/-- The key of a row in the table of rows. -/
def rowKey (cl row : Nat) : Nat := cl * 4 + row
/-- The running task, if the hart runs one. -/
def Hart.task (h : Hart) : Option TaskRun :=
  match h.run with
  | .task t => some t
  | _ => none

/-- Hart n as a start leaves it, at the firmware entry point of that start (R312). -/
def State.freshHart (s : State) (n : Nat) : Hart := { Hart.reset n with pc := s.entry }

/-- Hart n, wherever it is held. -/
def State.getHart (s : State) (n : Nat) : Hart :=
  if n = s.cpu.num then s.cpu else (tabGet none s.parked n).getD (s.freshHart n)

/-- Replaces hart h.num. -/
def State.setHart (s : State) (h : Hart) : State :=
  if h.num = s.cpu.num then { s with cpu := h } else { s with parked := tabInsert s.parked h.num (some h) }

/-- Changes hart n by f. -/
def State.modHart (s : State) (n : Nat) (f : Hart → Hart) : State := s.setHart { f (s.getHart n) with num := n }

/-- The harts that may differ from their reset value. -/
def State.liveHarts (s : State) : List Hart := s.cpu :: s.parked.filterMap fun p => p.2

/-- Changes every hart that may differ from reset. -/
def State.mapHarts (s : State) (f : Hart → Hart) : State :=
  { s with cpu := f s.cpu, parked := s.parked.map fun p => (p.1, p.2.map f) }

/-- The machine with hart n to move. -/
def State.turnTo (s : State) (n : Nat) : State :=
  if n = s.cpu.num then s
  else { s with cpu := s.getHart n, parked := tabErase (tabInsert s.parked s.cpu.num (some s.cpu)) n }

/-- A bank of CSRAM. -/
def State.bank (s : State) (cl b : Nat) : Bank := tabGet Bank.reset s.banks (cl * 32 + b)
/-- Replaces a bank's registers. -/
def State.setBank (s : State) (cl b : Nat) (k : Bank) : State :=
  { s with banks := tabSet Bank.reset s.banks (cl * 32 + b) k }
/-- A row of a cluster. -/
def State.row (s : State) (cl r : Nat) : Row := tabGet Row.reset s.rows (rowKey cl r)
/-- Replaces a row. -/
def State.setRow (s : State) (cl r : Nat) (w : Row) : State :=
  { s with rows := tabSet Row.reset s.rows (rowKey cl r) w }

/-- The time counter with an identifier of R310. -/
def State.counter (s : State) (n : Nat) : Counter := tabGet Counter.reset s.counters n
/-- Replaces a time counter. -/
def State.setCounter (s : State) (n : Nat) (c : Counter) : State :=
  { s with counters := tabSet Counter.reset s.counters n c }
/-- A counter's value in 2^-32 ns at a cycle (R72). -/
def Counter.value (c : Counter) (cycles : Nat) : Nat := (c.base + (cycles - c.since) * c.inc) % 2 ^ 96
/-- The integer nanoseconds of a counter (R72). -/
def State.ctrNs (s : State) (n : Nat) : Nat := (s.counter n).value s.cycles / 2 ^ 32
/-- dqu_now() (R73). -/
def State.dquNow (s : State) : Nat := s.ctrNs 16

/-- The stored value of an MMIO register at an offset of the MMIO region, or its reset value. -/
def State.mmioGet (s : State) (off : Nat) (reset : Word) : Word := (tabGet none s.mmio off).getD reset
/-- Stores an MMIO register's value. -/
def State.mmioSet (s : State) (off : Nat) (reset v : Word) : State :=
  { s with mmio := if v = reset then tabErase s.mmio off else tabInsert s.mmio off (some v) }

/-- The hart whose turn it is. -/
def cpu : M Hart := do return (← get).cpu
/-- Changes the hart whose turn it is. -/
def modCpu (f : Hart → Hart) : M Unit := modify fun s => { s with cpu := f s.cpu }
/-- Changes its CSRs. -/
def modCsr (f : Csrs → Csrs) : M Unit := modCpu fun h => { h with csr := f h.csr }
/-- Changes its vector unit. -/
def modVec (f : Vec → Vec) : M Unit := modCpu fun h => { h with vec := f h.vec }

/-- An x register of a hart; x0 reads zero. -/
def Hart.xr (h : Hart) (r : Reg) : Word := if r = 0 then 0 else h.x[r.toNat]
/-- Writes an x register; a write to x0 is discarded (R170). -/
def Hart.setX (h : Hart) (r : Reg) (v : Word) : Hart :=
  if r = 0 then h else { h with x := h.x.set r.toNat v, xpoison := h.xpoison &&& ~~~((1 : BitVec 32) <<< r.toNat) }
/-- Whether an x register holds a poisoned value (R361). -/
def Hart.xPoisoned (h : Hart) (r : Reg) : Bool := r != 0 && h.xpoison.getLsbD r.toNat
/-- Marks an x register poisoned. -/
def Hart.poisonX (h : Hart) (r : Reg) (b : Bool) : Hart :=
  if b && r != 0 then { h with xpoison := h.xpoison ||| ((1 : BitVec 32) <<< r.toNat) } else h
/-- Writes an x register with the poison mark of what it was computed from (R361). -/
def Hart.setXp (h : Hart) (r : Reg) (v : Word) (b : Bool) : Hart := (h.setX r v).poisonX r b
/-- Whether an f register holds a poisoned value (R361). -/
def Hart.fPoisoned (h : Hart) (r : Reg) : Bool := h.fpoison.getLsbD r.toNat
/-- Writes an f register with its poison mark. -/
def Hart.setF (h : Hart) (r : Reg) (v : Word) (p : Bool) : Hart :=
  { h with f := h.f.set r.toNat v, fpoison := if p then h.fpoison ||| ((1 : BitVec 32) <<< r.toNat) else h.fpoison &&& ~~~((1 : BitVec 32) <<< r.toNat) }

/-- Reads an x register as data. -/
def getX (r : Reg) : M Word := do return (← cpu).xr r
/-- Writes an x register. -/
def putX (r : Reg) (v : Word) : M Unit := modCpu (·.setX r v)
/-- Writes an x register with the poison mark of what it was computed from (R361). -/
def putXp (r : Reg) (v : Word) (p : Bool) : M Unit := modCpu (·.setXp r v p)

/-- `chkint` as software reads it: with the bits of every published command (R197). -/
def Hart.chkAll (h : Hart) : BitVec 4 := h.chkPend.foldl (fun b p => b ||| p.bits) h.chkint
/-- The completions that `p` picks are acquired: their poison is shown by `chkerr` from now on (R188). -/
def Hart.acquire (h : Hart) (p : ChkPend → Bool) : Hart :=
  { h with chkint := (h.chkPend.filter p).foldl (fun b q => b ||| q.bits) h.chkint, chkPend := h.chkPend.filter fun q => !p q }

/-- A hart that consumes poison sets POISON of `chkint` (R362). -/
def Hart.eats (h : Hart) (p : Bool) : Hart := if p then { h with chkint := h.chkint ||| 1 } else h
/-- Adds a number to a rising list. -/
def addSorted (k : Nat) : List Nat → List Nat
  | [] => [k]
  | a :: r => if k < a then k :: a :: r else if k = a then a :: r else a :: addSorted k r

/-- The registers that a CSR number shows: `fcsr` shows `fflags` and `frm`, and the S-mode and user-mode views show the M-mode
registers (R152). -/
def csrHome (n : Nat) : List Nat :=
  match n with
  | 0x003 => [0x001, 0x002]
  | 0x100 => [0x300]
  | 0x104 => [0x304]
  | 0x144 => [0x344]
  | 0xC00 => [0xB00]
  | 0xC02 => [0xB02]
  | _ => [n]
/-- Whether a CSR of the hart is poisoned (R359). -/
def Hart.csrBad (h : Hart) (n : Nat) : Bool := (csrHome n).any h.cpoison.contains
/-- A CSR of the hart takes the mark of what it holds now. -/
def Hart.csrMark (h : Hart) (n : Nat) (bad : Bool) : Hart :=
  let rest := h.cpoison.filter fun k => !(csrHome n).contains k
  { h with cpoison := if bad then (csrHome n).foldl (fun l k => addSorted k l) rest else rest }
/-- A whole write of a CSR takes its poison away (R361). -/
def Hart.csrClean (h : Hart) (n : Nat) : Hart := h.csrMark n false
/-- A CSR of the hart becomes poisoned if it is not (R359, R361). -/
def Hart.csrSpoil (h : Hart) (n : Nat) (bad : Bool) : Hart := if bad then h.csrMark n true else h
/-- The hart consumes poison. -/
def consume (p : Bool) : M Unit := modCpu (·.eats p)
/-- The hart whose turn it is consumes poison (R362). -/
def State.eats (s : State) (p : Bool) : State := if p then { s with cpu := s.cpu.eats true } else s

/-- The machine check of a poisoned value put to a use that is not data (R363). -/
def psnInfo (h : Hart) : McInfo := ⟨true, if h.isVc then 1 else 2, 0, none, 0, 0, none, none⟩

/-- Raises cause 48 for the use of a poisoned value (R363). -/
def raisePsn {α : Type} : M α := do
  let h ← cpu
  throw (.exc ⟨48, 0, none, true, some (psnInfo h)⟩)

/-- Reads an x register for a use that is not data: an address, a branch operand, a configuration (R363). DEDUCED, log 63. -/
def useX (r : Reg) : M Word := do
  let h ← cpu
  if h.xPoisoned r then raisePsn else return h.xr r

/-- Reads an x register as data whose poison, if it is poisoned, is consumed (R362). -/
def dataX (r : Reg) : M (Word × Bool) := do
  let h ← cpu
  consume (h.xPoisoned r)
  return (h.xr r, h.xPoisoned r)

/-- The next free value of undefined content. -/
def freshWord : M Word := do
  let s ← get
  set { s with free := s.free + 1 }
  return Config.freeWord s.free

/-- Raises illegal instruction off a vector core (R154: cores V). -/
def onVc : M Unit := do need (← cpu).isVc
/-- Raises illegal instruction off a stream core (R154: cores S). -/
def onSc : M Unit := do need !(← cpu).isVc
/-- The running task; illegal instruction when the hart runs none (R154: J). In a handler activation the program of
the activation runs, not the task. -/
def inTask : M TaskRun := do
  let h ← cpu
  match h.task, h.act with
  | some t, none => return t
  | _, _ => illegal

/-- Moves past an instruction of n bytes and counts it as retired. -/
def Hart.advance (h : Hart) (n : Nat) : Hart :=
  { h with pc := h.pc + BitVec.ofNat 64 n, csr := { h.csr with minstret := h.csr.minstret + 1 }, wait := none,
           progress := 0, attempts := 0, posting := none }
/-- Moves past an instruction of n bytes. -/
def advance (n : Nat) : M Unit := modCpu (·.advance n)

end Sys2Proof.Machine
end

