-- ==== Sys2Proof/Machine/L2.lean ====
section
/-! DEFINITION. Poison marks of memory (R361), and the deduplicating L2: tags, data entries, content checks (R91 to R97, R365,
R383, R397). -/

namespace Sys2Proof.Machine

/-- Number of the 64-byte sector of an address. -/
def sectorOf (pa : Nat) : Nat := pa / 64

/-- The poison marks after a write of n bytes at pa (R361): poisoned data marks every sector it touches, clean data
unmarks the sectors it covers whole. DEDUCED, log 89. -/
def poisonAfter (marks : List Nat) (pa n : Nat) (bad : Bool) : List Nat :=
  if n = 0 then marks
  else
    let lo := sectorOf pa
    let cnt := sectorOf (pa + n - 1) - lo + 1
    if bad then (List.range cnt).foldl (fun m i => addSorted (lo + i) m) marks
    else marks.filter fun k => !(decide (pa ≤ 64 * k) && decide (64 * k + 64 ≤ pa + n))

/-- Whether any byte of [pa, pa + n) lies in a poisoned sector. -/
def State.poisonedAt (s : State) (pa n : Nat) : Bool :=
  s.poison.any fun k => decide (64 * k < pa + n) && decide (pa < 64 * k + 64)

/-- The L2 slice of a 128-byte line, by its number (R91). -/
def l2Slice (line : Nat) : Nat := (line % 16) ^^^ (line / 16 % 16)
/-- Data entries of a slice (R91). -/
def l2SliceEntries : Nat := 131072
/-- Tags of a slice (R91). -/
def l2SliceTags : Nat := 262144

/-- The tag of a line. -/
def L2.tagOf (l : L2) (line : Nat) : Option L2Tag := l.tags.find? (·.line == line)
/-- A data entry. -/
def L2.entryOf (l : L2) (id : Nat) : Option L2Entry := l.entries.find? (·.id == id)
/-- Replaces a data entry. -/
def L2.putEntry (l : L2) (e : L2Entry) : L2 :=
  { l with entries := l.entries.map fun f => if f.id == e.id then e else f }

/-- Releases one reference of an entry (R93): at 65,535 the entry stays until FLUSHALL. -/
def L2.release (l : L2) (id : Nat) : L2 :=
  match l.entryOf id with
  | none => l
  | some e =>
    if e.refs = 65535 then l
    else if e.refs ≤ 1 then { l with entries := l.entries.filter (·.id != id) }
    else l.putEntry { e with refs := e.refs - 1 }

/-- Drops the tag of a line and releases its entry (R96). -/
def L2.dropTag (l : L2) (line : Nat) : L2 :=
  match l.tagOf line with
  | none => l
  | some t => { (l.release t.entry) with tags := l.tags.filter (·.line != line) }

/-- Puts or replaces the tag of a line. -/
def L2.putTag (l : L2) (t : L2Tag) : L2 := { l with tags := t :: l.tags.filter (·.line != t.line) }

/-- The entry of the same domain that a content check finds (R93, R365), other than `own`. -/
def L2.match? (l : L2) (dom : Option (BitVec 12)) (content own : Nat) : Option L2Entry :=
  if dom.isNone then none
  else l.entries.find? fun e => e.dom == dom && e.content == content && !e.poisoned && e.id != own

/-- Entries of the domain whose keyed hash equals that of other content: each is an ordinary miss counted in HMISS (R93, R99). A
poisoned entry takes no part (R365). -/
def L2.collisions (l : L2) (dom : Option (BitVec 12)) (content own : Nat) : Nat :=
  match dom with
  | none => 0
  | some d => (l.entries.filter fun e =>
    e.dom == dom && e.content != content && !e.poisoned && e.id != own && Config.hashCollides l.keyGen d.toNat e.content content).length

/-- A content check of the line whose tag is t and whose entry is e (R93). -/
def L2.check (l : L2) (t : L2Tag) (e : L2Entry) : L2 :=
  if e.poisoned then l
  else
    match l.match? t.dom e.content e.id with
    | some f =>
      let l := l.putEntry { f with refs := min 65535 (f.refs + 1) }
      let l := l.release e.id
      { (l.putTag { t with entry := f.id }) with shares := l.shares + 1 }
    | none => { l with hmiss := l.hmiss + l.collisions t.dom e.content e.id }

/-- Takes a free entry of a line's slice. -/
def L2.newEntry (l : L2) (line content : Nat) (dom : Option (BitVec 12)) (bad : Bool) : L2 × L2Entry :=
  let e : L2Entry := ⟨l.nextId, l2Slice line, content, dom, 1, bad⟩
  ({ l with entries := l.entries ++ [e], nextId := l.nextId + 1 }, e)

/-- Whether a slice has no free data entry: the entries in use count, not the tags that share them. -/
def L2.sliceFull (l : L2) (line : Nat) : Bool :=
  decide (l2SliceEntries ≤ (l.entries.filter fun e => e.slice == l2Slice line).length)

/-- A tag's place for a new line: a slice whose tags are all in use gives up the one it took longest ago (R383). The sets of the
16 ways are not in the spec. DEDUCED, log 81. -/
def L2.makeTagRoom (l : L2) (line : Nat) : L2 :=
  let mine := l.tags.filter fun t => l2Slice t.line == l2Slice line
  if l2SliceTags ≤ mine.length then (match mine.getLast? with | some t => l.dropTag t.line | none => l) else l

/-- A tag of the slice that may be evicted to free a data entry: one whose entry has a count of 1, a clean one first
(R95). DEDUCED, log 81. -/
def L2.victim (l : L2) (line : Nat) : Option L2Tag :=
  let ok := l.tags.filter fun t =>
    t.line != line && (match l.entryOf t.entry with | some e => e.slice == l2Slice line && e.refs == 1 | none => false)
  match ok.find? fun t => !t.dirty with
  | some t => some t
  | none => ok.head?

/-- Makes room for one entry in a line's slice, where it can (R95). -/
def L2.makeRoom (l : L2) (line : Nat) : L2 × Bool :=
  if !l.sliceFull line then (l, true)
  else match l.victim line with
    | some t => (l.dropTag t.line, true)
    | none => (l, false)

/-- A request for a line that finds no free data entry and none to be freed waits (R95). -/
def State.l2Wait (s : State) (line : Nat) (dom : Option (BitVec 12)) (isWrite : Bool) : State :=
  if s.l2.waiting.any fun r => r.line == line && r.isWrite == isWrite then s
  else { s with l2 := { s.l2 with waiting := s.l2.waiting ++ [⟨line, dom, isWrite, s.cycles⟩] } }

/-- Data of a line reaches the L2: a fill (not dirty), or a write-back or an engine or uncached write (dirty)
(R92 to R97, R397). `dom` is the domain of the request that allocates the tag. DEDUCED, log 80. -/
def State.l2Touch (s : State) (line : Nat) (dom : Option (BitVec 12)) (dirty : Bool) : State :=
  let content := memRead s.mem (128 * line) 128
  let bad := s.poisonedAt (128 * line) 128
  let l := s.l2
  match l.tagOf line with
  | none =>
    let (l, ok) := (l.makeTagRoom line).makeRoom line
    if !ok then s.l2Wait line dom dirty
    else
      let (l, e) := l.newEntry line content dom bad
      let t : L2Tag := ⟨line, dom, e.id, dirty⟩
      { s with l2 := (l.putTag t).check t e }
  | some t =>
    if !dirty then s
    else
      match l.entryOf t.entry with
      | none => s
      | some e =>
        if e.refs = 1 then
          let e := { e with content := content, poisoned := bad }
          let t := { t with dirty := true }
          { s with l2 := ((l.putEntry e).putTag t).check t e }
        else
          let (l, ok) := l.makeRoom line
          if !ok then s.l2Wait line dom dirty
          else
            let (l, n) := l.newEntry line content t.dom bad
            let t' := { t with entry := n.id, dirty := true }
            let l := (l.putTag t').release e.id
            { s with l2 := { (l.check t' n) with unshare := l.unshare + 1 } }

/-- The lines that n bytes at a physical address lie in, as far as they are LPDDR6 (R30, R91). -/
def lpddrLines (pa n : Nat) : List Nat :=
  if n = 0 then []
  else ((List.range ((pa + n - 1) / 128 - pa / 128 + 1)).map (pa / 128 + ·)).filter fun k => decide (128 * k < 0x4000000000)

/-- A core accesses lines of LPDDR6 under a domain: their requests may reach the L2, each in place of an earlier one of its line
(R92). -/
def State.l2Ask (s : State) (pa n : Nat) (dom : Option (BitVec 12)) : State :=
  let new := ((lpddrLines pa n).map fun k => (k, dom)).filter fun p => !s.l2.asked.contains p
  if new.isEmpty then s
  else { s with l2 := { s.l2 with asked := (s.l2.asked.filter fun q => !new.any (·.1 == q.1)) ++ new } }

/-- Whether a buffered store touches a line. -/
def BufEntry.inLine (k : Nat) : BufEntry → Bool
  | .store pa d _ _ => (lpddrLines pa d.length).contains k
  | .msg _ | .mark _ => false

/-- Requests that p names are over; what a core's store will still bring to the L2 keeps its own (R92, R97, R98). DEDUCED, log 80. -/
def State.forget (s : State) (p : Nat × Option (BitVec 12) → Bool) : State :=
  let owed (k : Nat) : Bool := s.l2.stored.contains k || s.liveHarts.any fun h => h.buf.any (BufEntry.inLine k)
  { s with l2 := { s.l2 with asked := s.l2.asked.filter fun q => !p q || owed q.1 } }

/-- A read of LPDDR6 through the L2 fills the lines it touches (R93, R100). -/
def State.l2Fill (s : State) (pa n : Nat) (dom : Option (BitVec 12)) : State :=
  (lpddrLines pa n).foldl (fun s k => s.l2Touch k dom false) s

/-- An engine write or an uncached write that is performed reaches the L2, line by line, each with one content check (R93,
R397). -/
def State.l2Wrote (s : State) (pa n : Nat) (dom : Option (BitVec 12)) : State :=
  (lpddrLines pa n).foldl (fun s k => s.l2Touch k dom true) s

/-- A core's store makes its lines dirty above the L2: they reach it when they are written back (R397). -/
def State.l2Stored (s : State) (pa n : Nat) : State :=
  { s with l2 := { s.l2 with stored := (lpddrLines pa n).foldl (fun l k => addSorted k l) s.l2.stored } }

/-- A fill without a free entry: its content check looks for an existing entry to share, and counts the hash matches that fail the
compare (R93, R95, R99). A poisoned line has no content check (R365). -/
def L2.shareFill (l : L2) (line content : Nat) (dom : Option (BitVec 12)) (bad : Bool) : L2 :=
  if bad then l else
  match l.tagOf line, l.match? dom content l.nextId with
  | none, some e =>
    let l := (l.putEntry { e with refs := min 65535 (e.refs + 1) }).makeTagRoom line
    { (l.putTag ⟨line, e.dom, e.id, false⟩) with shares := l.shares + 1 }
  | none, none => { l with hmiss := l.hmiss + l.collisions dom content l.nextId }
  | some _, _ => l

/-- A waiting request goes on: with an entry as soon as one is or can be freed, after 512 cycles without allocation (R95). -/
def State.l2Timeout (s : State) (line : Nat) (isWrite : Bool) : State :=
  match s.l2.waiting.find? fun r => r.line == line && r.isWrite == isWrite with
  | none => s
  | some r =>
    let l := s.l2
    let rest := l.waiting.filter fun q => !(q.line == line && q.isWrite == isWrite)
    if !l.sliceFull line || (l.victim line).isSome then ({ s with l2 := { l with waiting := rest } }).l2Touch line r.dom isWrite
    else if s.cycles < r.since + 512 then s
    else
      let l := { l with waiting := rest, wthru := (l.wthru + 1) % 2 ^ 64 }
      { s with l2 := if isWrite then l.dropTag line else l.shareFill line (memRead s.mem (128 * line) 128) r.dom (s.poisonedAt (128 * line) 128) }

/-- What a flush of everything leaves: every dirty line is in LPDDR6, no tag, no entry, new domain keys (R98). -/
def L2.flushed (l : L2) : L2 := { l with tags := [], entries := [], stored := [], waiting := [], keyGen := l.keyGen + 1 }

end Sys2Proof.Machine
end

