-- ==== Sys2Proof/Machine/Translate.lean ====
section
/-! DEFINITION. The physical address map and address translation (R30, R31, R80, R97, R102 to R106). -/

namespace Sys2Proof.Machine

/-- The kinds of access translation and the region rules tell apart. -/
inductive Acc where
  | fetch | load | store
deriving DecidableEq, Repr

/-- The page-fault cause of an access (R102, R331). -/
def Acc.pageCause : Acc → Nat
  | .fetch => 12 | .load => 13 | .store => 15
/-- The access-fault cause of an access (R32). -/
def Acc.accessCause : Acc → Nat
  | .fetch => 1 | .load => 5 | .store => 7
/-- The misaligned cause of an access (R81). -/
def Acc.misCause : Acc → Nat
  | .store => 6 | _ => 4

/-- The regions of R30. -/
inductive Region where
  | lpddr
  | csram (cl bank off : Nat)
  | mmio (off : Nat)
  | host (bus : Nat)
  | twin (pa : Nat)
  | hole
deriving DecidableEq, Repr

/-- First address of the CSRAM windows (R30). -/
def csramBase : Nat := 0x10000000000
/-- First address of the MMIO region (R30). -/
def mmioBase : Nat := 0x20000000000
/-- First address of the host window (R30). -/
def hostBase : Nat := 0x8000000000000
/-- First address of the twin window (R30). -/
def twinBase : Nat := 0xC000000000000

/-- The region that holds a physical address (R30, R31). -/
def regionOf (pa : Nat) : Region :=
  if pa < 0x4000000000 then .lpddr
  else if csramBase ≤ pa ∧ pa < csramBase + 16 * 0x1000000 then
    let o := pa - csramBase
    let w := o % 0x1000000
    if w < 0x800000 then .csram (o / 0x1000000) (w / 0x40000) (w % 0x40000) else .hole
  else if mmioBase ≤ pa ∧ pa < mmioBase + 0x100000000 then .mmio (pa - mmioBase)
  else if hostBase ≤ pa ∧ pa < twinBase then .host (pa - hostBase)
  else if twinBase ≤ pa ∧ pa < 0x10000000000000 then .twin (pa - twinBase)
  else .hole

/-- The physical address of byte off of a bank (R31). -/
def bankAddr (cl b off : Nat) : Nat := csramBase + cl * 0x1000000 + b * 0x40000 + off

/-- Bank modes of R84. -/
def modeCache : BitVec 2 := 0
def modeScratch : BitVec 2 := 1
def modeLatch : BitVec 2 := 2
def modeFifo : BitVec 2 := 3

/-- Whether [pa, pa + n) lies in SCRATCH banks of cluster cl (R190, R192). -/
def inScratch (s : State) (cl pa n : Nat) : Bool :=
  let ok (a : Nat) : Bool :=
    match regionOf a with
    | .csram c b _ => c == cl && (s.bank c b).mode == modeScratch
    | _ => false
  n != 0 && ok pa && ok (pa + n - 1)

/-- The mode-register bits translation reads: who accesses, and MXR, SUM. -/
structure Ctx where
  satp : Word
  mode : Mode
  sum : Bool
  mxr : Bool
deriving DecidableEq, Repr

/-- A failed translation or access: the cause, and whether the leaf found was marked host-file-backed (R339). -/
structure AccFault where
  cause : Nat
  hostfile : Bool
deriving DecidableEq, Repr

/-- A translated access: its physical address and the page it lies in. -/
structure Xlat where
  pa : Nat
  pageBase : Nat
  pageSize : Nat
  wx : Bool
  dom : Option (BitVec 12)
  hostfile : Bool
deriving DecidableEq, Repr

/-- Whether satp selects Sv48 (R102). -/
def satpOn (satp : Word) : Bool := bitsAt satp.toNat 60 4 == 9
/-- The ASID of satp. -/
def satpAsid (satp : Word) : Nat := bitsAt satp.toNat 44 16
/-- The root page-table page of satp. -/
def satpRoot (satp : Word) : Nat := bitsAt satp.toNat 0 44

/-- Whether Sv48 admits the address: bits 63 to 48 repeat bit 47. -/
def canonical (va : Word) : Bool := sextWord 48 va.toNat == va

/-- A leaf PTE found by the walk, with its level. -/
structure Leaf where
  pte : Nat
  level : Nat
deriving DecidableEq, Repr

/-- What ends a walk without a leaf: an access fault on a PTE read outside LPDDR6 (R101), or a page fault. -/
inductive WalkEnd where
  | leaf (l : Leaf)
  | access
  | page (pte : Nat)
deriving DecidableEq, Repr

/-- Whether every reserved bit of a PTE is clear (R103). -/
def pteReservedOk (pte : Nat) : Bool := bitsAt pte 61 2 == 0 && bitsAt pte 54 4 == 0

/-- Whether a PTE that points to the next table is sound: of its attribute bits only V and G may be set, since Sv48 reserves D, A
and U there (R103; DEDUCED, log 27). -/
def pointerOk (pte : Nat) : Bool :=
  pteReservedOk pte && bitsAt pte 58 3 == 0 && !bitAt pte 63 && bitsAt pte 6 2 == 0 && !bitAt pte 4

/-- The rules of a leaf's own bits (R103, R104). -/
def leafOk (pte level : Nat) : Bool :=
  let n := bitAt pte 63
  let ppn := bitsAt pte 10 44
  pteReservedOk pte && level != 3 && !(bitAt pte 2 && !bitAt pte 1)
    && (if n then (level == 0 && ppn % 16 == 8) || (level == 2 && (ppn / 2 ^ 18) % 8 == 4 && ppn % 2 ^ 18 == 0)
        else ppn % 2 ^ (9 * level) == 0)

/-- The Sv48 walk (R102 to R104): `level` is the level of the table read next, counted from 3. The fuel is the number of
levels left. -/
def walk (m : Memory) (va : Nat) : (fuel : Nat) → (table : Nat) → WalkEnd
  | 0, _ => .page 0
  | level + 1, table =>
    let a := table * 4096 + 8 * bitsAt va (12 + 9 * level) 9
    match regionOf a with
    | .lpddr =>
      let pte := memRead m a 8
      if !bitAt pte 0 || (bitAt pte 2 && !bitAt pte 1) then .page pte
      else if bitAt pte 1 || bitAt pte 3 then (if leafOk pte level then .leaf ⟨pte, level⟩ else .page pte)
      else if pointerOk pte then walk m va level (bitsAt pte 10 44)
      else .page pte
    | _ => .access

/-- The size of the page a leaf maps (R104). -/
def leafSize (l : Leaf) : Nat :=
  if bitAt l.pte 63 then (if l.level == 0 then 0x10000 else 0x200000000) else 2 ^ (12 + 9 * l.level)

/-- The first physical address of the page a leaf maps (R104). -/
def leafBase (l : Leaf) : Nat :=
  let pa := bitsAt l.pte 10 44 * 4096
  pa - pa % leafSize l

/-- Offset of the L2 control block in the MMIO region (R33). -/
def l2Block : Nat := 0x02000000
/-- Offset of DDTBASE (R98). -/
def ddtbaseOff : Nat := l2Block + 0x10

/-- The address of the dedup domain table's entry that a leaf's resolution reads under an ASID, if it reads one (R97). -/
def domainEntry (s : State) (asid pte : Nat) : Option Nat :=
  let ddt := (s.mmioGet ddtbaseOff 0).toNat
  if !bitAt pte 59 || !bitAt ddt 0 then none else some (bitsAt ddt 17 35 * 2 ^ 17 + 2 * asid)

/-- The dedup domain a leaf resolves to under an ASID (R97). -/
def leafDomain (s : State) (asid pte : Nat) : Option (BitVec 12) :=
  match domainEntry s asid pte with
  | none => none
  | some a =>
    let e := memRead s.mem a 2
    if !bitAt e 15 then none
    else if bitAt pte 58 then some 0
    else if e % 4096 = 0 then none else some (BitVec.ofNat 12 e)

/-- The TLB entry made from a leaf (R105). -/
def mkTlb (s : State) (asid va : Nat) (l : Leaf) : TlbEntry where
  asid := asid
  glob := bitAt l.pte 5
  base := va - va % leafSize l
  size := leafSize l
  pa := leafBase l
  perms := BitVec.ofNat 8 l.pte
  wx := bitAt l.pte 60
  hostfile := bitsAt l.pte 8 2 == 1
  dom := leafDomain s asid l.pte
  pd := bitAt l.pte 58

/-- Whether an entry translates va under an ASID (R105). -/
def TlbEntry.hits (e : TlbEntry) (asid va : Nat) : Bool :=
  (e.glob || e.asid == asid) && decide (e.base ≤ va) && decide (va < e.base + e.size)

/-- Whether the permissions of an entry admit the access in a context. A and D are never set by hardware (R102). -/
def permOk (p : BitVec 8) (c : Ctx) (acc : Acc) : Bool :=
  let u := p.getLsbD 4
  let kind :=
    match acc with
    | .fetch => p.getLsbD 3
    | .load => p.getLsbD 1 || (c.mxr && p.getLsbD 3)
    | .store => p.getLsbD 2 && p.getLsbD 7
  let priv :=
    match c.mode with
    | .u => u
    | _ => !u || (c.sum && acc != .fetch)
  kind && priv && p.getLsbD 6

/-- The entry that translates va: from the L1 list, the L2 list of the cluster, or a walk. The last component tells which
of the two lists lacks it. DEDUCED, log 27. -/
def lookup (s : State) (l1 : List TlbEntry) (cl : Nat) (satp : Word) (va : Word) :
    Except WalkEnd (TlbEntry × Bool × Bool) :=
  let asid := satpAsid satp
  match l1.find? (·.hits asid va.toNat) with
  | some e => .ok (e, false, false)
  | none =>
    match (tabGet [] s.l2tlb cl).find? (·.hits asid va.toNat) with
    | some e => .ok (e, true, false)
    | none =>
      match walk s.mem va.toNat 4 (satpRoot satp) with
      | .leaf l => .ok (mkTlb s asid va.toNat l, true, true)
      | e => .error e

/-- L1 TLB capacity (R105). -/
def l1TlbSize : Nat := 192
/-- L2 TLB capacity (R105). -/
def l2TlbSize : Nat := 8192

/-- The PTEs that a walk reads, by address: to a leaf, or as far as it comes. -/
def walkReads (m : Memory) (va : Nat) : (fuel : Nat) → (table : Nat) → List Nat
  | 0, _ => []
  | level + 1, table =>
    let a := table * 4096 + 8 * bitsAt va (12 + 9 * level) 9
    match regionOf a with
    | .lpddr =>
      let pte := memRead m a 8
      if !bitAt pte 0 || bitsAt pte 1 3 != 0 || !pointerOk pte then [a] else a :: walkReads m va level (bitsAt pte 10 44)
    | _ => []

/-- The PTEs that a translation reads: none where a TLB holds the page. -/
def State.walked (s : State) (l1 : List TlbEntry) (cl : Nat) (satp va : Word) : List Nat :=
  let hit := match lookup s l1 cl satp va with | .ok (_, _, w) => !w | .error _ => false
  if canonical va && !hit then walkReads s.mem va.toNat 4 (satpRoot satp) else []

/-- What a translation that fails leaves: the PTEs that its walk has read came through the L2 (R100). -/
def State.missed (s : State) (l1 : List TlbEntry) (cl : Nat) (satp va : Word) : State :=
  (s.walked l1 cl satp va).foldl (fun t a => t.l2Fill a 2 none) s

/-- Whether the walk of a translation reads poisoned bytes, which its context consumes (R362): a PTE, or, where the access is `found`
to be admitted, the entry of the domain table. What it loads into a TLB carries no mark: R361 names no such granule (DESIGN
CHOICE, log 64). -/
def State.walkBad (s : State) (l1 : List TlbEntry) (cl : Nat) (c : Ctx) (va : Word) (found : Bool) : Bool :=
  !s.poison.isEmpty && c.mode != .m && satpOn c.satp &&
    (let ptes := s.walked l1 cl c.satp va
     let entry := match ptes.getLast? with
       | some a => if found then domainEntry s (satpAsid c.satp) (memRead s.mem a 8) else none
       | none => none
     (ptes ++ entry.toList).any fun a => s.poisonedAt a 1)

/-- Fills a cluster's L2 TLB after a walk, whose reads of PTEs and of the domain table by physical address fill the L2 (R92, R97,
R100, R105). -/
def State.fillL2Tlb (s : State) (cl : Nat) (satp va : Word) (e : TlbEntry) : State :=
  let reads := walkReads s.mem va.toNat 4 (satpRoot satp)
  let pte := memRead s.mem (reads.getLast?.getD 0) 8
  let t := (reads ++ (domainEntry s (satpAsid satp) pte).toList).foldl (fun t a => t.l2Fill a 2 none) s
  { t with l2tlb := tabSet [] t.l2tlb cl ((e :: tabGet [] t.l2tlb cl).take l2TlbSize) }

/-- Whether the PTE a failed walk ended at carries the host-file mark (R103, R339). -/
def WalkEnd.hostfile : WalkEnd → Bool
  | .page pte => bitsAt pte 8 2 == 1
  | _ => false

/-- The fault of a failed walk. -/
def WalkEnd.fault (acc : Acc) : WalkEnd → AccFault
  | .access => ⟨acc.accessCause, false⟩
  | w => ⟨acc.pageCause, w.hostfile⟩

/-- The region of an address that no translation governs. -/
def identity (va : Word) : Xlat := ⟨va.toNat, 0, 2 ^ 64, true, none, false⟩

/-- Translates for an engine or a weight chain of a cluster: through its L2 TLB (R102). -/
def engineXlat (s : State) (cl : Nat) (c : Ctx) (acc : Acc) (va : Word) : Except AccFault (Xlat × State) :=
  if c.mode == .m || !satpOn c.satp then .ok (identity va, s)
  else if !canonical va then .error ⟨acc.pageCause, false⟩
  else
    match lookup s [] cl c.satp va with
    | .error w => .error (w.fault acc)
    | .ok (e, _, f2) =>
      if permOk e.perms c acc then
        .ok (⟨e.pa + (va.toNat - e.base), e.base, e.size, e.wx, e.dom, e.hostfile⟩, if f2 then s.fillL2Tlb cl c.satp va e else s)
      else .error ⟨acc.pageCause, e.hostfile⟩

/-- The context a hart's data accesses are translated in: MPRV substitutes MPP in M-mode. -/
def Hart.ctx (h : Hart) (acc : Acc) : Ctx :=
  let ms := h.csr.mstatus.toNat
  let mode :=
    if h.mode == .m && bitAt ms 17 && acc != .fetch then
      (match bitsAt ms 11 2 with | 0 => Mode.u | 1 => Mode.s | _ => Mode.m)
    else h.mode
  ⟨h.csr.satp, mode, bitAt ms 18, bitAt ms 19⟩

/-- Whether an access of the hart reads a poisoned register that says how it is translated: `mstatus` for data, where MPRV or SUM and
MXR count, and `satp` below M-mode (R102, R361, R362; DESIGN CHOICE, log 64). -/
def Hart.xlatBad (h : Hart) (acc : Acc) : Bool :=
  (acc != .fetch && (h.mode == .m || satpOn h.csr.satp) && h.csrBad 0x300) || ((h.ctx acc).mode != .m && h.csrBad 0x180)

/-- Translates an address of the hart whose turn it is and fills its TLBs. While satp holds Bare, S- and U-mode accesses are by
physical address as in M-mode (R102 names Bare for M-mode only; DESIGN CHOICE, log 103). -/
def xlat (s : State) (acc : Acc) (va : Word) : Except AccFault (Xlat × State) :=
  let h := s.cpu
  let c := h.ctx acc
  if c.mode == .m || !satpOn c.satp then .ok (identity va, s.eats (h.xlatBad acc))
  else if !canonical va then .error ⟨acc.pageCause, false⟩
  else
    match lookup s h.tlb h.cluster c.satp va with
    | .error w => .error (w.fault acc)
    | .ok (e, f1, f2) =>
      let s1 := if f2 then s.fillL2Tlb h.cluster c.satp va e else s
      let s2 := if f1 then { s1 with cpu := { s1.cpu with tlb := (e :: s1.cpu.tlb).take l1TlbSize } } else s1
      let s2 := s2.eats (h.xlatBad acc || s.walkBad h.tlb h.cluster c va true)
      if permOk e.perms c acc then .ok (⟨e.pa + (va.toNat - e.base), e.base, e.size, e.wx, e.dom, e.hostfile⟩, s2)
      else .error ⟨acc.pageCause, e.hostfile⟩

/-- What a translation of `xlat` that fails leaves (R100, R362). -/
def State.xlatMissed (s : State) (acc : Acc) (va : Word) : State :=
  let c := s.cpu.ctx acc
  (s.missed s.cpu.tlb s.cpu.cluster c.satp va).eats (s.cpu.xlatBad acc || s.walkBad s.cpu.tlb s.cpu.cluster c va false)

/-- Translates in the monad, raising the access's own fault with the address. -/
def translate (acc : Acc) (va : Word) (elem : Option Nat) : M Xlat := do
  match xlat (← get) acc va with
  | .error f => do
    modify (·.xlatMissed acc va)
    raiseAt f.cause va elem
  | .ok (x, s) =>
    set s
    return x

end Sys2Proof.Machine
end

