-- ==== Sys2Proof/Machine/Visible.lean ====
section
/-! DEFINITION. Writes as every party sees them: memory, poison marks and reservations (R108, R152, R361); and messages
(R190 to R193, R297, R385). -/

namespace Sys2Proof.Machine

/-- Takes away the reservations of other harts on the 128-byte lines that [pa, pa + n) touches (R152). -/
def Hart.loseResv (h : Hart) (who : Option Nat) (pa n : Nat) : Hart :=
  match h.resv with
  | some g => if who ≠ some h.num ∧ 128 * g < pa + n ∧ pa < 128 * g + 128 then { h with resv := none } else h
  | none => h

/-- A write of plain memory or CSRAM bytes that every party sees, but for what the L2 learns of it. `who` is the writing hart,
if a hart writes. -/
def State.rawWrite (s : State) (who : Option Nat) (pa : Nat) (data : List Byte) (bad : Bool) : State :=
  let n := data.length
  let s := { s with mem := memSetBytes s.mem pa data, poison := poisonAfter s.poison pa n bad }
  if s.liveHarts.any (fun h => h.resv.isSome) then s.mapHarts (·.loseResv who pa n) else s

/-- A write of a party under a dedup domain: a core's store is dirty above the L2, every other write reaches the L2 at once
(R92, R397). -/
def State.visWriteIn (s : State) (who : Option Nat) (dom : Option (BitVec 12)) (pa : Nat) (data : List Byte) (bad : Bool) :
    State :=
  let t := s.rawWrite who pa data bad
  if who.isSome then t.l2Stored pa data.length else t.l2Wrote pa data.length dom

/-- A write by physical address, which no domain covers (R92). -/
def State.visWrite (s : State) (who : Option Nat) (pa : Nat) (data : List Byte) (bad : Bool) : State :=
  s.visWriteIn who none pa data bad

/-- A little-endian number written as `visWrite` writes. -/
def State.visWriteN (s : State) (who : Option Nat) (pa n v : Nat) : State := s.visWrite who pa (bytesOf n v) false

/-- A byte at a bus address of the host (R35). DESIGN CHOICE, log 14. -/
def State.hostByte (s : State) (a : Nat) : Byte := (tabGet none s.ports.hostMem a).getD (Config.hostByte a)
/-- n bytes at a bus address of the host. -/
def State.hostBytes (s : State) (a n : Nat) : List Byte := (List.range n).map fun i => s.hostByte (a + i)
/-- Bytes written to the host's memory, by the module or by the host. -/
def State.hostWrite (s : State) (a : Nat) (data : List Byte) : State :=
  let m := ((List.range data.length).zip data).foldl (fun m p => tabInsert m (a + p.1) (some p.2)) s.ports.hostMem
  { s with ports := { s.ports with hostMem := m } }
/-- Whether the completer of a host bus address answers Unsupported Request or Completer Abort (R302). -/
def State.hostAborts (s : State) (a : Nat) : Bool := s.ports.hostRefuses.contains (a / 4096)
/-- The host's completer begins or ends to refuse a page of its bus addresses. -/
def State.hostAnswers (s : State) (page : Nat) (refuse : Bool) : State :=
  let l := s.ports.hostRefuses.filter (· != page)
  { s with ports := { s.ports with hostRefuses := if refuse then page :: l else l } }

/-- MMIO offset of the control block of CLc (R33). -/
def clBlock (c : Nat) : Nat := 0x01000000 + c * 0x100000
/-- MMIO offset of fronthaul port p (R33). -/
def fhBlock (p : Nat) : Nat := 0x04000000 + p * 0x200000
/-- MMIO offset of the codec complex (R33). -/
def codecBlock : Nat := 0x03000000
/-- MMIO offset of the host port (R33). -/
def hostBlock : Nat := 0x05000000
/-- MMIO offset of the twin port (R33). -/
def twinBlock : Nat := 0x06000000
/-- MMIO offset of the power controller (R33). -/
def powerBlock : Nat := 0x07000000
/-- MMIO offset of the Unwene mailbox (R33). -/
def unweneBlock : Nat := 0x08000000

/-- Adds one to a counter in the low w bits of a stored register, saturating. -/
def State.bumpSat (s : State) (off w : Nat) : State :=
  let v := (s.mmioGet off 0).toNat
  if v % 2 ^ w = 2 ^ w - 1 then s else s.mmioSet off 0 (BitVec.ofNat 64 (v + 1))
/-- Adds n to a 64-bit counter register, wrapping. -/
def State.bumpWrap (s : State) (off n : Nat) : State :=
  s.mmioSet off 0 (s.mmioGet off 0 + BitVec.ofNat 64 n)

/-- Offset of field f (0 ENTRY, 1 REG0, 2 REG1, 3 HCTL) of queue q in the handler table of stream core n of CLc (R56). -/
def handlerOff (c n q f : Nat) : Nat := clBlock c + 0x80000 + n * 0x200 + q * 0x20 + f * 8
/-- A register of a handler table. -/
def State.handler (s : State) (c n q f : Nat) : Word := s.mmioGet (handlerOff c n q f) 0

/-- The pending entries of a stream core's queue. -/
def Hart.queueOf (h : Hart) (q : Nat) : List QEntry := tabGet [] h.queues q
/-- The lowest-numbered entry of a queue that no message holds (R297). An activation holds its entry until `hret`. -/
def Hart.freeEntry (h : Hart) (q : Nat) : Option Nat :=
  let held (e : Nat) : Bool :=
    (h.queueOf q).any (·.entry == e) || (match h.act with | some a => a.queue == q && a.entry == e | none => false)
  (List.range 16).find? fun e => !held e
/-- Adds an entry at the end of a queue. -/
def Hart.pushEntry (h : Hart) (q : Nat) (e : QEntry) : Hart :=
  { h with queues := tabSet [] h.queues q (h.queueOf q ++ [e]) }

/-- Messages of hart n that are in flight, the held ones among them (R191, R193). -/
def State.inFlightOf (s : State) (n : Nat) : Nat :=
  let held := (s.getHart n).buf.filter fun e => match e with | .msg _ => true | _ => false
  (s.inflight.filter fun m => m.src == some n).length + held.length

/-- Sends a message. -/
def State.send (s : State) (m : Msg) : State := { s with inflight := s.inflight ++ [m] }

/-- A device-generated message to queue q of stream core n of CLc (R297). -/
def deviceMsg (k : MsgKind) (c n q : Nat) (data : List Byte) : Msg :=
  ⟨k, none, false, c, n, q, 0, none, data, false⟩

/-- Sends a device-generated message of a kind of which at most `cap` are in flight. -/
def State.sendCapped (s : State) (k : MsgKind) (cap : Nat) (c n q : Nat) (data : List Byte) : State :=
  if (s.inflight.filter fun m => m.kind == k).length < cap then s.send (deviceMsg k c n q data) else s

/-- A port event (R385): to queue 15 of the ROLE 2 core fixed when the role map locked. -/
def State.portEvent (s : State) (code unit : Nat) : State :=
  match s.power.port15 with
  | none => s
  | some h =>
    s.sendCapped .portEvent 16 (clusterOf h) (h % 208 - 16) 15
      (bytesOf 8 code ++ bytesOf 8 unit ++ bytesOf 8 s.dquNow ++ bytesOf 8 0)

/-- Drops a message at landing: MDROP of the destination cluster increments (R192). -/
def State.dropMsg (s : State) (m : Msg) : State := s.bumpSat (clBlock m.cl + 0x600) 32

/-- The bytes an arrival occupies in the ring: whole 128-byte slots (R87). -/
def arrivalBytes (n : Nat) : Nat := ceilDiv n 128 * 128

/-- Lays bytes into a bank's ring from ring offset o, wrapping at the bank's end (R87). -/
def State.ringWrite (s : State) (cl b o : Nat) (data : List Byte) (bad : Bool) : State :=
  let o := o % 0x40000
  let first := data.take (0x40000 - o)
  let s := s.visWrite none (bankAddr cl b o) first bad
  if data.length ≤ first.length then s else s.visWrite none (bankAddr cl b 0) (data.drop first.length) bad

/-- The element-progress timers of the waits that advance restart (R344). -/
def State.restartWaits (s : State) (p : Hart → WaitOn → Bool) : State :=
  s.mapHarts fun h =>
    match h.wait with
    | some w => if p h w.on then { h with progress := 0 } else h
    | none => h

/-- The address of the next byte to be popped from an arrival queue (R87, R345). -/
def Bank.nextByte (k : Bank) (cl b : Nat) : Word := BitVec.ofNat 64 (bankAddr cl b ((k.head + k.popped) % 0x40000))

/-- A wait for arrivals of a bank. -/
def waitsBank (cl b : Nat) (h : Hart) (on : WaitOn) : Bool :=
  match on with
  | .pop _ k _ | .skip _ k _ => h.cluster == cl && k == b
  | _ => false

/-- What becomes of an arrival at a bank (R84, R87). -/
inductive Arrival where
  | landed (s : State)
  | dropped (s : State)
  | notFifo
  | noRoom
  | changing

/-- An arrival of bytes with a channel tag at bank b of CLc (R87). -/
def State.arrive (s : State) (cl b chan : Nat) (data : List Byte) (bad : Bool) : Arrival :=
  let k := s.bank cl b
  let n := arrivalBytes data.length
  if k.busy.isSome then .changing
  else if k.mode != modeFifo then .notFifo
  else if k.chan.toNat ≠ chan then .dropped (s.setBank cl b { k with drops := min (k.drops + 1) 0xFFFFF })
  else if k.level + n ≤ 0x40000 then
    let pad := List.replicate (n - data.length) (0 : Byte)
    let s := s.ringWrite cl b (k.head + k.level) (data ++ pad) bad
    .landed ((s.setBank cl b { k with level := k.level + n }).restartWaits (waitsBank cl b))
  else .noRoom

/-- Adds one to a bank's DROPS. -/
def State.bankDrop (s : State) (cl b : Nat) : State :=
  let k := s.bank cl b
  s.setBank cl b { k with drops := min (k.drops + 1) 0xFFFFF }

/-- Whether a bank of [pa, pa + n) is in a mode change. -/
def State.changingAt (s : State) (pa : Nat) : Bool :=
  match regionOf pa with
  | .csram c b _ => (s.bank c b).busy.isSome
  | _ => false

/-- A message to a stream-core queue reaches its destination: none while it has to wait for an entry or for a mode change
(R84, R191, R192, R297). -/
def State.landQueue (s : State) (m : Msg) : Option State :=
  let n := scNum m.cl m.dest
  match (s.getHart n).freeEntry m.queue with
  | none => none
  | some e =>
    let addr :=
      match m.land with
      | some a => a
      | none => (s.handler m.cl m.dest m.queue 1).toNat + 32 * e
    if s.changingAt addr || s.changingAt (addr + m.data.length - 1) then none
    else if !inScratch s m.cl addr (max m.data.length 1) then some (s.dropMsg m)
    else
      let s := s.visWrite none addr m.data m.poisoned
      some (s.modHart n (·.pushEntry m.queue ⟨e, BitVec.ofNat 64 addr, m.data.length⟩))

/-- A message lands, or is dropped; none while it has to wait (R191, R192). -/
def State.landMsg (s : State) (m : Msg) : Option State :=
  if m.toFifo then
    match s.arrive m.cl m.dest m.chan m.data m.poisoned with
    | .landed s => some s
    | .dropped s => some s
    | .notFifo => some (s.dropMsg m)
    | .noRoom => none
    | .changing => none
  else s.landQueue m

/-- Whether message number i may land now: messages of one core to one queue or bank land in the order of their sending
(R191). -/
def State.mayLand (s : State) (i : Nat) : Bool :=
  match s.inflight[i]? with
  | none => false
  | some m =>
    !((s.inflight.take i).any fun e =>
        e.src == m.src && e.toFifo == m.toFifo && e.cl == m.cl && e.dest == m.dest && e.queue == m.queue)

end Sys2Proof.Machine
end

