-- ==== Sys2Proof/Machine/Message.lean ====
section
/-! DEFINITION. Message headers: their fields, their validity, and the message made from a header and a payload
(R190, R191). -/

namespace Sys2Proof.Machine

/-- KIND of a header's first word. -/
def hdKind (h : Word) : Nat := bitsAt h.toNat 62 2
/-- XF. -/
def hdXf (h : Word) : Nat := bitsAt h.toNat 58 4
/-- XPARM. -/
def hdXparm (h : Word) : Nat := bitsAt h.toNat 50 8
/-- CL. -/
def hdCl (h : Word) : Nat := bitsAt h.toNat 46 4
/-- DEST. -/
def hdDest (h : Word) : Nat := bitsAt h.toNat 38 8
/-- QUEUE. -/
def hdQueue (h : Word) : Nat := bitsAt h.toNat 34 4
/-- CHAN. -/
def hdChan (h : Word) : Nat := bitsAt h.toNat 22 12
/-- LEN. -/
def hdLen (h : Word) : Nat := bitsAt h.toNat 0 13

/-- Whether XF and XPARM hold assigned values (R190, R263). -/
def xfOk (xf xparm : Nat) : Bool :=
  match xf with
  | 0 | 3 => xparm == 0
  | 1 => decide (xparm ≤ 5)
  | 2 => decide (xparm ≤ 1)
  | 4 => true
  | 5 => decide (xparm ≤ 15)
  | _ => false

/-- Source units a landing transform of messages takes: single bytes for COPY, BREV and W8X (R191). -/
def msgUnit (xf xparm : Nat) : Nat := (xfUnit xf xparm).getD 1

/-- Bytes that land of n bytes of payload (R191). -/
def landedLen (xf xparm n : Nat) : Nat :=
  match xf with
  | 1 => n / msgUnit 1 xparm * 48
  | 2 => 2 * n
  | _ => n

/-- Whether a header is valid (R191). `probe` tells whether the landing range lies in a SCRATCH bank now. -/
def headerOk (s : State) (hdst hland : Word) : Bool :=
  let xf := hdXf hdst
  let len := hdLen hdst
  let common := xfOk xf (hdXparm hdst) && bitsAt hdst.toNat 13 9 == 0 && decide (1 ≤ len) && decide (len ≤ 4096)
    && len % msgUnit xf (hdXparm hdst) == 0
  match hdKind hdst with
  | 0 => common && decide (hdDest hdst ≤ 191) && hdChan hdst == 0 && hland.toNat % 128 == 0
      && inScratch s (hdCl hdst) hland.toNat (landedLen xf (hdXparm hdst) len)
  | 1 => common && decide (hdDest hdst < 32) && hdQueue hdst == 0
  | _ => false

/-- The message of a valid header and its payload, in its landed form. -/
def mkMsg (src : Nat) (hdst hland : Word) (payload : List Byte) (bad : Bool) : Msg where
  kind := .core
  src := some src
  toFifo := hdKind hdst == 1
  cl := hdCl hdst
  dest := hdDest hdst
  queue := hdQueue hdst
  chan := hdChan hdst
  land := if hdKind hdst = 0 then some hland.toNat else none
  data := xfAll (hdXf hdst) (hdXparm hdst) payload
  poisoned := bad

end Sys2Proof.Machine
end

