-- ==== Sys2Proof/Machine/Dqu.lean ====
section
/-! DEFINITION. The deadline queue unit: jobs, the tideline, dispatch, budgets, leases, completion, abandonment and
deferral (R36 to R79, R296 to R299, R370 to R376). -/

namespace Sys2Proof.Machine

/-- The greatest 64-bit value. -/
def max64 : Nat := 2 ^ 64 - 1

/-- A write of the device itself: to memory, to the host's, or to a bank that admits plain stores; one to a bank in a mode change
waits for its end, and what lies beyond the twin port leaves the module (R80, R84); `bad` marks poisoned data (R361). DEDUCED, log 97. -/
def State.devWrite (s : State) (pa : Nat) (data : List Byte) (bad : Bool := false) : State :=
  match regionOf pa with
  | .lpddr => s.visWrite none pa data bad
  | .csram c b _ =>
    let k := s.bank c b
    if k.busy.isSome then s.setBank c b { k with stalled := k.stalled ++ [(pa, data, bad)] }
    else if k.mode == modeScratch || k.mode == modeLatch then s.visWrite none pa data bad
    else s
  | .host bus => if s.ports.hostUp then s.hostWrite bus data else s
  | _ => s

/-- Fields of CTL (R37). -/
def Job.cls (j : Job) : Nat := bitsAt j.ctl.toNat 0 2
/-- POLICY: true for DEFER. -/
def Job.defer (j : Job) : Bool := bitAt j.ctl.toNat 2
/-- AKIND. -/
def Job.akind (j : Job) : Nat := bitsAt j.ctl.toNat 3 2
/-- TENANT. -/
def Job.tenant (j : Job) : Nat := bitsAt j.ctl.toNat 8 8
/-- LEASE. -/
def Job.lease (j : Job) : Nat := bitsAt j.ctl.toNat 16 8
/-- FDOM. -/
def Job.fdom (j : Job) : Nat := bitsAt j.ctl.toNat 24 12
/-- DEPTH. -/
def Job.depth (j : Job) : Nat := bitsAt j.ctl.toNat 52 4
/-- Whether tasks of the job may run on a cluster. -/
def Job.onCluster (j : Job) (c : Nat) : Bool := bitAt j.ctl.toNat (36 + c)
/-- DEADLINE + SLACK, saturated (R74). -/
def Job.cliffValue (j : Job) : Nat := min (j.deadline.toNat + j.slack.toNat) max64
/-- The cliff, if the job has one: a deferred job has none (R77). -/
def Job.cliff (j : Job) : Option Nat := if j.deferred then none else some j.cliffValue
/-- The ordering deadline (R59). -/
def Job.orderDeadline (j : Job) : Nat := if j.deferred then max64 else j.deadline.toNat
/-- The class a job is ordered in: a deferred job is in class 3 (R77). -/
def Job.runClass (j : Job) : Nat := if j.deferred then 3 else j.cls

/-- STATE values of R38. -/
def stPending : BitVec 8 := 0x01
def stRunning : BitVec 8 := 0x02
def stDone : BitVec 8 := 0x10
def stAbandoned : BitVec 8 := 0x11
def stHostLost : BitVec 8 := 0x12
def stRejected : BitVec 8 := 0x13

/-- Whether the job's STATE holds a final value. -/
def Job.final (j : Job) : Bool := decide (0x10 ≤ j.state.toNat)
/-- Whether the job is live (R36). -/
def Job.live (j : Job) : Bool := j.state == stPending || j.state == stRunning

/-- The STATUS word (R38). -/
def Job.status (j : Job) : Nat :=
  j.state.toNat + 2 ^ 8 * b2n j.abchild + 2 ^ 9 * b2n j.deferred + 2 ^ 10 * b2n j.poison
    + 2 ^ 11 * b2n j.clamped + 2 ^ 16 * (j.count % 65536)

/-- A job as the DQU holds it. -/
def State.job? (s : State) (id : Nat) : Option Job := tabGet none s.dqu.jobs id

/-- Stores a job and writes its STATUS word to the RCB (R36, R38). DEDUCED, log 97. -/
def State.putJob (s : State) (id : Nat) (j : Job) : State :=
  let s := { s with dqu := { s.dqu with jobs := tabInsert s.dqu.jobs id (some j) } }
  s.devWrite (j.pa + 0x28) (bytesOf 8 j.status)

/-- Changes a job the DQU holds that is not final: a final job's RCB is software's (R40). -/
def State.modJob (s : State) (id : Nat) (f : Job → Job) : State :=
  match s.job? id with
  | some j => if j.final then s else s.putJob id (f j)
  | none => s

/-- Sets a job's continuation slot, in the DQU and, with the 32 bytes that hold it and their mark, in the RCB (R36, R46, R361). -/
def State.setCont (s : State) (id : Nat) (c : Option Desc) (bytes : List Byte) (bad : Bool := false) : State :=
  match s.job? id with
  | none => s
  | some j =>
    let s := s.putJob id { j with cont := c }
    s.devWrite (j.pa + 0x40) bytes bad
/-- Empties a job's continuation slot. -/
def State.emptyCont (s : State) (id : Nat) : State := s.setCont id none (bytesOf 32 0)

/-- Queue entries not holding a task (R71). A ROW task and each task of a spawn hold one entry until they start. -/
def State.dqFree (s : State) : Nat := 65536 - s.dqu.queue.length

/-- Enqueues one task under a sequence number (R58). -/
def State.enqueue (s : State) (job tidx : Nat) (d : Desc) (seq : Nat) : State :=
  let t : QTask := ⟨s.dqu.nextTask, job, tidx, d, seq, s.dquNow, []⟩
  { s with dqu := { s.dqu with queue := s.dqu.queue ++ [t], nextTask := s.dqu.nextTask + 1 } }

/-- Takes the next enqueue sequence number, 48 bits wide (R58). -/
def State.nextSeq (s : State) : State := { s with dqu := { s.dqu with seq := (s.dqu.seq + 1) % 2 ^ 48 } }

/-- Offset of register f (0 LROWS, 1 LCFG, 2 LCAP, 3 LSTAT) of lease entry l (R71). -/
def leaseOff (l f : Nat) : Nat := 0x1000 + l * 0x20 + f * 8
/-- LROWS of a lease. -/
def State.lrows (s : State) (l : Nat) : Nat := (s.mmioGet (leaseOff l 0) 0).toNat
/-- LCFG of a lease; WEIGHT resets to 1. -/
def State.lcfg (s : State) (l : Nat) : Nat := (s.mmioGet (leaseOff l 1) 0x10000).toNat
/-- Whether lease entry l is valid. -/
def State.leaseValid (s : State) (l : Nat) : Bool := l != 0 && bitAt (s.lcfg l) 0
/-- The lease cap in ns (R71). -/
def State.leaseCap (s : State) (l : Nat) : Nat :=
  let c := (s.mmioGet (leaseOff l 2) 0).toNat % 2 ^ 32
  if c = 0 then 20000 else c
/-- WEIGHT of a lease; lease 0 has weight 1 (R68). -/
def State.leaseWeight (s : State) (l : Nat) : Nat := if l = 0 then 1 else bitsAt (s.lcfg l) 16 16
/-- Whether a valid lease names row k (number 4c + k). -/
def State.rowLeased (s : State) (k : Nat) : Bool :=
  (List.range 256).any fun l => s.leaseValid l && bitAt (s.lrows l) k
/-- DQCTL.AGE in µs. -/
def State.dqAge (s : State) : Nat := bitsAt (s.mmioGet 0 0x640010).toNat 16 16
/-- DQCTL.QUANT. -/
def State.dqQuant (s : State) : Nat := bitsAt (s.mmioGet 0 0x640010).toNat 0 16

/-- Whether fault domain d is quarantined (R370, R372). -/
def State.quarantined (s : State) (d : Nat) : Bool := bitAt (s.mmioGet (0x8000 + d * 8) 0).toNat 63

/-- The row number 4c + k of a vector core. -/
def rowOfHart (n : Nat) : Nat := rowKey (clusterOf n) (n % 208 / 4)
/-- The four vector cores of row 4c + k. -/
def rowHarts (k : Nat) : List Nat := (List.range 4).map fun i => vcNum (k / 4) (4 * (k % 4) + i)

/-- Whether a hart runs no task and may take one: an idle core, or (DEDUCED, log 5) one whose own program waits in `wfi`. -/
def Hart.free (h : Hart) : Bool :=
  match h.run with
  | .idle => h.act.isNone
  | .program => h.act.isNone && (match h.wait with | some w => w.on == .wfi | none => false)
  | _ => false

/-- Whether a core takes tasks at all: it is free, runs one, or serves a message between two of them (R57, R61). -/
def Hart.takesTasks (h : Hart) : Bool := h.free || h.task.isSome || h.run == .idle

/-- Whether the job of a queued task lets any task of it start now: RUNNING, before its cliff, not quarantined, not
abandoned (R60, R75, R372). -/
def State.startable (s : State) (j : Job) : Bool :=
  j.state == stRunning && j.abandonAt.isNone && !s.quarantined j.fdom
    && (match j.cliff with | some c => decide (s.dquNow < c) | none => true)

/-- The lease rule of class-2 VC and ROW tasks on a row (R67). -/
def State.leaseAdmits (s : State) (j : Job) (k : Nat) : Bool :=
  if j.runClass ≠ 2 then true
  else if j.lease ≠ 0 then s.leaseValid j.lease && bitAt (s.lrows j.lease) k
  else !s.rowLeased k

/-- Whether a queued task is eligible for core n (R60, R67, R69, R372). -/
def State.eligible (s : State) (t : QTask) (n : Nat) : Bool :=
  match s.job? t.job with
  | none => false
  | some j =>
    let h := s.getHart n
    let vc := isVcNum n
    let k := rowOfHart n
    let kindOk :=
      match t.desc.kind.toNat with
      | 0 => vc && h.takesTasks && j.akind != 2
      | 1 => vc && j.akind != 2 && (rowHarts k).all fun m => (s.getHart m).takesTasks
      | 2 => !vc && h.srvrole == 0 && h.takesTasks && j.akind != 1
      | _ => false
    s.power.locked && !s.power.shutdown && s.power.fatal.isNone && s.startable j && j.onCluster (clusterOf n) && kindOk
      && (!vc || (s.leaseAdmits j k && (j.runClass != 2 || (tabGet none s.dqu.reclaim k).isNone)))
      && (t.desc.kind != 0 || (tabGet none s.dqu.reserved k).isNone)

/-- The tideline's key of a task (R59). -/
def State.tideKey (s : State) (t : QTask) : List Nat :=
  match s.job? t.job with
  | none => [4, 0, 0, 0]
  | some j => [j.runClass, j.orderDeadline, t.seq, t.tidx]

/-- Lexicographic order of keys. -/
def keyLt : List Nat → List Nat → Bool
  | a :: r, b :: q => decide (a < b) || (a == b && keyLt r q)
  | _, _ => false

/-- The first of a list of tasks in tideline order. -/
def State.firstOf (s : State) : List QTask → Option QTask
  | [] => none
  | t :: r =>
    match s.firstOf r with
    | none => some t
    | some u => if keyLt (s.tideKey u) (s.tideKey t) then some u else some t

/-- The class a queued task is ordered in. -/
def State.classOf (s : State) (t : QTask) : Nat :=
  match s.job? t.job with
  | none => 4
  | some j => j.runClass

/-- The lease of a queued task's job. -/
def State.leaseOf (s : State) (t : QTask) : Nat :=
  match s.job? t.job with
  | none => 0
  | some j => j.lease

/-- The instant a task's age counts from (R68). -/
def State.ageFrom (s : State) (t : QTask) : Nat :=
  let r := match s.job? t.job with | some j => j.runningAt | none => 0
  let l := s.leaseOf t
  max (max t.since r) (if l = 0 then 0 else tabGet 0 s.dqu.validAt l)

/-- The deficit of a lease. -/
def State.deficit (s : State) (l : Nat) : Int := tabGet 0 s.dqu.deficit l

/-- The number of passes of the round robin until lease l's deficit is positive (R68). -/
def State.passes (s : State) (l : Nat) : Nat :=
  let d := s.deficit l
  let inc : Int := max 1 ((s.leaseWeight l * s.dqQuant * 256 : Nat) : Int)
  if 0 < d then 0 else ((-d) / inc + 1).toNat

/-- Position of lease l counted cyclically from the pointer. -/
def State.fromPointer (s : State) (l : Nat) : Nat := (l + 256 - s.dqu.pointer % 256) % 256

/-- The deficit round robin's choice among class-2 tasks, with the deficits and the pointer after it (R68). DEDUCED, log 34. -/
def State.drr (s : State) (ts : List QTask) : Option (QTask × State) :=
  let cand := (List.range 256).filter fun l => ts.any fun t => s.leaseOf t == l
  let head (l : Nat) : Option QTask := s.firstOf (ts.filter fun t => s.leaseOf t == l)
  let age (l : Nat) : Nat := match head l with | some t => s.dquNow - s.ageFrom t | none => 0
  let aged := cand.filter fun l => decide (s.dqAge * 1000 ≤ age l)
  let best (f : Nat → List Nat) (ls : List Nat) : Option Nat :=
    ls.foldl (fun b l => match b with | none => some l | some m => if keyLt (f l) (f m) then some l else some m) none
  match best (fun l => [max64 - age l, l]) aged with
  | some l => (head l).map fun t => (t, s)
  | none =>
    match best (fun l => [s.passes l, s.fromPointer l]) cand with
    | none => none
    | some l =>
      let w := s.passes l
      let visits (m : Nat) : Nat := if m = l then w else if s.fromPointer m < s.fromPointer l then w + 1 else w
      let defs := cand.foldl
        (fun d m => tabSet 0 d m (s.deficit m + ((visits m * s.leaseWeight m * s.dqQuant * 256 : Nat) : Int)))
        s.dqu.deficit
      (head l).map fun t => (t, { s with dqu := { s.dqu with deficit := defs, pointer := l } })

/-- The task R63 chooses for core n among eligible tasks that `ok` admits. -/
def State.choose (s : State) (n : Nat) (ok : QTask → Bool) : Option (QTask × State) :=
  let ts := s.dqu.queue.filter fun t => ok t && s.eligible t n
  let cls (c : Nat) : List QTask := ts.filter fun t => s.classOf t == c
  match s.firstOf (cls 0) with
  | some t => some (t, s)
  | none =>
    match s.firstOf (cls 1) with
    | some t => some (t, s)
    | none =>
      match s.drr (cls 2) with
      | some r => some r
      | none => (s.firstOf (cls 3)).map fun t => (t, s)

/-- A queued task by its number. -/
def State.task? (s : State) (id : Nat) : Option QTask := s.dqu.queue.find? (·.id == id)

/-- Replaces a queued task. -/
def State.putTask (s : State) (t : QTask) : State :=
  { s with dqu := { s.dqu with queue := s.dqu.queue.map fun u => if u.id == t.id then t else u } }

/-- Takes a task out of every prefetch slot: it returns to the tideline (R62). -/
def State.recall (s : State) (id : Nat) : State :=
  match s.task? id with
  | none => s
  | some t =>
    let s := t.slots.foldl (fun s n => s.modHart n fun h => { h with prefetch := h.prefetch.filter (· != id) }) s
    s.putTask { t with slots := [] }

/-- Recalls each of a list of tasks. -/
def State.recallAll (s : State) (ts : List QTask) : State := ts.foldl (fun s t => s.recall t.id) s

/-- Puts a task into the younger slot of each of these cores (R61). -/
def State.place (s : State) (id : Nat) (ns : List Nat) : State :=
  match s.task? id with
  | none => s
  | some t =>
    let s := ns.foldl (fun s n => s.modHart n fun h => { h with prefetch := h.prefetch ++ [id] }) s
    s.putTask { t with slots := ns }

/-- Removes a task from the queue and from its slots. -/
def State.dropTask (s : State) (id : Nat) : State :=
  let s := s.recall id
  let s := { s with dqu := { s.dqu with queue := s.dqu.queue.filter (·.id != id) } }
  let clr (t : Tab (Option Nat)) : Tab (Option Nat) := t.filter fun p => p.2 != some id
  { s with dqu := { s.dqu with
      reserved := clr s.dqu.reserved
      reclaim := s.dqu.reclaim.filter fun p => (match p.2 with | some r => r.task != id | none => false) } }

/-- A lease without a queued class-2 task has deficit 0 (R68). -/
def State.trimDeficits (s : State) : State :=
  let used := (s.dqu.queue.filter fun t => s.classOf t == 2).map s.leaseOf
  { s with dqu := { s.dqu with deficit := s.dqu.deficit.filter fun p => used.contains p.1 } }

/-- The unstarted tasks in the slots of a row's cores. -/
def State.rowSlotted (s : State) (k : Nat) : List QTask :=
  s.dqu.queue.filter fun t => t.slots.any fun n => isVcNum n && rowOfHart n == k

/-- Whether task a comes before task b for a recall (R62). -/
def State.precedes (s : State) (a b : QTask) : Bool :=
  let ca := s.classOf a
  decide (ca < s.classOf b) || (ca == s.classOf b && ca != 2 && keyLt (s.tideKey a) (s.tideKey b))

/-- Reserves a row for a ROW task: an earlier reservation passes to it where it is the more urgent, and every unstarted VC task
of the row's cores is recalled (R64). -/
def State.reserve (s : State) (k : Nat) (t : QTask) : State :=
  let before := (tabGet none s.dqu.reserved k).bind s.task?
  if (match before with | some b => b.id == t.id || !s.precedes t b | none => false) then s
  else
    let s := s.recallAll ((s.rowSlotted k).filter fun u => u.desc.kind == 0 || some u.id == before.map (·.id))
    { s with dqu := { s.dqu with reserved := tabInsert s.dqu.reserved k (some t.id) } }

/-- Once a reserved ROW task has started or was withdrawn, the row is reserved for the ROW task that stands in its cores' slots, if any (R64). -/
def State.reserveNext (s : State) (k : Nat) : State :=
  match s.firstOf ((s.rowSlotted k).filter fun t => t.desc.kind == 1) with
  | some t => s.reserve k t
  | none => s

/-- The rows that are reserved for a task. -/
def State.reservedFor (s : State) (id : Nat) : List Nat := s.dqu.reserved.filterMap fun p => if p.2 = some id then some p.1 else none

/-- A task returns to the tideline unstarted. A row that was reserved for it is reserved for the ROW task in its cores' slots that comes
first, if any (R62, R64). DEDUCED, log 33. -/
def State.sendBack (s : State) (id : Nat) : State :=
  (s.reservedFor id).foldl (fun s k => ({ s with dqu := { s.dqu with reserved := tabErase s.dqu.reserved k } }).reserveNext k) (s.recall id)

/-- Each of a list of tasks returns to the tideline. -/
def State.sendBackAll (s : State) (ts : List QTask) : State := ts.foldl (fun s t => s.sendBack t.id) s

/-- A row's reservation passes to the first queued ROW task that comes before task b, which holds it (R64). -/
def State.passOn (s : State) (b : QTask) (k : Nat) : State :=
  match s.firstOf (s.dqu.queue.filter fun t =>
      t.desc.kind == 1 && t.slots.isEmpty && s.precedes t b && (rowHarts k).any (s.eligible t)) with
  | some t => s.reserve k t
  | none => s

/-- Whether a row is lent: one of its cores runs or holds a class-2 task, and a valid lease names it (R69). -/
def State.lent (s : State) (k : Nat) : Bool :=
  s.rowLeased k &&
    ((s.rowSlotted k).any (fun t => s.classOf t == 2) ||
      (rowHarts k).any fun n =>
        match (s.getHart n).task with
        | some t => (match s.job? t.job with | some j => j.runClass == 2 | none => false)
        | none => false)

/-- The lowest-numbered valid lease that names a row. -/
def State.leaseOfRow (s : State) (k : Nat) : Nat :=
  ((List.range 256).find? fun l => s.leaseValid l && bitAt (s.lrows l) k).getD 0

/-- The generator key at a start: a base value with an index above bit 48 (R138). -/
def rngSeed (base : Word) (idx : Nat) : Word := base ^^^ BitVec.ofNat 64 (idx * 2 ^ 48)

/-- Cycles of a task's budget, and whether it counts (R49, R66, R70). A borrower on a row that several valid leases name has the cap
of its own job's lease (DESIGN CHOICE, log 130). -/
def State.taskBudget (s : State) (j : Job) (n : Nat) : BitVec 32 × Bool :=
  let own := j.budget.toNat
  let k := rowOfHart n
  let capped := j.runClass == 2 && isVcNum n && j.lease != 0 && s.leaseValid j.lease && bitAt (s.lrows j.lease) k
  let base := if own = 0 then 0xFFFFFFFF else own
  if capped then (BitVec.ofNat 32 (min base (ceilDiv (s.leaseCap j.lease * 19) 10)), true)
  else (BitVec.ofNat 32 base, own != 0)

/-- The vector unit at a task start (R49): what R49 names outlives tasks, the rest is zero. A `lanemap` write takes effect
here (R200). -/
def Vec.atTask (v : Vec) : Vec :=
  { Vec.reset with vprogtmo := v.vprogtmo, lanemap := v.lanemap, lanes := v.lanemap }

/-- Normalises a satp value: modes other than Sv48 become Sv48 (R102). -/
def normSatp (v : Word) : Word := BitVec.ofNat 64 (putBits v.toNat 60 4 9)

/-- The state a core holds when a task starts on it (R49). -/
def Hart.startTask (h : Hart) (j : Job) (t : QTask) (budget : BitVec 32) (counts : Bool) (cycle : Nat) : Hart :=
  let x : Vector Word 32 := Vector.replicate 32 0
  let x := ((x.set 10 t.desc.arg).set 11 (BitVec.ofNat 64 t.tidx)).set 12 j.addr
  let x := if t.desc.kind == 1 then x.set 13 (BitVec.ofNat 64 h.col) else x
  { h with
    run := .task ⟨t.id, t.job, t.tidx, t.desc.kind == 1, counts, cycle, false, none, 0, 0, j.runClass == 2, false, false, 0⟩
    pc := t.desc.entry
    x := x
    f := Vector.replicate 32 0
    frm := 0
    fflags := 0
    mode := if j.priv then .s else .u
    csr := { h.csr with satp := normSatp j.satp }
    vec := h.vec.atTask
    rngkey := rngSeed j.addr t.tidx
    rngctr := 0
    chkint := 0
    chkPend := []
    ctags := 0
    tbudget := budget
    jobrcb := j.addr
    resv := none
    wait := none
    progress := 0
    attempts := 0
    nest := 0
    trap := none
    posting := none
    buf := []
    pops := []
    matFaults := []
    la := []
    winDone := []
    xpoison := if t.desc.bad then BitVec.twoPow 32 10 else 0
    fpoison := 0
    cpoison := h.cpoison.filter fun n => bitsAt n 8 2 != 0 && n != 0x180 }

/-- The place of column c of row r of a tile in a row's accumulators. -/
def accKey (tile r c : Nat) : Nat := tile * 1024 + r * 32 + c

/-- Whether an accumulator element lies in the slices of a column's core (R21). -/
def inSlice (col k : Nat) : Bool := k % 1024 / 256 == col

/-- Zeroes one core's slices of all four tiles (R49). -/
def Row.clearSlice (w : Row) (col : Nat) : Row :=
  { w with acc := w.acc.filter fun p => !inSlice col p.1, apoison := w.apoison.filter fun k => !inSlice col k }

/-- Zeroes a core's slices at a task start, behind the commands that an earlier task left running (R49, R50). DEDUCED, log 67. -/
def Row.zeroAtStart (w : Row) (col : Nat) : Row :=
  if w.queue.isEmpty then w.clearSlice col else { w with queue := w.queue ++ [.clear col] }

/-- Starts a task on one core. -/
def State.startOn (s : State) (t : QTask) (j : Job) (n : Nat) : State :=
  let b := s.taskBudget j n
  let s := s.modHart n fun h => h.startTask j t b.1 b.2 s.cycles
  if isVcNum n then
    let k := rowOfHart n
    s.setRow (k / 4) (k % 4) ((s.row (k / 4) (k % 4)).zeroAtStart (n % 4))
  else s

/-- Whether messages wait that a stream core serves before its next task (R57). -/
def State.messagesWait (s : State) (n : Nat) : Bool :=
  !isVcNum n && (List.range 16).any fun q =>
    !((s.getHart n).queueOf q).isEmpty && s.handler (clusterOf n) (n % 208 - 16) q 0 != 0

/-- Whether a slotted task may start on core n now (R60, R67, R71, R372): what the DQU was told after it was placed counts. -/
def State.mayStart (s : State) (t : QTask) (n : Nat) : Bool :=
  match s.job? t.job with
  | none => false
  | some j => s.startable j && (!isVcNum n || s.leaseAdmits j (rowOfHart n))

/-- A free core starts the task in its older slot; a ROW task starts when all four cores are free (R42, R61, R64). -/
def State.startNext (s : State) (n : Nat) : State :=
  let h := s.getHart n
  match h.prefetch with
  | [] => s
  | id :: _ =>
    match s.task? id with
    | none => s
    | some t =>
      match s.job? t.job with
      | none => s
      | some j =>
        if !h.free || s.messagesWait n || !s.mayStart t n || !s.power.locked || s.power.shutdown || s.power.fatal.isSome then s
        else if t.desc.kind == 1 then
          let ns := rowHarts (rowOfHart n)
          if ns.all fun m => (s.getHart m).free && (s.getHart m).prefetch.contains id then
            ((ns.foldl (fun s m => s.startOn t j m) (s.dropTask id)).reserveNext (rowOfHart n)).trimDeficits
          else s
        else ((s.dropTask id).startOn t j n).trimDeficits

/-- Whether a core could start a task at once: it is free, and its slots hold only that task and tasks it comes before (R62). -/
def State.openTo (s : State) (t : QTask) (n : Nat) : Bool :=
  let h := s.getHart n
  h.free && h.prefetch.all fun id => id == t.id || (match s.task? id with | some b => s.precedes t b | none => true)

/-- Whether a task could start at once on some core, or, for a ROW task, on the four of some row (R69). -/
def State.canStart (s : State) (t : QTask) : Bool :=
  let ns := (s.liveHarts.map (·.num)).filter (s.eligible t)
  if t.desc.kind == 1 then ns.any fun m => (rowHarts (rowOfHart m)).all (s.openTo t) else ns.any (s.openTo t)

/-- Whether a class-0 or class-1 task has row k reclaimed (R69): the row is lent, the task is eligible for a core of it, and no
eligible core is free for it. -/
def State.wantsRow (s : State) (k : Nat) (t : QTask) : Bool :=
  decide (s.classOf t < 2) && t.desc.kind != 2 && (tabGet none s.dqu.reclaim k).isNone && s.lent k
    && (rowHarts k).any (s.eligible t) && !s.canStart t

/-- Begins reclaim of a row for a task: its prefetched class-2 tasks are recalled, and its cores go on to their other slots (R61,
R69). -/
def State.beginReclaim (s : State) (k id : Nat) : State :=
  let s := s.sendBackAll ((s.rowSlotted k).filter fun t => s.classOf t == 2)
  let s := { s with dqu := { s.dqu with reclaim := tabInsert s.dqu.reclaim k (some ⟨s.dquNow, id, s.leaseOfRow k, false⟩) } }
  (rowHarts k).foldl State.startNext s

/-- Reclaim of row k begins for the first task that has it reclaimed, if any (R69). -/
def State.reclaimRow (s : State) (k : Nat) : State :=
  match s.firstOf (s.dqu.queue.filter (s.wantsRow k)) with
  | some t => s.beginReclaim k t.id
  | none => s

/-- Reclaim begins of every row that a task has reclaimed (R69). DEDUCED, log 33. -/
def State.reclaims (s : State) : State :=
  (((s.liveHarts.map (·.num)).filter isVcNum).map rowOfHart).eraseDups.foldl State.reclaimRow s

/-- The tasks in core n's slots that have to go back to the tideline: those that may not start there any more, and those that a
queued task eligible for the core comes before (R62, R372). -/
def State.recallables (s : State) (n : Nat) : List QTask :=
  let h := s.getHart n
  (s.dqu.queue.filter fun t => h.prefetch.contains t.id).filter fun b =>
    (match s.job? b.job with
     | some j => s.quarantined j.fdom || (isVcNum n && !s.leaseAdmits j (rowOfHart n))
     | none => true)
      || s.dqu.queue.any fun a => a.slots.isEmpty && s.eligible a n && s.precedes a b

/-- A task returns to the tideline, and each core whose older slot holds another now starts that one where it may (R61, R62, R64). -/
def State.recallOne (s : State) (t : QTask) : State :=
  t.slots.foldl State.startNext (((s.reservedFor t.id).foldl (fun s k => s.passOn t k) s).sendBack t.id)

/-- PREFETCH_FILL for core n (R61, R63, R64, R69). Reclaim of lent rows begins, and what has to be recalled goes first (R62, R69); with
nothing to fill, a free core starts the task in its older slot, which a lease or a quarantine may have kept from it till now (R61).
DEDUCED, log 33. -/
def State.prefetchFill (s : State) (n : Nat) : State :=
  let s := s.reclaims
  let s := (s.recallables n).foldl State.recallOne s
  let h := s.getHart n
  if h.prefetch.length ≥ 2 || !h.takesTasks then s.startNext n
  else
    match s.choose n fun t => t.slots.isEmpty with
    | none => s.startNext n
    | some (t, s) =>
      if t.desc.kind == 1 then
        let k := rowOfHart n
        let s := s.reserve k t
        if (rowHarts k).all fun m => decide ((s.getHart m).prefetch.length < 2) then
          (s.place t.id (rowHarts k)).startNext n
        else s
      else (s.place t.id [n]).startNext n

/-- Offset of FDSTAT of a domain (R370). -/
def fdstatOff (d : Nat) : Nat := 0x8000 + d * 8

/-- Charges an event to a fault domain: field 0 REPLAY, 1 POISON, 2 MCHK, with the notification of R371. DEDUCED, log 90. -/
def State.charge (s : State) (d field : Nat) (rcb : Word) : State :=
  let v := (s.mmioGet (fdstatOff d) 0).toNat
  let c := bitsAt v (16 * field) 16
  let s := s.mmioSet (fdstatOff d) 0 (BitVec.ofNat 64 (putBits v (16 * field) 16 (min (c + 1) 0xFFFF)))
  let nt := (s.mmioGet 0x4000 0).toNat
  if field = 0 || !bitAt nt 63 then s
  else
    s.sendCapped .fdomain 16 (bitsAt nt 12 4) (bitsAt nt 4 8) (bitsAt nt 0 4)
      (bytesOf 8 d ++ bytesOf 8 (3 - field) ++ bytesOf 8 rcb.toNat ++ bytesOf 8 0)

/-- The fault domain and RCB address an event on a hart is charged to (R370). -/
def State.hartDomain (s : State) (n : Nat) : Nat × Word :=
  match (s.getHart n).task with
  | some t => (match s.job? t.job with | some j => (j.fdom, j.addr) | none => (0, 0))
  | none => (0, 0)

/-- The fault domain and RCB address an event of a command is charged to: those of the job that posted it (R370). -/
def State.jobDomain (s : State) (job : Option Nat) : Nat × Word :=
  match job with
  | some id => (match s.job? id with | some j => (j.fdom, j.addr) | none => (0, 0))
  | none => (0, 0)

/-- Offset of register f (0 CRBASE, 1 CRCFG, 2 CRPROD, 3 CRCONS) of completion ring h (R298). -/
def ringOff (h f : Nat) : Nat := hostBlock + 0x100000 + h * 0x20 + f * 8

/-- A record goes to a host completion ring in the host's memory, its PHASE that of this pass through the ring, or is dropped: with OVF
where the ring is full or off, without where only the link is down (R297, R298, R299). DESIGN CHOICE, log 79. -/
def State.ringRecord (s : State) (h : Nat) (record : List Byte) : State :=
  let cfg := (s.mmioGet (ringOff h 1) 0).toNat
  let prod := s.mmioGet (ringOff h 2) 0
  let cons := s.mmioGet (ringOff h 3) 0
  let n := 2 ^ bitsAt cfg 48 5
  if !bitAt cfg 63 || (prod - cons).toNat = n then
    s.mmioSet (ringOff h 1) 0 (BitVec.ofNat 64 (putBits cfg 62 1 1))
  else if !s.ports.hostUp then s
  else
    let cword := ofBytes (record.take 8) + b2n (bitAt prod.toNat (bitsAt cfg 48 5))
    let s := s.hostWrite ((s.mmioGet (ringOff h 0) 0).toNat + 32 * (prod.toNat % n)) (bytesOf 8 cword ++ record.drop 8)
    let s := s.mmioSet (ringOff h 2) 0 (prod + 1)
    let p := tabGet (0, 0) s.ports.ringPend h
    let p := (p.1 + 1, if p.1 = 0 then s.dquNow else p.2)
    let p := if max 1 (bitsAt cfg 24 8) ≤ p.1 then (0, 0) else p
    { s with ports := { s.ports with ringPend := tabSet (0, 0) s.ports.ringPend h p } }

/-- The completion record of a final job (R297). -/
def Job.record (j : Job) (doneTime : Nat) : List Byte :=
  let cword := putBits 0 7 41 (bitsAt j.addr.toNat 7 41) + 2 ^ 48 * b2n j.clamped + 2 ^ 49 * b2n j.poison
    + 2 ^ 50 * b2n j.deferred + 2 ^ 51 * b2n j.abchild + 2 ^ 56 * j.state.toNat
  bytesOf 8 cword ++ bytesOf 8 doneTime ++ bytesOf 8 j.result.toNat ++ bytesOf 8 j.user.toNat

/-- Entries of a message's queue that no message holds or is on its way to. -/
def State.roomFor (s : State) (m : Msg) : Nat :=
  let h := s.getHart (scNum m.cl m.dest)
  let held (e : Nat) : Bool :=
    (h.queueOf m.queue).any (·.entry == e) || (match h.act with | some a => a.queue == m.queue && a.entry == e | none => false)
  ((List.range 16).filter fun e => !held e).length
    - (s.inflight.filter fun i => !i.toFifo && i.cl == m.cl && i.dest == m.dest && i.queue == m.queue).length

/-- Completion messages that wait for their queues (R375). -/
def State.compWaiting (s : State) : Nat :=
  s.dqu.compWait.length
    + (s.inflight.filter fun m => m.kind == .completion && ((s.getHart (scNum m.cl m.dest)).freeEntry m.queue).isNone).length

/-- Sends a final job's completion along its ROUTE (R39, R297, R298, R375): to its queue where that has room and no earlier one
waits for it; its message is poisoned where a field of it is (R361). DEDUCED, log 100. -/
def State.sendCompletion (s : State) (j : Job) (doneTime : Nat) : State :=
  let r := j.route.toNat
  let t := bitsAt r 16 16
  match bitsAt r 0 2 with
  | 1 =>
    let m := { deviceMsg .completion (bitsAt t 0 4) (bitsAt t 4 8) (bitsAt t 12 4) (j.record doneTime) with
      poisoned := j.recBad || j.resultBad }
    let behind := s.dqu.compWait.any fun w => w.cl == m.cl && w.dest == m.dest && w.queue == m.queue
    if !behind && 0 < s.roomFor m then s.send m
    else if s.compWaiting < 256 then { s with dqu := { s.dqu with compWait := s.dqu.compWait ++ [m] } }
    else s.bumpSat 0x28 32
  | 2 => s.ringRecord t (j.record doneTime)
  | _ => s

/-- A final job's completion goes out behind its STATUS write: where that waits for a bank's mode change, so does it (R124). -/
def State.completeJob (s : State) (id : Nat) (j : Job) (doneTime : Nat) : State :=
  match regionOf j.pa with
  | .csram c b _ =>
    let k := s.bank c b
    if k.busy.isSome then s.setBank c b { k with after := k.after ++ [(id, doneTime)] } else s.sendCompletion j doneTime
  | _ => s.sendCompletion j doneTime

/-- Writes STATUS, DONE_TIME and RESULT, with its mark, of a final job together (R40, R361) and sends its completion. -/
def State.finalize (s : State) (id : Nat) (st : BitVec 8) (doneTime : Nat) : State :=
  match s.job? id with
  | none => s
  | some j =>
    let j := { j with state := st, count := 0, contDue := false }
    let s := s.putJob id j
    let s := s.devWrite (j.pa + 0x30) (bytesOf 8 doneTime)
    let s := s.devWrite (j.pa + 0x60) (bytesOf 8 j.result.toNat) j.resultBad
    s.completeJob id j doneTime

/-- The waiting continuation that the next free entry goes to, with its job and its enqueue sequence number: earliest ordering
deadline, then by that number (R58, R374). DEDUCED, log 32. -/
def State.nextCont (s : State) : Option (Nat × Desc × Nat) :=
  let l := s.dqu.jobs.filterMap fun p =>
    match p.2 with
    | some j => if j.contDue && !j.final then j.cont.map fun d => ([j.orderDeadline, j.contSeq, p.1], p.1, d, j.contSeq) else none
    | none => none
  (l.foldl (fun b a => match b with
    | none => some a
    | some c => if keyLt a.1 c.1 then some a else some c) none).map Prod.snd

/-- A core that waits to post restarts its element-progress timer when its job's COUNT falls (R344). -/
def Hart.countFell (id : Nat) (h : Hart) : Hart :=
  match h.wait, h.task with
  | some ⟨.post _, _, _, _⟩, some t => if t.job = id then { h with progress := 0 } else h
  | _, _ => h

/-- What follows a job's COUNT when it reaches zero, up the tree (R47, R75, R374). The fuel bounds the depth of the
tree, which is at most 16 (R44). -/
def State.settle : (fuel : Nat) → State → Nat → State
  | 0, s, _ => s
  | fuel + 1, s, id =>
    match s.job? id with
    | none => s
    | some j =>
      if j.count ≠ 0 || j.final then s
      else
        let up (s : State) (flag : Bool) : State :=
          match j.parent with
          | none => s
          | some p =>
            let s := (s.mapHarts (Hart.countFell p)).modJob p fun q => { q with count := q.count - 1, abchild := q.abchild || flag }
            State.settle fuel s p
        match j.abandonAt with
        | some t => up (s.finalize id (if j.lost then stHostLost else stAbandoned) t) true
        | none =>
          match j.cont with
          | some d =>
            let waits := s.dqFree == 0 || s.nextCont.isSome
            let n := s.dqu.seq
            let s := (s.putJob id { j with count := 1, contDue := waits, contSeq := if waits then n else 0 }).nextSeq
            if waits then s else (s.enqueue id 0 d n).emptyCont id
          | none => up (s.finalize id stDone s.dquNow) false

/-- Decrements a job's COUNT by n and acts on zero (R47). -/
def State.countDown (s : State) (id n : Nat) : State :=
  match s.job? id with
  | none => s
  | some j => State.settle 18 ((s.mapHarts (Hart.countFell id)).putJob id { j with count := j.count - n }) id

/-- The jobs from a list that descend from job id, through any number of parents. -/
def State.descendants (s : State) (id : Nat) : List Nat :=
  let kids (ps : List Nat) : List Nat :=
    s.dqu.jobs.filterMap fun p =>
      match p.2 with
      | some j => (match j.parent with | some q => if ps.contains q then some p.1 else none | none => none)
      | none => none
  ((List.range 16).foldl (fun (acc : List Nat × List Nat) _ => let k := kids acc.2; (acc.1 ++ k, k)) ([], [id])).1

/-- Withdraws a started-or-not command of a job at abandonment (R75): an unstarted one completes ABANDONED in its order, a
PARTIAL one publishes at once with ABANDONED (R264). -/
def Cmd.abandon (c : Cmd) : Cmd :=
  match c.state with
  | .queued => { c with state := .finished, status := 2, bytes := 0, misses := [] }
  | .partly => { c with state := .finished, status := 2, misses := [], owes := false }
  | _ => c

/-- Marks a job abandoned at instant t: its continuation slot is emptied (R75). -/
def State.markAbandoned (s : State) (t : Nat) (lost : Bool) (id : Nat) : State :=
  let s := s.modJob id fun j => { j with abandonAt := some t, lost := lost, contDue := false }
  s.emptyCont id

/-- Withdraws what a marked job has not started, signals its running tasks, and counts down the withdrawn tasks and a
continuation that waited for an entry (R75, R374). A row that was reserved for a withdrawn ROW task is reserved for the next that
stands in its cores' slots (R64). -/
def State.withdraw (s : State) (grace : Nat) (p : Nat × Bool) : State :=
  let id := p.1
  let mine := s.dqu.queue.filter fun q => q.job == id
  let rows := mine.flatMap fun q => s.reservedFor q.id
  let s := mine.foldl (fun s q => s.dropTask q.id) s
  let s := rows.foldl State.reserveNext s
  let s := { s with cmds := s.cmds.map fun (c : Cmd) => if c.job == some id then c.abandon else c }
  let s := s.mapHarts fun h =>
    match h.run with
    | .task r => if r.job == id then { h with run := .task { r with graceAt := some grace } } else h
    | _ => h
  s.countDown id (mine.length + b2n p.2)

/-- Abandons a job and its descendants at instant t (R75). Every one is marked before any COUNT moves, so that no
continuation of them is enqueued. -/
def State.abandon (s : State) (id t grace : Nat) (lost : Bool) : State :=
  let todo := ((s.descendants id).reverse ++ [id]).filterMap fun d =>
    match s.job? d with
    | some j => if j.final || j.abandonAt.isSome then none else some (d, j.contDue)
    | none => none
  let s := todo.foldl (fun s p => s.markAbandoned t lost p.1) s
  (todo.foldl (fun s p => s.withdraw grace p) s).trimDeficits

/-- Defers a job and its live descendants (R77): unstarted prefetched tasks are recalled, and a lease that is left with no queued
class-2 task has deficit 0 (R68). A PARTIAL command of such a job stays PARTIAL, though R264 publishes one ABANDONED when its job's
cliff passes and names no POLICY (DESIGN CHOICE, log 123). -/
def State.deferJob (s : State) (id : Nat) : State :=
  let ids := id :: s.descendants id
  let s := ids.foldl (fun s d => s.modJob d fun j => { j with deferred := true }) s
  (s.sendBackAll (s.dqu.queue.filter fun t => ids.contains t.job)).trimDeficits

/-- A job passes its cliff at instant t (R74). -/
def State.passCliff (s : State) (id grace : Nat) : State :=
  match s.job? id with
  | none => s
  | some j =>
    if !j.live || j.abandonAt.isSome || j.deferred then s
    else if j.defer then s.deferJob id else s.abandon id j.cliffValue grace false

/-- A PENDING job becomes RUNNING (R74). -/
def State.release (s : State) (id : Nat) : State :=
  s.modJob id fun j => if j.state == stPending then { j with state := stRunning, runningAt := s.dquNow } else j

/-- A core's task learns that another core of its gang has ended it, after n cycles, with POISON set or not: the task is charged
once, for the cycles of the four, when the last core ends it (R68, R370). -/
def Hart.gangEnded (n : Nat) (bad : Bool) (h : Hart) : Hart :=
  match h.run with
  | .task t => { h with run := .task { t with bad := t.bad || bad, ran := t.ran + n } }
  | _ => h

/-- Ends the task of hart n: the core's context is given up, POISON goes to the job, deficits and COUNT follow, and the
core starts its next prefetched task (R50, R61, R68, R74, R370). `result` is what `tendr` writes, with its mark (R361). -/
def State.finishTask (s : State) (n : Nat) (result : Option (Word × Bool)) : State :=
  let h := s.getHart n
  match h.task with
  | none => s
  | some t =>
    let dom := s.hartDomain n
    let bad := h.chkAll.getLsbD 0
    let gang := (rowHarts (rowOfHart n)).filter fun m =>
      t.gang && m != n && (match (s.getHart m).task with | some u => u.id == t.id | none => false)
    let s := s.modHart n fun h => { h with
      run := .idle, wait := none, trap := none, posting := none, nest := 0, chkPend := [], buf := [], pops := [], matFaults := [], la := [], winDone := [], resv := none
      jobrcb := 0, vec := { h.vec.atTask with lanes := h.vec.lanes }, progress := 0, attempts := 0 }
    let s := if isVcNum n then
        let k := rowOfHart n
        let w := s.row (k / 4) (k % 4)
        s.setRow (k / 4) (k % 4) { w with
          joins := w.joins.filter (·.col != (s.getHart n).col), resume := none, repair := false }
      else s
    let s :=
      if gang.isEmpty then (if bad || t.bad then s.charge dom.1 1 dom.2 else s)
      else gang.foldl (fun s m => s.modHart m (Hart.gangEnded (s.cycles - t.started) bad)) s
    let s := s.modJob t.job fun j =>
      { j with poison := j.poison || bad
               result := (result.map (·.1)).getD j.result, resultBad := (result.map (·.2)).getD j.resultBad }
    let s := match s.job? t.job with
      | some j =>
        if j.runClass == 2 && gang.isEmpty then
          let l := j.lease
          { s with dqu := { s.dqu with
              deficit := tabSet 0 s.dqu.deficit l (s.deficit l - ((t.ran + (s.cycles - t.started) : Nat) : Int)) } }
        else s
      | none => s
    let s := if gang.isEmpty then s.countDown t.job 1 else s
    s.trimDeficits.startNext n

/-- The pops of a core are consumed: their bytes leave the queue (R74, R87). -/
def State.commitPops (s : State) (n : Nat) : State :=
  let h := s.getHart n
  let s := h.pops.foldl (fun s p =>
    let cl := clusterOf n
    let k := s.bank cl p.bank
    if k.gen = p.gen && k.mode == modeFifo then
      s.setBank cl p.bank { k with head := (k.head + p.bytes) % 0x40000, level := k.level - p.bytes,
                                   popped := k.popped - p.bytes }
    else s) s
  s.modHart n fun h => { h with pops := [] }

/-- The pops of a core return to their queues, but for those of a queue that was reset meanwhile (R87, R399). -/
def State.returnPops (s : State) (n : Nat) : State :=
  let h := s.getHart n
  let s := h.pops.foldl (fun s p =>
    let cl := clusterOf n
    let k := s.bank cl p.bank
    if k.gen = p.gen then s.setBank cl p.bank { k with popped := k.popped - p.bytes } else s) s
  s.modHart n fun h => { h with pops := [] }

/-- Fields of a chain's end that a stopped task leaves (R290): its row's chain stops at once. -/
def State.dropChain (s : State) (k : Nat) : State :=
  let w := s.row (k / 4) (k % 4)
  if w.chain.isSome then s.setRow (k / 4) (k % 4) { w with chain := none, resume := none, repair := false } else s

/-- A forced stop of hart n's task (R74): buffered stores and sink data are discarded, popped bytes are consumed, and the
task ends. -/
def State.forcedStop (s : State) (n : Nat) : State :=
  let s := s.commitPops n
  let s := if isVcNum n then s.dropChain (rowOfHart n) else s
  s.finishTask n none

end Sys2Proof.Machine
end

