-- ==== Sys2Proof/Machine/Shake.lean ====
section
/-! DEFINITION. SHAKE256 of FIPS 202, the digest of the firmware images and of the XMSS signatures (R16, R316). The constants
are those of the standard: PRESUMED, log 101. -/

namespace Sys2Proof.Machine

/-- The 25 lanes of the permutation's state, lane (x, y) at index x + 5y. -/
abbrev Lanes := List Word

/-- Lane (x, y), coordinates modulo 5. -/
def laneAt (a : Lanes) (x y : Nat) : Word := a.getD (x % 5 + 5 * (y % 5)) 0

/-- The lanes a function of the coordinates gives. -/
def lanesOf (f : Nat → Nat → Word) : Lanes := (List.range 25).map fun i => f (i % 5) (i / 5)

/-- The rotation of lane (x, y). -/
def keccakRot (x y : Nat) : Nat :=
  [0, 1, 62, 28, 27, 36, 44, 6, 55, 20, 3, 10, 43, 25, 39, 41, 45, 15, 21, 8, 18, 2, 61, 56, 14].getD (x % 5 + 5 * (y % 5)) 0

/-- The round constants. -/
def keccakRounds : List Word :=
  [0x0000000000000001, 0x0000000000008082, 0x800000000000808A, 0x8000000080008000, 0x000000000000808B, 0x0000000080000001,
   0x8000000080008081, 0x8000000000008009, 0x000000000000008A, 0x0000000000000088, 0x0000000080008009, 0x000000008000000A]
  ++ [0x000000008000808B, 0x800000000000008B, 0x8000000000008089, 0x8000000000008003, 0x8000000000008002, 0x8000000000000080,
   0x000000000000800A, 0x800000008000000A, 0x8000000080008081, 0x8000000000008080, 0x0000000080000001, 0x8000000080008008]

/-- The parity of a column. -/
def columnParity (a : Lanes) (x : Nat) : Word :=
  laneAt a x 0 ^^^ laneAt a x 1 ^^^ laneAt a x 2 ^^^ laneAt a x 3 ^^^ laneAt a x 4

/-- One round: theta, rho and pi, chi, iota. -/
def keccakRound (a : Lanes) (rc : Word) : Lanes :=
  let cs := (List.range 5).map (columnParity a)
  let d (x : Nat) : Word := cs.getD ((x + 4) % 5) 0 ^^^ (cs.getD ((x + 1) % 5) 0).rotateLeft 1
  let t := lanesOf fun x y => laneAt a x y ^^^ d x
  let b := lanesOf fun x y =>
    let u := x + 3 * y
    (laneAt t u x).rotateLeft (keccakRot u x)
  lanesOf fun x y =>
    let v := laneAt b x y ^^^ (~~~laneAt b (x + 1) y &&& laneAt b (x + 2) y)
    if x = 0 ∧ y = 0 then v ^^^ rc else v

/-- The permutation of 1,600 bits. -/
def keccak (a : Lanes) : Lanes := keccakRounds.foldl keccakRound a

/-- The rate of SHAKE256 in bytes. -/
def shakeRate : Nat := 136

/-- Pads a message to whole blocks. -/
def shakePad (m : List Byte) : List Byte :=
  let k := shakeRate - m.length % shakeRate
  if k = 1 then m ++ [0x9F] else m ++ [0x1F] ++ List.replicate (k - 2) 0 ++ [0x80]

/-- Takes in n blocks. -/
def shakeAbsorb : (n : Nat) → List Byte → Lanes → Lanes
  | 0, _, a => a
  | n + 1, m, a =>
    shakeAbsorb n (m.drop shakeRate) (keccak (lanesOf fun x y =>
      let i := x + 5 * y
      laneAt a x y ^^^ (if i < 17 then BitVec.ofNat 64 (ofBytes ((m.drop (8 * i)).take 8)) else 0)))

/-- Gives out n blocks. -/
def shakeSqueeze : (n : Nat) → Lanes → List Byte
  | 0, _ => []
  | n + 1, a => ((a.take 17).flatMap fun w => bytesOf 8 w.toNat) ++ shakeSqueeze n (keccak a)

/-- The first n bytes of SHAKE256 of a message. -/
def shake256 (m : List Byte) (n : Nat) : List Byte :=
  let p := shakePad m
  (shakeSqueeze (ceilDiv n shakeRate) (shakeAbsorb (p.length / shakeRate) p (List.replicate 25 0))).take n

end Sys2Proof.Machine
end

