-- ==== Sys2Proof/Machine/Xmss.lean ====
section
/-! DEFINITION. XMSS of RFC 8391 with SHAKE256 and n = 64 (R16, R316, R317): verification, and the signatures of the module's
identity key. The algorithms are those of the RFC: PRESUMED, log 101. -/

namespace Sys2Proof.Machine

/-- The n of the parameter sets: bytes of a hash value (R316). -/
def xmssN : Nat := 64
/-- The number of chains of a one-time key: 128 for the message, 3 for its checksum. -/
def wotsLen : Nat := 131

/-- Big-endian bytes of a number (toByte of the RFC). -/
def beBytes (n v : Nat) : List Byte := (bytesOf n v).reverse
/-- The number whose big-endian bytes these are. -/
def ofBe (bs : List Byte) : Nat := ofBytes bs.reverse
/-- Bytewise exclusive or. -/
def xorBytes (a b : List Byte) : List Byte := List.zipWith (· ^^^ ·) a b

/-- The hash functions of n = 64: F (0), H (1), H_msg (2), PRF (3). -/
def xmssHash (kind : Nat) (key m : List Byte) : List Byte := shake256 (beBytes xmssN kind ++ key ++ m) xmssN

/-- A hash-function address: its type and the four words after it; layer and tree are 0. -/
def xmssAdrs (type a b c mask : Nat) : List Byte :=
  beBytes 12 0 ++ [type, a, b, c, mask].flatMap (beBytes 4)

/-- The randomized hash of two nodes. -/
def randHash (seed : List Byte) (type a b c : Nat) (l r : List Byte) : List Byte :=
  let prf (m : Nat) : List Byte := xmssHash 3 seed (xmssAdrs type a b c m)
  xmssHash 1 (prf 0) (xorBytes l (prf 1) ++ xorBytes r (prf 2))

/-- s steps of chain number ch of one-time key `leaf`, from position i. -/
def wotsChain (seed : List Byte) (leaf ch : Nat) : (s i : Nat) → List Byte → List Byte
  | 0, _, x => x
  | s + 1, i, x =>
    let prf (m : Nat) : List Byte := xmssHash 3 seed (xmssAdrs 0 leaf ch i m)
    wotsChain seed leaf ch s (i + 1) (xmssHash 0 (prf 0) (xorBytes x (prf 1)))

/-- The digits, base 16, of a 64-byte value with their checksum. -/
def wotsDigits (m : List Byte) : List Nat :=
  let ds := m.flatMap fun b => [b.toNat / 16, b.toNat % 16]
  let c := (ds.map fun d => 15 - d).sum
  ds ++ [c / 256, c / 16 % 16, c % 16]

/-- One level of an L-tree. -/
def lTreeLevel (seed : List Byte) (leaf height : Nat) (ns : List (List Byte)) : List (List Byte) :=
  (List.range (ceilDiv ns.length 2)).map fun i =>
    match ns[2 * i + 1]? with
    | some r => randHash seed 1 leaf height i (ns.getD (2 * i) []) r
    | none => ns.getD (2 * i) []

/-- The root of an L-tree: eight levels take 131 nodes to one. -/
def lTree (seed : List Byte) (leaf : Nat) (ns : List (List Byte)) : List Byte :=
  ((List.range 8).foldl (fun l h => lTreeLevel seed leaf h l) ns).headD []

/-- The root that a path of siblings gives from a leaf's node. -/
def rootFrom (seed : List Byte) (leaf : Nat) (node : List Byte) (auth : List (List Byte)) : List Byte :=
  ((List.range auth.length).zip auth).foldl (fun x e =>
    let j := leaf / 2 ^ (e.1 + 1)
    if leaf / 2 ^ e.1 % 2 = 0 then randHash seed 2 0 e.1 j x e.2 else randHash seed 2 0 e.1 j e.2 x) node

/-- A list cut into values of 64 bytes. -/
def xmssValues (n : Nat) (bs : List Byte) : List (List Byte) :=
  (List.range n).map fun i => (bs.drop (xmssN * i)).take xmssN

/-- Whether a signature of height h over a message verifies under a public key: parameter set, root, SEED (R316). -/
def xmssVerify (h : Nat) (key m sig : List Byte) : Bool :=
  let root := (key.drop 4).take xmssN
  let seed := (key.drop 68).take xmssN
  let leaf := ofBe (sig.take 4)
  let r := (sig.drop 4).take xmssN
  let ots := xmssValues wotsLen (sig.drop 68)
  let auth := xmssValues h (sig.drop (68 + xmssN * wotsLen))
  let d := xmssHash 2 (r ++ root ++ beBytes xmssN leaf) m
  let pk := ((List.range wotsLen).zip (wotsDigits d)).map fun e => wotsChain seed leaf e.1 (15 - e.2) e.2 (ots.getD e.1 [])
  key.length == 132 && sig.length == 68 + xmssN * (wotsLen + h) && rootFrom seed leaf (lTree seed leaf pk) auth == root

/-! ### The identity key (R317 to R319) -/

/-- The SEED of the identity key. -/
def idSeed : List Byte := bytesOf xmssN Config.identitySeed.toNat
/-- The secret of a chain of a one-time key. -/
def idSecret (leaf ch : Nat) : List Byte := bytesOf xmssN (Config.identitySecret leaf ch).toNat

/-- A leaf of the identity key's tree. -/
def idLeaf (leaf : Nat) : List Byte :=
  lTree idSeed leaf ((List.range wotsLen).map fun ch => wotsChain idSeed leaf ch 15 0 (idSecret leaf ch))

/-- Node j at a height of the identity key's tree. -/
def idNode : (height j : Nat) → List Byte
  | 0, j => idLeaf j
  | h + 1, j => randHash idSeed 2 0 h j (idNode h (2 * j)) (idNode h (2 * j + 1))

/-- The identity public key: XMSS-SHAKE_20_512's number, root, SEED. -/
def idPublic : List Byte := beBytes 4 0xC ++ idNode 20 0 ++ idSeed

/-- The identity key's signature over a report with one-time index i (R317). -/
def idSign (i : Nat) (m : List Byte) : List Byte :=
  let r := xmssHash 3 (bytesOf xmssN Config.identityPrf.toNat) (beBytes 32 i)
  let d := xmssHash 2 (r ++ idNode 20 0 ++ beBytes xmssN i) m
  let ots := ((List.range wotsLen).zip (wotsDigits d)).flatMap fun e => wotsChain idSeed i e.1 e.2 0 (idSecret i e.1)
  let auth := (List.range 20).flatMap fun k => idNode k (if i / 2 ^ k % 2 = 0 then i / 2 ^ k + 1 else i / 2 ^ k - 1)
  beBytes 4 i ++ r ++ ots ++ auth

end Sys2Proof.Machine
end

