-- ==== Sys2Proof/Machine/Device.lean ====
section
/-! DEFINITION. Device steps that registers start: bank modes, the deduplicating L2, time counters, power, start-up and
the root of trust (R27 to R29, R84, R91 to R99, R310 to R321, R391, R399). -/

namespace Sys2Proof.Machine

/-- A store to BMODE (R84): ignored while BUSY; an unchanged MODE updates CHAN and WINEN; another starts a change. DEDUCED, log 55. -/
def State.bmodeWrite (s : State) (cl b : Nat) (v : Word) : State :=
  let k := s.bank cl b
  if k.busy.isSome then s
  else
    let m := BitVec.ofNat 2 v.toNat
    s.setBank cl b { k with
      chan := BitVec.ofNat 12 (bitsAt v.toNat 20 12), winen := bitAt v.toNat 8
      busy := if m = k.mode then none else some m }

/-- Whether a change of mode keeps the bank's data (R84). -/
def keepsData (a b : BitVec 2) : Bool :=
  (a == modeScratch && b == modeLatch) || (a == modeLatch && b == modeScratch)

/-- A mode change finishes (R84): every change but one between SCRATCH and LATCH zeroes the bank and its poison; the device's
own writes that stalled come after it. HEAD, LEVEL and DROPS start at zero after every change, and the queue's generation is a new one:
the spec says so for the changes that zero a queue and says nothing of them in the others (DESIGN CHOICE, log 114). -/
def State.modeChangeDone (s : State) (cl b : Nat) : State :=
  let k := s.bank cl b
  match k.busy with
  | none => s
  | some m =>
    let lo := bankAddr cl b 0
    let s :=
      if keepsData k.mode m then s
      else { s with mem := memZero s.mem lo (lo + 0x40000)
                    poison := s.poison.filter fun p => decide (64 * p < lo) || decide (lo + 0x40000 ≤ 64 * p) }
    let s := s.setBank cl b { k with mode := m, busy := none, head := 0, level := 0, drops := 0, popped := 0
                                     gen := k.gen + 1, full := [], stalled := [], after := [] }
    let s := k.stalled.foldl (fun s p => s.devWrite p.1 p.2.1 p.2.2) s
    k.after.foldl (fun s p => match s.job? p.1 with | some j => s.sendCompletion j p.2 | none => s) s

/-- FQLEVEL.RESET (R399): in FIFO mode what has been popped and not committed is no part of the queue any more. -/
def State.fqReset (s : State) (cl b : Nat) : State :=
  let k := s.bank cl b
  s.setBank cl b { k with
    head := (k.head + k.level) % 0x40000, level := 0, drops := 0, popped := 0, gen := if k.mode = modeFifo then k.gen + 1 else k.gen }

/-- Whether a latch word of a bank is full. -/
def Bank.isFull (k : Bank) (w : Nat) : Bool := k.full.contains w
/-- Sets or clears a word's full bit. -/
def Bank.setFull (k : Bank) (w : Nat) (f : Bool) : Bank :=
  { k with full := if f then addSorted w k.full else k.full.filter (· != w) }

/-- Sets or clears a latch word's full bit; the waits for the word advance (R86, R344). -/
def State.setWord (s : State) (cl b w : Nat) (f : Bool) : State :=
  (s.setBank cl b ((s.bank cl b).setFull w f)).restartWaits fun _ on =>
    match on with
    | .latch a _ | .window _ a => a == bankAddr cl b (8 * w)
    | _ => false

/-- FLUSHALL (R98, R397): every dirty line, the cores' own ones too, is written back, every tag dropped, every entry freed, new
keys. -/
def State.l2FlushAll (s : State) : State :=
  if s.l2.busy then s else ({ s with l2 := { s.l2.flushed with busy := true } }).forget fun _ => true
/-- DOMCLR (R98, R397): the tags of one domain are dropped, and its dirty lines, the cores' own ones too, written back. -/
def State.l2DomClr (s : State) (dom : BitVec 12) : State :=
  if s.l2.busy then s
  else
    let mine := s.l2.tags.filter fun t => t.dom == some dom
    let l : L2 := mine.foldl (fun l t => l.dropTag t.line) s.l2
    ({ s with l2 := { l with
        stored := s.l2.stored.filter fun k => !(mine.any (·.line == k) || s.l2.asked.contains (k, some dom))
        busy := true } }).forget fun q => q.2 == some dom
/-- CLRCNT (R98): the event counters are zeroed. -/
def State.l2ClrCnt (s : State) : State :=
  if s.l2.busy then s
  else { s with l2 := { s.l2 with unshare := 0, wthru := 0, hmiss := 0, shares := 0, busy := true } }
/-- The L2 operation that L2CMD.OP names; other values are ignored (R98). -/
def State.l2Cmd (s : State) (v : Word) : State :=
  match bitsAt v.toNat 0 4 with
  | 1 => s.l2FlushAll
  | 2 => s.l2DomClr (BitVec.ofNat 12 (bitsAt v.toNat 16 12))
  | 3 => s.l2ClrCnt
  | _ => s

/-- A read of an L2 counter at its offset in the block (R99). -/
def State.l2Counter (s : State) (off : Nat) : Option Word :=
  let l := s.l2
  let dom : Option (BitVec 12) := some (BitVec.ofNat 12 (s.mmioGet (l2Block + 0x18) 0).toNat)
  let shared := l.entries.filter fun e => decide (2 ≤ e.refs)
  let n : Option Nat :=
    match off with
    | 0x100 => some l.tags.length
    | 0x108 => some l.entries.length
    | 0x110 => some shared.length
    | 0x118 => some (l.tags.filter fun t => shared.any (·.id == t.entry)).length
    | 0x120 => some (l.entries.filter fun e => e.refs == 65535).length
    | 0x128 => some (l.tags.filter fun t => t.dom == dom).length
    | 0x130 => some (l.entries.filter fun e => e.dom == dom).length
    | 0x140 => some l.unshare
    | 0x148 => some l.wthru
    | 0x150 => some l.hmiss
    | 0x158 => some l.shares
    | _ => none
  n.map fun v => BitVec.ofNat 64 v

/-- A write of TINC, held within 1,000 ppm of the reset value (R310); the counter goes on from its present value. -/
def State.setTinc (s : State) (n v : Nat) : State :=
  let c := s.counter n
  let d := tincReset / 1000
  s.setCounter n { c with base := c.value s.cycles, since := s.cycles, inc := max (tincReset - d) (min (tincReset + d) v) }

/-- The scheduling instants at or before t, each with its kind: 0 a cliff, 1 a release, 2 a forced stop (R74, R378). -/
def State.dueInstants (s : State) (t : Nat) : List (List Nat) :=
  let js := s.dqu.jobs.flatMap fun p =>
    match p.2 with
    | none => []
    | some j =>
      let c := match j.cliff with
        | some c => if j.live && j.abandonAt.isNone && decide (c ≤ t) then [[c, 0, p.1]] else []
        | none => []
      c ++ (if j.state == stPending && decide (j.release.toNat ≤ t) then [[j.release.toNat, 1, p.1]] else [])
  let hs := s.liveHarts.filterMap fun h =>
    match h.task with
    | some r => (match r.graceAt with | some g => if g ≤ t then some [g, 2, h.num] else none | none => none)
    | none => none
  js ++ hs

/-- Inserts a key into a rising list of keys. -/
def insertKey (k : List Nat) : List (List Nat) → List (List Nat)
  | [] => [k]
  | a :: r => if keyLt k a then k :: a :: r else a :: insertKey k r

/-- Whether the hart is in an M-mode handler: below M-mode nothing delays a stop (R75, R400). -/
def Hart.inMHandler (h : Hart) : Bool :=
  h.mode == .m && (match h.task with | some t => decide (0 < t.trapDepth) | none => false)

/-- A step of the DQU counter fires the skipped scheduling instants in ascending order (R378). -/
def State.fireSkipped (s : State) : State :=
  let now := s.dquNow
  let keys := (s.dueInstants now).foldl (fun l k => insertKey k l) []
  keys.foldl (fun s k =>
    match k with
    | [_, 0, id] => s.passCliff id (now + 2000)
    | [_, 1, id] => s.release id
    | [_, 2, n] => if (s.getHart n).inMHandler then s else s.forcedStop n
    | _ => s) s

/-- TSTEP (R72, R310, R378): added once when positive and LOCKED is clear. DEDUCED, log 99. -/
def State.tstep (s : State) (n : Nat) (v : Word) : State :=
  let c := s.counter n
  if c.locked || v = 0 || bitAt v.toNat 63 then s
  else
    let s := s.setCounter n { c with base := (c.base + v.toNat * 2 ^ 32) % 2 ^ 96 }
    if n = 16 then s.fireSkipped else s

/-- TBEACON (R310): a beacon sets out for counter `target`; a target that names no counter sends nothing. -/
def State.beacon (s : State) (n target : Nat) : State :=
  if isCounter target then { s with beacons := s.beacons ++ [(n, target)] } else s

/-- A beacon arrives (R310): TDIFF takes source minus own in 2^-16 ns, with the error the path delay's compensation leaves,
at most 1 ns either way: a free value. DESIGN CHOICE, log 76. -/
def State.beaconArrive (s : State) (ctr src : Nat) : State :=
  if s.beacons.contains (src, ctr) then
    let own := s.counter ctr
    let d : Int := ((s.counter src).value s.cycles : Int) - (own.value s.cycles : Int)
    let err : Int := ((Config.freeWord s.free).toNat % (2 ^ 17 + 1) : Nat) - (2 ^ 16 : Int)
    let s := { s with free := s.free + 1, beacons := s.beacons.erase (src, ctr) }
    s.setCounter ctr { own with diff := BitVec.ofInt 64 (d / 2 ^ 16 + err), fresh := true, src := src }
  else s

/-- A power-cap source's value: held to 300 to 600 W (R27). -/
def capClamp (v : Nat) : Nat := max 300 (min 600 v)

/-- One 1 ms average (R28, R29): above the cap, the highest class number that still can be throttled loses an eighth of its
grant and gains an eighth of pacing; when none can, the excursion flag sets. DESIGN CHOICE, log 75. -/
def State.powerAverage (s : State) (watts : Nat) : State :=
  let p := s.power
  if watts ≤ p.capEff then { s with power := { p with below := decide (watts < p.capEff) } }
  else
    let can (c : Nat) : Bool := decide (1 < p.grant.getD c 1) || decide (p.pacing.getD c 8 < 8)
    match [3, 2, 1, 0].find? can with
    | none => { s with power := { p with excursion := true, below := false } }
    | some c => { s with power := { p with
        grant := p.grant.setIfInBounds c (max 1 (p.grant.getD c 1 - 1))
        pacing := p.pacing.setIfInBounds c (min 8 (p.pacing.getD c 8 + 1))
        below := false } }

/-- Grants rise by one eighth, in the reverse order of classes, while the average is below the cap (R29). -/
def State.raiseGrants (s : State) : State :=
  let p := s.power
  if !p.below then s
  else
    let can (c : Nat) : Bool := decide (p.grant.getD c 8 < 8) || decide (0 < p.pacing.getD c 0)
    match [0, 1, 2, 3].find? can with
    | none => s
    | some c => { s with power := { p with
        grant := p.grant.setIfInBounds c (min 8 (p.grant.getD c 8 + 1))
        pacing := p.pacing.setIfInBounds c (p.pacing.getD c 0 - 1) } }

/-- Number of a life-cycle state. -/
def LifeCycle.num : LifeCycle → Nat
  | .manufacture => 0 | .provisioned => 1 | .deployed => 2 | .decommissioned => 3

/-- The transitions of R319. -/
def lifeMoves (a b : LifeCycle) : Bool :=
  match a, b with
  | .manufacture, .provisioned | .provisioned, .deployed | .deployed, .provisioned => true
  | .decommissioned, _ => false
  | _, .decommissioned => true
  | _, _ => false

/-- The vector cores of the module (R22). -/
def vcNums : List Nat := (List.range 16).flatMap fun c => (List.range 16).map fun n => vcNum c n

/-- The record of retired lanes after the BIST of a cold start: each failing lane is retired and recorded (R367, R391). -/
def bistRetired (n : Nat) (r : Tab (BitVec 32)) : Tab (BitVec 32) :=
  vcNums.foldl (fun t h => tabSet 0 t h (tabGet 0 t h ||| Config.bistLanes n h)) r

/-- A hart at step 7 of a start: at the entry point, its retired lanes reading 0 in `lanemap` (R312, R367). -/
def startHart (entry : Word) (retired : Tab (BitVec 32)) (n : Nat) : Hart :=
  let h := Hart.reset n
  let lanes := ~~~(tabGet 0 retired n)
  { h with pc := entry, vec := { h.vec with lanemap := lanes, lanes := lanes } }

/-- The harts whose retired lanes differ their `lanemap` from its reset value (R312, R367). -/
def retiredHarts (entry : Word) (r : Tab (BitVec 32)) (skip : Nat) : Tab (Option Hart) :=
  r.filterMap fun p => if p.1 = skip then none else some (p.1, some (startHart entry r p.1))

/-- Whether an image's signature verifies under the key fixed in MANUFACTURE (R316). -/
def imageSigned (i : Config.Image) : Bool :=
  shake256 i.key xmssN == Config.keyDigest && xmssVerify 16 i.key (shake256 (i.head ++ i.code) xmssN) i.sig

/-- Whether an image passes: its signature verifies and its SVN is at least the stored minimum (R316). -/
def State.imagePasses (s : State) (i : Config.Image) : Bool := imageSigned i && decide (s.unwene.svnMin.toNat ≤ i.svn.toNat)

/-- Firmware verification (R316): slot A first, slot B only when A fails; the slot that passes, or CODE 3, or 4 when a
signature verified but the SVN was too low. -/
def State.verified (s : State) : Except Nat Bool :=
  let a := Config.bootImage false
  let b := Config.bootImage true
  if s.imagePasses a then .ok false
  else if s.imagePasses b then .ok true
  else if imageSigned a || imageSigned b then .error 4 else .error 3

/-- The measurement: the 64-byte digest of the verified image (R316). -/
def measurement (slotB : Bool) : List Byte :=
  let i := Config.bootImage slotB
  shake256 (i.head ++ i.code) xmssN

/-- The CODE of the first of steps 1 to 3 that fails at try i of a start, none when all pass (R391). -/
def tryCode (n i : Nat) : Option Nat :=
  if Config.storageFails (4 * n + i) then some 5
  else if Config.bistFails (4 * n + i) then some 1
  else if Config.trainingFails (4 * n + i) then some 2
  else none

/-- What the failures of steps 1 to 3 give. Training is tried up to three times, each try a cold start of its own (R391). -/
def earlyCode (n : Nat) : Option Nat :=
  if tryCode n 0 ≠ some 2 then tryCode n 0 else if tryCode n 1 ≠ some 2 then tryCode n 1 else tryCode n 2

/-- The last step begun at a start that ends with a CODE (R312, R314). -/
def lastStep (code : Nat) : BitVec 8 :=
  if code = 0 then 7 else if code = 1 then 2 else if code = 2 then 3 else if code = 5 then 1 else 6

/-- Unwene after a start: the ORDERLY record is cleared at step 1 (R313), a signing that was cut short may have used up its
index (R318), the record of retired lanes holds from step 7 on (R367); `wiped` clears the pending-wipe mark (R320). -/
def Unwene.started (u : Unwene) (n : Nat) (retired : Tab (BitVec 32)) (wiped : Bool) : Unwene :=
  { u with retired := retired, fused := retired, orderly := none, wipe := u.wipe && !wiped, result := 0, pending := none
           ots := if u.pending == some 1 && decide (u.ots < 2 ^ 20) && Config.signingBegun n then u.ots + 1 else u.ots }

/-- The module after a start whose steps 1 to 5 left memory, poison marks and retired lanes so (R312): `early` is the CODE of
a failure before step 4. Else the verified image is copied to LPDDR6 from address 0 and every hart starts at its entry
point, or the cores are held in reset. The environment's agenda, the host's own memory and the monotonic storage go on; cycles count
from the start (DESIGN CHOICE, log 2; DESIGN CHOICE, log 14). The copy goes to memory itself and leaves the L2 empty (DESIGN CHOICE,
log 144). DEDUCED, log 102. -/
def State.started (s : State) (mem : Memory) (poison : List Nat) (retired : Tab (BitVec 32)) (early : Option Nat) (kind : Nat)
    (wiped : Bool) : State :=
  let n := s.cpu.num
  let code := match early with | some c => c | none => (match s.verified with | .ok _ => 0 | .error c => c)
  let slotB := match s.verified with | .ok b => b | .error _ => false
  let img := Config.bootImage slotB
  let entry := BitVec.ofNat 64 img.entry
  { State.reset with
    cpu := startHart entry retired n
    entry := entry
    parked := retiredHarts entry retired n
    mem := if code = 0 then memSetBytes mem 0 (img.head ++ img.sig ++ img.code) else mem
    poison := if code = 0 then poisonAfter poison 0 (img.head ++ img.sig ++ img.code).length false else poison
    ports := { Ports.reset with hostMem := s.ports.hostMem, hostRefuses := s.ports.hostRefuses }
    l2 := { L2.reset with keyGen := s.l2.keyGen + 1 }
    unwene := s.unwene.started s.free retired wiped
    power := { Power.reset with
      fatal := if kind = 1 then none else s.power.fatal
      bootCode := BitVec.ofNat 8 code, bootKind := BitVec.ofNat 2 kind, wiped := wiped, bootSlot := code == 0 && slotB
      held := code != 0, bootStep := lastStep code }
    agenda := s.agenda
    round := s.round
    free := s.free + 1 }

/-- A cold start (R311, R312, R320, R391). Steps 4 and 5 zero every SRAM and every byte of LPDDR6, unless step 1, 2 or 3 fails:
then nothing is wiped and a pending-wipe mark stays in force. Lanes that a BIST found are recorded also where training fails after
it (R367, R391). -/
def State.coldStart (s : State) : State :=
  let found := bistRetired s.free s.unwene.retired
  match earlyCode s.free with
  | some c => s.started s.mem s.poison (if tryCode s.free 0 = some 2 then found else s.unwene.retired) (some c) 1 false
  | none => s.started [] [] found none 1 true

/-- A start after an orderly shutdown (R311, R313). A warm one whose monotonic storage fails at step 1 says KIND 2 and keeps what a
warm start keeps (DESIGN CHOICE, log 136). Warm when the life cycle is unchanged, no wipe is pending and the
saved training passes; LPDDR6 keeps its contents, every SRAM is zeroed. -/
def State.warmStart (s : State) : State :=
  if s.unwene.orderly == some s.unwene.life && !s.unwene.wipe && Config.trainingOk s.free then
    if Config.storageFails (4 * s.free) then s.started s.mem s.poison s.unwene.retired (some 5) 2 false
    else s.started (s.mem.filter fun c => decide (c.1 < 0x4000000000)) (s.poison.filter fun p => decide (64 * p < 0x4000000000))
      s.unwene.retired none 2 false
  else s.coldStart

/-- Whether every task and command has ended (R313). -/
def State.drained (s : State) : Bool :=
  s.cmds.isEmpty && (s.liveHarts.all fun h => h.task.isNone) && s.rows.all fun p => p.2.queue.isEmpty && p.2.chain.isNone

/-- Orderly shutdown's end: FLUSHALL, the ORDERLY record, and the start that follows (R313). -/
def State.finishShutdown (s : State) : State :=
  let s := { s with l2 := s.l2.flushed }
  { s with unwene := { s.unwene with orderly := some s.unwene.life } }.warmStart

/-- A warm request (R313): dispatch stops; once everything has ended, shutdown completes. A second one begins the 10 ms again
(DESIGN CHOICE, log 135). -/
def State.warmRequest (s : State) : State :=
  let s := { s with power := { s.power with shutdown := true, shutSince := s.cycles, request := 0 } }
  if s.drained then s.finishShutdown else s

/-- Whether the 10 ms of an orderly shutdown have passed (R313). -/
def State.drainLate (s : State) : Bool := s.power.shutdown && decide (s.power.shutSince + 19000000 ≤ s.cycles)

/-- Forced stops of every running task and command (R313, R390). -/
def State.stopAll (s : State) : State :=
  let s := s.liveHarts.foldl (fun s h => if h.task.isSome then s.forcedStop h.num else s) s
  { s with cmds := [], rows := s.rows.map fun p => (p.1, { p.2 with queue := [], joins := [], chain := none }) }

/-- A store to RSTREQ (R314): 01 asks for a cold start, 10 for a warm one; the request is served as a step of its own. -/
def State.rstReq (s : State) (v : Word) : State :=
  match bitsAt v.toNat 0 2 with
  | 1 => { s with power := { s.power with request := 1 } }
  | 2 => { s with power := { s.power with request := 2 } }
  | _ => s

/-- ROLELOCK (R314, R315, R320, R385): writing 1 locks the role map, except in DECOMMISSIONED. -/
def State.roleLock (s : State) (v : Word) : State :=
  if !bitAt v.toNat 0 || s.power.locked || s.unwene.life == .decommissioned then s
  else
    let roleTwo := (s.liveHarts.filter fun h => h.srvrole == 2).map (·.num)
    let low := roleTwo.foldl (fun (b : Option Nat) n => match b with | none => some n | some m => some (min m n)) none
    { s with power := { s.power with locked := true, port15 := low } }

/-- Byte i of the mailbox buffer (R317). -/
def State.mailByte (s : State) (i : Nat) : Byte :=
  BitVec.ofNat 8 ((s.mmioGet (unweneBlock + 0x1000 + i / 8 * 8) 0).toNat / 2 ^ (8 * (i % 8)))
/-- Bytes of the mailbox buffer from offset i. -/
def State.mailBytes (s : State) (i n : Nat) : List Byte := (List.range n).map fun j => s.mailByte (i + j)
/-- Writes bytes into the mailbox buffer from its beginning, at most its 16 KiB; the bytes after them stay as they are. -/
def State.mailWrite (s : State) (data : List Byte) : State :=
  let word (s : State) (w : Nat) : List Byte := (List.range 8).map fun j => (data[8 * w + j]?).getD (s.mailByte (8 * w + j))
  (List.range (ceilDiv (min data.length 0x4000) 8)).foldl
    (fun s w => s.mmioSet (unweneBlock + 0x1000 + 8 * w) 0 (BitVec.ofNat 64 (ofBytes (word s w)))) s

/-- A mailbox command completes with a result (R317). -/
def State.mailDone (s : State) (r : BitVec 8) : State :=
  { s with unwene := { s.unwene with result := r, pending := none } }

/-- ATTEST (R317, R318): the one-time index advances before the signature leaves; after 2^20 signatures, EXHAUSTED. -/
def State.attest (s : State) : State :=
  let i := s.unwene.ots
  if 2 ^ 20 ≤ i then s.mailDone 3
  else
    let r := Config.report (s.mailBytes 0 32) (measurement s.power.bootSlot) s.unwene.life.num s.unwene.svnMin.toNat s.power.bootSlot i
    let s := { s with unwene := { s.unwene with ots := i + 1 } }
    (s.mailWrite (r ++ idSign i r)).mailDone 0

/-- SVNSET (R317): raises the stored minimum, never lowers it. -/
def State.svnset (s : State) : State :=
  let v := BitVec.ofNat 32 (ofBytes (s.mailBytes 0 4))
  ({ s with unwene := { s.unwene with svnMin := if s.unwene.svnMin < v then v else s.unwene.svnMin } }).mailDone 0

/-- The life-cycle state of a number. -/
def lifeOf (n : Fin 4) : LifeCycle :=
  match n with
  | 0 => .manufacture | 1 => .provisioned | 2 => .deployed | 3 => .decommissioned

/-- Whether an LCSET request carries a signature by the key fixed in MANUFACTURE over its target, the current index of the
identity key and the identity public key (R319). -/
def State.lcSigned (s : State) (q : Config.LcRequest) : Bool :=
  shake256 q.key xmssN == Config.keyDigest && xmssVerify 16 q.key (Config.lcMessage q.target s.unwene.ots idPublic) q.sig

/-- LCSET (R319, R320): an authorised transition and a pending-wipe mark are recorded in one write, and a cold start is forced:
it is the next step unless a freeze or a loss of power comes before it. -/
def State.lcset (s : State) : State :=
  let q := Config.lcRequest (s.mailBytes 0 0x4000)
  if !s.lcSigned q then s.mailDone 2
  else
    match q.target with
    | none => s.mailDone 4
    | some n =>
      if lifeMoves s.unwene.life (lifeOf n) then
        { s with unwene := { s.unwene with life := lifeOf n, wipe := true, result := 0, pending := none }
                 power := { s.power with request := 1 } }
      else s.mailDone 4

/-- A store to MBCMD: discarded while a command runs (R317). -/
def State.mbCmd (s : State) (v : Word) : State :=
  if s.unwene.pending.isSome then s else { s with unwene := { s.unwene with pending := some (v.toNat % 256) } }

/-- A fatal event contains the module (R390). DEDUCED, log 73. -/
def State.fatal (s : State) (src : BitVec 8) : State :=
  if s.power.fatal.isSome then s
  else
    let s := { s with power := { s.power with fatal := some src } }
    s.stopAll

end Sys2Proof.Machine
end

