-- ==== Sys2Proof/Machine/Mmio.lean ====
section
/-! DEFINITION. The MMIO registers: which offset holds which register, what a load returns, who may store and what a store
does (R9 to R12, R33, R34, R56, R71, R84 to R89, R98, R99, R272, R294, R298, R301, R303 to R310, R314, R317, R338, R366,
R370, R375, R382, R384, R390, R398). -/

namespace Sys2Proof.Machine

/-- The registers of the MMIO region. Numbers name the cluster, core, queue, entry or field. -/
inductive MmioReg where
  | dqctl | dqfree | dqtime | dqseq | rclate | crdrop
  | lease (l f : Nat)
  | efq (c f : Nat)
  | fdntfy
  | fdstat (d : Nat)
  | disc (ctr f : Nat)
  | bmode (c b : Nat) | fqhead (c b : Nat) | fqlevel (c b : Nat)
  | mdrop (c : Nat)
  | ceqstat (c e q : Nat)
  | handler (c n q f : Nat)
  | l2cmd | l2stat | ddtbase | domsel
  | l2ctr (off : Nat)
  | ckbusy | ckpend
  | pctl (p : Nat) | pstat (p : Nat)
  | portCtr (p i : Nat)
  | txcfg (p r : Nat) | txprod (p r : Nat) | txcons (p r : Nat)
  | flowm (p e : Nat) | flowa (p e : Nat)
  | hpstat | cxlcfg
  | spcfg (n f : Nat)
  | ring (h f : Nat)
  | twstat | twexp
  | twdoor (i : Nat)
  | bootst | rstreq | rolelock | pwrcap | pwrstat | fatstat
  | lhstat (i : Nat) | lhcnt (i : Nat)
  | mbcmd | mbstat
  | mbuf (i : Nat)
deriving DecidableEq, Repr

/-- The register at a multiple of 8 in the DQU block (R71, R310, R338, R370, R375). -/
def dquReg (o : Nat) : Option MmioReg :=
  if o = 0 then some .dqctl
  else if o = 8 then some .dqfree
  else if o = 0x10 then some .dqtime
  else if o = 0x18 then some .dqseq
  else if o = 0x20 then some .rclate
  else if o = 0x28 then some .crdrop
  else if 0x800 ≤ o ∧ o < 0x840 then some (.disc 16 ((o - 0x800) / 8))
  else if 0x1000 ≤ o ∧ o < 0x3000 then some (.lease ((o - 0x1000) / 0x20) (o % 0x20 / 8))
  else if 0x3000 ≤ o ∧ o < 0x3400 then (if o % 0x40 < 0x30 then some (.efq ((o - 0x3000) / 0x40) (o % 0x40 / 8)) else none)
  else if o = 0x4000 then some .fdntfy
  else if 0x8000 ≤ o ∧ o < 0x10000 then some (.fdstat ((o - 0x8000) / 8))
  else none

/-- The register in the control block of CLc (R84, R88, R89, R56, R272). -/
def clusterReg (c o : Nat) : Option MmioReg :=
  if o < 0x100 then some (.bmode c (o / 8))
  else if 0x400 ≤ o ∧ o < 0x600 then
    (if o % 0x10 = 0 then some (.fqhead c ((o - 0x400) / 0x10)) else some (.fqlevel c ((o - 0x400) / 0x10)))
  else if o = 0x600 then some (.mdrop c)
  else if 0x1000 ≤ o ∧ o < 0x1040 then some (.disc c ((o - 0x1000) / 8))
  else if 0x2000 ≤ o ∧ o < 0x2200 then (if o % 0x100 < 0x80 then some (.ceqstat c ((o - 0x2000) / 0x100) (o % 0x100 / 8)) else none)
  else if 0x80000 ≤ o ∧ o < 0x80000 + 192 * 0x200 then
    some (.handler c ((o - 0x80000) / 0x200) (o % 0x200 / 0x20) (o % 0x20 / 8))
  else none

/-- The register in the block of fronthaul port p (R306, R307, R310, R384). -/
def portReg (p o : Nat) : Option MmioReg :=
  if o = 0 then some (.pctl p)
  else if o = 8 then some (.pstat p)
  else if 0x1000 ≤ o ∧ o < 0x1040 then some (.disc (24 + p) ((o - 0x1000) / 8))
  else if 0x2000 ≤ o ∧ o < 0x2040 then some (.portCtr p ((o - 0x2000) / 8))
  else if 0x3000 ≤ o ∧ o < 0x3200 then
    (match o % 0x20 / 8 with
     | 0 => some (.txcfg p ((o - 0x3000) / 0x20))
     | 1 => some (.txprod p ((o - 0x3000) / 0x20))
     | 2 => some (.txcons p ((o - 0x3000) / 0x20))
     | _ => none)
  else if 0x100000 ≤ o ∧ o < 0x110000 then
    (if o % 0x10 = 0 then some (.flowm p ((o - 0x100000) / 0x10)) else some (.flowa p ((o - 0x100000) / 0x10)))
  else none

/-- The register in the host-port block (R294, R298, R301). -/
def hostReg (o : Nat) : Option MmioReg :=
  if o = 0 then some .hpstat
  else if o = 0x10 then some .cxlcfg
  else if 0x80000 ≤ o ∧ o < 0xA0000 then some (.spcfg ((o - 0x80000) / 0x20) (o % 0x20 / 8))
  else if 0x100000 ≤ o ∧ o < 0x300000 then some (.ring ((o - 0x100000) / 0x20) (o % 0x20 / 8))
  else none

/-- The register in the power controller block (R314, R366, R390). -/
def powerReg (o : Nat) : Option MmioReg :=
  match o with
  | 0 => some .bootst
  | 0x8 => some .rstreq
  | 0x10 => some .rolelock
  | 0x18 => some .pwrcap
  | 0x20 => some .pwrstat
  | 0x28 => some .fatstat
  | _ =>
    if 0x1000 ≤ o ∧ o < 0x2000 then
      (if o % 0x10 = 0 then some (.lhstat ((o - 0x1000) / 0x10)) else some (.lhcnt ((o - 0x1000) / 0x10)))
    else none

/-- The register at a multiple of 8 in the L2 block (R98, R99). -/
def l2Reg (o : Nat) : Option MmioReg :=
  match o with
  | 0 => some .l2cmd
  | 0x8 => some .l2stat
  | 0x10 => some .ddtbase
  | 0x18 => some .domsel
  | _ => if [0x100, 0x108, 0x110, 0x118, 0x120, 0x128, 0x130, 0x140, 0x148, 0x150, 0x158].contains o then some (.l2ctr o) else none

/-- The register that holds a multiple-of-8 offset of the MMIO region; none where the offset is unassigned (R32, R33). -/
def mmioReg (off : Nat) : Option MmioReg :=
  if off < 0x01000000 then dquReg off
  else if off < 0x02000000 then clusterReg ((off - 0x01000000) / 0x100000) (off % 0x100000)
  else if off < 0x03000000 then l2Reg (off - 0x02000000)
  else if off < 0x04000000 then (match off - 0x03000000 with | 0 => some .ckbusy | 8 => some .ckpend | _ => none)
  else if off < 0x05000000 then portReg ((off - 0x04000000) / 0x200000) (off % 0x200000)
  else if off < 0x06000000 then hostReg (off - 0x05000000)
  else if off < 0x07000000 then
    (let o := off - 0x06000000
     if o = 0 then some .twstat else if o = 8 then some .twexp
     else if 0x100000 ≤ o ∧ o < 0x100000 + 49152 * 8 then some (.twdoor ((o - 0x100000) / 8)) else none)
  else if off < 0x08000000 then powerReg (off - 0x07000000)
  else if off < 0x09000000 then
    (let o := off - 0x08000000
     if o = 0 then some .mbcmd else if o = 8 then some .mbstat
     else if 0x1000 ≤ o ∧ o < 0x5000 then some (.mbuf ((o - 0x1000) / 8)) else none)
  else none

/-- Ones at bits [lo + n - 1 : lo]. -/
def ones (lo n : Nat) : Nat := (2 ^ n - 1) * 2 ^ lo

/-- The stored register's value after reset. -/
def MmioReg.reset : MmioReg → Word
  | .dqctl => 0x640010
  | .lease _ 1 => 0x10000
  | .efq _ 1 => 0x60000
  | .txcfg _ _ => 4
  | _ => 0

/-- The bits that a store writes as they are (RW and WARL fields); WARL fields pass `norm` as well. -/
def MmioReg.rw : MmioReg → Nat
  | .dqctl => ones 0 32
  | .rclate => ones 0 32
  | .crdrop => ones 0 32
  | .lease _ 0 => ones 0 64
  | .lease _ 1 => ones 40 8 + ones 16 16 + 1
  | .lease _ 2 => ones 0 32
  | .efq _ 0 => ones 12 40
  | .efq _ 1 => ones 62 2 + ones 16 5 + ones 4 12
  | .efq _ 3 => ones 0 64
  | .efq _ 5 => ones 0 32
  | .fdntfy => ones 63 1 + ones 0 16
  | .fdstat _ => ones 63 1 + ones 0 48
  | .mdrop _ => ones 0 32
  | .handler _ _ _ 3 => ones 0 33
  | .handler _ _ _ _ => ones 0 64
  | .ddtbase => ones 17 35 + 1
  | .domsel => ones 0 12
  | .pctl _ => ones 59 5 + ones 53 5 + ones 16 32
  | .txcfg _ _ => ones 63 1 + ones 12 40 + ones 0 4
  | .txprod _ _ => ones 0 64
  | .flowm _ _ => ones 63 1 + ones 0 45
  | .flowa _ _ => ones 32 4 + ones 0 29
  | .cxlcfg => ones 63 1 + ones 0 16
  | .spcfg _ 0 => ones 61 3 + ones 56 2 + ones 20 28
  | .spcfg _ 1 => ones 0 64
  | .spcfg _ 2 => ones 12 40
  | .spcfg _ 3 => ones 32 16
  | .ring _ 0 => ones 0 64
  | .ring _ 1 => ones 63 1 + ones 48 5 + ones 24 24 + ones 0 12
  | .ring _ 3 => ones 0 64
  | .twexp => ones 63 1 + ones 40 8 + ones 0 8
  | .lhcnt _ => ones 0 32
  | .mbuf _ => ones 0 64
  | _ => 0

/-- The bits that a store clears by writing 1 (RW1C). -/
def MmioReg.w1c : MmioReg → Nat
  | .ring _ 1 => ones 62 1
  | .pstat _ => ones 4 4
  | .lhstat _ => ones 0 64
  | _ => 0

/-- A field's WARL rule: replaces the value f of bits [lo + n - 1 : lo]. -/
def warl (v lo n : Nat) (f : Nat → Nat) : Nat := putBits v lo n (f (bitsAt v lo n))

/-- The legal value stored for a written one; `old` is the register before the store. -/
def MmioReg.norm (r : MmioReg) (s : State) (old v : Nat) : Nat :=
  match r with
  | .dqctl => warl (warl v 16 16 (max 1)) 0 16 (max 1)
  | .lease _ 1 => warl v 16 16 (max 1)
  | .efq _ 1 => warl (warl v 16 5 fun x => max 6 (min 16 x)) 4 8 fun x => if x ≤ 191 then x else 0
  | .fdntfy => warl v 4 8 fun x => if x ≤ 191 then x else 0
  | .pctl _ => warl v 61 2 fun x => if bitAt old 63 then bitsAt old 61 2 else if x = 3 then 0 else x
  | .txcfg _ _ => warl v 0 4 fun x => max 4 (min 12 x)
  | .flowm _ _ => warl v 43 2 fun x => if 2 ≤ x then 0 else x
  | .ring _ 1 => warl v 48 5 (min 16)
  | .cxlcfg =>
    if s.ports.cxlActive && s.ports.hostUp then putBits v 0 16 (bitsAt old 0 16)
    else
      let v := warl v 0 8 (min 64)
      warl v 8 8 fun x => if 256 < x + bitsAt v 0 8 then 256 - bitsAt v 0 8 else x
  | _ => v

/-- The loaded value of a register that the device computes; none for a stored one. DEDUCED, log 35. DEDUCED, log 95. -/
def MmioReg.computed (r : MmioReg) (s : State) : Option Word :=
  let nat (n : Nat) : Option Word := some (BitVec.ofNat 64 n)
  match r with
  | .dqfree => nat s.dqFree
  | .dqtime => nat s.dquNow
  | .dqseq => nat s.dqu.seq
  | .lease 0 _ => nat 0
  | .lease l 3 =>
    let rows := (List.range 64).filter fun k => bitAt (s.lrows l) k
    nat (b2n (s.leaseValid l && rows.any s.lent) + 2 * b2n (rows.any fun k => (tabGet none s.dqu.reclaim k).isSome))
  | .efq _ 4 => nat 0
  | .efq c 5 => nat (bitsAt (s.mmioGet (0x3000 + c * 0x40 + 0x28) 0).toNat 0 32 + 2 ^ 32 * (tabGet [] s.held c).length)
  | .disc n 0 => nat (s.ctrNs n)
  | .disc n 1 => nat ((s.counter n).value s.cycles % 2 ^ 32)
  | .disc n 2 => nat (s.counter n).inc
  | .disc n 4 => nat (b2n (s.counter n).locked)
  | .disc n 6 => some (s.counter n).diff
  | .disc n 7 => nat (2 ^ 63 * b2n (s.counter n).fresh + (s.counter n).src)
  | .disc _ _ => nat 0
  | .bmode c b =>
    let k := s.bank c b
    nat ((k.busy.getD k.mode).toNat + 4 * b2n k.busy.isSome + 2 ^ 8 * b2n k.winen + 2 ^ 20 * k.chan.toNat)
  | .fqhead c b => nat (s.bank c b).head
  | .fqlevel c b => nat ((s.bank c b).level + 2 ^ 32 * (s.bank c b).drops)
  | .ceqstat c e q =>
    let mine := s.cmds.filter fun m => m.ctx == e + 1 && m.cl == c && m.queue == q
    nat (mine.length % 128 + 2 ^ 15 * b2n (mine.any (·.state == .partly)))
  | .l2cmd => nat 0
  | .l2stat => nat (b2n s.l2.busy)
  | .l2ctr o => s.l2Counter o
  | .ckbusy =>
    let eng (lo : Nat) (ks : List Nat) : Nat :=
      (2 ^ (min (if lo = 0 then 8 else 4)
        (s.cmds.filter fun m => m.ctx == 3 && m.state == .started && ks.contains (m.words % 256)).length) - 1) * 2 ^ lo
    let rate (code : Bool) : Nat :=
      (s.cmds.filter fun m => m.ctx == 3 && m.state == .started && [5, 6].contains (m.words % 256)
        && bitAt m.words (256 + 10) == code).length
    nat (eng 0 [1] + (2 ^ min 4 ((s.cmds.filter fun m => m.ctx == 3 && m.state == .started && m.words % 256 == 2).length
        + rate false) - 1) * 2 ^ 8
      + (2 ^ min 4 ((s.cmds.filter fun m => m.ctx == 3 && m.state == .started && [3, 4].contains (m.words % 256)).length
        + rate true) - 1) * 2 ^ 12)
  | .ckpend => nat (s.cmds.filter fun m => m.ctx == 3).length
  | .pstat p =>
    let ctl := (s.mmioGet (fhBlock p) 0).toNat
    let subs := match bitsAt ctl 61 2 with | 1 => 2 | 2 => 4 | _ => 1
    let up := (List.range 4).foldl (fun v i =>
      if bitAt ctl 63 && decide (i < subs) && tabGet false s.ports.subUp (4 * p + i) then v + 2 ^ i else v) 0
    nat (up + bitsAt (s.mmioGet (fhBlock p + 8) 0).toNat 4 4 * 16)
  | .hpstat => nat (b2n s.ports.hostUp + 2 * b2n s.ports.rstSeen)
  | .cxlcfg => nat (putBits (s.mmioGet (hostBlock + 0x10) 0).toNat 62 1 (b2n s.ports.cxlActive))
  | .twstat => nat (b2n s.ports.twinUp)
  | .twdoor _ => nat 0
  | .bootst => nat (s.power.bootKind.toNat + 4 * b2n s.power.bootSlot + 8 * b2n s.power.wiped
      + 2 ^ 16 * s.power.bootStep.toNat + 2 ^ 24 * s.power.bootCode.toNat)
  | .rstreq => nat 0
  | .rolelock => nat (b2n s.power.locked)
  | .pwrcap => nat s.power.capFw
  | .pwrstat => nat (b2n s.power.excursion)
  | .fatstat => nat (match s.power.fatal with | some c => 2 ^ 63 + c.toNat | none => 0)
  | .mbcmd => nat 0
  | .mbstat => nat (2 ^ 63 * b2n s.unwene.pending.isSome + s.unwene.result.toNat)
  | _ => none

/-- The 64-bit value of the register at a multiple-of-8 offset. -/
def State.mmioValue (s : State) (off : Nat) (r : MmioReg) : Word := (r.computed s).getD (s.mmioGet off r.reset)

/-- A load of 4 or 8 aligned bytes of MMIO (R34): the value, and the state after it, since a read of TDSRC clears NEW
(R310). None where the offset is unassigned. -/
def State.mmioLoad (s : State) (off size : Nat) : Option (Nat × State) :=
  match mmioReg (off - off % 8) with
  | none => none
  | some r =>
    let v := (s.mmioValue (off - off % 8) r).toNat
    let s' := match r with
      | .disc n 7 => s.setCounter n { s.counter n with fresh := false }
      | _ => s
    some (bitsAt v (8 * (off % 8)) (8 * size), s')

/-- Whether a hart in a mode may load from an MMIO offset (R317, R398). -/
def mmioLoadOk (off : Nat) (mode : Mode) : Bool :=
  match mmioReg (off - off % 8) with
  | none => false
  | some (.twdoor _) => true
  | some .mbcmd | some .mbstat | some (.mbuf _) => mode == .m
  | some _ => mode != .u

/-- Whether a stream core in S-mode with a role satisfying p, or any hart in M-mode, may store. -/
def roleOk (h : Hart) (mode : Mode) (p : BitVec 4 → Bool) : Bool :=
  match mode with
  | .m => true
  | .s => !h.isVc && p h.srvrole
  | .u => false

/-- The store permission of each register (R56, R71, R84, R98, R272, R294, R301, R303, R310, R314, R317, R338, R384). -/
def MmioReg.storeOk (r : MmioReg) (h : Hart) (mode : Mode) (size : Nat) : Bool :=
  match r with
  | .efq _ _ => roleOk h mode (· == 1)
  | .disc _ _ => roleOk h mode (· == 3)
  | .dqctl | .dqfree | .dqtime | .dqseq | .rclate | .crdrop | .lease _ _ | .fdntfy | .fdstat _ => roleOk h mode (· == 2)
  | .bmode c _ | .fqhead c _ | .fqlevel c _ | .mdrop c | .handler c _ _ _ =>
    mode == .m || (mode == .s && h.cluster == c)
  | .ceqstat _ _ _ | .ckbusy | .ckpend => false
  | .l2cmd | .l2stat | .ddtbase | .domsel | .l2ctr _ => roleOk h mode (· != 0)
  | .pctl _ | .pstat _ | .portCtr _ _ | .txcfg _ _ | .txprod _ _ | .txcons _ _ | .flowm _ _ | .flowa _ _ =>
    roleOk h mode (· == 4)
  | .cxlcfg => mode == .m
  | .hpstat | .spcfg _ _ | .ring _ _ => roleOk h mode (· == 5)
  | .twstat | .twexp => roleOk h mode (· != 0)
  | .twdoor _ => size == 8
  | .bootst | .rstreq | .rolelock | .pwrcap | .pwrstat | .fatstat | .lhstat _ | .lhcnt _ => mode == .m
  | .mbcmd | .mbstat | .mbuf _ => mode == .m

/-- EFWAKE (R338, R342): the repair of the named rows' chains is complete. -/
def State.efwake (s : State) (c rows : Nat) : State :=
  (List.range 4).foldl (fun s k => if bitAt rows k then s.setRow c k { s.row c k with repair := false } else s) s

/-- A doorbell to the twin (R304, R388): discarded while the port is down; otherwise it takes a credit and leaves the
module. -/
def State.twdoor (s : State) : State :=
  if s.ports.twinUp then { s with ports := { s.ports with credits := s.ports.credits - 1 } } else s

/-- A store to the register at a multiple-of-8 offset: v is the value written, `mask` the bits the store covers. A store
of 4 bytes leaves the fields of the other half as they are (DEDUCED, log 6). -/
def State.mmioPut (s : State) (off : Nat) (r : MmioReg) (v mask : Nat) : State :=
  let old := (s.mmioValue off r).toNat
  let merged := (v &&& mask) ||| (old &&& (2 ^ 64 - 1 - mask))
  let w := BitVec.ofNat 64 (v &&& mask)
  let plain (s : State) : State :=
    let rw := r.rw
    let kept := old &&& (2 ^ 64 - 1 - rw) &&& (2 ^ 64 - 1 - (r.w1c &&& v &&& mask))
    s.mmioSet off r.reset (BitVec.ofNat 64 (r.norm s old ((merged &&& rw) ||| kept)))
  match r with
  | .lease 0 _ => s
  | .lease l 1 =>
    let s' := plain s
    if !bitAt old 0 && bitAt merged 0 then
      { s' with dqu := { s'.dqu with validAt := tabSet 0 s'.dqu.validAt l s.dquNow } }
    else s'
  | .efq c 1 =>
    let s' := plain s
    if !bitAt old 63 && bitAt merged 63 then s'.mmioSet (0x3000 + c * 0x40 + 0x10) 0 0 else s'
  | .efq c 4 => s.efwake c w.toNat
  | .efq c 5 => s.mmioSet (0x3000 + c * 0x40 + 0x28) 0 (BitVec.ofNat 64 (merged % 2 ^ 32))
  | .disc n 2 => s.setTinc n (merged % 2 ^ 40)
  | .disc n 3 => s.tstep n w
  | .disc n 4 => s.setCounter n { s.counter n with locked := bitAt merged 0 }
  | .disc n 5 => if mask % 64 = 0 then s else s.beacon n (w.toNat % 64)
  | .bmode c b => s.bmodeWrite c b (BitVec.ofNat 64 merged)
  | .fqlevel c b => if bitAt w.toNat 63 then s.fqReset c b else s
  | .l2cmd => s.l2Cmd w
  | .hpstat => if bitAt w.toNat 1 then { s with ports := { s.ports with rstSeen := false } } else s
  | .ring h 1 =>
    let s' := plain s
    if !bitAt old 63 && bitAt merged 63 then s'.mmioSet (ringOff h 2) 0 0 else s'
  | .cxlcfg => s.mmioSet off 0 (BitVec.ofNat 64 (r.norm s old (merged &&& r.rw)))
  | .twdoor _ => s.twdoor
  | .rstreq => s.rstReq w
  | .rolelock => s.roleLock w
  | .pwrcap => if mask % 2 ^ 10 = 0 then s else { s with power := { s.power with capFw := capClamp (merged % 1024) } }
  | .pwrstat => if bitAt w.toNat 0 then { s with power := { s.power with excursion := false } } else s
  | .mbcmd => if mask % 256 = 0 then s else s.mbCmd w
  | _ => if r.rw = 0 && r.w1c = 0 then s else plain s

/-- A store of 4 or 8 aligned bytes of MMIO, performed. -/
def State.mmioStore (s : State) (off size v : Nat) : State :=
  match mmioReg (off - off % 8) with
  | none => s
  | some r => s.mmioPut (off - off % 8) r (v % 2 ^ (8 * size) * 2 ^ (8 * (off % 8))) (ones (8 * (off % 8)) (8 * size))

/-- Whether a store to an MMIO offset may be performed now: a doorbell waits for a Milzin credit while the twin port is up
(R304, R388). -/
def State.mmioReady (s : State) (off : Nat) : Bool :=
  match mmioReg (off - off % 8) with
  | some (.twdoor _) => !s.ports.twinUp || decide (0 < s.ports.credits)
  | _ => true

/-- What a host store through BAR0 does (R294, R301): KEEP and CXLCFG stay as they are. DEDUCED, log 94. -/
def State.bar0Store (s : State) (o size v : Nat) : State :=
  let off := hostBlock + o % 0x1000000
  if !((size == 4 || size == 8) && o % size == 0) then s
  else
    match mmioReg (off - off % 8) with
    | some .cxlcfg => s
    | some (.spcfg n 0) =>
      let keep := bitsAt (s.mmioGet (off - off % 8) 0).toNat 62 1
      let s := s.mmioStore off size v
      let reg := hostBlock + 0x80000 + n * 0x20
      s.mmioSet reg 0 (BitVec.ofNat 64 (putBits (s.mmioGet reg 0).toNat 62 1 keep))
    | some _ => s.mmioStore off size v
    | none => s

end Sys2Proof.Machine
end

