-- ==== Sys2Proof/Machine/Ops.lean ====
section
/-! DEFINITION. The operations every family shares: the strip buffer and commit points, memory as a core reads and writes
it, rewinding, taking an exception and returning from one, and the wrapper that turns a body into a meaning. -/

namespace Sys2Proof.Machine

/-! ### The vector configuration (R173, R196, R201) -/

/-- Bytes of an element. -/
def Vec.ewB (v : Vec) : Nat := 2 ^ bitsAt v.vcfg.toNat 0 2
/-- NREG. -/
def Vec.nreg (v : Vec) : Nat := 8 * 2 ^ bitsAt v.vcfg.toNat 2 2
/-- GRP. -/
def Vec.grp (v : Vec) : Nat := 2 ^ bitsAt v.vcfg.toNat 4 2
/-- FZ. -/
def Vec.fz (v : Vec) : Bool := bitAt v.vcfg.toNat 9
/-- SCOPE. -/
def Vec.scope (v : Vec) : BitVec 2 := BitVec.ofNat 2 (bitsAt v.vcfg.toNat 10 2)
/-- PROT. -/
def Vec.prot (v : Vec) : Bool := bitAt v.vcfg.toNat 12
/-- VBAD. -/
def Vec.vbad (v : Vec) : Bool := bitAt v.vcfg.toNat 63
/-- The rounding mode RM. -/
def Vec.rm (v : Vec) : Rm :=
  match bitsAt v.vcfg.toNat 6 3 with
  | 1 => .rtz | 2 => .rdn | 3 => .rup | 4 => .sr | _ => .rne

/-- Set bits of a lane map. -/
def popLanes (l : BitVec 32) : Nat := ((List.range 32).filter fun i => l.getLsbD i).length
/-- Set bits of a word. -/
def popWord (w : Word) : Nat := ((List.range 64).filter fun i => w.getLsbD i).length

/-- Active lanes, halved under PROT (R201, R357). -/
def Vec.laneCount (v : Vec) : Nat := let l := popLanes v.lanes; if v.prot then l / 2 else l
/-- Bytes of a register's image (R201). -/
def Vec.imageB (v : Vec) : Nat := v.laneCount * (1024 / v.nreg)
/-- MVL (R173). -/
def Vec.mvl (v : Vec) : Nat := v.imageB / v.ewB

/-- Vector storage is numbered by register and image byte. -/
def vecKey (reg byte : Nat) : Nat := reg * 4096 + byte
/-- What storage holds where nothing has been written: zero, or open content after a change of PROT (R201). -/
def Vec.blank (v : Vec) (key : Nat) : Byte := if v.epoch = 0 then 0 else Config.freeByte v.epoch key
/-- A byte of a register's image. -/
def Vec.byte (v : Vec) (reg byte : Nat) : Byte := tabGet (v.blank (vecKey reg byte)) v.store (vecKey reg byte)
/-- Stores a byte of a register's image. -/
def Vec.setByte (v : Vec) (reg byte : Nat) (b : Byte) : Vec :=
  { v with store := if v.epoch = 0 then tabSet 0 v.store (vecKey reg byte) b else tabInsert v.store (vecKey reg byte) b }
/-- n bytes of a register's image from a byte upward. -/
def Vec.bytes (v : Vec) (reg byte n : Nat) : List Byte := (List.range n).map fun i => v.byte reg (byte + i)
/-- Stores bytes of a register's image. -/
def Vec.setBytes (v : Vec) (reg byte : Nat) : List Byte → Vec
  | [] => v
  | b :: r => (v.setByte reg byte b).setBytes reg (byte + 1) r

/-! ### The strip buffer (R51, R112, R336, R396) -/

/-- A byte a buffered store holds for an address, with its poison. -/
def BufEntry.byteAt (e : BufEntry) (pa : Nat) : Option (Byte × Bool) :=
  match e with
  | .store a d _ p => if a ≤ pa then (d[pa - a]?).map fun b => (b, p) else none
  | .msg _ | .mark _ => none

/-- The newest buffered byte for an address: the list holds the newest entry first. -/
def bufByte : List BufEntry → Nat → Option (Byte × Bool)
  | [], _ => none
  | e :: r, a => match e.byteAt a with | some b => some b | none => bufByte r a

/-- A byte of memory as the core whose turn it is reads it: the newest buffered data, else memory (R51). -/
def State.seenByte (s : State) (a : Nat) : Byte :=
  match bufByte s.cpu.buf a with
  | some b => b.1
  | none => memByte s.mem a
/-- n bytes as the core reads them. -/
def State.seenBytes (s : State) (a n : Nat) : List Byte := (List.range n).map fun i => s.seenByte (a + i)
/-- Whether an entry leaves a buffered sector poisoned, older entries having left it so or not: its mark is that of the whole
sector, and only clean data that covers all of it takes the mark away (R359, R361). -/
def BufEntry.marks (k : Nat) (e : BufEntry) (before : Bool) : Bool :=
  match e with
  | .store a d _ p =>
    if a < 64 * k + 64 && 64 * k < a + d.length then p || (before && !(a ≤ 64 * k && 64 * k + 64 ≤ a + d.length)) else before
  | .mark j => before || j == k
  | .msg _ => before
/-- Whether the strip buffer's entry of a sector is poisoned. -/
def bufBad (l : List BufEntry) (k : Nat) : Bool := l.foldr (BufEntry.marks k) false
/-- Whether any of n bytes is poisoned as the core reads them (R361). -/
def State.seenPoison (s : State) (a n : Nat) : Bool :=
  (List.range n).any fun i =>
    match bufByte s.cpu.buf (a + i) with
    | some _ => bufBad s.cpu.buf (sectorOf (a + i))
    | none => s.poisonedAt (a + i) 1

/-- The 64-byte sectors of a list of entries: what the strip buffer's 512 entries count (R336). -/
def bufSectors : List BufEntry → List Nat
  | [] => []
  | .store a d _ _ :: r =>
    (List.range (if d.length = 0 then 0 else sectorOf (a + d.length - 1) - sectorOf a + 1)).foldl
      (fun l i => addSorted (sectorOf a + i) l) (bufSectors r)
  | .msg _ :: r | .mark _ :: r => bufSectors r

/-- Entries of the strip buffer (R336). -/
def stripEntries : Nat := 512

/-- Whether a buffered store has to wait before it is performed: for a mode change, or for a Milzin credit (R304, R396). -/
def State.entryWaits (s : State) (e : BufEntry) : Option WaitOn :=
  match e with
  | .msg _ | .mark _ => none
  | .store pa _ _ _ =>
    match regionOf pa with
    | .csram c b _ => if (s.bank c b).busy.isSome then some (.modeChange (c * 32 + b)) else none
    | .mmio off => if s.mmioReady off then none else some .credit
    | _ => none

/-- Performs a checked store (R396): one to a bank that no longer admits plain stores is discarded; one to the host window reaches
the host's memory, one to the twin window leaves the module, each unless it is lost with its port. -/
def State.performStore (s : State) (who pa : Nat) (data : List Byte) (bad : Bool) : State :=
  match regionOf pa with
  | .lpddr => s.visWrite (some who) pa data bad
  | .csram c b _ =>
    if (s.bank c b).mode == modeScratch || (s.bank c b).mode == modeLatch then s.visWrite (some who) pa data bad else s
  | .mmio off => s.mmioStore off data.length (ofBytes data)
  | .host bus => if s.ports.hostUp then s.hostWrite bus data else s
  | _ => s

/-- Performs an entry of the strip buffer. -/
def State.performEntry (s : State) (who : Nat) (e : BufEntry) : State :=
  match e with
  | .store pa d _ p => s.performStore who pa d p
  | .msg m => s.send m
  | .mark k => if s.poison.contains k then s else { s with poison := addSorted k s.poison }

/-- Whether the buffered stores cover every byte of a sector (R361). -/
def bufCovers (l : List BufEntry) (k : Nat) : Bool := (List.range 64).all fun i => (bufByte l (64 * k + i)).isSome

/-- The buffered stores to one sector reach it as one write: clean data that covers all of it clears its mark (R336, R361). -/
def State.unmark (s : State) (l : List BufEntry) : State :=
  if s.poison.isEmpty then s else { s with poison := s.poison.filter fun k => bufBad l k || !bufCovers l k }

/-- Performs entries oldest first; what is left waits. DEDUCED, log 52. -/
def State.performAll (who : Nat) : State → List BufEntry → State × List BufEntry × Option WaitOn
  | s, [] => (s, [], none)
  | s, e :: r =>
    match s.entryWaits e with
    | some w => (s, e :: r, some w)
    | none => State.performAll who (s.performEntry who e) r

/-- Clears the replay lineage and `sfinfo` (R335, R337). -/
def Vec.clearLineage (v : Vec) : Vec :=
  { v with vlimit := 0, replays := 0, pageKept := none, sfElem := 0, sfCause := 0, replayPc := none, resReplay := false }
/-- Ends an opened strip (R175): its lineage is cleared (R335). -/
def Vec.closeStrip (v : Vec) : Vec := if v.strip.isSome then { v.clearLineage with strip := none } else v

/-- The commit of the core whose turn it is: an opened strip closes, every buffered store is performed in program order, then the
popped bytes leave their queues (R51, R87, R112). The strip is closed also where a store has to wait: what has been performed is
not rewound (R113), and the wait of a commit point is none of an opened strip (R171, R345). DEDUCED, log 52. -/
def State.commit (s : State) : State × Option WaitOn :=
  let n := s.cpu.num
  let r := State.performAll n { s with cpu := { s.cpu with buf := [], vec := s.cpu.vec.closeStrip } } s.cpu.buf.reverse
  let s' := r.1.unmark (s.cpu.buf.drop r.2.1.length)
  match r.2.2 with
  | some w => ({ s' with cpu := { s'.cpu with buf := r.2.1.reverse } }, some w)
  | none => (s'.commitPops n, none)

/-- The commit in a body; a store whose effect ended the task ends the instruction too. -/
def commit : M Unit := do
  let s ← get
  let r := s.commit
  set r.1
  if r.1.cpu.run = s.cpu.run then
    match r.2 with
    | some w => waitFor w 0 0
    | none => pure ()
  else throw .ended

/-- Messages a core may have in flight (R191). -/
def maxInFlight : Nat := 8

/-- A message leaves at this commit. -/
def sendNow (m : Msg) : M Unit := do
  let s ← get
  if maxInFlight ≤ s.inFlightOf s.cpu.num then waitFor .messages 0 0
  else set (s.send m)

/-- Closes the partial message of a message sink; it leaves now. -/
def drainSlot (i : Nat) : M Unit := do
  let h ← cpu
  match h.vec.slots.getD i none with
  | none => pure ()
  | some sl =>
    match sl.kind with
    | .msgSink d l =>
      if sl.gathered.isEmpty then pure ()
      else do
        sendNow (mkMsg h.num d l sl.gathered (sl.marks.any id))
        modVec fun v => { v with slots := v.slots.setIfInBounds i (some { sl with gathered := [], marks := [] }) }
    | _ => pure ()

/-- Drains every bound sink stream (R50 step 2). -/
def drainSinks : M Unit := do
  for i in [0, 1, 2, 3, 4, 5, 6, 7] do drainSlot i

/-- The end of the running task: the sinks are drained and the core is given up (R50). -/
def endTask (result : Option (Word × Bool)) : M Unit := do
  drainSinks
  modify fun s => s.finishTask s.cpu.num result
  throw .ended

/-- A commit point (R51): the commit, and the stop of a task whose abandon signal has come (R74, R75). A trap handler is
not stopped here (R75). -/
def commitPoint : M Unit := do
  commit
  match (← cpu).task with
  | some t => if t.signal && t.trapDepth == 0 then endTask none else pure ()
  | none => pure ()

/-! ### Memory as a core reads and writes it (R80, R81, R302, R396) -/

/-- What the rules of a region say of an access. -/
inductive Verdict where
  | ok
  | fault (cause : Nat)
  | wait (w : WaitOn)
deriving DecidableEq, Repr

/-- Whether [pa, pa + n) leaves LPDDR6 at its end (R30, R81). -/
def pastLpddr (pa n : Nat) : Bool := decide (0x4000000000 < pa + n)

/-- A plain load of n bytes (R34, R80, R81, R302). `strict` is a scalar access: the elements of a vector access may be
misaligned (R216). DESIGN CHOICE, log 96. -/
def State.loadVerdict (s : State) (strict : Bool) (pa n : Nat) (mode : Mode) : Verdict :=
  match regionOf pa with
  | .lpddr => if strict && pastLpddr pa n then .fault 4 else .ok
  | .csram c b off =>
    let k := s.bank c b
    if k.busy.isSome then .wait (.modeChange (c * 32 + b))
    else if k.mode == modeCache then .fault 5
    else if strict && (decide (0x40000 < off + n) || (k.mode != modeScratch && pa % n != 0)) then .fault 4
    else .ok
  | .mmio off =>
    if !strict then .fault 5
    else if pa % n != 0 then .fault 4
    else if !(n == 4 || n == 8) || !mmioLoadOk off mode then .fault 5
    else .ok
  | .host _ => if strict && pa % n != 0 then .fault 4 else if s.ports.hostUp then .ok else .fault 50
  | .twin _ => if strict && pa % n != 0 then .fault 4 else if s.ports.twinUp then .ok else .fault 5
  | .hole => .fault 5

/-- A plain store of n bytes (R34, R80, R81, R302). -/
def State.storeVerdict (s : State) (strict : Bool) (pa n : Nat) (mode : Mode) : Verdict :=
  match regionOf pa with
  | .lpddr => if strict && pastLpddr pa n then .fault 6 else .ok
  | .csram c b off =>
    let k := s.bank c b
    if k.busy.isSome then .wait (.modeChange (c * 32 + b))
    else if k.mode == modeCache || k.mode == modeFifo then .fault 7
    else if strict && (decide (0x40000 < off + n) || (k.mode != modeScratch && pa % n != 0)) then .fault 6
    else .ok
  | .mmio off =>
    if !strict then .fault 7
    else if pa % n != 0 then .fault 6
    else if !(n == 4 || n == 8) then .fault 7
    else
      match mmioReg (off - off % 8) with
      | some r => if r.storeOk s.cpu mode n then .ok else .fault 7
      | none => .fault 7
  | .host _ => if strict && pa % n != 0 then .fault 6 else if s.ports.hostUp then .ok else .fault 50
  | .twin _ => if strict && pa % n != 0 then .fault 6 else if s.ports.twinUp then .ok else .fault 7
  | .hole => .fault 7

/-- Acts on a verdict. -/
def obey (v : Verdict) (va : Word) (elem : Option Nat) : M Unit :=
  match v with
  | .ok => pure ()
  | .fault c => raiseAt c va elem
  | .wait w => waitFor w va (elem.getD 0)

/-- A read of n bytes of the twin's memory, whose value the spec leaves to the other side (R35, R302). -/
def twinRead (n : Nat) (va : Word) (elem : Option Nat) : M (Nat × Bool) := do
  let s ← get
  set { s with free := s.free + 1 }
  if Config.completerAborts s.free then raiseAt 5 va elem
  else return ((Config.twinData s.free).toNat % 2 ^ (8 * n), false)

/-- A read of n bytes of the host's memory (R35, R302). DESIGN CHOICE, log 14. -/
def hostRead (bus n : Nat) (va : Word) (elem : Option Nat) : M (Nat × Bool) := do
  let s ← get
  if s.hostAborts bus then raiseAt 5 va elem else return (ofBytes (s.hostBytes bus n), false)

/-- The module as a core's own MMIO loads see it: its buffered MMIO stores are performed, the oldest first (R34, R51, R125). -/
def State.mmioView (s : State) : State :=
  s.cpu.buf.foldr (fun e t =>
    match e with
    | .store pa d _ _ => (match regionOf pa with | .mmio off => t.mmioStore off d.length (ofBytes d) | _ => t)
    | .msg _ | .mark _ => t) s

/-- A load's bytes with the core's newest buffered ones in their place, and its poison (R51, R361). -/
def State.forward (s : State) (pa n : Nat) (r : Nat × Bool) : Nat × Bool :=
  if s.cpu.buf.isEmpty then r
  else
    let byte (i : Nat) : Byte := match bufByte s.cpu.buf (pa + i) with | some b => b.1 | none => BitVec.ofNat 8 (r.1 / 2 ^ (8 * i))
    (ofBytes ((List.range n).map byte), r.2 || s.seenPoison pa n)

/-- Performs an admitted load: the value and its poison. A load of MMIO or of a window is performed when it executes (R51, R125). One of
MMIO answers what the registers say after the core's older buffered MMIO stores, in program order (R34; DEDUCED, log 120); one of a
window returns the core's own buffered data for the bytes that an older store has left in its strip buffer. -/
def readPhys (pa n : Nat) (va : Word) (elem : Option Nat) : M (Nat × Bool) := do
  let s ← get
  match regionOf pa with
  | .mmio off =>
    match s.mmioView.mmioLoad off n, s.mmioLoad off n with
    | some v, some r => do
      set r.2
      return (v.1, false)
    | _, _ => raiseAt 5 va elem
  | .host bus => do return s.forward pa n (← hostRead bus n va elem)
  | .twin _ => do return s.forward pa n (← twinRead n va elem)
  | _ => return (ofBytes (s.seenBytes pa n), s.seenPoison pa n)

/-- Whether [va, va + n) leaves the page of a translation. -/
def Xlat.crosses (x : Xlat) (va : Word) (n : Nat) : Bool := decide (x.pageBase + x.pageSize < va.toNat + n)

/-- The lines that an admitted access lies in are asked for under its domain (R92). -/
def asks (x : Xlat) (n : Nat) : M Unit := modify (·.l2Ask x.pa n x.dom)

/-- A scalar load of n bytes: translation, then alignment and region (R81), then the read. DEDUCED, log 28. -/
def scalarLoad (va : Word) (n : Nat) : M (Nat × Bool) := do
  let x ← translate .load va none
  if x.crosses va n then raise 4 va
  else do
    let s ← get
    obey (s.loadVerdict true x.pa n (s.cpu.ctx .load).mode) va none
    asks x n
    readPhys x.pa n va none

/-- Enters a checked store into the strip buffer of a vector core, or performs it on a stream core (R51, R83). A full
buffer rewinds an opened strip and commits an implicit one (R54, R336). -/
def putStore (pa : Nat) (data : List Byte) (scope : BitVec 2) (bad : Bool) (va : Word) (elem : Nat) : M Unit := do
  let s ← get
  let e := BufEntry.store pa data scope bad
  if s.cpu.isVc then
    if (bufSectors (e :: s.cpu.buf)).length ≤ stripEntries then modCpu fun h => { h with buf := e :: h.buf }
    else if s.cpu.vec.strip.isSome then throw (.overflow elem va)
    else do
      commit
      modCpu fun h => { h with buf := e :: h.buf }
  else
    match s.entryWaits e with
    | some w => waitFor w va elem
    | none => set (s.performEntry s.cpu.num e)

/-- Scope of a scalar store (R111). -/
def scopeDevice : BitVec 2 := 2

/-- Whether a store by physical address is admitted by a poisoned role: a device register's, in S-mode (R55, R361, R362; DESIGN
CHOICE, log 64). -/
def State.roleBad (s : State) (pa : Nat) (mode : Mode) : Bool :=
  s.cpu.csrBad 0x7C1 && mode == .s && (match regionOf pa with | .mmio _ => true | _ => false)

/-- A scalar store of the low n bytes of v. -/
def scalarStore (va : Word) (n v : Nat) (bad : Bool) : M Unit := do
  let x ← translate .store va none
  if x.crosses va n then raise 6 va
  else do
    let s ← get
    consume (s.roleBad x.pa (s.cpu.ctx .store).mode)
    obey (s.storeVerdict true x.pa n (s.cpu.ctx .store).mode) va none
    asks x n
    putStore x.pa (bytesOf n v) scopeDevice bad va 0

/-- Cuts an access at a 4 KiB boundary: its parts lie in one page and one region each. -/
def parts (va : Word) (n : Nat) : List (Word × Nat) :=
  let k := 4096 - va.toNat % 4096
  if n ≤ k then [(va, n)] else [(va, k), (va + BitVec.ofNat 64 k, n - k)]

/-- Translates and checks every part of a vector or record access: the physical pieces. -/
def checkParts (acc : Acc) (strict : Bool) (elem : Option Nat) : List (Word × Nat) → M (List (Nat × Nat × Word))
  | [] => return []
  | p :: r => do
    let x ← translate acc p.1 elem
    let s ← get
    let mode := (s.cpu.ctx acc).mode
    obey (match acc with | .store => s.storeVerdict strict x.pa p.2 mode | _ => s.loadVerdict strict x.pa p.2 mode) p.1 elem
    asks x p.2
    let rest ← checkParts acc strict elem r
    return (x.pa, p.2, p.1) :: rest

/-- Whether an address lies in the host or the twin window. -/
def isWindow (pa : Nat) : Bool := match regionOf pa with | .host _ | .twin _ => true | _ => false

/-- Pieces of one element that adjoin in the host or twin window make one request (R302). -/
def joinPieces : List (Nat × Nat × Word) → List (Nat × Nat × Word)
  | a :: b :: r =>
    if isWindow a.1 && isWindow b.1 && b.1 == a.1 + a.2.1 then (a.1, a.2.1 + b.2.1, a.2.2) :: r else a :: b :: r
  | l => l

/-- Reads checked pieces as one little-endian number. -/
def readPieces (elem : Option Nat) : List (Nat × Nat × Word) → M (Nat × Bool)
  | [] => return (0, false)
  | p :: r => do
    let a ← readPhys p.1 p.2.1 p.2.2 elem
    let b ← readPieces elem r
    return (a.1 + 2 ^ (8 * p.2.1) * b.1, a.2 || b.2)

/-- Reads the checked pieces of one element. -/
def readElem (elem : Option Nat) (ps : List (Nat × Nat × Word)) : M (Nat × Bool) := readPieces elem (joinPieces ps)

/-- The bytes of checked pieces. -/
def readPieceBytes : List (Nat × Nat × Word) → M (List Byte × Bool)
  | [] => return ([], false)
  | p :: r => do
    let s ← get
    let a : List Byte × Bool ←
      match regionOf p.1 with
      | .host _ | .twin _ => do
        let ws ← (List.range (ceilDiv p.2.1 8)).mapM fun i => readPhys (p.1 + 8 * i) 8 p.2.2 none
        pure ((ws.flatMap fun w => bytesOf 8 w.1).take p.2.1, ws.any Prod.snd)
      | _ => pure (s.seenBytes p.1 p.2.1, s.seenPoison p.1 p.2.1)
    let b ← readPieceBytes r
    return (a.1 ++ b.1, a.2 || b.2)

/-- Reads n bytes of a record an instruction reads from memory (R41, R46, R164, R184, R190): load faults are the
instruction's. The second component says whether any byte is poisoned. -/
def readRecord (va : Word) (n : Nat) : M (List Byte × Bool) := do
  let rec go (fuel : Nat) (va : Word) (n : Nat) : List (Word × Nat) :=
    match fuel with
    | 0 => []
    | f + 1 =>
      let k := 4096 - va.toNat % 4096
      if n = 0 then [] else if n ≤ k then [(va, n)] else (va, k) :: go f (va + BitVec.ofNat 64 k) (n - k)
  let ps ← checkParts .load false none (go 4 va n)
  readPieceBytes ps

/-! ### Rewinding (R53, R333 to R337) -/

/-- Writes back the vector registers of a journal. -/
def Vec.restoreRegs (v : Vec) : List (Nat × List Byte) → Vec
  | [] => v
  | p :: r => (v.setBytes p.1 0 p.2).restoreRegs r

/-- The x registers of a journal written back. -/
def restoreX (x : Vector Word 32) : List (Nat × Word) → Vector Word 32
  | [] => x
  | p :: r => restoreX (x.setIfInBounds p.1 p.2) r

/-- Bits of the journalled registers in a poison mask. -/
def journalMask (xs : List (Nat × Word)) : BitVec 32 := xs.foldl (fun m p => m ||| ((1 : BitVec 32) <<< p.1)) 0

/-- The CSRs that a journal holds: `fflags`, `frm`, `vcfg` and `rngctr` (R52). -/
def journalled (n : Nat) : Bool := [0x001, 0x002, 0x800, 0x806].contains n

/-- Restores a journal, each register with its mark (R52, R53, R361). -/
def Hart.restore (h : Hart) (j : Journal) : Hart :=
  let m := journalMask j.x
  { h with
    pc := j.pc
    x := restoreX h.x j.x
    f := j.f
    frm := j.frm
    fflags := j.fflags
    rngctr := j.rngctr
    xpoison := (h.xpoison &&& ~~~m) ||| (j.xpoison &&& m)
    cpoison := j.cpoison.foldl (fun l k => addSorted k l) (h.cpoison.filter fun k => !journalled k)
    fpoison := j.fpoison
    buf := []
    la := []
    wait := none
    vec := { (h.vec.restoreRegs j.vregs) with
      vcfg := j.vcfg, keys := j.keys, slots := j.slots, kpoison := j.kpoison, strip := none
      vpoison := (h.vec.vpoison.filter fun k => !(j.vregs.any fun p => p.1 == k / 4096))
        ++ (j.vpoison.filter fun k => j.vregs.any fun p => p.1 == k / 4096) } }

/-- Rewinds the opened strip of the core whose turn it is (R53): the buffer is discarded, pops return to their queues, the
journal is restored. -/
def State.rewind (s : State) : State :=
  match s.cpu.vec.strip with
  | none => s
  | some j =>
    let s := s.returnPops s.cpu.num
    { s with cpu := s.cpu.restore j }

/-- Why a strip is rewound, as the lineage sees it (R335, R351). -/
inductive Rewind where
  | fault (page : Word)
  | overflow
  | progress
  | residue
  | plain
deriving DecidableEq, Repr

/-- The replay limit after a rewind of a strip of length vl (R335). DEDUCED, log 48. -/
def Rewind.limit (k : Rewind) (v : Vec) (vl : Nat) : Nat :=
  match k with
  | .fault p => (match v.pageKept with | some q => if p = q then vl else max 1 (vl / 2) | none => vl)
  | .overflow => max 1 (vl / 2)
  | .progress => if v.vlimit = 0 then vl else v.vlimit
  | _ => v.vlimit

/-- Adds one to REPLAYS, saturating (R199). -/
def bumpReplays (r : BitVec 4) : BitVec 4 := if r = 15 then 15 else r + 1

/-- The lineage and `sfinfo` after a rewind (R335, R337); `depth` handlers are running. -/
def Vec.noteRewind (v : Vec) (k : Rewind) (vl : Nat) (pc : Word) (elem cause depth : Nat) : Vec :=
  { v with
    vlimit := k.limit v vl
    pageKept := (match k with | .fault p => some p | _ => v.pageKept)
    replays := (match k with | .plain => v.replays | _ => bumpReplays v.replays)
    sfElem := BitVec.ofNat 16 elem
    sfCause := BitVec.ofNat 8 cause
    replayPc := some pc
    replayDepth := depth
    resReplay := k == .residue }

/-- Rewinds the opened strip and notes why. DEDUCED, log 49. -/
def State.rewindFor (s : State) (k : Rewind) (elem cause : Nat) : State :=
  match s.cpu.vec.strip with
  | none => s
  | some j =>
    let s := s.rewind
    { s with cpu := { s.cpu with vec := s.cpu.vec.noteRewind k j.vl j.pc elem cause s.cpu.nest } }

/-! ### Taking an exception and returning from one (R331 to R334, R354 to R356) -/

/-- Number of a mode in MPP. -/
def Mode.num : Mode → Nat
  | .u => 0 | .s => 1 | .m => 3

/-- The handler address of a trap-vector register: a vectored one takes interrupts at four bytes per code. -/
def tvecTarget (tvec : Word) (interrupt : Bool) (code : Nat) : Word :=
  let base := tvec &&& ~~~(3 : Word)
  if interrupt && bitsAt tvec.toNat 0 2 == 1 then base + BitVec.ofNat 64 (4 * code) else base

/-- The cause register's value. -/
def causeWord (interrupt : Bool) (code : Nat) : Word := BitVec.ofNat 64 (2 ^ 63 * b2n interrupt + code)

/-- The exceptions whose `medeleg` bit can be set (R331). -/
def delegableCause (c : Nat) : Bool := [1, 2, 3, 4, 5, 6, 7, 8, 9, 12, 13, 15, 24, 25, 26, 28, 29, 30, 31, 50].contains c

/-- Whether a trap goes to the S-mode handler: its delegation bit is set and the hart is below M-mode (R332, R355). -/
def Hart.delegates (h : Hart) (interrupt : Bool) (code : Nat) : Bool :=
  h.mode != .m && (if interrupt then h.csr.mideleg.getLsbD code else delegableCause code && h.csr.medeleg.getLsbD code)

/-- The CSRs of a mode that a trap's entry writes whole: pc, cause and value, whose poison marks go (R332, R361). -/
def Hart.savedClean (h : Hart) (first : Nat) : List Nat := h.cpoison.filter fun n => decide (n < first) || decide (first + 2 < n)

/-- Whether a trap's entry reads a poisoned register: the status, the delegation where it is looked at, the vector, and for an
interrupt what makes it pending and enabled (R332, R361, R362; DESIGN CHOICE, log 64). -/
def Hart.trapBad (h : Hart) (interrupt : Bool) (code : Nat) : Bool :=
  h.csrBad 0x300 || h.csrBad (if h.delegates interrupt code then 0x105 else 0x305)
    || (h.mode != .m && (if interrupt then h.csrBad 0x303 else delegableCause code && h.csrBad 0x302))
    || (interrupt && (h.csrBad 0x304 || h.csrBad 0x344))

/-- The trap's entry: pc and status are saved, the mode changes, the pc goes to the handler (R332). PRESUMED, log 21. -/
def Hart.entered (h : Hart) (interrupt : Bool) (code : Nat) (tval epc : Word) : Hart :=
  let ms := h.csr.mstatus.toNat
  let run := match h.run with
    | .task t => .task { t with trapDepth := t.trapDepth + 1
                                mcAt := if t.mcAt = 0 && !interrupt && (code == 48 || code == 49) then t.trapDepth + 1 else t.mcAt }
    | r => r
  let h := { h with run := run, wait := none, trap := none, posting := none, progress := 0, attempts := 0, nest := h.nest + 1, la := [] }
  if h.delegates interrupt code then
    { h with
      mode := .s
      pc := tvecTarget h.csr.stvec interrupt code
      cpoison := h.savedClean 0x141
      csr := { h.csr with
        scause := causeWord interrupt code, stval := tval, sepc := epc
        mstatus := BitVec.ofNat 64 (putBits (putBits (putBits ms 5 1 (bitsAt ms 1 1)) 1 1 0) 8 1 (b2n (h.mode == .s))) } }
  else
    { h with
      mode := .m
      pc := tvecTarget h.csr.mtvec interrupt code
      cpoison := h.savedClean 0x341
      csr := { h.csr with
        mcause := causeWord interrupt code, mtval := tval, mepc := epc
        mstatus := BitVec.ofNat 64 (putBits (putBits (putBits ms 7 1 (bitsAt ms 3 1)) 3 1 0) 11 2 h.mode.num) } }

/-- The trap's entry, with the poison that it consumes (R332, R362). -/
def Hart.enterTrap (h : Hart) (interrupt : Bool) (code : Nat) (tval epc : Word) : Hart :=
  (h.entered interrupt code tval epc).eats (h.trapBad interrupt code)

/-- Whether a cause names a memory fault of the lineage's first rows (R335). -/
def memCause (c : Nat) : Bool := [1, 5, 7, 12, 13, 15, 50].contains c

/-- How the lineage sees a rewinding cause. -/
def rewindOf (cause : Nat) (tval : Word) : Rewind :=
  if memCause cause then .fault (tval &&& ~~~(0xFFF : Word))
  else if cause = 26 then .progress
  else .plain

/-- Fields of an instruction that a machine-check record holds: CLASS and FUNCT of a 48-bit instruction, funct7 of a custom-0
one (R354). -/
def mcFunct (bits : Nat) : Nat :=
  if bits % 64 = 0x1F then bitsAt bits 6 3 * 2 ^ 31 + bitsAt bits 9 7 * 2 ^ 24
  else if bits % 128 = 0x0B then bitsAt bits 25 7 * 2 ^ 24
  else 0

/-- `mcrec0` (R354). -/
def mcrec0Word (cause elem bits : Nat) (i : McInfo) : Word :=
  BitVec.ofNat 64 (2 ^ 63 + 2 ^ 61 * b2n i.psn + 2 ^ 48 * cause + 2 ^ 44 * i.src + 2 ^ 42 * i.dclass
    + 2 ^ 41 * b2n i.lane.isSome + 2 ^ 36 * i.lane.getD 0 + 2 ^ 34 * i.attempts
    + (if i.insn.isSome then 0 else mcFunct bits) + elem % 65536)

/-- The records of a machine check (R354). -/
def Hart.writeRecords (h : Hart) (cause elem bits : Nat) (i : McInfo) : Hart :=
  let strip := match h.vec.strip with | some j => j.pc.toNat % 2 ^ 48 | none => 0
  { h with
    mcrec0 := mcrec0Word cause elem bits i
    mcrec1 := i.pc.getD h.pc
    mcrec2 := BitVec.ofNat 64 (2 ^ 48 * i.mlane + (i.insn.getD bits) % 2 ^ 48)
    mcrec3 := BitVec.ofNat 64 ((if h.isVc then h.vec.vl % 65536 * 2 ^ 48 else 0) + strip) }

/-- A second machine check before `mcack` (R356): OVER, a forced stop, and the core is fenced. DEDUCED, log 92. -/
def State.fence (s : State) : State :=
  let n := s.cpu.num
  let d := s.hartDomain n
  let s := { s with cpu := { s.cpu with mcrec0 := s.cpu.mcrec0 ||| 0x4000000000000000 } }
  let s := s.charge d.1 2 d.2
  let s := s.cpu.prefetch.foldl (fun s id => s.sendBack id) s
  let s := if s.cpu.task.isSome then s.forcedStop n else s
  { s with cpu := { s.cpu with run := .fenced, wait := none, trap := none } }

/-- An exception whose commit of the older stores has to wait is kept and taken after it (R54). DEDUCED, log 93. -/
def State.keepTrap (s : State) (e : Exc) (bits : Nat) (w : WaitOn) : State :=
  { s with cpu := { s.cpu with wait := some ⟨w, 0, 0, false⟩, trap := some (e, bits) } }

/-- `sfinfo` at a trap that names an element (R337). -/
def Vec.noteTrap (v : Vec) (e : Exc) : Vec :=
  match e.elem with
  | some n => { v with sfElem := BitVec.ofNat 16 n, sfCause := BitVec.ofNat 8 e.cause }
  | none => v

/-- SRC of a record of PSN: the vector unit used the value where the instruction is one of its own (R354). -/
def McInfo.forBits (i : McInfo) (isVc : Bool) (bits : Nat) : McInfo :=
  if i.psn && isVc && bits % 64 == 0x1F then { i with src := 0 } else i

/-- A machine check, cause 48 or 49 (R351 to R356, R363): an opened strip is rewound, an implicit one commits; the records
are written and the trap goes to M-mode. A hart that has not acknowledged the last one is fenced. -/
def State.machineCheck (s : State) (e : Exc) (i : McInfo) (bits : Nat) : State :=
  let was := s.cpu
  let elem := e.elem.getD 0
  if was.mcrec0.getLsbD 63 then s.fence
  else
    let rewinds := was.vec.strip.isSome && e.rewinds
    let r : State × Option WaitOn :=
      if rewinds then (s.rewindFor (if i.psn then .plain else .residue) elem e.cause, none) else s.commit
    match r.2 with
    | some w => r.1.keepTrap e bits w
    | none =>
      let s := r.1
      let v := if !rewinds && bits % 64 == 0x1F then s.cpu.vec.noteTrap e else s.cpu.vec
      let recs := was.writeRecords e.cause elem bits (i.forBits was.isVc bits)
      let s := { s with cpu := { s.cpu with
        vec := { v with resReplay := false }
        mcrec0 := recs.mcrec0, mcrec1 := recs.mcrec1, mcrec2 := recs.mcrec2, mcrec3 := recs.mcrec3 } }
      let d := s.hartDomain s.cpu.num
      let s := s.charge d.1 2 d.2
      { s with cpu := s.cpu.enterTrap false e.cause e.tval s.cpu.pc }

/-- A hart that leaves the hinge withdraws its join (R254). -/
def State.leaveHinge (s : State) : State :=
  match s.cpu.wait with
  | some ⟨.hinge _, _, _, _⟩ =>
    let c := s.cpu.cluster
    let k := s.cpu.row
    s.setRow c k { s.row c k with joins := (s.row c k).joins.filter (·.col != s.cpu.col) }
  | _ => s

/-- Takes an exception on the hart whose turn it is (R331 to R337). A rewinding cause in an opened strip rewinds it and
returns to its `vstrip`; any other commits the older stores and is taken at its instruction. `bits` are the instruction's. DEDUCED, log 93. -/
def State.takeTrap (s : State) (e : Exc) (bits : Nat) : State :=
  let s := s.leaveHinge
  match e.mc with
  | some i => s.machineCheck e i bits
  | none =>
    if s.cpu.vec.strip.isSome && e.rewinds then
      let s := s.rewindFor (rewindOf e.cause e.tval) (e.elem.getD 0) e.cause
      { s with cpu := s.cpu.enterTrap false e.cause e.tval s.cpu.pc }
    else
      let r := s.commit
      match r.2 with
      | some w => r.1.keepTrap e bits w
      | none =>
        let s := r.1
        let h := { s.cpu with vec := s.cpu.vec.noteTrap e }
        { s with cpu := h.enterTrap false e.cause e.tval h.pc }

/-- Takes an interrupt (R54, R334, R337): an opened strip is rewound first, an implicit one commits. -/
def State.takeInterrupt (s : State) (code : Nat) : State :=
  let s := s.leaveHinge
  if s.cpu.vec.strip.isSome then
    let s := s.rewindFor .plain 0 (0x80 + code)
    { s with cpu := s.cpu.enterTrap true code 0 s.cpu.pc }
  else
    let r := s.commit
    match r.2 with
    | some w => { r.1 with cpu := { r.1.cpu with wait := some ⟨w, 0, 0, false⟩ } }
    | none => { r.1 with cpu := r.1.cpu.enterTrap true code 0 r.1.cpu.pc }

/-- A full strip buffer, or a ninth message, in an opened strip (R336): a rewind without a trap, or STRIPOVF at vl = 1. -/
def State.overflowed (s : State) (elem : Nat) (va : Word) : State :=
  match s.cpu.vec.strip with
  | none => s
  | some j =>
    if j.vl = 1 then
      let s := s.rewindFor .plain elem 31
      { s with cpu := s.cpu.enterTrap false 31 va s.cpu.pc }
    else s.rewindFor .overflow elem 31

/-- The mode a saved MPP names; an absent one returns to U-mode (R332). -/
def modeOf (n : Nat) : Mode :=
  match n with
  | 1 => .s | 3 => .m | _ => .u

/-- Leaves one trap level (R400). -/
def Hart.leaveTrap (h : Hart) : Hart :=
  let run := match h.run with
    | .task t => .task { t with
        trapDepth := t.trapDepth - 1, mcAt := if t.mcAt = t.trapDepth then 0 else t.mcAt }
    | r => r
  { h with run := run, nest := h.nest - 1 }

/-- A return to an address other than a rewound strip's `vstrip` abandons the replay (R334), and one to an address other than a
partly written window instruction's gives up its record (R116): each only where the return leaves the last handler entered since.
DEDUCED, log 104. -/
def Hart.returnTo (h : Hart) (pc : Word) : Hart :=
  let v := match h.vec.replayPc with
    | some p => if p = pc || h.vec.replayDepth < h.nest then h.vec else h.vec.clearLineage
    | none => h.vec
  { h with pc := pc, vec := v, winDone := h.winDone.filter fun w => decide (w.depth < h.nest) || (w.depth == h.nest && w.pc == pc) }

/-- Return from an M-mode trap (R332): pc, mode and interrupt enable come from `mepc` and `mstatus`. -/
def Hart.mret (h : Hart) : Hart :=
  let ms := h.csr.mstatus.toNat
  let mode := modeOf (bitsAt ms 11 2)
  let ms := putBits (putBits (putBits ms 3 1 (bitsAt ms 7 1)) 7 1 1) 11 2 0
  let ms := if mode = .m then ms else putBits ms 17 1 0
  let h := { h.leaveTrap with mode := mode, csr := { h.csr with mstatus := BitVec.ofNat 64 ms }, resv := none, wait := none }
  h.returnTo h.csr.mepc

/-- Return from an S-mode trap (R332). -/
def Hart.sret (h : Hart) : Hart :=
  let ms := h.csr.mstatus.toNat
  let mode : Mode := if bitAt ms 8 then .s else .u
  let ms := putBits (putBits (putBits (putBits ms 1 1 (bitsAt ms 5 1)) 5 1 1) 8 1 0) 17 1 0
  let h := { h.leaveTrap with mode := mode, csr := { h.csr with mstatus := BitVec.ofNat 64 ms }, resv := none, wait := none }
  h.returnTo h.csr.sepc

/-! ### From bodies to meanings -/

/-- A wait of a vector instruction is timed whatever it waits for (R344). -/
def Wait.timedBy (w : Wait) (bits : Nat) : Wait := if bits % 64 == 0x1F then { w with timed := true } else w

/-- What a body's outcome is for the machine: every stop of a body is a next state, in which the trap is taken, the hart
waits, or the strip is rewound. -/
def finish (bits : Word) (r : Except Stop Unit × State) : Host.Outcome State Fault Refusal :=
  match r.1 with
  | .ok _ => .next r.2
  | .error (.exc e) => .next (r.2.takeTrap e bits.toNat)
  | .error (.excBits c) => .next (r.2.takeTrap (.plain c bits) bits.toNat)
  | .error (.wait w) => .next { r.2 with cpu := { r.2.cpu with wait := some (w.timedBy bits.toNat) } }
  | .error (.overflow e va) => .next (r.2.overflowed e va)
  | .error .ended => .next r.2

/-- Runs a body whose instruction bits are given. -/
def run (bits : Word) (m : M Unit) (s : State) : Host.Outcome State Fault Refusal := finish bits (m.run.run s)

/-- The meaning of a fetched instruction: its body, then the advance past it. -/
def instr (i : Instr) (body : M Unit) (s : State) : Host.Outcome State Fault Refusal :=
  run (instrBits i) (do body; advance (instrLen i)) s

/-- The meaning of a fetched instruction that sets the pc itself. -/
def instrJump (i : Instr) (body : M Unit) (s : State) : Host.Outcome State Fault Refusal :=
  run (instrBits i) body s

/-- The meaning of a step of the device or of its surroundings. -/
def happens (f : State → State) (s : State) : Host.Outcome State Fault Refusal := .next (f s)

/-- The meaning of a step of an engine: a fatal event stops every engine (R390). -/
def engineStep (f : State → State) (s : State) : Host.Outcome State Fault Refusal :=
  happens (fun s => if s.power.fatal.isSome then s else f s) s

end Sys2Proof.Machine
end

