-- ==== Sys2Proof/Machine/Base.lean ====
section
/-! DEFINITION. The standard integer instructions that have no row of their own in the opcode table: RV64I computation and
control flow, M, Zba and Zbb (R16, R152). -/

namespace Sys2Proof.Machine

/-- The low 32 bits of a word, sign-extended. -/
def sx32 (w : Word) : Word := sextWord 32 w.toNat

/-- Signed division of RV64M: by zero −1, overflow wraps. -/
def sdiv (n : Nat) (a b : Int) : Word :=
  if b = 0 then BitVec.ofInt 64 (-1) else BitVec.ofInt 64 (signedOf n (unsignedOf n (a.tdiv b)))
/-- Signed remainder of RV64M: by zero the dividend. -/
def srem (a b : Int) : Word := if b = 0 then BitVec.ofInt 64 a else BitVec.ofInt 64 (a.tmod b)

/-- The result of a two-operand operation. -/
def aluEval (op : AluOp) (a b : Word) : Word :=
  let sh := b.toNat % 64
  let sh32 := b.toNat % 32
  let a32 := a.toNat % 2 ^ 32
  let b32 := b.toNat % 2 ^ 32
  let uw := BitVec.ofNat 64 a32
  match op with
  | .add => a + b
  | .sub => a - b
  | .sll => a <<< sh
  | .slt => if a.toInt < b.toInt then 1 else 0
  | .sltu => if a.toNat < b.toNat then 1 else 0
  | .xor => a ^^^ b
  | .srl => a >>> sh
  | .sra => a.sshiftRight sh
  | .or => a ||| b
  | .and => a &&& b
  | .addw => sx32 (a + b)
  | .subw => sx32 (a - b)
  | .sllw => sextWord 32 (a32 * 2 ^ sh32)
  | .srlw => sextWord 32 (a32 / 2 ^ sh32)
  | .sraw => BitVec.ofInt 64 (signedOf 32 a32 / 2 ^ sh32)
  | .mul => a * b
  | .mulh => BitVec.ofInt 64 (a.toInt * b.toInt / 2 ^ 64)
  | .mulhsu => BitVec.ofInt 64 (a.toInt * (b.toNat : Int) / 2 ^ 64)
  | .mulhu => BitVec.ofNat 64 (a.toNat * b.toNat / 2 ^ 64)
  | .div => sdiv 64 a.toInt b.toInt
  | .divu => if b = 0 then BitVec.ofInt 64 (-1) else BitVec.ofNat 64 (a.toNat / b.toNat)
  | .rem => srem a.toInt b.toInt
  | .remu => if b = 0 then a else BitVec.ofNat 64 (a.toNat % b.toNat)
  | .mulw => sx32 (a * b)
  | .divw => sdiv 32 (signedOf 32 a32) (signedOf 32 b32)
  | .divuw => if b32 = 0 then BitVec.ofInt 64 (-1) else sextWord 32 (a32 / b32)
  | .remw => srem (signedOf 32 a32) (signedOf 32 b32)
  | .remuw => if b32 = 0 then sextWord 32 a32 else sextWord 32 (a32 % b32)
  | .adduw => uw + b
  | .sh1add => a * 2 + b
  | .sh2add => a * 4 + b
  | .sh3add => a * 8 + b
  | .sh1adduw => uw * 2 + b
  | .sh2adduw => uw * 4 + b
  | .sh3adduw => uw * 8 + b
  | .slliuw => uw <<< sh
  | .andn => a &&& ~~~b
  | .orn => a ||| ~~~b
  | .xnor => ~~~(a ^^^ b)
  | .min => if a.toInt < b.toInt then a else b
  | .minu => if a.toNat < b.toNat then a else b
  | .max => if a.toInt < b.toInt then b else a
  | .maxu => if a.toNat < b.toNat then b else a
  | .rol => a.rotateLeft sh
  | .ror => a.rotateRight sh
  | .rolw => sextWord 32 ((BitVec.ofNat 32 a32).rotateLeft sh32).toNat
  | .rorw => sextWord 32 ((BitVec.ofNat 32 a32).rotateRight sh32).toNat
  | .zexth => BitVec.ofNat 64 (a.toNat % 2 ^ 16)

/-- Leading zeros in the low n bits. -/
def leadZeros (n v : Nat) : Nat := n - bitLen (v % 2 ^ n)
/-- Trailing zeros in the low n bits. -/
def trailZeros (n v : Nat) : Nat := ((List.range n).find? fun i => bitAt v i).getD n
/-- Set bits among the low n. -/
def countOnes (n v : Nat) : Nat := ((List.range n).filter fun i => bitAt v i).length

/-- The result of a one-operand operation of Zbb. -/
def unEval (op : UnOp) (a : Word) : Word :=
  let v := a.toNat
  match op with
  | .clz => BitVec.ofNat 64 (leadZeros 64 v)
  | .ctz => BitVec.ofNat 64 (trailZeros 64 v)
  | .cpop => BitVec.ofNat 64 (countOnes 64 v)
  | .clzw => BitVec.ofNat 64 (leadZeros 32 v)
  | .ctzw => BitVec.ofNat 64 (trailZeros 32 v)
  | .cpopw => BitVec.ofNat 64 (countOnes 32 v)
  | .sextb => sextWord 8 v
  | .sexth => sextWord 16 v
  | .orcb => BitVec.ofNat 64 (ofBytes ((bytesOf 8 v).map fun b => if b = 0 then 0 else 0xFF))
  | .rev8 => BitVec.ofNat 64 (ofBytes (bytesOf 8 v).reverse)

/-- Whether a branch is taken. -/
def brTaken (op : BrOp) (a b : Word) : Bool :=
  match op with
  | .eq => a == b
  | .ne => a != b
  | .lt => decide (a.toInt < b.toInt)
  | .ge => decide (b.toInt ≤ a.toInt)
  | .ltu => decide (a.toNat < b.toNat)
  | .geu => decide (b.toNat ≤ a.toNat)

/-- Counts an instruction that set the pc itself as retired. -/
def Hart.jumped (h : Hart) (pc : Word) : Hart := { h.advance 0 with pc := pc }

/-- The meaning of a standard integer instruction, its length in bytes given. A poisoned operand of a branch or of an
indirect jump is used for other than data (R363). -/
def baseBody (n : Nat) (b : Base) : M Unit :=
  let jump (pc : Word) : M Unit := modCpu (·.jumped pc)
  match b with
  | .lui rd imm => do putX rd (sextWord 32 (imm.toNat * 4096)); advance n
  | .auipc rd imm => do putX rd ((← cpu).pc + sextWord 32 (imm.toNat * 4096)); advance n
  | .jal rd off => do
    let pc := (← cpu).pc
    putX rd (pc + BitVec.ofNat 64 n)
    jump (pc + sextWord 21 off.toNat)
  | .jalr rd rs1 imm => do
    let pc := (← cpu).pc
    let t := ((← useX rs1) + sextWord 12 imm.toNat) &&& ~~~(1 : Word)
    putX rd (pc + BitVec.ofNat 64 n)
    jump t
  | .branch op rs1 rs2 off => do
    let a ← useX rs1
    let c ← useX rs2
    if brTaken op a c then jump ((← cpu).pc + sextWord 13 off.toNat) else advance n
  | .immOp op rd rs1 imm => do
    let h ← cpu
    consume (h.xPoisoned rs1)
    putXp rd (aluEval op (h.xr rs1) imm) (h.xPoisoned rs1)
    advance n
  | .regOp op rd rs1 rs2 => do
    let h ← cpu
    let p := h.xPoisoned rs1 || h.xPoisoned rs2
    consume p
    putXp rd (aluEval op (h.xr rs1) (h.xr rs2)) p
    advance n
  | .unary op rd rs1 => do
    let h ← cpu
    consume (h.xPoisoned rs1)
    putXp rd (unEval op (h.xr rs1)) (h.xPoisoned rs1)
    advance n

/-- A standard integer instruction, with its bits. -/
def execBase (b : Base) (form : Form) (bits : Nat) (s : State) : Host.Outcome State Fault Refusal :=
  run (BitVec.ofNat 64 bits) (baseBody form.len b) s

end Sys2Proof.Machine
end

