-- ==== Sys2Proof/Machine/EngMem.lean ====
section
/-! DEFINITION. Memory as engines and weight chains access it, and engine fault records (R32, R80, R84, R102, R338 to R340,
R382). -/

namespace Sys2Proof.Machine

/-- A failed engine access: its cause, the address, whether it was a write, and the host-file mark (R339). -/
structure EngFault where
  cause : Nat
  va : Word
  write : Bool
  hostfile : Bool
deriving DecidableEq, Repr

/-- Why an engine's access does not complete: it failed, or it stalls on a bank's mode change (R84). -/
inductive EngStop where
  | fault (f : EngFault)
  | stall
deriving DecidableEq, Repr

/-- Computations of engines and chains: a stop keeps the accesses performed before it, and the Bool says whether poison has been
consumed so far, by a failing access too (R362). -/
abbrev AccM (ε : Type) := ExceptT ε (StateT State (StateM Bool))
/-- Computations of an engine. -/
abbrev EngM := AccM EngStop

/-- Runs such a computation: what it comes to, the state, and whether it has consumed poison. -/
def runAcc {ε α : Type} (m : AccM ε α) (s : State) : Except ε α × State × Bool :=
  let r := (m.run.run s).run false
  (r.1.1, r.1.2, r.2)

/-- The context consumes poison (R362). -/
def accEats {ε : Type} (p : Bool) : AccM ε Unit := fun s b => (((.ok (), s), b || p) : (Except ε Unit × State) × Bool)
/-- Whether the context has consumed poison so far. -/
def accAte {ε : Type} : AccM ε Bool := fun s b => (((.ok b, s), b) : (Except ε Bool × State) × Bool)

/-- Where an engine accesses memory from: its cluster, and the context of its poster. -/
structure Eng where
  cl : Nat
  ctx : Ctx
deriving DecidableEq, Repr

/-- The context of a poster. DEDUCED, log 58. -/
def engOf (cl : Nat) (satp : Word) (mode : Mode) : Eng := ⟨cl, ⟨satp, mode, false, false⟩⟩

/-- Raises an engine fault at an address. -/
def engFault {α : Type} (cause : Nat) (va : Word) (write hostfile : Bool) : EngM α := throw (.fault ⟨cause, va, write, hostfile⟩)

/-- What the region rules say of an engine's access, in the form of R80: MMIO never (R34). -/
def State.engVerdict (s : State) (write : Bool) (pa : Nat) : Verdict :=
  if write then s.storeVerdict false pa 1 .m else s.loadVerdict false pa 1 .m

/-- Translates and checks one part of an engine access. -/
def engCheck (e : Eng) (write : Bool) (va : Word) : EngM Xlat := do
  let s ← get
  match engineXlat s e.cl e.ctx (if write then .store else .load) va with
  | .error f => do
    accEats (s.walkBad [] e.cl e.ctx va false)
    set (s.missed [] e.cl e.ctx.satp va)
    engFault f.cause va write f.hostfile
  | .ok (x, t) => do
    accEats (s.walkBad [] e.cl e.ctx va true)
    set t
    match t.engVerdict write x.pa with
    | .ok => return x
    | .fault c => engFault c va write x.hostfile
    | .wait _ => throw .stall

/-- An access of n bytes cut at 4 KiB boundaries; the fuel bounds the parts. -/
def engParts : (fuel : Nat) → Word → Nat → List (Word × Nat)
  | 0, _, _ => []
  | f + 1, va, n =>
    let k := 4096 - va.toNat % 4096
    if n = 0 then [] else if n ≤ k then [(va, n)] else (va, k) :: engParts f (va + BitVec.ofNat 64 k) (n - k)

/-- Parts of an access of n bytes. -/
def engCut (va : Word) (n : Nat) : List (Word × Nat) := engParts (n / 4096 + 2) va n

/-- n bytes of the twin's memory, whose content is the other side's (R35). -/
def twinBytes (va : Word) (n : Nat) (hostfile : Bool) : EngM (List Byte × Bool) := do
  let s ← get
  let k := ceilDiv n 8
  set { s with free := s.free + k }
  if Config.completerAborts s.free then engFault 5 va false hostfile
  else return (((List.range k).flatMap fun i => bytesOf 8 (Config.twinData (s.free + i)).toNat).take n, false)

/-- Reads the physical bytes of one checked part; a read of LPDDR6 goes through the L2 (R92, R100). -/
def engReadPhys (x : Xlat) (va : Word) (n : Nat) : EngM (List Byte × Bool) := do
  let pa := x.pa
  match regionOf pa with
  | .host bus => do
    let s ← get
    if s.hostAborts bus then engFault 5 va false x.hostfile else return (s.hostBytes bus n, false)
  | .twin _ => twinBytes va n x.hostfile
  | _ => do
    let s ← get
    set (s.l2Fill pa n x.dom)
    return (memBytes s.mem pa n, s.poisonedAt pa n)

/-- Reads parts in order; poison is consumed where the bytes are read, not only moved (R362). -/
def engReadParts (e : Eng) (reads : Bool) : List (Word × Nat) → EngM (List Byte × Bool)
  | [] => return ([], false)
  | p :: r => do
    let x ← engCheck e false p.1
    let a ← engReadPhys x p.1 p.2
    accEats (reads && a.2)
    let b ← engReadParts e reads r
    return (a.1 ++ b.1, a.2 || b.2)

/-- An engine's read of n bytes: the bytes, and whether any is poisoned. -/
def engRead (e : Eng) (va : Word) (n : Nat) : EngM (List Byte × Bool) := engReadParts e true (engCut va n)

/-- Writes the physical bytes of one checked part; what goes to the host window reaches the host's memory, what goes to the twin
window leaves the module. -/
def State.engWritePhys (s : State) (pa : Nat) (data : List Byte) (bad : Bool) (dom : Option (BitVec 12)) : State :=
  match regionOf pa with
  | .lpddr | .csram _ _ _ => s.visWriteIn none dom pa data bad
  | .host bus => s.hostWrite bus data
  | _ => s

/-- Writes parts in order. -/
def engWriteParts (e : Eng) (bad : Bool) : List (Word × Nat) → List Byte → EngM Unit
  | [], _ => pure ()
  | p :: r, data => do
    let x ← engCheck e true p.1
    modify fun s => s.engWritePhys x.pa (data.take p.2) bad x.dom
    engWriteParts e bad r (data.drop p.2)

/-- An engine's write: the parts before a failing one are written. -/
def engWrite (e : Eng) (va : Word) (data : List Byte) (bad : Bool) : EngM Unit := engWriteParts e bad (engCut va data.length) data

/-! ### Completion records (R165, R265) -/

/-- The bit at which a command's CREC field begins, none where R165 gives it none. -/
def crecBit (words : Nat) : Option Nat :=
  match bitsAt words 8 4, bitsAt words 0 8 with
  | 1, 1 => some 160
  | 1, 2 => some 112
  | 1, 3 => some 64
  | 2, op => if 1 ≤ op ∧ op ≤ 6 then some 128 else none
  | _, _ => none

/-- The address of a command's completion record, none where it writes none (R165, R265). -/
def crecOf (words : Nat) : Option Word :=
  match crecBit words with
  | none => none
  | some b => if bitsAt words b 48 = 0 ∨ bitsAt words b 48 % 32 ≠ 0 then none else some (sextWord 48 (bitsAt words b 48))

/-- The 32 bytes of a completion record. -/
def recordBytes (seq words status bytes aux : Nat) : List Byte :=
  bytesOf 8 seq ++ bytesOf 1 status ++ bytesOf 1 (bitsAt words 0 8) ++ bytesOf 1 (bitsAt words 8 4)
    ++ bytesOf 1 (if bitsAt words 8 4 = 1 then bitsAt words 16 8 else 0) ++ bytesOf 4 0 ++ bytesOf 8 bytes ++ bytesOf 8 aux

/-- Runs an access and returns its failure as a value. -/
def engTry {α : Type} (m : EngM α) : EngM (Except EngFault α) := do
  let r := runAcc m (← get)
  accEats r.2.2
  match r.1 with
  | .ok a => do
    set r.2.1
    return .ok a
  | .error (.fault f) => do
    set r.2.1
    return .error f
  | .error .stall => throw .stall

/-! ### Fault records (R338 to R340, R382) -/

/-- What a fault record says beside its STAMP (R339). -/
structure FaultRec where
  seq : Nat
  cause : Nat
  src : Nat
  ctx : Nat
  write : Bool
  hostfile : Bool
  handle : Nat
  va : Word
  satp : Word
  rcb : Word
  cmd : Word
  hart : Nat
deriving DecidableEq, Repr

/-- The first 56 bytes of a record. -/
def FaultRec.bytes (f : FaultRec) : List Byte :=
  bytesOf 8 f.seq ++ bytesOf 1 f.cause ++ bytesOf 1 f.src ++ bytesOf 1 f.ctx ++ bytesOf 1 (b2n f.write + 2 * b2n f.hostfile)
    ++ bytesOf 4 f.handle ++ bytesOf 8 f.va.toNat ++ bytesOf 8 f.satp.toNat ++ bytesOf 8 f.rcb.toNat ++ bytesOf 8 f.cmd.toNat
    ++ bytesOf 2 f.hart ++ bytesOf 6 0

/-- Offset of register f (0 EFBASE, 1 EFCFG, 2 EFPROD, 3 EFCONS, 4 EFWAKE, 5 EFLOST) of cluster c's fault queue (R338). -/
def efOff (c f : Nat) : Nat := 0x3000 + c * 0x40 + f * 8
/-- EFCFG resets to LOG2N 6. -/
def efCfg (s : State) (c : Nat) : Nat := (s.mmioGet (efOff c 1) 0x60000).toNat
/-- LOG2N. -/
def efLog (s : State) (c : Nat) : Nat := bitsAt (efCfg s c) 16 5

/-- Whether a queue takes a record now: EN set and space (R338, R382). -/
def State.efSpace (s : State) (c : Nat) : Bool :=
  bitAt (efCfg s c) 63 && decide ((s.mmioGet (efOff c 2) 0 - s.mmioGet (efOff c 3) 0).toNat < 2 ^ efLog s c)

/-- Writes one record and notifies the server where the queue was empty (R338 to R340). -/
def State.efPut (s : State) (c : Nat) (bs : List Byte) : State :=
  let prod := s.mmioGet (efOff c 2) 0
  let n := efLog s c
  let at_ := bitsAt (s.mmioGet (efOff c 0) 0).toNat 12 40 * 4096 + 64 * (prod.toNat % 2 ^ n)
  let stamp := 2 ^ 63 * b2n (bitAt prod.toNat n) + s.dquNow % 2 ^ 63
  let s1 := s.devWrite at_ (bs ++ bytesOf 8 stamp)
  let s2 := s1.mmioSet (efOff c 2) 0 (prod + 1)
  let cfg := efCfg s c
  if bitAt cfg 62 && prod == s.mmioGet (efOff c 3) 0 then
    s2.send (deviceMsg .faultQueue c (bitsAt cfg 4 8) (bitsAt cfg 12 4) (bytesOf 8 prod.toNat ++ bytesOf 24 0))
  else s2

/-- Records a queue holds back (R382). -/
def heldLimit : Nat := 16

/-- A fault record for cluster c: written, held behind those already held, or dropped (R382). -/
def State.faultRecord (s : State) (c : Nat) (f : FaultRec) : State :=
  let held := tabGet [] s.held c
  if held.isEmpty && s.efSpace c then s.efPut c f.bytes
  else if held.length < heldLimit then { s with held := tabInsert s.held c (held ++ [f.bytes]) }
  else
    let lost := bitsAt (s.mmioGet (efOff c 5) 0).toNat 0 32
    (s.bumpSat (efOff c 5) 32) |> fun t => if lost = 0 then t.portEvent 7 c else t

/-- A held record is written once space frees (R382). -/
def State.heldWrite (s : State) (c : Nat) : State :=
  match tabGet [] s.held c with
  | [] => s
  | f :: r => if s.efSpace c then ({ s with held := tabSet [] s.held c r }).efPut c f else s

/-- The RCB address of a job, 0 for none. -/
def State.rcbOf (s : State) (job : Option Nat) : Word :=
  match job with
  | some id => (match s.job? id with | some j => j.addr | none => 0)
  | none => 0

/-- The record of a poisoned stream descriptor (R363): a defect, CAUSE 2. The table of R339 names no SRC and CTX for the
transfer unit; both are free values (DESIGN CHOICE, log 105). -/
def State.defectRecord (s : State) (a : Word) : State :=
  let h := s.cpu
  let o := (Config.freeWord s.free).toNat
  let job := if h.act.isSome then none else h.task.map (·.job)
  ({ s with free := s.free + 1 }).faultRecord h.cluster
    ⟨0, 2, o % 256, o / 256 % 256, false, false, 0, 0, h.csr.satp, s.rcbOf job, a, h.num⟩

/-- The first address of a faulting page. -/
def pageOf (va : Word) : Word := va &&& ~~~(0xFFF : Word)

end Sys2Proof.Machine
end

