-- ==== Sys2Proof/Machine/Due.lean ====
section
/-! DEFINITION. What has to happen before the next instruction: the steps that the passing of time or the state itself
forces, the passing of time (R66, R73 to R75, R310 to R313, R344 to R346, R400), and the header of a chain's next block, for which
an interrupt may have to wait (R84, R278, R289). -/

namespace Sys2Proof.Machine

/-- Whether the element-progress timer of a waiting core runs (R344): in a wait of R171 and in any wait of a vector instruction,
not while a chain runs for it, nor on a stream core. DEDUCED, log 50. -/
def Hart.timed (h : Hart) : Bool :=
  h.isVc && h.vec.vprogtmo != 0 &&
    match h.wait with
    | some w =>
      w.timed || (match w.on with
       | .chain | .wfi | .messages | .modeChange _ | .credit => false
       | _ => true)
    | none => false

/-- A budget that counts, after n cycles: it stops at zero (R66). -/
def spendBudget (b : BitVec 32) (n : Nat) : BitVec 32 := BitVec.ofNat 32 (b.toNat - n)

/-- A hart after n cycles: its budget and its element-progress timer (R66, R344). -/
def Hart.pass (h : Hart) (n : Nat) : Hart :=
  let h := match h.task with
    | some t => if t.counts then { h with tbudget := spendBudget h.tbudget n } else h
    | none => h
  if h.timed then { h with progress := h.progress + n } else h

/-- n cycles pass; none while the clocks are stopped or the power is off (R321, R391). DESIGN CHOICE, log 23. -/
def State.passTime (s : State) (n : Nat) : State :=
  if s.power.off || s.power.frozen then s else { s with cycles := s.cycles + n } |>.mapHarts fun h => h.pass n

/-- The pending and enabled interrupt that a hart takes next (R332): M-mode ones first, in the architecture's order. -/
def Hart.pendingInt (h : Hart) : Option Nat :=
  let c := h.csr
  let pend (k : Nat) : Bool := c.mip.getLsbD k && c.mie.getLsbD k
  let mOn := h.mode != .m || bitAt c.mstatus.toNat 3
  let sOn := match h.mode with | .m => false | .s => bitAt c.mstatus.toNat 1 | .u => true
  let order := [11, 3, 7, 9, 1, 5]
  match order.find? fun k => pend k && !c.mideleg.getLsbD k && mOn with
  | some k => some k
  | none => order.find? fun k => pend k && c.mideleg.getLsbD k && sOn

/-- Whether any interrupt is pending for `wfi` (R152): enablement by mstatus and delegation do not count. -/
def Hart.wakes (h : Hart) : Bool := (h.csr.mip &&& h.csr.mie) != 0

/-- Whether a hart runs instructions at all: a fenced one does not, whatever it served (R356). -/
def Hart.runs (h : Hart) : Bool :=
  match h.run with
  | .program | .task _ => true
  | .idle => h.act.isSome
  | .fenced | .held => false

/-- Whether the module is stopped as a whole: no power, frozen clocks, or a failed start (R321, R391). After a fatal event
the cores that run no task go on (R390). -/
def Power.stopped (p : Power) : Bool := p.off || p.frozen || p.held

/-- The first job whose cliff has come, the earliest cliff first (R74). -/
def State.dueCliff (s : State) (now : Nat) : Option Nat :=
  let l := s.dqu.jobs.filterMap fun p =>
    match p.2 with
    | some j =>
      if j.live && j.abandonAt.isNone then
        (match j.cliff with | some c => if c ≤ now then some [c, p.1] else none | none => none)
      else none
    | none => none
  match l.foldl (fun k a => insertKey a k) [] with
  | [_, id] :: _ => some id
  | _ => none

/-- The first PENDING job whose release time has come (R74). -/
def State.dueRelease (s : State) (now : Nat) : Option Nat :=
  (s.dqu.jobs.find? fun p =>
    match p.2 with | some j => j.state == stPending && decide (j.release.toNat ≤ now) | none => false).map (·.1)

/-- The stop that a running task's state forces now (R66, R75, R345, R346): the signal within 40 ns of the cliff, a task that
the signal finds in an S-mode handler, the end of the grace time, the end of the budget, the progress timer. DEDUCED, log 25. -/
def Hart.dueStop (h : Hart) (now : Nat) : Option Instr :=
  match h.task with
  | none => if h.timed && decide (h.vec.vprogtmo.toNat ≤ h.progress) then some .progressTimeout else none
  | some t =>
    let grace := match t.graceAt with | some g => decide (g ≤ now) | none => false
    let signal := match t.graceAt with | some g => !t.signal && decide (g ≤ now + 1960) | none => false
    if t.mcAt == 0 && (t.stopMc || (t.counts && h.tbudget == 0)) then some .budgetExpiry
    else if grace && h.mode != .m then some .abandonGraceExpiry
    else if signal || (t.signal && decide (0 < t.trapDepth) && h.mode != .m) then some .abandonSignal
    else if grace && t.trapDepth == 0 then some .abandonGraceExpiry
    else if h.timed && decide (h.vec.vprogtmo.toNat ≤ h.progress) then some .progressTimeout
    else none

/-- Whether the wait of a chain's window write in a column has outlasted the timer of the column's core (R291). -/
def State.windowLate (s : State) (cl row : Nat) (ch : Chain) (col : Nat) : Bool :=
  match ch.since.getD col none with
  | some t =>
    let lim := (s.getHart (vcNum cl (4 * row + col))).vec.vprogtmo.toNat
    ch.begun && lim != 0 && decide (t + lim ≤ s.cycles)
  | none => false

/-- The first window wait of a chain that has timed out (R291). -/
def State.dueWindow (s : State) : Option (Nat × Nat × Nat) :=
  s.rows.findSome? fun p =>
    match p.2.chain with
    | some ch => ((List.range 4).find? (s.windowLate (p.1 / 4) (p.1 % 4) ch)).map fun c => (p.1 / 4, p.1 % 4, c)
    | none => none

/-- The start or the end of a shutdown that has to come next (R311, R313, R314). -/
def State.dueStart (s : State) : Option Instr :=
  if s.power.request = 1 then some .coldStartRequest
  else if s.power.request = 2 || (s.power.shutdown && s.drained) then some .warmStartRequest
  else if s.drainLate then some .shutdownDrainTimeout
  else none

/-- The first reclaim that has outlasted the lease cap and 200 ns, and is not yet counted (R376). -/
def State.dueReclaim (s : State) (now : Nat) : Option Instr :=
  s.dqu.reclaim.findSome? fun p =>
    match p.2 with
    | some r => if !r.late && decide (r.since + s.leaseCap r.lease + 200 < now) then some (.reclaimLate (p.1 / 4) (p.1 % 4)) else none
    | none => none

/-- The step of the deadline queue unit that has to come next: cliffs before every other event of the same instant, releases,
a freed entry for a waiting continuation, late reclaims (R74, R374, R376). -/
def State.dueJob (s : State) (now : Nat) : Option Instr :=
  match s.dueCliff now with
  | some id => some (.jobCliff id)
  | none =>
    match s.dueRelease now with
    | some id => some (.jobRelease id)
    | none => if s.dqFree != 0 && s.nextCont.isSome then some .waitingContinuationEnqueue else s.dueReclaim now

/-- The stop of a hart, or of a chain's window wait, that has to come next (R66, R75, R291, R345, R346). -/
def State.dueStop (s : State) (now : Nat) : Option (Nat × Instr) :=
  match s.liveHarts.filterMap fun h => (h.dueStop now).map fun i => (h.num, i) with
  | p :: _ => some p
  | [] => s.dueWindow.map fun w => (s.cpu.num, .woutWindowTimeout w.1 w.2.1 w.2.2)

/-! ### The header of a chain's next block (R84, R278, R289) -/

/-- The context a chain of a cluster accesses memory in. -/
def Chain.eng (ch : Chain) (cl : Nat) : Eng := engOf cl ch.satp ch.mode

/-- A unit's translation, and whether its page has R. -/
structure UnitXlat where
  x : Xlat
  r : Bool
deriving DecidableEq, Repr

/-- Translates a unit: every check but WX and R, whose failure has a status of its own. U is checked for a task in U-mode only
(R278). -/
def unitXlat (e : Eng) (s : State) (va : Word) : Except EngFault (UnitXlat × State) :=
  if e.ctx.mode == .m || !satpOn e.ctx.satp then .ok (⟨identity va, true⟩, s)
  else if !canonical va then .error ⟨13, va, false, false⟩
  else
    match lookup s [] e.cl e.ctx.satp va with
    | .error w => .error ⟨(w.fault .load).cause, va, false, (w.fault .load).hostfile⟩
    | .ok (t, _, f2) =>
      if permOk (t.perms ||| 2) { e.ctx with sum := true } .load then
        .ok (⟨⟨t.pa + (va.toNat - t.base), t.base, t.size, t.wx, t.dom, t.hostfile⟩, t.perms.getLsbD 1⟩,
          if f2 then s.fillL2Tlb e.cl e.ctx.satp va t else s)
      else .error ⟨13, va, false, t.hostfile⟩

/-- Whether the read of a chain's next header stalls on a bank's mode change (R84). -/
def State.headerStalls (s : State) (e : Eng) (ch : Chain) : Bool :=
  ch.header.isNone &&
    match unitXlat e s ch.block with
    | .ok (u, t) => (match t.engVerdict false u.x.pa with | .wait _ => true | _ => false)
    | .error _ => false

/-- Whether a chain that an interrupt would end waits to read the header that x10 then names (R84, R274, R289). -/
def State.intrStalls (s : State) (cl row : Nat) : Bool :=
  match (s.row cl row).chain with
  | some ch => s.headerStalls (ch.eng cl) ch
  | none => false

/-- Whether the hart whose turn it is waits for such a chain. -/
def State.chainStalls (s : State) : Bool :=
  match s.cpu.wait with
  | some ⟨.chain, _, _, _⟩ => s.intrStalls s.cpu.cluster s.cpu.row
  | _ => false

/-- The interrupt that the hart whose turn it is takes now: once the stores older than it can be performed, and behind a trap that
it has begun to take (R54). -/
def State.dueInterrupt (s : State) : Option Instr :=
  if s.cpu.runs && s.cpu.trap.isNone && !s.chainStalls && (s.cpu.vec.strip.isSome || s.commit.2.isNone) then
    s.cpu.pendingInt.map fun k => .interrupt (BitVec.ofNat 6 k)
  else none

/-- The step that has to come next, and the hart it concerns: starts that were asked for, what the deadline queue unit does, stops,
then a pending interrupt of the hart whose turn it is. DEDUCED, log 24. -/
def State.due (s : State) : Option (Nat × Instr) :=
  if s.power.stopped then none
  else
    let here (i : Instr) : Nat × Instr := (s.cpu.num, i)
    let now := s.dquNow
    ((((s.dueStart.map here).or ((s.dueJob now).map here)).or (s.dueStop now))).or (s.dueInterrupt.map here)

/-- The rows that are a hart's own write of a register: they come with its instructions (R9). -/
def hartWrite (i : Instr) : Bool :=
  match i with
  | .vcfgWrite _ | .lanemapWrite _ | .srvroleWrite _ | .registerWrite (.csr _) _ | .registerWrite (.mmio _ _) _
  | .bmodeWrite _ _ _ | .fqlevelReset _ _ | .flushall | .domclr _ | .clrcnt | .efwakeWrite _ _ | .tstepWrite _ _
  | .tbeacon _ _ | .txprodWrite _ _ _ | .pwrcapWrite _ | .rolelockWrite _ | .twdoorStore _ _ => true
  | _ => false

/-- What a stopped module still answers to (R321, R391). -/
def whileStopped (i : Instr) : Bool :=
  match i with
  | .powerOn | .i3cColdRequest | .powerLoss | .freeze => true
  | _ => false

/-- Whether a row may come from the agenda: an event or a step of an engine, with numbers that the module has. -/
def State.admits (s : State) (i : Instr) : Bool :=
  instrLen i == 0 && i.wf && !hartWrite i && (!s.power.stopped || whileStopped i)

/-- An L1 or L2 TLB entry may go at any time (R105). -/
def State.evictTlb (s : State) (n va : Nat) : State :=
  let s := s.modHart n fun h => { h with tlb := h.tlb.filter fun e => !(decide (e.base ≤ va) && decide (va < e.base + e.size)) }
  { s with l2tlb := s.l2tlb.filterMap fun p =>
      let l := if p.1 = clusterOf n then p.2.filter fun e => !(decide (e.base ≤ va) && decide (va < e.base + e.size)) else p.2
      if l.isEmpty then none else some (p.1, l) }

/-- An L2 tag, of a shared entry too, is evicted to make room for the next one in a slice whose tags are all in use; a dirty line is
written back (R96, R383). DEDUCED, log 81. -/
def State.evictLine (s : State) (line : Nat) : State :=
  if l2SliceTags ≤ (s.l2.tags.filter fun t => l2Slice t.line == l2Slice line).length then { s with l2 := s.l2.dropTag line } else s

end Sys2Proof.Machine
end

