-- ==== Sys2Proof/Machine/Csr.lean ====
section
/-! DEFINITION. The control and status registers: who may access each, what a read returns and what a write does
(R10, R55, R90, R152, R173, R195 to R200, R331, R332). -/

namespace Sys2Proof.Machine

/-! ### The vector configuration (R173) -/

/-- Whether a request of `vconf` is supported (R173, R357). -/
def vcfgSupported (v : Vec) (new : Nat) : Bool :=
  let nreg := 8 * 2 ^ bitsAt new 2 2
  let grp := 2 ^ bitsAt new 4 2
  bitsAt new 0 2 != 0 && decide (4 * grp ≤ nreg) && !(bitAt new 12 && decide (popLanes v.lanes < 2))

/-- The stored configuration of a supported request: RM values from 101 store 000, VBAD clears. -/
def vcfgStored (new : Nat) : Nat := if 5 ≤ bitsAt new 6 3 then putBits (new % 8192) 6 3 0 else new % 8192

/-- What unbinding leaves in a register: zero (R185). -/
def Vec.zeroReg (v : Vec) (reg : Nat) : Vec :=
  let lo := vecKey reg 0
  let cut := { v with store := v.store.filter fun p => p.1 < lo || lo + 4096 ≤ p.1
                      vpoison := v.vpoison.filter fun k => k < lo || lo + 4096 ≤ k }
  if v.epoch = 0 then cut else cut.setBytes reg 0 (List.replicate 4096 0)

/-- Zeroes the group of a register. -/
def Vec.zeroGroup (v : Vec) (reg : Nat) : Vec := (List.range v.grp).foldl (fun v i => v.zeroReg (reg + i)) v

/-- Whether a stored configuration changes EW, NREG, GRP or PROT, so that vl becomes 0 (R173). -/
def Vec.resizes (v : Vec) (st : Nat) : Bool := bitsAt st 0 6 != bitsAt v.vcfg.toNat 0 6 || bitAt st 12 != bitAt v.vcfg.toNat 12

/-- A supported `vconf` (R173): a change of NREG zeroes storage, one of EW, NREG, GRP or PROT sets vl to 0. A change of PROT
leaves the images' content open (R201; DEDUCED, log 8). -/
def Vec.configure (v : Vec) (new epoch : Nat) : Vec :=
  let old := v.vcfg.toNat
  let st := vcfgStored new
  let zero := bitsAt st 2 2 != bitsAt old 2 2
  let prot := bitAt st 12 != bitAt old 12
  { v with
    vcfg := BitVec.ofNat 64 st
    store := if zero || prot then [] else v.store
    epoch := if zero then 0 else if prot then epoch else v.epoch
    vpoison := if zero || prot then [] else v.vpoison
    vl := if v.resizes st then 0 else v.vl }

/-- Hands on a message sink's partial message, if it has one: it leaves at the next commit point (R185, R213). A ninth
message in flight commits an implicit strip first and rewinds an opened one (R191). DEDUCED, log 39. -/
def holdMsg (m : Msg) (elem : Nat) : M Unit := do
  let s ← get
  if maxInFlight ≤ s.inFlightOf s.cpu.num then
    if s.cpu.vec.strip.isSome then throw (.overflow elem 0)
    else do
      commit
      let s ← get
      if maxInFlight ≤ s.inFlightOf s.cpu.num then waitFor .messages 0 elem
      else modCpu fun h => { h with buf := .msg m :: h.buf }
  else modCpu fun h => { h with buf := .msg m :: h.buf }

/-- Closes the current message of a slot with the bytes pushed so far (R185). -/
def closeMsg (i : Nat) : M Unit := do
  let h ← cpu
  match h.vec.slots.getD i none with
  | none => pure ()
  | some sl =>
    match sl.kind with
    | .msgSink d l =>
      if sl.gathered.isEmpty then pure ()
      else do
        holdMsg (mkMsg h.num d l sl.gathered (sl.marks.any id)) 0
        modVec fun v => { v with slots := v.slots.setIfInBounds i (some { sl with gathered := [], marks := [] }) }
    | _ => pure ()

/-- Unbinds a slot (R185): pushed bytes are handed on, read-ahead is discarded, the register holds zero. -/
def unbind (i : Nat) : M Unit := do
  closeMsg i
  modVec fun v =>
    match v.slots.getD i none with
    | none => v
    | some sl => { (v.zeroGroup sl.reg) with slots := v.slots.setIfInBounds i none }

/-- Unbinds every slot. -/
def unbindAll : M Unit := do
  for i in [0, 1, 2, 3, 4, 5, 6, 7] do unbind i

/-- `vconf` with a requested configuration (R173): the value for rd. `bad` marks a configuration computed from a poisoned one (R361). -/
def setVcfg (req : Nat) (bad : Bool := false) : M Nat := do
  let new := req % 8192
  let v := (← cpu).vec
  if v.strip.isSome && bitsAt new 2 2 != bitsAt v.vcfg.toNat 2 2 then illegal
  else if !vcfgSupported v new then do
    modVec fun v => { v with vcfg := v.vcfg ||| 0x8000000000000000 }
    return 0
  else do
    if bitsAt new 2 2 != bitsAt v.vcfg.toNat 2 2 then unbindAll
    let s ← get
    modCpu (·.csrMark 0x800 bad)
    if v.resizes (vcfgStored new) then modCpu (·.csrMark 0x801 bad)
    modVec fun v => v.configure new (s.free + 1)
    if bitAt new 12 != bitAt v.vcfg.toNat 12 then modify fun s => { s with free := s.free + 1 }
    let v := (← cpu).vec
    return v.mvl * v.grp

/-! ### Reading -/

/-- Bits of mstatus that S-mode sees. -/
def sstatusMask : Word := 0x80000003000C6122
/-- Interrupts of S-mode: SSI, STI, SEI. -/
def sInts : Word := 0x222
/-- Every interrupt of the privileged architecture. -/
def allInts : Word := 0xAAA
/-- The writable bits of medeleg (R331). -/
def medelegMask : Word := 0x40000F700B3FE

/-- `mstatus` as read: no FS on a stream core; SD summarises FS. -/
def Hart.mstatusRead (h : Hart) : Word :=
  let v := h.csr.mstatus
  if h.isVc then (if bitsAt v.toNat 13 2 = 3 then v ||| 0x8000000000000000 else v) else v &&& ~~~(0x6000 : Word)

/-- The legal value stored for a written mstatus: MPP without an absent mode; FS either off or dirty (PRESUMED, log 7). -/
def mstatusStored (v : Word) : Word :=
  let n := (v &&& 0x7E79AA).toNat
  let n := if bitsAt n 11 2 = 2 then putBits n 11 2 0 else n
  let n := putBits n 13 2 (if bitsAt n 13 2 = 0 then 0 else 3)
  BitVec.ofNat 64 (0xA00000000 + n)

/-- `misa` (R152). -/
def Hart.misa (h : Hart) : Word := BitVec.ofNat 64 (2 ^ 63 + (if h.isVc then 0x94112D else 0x941105))

/-- The grant level of the core: that of the running task's class; a core without a task is held as class 3 (R28, R198;
DESIGN CHOICE, log 9). -/
def State.grantLevel (s : State) (h : Hart) : Nat :=
  let c := match h.task with
    | some t => (match s.job? t.job with | some j => j.runClass | none => 3)
    | none => 3
  s.power.grant.getD c 8

/-- `vlgrant` (R198). -/
def State.vlgrant (s : State) (h : Hart) : Nat := max 1 (h.vec.mvl * s.grantLevel h / 8)

/-- `sfinfo` (R199). -/
def Vec.sfinfo (v : Vec) : Word :=
  BitVec.ofNat 64 (v.sfElem.toNat * 2 ^ 48 + v.sfCause.toNat * 2 ^ 40 + v.replays.toNat * 2 ^ 36 + v.vlimit % 2 ^ 32)

/-- Whether a counter CSR may be read below M-mode (R152). -/
def Hart.counterOk (h : Hart) (bit : Nat) : Bool :=
  match h.mode with
  | .m => true
  | .s => h.csr.mcounteren.getLsbD bit
  | .u => h.csr.mcounteren.getLsbD bit && h.csr.scounteren.getLsbD bit

/-- The least mode that reaches a CSR, as a number: bits [9:8] of its number. -/
def csrPriv (n : Nat) : Nat := bitsAt n 8 2
/-- The mode as a number to compare with. -/
def Mode.rank : Mode → Nat
  | .u => 0 | .s => 1 | .m => 3

/-- The event counters below M-mode's own numbers: they read zero and ignore writes (R152). -/
def isHpm (n : Nat) : Bool := decide (0xC03 ≤ n) && decide (n ≤ 0xC1F)
/-- A CSR every field of which is RO (R10): by its number, or by its field map (R152, R195). DEDUCED, log 19. -/
def csrReadOnly (n : Nat) : Bool := (bitsAt n 10 2 == 3 && !isHpm n) || [0x801, 0x5C0, 0x301].contains n

/-- CSRs that read zero and ignore writes (R152): event counters and selectors, PMP. -/
def csrZero (n : Nat) : Bool :=
  (decide (0xB03 ≤ n) && decide (n ≤ 0xB1F)) || (decide (0x323 ≤ n) && decide (n ≤ 0x33F))
    || (decide (0x3A0 ≤ n) && decide (n ≤ 0x3AF) && n % 2 == 0) || (decide (0x3B0 ≤ n) && decide (n ≤ 0x3EF)) || n == 0xF15

/-- The value of a CSR; none where the core kind lacks it (R152, R195). PRESUMED, log 20. -/
def State.csrRead (s : State) (n : Nat) : Option Word :=
  let h := s.cpu
  let c := h.csr
  let v := h.vec
  let nat (k : Nat) : Option Word := some (BitVec.ofNat 64 k)
  let vc (w : Word) : Option Word := if h.isVc then some w else none
  if csrZero n then some 0
  else if isHpm n then (if h.mode == .m then some 0 else none)
  else if 0x810 ≤ n ∧ n ≤ 0x817 then vc (v.nwin.getD (n - 0x810) 0)
  else
    match n with
    | 0x001 => if bitsAt c.mstatus.toNat 13 2 = 0 then none else vc (BitVec.ofNat 64 h.fflags.toNat)
    | 0x002 => if bitsAt c.mstatus.toNat 13 2 = 0 then none else vc (BitVec.ofNat 64 h.frm.toNat)
    | 0x003 => if bitsAt c.mstatus.toNat 13 2 = 0 then none else vc (BitVec.ofNat 64 (h.frm.toNat * 32 + h.fflags.toNat))
    | 0xC00 => if h.counterOk 0 then some (BitVec.ofNat 64 s.cycles + c.mcycleOff) else none
    | 0xC01 => if h.counterOk 1 then nat (s.ctrNs h.cluster) else none
    | 0xC02 => if h.counterOk 2 then some c.minstret else none
    | 0x100 => some (h.mstatusRead &&& sstatusMask)
    | 0x104 => some (c.mie &&& c.mideleg)
    | 0x105 => some c.stvec
    | 0x106 => some c.scounteren
    | 0x10A => some c.senvcfg
    | 0x140 => some c.sscratch
    | 0x141 => some c.sepc
    | 0x142 => some c.scause
    | 0x143 => some c.stval
    | 0x144 => some (c.mip &&& c.mideleg)
    | 0x180 => if h.mode == .s && bitAt c.mstatus.toNat 20 then none else some c.satp
    | 0x300 => some h.mstatusRead
    | 0x301 => some h.misa
    | 0x302 => some c.medeleg
    | 0x303 => some c.mideleg
    | 0x304 => some c.mie
    | 0x305 => some c.mtvec
    | 0x306 => some c.mcounteren
    | 0x30A => some c.menvcfg
    | 0x340 => some c.mscratch
    | 0x341 => some c.mepc
    | 0x342 => some c.mcause
    | 0x343 => some c.mtval
    | 0x344 => some c.mip
    | 0xB00 => some (BitVec.ofNat 64 s.cycles + c.mcycleOff)
    | 0xB02 => some c.minstret
    | 0xF11 => some 0
    | 0xF12 => nat (if h.isVc then 0x901 else 0x902)
    | 0xF13 => some 1
    | 0xF14 => nat h.num
    | 0x800 => vc v.vcfg
    | 0x801 => vc (BitVec.ofNat 64 v.vl)
    | 0x802 => vc v.xckmask
    | 0x803 => vc v.vckmask
    | 0x804 => nat h.chkAll.toNat
    | 0x805 => some h.rngkey
    | 0x806 => some h.rngctr
    | 0xCC0 => vc (BitVec.ofNat 64 (s.vlgrant h))
    | 0xCC1 => some h.ctags
    | 0xCC2 => nat h.tbudget.toNat
    | 0xCC3 => some (if h.act.isSome then 0 else h.jobrcb)
    | 0xCC4 => vc v.wdstate
    | 0x5C0 => vc v.sfinfo
    | 0x5C1 => vc (BitVec.ofNat 64 v.vprogtmo.toNat)
    | 0x7C0 => vc (BitVec.ofNat 64 v.lanemap.toNat)
    | 0x7C1 => nat (if h.isVc then 0 else h.srvrole.toNat)
    | 0xFC0 => some h.mcrec0
    | 0xFC1 => some h.mcrec1
    | 0xFC2 => some h.mcrec2
    | 0xFC3 => some h.mcrec3
    | _ => none

/-! ### Writing -/

/-- `lanemap` (R200, R367): a write of 0 keeps the previous value, retired lanes ignore writes of 1, and every bit a write
clears is recorded before the write takes effect. DEDUCED, log 91. -/
def State.lanemapWrite (s : State) (v : Word) : State :=
  let h := s.cpu
  let n := h.num
  let new := BitVec.ofNat 32 v.toNat &&& ~~~(tabGet 0 s.unwene.fused n)
  if !h.isVc || new = 0 then s
  else
    let cleared := h.vec.lanemap &&& ~~~new
    { s with
      unwene := { s.unwene with retired := tabSet 0 s.unwene.retired n (tabGet 0 s.unwene.retired n ||| cleared) }
      cpu := { h with vec := { h.vec with lanemap := new } } }

/-- `srvrole` (R55): written while the role map is unlocked; a vector core ignores it. -/
def State.srvroleWrite (s : State) (v : Word) : State :=
  if s.power.locked || s.cpu.isVc then s
  else
    let r := bitsAt v.toNat 0 4
    { s with cpu := { s.cpu with srvrole := if r ≤ 5 then BitVec.ofNat 4 r else 0 } }

/-- satp as stored (R102): Bare only from M-mode, every other mode becomes Sv48. -/
def satpStored (mode : Mode) (v : Word) : Word :=
  if bitsAt v.toNat 60 4 = 0 && mode == .m then v else normSatp v

/-- Replaces the bits of a mask. -/
def mergeBits (old v mask : Word) : Word := (old &&& ~~~mask) ||| (v &&& mask)

/-- Writes a CSR of the privileged architecture; the state's own fields with a read-only part keep it. -/
def State.csrStd (s : State) (n : Nat) (v : Word) : State :=
  let up (f : Csrs → Csrs) : State := { s with cpu := { s.cpu with csr := f s.cpu.csr } }
  match n with
  | 0x100 => up fun c => { c with mstatus := mstatusStored (mergeBits c.mstatus v sstatusMask) }
  | 0x104 => up fun c => { c with mie := mergeBits c.mie v (c.mideleg &&& sInts) }
  | 0x105 => up fun c => { c with stvec := v &&& ~~~(2 : Word) }
  | 0x106 => up fun c => { c with scounteren := v &&& 7 }
  | 0x10A => up fun c => { c with senvcfg := v &&& 1 }
  | 0x140 => up fun c => { c with sscratch := v }
  | 0x141 => up fun c => { c with sepc := v &&& ~~~(1 : Word) }
  | 0x142 => up fun c => { c with scause := v }
  | 0x143 => up fun c => { c with stval := v }
  | 0x144 => up fun c => { c with mip := mergeBits c.mip v (c.mideleg &&& 2) }
  | 0x180 => up fun c => { c with satp := satpStored s.cpu.mode v }
  | 0x300 => up fun c => { c with mstatus := mstatusStored v }
  | 0x302 => up fun c => { c with medeleg := v &&& medelegMask }
  | 0x303 => up fun c => { c with mideleg := v &&& sInts }
  | 0x304 => up fun c => { c with mie := v &&& allInts }
  | 0x305 => up fun c => { c with mtvec := v &&& ~~~(2 : Word) }
  | 0x306 => up fun c => { c with mcounteren := v &&& 7 }
  | 0x30A => up fun c => { c with menvcfg := v &&& 1 }
  | 0x340 => up fun c => { c with mscratch := v }
  | 0x341 => up fun c => { c with mepc := v &&& ~~~(1 : Word) }
  | 0x342 => up fun c => { c with mcause := v }
  | 0x343 => up fun c => { c with mtval := v }
  | 0x344 => up fun c => { c with mip := mergeBits c.mip v sInts }
  | 0xB00 => up fun c => { c with mcycleOff := v - BitVec.ofNat 64 s.cycles }
  | 0xB02 => up fun c => { c with minstret := v }
  | _ => s

/-- A write of 1 clears a bit of `chkint`, whatever set it (R197). -/
def Hart.chkClear (h : Hart) (b : BitVec 4) : Hart :=
  { h with chkint := h.chkint &&& ~~~b
           chkPend := (h.chkPend.map fun p => { p with bits := p.bits &&& ~~~b }).filter fun p => p.bits != 0 }

/-- Writes a CSR of the F extension or of the device (R195). -/
def State.csrDev (s : State) (n : Nat) (v : Word) : State :=
  let h := s.cpu
  let up (h : Hart) : State := { s with cpu := h }
  if 0x810 ≤ n ∧ n ≤ 0x817 then
    up { h with vec := { h.vec with nwin := h.vec.nwin.setIfInBounds (n - 0x810) (v &&& 0x80000007FFFEFFFF) } }
  else
    match n with
    | 0x001 => up { h with fflags := BitVec.ofNat 5 v.toNat }
    | 0x002 => up { h with frm := BitVec.ofNat 3 v.toNat }
    | 0x003 => up { h with fflags := BitVec.ofNat 5 v.toNat, frm := BitVec.ofNat 3 (v.toNat / 32) }
    | 0x802 => up { h with vec := { h.vec with xckmask := v &&& ~~~(1 : Word) } }
    | 0x803 => up { h with vec := { h.vec with vckmask := v } }
    | 0x804 => up (h.chkClear (BitVec.ofNat 4 v.toNat))
    | 0x805 => up { h with rngkey := v }
    | 0x806 => up { h with rngctr := v }
    | 0x5C1 => up { h with vec := { h.vec with vprogtmo := BitVec.ofNat 32 v.toNat } }
    | 0x7C0 => s.lanemapWrite v
    | 0x7C1 => s.srvroleWrite v
    | _ => s

/-- Whether a write of v to CSR n replaces all that the register holds, and its mark with it (R361): not through a view of a part, not
where bits are cleared by writing 1, not where the write is ignored; `vconf` looks to `vcfg`'s mark itself. -/
def State.csrReplaces (s : State) (n : Nat) (v : Word) : Bool :=
  match n with
  | 0x100 | 0x104 | 0x144 | 0x800 | 0x804 => false
  | 0x7C0 => s.cpu.isVc && BitVec.ofNat 32 v.toNat &&& ~~~(tabGet 0 s.unwene.fused s.cpu.num) != 0
  | 0x7C1 => !s.power.locked && !s.cpu.isVc
  | _ => true

/-- The effect of writing v to CSR n, once it is allowed (R173 for `vcfg`). -/
def csrPut (n : Nat) (v : Word) (bad : Bool := false) : M Unit :=
  if n = 0x800 then do
    let _ ← setVcfg v.toNat bad
    pure ()
  else modify fun s => (s.csrStd n v).csrDev n v

/-- Whether the hart's mode reaches CSR n. -/
def Hart.csrReach (h : Hart) (n : Nat) : Bool := decide (csrPriv n ≤ h.mode.rank) && csrPriv n != 2

/-- Whether an access of CSR n is legal on the hart whose turn it is (R10, R195). -/
def State.csrLegal (s : State) (n : Nat) (write : Bool) : Bool :=
  s.cpu.csrReach n && !(write && csrReadOnly n) && (s.csrRead n).isSome

/-- A CSR instruction (R10): reads the old value, and writes `f old`, poisoned or not, when `write`. The value for rd. -/
def csrAccess (n : Nat) (write : Bool) (f : Word → Word) (bad : Bool := false) : M Word := do
  let s ← get
  need (s.csrLegal n write)
  match s.csrRead n with
  | none => illegal
  | some old => do
    if write then csrPut n (f old) bad
    return old

end Sys2Proof.Machine
end

