-- ==== Sys2Proof/Machine/Jobs.lean ====
section
/-! DEFINITION. Spawning, continuing, ending, abandoning and deferring jobs (R36 to R50, R76, R176, R177, R373, R374, R402),
and the fault of a matrix command that a core has still to take (R343). -/

namespace Sys2Proof.Machine

/-- The n-byte field of a record at an offset. -/
def fieldAt (bs : List Byte) (o n : Nat) : Nat := ofBytes ((bs.drop o).take n)
/-- The 8-byte field of a record at an offset, as a word. -/
def wordAt (bs : List Byte) (o : Nat) : Word := BitVec.ofNat 64 (fieldAt bs o 8)

/-- A task descriptor in its 32 bytes (R41). -/
def descOf (bs : List Byte) (bad : Bool := false) : Desc := ⟨wordAt bs 0, wordAt bs 8, BitVec.ofNat 2 (fieldAt bs 0x18 8), bad⟩

/-- Whether AKIND excludes a KIND (R37). -/
def akindExcludes (akind : Nat) (kind : BitVec 2) : Bool :=
  (akind == 1 && kind == 2) || (akind == 2 && kind != 2)

/-- Whether a descriptor is invalid (R43, R46): an empty or odd ENTRY, KIND 11 or one that AKIND excludes, a reserved bit. -/
def descInvalid (bs : List Byte) (akind : Nat) : Bool :=
  let d := descOf bs
  let tctl := fieldAt bs 0x18 8
  d.entry == 0 || d.entry.getLsbD 0 || d.kind == 3 || akindExcludes akind d.kind
    || bitsAt tctl 32 32 != 0 || bitsAt tctl 2 14 != 0

/-- `rcb_invalid` but for the address's alignment (R43). -/
def rcbInvalid (bs : List Byte) : Bool :=
  let ctl := fieldAt bs 0x18 8
  let status := fieldAt bs 0x28 8
  let route := fieldAt bs 0x38 8
  bitsAt ctl 5 3 != 0 || bitsAt status 32 32 != 0 || bitsAt status 12 4 != 0
    || bitsAt route 32 32 != 0 || bitsAt route 2 14 != 0 || bitsAt (fieldAt bs 0x78 8) 1 63 != 0
    || bitsAt ctl 36 16 == 0 || bitsAt ctl 3 2 == 3 || bitsAt route 0 2 == 3
    || descInvalid (bs.drop 0x40) (bitsAt ctl 3 2)
    || (bitsAt route 0 2 == 1 && decide (191 < bitsAt route 20 8))

/-- The DQU's copy of an RCB image at an address (R40); `bad` says that its second sector, which holds the descriptor, RESULT and USER,
is poisoned (R361). -/
def jobOf (addr : Word) (pa : Nat) (bs : List Byte) (bad : Bool := false) : Job where
  addr := addr
  pa := pa
  deadline := wordAt bs 0
  release := wordAt bs 8
  slack := BitVec.ofNat 32 (fieldAt bs 0x10 4)
  budget := BitVec.ofNat 32 (fieldAt bs 0x14 4)
  ctl := wordAt bs 0x18
  route := wordAt bs 0x38
  user := wordAt bs 0x68
  satp := wordAt bs 0x70
  priv := bitAt (fieldAt bs 0x78 8) 0
  parent := none
  state := 0
  count := 0
  clamped := false
  poison := false
  deferred := false
  abchild := false
  result := wordAt bs 0x60
  cont := some (descOf (bs.drop 0x40) bad)
  contDue := false
  contSeq := 0
  abandonAt := none
  lost := false
  keep := false
  runningAt := 0
  recBad := bad
  resultBad := bad

/-- Takes bits [lo + n - 1 : lo] of a control word from another. -/
def takeBits (w from_ : Word) (lo n : Nat) : Word := BitVec.ofNat 64 (putBits w.toNat lo n (bitsAt from_.toNat lo n))

/-- `inherit` (R45): the groups whose OVR bit is clear come from the parent. `user` is a spawning task in U-mode. -/
def Job.inherit (c p : Job) (user : Bool) : Job :=
  let ovr (k : Nat) : Bool := bitAt c.ctl.toNat (56 + k) && !(user && (k == 5 || k == 6))
  let ctl := c.ctl
  let ctl := if ovr 4 then ctl else takeBits ctl p.ctl 0 3
  let ctl := if user && decide (bitsAt ctl.toNat 0 2 < p.runClass) then BitVec.ofNat 64 (putBits ctl.toNat 0 2 p.runClass) else ctl
  let ctl := if ovr 5 then ctl else takeBits ctl p.ctl 8 16
  let ctl := if ovr 6 then ctl else takeBits ctl p.ctl 24 12
  let ctl := if ovr 7 then ctl else takeBits (takeBits ctl p.ctl 36 16) p.ctl 3 2
  let ctl := if p.deferred then BitVec.ofNat 64 (putBits ctl.toNat 0 2 3) else ctl
  let ctl := BitVec.ofNat 64 (putBits ctl.toNat 52 4 (p.depth + 1))
  let dl := if ovr 0 then c.deadline else p.deadline
  let late := decide (p.deadline.toNat < dl.toNat)
  { c with
    deadline := if late then p.deadline else dl
    clamped := late
    release := if ovr 1 then c.release else p.release
    slack := if ovr 2 then c.slack else p.slack
    budget := if ovr 3 then c.budget else p.budget
    ctl := ctl
    satp := if ovr 5 then c.satp else p.satp
    priv := if ovr 5 then c.priv else p.priv
    deferred := p.deferred
    keep := p.keep }

/-- `tenant_mismatch` (R43, R71). -/
def State.tenantMismatch (s : State) (j : Job) : Bool :=
  j.cls == 2 && j.lease != 0 && j.tenant != bitsAt (s.lcfg j.lease) 40 8

/-- Queue entries a spawn or submission may take: waiting continuations come first (R374). -/
def State.dqAvail (s : State) : Nat :=
  s.dqFree - (s.dqu.jobs.filter fun p => match p.2 with | some j => j.contDue | none => false).length

/-- Enqueues n tasks of a job under one sequence number (R58). -/
def State.enqueueMany (s : State) (job : Nat) (d : Desc) (seq : Nat) : Nat → State
  | 0 => s
  | n + 1 => (s.enqueueMany job d seq n).enqueue job n d seq

/-- Accepts a job with n tasks (R43, R58, R78): its copy is written to the RCB, its tasks are enqueued, and its
continuation slot is emptied. -/
def State.acceptJob (s : State) (j : Job) (parent : Word) (n : Nat) : State :=
  let id := s.dqu.nextJob
  let d := j.cont.getD ⟨0, 0, 0, false⟩
  let now := s.dquNow
  let s := { s with dqu := { s.dqu with
    nextJob := id + 1
    jobs := s.dqu.jobs.filter fun p => match p.2 with | some o => !(o.final && o.pa == j.pa) | none => false } }
  let s := s.devWrite j.pa (bytesOf 8 j.deadline.toNat ++ bytesOf 8 j.release.toNat ++ bytesOf 4 j.slack.toNat
    ++ bytesOf 4 j.budget.toNat ++ bytesOf 8 j.ctl.toNat ++ bytesOf 8 parent.toNat)
  let s := s.devWrite (j.pa + 0x70) (bytesOf 8 j.satp.toNat ++ bytesOf 8 (b2n j.priv))
  let pending := decide (now < j.release.toNat)
  let s := s.putJob id { j with
    count := n, cont := none, state := if pending then stPending else stRunning, runningAt := if pending then 0 else now }
  let s := s.devWrite (j.pa + 0x40) (bytesOf 32 0)
  (s.enqueueMany id d s.dqu.seq n).nextSeq

/-- Whether the DQU holds an abandoned, not yet final job whose RCB lies at a physical address (R76). -/
def State.abandonedAt (s : State) (pa : Nat) : Bool :=
  s.dqu.jobs.any fun p => match p.2 with | some j => j.pa == pa && j.abandonAt.isSome && !j.final | none => false

/-- The job of a task. -/
def jobOfTask (t : TaskRun) : M Job := do
  match (← get).job? t.job with
  | some j => return j
  | none => illegal

/-- The start of an instruction on the current job (R76, R176): a commit point, at which a task whose job is abandoned
stops. -/
def jobPoint (t : TaskRun) : M Job := do
  commitPoint
  let j ← jobOfTask t
  if j.abandonAt.isSome then endTask none
  return j

/-- The result code of a spawn that meets no obstacle before inheritance (R43). DEDUCED, log 31. -/
def spawnCode (s : State) (parent : Job) (bs : List Byte) (n pa : Nat) : Nat :=
  if s.abandonedAt pa then 5
  else if n = 0 || rcbInvalid bs then 4
  else if bitsAt (fieldAt bs 0x28 8) 0 8 ≠ 0 then 5
  else if parent.depth = 15 then 2
  else if s.dqAvail < n || parent.count = 65535 then 1
  else 0

/-- Spawns n tasks of the job whose RCB lies at an address (R43): the result code. R45 speaks of tasks in U-mode and in S-mode: the
hart's own mode counts, in a trap handler too, and M-mode as S-mode (DESIGN CHOICE, log 140). -/
def spawn (t : TaskRun) (va : Word) (n : Nat) : M Nat := do
  let parent ← jobPoint t
  if va.toNat % 128 ≠ 0 then return 4
  else do
    let r ← readRecord va 128
    consume r.2
    let x ← translate .load va none
    let s ← get
    let code := spawnCode s parent r.1 n x.pa
    if code ≠ 0 then return code
    else do
      let j := (jobOf va x.pa r.1 (s.seenPoison (x.pa + 0x40) 64)).inherit parent (s.cpu.mode == .u)
      if s.tenantMismatch j then return 4
      else if !j.deferred && decide (j.cliffValue ≤ s.dquNow) then do
        modify fun s => (s.devWrite (x.pa + 0x28) [0x13]).devWrite (x.pa + 0x30) (bytesOf 8 s.dquNow)
        return 3
      else do
        modify fun s => s.modJob t.job fun p => { p with count := p.count + 1 }
        modify fun s => s.acceptJob { j with parent := some t.job } parent.addr n
        return 0

/-- jspawn (R43): one task. -/
def execJspawn (rd rs1 : Reg) (s : State) : Host.Outcome State Fault Refusal :=
  instr (.jspawn rd rs1) (do
    let t ← inTask
    let c ← spawn t (← useX rs1) 1
    putX rd (BitVec.ofNat 64 c)) s

/-- jspawnn (R43): x[rs2][15:0] tasks. -/
def execJspawnn (rd rs1 rs2 : Reg) (s : State) : Host.Outcome State Fault Refusal :=
  instr (.jspawnn rd rs1 rs2) (do
    let t ← inTask
    let a ← useX rs1
    let n ← useX rs2
    let c ← spawn t a (n.toNat % 65536)
    putX rd (BitVec.ofNat 64 c)) s

/-- jcont (R46): only the encoding with rs1 = x0 empties the slot and answers 0. -/
def execJcont (rd rs1 : Reg) (s : State) : Host.Outcome State Fault Refusal :=
  instr (.jcont rd rs1) (do
    let t ← inTask
    let a ← useX rs1
    let j ← jobPoint t
    if rs1 = 0 then do
      modify fun s => s.emptyCont t.job
      putX rd 0
    else if a.toNat % 32 ≠ 0 then do
      modify fun s => s.emptyCont t.job
      putX rd 4
    else do
      let r ← readRecord a 32
      consume r.2
      let bad := descInvalid r.1 j.akind
      modify fun s => if bad then s.emptyCont t.job else s.setCont t.job (some (descOf r.1 r.2)) r.1 r.2
      putX rd (if bad then 4 else 0)) s

/-- The machine check of a matrix command that mismatched three times (R353, R354). -/
def matCheck (f : MatFault) : Exc :=
  ⟨48, 0, none, false, some ⟨false, 3, 3, some f.lane, 3, 0, some f.addr, some (f.words % 4096)⟩⟩

/-- Raises the oldest matrix fault of the core that `covers` selects: once, of the closing group, with 0xFFFF as its element
(R343); cause 48 after three mismatches (R353). -/
def takeMatFault (covers : MatFault → Bool) : M Unit := do
  let h ← cpu
  match h.matFaults.find? covers with
  | none => pure ()
  | some f => do
    modCpu fun h => { h with matFaults := h.matFaults.erase f }
    throw (.exc (if f.cause = 48 then matCheck f else ⟨f.cause, f.va, some 0xFFFF, false, none⟩))

/-- tend (R50). -/
def execTend (s : State) : Host.Outcome State Fault Refusal :=
  instrJump .tend (do
    let _ ← inTask
    takeMatFault fun _ => true
    commitPoint
    endTask none) s

/-- tendr (R50): the result is data, poisoned or not, and keeps its mark (R361). -/
def execTendr (rs1 : Reg) (s : State) : Host.Outcome State Fault Refusal :=
  instrJump (.tendr rs1) (do
    let _ ← inTask
    takeMatFault fun _ => true
    commitPoint
    let h ← cpu
    consume (h.xPoisoned rs1)
    endTask (some (h.xr rs1, h.xPoisoned rs1))) s

/-- jabandon (R176): the job is abandoned as at a cliff at this instant, and the task stops here. -/
def execJabandon (s : State) : Host.Outcome State Fault Refusal :=
  instrJump .jabandon (do
    let t ← inTask
    let _ ← jobPoint t
    modify fun s => s.abandon t.job s.dquNow (s.dquNow + 2000) false
    endTask none) s

/-- jdefer (R176). -/
def execJdefer (s : State) : Host.Outcome State Fault Refusal :=
  instr .jdefer (do
    let t ← inTask
    let j ← jobPoint t
    if !j.deferred then modify fun s => s.deferJob t.job) s

end Sys2Proof.Machine
end

