-- ==== Sys2Proof/Machine/Engine.lean ====
section
/-! DEFINITION. Time, the posting of engine commands, timelines and copy tags (R118 to R120, R164, R165, R177 to R183). -/

namespace Sys2Proof.Machine

/-- tnow (R73, R177): the local CTC in whole nanoseconds. -/
def execTnow (rd : Reg) (s : State) : Host.Outcome State Fault Refusal :=
  instr (.tnow rd) (do
    let s ← get
    putX rd (BitVec.ofNat 64 (s.ctrNs s.cpu.cluster))) s

/-- The context that a `cpost` command goes to (R178). DEDUCED, log 56. -/
def contextOf (words : Nat) : Nat :=
  match bitsAt words 8 4 with
  | 1 => if bitAt words 24 then 2 else 1
  | 2 => 3
  | _ => 1

/-- The queue of a copy engine that serves a hart (R178). -/
def Hart.ceQueue (h : Hart) : Nat := if h.isVc then h.vcIdx else h.scIdx % 16

/-- Unpublished commands of a hart's context (R178). -/
def State.inContext (s : State) (n c : Nat) : Nat := (s.cmds.filter fun m => m.hart == n && m.ctx == c).length
/-- Unpublished commands of a copy engine's queue. -/
def State.inQueue (s : State) (cl ctx q : Nat) : Nat :=
  (s.cmds.filter fun m => m.cl == cl && m.ctx == ctx && m.queue == q).length
/-- Unpublished commands of the codec complex. -/
def State.inCodec (s : State) : Nat := (s.cmds.filter fun m => m.ctx == 3).length

/-- Whether a `cpost` to context c has to wait (R48, R178, R179). -/
def State.postStalls (s : State) (c : Nat) (job : Option Job) : Bool :=
  let h := s.cpu
  decide (64 ≤ s.inContext h.num c)
    || (if c = 3 then decide (4096 ≤ s.inCodec) else decide (64 ≤ s.inQueue h.cluster c h.ceQueue))
    || (match job with | some j => j.count == 65535 | none => false)

/-- The task whose program executes, if the hart runs one outside an activation. -/
def Hart.ownTask (h : Hart) : Option TaskRun := if h.act.isSome then none else h.task

/-- Reads a command word and its extension words (R164, R179, R181). A poisoned word is not acted on (R363). -/
def readCommand (a : Word) : M Nat := do
  let w ← readRecord a 32
  let k := let n := bitsAt (ofBytes w.1) 14 2; if n = 3 then 0 else n
  let e ← readRecord (a + 32) (32 * k)
  if w.2 || e.2 then raisePsn
  else return ofBytes (w.1 ++ e.1)

/-- The command at an address: a stalled instruction keeps what it has read (R179). -/
def commandOnce (a : Word) : M Nat := do
  match (← cpu).posting with
  | some w => return w
  | none => do
    let w ← readCommand a
    modCpu fun h => { h with posting := some w }
    return w

/-- Whether a word is a copy command that owns a tag (R179). -/
def tagged (words : Nat) : Bool := bitsAt words 8 4 == 1 && [1, 2, 3].contains (bitsAt words 0 8)
/-- Bits of `ctags` are cleared: no completion before has set them as they now stand (R183). -/
def Hart.clearTags (h : Hart) (m : Word) : Hart :=
  { h with ctags := h.ctags &&& ~~~m
           chkPend := h.chkPend.map fun p => if m.getLsbD p.tag then { p with sets := false } else p }

/-- The tag of a copy command. -/
def tagOf (words : Nat) : Nat := bitsAt words 16 8 % 64

/-- The slot a command takes: the lowest-numbered one of its queue that no unpublished command holds (R264). -/
def State.freeSlot (s : State) (cl ctx q : Nat) : Nat :=
  ((List.range 64).find? fun k => !(s.cmds.any fun m => m.cl == cl && m.ctx == ctx && m.queue == q && m.slot == k)).getD 0

/-- Whether what the hart hands to an engine takes a poisoned `satp` with it, which is read to translate its accesses (R102, R361, R362;
DESIGN CHOICE, log 64). -/
def Hart.postBad (h : Hart) : Bool := h.mode != .m && h.csrBad 0x180

/-- Posts a command word of the hart whose turn it is to context c (R178, R179). -/
def State.post (s : State) (c words : Nat) (a : Word) : State :=
  let h := s.cpu
  let n := h.posted.getD c 0 + 1
  let t := h.ownTask
  let cmd : Cmd := {
    hart := h.num, ctx := c, seq := n, words := words, addr := a, satp := h.csr.satp, mode := h.mode
    job := t.map (·.job), task := t.map (·.id), order := s.order
    cl := h.cluster, ce := c - 1, queue := h.ceQueue, slot := s.freeSlot h.cluster c h.ceQueue
    state := .queued, status := 0, bytes := 0, aux := 0, misses := [], staging := [], stagingBad := false
    bad := false, poisoned := false, lost := [], corrected := false, owes := false, missBad := false }
  let g := if tagged words && c != 3 then h.clearTags ((1 : Word) <<< tagOf words) else h
  let s := { s with cmds := s.cmds ++ [cmd], order := s.order + 1, cpu := { g with posted := h.posted.setIfInBounds c n } }
  match t with
  | some r => s.modJob r.job fun j => { j with count := j.count + 1 }
  | none => s

/-- cpost (R178, R179). -/
def execCpost (rd rs1 : Reg) (s : State) : Host.Outcome State Fault Refusal :=
  instr (.cpost rd rs1) (do
    let a ← useX rs1
    if a.toNat % 32 ≠ 0 then raise 4 a
    commitPoint
    let w ← commandOnce a
    let c := contextOf w
    let s ← get
    let job := match s.cpu.ownTask with | some t => s.job? t.job | none => none
    if s.postStalls c job then waitFor (.post c) 0 0
    set ((s.eats s.cpu.postBad).post c w a)
    putX rd (BitVec.ofNat 64 ((← cpu).posted.getD c 0))) s

/-- tlread (R180): POSTED or DONE of a context. -/
def execTlread (rd rs1 : Reg) (s : State) : Host.Outcome State Fault Refusal :=
  instr (.tlread rd rs1) (do
    let r ← dataX rs1
    let h ← cpu
    let v := r.1.toNat
    let c := bitsAt v 0 2
    putXp rd (BitVec.ofNat 64 (if bitAt v 8 then h.posted.getD c 0 else h.done.getD c 0)) r.2) s

/-- The context and the number that `tlwait` and `tlpoll` name (R180). -/
def Hart.tlTarget (h : Hart) (a b : Word) : Nat × Nat :=
  let c := bitsAt a.toNat 0 2
  (c, min b.toNat (h.posted.getD c 0))

/-- The hart acquires its commands of a context up to a number (R120, R188). -/
def acquireUpTo (c n : Nat) : M Unit := modCpu (·.acquire fun p => p.ctx == c && decide (p.seq ≤ n))
/-- The hart acquires the copies whose completions set the tags it returns (R120, R183, R188). -/
def acquireTags (m : Word) : M Unit := modCpu (·.acquire fun p => p.sets && m.getLsbD p.tag)

/-- tlwait (R180): on context 0 it takes the fault of a command its number covers (R343). -/
def execTlwait (rs1 rs2 : Reg) (s : State) : Host.Outcome State Fault Refusal :=
  instr (.tlwait rs1 rs2) (do
    commitPoint
    let a ← dataX rs1
    let b ← dataX rs2
    let h ← cpu
    let p := h.tlTarget a.1 b.1
    if p.1 = 0 then takeMatFault fun f => decide (f.seq ≤ p.2)
    if h.done.getD p.1 0 < p.2 then waitFor (.timeline p.1 p.2) 0 0
    acquireUpTo p.1 p.2) s

/-- tlpoll (R180, R343). -/
def execTlpoll (rd rs1 rs2 : Reg) (s : State) : Host.Outcome State Fault Refusal :=
  instr (.tlpoll rd rs1 rs2) (do
    let a ← dataX rs1
    let b ← dataX rs2
    let h ← cpu
    let p := h.tlTarget a.1 b.1
    if p.1 = 0 then takeMatFault fun f => decide (f.seq ≤ p.2)
    let ok := decide (p.2 ≤ h.done.getD p.1 0)
    if ok then acquireUpTo p.1 p.2
    putXp rd (if ok then 1 else 0) (a.2 || b.2)) s

/-- tagwany (R183): a mask of 0 answers 0. -/
def execTagwany (rd rs1 : Reg) (s : State) : Host.Outcome State Fault Refusal :=
  instr (.tagwany rd rs1) (do
    commitPoint
    let r ← dataX rs1
    let h ← cpu
    let m := r.1
    if m != 0 && h.ctags &&& m == 0 then waitFor (.tags m false) 0 0
    acquireTags (h.ctags &&& m)
    consume (h.csrBad 0xCC1)
    putXp rd (h.ctags &&& m) (r.2 || h.csrBad 0xCC1)) s

/-- tagwall (R183). -/
def execTagwall (rd rs1 : Reg) (s : State) : Host.Outcome State Fault Refusal :=
  instr (.tagwall rd rs1) (do
    commitPoint
    let r ← dataX rs1
    let h ← cpu
    let m := r.1
    if h.ctags &&& m != m then waitFor (.tags m true) 0 0
    acquireTags (h.ctags &&& m)
    consume (h.csrBad 0xCC1)
    putXp rd (h.ctags &&& m) (r.2 || h.csrBad 0xCC1)) s

/-- tagffr (R183): the lowest set masked tag, or 64. -/
def execTagffr (rd rs1 : Reg) (s : State) : Host.Outcome State Fault Refusal :=
  instr (.tagffr rd rs1) (do
    let r ← dataX rs1
    let h ← cpu
    let v := h.ctags &&& r.1
    consume (h.csrBad 0xCC1)
    putXp rd (BitVec.ofNat 64 (((List.range 64).find? fun i => v.getLsbD i).getD 64)) (r.2 || h.csrBad 0xCC1)) s

/-- tagclr (R183). -/
def execTagclr (rs1 : Reg) (s : State) : Host.Outcome State Fault Refusal :=
  instr (.tagclr rs1) (do
    let r ← dataX rs1
    modCpu (·.clearTags r.1)) s

end Sys2Proof.Machine
end

