-- ==== Sys2Proof/Machine/Operands.lean ====
section
/-! DEFINITION. Operands of vector instructions: elements, keys, memory formats, random draws, stream slots, latch windows,
and the driver that every vector instruction runs through (R90, R116, R126, R134, R136 to R138, R140 to R142, R160,
R201 to R216, R222). -/

namespace Sys2Proof.Machine

/-! ### Random draws (R137, R138) -/

/-- A hart's generator; `bad` says that its key or its counter is poisoned (R359). -/
structure Rng where
  key : Word
  stream : Word
  ctr : Word
  bad : Bool
deriving DecidableEq, Repr

/-- What a draw at the present position returns (R137). -/
def Rng.value (g : Rng) : Word :=
  let z := g.ctr + g.key
  let z := (z ^^^ (z >>> 31)) * 0xD6E8FEB86659FD93
  let z := z ^^^ ((g.stream + 1) * 0xA3C59E3714F26B8D)
  let z := (z ^^^ (z >>> 29)) * 0x9FB21C651E98DF25
  z ^^^ (z >>> 32)

/-- Whether the generator's key or counter is poisoned (R195, R359). -/
def Hart.rngBad (h : Hart) : Bool := h.cpoison.contains 0x805 || h.cpoison.contains 0x806
/-- The generator of a hart. -/
def Hart.rng (h : Hart) : Rng := ⟨h.rngkey, BitVec.ofNat 64 h.num, h.rngctr, h.rngBad⟩

/-- Computations that may draw. -/
abbrev Draw := StateM Rng

/-- next_rand() (R137). -/
def nextRand : Draw Word := do
  let g ← get
  set { g with ctr := g.ctr + 1 }
  return g.value

/-- A rounding that draws only when it is inexact under SR (R136). -/
def roundD (f : Nat → RR) : Draw Nat := do
  let g ← get
  let r := f (g.value.toNat % 2 ^ 32)
  if r.drew then set { g with ctr := g.ctr + 1 }
  return r.bits

/-- Performs a drawing computation with the generator of the hart whose turn it is; a draw from a poisoned generator consumes
poison (R362). -/
def drawing {α : Type} (d : Draw α) : M α := do
  let h ← cpu
  let r := d.run h.rng
  modCpu fun h => { h.eats (h.rngBad && r.2.ctr != h.rngctr) with rngctr := r.2.ctr }
  return r.1

/-! ### Elements (R201, R206) -/

/-- An element as an instruction sees it: its bits and whether it is poisoned. -/
abbrev El := Nat × Bool

/-- The poison that a computation's draws bring to its value: it drew, and the generator is poisoned (R361). -/
def tainted {α : Type} (d : Draw α) : Draw (α × Bool) := do
  let g ← get
  let x ← d
  let g' ← get
  return (x, g.bad && g'.ctr != g.ctr)
/-- The element that a computation gives from elements of which some may be poisoned. -/
def drawn (d : Draw Nat) (bad : Bool) : Draw El := do
  let r ← tainted d
  return (r.1, r.2 || bad)

/-- Bits of an element. -/
def Vec.ew (v : Vec) : Nat := 8 * v.ewB
/-- The register that holds element i of an operand. -/
def Vec.elemReg (v : Vec) (reg i : Nat) : Nat := reg + i / v.mvl
/-- The image byte at which element i begins in its register. -/
def Vec.elemByte (v : Vec) (i : Nat) : Nat := i % v.mvl * v.ewB
/-- The bits of element i of the operand at a register. -/
def Vec.elem (v : Vec) (reg i : Nat) : Nat := ofBytes (v.bytes (v.elemReg reg i) (v.elemByte i) v.ewB)
/-- Whether it is poisoned. -/
def Vec.elemBad (v : Vec) (reg i : Nat) : Bool :=
  let k := vecKey (v.elemReg reg i) (v.elemByte i)
  v.vpoison.any fun p => decide (k ≤ p) && decide (p < k + v.ewB)
/-- Element i of the operand at a register. -/
def Vec.el (v : Vec) (reg i : Nat) : El := (v.elem reg i, v.elemBad reg i)

/-- Writes element i of the operand at a register. -/
def Vec.setElem (v : Vec) (reg i : Nat) (e : El) : Vec :=
  let w := v.setBytes (v.elemReg reg i) (v.elemByte i) (bytesOf v.ewB e.1)
  let k := vecKey (v.elemReg reg i) (v.elemByte i)
  if v.vpoison.isEmpty && !e.2 then w
  else
    let rest := v.vpoison.filter fun p => p < k || k + v.ewB ≤ p
    { w with vpoison := if e.2 then (List.range v.ewB).map (k + ·) ++ rest else rest }

/-- Writes elements at their indices. -/
def Vec.setElems (v : Vec) (reg : Nat) : List (Nat × El) → Vec
  | [] => v
  | p :: r => (v.setElem reg p.1 p.2).setElems reg r

/-- Bit i of a key register. -/
def Vec.keyBit (v : Vec) (k i : Nat) : Bool := (v.keys.getD k 0).getLsbD i
/-- Whether element i is active under key km (R206). -/
def Vec.active (v : Vec) (km : BitVec 3) (i : Nat) : Bool := decide (i < v.vl) && (km == 0 || v.keyBit km.toNat i)
/-- The active elements, ascending. -/
def Vec.actives (v : Vec) (km : BitVec 3) : List Nat := (List.range v.vl).filter (v.active km)

/-- Writes bits of a key register: index, bit, poison. The poison granule is 64 bits (R361). -/
def Vec.setKeyBits (v : Vec) (k : Nat) (bs : List (Nat × Bool × Bool)) : Vec :=
  let old := v.keys.getD k 0
  let new := bs.foldl (fun (w : BitVec 2048) b =>
    let m := (1 : BitVec 2048) <<< b.1
    if b.2.1 then w ||| m else w &&& ~~~m) old
  let gran (g : Nat) : List Nat :=
    if bs.any fun b => b.1 / 64 == g && b.2.2 then [k * 32 + g]
    else if v.kpoison.contains (k * 32 + g) && decide ((bs.filter fun b => b.1 / 64 == g).length < 64) then [k * 32 + g]
    else []
  { v with
    keys := v.keys.setIfInBounds k new
    kpoison := if v.kpoison.isEmpty && !(bs.any fun b => b.2.2) then []
      else (v.kpoison.filter fun p => p / 32 != k) ++ (List.range 32).flatMap gran }

/-- Whether a key register holds poison. -/
def Vec.keyBad (v : Vec) (k : Nat) : Bool := k != 0 && v.kpoison.any fun p => p / 32 == k
/-- Whether the 64 key bits that govern element i are poisoned (R361). -/
def Vec.keyBadAt (v : Vec) (km : BitVec 3) (i : Nat) : Bool := km != 0 && v.kpoison.contains (32 * km.toNat + i / 64)
/-- Whether key bits that govern an element below vl are poisoned. -/
def Vec.keyBadAny (v : Vec) (km : BitVec 3) : Bool := (List.range (ceilDiv v.vl 64)).any fun g => v.keyBadAt km (64 * g)
/-- Whether bits of a key operand below vl are poisoned. -/
def Vec.keyBadBelow (v : Vec) (k : Nat) : Bool := (List.range (ceilDiv v.vl 64)).any fun g => v.kpoison.contains (32 * k + g)

/-! ### Memory formats (R126, R134, R140 to R142) -/

/-- Whether a format code is supported at the current EW (R126). -/
def Vec.fmtOk (v : Vec) (code : Nat) : Bool :=
  match code with
  | 0 | 5 | 6 => true
  | 1 | 2 | 3 | 4 | 9 => v.ewB != 8
  | 7 | 8 => v.ewB != 2
  | _ => false

/-- Bytes of an element in memory (R126). -/
def Vec.fmtB (v : Vec) (code : Nat) : Nat :=
  match code with
  | 0 => v.ewB
  | 1 | 2 | 5 | 9 => 1
  | 8 => 4
  | _ => 2

/-- The floating-point element type: bf16 at EW 16, else fp32 (R126). -/
def Vec.fmtT (v : Vec) : Fmt := if v.ewB = 2 then bf16 else fp32
/-- The type of a complex component: bf16 at EW 32, fp32 at EW 64 (R126). -/
def Vec.fmtC (v : Vec) : Fmt := if v.ewB = 4 then bf16 else fp32

/-- The value of a floating memory format's code (R127, R130). -/
def memVal (code raw : Nat) : FV :=
  match fmtCode code with
  | some f => f.decode raw
  | none => e8m0Val raw

/-- `widen` (R134). -/
def Vec.widen (v : Vec) (code raw : Nat) : Draw Nat :=
  match code with
  | 0 => pure raw
  | 5 => pure (unsignedOf v.ew (signedOf 8 raw))
  | 6 => pure (unsignedOf v.ew (signedOf 16 raw))
  | 7 | 8 => do
    let n := if code = 7 then 8 else 16
    let re ← roundD fun u => v.fmtC.round v.rm u false (.ofInt (signedOf n raw))
    let im ← roundD fun u => v.fmtC.round v.rm u false (.ofInt (signedOf n (raw / 2 ^ n)))
    return re + im * 2 ^ (v.ew / 2)
  | _ => roundD fun u => v.fmtT.round v.rm u false (memVal code raw)

/-- Rounds |x| among the powers of two of E8M0 (R217): ties go to the even code. Whether a value outside 2^−127 to 2^127 draws
under SR is not stated: an inexact one between 2^127 and 2^128 draws, one below 2^−127 or from 2^128 up does not (DESIGN CHOICE,
log 107). -/
def toE8m0 (mode : Rm) (u : Nat) (x : FV) : Nat × Bool :=
  match x with
  | .nan | .inf _ => (255, false)
  | .fin neg m e =>
    if m = 0 then (0, false)
    else if neg then (255, false)
    else
      let l := floorLog2 m e
      if l < -127 then (0, false)
      else if 127 < l then (254, false)
      else
        let lo := (l + 127).toNat
        -- the fraction of the way from 2^l to 2^(l + 1), as rem / 2^d
        let d := bitLen m - 1
        let rem := m - 2 ^ d
        let up := roundsUp mode u false lo rem d false
        (if up then lo + 1 else lo, rem != 0 && mode == .sr)

/-- E8M0 above 2^127 stores 0xFE (R217). -/
def clampE8m0 (c : Nat) : Nat := if c = 255 then 254 else c

/-- `narrow` of a value to a floating or integer memory format of one component (R140 to R142). -/
def narrowVal (v : Vec) (ovf : BitVec 32) (code : Nat) (x : FV) : Draw Nat :=
  match fmtCode code with
  | some f => roundD fun u => f.narrow v.rm u v.fz (ovfEntry ovf code) x
  | none =>
    let n := if code = 5 ∨ code = 7 then 8 else 16
    roundD fun u =>
      let r := narrowInt n v.rm u x
      ⟨unsignedOf n r.1, r.2, false, false, false⟩

/-- Whether a narrowing to a format code is under the overflow table, and the table poisoned (R142, R194, R361). -/
def Hart.ovfSpoils (h : Hart) (code : Nat) : Bool := h.ovfBad && (fmtCode code).isSome

/-- `narrow_store` (R217). -/
def Vec.narrowStore (v : Vec) (ovf : BitVec 32) (code bits : Nat) : Draw Nat :=
  match code with
  | 0 => pure bits
  | 5 => pure (unsignedOf 8 (saturate (signedOf v.ew bits) (-128) 127))
  | 6 => pure (unsignedOf 16 (saturate (signedOf v.ew bits) (-32768) 32767))
  | 7 | 8 => do
    let n := if code = 7 then 8 else 16
    let re ← narrowVal v ovf code (v.fmtC.decode (bits % 2 ^ (v.ew / 2)))
    let im ← narrowVal v ovf code (v.fmtC.decode (bits / 2 ^ (v.ew / 2)))
    return re + im * 2 ^ n
  | 9 => roundD fun u =>
      let x := v.fmtT.decode bits
      let r := toE8m0 v.rm u x
      ⟨(match x with | .fin false m _ => if m = 0 then 0 else clampE8m0 r.1 | _ => r.1), r.2, false, false, false⟩
  | _ => narrowVal v ovf code (v.fmtT.decode bits)

/-! ### Register checks (R160, R206) -/

/-- Whether a grouped register operand fits (R160). -/
def Vec.groupOk (v : Vec) (reg : Nat) : Bool := reg % v.grp == 0 && decide (reg + v.grp ≤ v.nreg)
/-- Whether a single register operand fits. -/
def Vec.oneOk (v : Vec) (reg : Nat) : Bool := decide (reg < v.nreg)
/-- Whether keys can be used at this length (R206). -/
def Vec.keysOk (v : Vec) (km : BitVec 3) (writes : Bool) : Bool := decide (v.vl ≤ 2048) || (km == 0 && !writes)

/-- A source operand of a vector instruction: a grouped register, a single register of n elements, or an x register read
as one element. -/
inductive Opnd where
  | group (reg : Nat)
  | one (reg n : Nat)
  | xreg (r : Reg)
deriving DecidableEq, Repr

/-- Whether an operand fits the configuration. -/
def Vec.opndOk (v : Vec) : Opnd → Bool
  | .group r => v.groupOk r
  | .one r _ => v.oneOk r
  | .xreg _ => true

/-! ### Stream slots (R208 to R214) -/

/-- Raises STREAM (R347): the slot and the reason. -/
def raiseStream {α : Type} (slot reason : Nat) : M α := raise 29 (BitVec.ofNat 64 (slot + reason * 256))

/-- The slots of a vector unit with their numbers. -/
def Vec.slotList (v : Vec) : List (Nat × Slot) :=
  (List.range 8).filterMap fun q => (v.slots.getD q none).map fun s => (q, s)

/-- The slot bound at the base of a group, and a slot that overlaps the group elsewhere. -/
def Vec.boundAt (v : Vec) (reg : Nat) : Option (Nat × Slot) := v.slotList.find? fun p => p.2.reg == reg
/-- A slot whose group meets [reg, reg + n) without beginning at reg. -/
def Vec.boundIn (v : Vec) (reg n : Nat) : Option (Nat × Slot) :=
  v.slotList.find? fun p => p.2.reg != reg && decide (p.2.reg < reg + n) && decide (reg < p.2.reg + v.grp)

/-- Whether a slot is a source. -/
def Slot.isSource (s : Slot) : Bool :=
  match s.kind with
  | .memSource | .fifoSource _ => true
  | _ => false

/-- Elements in a memory pattern (R211). -/
def Slot.total (s : Slot) : Nat := s.counts.foldl (· * ·) 1

/-- The byte distance of element n of a pattern, an odometer over its dimensions (R211). -/
def patternOffset : List Nat → List Int → Nat → Int
  | c :: cs, d :: ds, n => ((n % c : Nat) : Int) * d + patternOffset cs ds (n / c)
  | _, _, _ => 0

/-- The address of element n of a slot's pattern (R211). -/
def Slot.addr (s : Slot) (n : Nat) : Word := s.base + BitVec.ofInt 64 (patternOffset s.counts s.strides n)

/-- A pop as read, before it takes effect: the slot, its bytes in an arrival queue, whether any of those is poisoned, and the
raw elements. -/
structure Popped where
  q : Nat
  fmt : Nat
  bank : Option Nat
  bytes : Nat
  bad : Bool
  raw : List El
deriving DecidableEq, Repr

/-- The bytes of a bank's ring from an offset. -/
def State.ringBytes (s : State) (cl b o n : Nat) : List Byte :=
  (List.range n).map fun i => memByte s.mem (bankAddr cl b ((o + i) % 0x40000))
/-- Whether ring bytes are poisoned. -/
def State.ringBad (s : State) (cl b o n : Nat) : Bool :=
  (List.range n).any fun i => s.poisonedAt (bankAddr cl b ((o + i) % 0x40000)) 1

/-- Runs a read that does not see the strip buffer; the buffer stays, however the read ends. -/
def pastBuffer {α : Type} (m : M α) : M α := do
  let l := (← cpu).buf
  let back : M Unit := modCpu fun h => { h with buf := l }
  modCpu fun h => { h with buf := [] }
  let r ← tryCatch m fun e => do
    back
    throw e
  back
  return r

/-- Checks and reads one memory element as the transfer unit does: not through the strip buffer (R117). DEDUCED, log 53. -/
def readMem (va : Word) (n elem : Nat) : M El := do
  let ps ← checkParts .load false (some elem) (parts va n)
  pastBuffer (readElem (some elem) ps)

/-- Runs an access that a slot makes for element `elem`, at an address: its waits are waits of the slot (R75, R345). -/
def asSlot {α : Type} (q : Nat) (sink : Bool) (va : Word) (elem : Nat) (m : M α) : M α :=
  tryCatch m fun e =>
    match e with
    | .wait w =>
      let on := match w.on with | .modeChange b => WaitOn.slotStall q sink b | .credit => .push q | x => x
      throw (.wait { w with on := on, va := va, elem := elem })
    | x => throw x

/-- The bytes that an instruction's earlier pops take from a bank: the pops of two slots of one bank follow each other (R87, R210). -/
def poppedFrom (seen : List Popped) (bank : Nat) : Nat :=
  ((seen.filter fun p => p.bank == some bank).map Popped.bytes).sum

/-- Reads one strip of a source slot without moving it (R210 to R212), behind the pops that the instruction has made already. `act`
tells which elements are read. A bank that left FIFO mode and came back before this pop is a FIFO bank at the pop: no STREAM (R84,
R87; DESIGN CHOICE, log 106). -/
def popRead (q : Nat) (sl : Slot) (act : Nat → Bool) (seen : List Popped) : M Popped := do
  let s ← get
  let v := s.cpu.vec
  let b := v.fmtB sl.fmt
  if !v.fmtOk sl.fmt then raiseStream q 6
  else
    match sl.kind with
    | .fifoSource bank => do
      let cl := s.cpu.cluster
      let k := s.bank cl bank
      let n := ceilDiv (v.vl * b) 128 * 128
      let before := poppedFrom seen bank
      let waits : M Popped := waitFor (.pop q bank (before + n)) (k.nextByte cl bank) 0
      if k.busy.isSome then waits
      else if k.mode != modeFifo then raiseStream q 5
      else if k.level < k.popped + before + n then waits
      else
        let o := k.head + k.popped + before
        let raw := (List.range v.vl).map fun i =>
          (ofBytes (s.ringBytes cl bank (o + i * b) b), s.ringBad cl bank (o + i * b) b)
        return ⟨q, sl.fmt, some bank, n, s.ringBad cl bank o n, raw⟩
    | _ =>
      if (List.range v.vl).any fun i => act i && decide (sl.total ≤ sl.pos + i) then raiseStream q 4
      else do
        let raw ← (List.range v.vl).mapM fun i =>
          let a := sl.addr (sl.pos + i)
          if act i then asSlot q false a i (readMem a b i) else pure (0, false)
        return ⟨q, sl.fmt, none, 0, false, raw⟩

/-- Adds to the element count of a slot, saturating at 2^32 − 1 (R186). -/
def Slot.move (s : Slot) (n : Nat) : Slot := { s with pos := s.pos + n, moved := min (s.moved + n) 0xFFFFFFFF }

/-- A pop takes effect: the slot moves, and popped bytes wait for the commit (R87, R210); poison among them is consumed, at
whatever position it stands (R362). The bytes of a queue that a store of this instruction's commit has reset are gone with it
(R399). -/
def State.popTake (s : State) (p : Popped) : State :=
  let h := s.cpu.eats p.bad
  let v := h.vec
  let slots := match v.slots.getD p.q none with
    | some sl => v.slots.setIfInBounds p.q (some (sl.move v.vl))
    | none => v.slots
  let s := { s with cpu := { h with vec := { v with slots := slots } } }
  match p.bank with
  | none => s
  | some b =>
    let k := s.bank h.cluster b
    if k.level < k.popped + p.bytes then s
    else
      let s := s.setBank h.cluster b { k with popped := k.popped + p.bytes }
      { s with cpu := { s.cpu with pops := s.cpu.pops ++ [⟨b, p.bytes, k.gen⟩] } }

/-- What an operand's read found, before it takes effect. -/
inductive Gotten where
  | plain (es : List El)
  | stream (p : Popped)
deriving DecidableEq, Repr

/-- Reads an operand: elements 0 to vl − 1, or the n elements of a single register, or one x register. An operand that names
a slot already read in this instruction shares its pop (R210). -/
def readOpnd (act : Nat → Bool) (o : Opnd) (seen : List Popped) : M Gotten := do
  let h ← cpu
  let v := h.vec
  match o with
  | .xreg r => return .plain (List.replicate v.vl ((h.xr r).toNat % 2 ^ v.ew, h.xPoisoned r))
  | .one r n =>
    match v.boundAt r, v.boundIn r 1 with
    | some p, _ => raiseStream p.1 3
    | none, some p => raiseStream p.1 3
    | none, none => return .plain ((List.range n).map fun i => (v.elem r i, v.elemBad r i))
  | .group r =>
    match v.boundIn r v.grp with
    | some p => raiseStream p.1 3
    | none =>
      match v.boundAt r with
      | none => return .plain ((List.range v.vl).map (v.el r))
      | some p =>
        if !p.2.isSource then raiseStream p.1 2
        else
          match seen.find? fun d => d.q == p.1 with
          | some d => return .stream d
          | none => return .stream (← popRead p.1 p.2 act seen)

/-- Reads every operand in order; `act k` tells which elements operand k reads. -/
def readOpnds (act : Nat → Nat → Bool) (k : Nat) : List Opnd → List Popped → M (List Gotten)
  | [], _ => return []
  | o :: r, seen => do
    let g ← readOpnd (act k) o seen
    let rest ← readOpnds act (k + 1) r (match g with | .stream p => p :: seen | _ => seen)
    return g :: rest

/-- The distinct pops among read operands. -/
def gottenPops : List Gotten → List Popped
  | [] => []
  | .plain _ :: r => gottenPops r
  | .stream p :: r => p :: (gottenPops r).filter fun d => d.q != p.q

/-- A computation whose draws are no draws of the hart: the numbers are free values, number k on. -/
def drawOpen {α : Type} (k : Nat) (d : Draw α) : Draw α := do
  let g ← get
  return (d.run ⟨Config.freeWord k, g.stream, 0, false⟩).1

/-- How an instruction meets the key: which elements of operand k it reads, which elements are active, and the number of the
first free value it may use. -/
structure Reach where
  reads : Nat → Nat → Bool
  active : Nat → Bool
  free : Nat

/-- Widens the elements of a pop that are read (R134, R210). An inactive one that a permute reads draws nothing (R138): its
rounding under SR goes either way (DESIGN CHOICE, log 108). -/
def Popped.widen (p : Popped) (v : Vec) (w : Reach) (k : Nat) : Draw (List El) :=
  ((List.range v.vl).zip p.raw).mapM fun e =>
    if w.reads k e.1 then do
      let d := v.widen p.fmt e.2.1
      drawn (if w.active e.1 then d else drawOpen (w.free + e.1) d) e.2.2
    else pure (0, false)

/-- The elements of every operand; a shared pop is widened once. -/
def widenAll (v : Vec) (w : Reach) (k : Nat) : List Gotten → List (Nat × List El) → Draw (List (List El))
  | [], _ => return []
  | .plain es :: r, done => do return es :: (← widenAll v w (k + 1) r done)
  | .stream p :: r, done =>
    match done.find? fun d => d.1 == p.q with
    | some d => do return d.2 :: (← widenAll v w (k + 1) r done)
    | none => do
      let es ← p.widen v w k
      return es :: (← widenAll v w (k + 1) r ((p.q, es) :: done))

/-! ### Destinations: registers, sinks, latch windows (R90, R116, R210, R213, R215) -/

/-- Raises LATCH (R347). -/
def raiseLatch {α : Type} (w reason : Nat) : M α := raise 30 (BitVec.ofNat 64 (w + reason * 256))

/-- The bank a window of a vector core targets: a home bank of its neighbour (R90). -/
def winBank (vcIdx : Nat) (nw : Nat) : Nat :=
  let base := 4 * (vcIdx / 4)
  let m := match bitsAt nw 33 2 with
    | 0 => base + (vcIdx + 1) % 4
    | 1 => base + (vcIdx + 3) % 4
    | 2 => (vcIdx + 4) % 16
    | _ => (vcIdx + 12) % 16
  2 * m + bitsAt nw 32 1

/-- The words of a window write: word number, and the bytes at their places in the word. They are the words of the positions that are
written, `vcompress`'s 0 to c − 1 too, whatever the key says of them (DESIGN CHOICE, log 121). -/
def winWords (v : Vec) (es : List (Nat × El)) : List (Nat × List (Nat × El)) :=
  let per := 8 / v.ewB
  let ws := es.foldl (fun l e => addSorted (e.1 / per) l) []
  ws.map fun w => (w, es.filter fun e => e.1 / per == w)

/-- How much of the instruction at the pc has been written before a wait or a trap: words of a window, or elements of a store
(R116). -/
def Hart.doneTo (h : Hart) : Nat :=
  match h.winDone.find? fun d => d.pc == h.pc && d.depth == h.nest with | some d => d.words | none => 0
/-- Nothing of the instruction at the pc remains to be remembered. -/
def Hart.clearDone (h : Hart) : Hart := { h with winDone := h.winDone.filter fun d => !(d.pc == h.pc && d.depth == h.nest) }
/-- The window register and the bank's generation with which the window write at the pc was checked, if it has issued. -/
def Hart.issued (h : Hart) : Option (Word × Nat) :=
  (h.winDone.find? fun d => d.pc == h.pc && d.depth == h.nest).bind WinDone.issue
/-- Remembers how much of the instruction at the pc has been written. -/
def Hart.setDone (h : Hart) (n : Nat) : Hart := { h.clearDone with winDone := ⟨h.pc, n, h.nest, none⟩ :: h.clearDone.winDone }
/-- Remembers how much of the window write at the pc has been written, and what it was checked with. -/
def Hart.setWinDone (h : Hart) (n : Nat) (nw : Word) (gen : Nat) : Hart :=
  { h.clearDone with winDone := ⟨h.pc, n, h.nest, some (nw, gen)⟩ :: h.clearDone.winDone }
/-- The register of window w as the instruction at the pc uses it: as it was when its write issued. -/
def Hart.winReg (h : Hart) (w : Nat) : Nat := (match h.issued with | some p => p.1 | none => h.vec.nwin.getD w 0).toNat

/-- The top byte of the window that a write of the elements in idx reaches. -/
def winTop (v : Vec) (idx : List Nat) : Nat := idx.foldl (fun t i => max t ((i + 1) * v.ewB)) 0

/-- The check of a whole write of the elements in idx through a window, when it issues (R90); a poisoned window register gives no
address (R363). A write that has issued is not checked again, unless its bank has changed its mode since: then the new mode and the
new WINEN govern what is left of it (R84; DEDUCED, log 137). -/
def winCheck (w : Nat) (idx : List Nat) : M Unit := do
  let s ← get
  let h := s.cpu
  let v := h.vec
  let nw := h.winReg w
  let b := winBank h.vcIdx nw
  let k := s.bank h.cluster b
  let top := winTop v idx
  let accepts : M Unit := if k.mode != modeLatch then raiseLatch w 4 else if !k.winen then raiseLatch w 5 else pure ()
  let stalls : M Unit :=
    let left := ((winWords v (idx.map fun i => (i, (0, false)))).drop h.doneTo).flatMap Prod.snd
    let i := (left.headD (0, (0, false))).1
    let a := bankAddr h.cluster b (8 * (bitsAt nw 17 15 + i / (8 / v.ewB)))
    waitFor (.window w a) (BitVec.ofNat 64 a) i
  match h.issued with
  | some p => if k.busy.isSome then stalls else if k.gen = p.2 then pure () else accepts
  | none =>
    if h.cpoison.contains (0x810 + w) then raisePsn
    else if k.busy.isSome then stalls
    else if !bitAt nw 63 then raiseLatch w 0
    else if bitsAt nw 0 16 = 0 then raiseLatch w 1
    else if 8 * bitsAt nw 0 16 < top then raiseLatch w 2
    else if 0x40000 < 8 * bitsAt nw 17 15 + top then raiseLatch w 3
    else accepts

/-- Writes one word of a window: it waits for an empty word, then sets the full bit (R86, R116). `done` words are written
already. -/
def winPut (w : Nat) (ctr : Word) : List (Nat × List (Nat × El)) → Nat → M Unit
  | [], _ => pure ()
  | p :: r, done => do
    let s ← get
    let h := s.cpu
    let v := h.vec
    let nw := h.winReg w
    let b := winBank h.vcIdx nw
    let word := bitsAt nw 17 15 + p.1
    let k := s.bank h.cluster b
    if k.isFull word then do
      modCpu fun h => { h.setWinDone done (BitVec.ofNat 64 nw) k.gen with
        rngctr := ctr, progress := if h.doneTo < done then 0 else h.progress }
      waitFor (.window w (bankAddr h.cluster b (8 * word))) (BitVec.ofNat 64 (bankAddr h.cluster b (8 * word)))
        ((p.2.headD (0, (0, false))).1)
    else do
      let a := bankAddr h.cluster b (8 * word)
      modify fun s => p.2.foldl (fun s e =>
        s.visWrite (some h.num) (a + e.1 % (8 / v.ewB) * v.ewB) (bytesOf v.ewB e.2.1) e.2.2) s
      modify fun s => s.setWord h.cluster b word true
      winPut w ctr r (done + 1)

/-- Writes elements to a latch window, going on after the words that an earlier execution has written (R116). -/
def winWrite (w : Nat) (ctr : Word) (es : List (Nat × El)) : M Unit := do
  let h ← cpu
  winPut w ctr ((winWords h.vec es).drop h.doneTo) h.doneTo
  modCpu (·.clearDone)

/-- A destination register that a slot misuses: a group that a slot overlaps elsewhere, or one bound to a source (R210). -/
def destUse (reg : Nat) : M Unit := do
  let v := (← cpu).vec
  match v.boundIn reg v.grp with
  | some p => raiseStream p.1 3
  | none =>
    match v.boundAt reg with
    | none => pure ()
    | some p => if p.2.isSource then raiseStream p.1 2 else pure ()

/-- The messages that a push of a strip closes at the sink bound to a register (R213). -/
def Vec.closes (v : Vec) (reg : Nat) : Nat :=
  match v.boundAt reg with
  | some (_, sl) =>
    (match sl.kind with
     | .msgSink d _ => (sl.gathered.length + v.vl * v.fmtB sl.fmt) / hdLen d
     | _ => 0)
  | none => 0

/-- Checks the destination at a register before anything takes effect: misuse of a bound register, the end of a pattern, the
format, translation of every pushed element, and room for the messages a push closes (R210, R211, R213). The instruction's
earlier destinations close `before` messages. -/
def destCheck (reg : Nat) (idx : List Nat) (before : Nat) : M Unit := do
  destUse reg
  let s ← get
  let v := s.cpu.vec
  match v.boundAt reg with
    | none => pure ()
    | some p => do
      let sl := p.2
      if !v.fmtOk sl.fmt then raiseStream p.1 6
      else
        match sl.kind with
        | .msgSink d _ => do
          let b := v.fmtB sl.fmt
          let n := s.inFlightOf s.cpu.num
          let closes := v.closes reg
          let waits := waitFor (.push p.1) 0 0
          if v.strip.isSome then
            if closes = 0 ∨ n + before + closes ≤ maxInFlight then (if n < maxInFlight then pure () else waits)
            else
              -- the element whose push closes the ninth message
              throw (.overflow (((maxInFlight - (n + before) + 1) * hdLen d - sl.gathered.length - 1) / b) 0)
          else if n < maxInFlight then pure ()
          else do
            commit
            let s ← get
            if s.inFlightOf s.cpu.num < maxInFlight then pure () else waits
        | _ => do
          if idx.any fun i => decide (sl.total ≤ sl.pos + i) then raiseStream p.1 4
          else idx.forM fun i => do
            let a := sl.addr (sl.pos + i)
            let _ ← asSlot p.1 true a i (checkParts .store false (some i) (parts a (v.fmtB sl.fmt)))
            pure ()

/-- Checks every destination of an instruction, in order. -/
def destChecks (idx : List Nat) : (before : Nat) → List Nat → M Unit
  | _, [] => pure ()
  | k, d :: r => do
    destCheck d idx k
    destChecks idx (k + (← cpu).vec.closes d) r

/-- Writes a number of n bytes to checked memory through the strip buffer. -/
def storeMem (va : Word) (n val : Nat) (bad : Bool) (elem : Nat) : M Unit := do
  let ps ← checkParts .store false (some elem) (parts va n)
  let sc := (← cpu).vec.scope
  let rec go : List (Nat × Nat × Word) → Nat → M Unit
    | [], _ => pure ()
    | p :: r, val => do
      putStore p.1 (bytesOf p.2.1 val) sc bad p.2.2 elem
      go r (val / 2 ^ (8 * p.2.1))
  go ps val

/-- Runs the checks of an instruction: when they stop it, the numbers it has drawn are given back, and nothing has taken
effect (R216). -/
def checked {α : Type} (ctr : Word) (m : M α) : M α :=
  tryCatch m fun e => do
    modCpu fun h => { h with rngctr := ctr }
    throw e

/-- Elements of an element group (R207). -/
def Vec.groupLen (v : Vec) : Nat := 128 / v.ewB

/-- The element-progress timer restarts where the instruction at the pc has completed an element group since its last wait, and
now waits at element n (R207, R344). -/
def Hart.pastGroups (h : Hart) (n : Nat) : Hart :=
  if h.doneTo / h.vec.groupLen < n / h.vec.groupLen then { h with progress := 0 } else h

/-- Writes the elements of a vector store in order, numbered from `first` on. One that has to wait, because the strip buffer is
full and its commit waits, goes on at that element when the instruction executes again; the numbers drawn are given back. -/
def storeEach (ctr : Word) (first : Nat) (f : Nat → M Unit) : List Nat → M Unit
  | [] => pure ()
  | i :: r => do
    if (← cpu).doneTo ≤ first + i then
      tryCatch (f i) fun e => do
        match e with
        | .wait w => do
          modCpu fun h => { (h.pastGroups (first + i)).setDone (first + i) with rngctr := ctr }
          throw (.wait { w with elem := i })
        | x => throw x
    storeEach ctr first f r

/-- The stores of a vector store, all of them, from where an earlier execution stopped. -/
def storeAll (ctr : Word) (f : Nat → M Unit) (is : List Nat) : M Unit := do
  storeEach ctr 0 f is
  modCpu (·.clearDone)

/-- Closes one message of a message sink that has gathered all of it: it is held until the next commit point. -/
def closeOne (q : Nat) (sl : Slot) (d l : Word) : M Unit := do
  let n := hdLen d
  let left : Slot := { sl with gathered := sl.gathered.drop n, marks := sl.marks.drop n }
  modCpu fun h => { h with buf := .msg (mkMsg h.num d l (sl.gathered.take n) ((sl.marks.take n).any id)) :: h.buf }
  modVec fun v => { v with slots := v.slots.setIfInBounds q (some left) }

/-- What `doneTo` says of an instruction whose pushed bytes are all gathered, and whose messages are still being closed. -/
def allPushed : Nat := 2 ^ 32

/-- Runs what a vector instruction does at element i: a wait says that it has reached it (R345). -/
def atElem {α : Type} (i : Nat) (m : M α) : M α :=
  tryCatch m fun e => match e with | .wait w => throw (.wait { w with elem := i }) | x => throw x

/-- Closes the messages that the sink bound to a register has gathered (R191, R213): where eight are in flight the older stores
and held messages commit first, and then the instruction waits for one to land. It waits at the element whose push closes the
message: those behind it have left the bytes that follow the message's (R345). -/
def closeFull (reg : Nat) : (fuel : Nat) → M Unit
  | 0 => modCpu (·.clearDone)
  | k + 1 => do
    let s ← get
    match s.cpu.vec.boundAt reg with
    | some (q, sl) =>
      match sl.kind with
      | .msgSink d l =>
        if sl.gathered.length < hdLen d || hdLen d == 0 then modCpu (·.clearDone)
        else do
          if maxInFlight ≤ s.inFlightOf s.cpu.num then do
            modCpu (·.setDone allPushed)
            let v := s.cpu.vec
            atElem (v.vl - 1 - (sl.gathered.length - hdLen d) / v.fmtB sl.fmt) do
              commit
              let s ← get
              if maxInFlight ≤ s.inFlightOf s.cpu.num then waitFor (.push q) 0 0
          closeOne q sl d l
          closeFull reg k
      | _ => pure ()
    | none => pure ()
/-- The messages one push can close, and those before it. -/
def closeFuel : Nat := 40000

/-- Bits that number the elements of one destination. -/
def destSpan : Nat := 65536

/-- What a destination receives: at a sink each element narrowed to the slot's format (R140, R142, R210), else the elements. -/
def destForm (reg : Nat) (es : List (Nat × El)) : M (List (Nat × El)) := do
  let h ← cpu
  match h.vec.boundAt reg with
  | some p => do
    let bad := h.ovfSpoils p.2.fmt && !es.isEmpty
    consume bad
    drawing (es.mapM fun e => do return (e.1, ← drawn (h.vec.narrowStore h.ovf p.2.fmt e.2.1) (e.2.2 || bad)))
  | none => return es

/-- The stores of a push to a memory sink, destination number k of its instruction (R211). -/
def destStores (ctr : Word) (k reg : Nat) (raw : List (Nat × El)) : M Unit := do
  let v := (← cpu).vec
  match v.boundAt reg with
  | some (q, sl) =>
    match sl.kind with
    | .msgSink _ _ => pure ()
    | _ => storeEach ctr (k * destSpan) (fun i =>
        let a := sl.addr (sl.pos + i)
        match raw.find? fun e => e.1 == i with
        | some e => asSlot q true a i (storeMem a (v.fmtB sl.fmt) e.2.1 e.2.2 i)
        | none => pure ()) (raw.map Prod.fst)
  | none => pure ()

/-- What a destination has received takes effect: an ordinary group its elements, a message sink its bytes, and a sink's slot
moves (R210, R213). A position below vl that the instruction does not write, active or not, is skipped at a memory sink and
takes zero bytes at a message sink: R210 says so of inactive elements only (DESIGN CHOICE, log 121). -/
def destLand (reg : Nat) (raw : List (Nat × El)) : M Unit :=
  modVec fun v =>
    match v.boundAt reg with
    | none => v.setElems reg raw
    | some (q, sl) =>
      let b := v.fmtB sl.fmt
      let moved := sl.move v.vl
      let es := (List.range v.vl).map fun i => match raw.find? fun e => e.1 == i with | some e => e.2 | none => (0, false)
      let moved := match sl.kind with
        | .msgSink _ _ => { moved with
            gathered := sl.gathered ++ (es.flatMap fun e => bytesOf b e.1)
            marks := sl.marks ++ (es.flatMap fun e => List.replicate b e.2) }
        | _ => moved
      { v with slots := v.slots.setIfInBounds q (some moved) }

/-- Writes the results of an instruction to its destinations. Everything that can wait, the stores of pushes to memory sinks, comes
before anything that an execution after the wait would read: the registers and the slots (R171, R244). -/
def writeDests (ctr : Word) (ds : List (Nat × List (Nat × El))) : M Unit := do
  let raw ← ds.mapM fun d => do return (d.1, ← destForm d.1 d.2)
  ((List.range raw.length).zip raw).forM fun d => destStores ctr d.1 d.2.1 d.2.2
  modCpu (·.clearDone)
  raw.forM fun d => destLand d.1 d.2

/-! ### The driver -/

/-- Step 2 of R151: VBAD. A poisoned `vcfg` or `vl` is not acted on (R359, R363). -/
def vbadCheck : M Unit := do
  let h ← cpu
  if h.csrBad 0x800 || h.csrBad 0x801 then raisePsn
  else if h.vec.vbad then throw (.excBits 24) else pure ()

/-- What a vector instruction computes: the operands it reads, the registers it writes, the element indices it writes, and
the results from the operands' elements, one list per destination. `whole k` says that operand k is read at every position,
whatever the key holds, and `takes` which elements of such an operand a result is made of; `psn` that a poisoned value is put to a
use that is not data (R363); `deps` the elements whose key bits a result depends on; `table` which elements of a single register
are read. -/
structure VecFn where
  cfg : Vec → Bool
  srcs : List Opnd
  dests : List Nat
  idx : Vec → List Nat
  comp : Vec → List (List El) → Draw (List (List El))
  whole : Nat → Bool := fun _ => false
  takes : Vec → List (List El) → Nat → Nat → Bool := fun _ _ _ _ => true
  psn : Vec → List (List El) → Bool := fun _ _ => false
  deps : Vec → Nat → List Nat := fun _ i => [i]
  table : Vec → Nat → Bool := fun _ _ => true

/-- Whether any poisoned element was read. -/
def anyBad (act : Nat → Nat → Bool) (ops : List (List El)) : Bool :=
  ((List.range ops.length).zip ops).any fun o => ((List.range o.2.length).zip o.2).any fun p => p.2.2 && act o.1 p.1

/-- Whether an operand is a single register. -/
def Opnd.isOne : Opnd → Bool
  | .one _ _ => true
  | _ => false

/-- Whether an operand is an x register. -/
def Opnd.isX : Opnd → Bool
  | .xreg _ => true
  | _ => false

/-- Whether an operand was popped from a stream. -/
def Gotten.isStream : Gotten → Bool
  | .stream _ => true
  | .plain _ => false

/-- Whether an element that is read, or any result, is poisoned: what the instruction consumes (R362). Of a register that is read at
any position, these are the elements that a result is made of. -/
def VecFn.poisoned (f : VecFn) (v : Vec) (act : Nat → Nat → Bool) (got : List Gotten) (ops res : List (List El)) : Bool :=
  let stream (k : Nat) : Bool := (got.getD k (.plain [])).isStream
  anyBad (fun k i =>
    if (f.srcs.getD k (.group 0)).isOne then f.table v i
    else if f.whole k && !stream k then decide (i < v.vl) && f.takes v ops k i
    else act k i) ops || res.any fun l => l.any Prod.snd

/-- Marks the results that depend on poisoned bits of the key (R361). -/
def VecFn.keyMarks (f : VecFn) (v : Vec) (km : BitVec 3) (res : List (List El)) : List (List El) :=
  if !v.keyBad km.toNat then res
  else
    let bad (i : Nat) : Bool := (f.deps v i).any (v.keyBadAt km)
    res.map fun l => ((f.idx v).zip l).map fun e => (e.2.1, e.2.2 || bad e.1)

/-- Which elements operand k reads: the active ones, or all below vl. What a permute reads at a position that its key makes
inactive counts as read: for the end of a pattern, for the memory access and its faults (R211, R245; DESIGN CHOICE, log 108). -/
def VecFn.reads (f : VecFn) (v : Vec) (km : BitVec 3) (k i : Nat) : Bool := v.active km i || (f.whole k && decide (i < v.vl))

/-- Configuration of a vector instruction with register results (R160, R206). -/
def VecFn.fits (f : VecFn) (o : VOp) (v : Vec) : Bool :=
  f.cfg v && f.srcs.all v.opndOk && (if o.dk then !v.prot else f.dests.all v.groupOk) && v.keysOk o.km false

/-- Runs a vector instruction with register, sink or window results (R116, R151, R205, R210, R215, R222). Every source is
read and every check made before anything takes effect. Under SR the numbers are drawn in this order: the widening of each popped
operand, operand by operand, then the results, then the narrowing at a sink (DESIGN CHOICE, log 109). What the pop of a source raises
comes before what a sink does (DESIGN CHOICE, log 110). A word of a latch window that would hold only positions that the instruction
leaves undisturbed is neither waited for nor written (DESIGN CHOICE, log 121). -/
def VecFn.exec (f : VecFn) (o : VOp) : M Unit := do
  onVc
  vbadCheck
  let v := (← cpu).vec
  need (f.fits o v)
  if v.vl = 0 then (if o.dk then commitPoint else pure ())
  else if !o.dk && (← cpu).doneTo == allPushed then f.dests.forM fun d => closeFull d closeFuel
  else do
    if o.dk then do
      commitPoint
      winCheck (o.vd.toNat % 8) (f.idx v)
    else f.dests.forM destUse
    let reach : Reach := ⟨f.reads v o.km, v.active o.km, (← get).free⟩
    let ctr := (← cpu).rngctr
    let r : List Gotten × List (List El) ← checked ctr do
      let got ← readOpnds reach.reads 0 f.srcs []
      if !o.dk then destChecks (f.idx v) 0 f.dests
      let ops ← drawing (widenAll v reach 0 got [])
      if f.psn v ops then raisePsn else return (got, ops)
    if !(gottenPops r.1).isEmpty then modify fun s => { s with free := s.free + v.vl }
    let res ← drawing (f.comp v r.2)
    let res := f.keyMarks v o.km res
    consume (f.poisoned v reach.reads r.1 r.2 res || v.keyBadAny o.km)
    if o.dk then winWrite (o.vd.toNat % 8) ctr ((f.idx v).zip (res.headD []))
    else writeDests ctr ((f.dests.zip res).map fun d => (d.1, (f.idx v).zip d.2))
    modify fun s => (gottenPops r.1).foldl State.popTake s
    if !o.dk then f.dests.forM fun d => closeFull d closeFuel

/-- A vector instruction that writes key bits from its operands (R206, R229, R232): `comp` gives the bits at the active
elements. -/
def keyExec (o : VOp) (cfg : Vec → Bool) (srcs : List Opnd) (comp : Vec → List (List El) → List Nat → List Bool) : M Unit := do
  onVc
  vbadCheck
  let v := (← cpu).vec
  need (cfg v && srcs.all v.opndOk && v.keysOk o.km true)
  if v.vl = 0 then pure ()
  else do
    let act (_ i : Nat) : Bool := v.active o.km i
    let ctr := (← cpu).rngctr
    let got ← checked ctr (readOpnds act 0 srcs [])
    let ops ← drawing (widenAll v ⟨act, v.active o.km, 0⟩ 0 got [])
    consume (anyBad act ops || v.keyBadAny o.km)
    let idx := v.actives o.km
    let bits := comp v ops idx
    modify fun s => (gottenPops got).foldl State.popTake s
    let bad (i : Nat) : Bool := v.keyBadAt o.km i || ops.any fun es => (es.getD i (0, false)).2
    modVec fun v => v.setKeyBits (o.vd.toNat % 8) ((idx.zip bits).map fun p => (p.1, p.2, bad p.1))

/-- A vector instruction whose result goes to an x register; `psn` says that a poisoned value names the element, `one` the
element that alone makes the result and whose key bit alone governs it. -/
def scalarExec (o : VOp) (psn : Bool) (cfg : Vec → Bool) (srcs : List Opnd) (one : Nat) (comp : Vec → List (List El) → El) : M Unit := do
  onVc
  vbadCheck
  let v := (← cpu).vec
  need (cfg v && srcs.all v.opndOk && v.keysOk o.km false)
  if v.vl = 0 then pure ()
  else do
    if psn then raisePsn
    let act (_ i : Nat) : Bool := v.active o.km i
    let ctr := (← cpu).rngctr
    let got ← checked ctr (readOpnds act 0 srcs [])
    let ops ← drawing (widenAll v ⟨act, v.active o.km, 0⟩ 0 got [])
    let r := comp v ops
    let r := (r.1, r.2 || (decide (one < v.vl) && v.keyBadAt o.km one))
    let streamed (k : Nat) : Bool := (got.getD k (.plain [])).isStream
    consume (r.2 || anyBad (fun k i => act k i && (streamed k || i == one)) ops)
    modify fun s => (gottenPops got).foldl State.popTake s
    putXp (BitVec.ofNat 5 o.vd.toNat) (BitVec.ofNat 64 r.1) r.2

/-- The second operand of the shapes with an S form (R157, R222). -/
def srcB (o : VOp) : Opnd := if o.s then .xreg (BitVec.ofNat 5 o.vs2.toNat) else .group o.vs2.toNat
/-- The first operand. -/
def srcA (o : VOp) : Opnd := .group o.vs1.toNat
/-- The third operand of shape T and P. -/
def srcC (o : VOp) : Opnd := .group o.vs3.toNat

/-- Element i of an operand's list. -/
def opAt (ops : List (List El)) (k i : Nat) : El := (ops.getD k []).getD i (0, false)

/-- An instruction that computes each active element from the elements at its position (R222). -/
def elementwise (o : VOp) (cfg : Vec → Bool) (srcs : List Opnd) (f : Vec → List Nat → Draw Nat) : M Unit :=
  VecFn.exec
    { cfg := cfg, srcs := srcs, dests := [o.vd.toNat], idx := fun v => v.actives o.km
      comp := fun v ops => do
        let r ← (v.actives o.km).mapM fun i => do
          let es := (List.range srcs.length).map fun k => opAt ops k i
          drawn (f v (es.map Prod.fst)) (es.any Prod.snd)
        return [r] } o

end Sys2Proof.Machine
end

