-- ==== Sys2Proof/Machine/Gang.lean ====
section
/-! DEFINITION. The hinge: joining a row's matrix commands and weight chains (R156, R181, R182, R254, R255, R273, R275, R347). -/

namespace Sys2Proof.Machine

/-- Raises HINGE with the address of the command word or block (R347). -/
def hingeExc (a : Word) : Exc := .plain 28 a

/-- The cores of a row by column. -/
def colHarts (cl row : Nat) : List Nat := (List.range 4).map fun c => vcNum cl (4 * row + c)

/-- The join of a column. -/
def Row.joinOf (w : Row) (col : Nat) : Option Join := w.joins.find? (·.col == col)

/-- Takes HINGE on the other three cores of a row, each at its own instruction; every join is withdrawn. -/
def State.hingeOthers (s : State) (js : List Join) : State :=
  let me := s.cpu.num
  let h := s.cpu
  js.foldl (fun s j =>
    if j.col == h.col then s
    else ((s.turnTo (vcNum h.cluster (4 * h.row + j.col))).takeTrap (hingeExc j.addr) 0).turnTo me) s

/-- A join advances the waits of a row's cores in the hinge, and restarts the joining core's own timer (R344). -/
def State.restartRow (s : State) (cl row : Nat) : State :=
  let me := s.cpu.num
  (colHarts cl row).foldl (fun s n => s.modHart n fun h =>
    match h.wait with
    | some ⟨.hinge _, _, _, _⟩ => { h with progress := 0 }
    | _ => if n = me then { h with progress := 0 } else h) s

/-- Whether four joins agree: of one kind, with equal words, or at one address for `wdrive` (R254, R182). -/
def joinsAgree (js : List Join) : Bool :=
  match js with
  | [] => false
  | j :: _ => js.all fun k => k.isDrive == j.isDrive && (if j.isDrive then k.addr == j.addr else k.words == j.words)

/-- Issues a matrix command for four joins in column order (R181, R254 to R257); the other cores retire their `mgang`, a commit point. Its accesses are translated with the satp and
the mode of the core that joined last: the four run one task and R253 names none (DEDUCED, log 69). -/
def State.issueMatrix (s : State) (js : List Join) : State :=
  let h := s.cpu
  let ns := colHarts h.cluster h.row
  let words := (js.map (·.words)).headD 0
  let ctx := bitsAt words 28 2
  let t := h.ownTask
  let w := s.row h.cluster h.row
  let c : MatCmd := {
    words := words, addr := (js.map (·.addr)).headD 0, forms := js.map (·.form)
    seqs := ns.map fun n => (s.getHart n).posted.getD 0 0 + 1
    satp := h.csr.satp, mode := h.mode, job := t.map (·.job), task := t.map (·.id), hart := ns.headD 0
    wseqs := ns.map fun n => min (bitsAt words 144 48) ((s.getHart n).posted.getD ctx 0)
    result := none, reruns := 0 }
  let s := s.setRow h.cluster h.row { w with joins := [], queue := w.queue ++ [.cmd c] }
  let s := js.foldl (fun s j => s.modHart (vcNum h.cluster (4 * h.row + j.col)) fun g =>
    let n := g.posted.getD 0 0 + 1
    let g := { g with posted := g.posted.setIfInBounds 0 n }
    let g := g.setX j.rd (BitVec.ofNat 64 n)
    if g.num = h.num then g else { g.advance 4 with la := [] }) s
  match t with
  | some r => s.modJob r.job fun j => { j with count := j.count + 1 }
  | none => s

/-- The address of the resume block that a core's `wdstate` names (R198, R275). -/
def resumeAddr (wd : Word) : Word := sextWord 48 (bitsAt wd.toNat 5 43 * 32)

/-- A kept chain at the block that a resuming `wdrive` names (R275). -/
def Chain.again (r : Chain) (addr : Word) (h : Hart) : Chain :=
  { r with block := addr, begun := false, satp := h.csr.satp, mode := h.mode, reruns := 0, header := none }

/-- Hands the row to its JMA (R182, R273, R275): a chain resumes where `wdstate` says so, else it starts afresh. Its accesses are
translated with the satp and the mode of the core that joined fourth; R276 names none where the four differ (DESIGN CHOICE,
log 125). -/
def State.startDrive (s : State) (addr : Word) : State :=
  let h := s.cpu
  let w := s.row h.cluster h.row
  let fresh : Chain := ⟨addr, [], false, [0, 0, 0, 0], [none, none, none, none], false, h.csr.satp, h.mode, 0, none, []⟩
  let resumed := match w.resume with
    | some r => if resumeAddr h.vec.wdstate = addr then some (r.again addr h) else none
    | none => none
  let w := match resumed with
    | some r => { w with joins := [], chain := some r, resume := none }
    | none => { w with joins := [], chain := some fresh, resume := none, repair := false }
  (colHarts h.cluster h.row).foldl (fun s n => s.modHart n fun g => { g with wait := some ⟨.chain, 0, 0, false⟩, progress := 0 })
    (s.setRow h.cluster h.row w)

/-- Joins the hinge, or goes on waiting in it (R254). With the fourth join, four agreeing joins issue their command or start
their chain; else HINGE is raised on all four. A `mgang` advances past itself when its command issues. -/
def joinHinge (j : Join) : M Unit := do
  let s ← get
  let h := s.cpu
  let w := s.row h.cluster h.row
  let js := w.joins.filter (·.col != j.col) ++ [j]
  let w := if j.isDrive then w else { w with resume := none, repair := false }
  let s := s.setRow h.cluster h.row { w with joins := js }
  let s := if (w.joinOf j.col).isSome then s else s.restartRow h.cluster h.row
  if js.length < 4 then do
    set s
    waitFor (.hinge j.isDrive) j.addr 0
  else
    let ordered := (List.range 4).filterMap fun c => js.find? (·.col == c)
    if joinsAgree ordered then
      if j.isDrive then do
        set ((s.eats h.postBad).startDrive j.addr)
        waitFor .chain 0 0
      else set ((s.eats h.postBad).issueMatrix ordered)
    else do
      set ((s.setRow h.cluster h.row { w with joins := [] }).hingeOthers ordered)
      throw (.exc (hingeExc j.addr))

/-- Whether the core runs a ROW task: only such a core may join (R254). A core that runs no task at all takes HINGE as one that runs
a VC task does; R254 and R347 name the VC task only (DESIGN CHOICE, log 124). -/
def rowTask (a : Word) : M Unit := do
  match (← cpu).ownTask with
  | some t => if t.gang then pure () else throw (.exc (hingeExc a))
  | none => throw (.exc (hingeExc a))

/-- The join that a core waiting in the hinge has made already: it waits on. -/
def waitingJoin (isDrive : Bool) : M (Option Join) := do
  let s ← get
  let h := s.cpu
  match h.wait with
  | some ⟨.hinge d, _, _, _⟩ => return if d == isDrive then (s.row h.cluster h.row).joinOf h.col else none
  | _ => return none

/-- Bytes of the register image that a matrix command's A operand takes (R255); a word of another ENGINE takes none, and is a defect
(R165). -/
def imageNeed (words : Nat) : Nat :=
  if bitsAt words 8 4 ≠ 0 then 0
  else
    match bitsAt words 0 8 with
    | 2 | 3 => 2048
    | 1 | 4 => 1536
    | _ => 0

/-- The common course of the three forms of `mgang` (R156, R181, R254, R255). `form` makes the A operand from the command
word, or raises what keeps the core from joining. DEDUCED, log 69. -/
def mgangBody (rd rs1 : Reg) (cfg : Vec → Bool) (form : Nat → M AForm) : M Unit := do
  onVc
  need (cfg (← cpu).vec)
  match ← waitingJoin false with
  | some j => joinHinge j
  | none => do
    let a ← useX rs1
    if a.toNat % 32 ≠ 0 then raise 4 a
    takeMatFault fun _ => true
    commitPoint
    rowTask a
    let w ← commandOnce a
    let f ← form w
    let h ← cpu
    match (← get).job? ((h.ownTask.map (·.job)).getD 0) with
    | some j => if j.count = 65535 then waitFor (.post 0) 0 0
    | none => pure ()
    if 64 ≤ h.posted.getD 0 0 - h.done.getD 0 0 then waitFor (.post 0) 0 0
    joinHinge ⟨h.col, false, a, w, f, rd⟩

/-- The A operand that a register group supplies: its byte image and the numbers of its poisoned bytes (R201, R255). -/
def Vec.aImage (v : Vec) (reg : Nat) : AForm :=
  .vreg ((List.range v.grp).flatMap fun k => v.bytes (reg + k) 0 v.imageB)
    ((List.range v.grp).flatMap fun k =>
      (v.vpoison.filter fun e => e / 4096 == reg + k).map fun e => k * v.imageB + e % 4096)

/-- mgang with A in a vector register group (R156, R255): its image is taken when the core joins, and the group is not
written before the command issues, because the core waits. -/
def execMgangVreg (rd rs1 : Reg) (v : BitVec 6) (s : State) : Host.Outcome State Fault Refusal :=
  instr (.mgangVreg rd rs1 v) (mgangBody rd rs1 (fun vec => vec.groupOk v.toNat) fun words => do
    let vec := (← cpu).vec
    let regs := (List.range vec.grp).map (v.toNat + ·)
    need (decide (imageNeed words ≤ vec.imageB * vec.grp))
    match vec.slotList.find? fun p => regs.any fun r => decide (p.2.reg ≤ r) && decide (r < p.2.reg + vec.grp) with
    | some p => raiseStream p.1 3
    | none => return vec.aImage v.toNat) s

/-- mgang with A in memory (R156, R255). -/
def execMgangCsram (rd rs1 rs2 rs3 : Reg) (s : State) : Host.Outcome State Fault Refusal :=
  instr (.mgangCsram rd rs1 rs2 rs3) (mgangBody rd rs1 (fun _ => true) fun _ => do
    let b ← useX rs2
    let t ← useX rs3
    let col := (← cpu).col
    let base := sextWord 48 b.toNat + BitVec.ofNat 64 (col * bitsAt t.toNat 32 5 * 0x40000)
    return .csram base.toNat (bitsAt b.toNat 48 16) (bitsAt t.toNat 0 32)) s

/-- mgang without an A operand (R156). -/
def execMgangNoOperand (rd rs1 : Reg) (s : State) : Host.Outcome State Fault Refusal :=
  instr (.mgangNoOperand rd rs1) (mgangBody rd rs1 (fun _ => true) fun _ => return .none) s

/-- wdrive (R182, R273, R275): the commit point, then its own exceptions; the core waits here until its chain has ended, which moves it past the instruction. -/
def execWdrive (rs1 : Reg) (s : State) : Host.Outcome State Fault Refusal :=
  instrJump (.wdrive rs1) (do
    onVc
    let s ← get
    let h := s.cpu
    match h.wait, (s.row h.cluster h.row).chain with
    | some ⟨.chain, _, _, _⟩, some _ => waitFor .chain 0 0
    | _, _ => do
      match ← waitingJoin true with
      | some j => joinHinge j
      | none => do
        commitPoint
        let a ← useX rs1
        if a.toNat % 32 ≠ 0 then raise 4 a
        if (← cpu).csrBad 0xCC4 then raisePsn
        takeMatFault fun _ => true
        rowTask a
        joinHinge ⟨(← cpu).col, true, a, 0, .none, 0⟩) s

end Sys2Proof.Machine
end

