-- ==== Sys2Proof/Machine/VecComplex.lean ====
section
/-! DEFINITION. The complex instructions, class 1 (R240 to R244). -/

namespace Sys2Proof.Machine

/-- A complex value. -/
structure Cx where
  re : FV
  im : FV
deriving DecidableEq, Repr

/-- Class 1 executes at EW 32 and 64 (R240). -/
def complexCfg (v : Vec) : Bool := v.ewB == 4 || v.ewB == 8

/-- A complex element's components before flushing. -/
def Vec.cxRaw (v : Vec) (bits : Nat) : Cx :=
  ⟨v.fmtC.decode (bits % 2 ^ (v.ew / 2)), v.fmtC.decode (bits / 2 ^ (v.ew / 2))⟩

/-- A complex source element, each component flushed (R139, R240). -/
def Vec.cx (v : Vec) (bits : Nat) : Cx :=
  ⟨v.fmtC.flush v.fz (v.cxRaw bits).re, v.fmtC.flush v.fz (v.cxRaw bits).im⟩

/-- The conjugate. -/
def Cx.conj (a : Cx) : Cx := ⟨a.re, a.im.negate⟩
/-- Minus the value. -/
def Cx.neg (a : Cx) : Cx := ⟨a.re.negate, a.im.negate⟩
/-- The sum, exact per component. -/
def Cx.add (z : Bool) (a b : Cx) : Cx := ⟨a.re.add z b.re, a.im.add z b.im⟩

/-- An exact sum of terms as one operation (R146, R240). -/
def sumTerms (z : Bool) : List FV → FV
  | [] => .zero false
  | [t] => t
  | t :: r => t.add z (sumTerms z r)

/-- The terms of the two components of a product. -/
def mulTerms (a b : Cx) : List FV × List FV :=
  ([a.re.mul b.re, (a.im.mul b.im).negate], [a.re.mul b.im, a.im.mul b.re])

/-- The terms of the two components of a × b × c. -/
def mul3Terms (a b c : Cx) : List FV × List FV :=
  ([(a.re.mul b.re).mul c.re, ((a.im.mul b.im).mul c.re).negate, ((a.re.mul b.im).mul c.im).negate,
    ((a.im.mul b.re).mul c.im).negate],
   [(a.re.mul b.re).mul c.im, ((a.im.mul b.im).mul c.im).negate, (a.re.mul b.im).mul c.re, (a.im.mul b.re).mul c.re])

/-- Minus every term. -/
def negTerms (t : List FV × List FV) : List FV × List FV := (t.1.map FV.negate, t.2.map FV.negate)

/-- A value added to terms. -/
def addTerms (d : Cx) (t : List FV × List FV) : List FV × List FV := (d.re :: t.1, d.im :: t.2)

/-- Both components of a complex result rounded once, the real one first (R147, R240). -/
def Vec.cxRound (v : Vec) (re im : Nat → RR) : Draw Nat := do
  let a ← roundD re
  let b ← roundD im
  return a + b * 2 ^ (v.ew / 2)

/-- A complex result from the terms of its components. -/
def Vec.cxSum (v : Vec) (t : List FV × List FV) : Draw Nat :=
  v.cxRound (fun u => v.fmtC.round v.rm u v.fz (sumTerms v.rm.negZero t.1))
    (fun u => v.fmtC.round v.rm u v.fz (sumTerms v.rm.negZero t.2))

/-- Operand k of a complex instruction. -/
def cxAt (v : Vec) (xs : List Nat) (k : Nat) : Cx := v.cx (xs.getD k 0)

/-- A complex instruction of the terms of its result. -/
def cxExec (o : VOp) (srcs : List Opnd) (f : (Nat → Cx) → List FV × List FV) : M Unit :=
  elementwise o complexCfg srcs fun v xs => v.cxSum (f (cxAt v xs))

/-- The destination read as a source (R240). -/
def srcD (o : VOp) : Opnd := .group o.vd.toNat

/-- Terms of one value. -/
def termsOf (a : Cx) : List FV × List FV := ([a.re], [a.im])

/-- vcadd (R241). -/
def execVcadd (o : VOp) (s : State) : Host.Outcome State Fault Refusal :=
  instr (.vcadd o) (cxExec o [srcA o, srcB o] fun x => addTerms (x 0) (termsOf (x 1))) s
/-- vcsub (R241). -/
def execVcsub (o : VOp) (s : State) : Host.Outcome State Fault Refusal :=
  instr (.vcsub o) (cxExec o [srcA o, srcB o] fun x => addTerms (x 0) (negTerms (termsOf (x 1)))) s
/-- vcmul (R241). -/
def execVcmul (o : VOp) (s : State) : Host.Outcome State Fault Refusal :=
  instr (.vcmul o) (cxExec o [srcA o, srcB o] fun x => mulTerms (x 0) (x 1)) s
/-- vcmulj (R241). -/
def execVcmulj (o : VOp) (s : State) : Host.Outcome State Fault Refusal :=
  instr (.vcmulj o) (cxExec o [srcA o, srcB o] fun x => mulTerms (x 0) (x 1).conj) s
/-- vcmac (R241). -/
def execVcmac (o : VOp) (s : State) : Host.Outcome State Fault Refusal :=
  instr (.vcmac o) (cxExec o [srcA o, srcB o, srcD o] fun x => addTerms (x 2) (mulTerms (x 0) (x 1))) s
/-- vcmacj (R241). -/
def execVcmacj (o : VOp) (s : State) : Host.Outcome State Fault Refusal :=
  instr (.vcmacj o) (cxExec o [srcA o, srcB o, srcD o] fun x => addTerms (x 2) (mulTerms (x 0) (x 1).conj)) s
/-- vcmsc (R241). -/
def execVcmsc (o : VOp) (s : State) : Host.Outcome State Fault Refusal :=
  instr (.vcmsc o) (cxExec o [srcA o, srcB o, srcD o] fun x => addTerms (x 2) (negTerms (mulTerms (x 0) (x 1)))) s
/-- vcelim (R242). -/
def execVcelim (o : VOp) (s : State) : Host.Outcome State Fault Refusal :=
  instr (.vcelim o) (cxExec o [srcA o, srcB o, srcC o, srcD o] fun x =>
    addTerms (x 3) (negTerms (mul3Terms (x 0) (x 1) (x 2)))) s

/-- Whether a value is infinite. -/
def FV.isInf : FV → Bool
  | .inf _ => true
  | _ => false

/-- vcrcp's components (R243): the first row of the special values that applies governs. -/
def Vec.crcp (v : Vec) (a : Cx) : (Nat → RR) × (Nat → RR) :=
  let f := v.fmtC
  let exact (x : FV) (u : Nat) : RR := f.round v.rm u v.fz x
  if a.re.isInf || a.im.isInf then
    if a.re.isNan || a.im.isNan then (exact .nan, exact .nan) else (exact (.zero a.re.neg?), exact (.zero !a.im.neg?))
  else if a.re.isNan || a.im.isNan || (a.re.isZero && a.im.isZero) then (exact .nan, exact .nan)
  else
    let n := (a.re.mul a.re).add false (a.im.mul a.im)
    (fun u => f.div v.rm u v.fz a.re n, fun u => f.div v.rm u v.fz a.im.negate n)

/-- vcrcp (R243). -/
def execVcrcp (o : VOp) (s : State) : Host.Outcome State Fault Refusal :=
  instr (.vcrcp o) (elementwise o complexCfg [srcA o] fun v xs =>
    let r := v.crcp (cxAt v xs 0)
    v.cxRound r.1 r.2) s

/-- vcnorm's real component (R243). -/
def normVal (a : Cx) : FV :=
  if a.re.isInf || a.im.isInf then .inf false else (a.re.mul a.re).add false (a.im.mul a.im)

/-- vcnorm (R243). -/
def execVcnorm (o : VOp) (s : State) : Host.Outcome State Fault Refusal :=
  instr (.vcnorm o) (cxExec o [srcA o] fun x => ([normVal (x 0)], [.zero false])) s
/-- vcconj (R243). -/
def execVcconj (o : VOp) (s : State) : Host.Outcome State Fault Refusal :=
  instr (.vcconj o) (cxExec o [srcA o] fun x => termsOf (x 0).conj) s
/-- vcrotj (R243). -/
def execVcrotj (o : VOp) (s : State) : Host.Outcome State Fault Refusal :=
  instr (.vcrotj o) (cxExec o [srcA o] fun x => ([(x 0).im.negate], [(x 0).re])) s

/-- A butterfly into the register pair at vd (R160, R244). -/
def bflyExec (o : VOp) (tw : Cx → Cx) : M Unit := do
  let v := (← cpu).vec
  VecFn.exec
    { cfg := fun v => complexCfg v && o.vd.toNat % (2 * v.grp) == 0
      srcs := [srcA o, srcB o, srcC o], dests := [o.vd.toNat, o.vd.toNat + v.grp], idx := fun v => v.actives o.km
      comp := fun v ops => do
        let r ← (v.actives o.km).mapM fun i => do
          let a := v.cx (opAt ops 0 i).1
          let t := mulTerms (tw (v.cx (opAt ops 2 i).1)) (v.cx (opAt ops 1 i).1)
          let bad := (opAt ops 0 i).2 || (opAt ops 1 i).2 || (opAt ops 2 i).2
          let p ← drawn (v.cxSum (addTerms a t)) bad
          let q ← drawn (v.cxSum (addTerms a (negTerms t))) bad
          return (p, q)
        return [r.map Prod.fst, r.map Prod.snd] } o

/-- vbfly (R244). -/
def execVbfly (o : VOp) (s : State) : Host.Outcome State Fault Refusal := instr (.vbfly o) (bflyExec o id) s
/-- vbflyi (R244). -/
def execVbflyi (o : VOp) (s : State) : Host.Outcome State Fault Refusal := instr (.vbflyi o) (bflyExec o Cx.conj) s

end Sys2Proof.Machine
end

