-- ==== Sys2Proof/Machine/VecFp.lean ====
section
/-! DEFINITION. The vector floating-point instructions, class 0 (R222 to R230). -/

namespace Sys2Proof.Machine

/-- Class 0 executes at EW 16 and 32 (R223). -/
def floatCfg (v : Vec) : Bool := v.ewB == 2 || v.ewB == 4

/-- The k-th value of an instruction's sources. -/
def nth (xs : List FV) (k : Nat) : FV := xs.getD k .nan

/-- The flushed value of a source element (R139). -/
def Vec.src (v : Vec) (bits : Nat) : FV := v.fmtT.flush v.fz (v.fmtT.decode bits)

/-- A class-0 instruction: its exact result from the flushed sources, rounded once and flushed (R224). -/
def fpExact (o : VOp) (srcs : List Opnd) (f : Rm → List FV → FV) : M Unit :=
  elementwise o floatCfg srcs fun v xs => roundD fun u => v.fmtT.round v.rm u v.fz (f v.rm (xs.map v.src))

/-- A class-0 instruction of shape A with a rounding of its own. -/
def fpRounded (o : VOp) (f : Vec → Nat → FV → FV → RR) : M Unit :=
  elementwise o floatCfg [srcA o, srcB o] fun v xs => roundD fun u => f v u (nth (xs.map v.src) 0) (nth (xs.map v.src) 1)

/-- A class-0 instruction of shape U with a rounding of its own. -/
def fpUnary (o : VOp) (f : Vec → Nat → FV → RR) : M Unit :=
  elementwise o floatCfg [srcA o] fun v xs => roundD fun u => f v u (nth (xs.map v.src) 0)

/-- a × b + c with the signs of the product and of c chosen (R226). -/
def fmaVal (negProd negC : Bool) (m : Rm) (xs : List FV) : FV :=
  let p := (nth xs 0).mul (nth xs 1)
  (if negProd then p.negate else p).add m.negZero (if negC then (nth xs 2).negate else nth xs 2)

/-- a + b (R226). -/
def addVal (m : Rm) (xs : List FV) : FV := (nth xs 0).add m.negZero (nth xs 1)
/-- a − b (R226). -/
def subVal (m : Rm) (xs : List FV) : FV := (nth xs 0).add m.negZero (nth xs 1).negate
/-- a × b (R226). -/
def mulVal (_ : Rm) (xs : List FV) : FV := (nth xs 0).mul (nth xs 1)

/-- Whether a is below b where −0 is below +0 (R227). -/
def ltSigned (a b : FV) : Bool := a.lt b || (a.isZero && b.isZero && a.neg? && !b.neg?)
/-- vfmin's and vfmax's choice (R227). -/
def minMaxVal (mx : Bool) (a b : FV) : FV :=
  if a.isNan then b else if b.isNan then a
  else if mx then (if ltSigned a b then b else a) else (if ltSigned b a then b else a)

/-- The estimate 1 / √a with a sticky bit, for a positive magnitude (R228). -/
def rsqrtMag (m : Nat) (e : Int) : Nat × Int × Bool :=
  let odd : Nat := if e % 2 = 0 then 0 else 1
  let n := m * 2 ^ odd
  let k := 128 + bitLen n
  let r := isqrt (2 ^ (2 * k) / n)
  (r, -(k : Int) - (e - odd) / 2, r * r * n != 2 ^ (2 * k))

/-- vfrsqrt's estimate (R228). -/
def Fmt.rsqrt (f : Fmt) (fz : Bool) (a : FV) : RR :=
  match a with
  | .nan => f.round .rne 0 fz .nan
  | .inf s => f.round .rne 0 fz (if s then .nan else .zero false)
  | .fin s m e =>
    if m = 0 then f.round .rne 0 fz (.inf s)
    else if s then f.round .rne 0 fz .nan
    else
      let r := rsqrtMag m e
      f.roundSticky .rne 0 fz false r.1 r.2.1 r.2.2

/-- Fraction bits of the fixed-point numbers that the estimates are computed in. -/
def estBits : Nat := 256

/-- The sum of z^(2k+1) / (2k+1) over n terms, for z in units of 2^-256: `p` is the present power of z. -/
def atanhSum (zz : Nat) : (n k p : Nat) → Nat
  | 0, _, _ => 0
  | n + 1, k, p => p / (2 * k + 1) + atanhSum zz n (k + 1) (p * zz / 2 ^ estBits)

/-- ln of a ratio m / n, 1 ≤ m / n < 2, in units of 2^-256: 2 artanh((m − n) / (m + n)). -/
def lnRatio (m n : Nat) : Nat :=
  let z := (m - n) * 2 ^ estBits / (m + n)
  2 * atanhSum (z * z / 2 ^ estBits) 90 0 z

/-- ln 2 in units of 2^-256. -/
def ln2 : Nat := lnRatio 4 3 + lnRatio 3 2

/-- The exponential series: `t` is the present term x^k / k!, all in units of 2^-256. -/
def expSum (x : Nat) : (n k t : Nat) → Nat
  | 0, _, _ => 0
  | n + 1, k, t => t + expSum x n (k + 1) (t * x / 2 ^ estBits / (k + 1))

/-- vfexp2's estimate (R228). The power of two of a non-integer is irrational and no closer to a rounding boundary of T
than the 256 fraction bits resolve. -/
def Fmt.exp2 (f : Fmt) (fz : Bool) (a : FV) : RR :=
  match a with
  | .nan => f.round .rne 0 fz .nan
  | .inf s => f.round .rne 0 fz (if s then .zero false else .inf false)
  | .fin s m e =>
    if m = 0 then f.round .rne 0 fz (.ofInt 1)
    else if 9 ≤ floorLog2 m e then f.round .rne 0 fz (if s then .zero false else .inf false)
    else
      -- a in units of 2^-160, exact for every value of T that is not beyond the limits above
      let a := sigAt s m (max e (-160)) (-160)
      let n := a / 2 ^ 160
      let frac := (a % 2 ^ 160).toNat
      if frac = 0 then f.round .rne 0 fz (.fin false 1 n)
      else f.roundSticky .rne 0 fz false (expSum (frac * 2 ^ (estBits - 160) * ln2 / 2 ^ estBits) 64 0 (2 ^ estBits)) (n - estBits) true

/-- vflog2's estimate (R228): the logarithm of a value that is no power of two is irrational. -/
def Fmt.log2 (f : Fmt) (fz : Bool) (a : FV) : RR :=
  match a with
  | .nan => f.round .rne 0 fz .nan
  | .inf s => f.round .rne 0 fz (if s then .nan else .inf false)
  | .fin s m e =>
    if m = 0 then f.round .rne 0 fz (.inf true)
    else if s then f.round .rne 0 fz .nan
    else
      let d := bitLen m - 1
      let x := floorLog2 m e
      if m = 2 ^ d then f.round .rne 0 fz (.ofInt x)
      else
        let v : Int := x * 2 ^ estBits + ((lnRatio m (2 ^ d) * 2 ^ estBits / ln2 : Nat) : Int)
        f.roundSticky .rne 0 fz (decide (v < 0)) v.natAbs (-(estBits : Int)) true

/-- vfclass's bit (R230). -/
def classBit (f : Fmt) (x : FV) : Nat :=
  match x with
  | .nan => 9
  | .inf n => if n then 0 else 7
  | .fin n m _ =>
    if m = 0 then (if n then 3 else 4)
    else if f.isSub x then (if n then 2 else 5)
    else (if n then 1 else 6)

/-- A floating-point comparison (R229). -/
def fpCompare (o : VOp) (f : FV → FV → Bool) : M Unit :=
  keyExec o floatCfg [srcA o, srcB o] fun v ops idx =>
    idx.map fun i => f (v.src (opAt ops 0 i).1) (v.src (opAt ops 1 i).1)

/-- vfadd (R226). -/
def execVfadd (o : VOp) (s : State) : Host.Outcome State Fault Refusal := instr (.vfadd o) (fpExact o [srcA o, srcB o] addVal) s
/-- vfsub (R226). -/
def execVfsub (o : VOp) (s : State) : Host.Outcome State Fault Refusal := instr (.vfsub o) (fpExact o [srcA o, srcB o] subVal) s
/-- vfmul (R226). -/
def execVfmul (o : VOp) (s : State) : Host.Outcome State Fault Refusal := instr (.vfmul o) (fpExact o [srcA o, srcB o] mulVal) s
/-- vfmin (R227). -/
def execVfmin (o : VOp) (s : State) : Host.Outcome State Fault Refusal :=
  instr (.vfmin o) (fpExact o [srcA o, srcB o] fun _ xs => minMaxVal false (nth xs 0) (nth xs 1)) s
/-- vfmax (R227). -/
def execVfmax (o : VOp) (s : State) : Host.Outcome State Fault Refusal :=
  instr (.vfmax o) (fpExact o [srcA o, srcB o] fun _ xs => minMaxVal true (nth xs 0) (nth xs 1)) s
/-- vfdiv (R226). -/
def execVfdiv (o : VOp) (s : State) : Host.Outcome State Fault Refusal :=
  instr (.vfdiv o) (fpRounded o fun v u a b => v.fmtT.div v.rm u v.fz a b) s
/-- vfsgnj (R227): the sign is the sign bit of b, of a NaN too. DEDUCED, log 65. -/
def execVfsgnj (o : VOp) (s : State) : Host.Outcome State Fault Refusal :=
  instr (.vfsgnj o) (elementwise o floatCfg [srcA o, srcB o] fun v xs =>
    let a := (v.src (xs.getD 0 0)).abs
    let neg := bitAt (xs.getD 1 0) (v.fmtT.eb + v.fmtT.mb)
    roundD fun u => v.fmtT.round v.rm u v.fz (if neg then a.negate else a)) s
/-- vfma (R226). -/
def execVfma (o : VOp) (s : State) : Host.Outcome State Fault Refusal :=
  instr (.vfma o) (fpExact o [srcA o, srcB o, srcC o] (fmaVal false false)) s
/-- vfms (R226). -/
def execVfms (o : VOp) (s : State) : Host.Outcome State Fault Refusal :=
  instr (.vfms o) (fpExact o [srcA o, srcB o, srcC o] (fmaVal false true)) s
/-- vfnma (R226). -/
def execVfnma (o : VOp) (s : State) : Host.Outcome State Fault Refusal :=
  instr (.vfnma o) (fpExact o [srcA o, srcB o, srcC o] (fmaVal true true)) s
/-- vfnms (R226). -/
def execVfnms (o : VOp) (s : State) : Host.Outcome State Fault Refusal :=
  instr (.vfnms o) (fpExact o [srcA o, srcB o, srcC o] (fmaVal true false)) s
/-- vfsqrt (R226). -/
def execVfsqrt (o : VOp) (s : State) : Host.Outcome State Fault Refusal :=
  instr (.vfsqrt o) (fpUnary o fun v u a => v.fmtT.sqrt v.rm u v.fz a) s
/-- vfrcp (R228). -/
def execVfrcp (o : VOp) (s : State) : Host.Outcome State Fault Refusal :=
  instr (.vfrcp o) (fpUnary o fun v _ a => v.fmtT.div .rne 0 v.fz (.ofInt 1) a) s
/-- vfrsqrt (R228). -/
def execVfrsqrt (o : VOp) (s : State) : Host.Outcome State Fault Refusal :=
  instr (.vfrsqrt o) (fpUnary o fun v _ a => v.fmtT.rsqrt v.fz a) s
/-- vfabs (R227). -/
def execVfabs (o : VOp) (s : State) : Host.Outcome State Fault Refusal :=
  instr (.vfabs o) (fpExact o [srcA o] fun _ xs => (nth xs 0).abs) s
/-- vfneg (R227). -/
def execVfneg (o : VOp) (s : State) : Host.Outcome State Fault Refusal :=
  instr (.vfneg o) (fpExact o [srcA o] fun _ xs => (nth xs 0).negate) s
/-- vfexp2 (R228). -/
def execVfexp2 (o : VOp) (s : State) : Host.Outcome State Fault Refusal :=
  instr (.vfexp2 o) (fpUnary o fun v _ a => v.fmtT.exp2 v.fz a) s
/-- vflog2 (R228). -/
def execVflog2 (o : VOp) (s : State) : Host.Outcome State Fault Refusal :=
  instr (.vflog2 o) (fpUnary o fun v _ a => v.fmtT.log2 v.fz a) s
/-- vfclass (R230). -/
def execVfclass (o : VOp) (s : State) : Host.Outcome State Fault Refusal :=
  instr (.vfclass o) (elementwise o floatCfg [srcA o] fun v xs => pure (2 ^ classBit v.fmtT (v.src (xs.getD 0 0)))) s
/-- vfceq (R229). -/
def execVfceq (o : VOp) (s : State) : Host.Outcome State Fault Refusal := instr (.vfceq o) (fpCompare o FV.eq) s
/-- vfclt (R229). -/
def execVfclt (o : VOp) (s : State) : Host.Outcome State Fault Refusal := instr (.vfclt o) (fpCompare o FV.lt) s
/-- vfcle (R229). -/
def execVfcle (o : VOp) (s : State) : Host.Outcome State Fault Refusal :=
  instr (.vfcle o) (fpCompare o fun a b => a.lt b || a.eq b) s

end Sys2Proof.Machine
end

