-- ==== Sys2Proof/Machine/VecSpecial.lean ====
section
/-! DEFINITION. The conversion, special and accumulator instructions, class 7 (R235 to R239). -/

namespace Sys2Proof.Machine

/-- vfcvtif (R235). -/
def execVfcvtif (o : VOp) (s : State) : Host.Outcome State Fault Refusal :=
  instr (.vfcvtif o) (elementwise o floatCfg [srcA o] fun v xs =>
    roundD fun u => v.fmtT.round v.rm u false (.ofInt (signedOf v.ew (xs.getD 0 0)))) s

/-- vfcvtfi (R235, R142). -/
def execVfcvtfi (o : VOp) (s : State) : Host.Outcome State Fault Refusal :=
  instr (.vfcvtfi o) (elementwise o floatCfg [srcA o] fun v xs =>
    roundD fun u =>
      let r := narrowInt v.ew v.rm u (v.src (xs.getD 0 0))
      ⟨unsignedOf v.ew r.1, r.2, false, false, false⟩) s

/-! ### vpwl (R237) -/

/-- The segment of x: how many breakpoints it reaches. A NaN breakpoint never counts. -/
def pwlSegment (tab : Nat → FV) (x : FV) : Nat :=
  ((List.range 15).filter fun j => (tab j).lt x || (tab j).eq x).length

/-- The value of a piecewise-linear function before rounding: a zero slope gives the intercept (R237). -/
def pwlVal (m : Rm) (tab : Nat → FV) (x : FV) : FV :=
  if x.isNan then .nan
  else
    let s := pwlSegment tab x
    if (tab (16 + s)).isZero then tab (32 + s) else ((tab (16 + s)).mul x).add m.negZero (tab (32 + s))

/-- vpwl (R237): the table is elements 0 to 47 of the single register vs2. -/
def execVpwl (o : VOp) (s : State) : Host.Outcome State Fault Refusal :=
  instr (.vpwl o) (VecFn.exec
    { cfg := fun v => floatCfg v && decide (48 ≤ v.mvl), srcs := [srcA o, .one o.vs2.toNat 48], dests := [o.vd.toNat]
      idx := fun v => v.actives o.km
      comp := fun v ops => do
        let tab (k : Nat) : FV := v.src (opAt ops 1 k).1
        let r ← (v.actives o.km).mapM fun i => do
          let x := v.src (opAt ops 0 i).1
          let n := pwlSegment tab x
          let bad := (opAt ops 0 i).2 || (List.range 15).any (fun j => (opAt ops 1 j).2) || (opAt ops 1 (16 + n)).2
            || (opAt ops 1 (32 + n)).2
          drawn (roundD fun u => v.fmtT.round v.rm u v.fz (pwlVal v.rm tab x)) bad
        return [r] } o) s

/-! ### vbscale (R143, R144, R236) -/

/-- Whether a format code names complex integers. -/
def complexCode (code : Nat) : Bool := code == 7 || code == 8

/-- The formats of `vbscale`, `vldbs` and `vstbs` at the current width (R218, R236). -/
def Vec.blockOk (v : Vec) (code : Nat) : Bool :=
  match code with
  | 1 | 2 | 3 | 4 | 5 | 6 => v.ewB == 2 || v.ewB == 4
  | 7 | 8 => v.ewB == 4 || v.ewB == 8
  | _ => false

/-- The flushed components of an element whose type a format code selects (R236). -/
def Vec.blockParts (v : Vec) (code bits : Nat) : List FV :=
  if complexCode code then [(v.cx bits).re, (v.cx bits).im] else [v.src bits]

/-- The greater of two magnitudes; a NaN or an infinity stays. -/
def maxMag (a b : FV) : FV :=
  if a.isNan then .nan else if b.isNan then .nan else if a.abs.lt b.abs then b.abs else a.abs

/-- The scale code of a block from its components (R143, R144). -/
def blockCode (code : Nat) (xs : List FV) : Nat := scaleCode (emaxOf code) (xs.foldl maxMag (.zero false))

/-- The blocks with an active element, ascending. -/
def activeBlocks (v : Vec) (km : BitVec 3) (len : Nat) : List Nat :=
  (v.actives km).foldl (fun l i => addSorted (i / len) l) []

/-- The active elements of a block. -/
def blockElems (v : Vec) (km : BitVec 3) (len k : Nat) : List Nat := (v.actives km).filter fun i => i / len == k

/-- A scale as a value of the format, NaN for code 0xFF (R236). -/
def scaleBits (f : Fmt) (code : Nat) : Nat := (f.round .rne 0 false (e8m0Val code)).bits

/-- vbscale (R236): the scale of block k goes to element k of vd. Where vd is bound to a sink, the pushed strip holds the scales at
the numbers of the blocks with an active element, and every other position counts as inactive (DESIGN CHOICE, log 121). -/
def execVbscale (o : VOp) (s : State) : Host.Outcome State Fault Refusal :=
  let code := o.vs2.toNat
  let len := o.vs3.toNat + 1
  instr (.vbscale o) (VecFn.exec
    { cfg := fun v => v.blockOk code, srcs := [srcA o], dests := [o.vd.toNat], idx := fun v => activeBlocks v o.km len
      deps := fun v k => ((List.range len).map (k * len + ·)).filter fun i => decide (i < v.vl)
      comp := fun v ops => return [(activeBlocks v o.km len).map fun k =>
        let es := (blockElems v o.km len k).map (opAt ops 0)
        (scaleBits (if complexCode code then v.fmtC else v.fmtT) (blockCode code (es.flatMap fun e => v.blockParts code e.1)),
          es.any Prod.snd)] } o) s

/-- vrnd (R238). -/
def execVrnd (o : VOp) (s : State) : Host.Outcome State Fault Refusal :=
  instr (.vrnd o) (elementwise o (fun _ => true) [] fun v _ => do return (← nextRand).toNat % 2 ^ v.ew) s

/-! ### Accumulators (R21, R122, R239) -/

/-- The accumulator position of element i at slice row imm + ⌊i / 32⌋ of a core's slice, none off the slice (R239). -/
def Hart.sliceKey (h : Hart) (tile imm i : Nat) : Option Nat :=
  if imm + i / 32 < 8 then some (accKey tile (8 * h.col + imm + i / 32) (i % 32)) else none

/-- Accumulator elements written, with their poison. -/
def Row.setAcc (w : Row) : List (Nat × El) → Row
  | [] => w
  | p :: r =>
    Row.setAcc { w with
      acc := tabSet 0 w.acc p.1 (BitVec.ofNat 32 p.2.1)
      apoison := if p.2.2 then addSorted p.1 w.apoison else w.apoison.filter (· != p.1) } r

/-- An accumulator element. -/
def Row.accEl (w : Row) (k : Nat) : El := ((tabGet 0 w.acc k).toNat, w.apoison.contains k)

/-- The checks of an accumulator instruction, and the wait for the core's earlier matrix commands (R122, R239). The rest
runs with the configuration and the core's row. An instruction whose destination is a latch window commits first (R116), waits on
the interlock, and checks its window after the wait: the spec does not order the last two (DESIGN CHOICE, log 122). -/
def accExec (o : VOp) (cfg : Vec → Bool) (body : Hart → Row → M Unit) : M Unit := do
  onVc
  vbadCheck
  let v := (← cpu).vec
  need (v.ewB == 4 && cfg v)
  if v.vl = 0 then (if o.dk then commitPoint else pure ())
  else do
    if o.dk then commitPoint
    takeMatFault fun _ => true
    let s ← get
    let w := s.row s.cpu.cluster s.cpu.row
    if !w.queue.isEmpty then waitFor .interlock 0 0 else body s.cpu w

/-- vracc (R239): an off-slice element receives +0. -/
def execVracc (o : VOp) (s : State) : Host.Outcome State Fault Refusal :=
  instr (.vracc o) (accExec o (fun v => if o.dk then !v.prot else v.groupOk o.vd.toNat) fun h w =>
    VecFn.exec
      { cfg := fun _ => true, srcs := [], dests := [o.vd.toNat], idx := fun v => v.actives 0
        comp := fun v _ => return [(v.actives 0).map fun i =>
          match h.sliceKey o.vs1.toNat o.vs3.toNat i with
          | some k => w.accEl k
          | none => (0, false)] } o) s

/-- vwacc (R239): off-slice elements are ignored. -/
def execVwacc (o : VOp) (s : State) : Host.Outcome State Fault Refusal :=
  instr (.vwacc o) (accExec o (fun v => v.groupOk o.vs1.toNat) fun h _ => do
    let ctr := h.rngctr
    let act (_ i : Nat) : Bool := h.vec.active 0 i
    let got ← checked ctr (readOpnds act 0 [srcA o] [])
    let ops ← drawing (widenAll h.vec ⟨act, h.vec.active 0, 0⟩ 0 got [])
    consume (anyBad act ops)
    modify fun s => s.setRow h.cluster h.row ((s.row h.cluster h.row).setAcc
      ((h.vec.actives 0).filterMap fun i => (h.sliceKey o.vd.toNat o.vs3.toNat i).map fun k => (k, opAt ops 0 i)))
    modify fun s => (gottenPops got).foldl State.popTake s) s

/-- vzacc (R239): the whole slice, whatever vl is. -/
def execVzacc (o : VOp) (s : State) : Host.Outcome State Fault Refusal :=
  instr (.vzacc o) (accExec o (fun _ => true) fun h _ => do
    modify fun s => s.setRow h.cluster h.row ((s.row h.cluster h.row).setAcc
      ((List.range 256).map fun i => (accKey o.vd.toNat (8 * h.col + i / 32) (i % 32), (0, false))))) s

end Sys2Proof.Machine
end

