-- ==== Sys2Proof/Machine/Matrix.lean ====
section
/-! DEFINITION. Matrix commands: their defects, chunked accumulation, operands, and completion (R132, R145, R146, R255 to
R261, R343, R353). -/

namespace Sys2Proof.Machine

/-! ### Chunked accumulation (R145, R146) -/

/-- The exact sum of a chunk's products as one operation. -/
def chunkSum : List (FV × FV) → FV
  | [] => .zero false
  | [p] => p.1.mul p.2
  | p :: r => (p.1.mul p.2).add false (chunkSum r)

/-- One chunk added to an accumulator element: scaled exactly, rounded once to fp32 under RNE, flushed. A scale of none is
the E8M0 NaN (R146). -/
def chunkAcc (acc : Nat) (scale : Option Int) (ps : List (FV × FV)) : Nat :=
  let s := match scale with
    | some k => (chunkSum ps).scale k
    | none => .nan
  (fp32.round .rne 0 true ((fp32.decode acc).add false s)).bits

/-- The exponent of an E8M0 scale code, none for NaN. -/
def e8m0Exp (c : Nat) : Option Int := if c = 255 then none else some ((c : Int) - 127)
/-- The product of two scales. -/
def scaleMul (a b : Option Int) : Option Int := match a, b with | some x, some y => some (x + y) | _, _ => none

/-! ### Operand formats -/

/-- The value of a W2 code (R132): (2c − 3) / 2. -/
def w2Val (c : Nat) : FV := .fin (decide (c < 2)) (if c = 0 ∨ c = 3 then 3 else 1) (-1)

/-- Bytes of one element of an operand format: BF16 takes two (R256, R281). -/
def opndB (fmt : Nat) : Nat := if fmt = 4 then 2 else 1

/-- Element k of an operand's bytes in a format: 0 W2, 1 E4M3, 2 E5M2, 4 BF16, 5 INT8. -/
def opndVal (fmt : Nat) (bs : List Byte) (k : Nat) : FV :=
  let byte (i : Nat) : Nat := (bs.getD i 0).toNat
  match fmt with
  | 0 => w2Val (bitsAt (byte (k / 4)) (2 * (k % 4)) 2)
  | 1 => e4m3.decode (byte k)
  | 2 => e5m2.decode (byte k)
  | 5 => .ofInt (signedOf 8 (byte k))
  | _ => bf16.decode (byte (2 * k) + 256 * byte (2 * k + 1))

/-- The chunk of K-positions that a format takes (R145). -/
def chunkLen (fmt : Nat) : Nat := if fmt = 4 then 6 else if fmt = 0 then 48 else 12

/-- K of a matrix command (R256). -/
def matK (fmt : Nat) : Nat := if fmt = 4 then 96 else if fmt = 0 then 768 else 192

/-- The products of chunk i of a dense row (R258). -/
def denseChunk (a b : Nat → FV) (len i n : Nat) : List (FV × FV) :=
  (List.range (min len (n - i * len))).map fun k => (a (i * len + k), b (i * len + k))

/-- The products of the 48 or fewer positions of chunk i of a structured-sparse row with q values a quad (R259): the values
whose positions lie in the chunk, and an exact zero for the positions skipped. DEDUCED, log 66. Values at one position are
multiplied apart: where the element of B they face is infinite that is not the product of their sum (DESIGN CHOICE, log 126). -/
def sparseChunk (a b : Nat → FV) (pos : Nat → Nat) (q len i : Nat) : List (FV × FV) :=
  let quads := (List.range (len / 4 + 2)).map fun d => i * len / 4 + d
  let vals := quads.flatMap fun d => (List.range q).map fun j => d * q + j
  let here := vals.filter fun j => let p := 4 * (j / q) + pos j; decide (i * len ≤ p) && decide (p < (i + 1) * len)
  (here.map fun j => (a j, b (4 * (j / q) + pos j))) ++ [(.zero false, .zero false)]

/-- Folds the chunks of a row into an accumulator element; `scale i` is that of chunk i. -/
def foldChunks (acc : Nat) (scale : Nat → Option Int) (chunk : Nat → List (FV × FV)) (n : Nat) : Nat :=
  (List.range n).foldl (fun acc i => chunkAcc acc (scale i) (chunk i)) acc

/-! ### Command words (R165, R253, R255, R256) -/

/-- A mask of bits [hi:lo]. -/
def maskOf (hi lo : Nat) : Nat := (2 ^ (hi - lo + 1) - 1) * 2 ^ lo

/-- The bits each matrix command may set (R256). -/
def matBits (op : Nat) : Nat :=
  let base := maskOf 17 0 ||| maskOf 29 24 ||| maskOf 191 144
  let oper := maskOf 39 32 ||| maskOf 63 48 ||| maskOf 143 64
  match op with
  | 1 => base ||| oper
  | 2 => base ||| oper ||| maskOf 41 40
  | 3 => base ||| maskOf 39 32 ||| maskOf 63 56 ||| maskOf 143 64
  | 4 => base ||| maskOf 39 32 ||| maskOf 63 48 ||| maskOf 111 64
  | 6 => base ||| maskOf 38 32 ||| maskOf 143 64
  | _ => base

/-- Whether an operand form fits a command (R255). -/
def formFits (op : Nat) (f : AForm) : Bool :=
  match f with
  | .none => op == 5 || op == 6
  | _ => decide (1 ≤ op) && decide (op ≤ 4)

/-- Whether both formats are FP8, or both BF16 (R256, R281). -/
def fmtPair (a b : Nat) : Bool := ((a == 1 || a == 2) && (b == 1 || b == 2)) || (a == 4 && b == 4)

/-- Whether a matrix command is defective (R165, R255, R256): it issues and completes with BADCMD. DEDUCED, log 68. -/
def MatCmd.defect (c : MatCmd) : Bool :=
  let w := c.words
  let op := bitsAt w 0 8
  let a := bitsAt w 32 4
  let b := bitsAt w 36 4
  bitsAt w 8 4 != 0 || bitsAt w 14 2 != 0 || op == 0 || decide (6 < op) || w &&& matBits op != w
    || (bitsAt w 24 4 != 0 && bitsAt w 28 2 == 0)
    || ((op == 1 || op == 2 || op == 4) && !fmtPair a b)
    || (op == 2 && bitsAt w 40 2 == 0)
    || (op == 3 && !(a == 0 && b == 5))
    || (op == 6 && (decide (4 < a) || bitsAt w 36 2 == 3))
    || !(c.forms.all (formFits op))

/-- The address fields of a word (R253). -/
def addrField (w lo : Nat) : Word := sextWord 48 (bitsAt w lo 48)

/-- Whether the waits of a command are over (R257). -/
def State.matWaited (s : State) (cl row : Nat) (c : MatCmd) : Bool :=
  (List.range 4).all fun col =>
    !bitAt (bitsAt c.words 24 4) col
      || decide (c.wseqs.getD col 0 ≤ (s.getHart (vcNum cl (4 * row + col))).done.getD (bitsAt c.words 28 2) 0)

/-! ### The commands -/

/-- The A bytes and side bytes of row r of one core's operand, with their poison (R255). -/
def aRow (e : Eng) (f : AForm) (r main side : Nat) : EngM (List Byte × List Byte × Bool) := do
  match f with
  | .vreg image bad =>
    let inRow (k : Nat) : Bool :=
      (decide (r * 192 ≤ k) && decide (k < r * 192 + main)) || (decide (1536 + r * 64 ≤ k) && decide (k < 1536 + r * 64 + side))
    accEats (bad.any inRow)
    return ((image.drop (r * 192)).take main, (image.drop (1536 + r * 64)).take side, bad.any inRow)
  | .csram base pitch tile => do
    let a ← engRead e (BitVec.ofNat 64 (base + r * pitch)) main
    let b ← engRead e (BitVec.ofNat 64 (base + tile + r * 64)) side
    return (a.1, b.1, a.2 || b.2)
  | .none => return ([], [], false)

/-- The A rows of the four cores in tile-row order. -/
def aRows (e : Eng) (c : MatCmd) (main side : Nat) : List Nat → EngM (List (List Byte × List Byte × Bool))
  | [] => return []
  | i :: r => do
    let x ← aRow e (c.forms.getD (i / 8) .none) (i % 8) main side
    let rest ← aRows e c main side r
    return x :: rest

/-- The B rows of a command. -/
def bRows (e : Eng) (base : Word) (pitch len : Nat) : List Nat → EngM (List (List Byte × Bool))
  | [] => return []
  | k :: r => do
    let x ← engRead e (base + BitVec.ofNat 64 (k * pitch)) len
    let rest ← bRows e base pitch len r
    return x :: rest

/-- An arithmetic command's contribution (R258, R259): elements of the tile by key. -/
def matArith (cl : Nat) (w : Row) (c : MatCmd) : EngM (List (Nat × El)) := do
  let e := engOf cl c.satp c.mode
  let op := bitsAt c.words 0 8
  let tile := bitsAt c.words 16 2
  let af := bitsAt c.words 32 4
  let bf := bitsAt c.words 36 4
  let q := bitsAt c.words 40 2
  let base := addrField c.words 64
  let pitch := bitsAt c.words 112 32
  let k := matK af
  let len := chunkLen af
  let aSc := if op = 3 then some 0 else e8m0Exp (bitsAt c.words 48 8)
  let sc := scaleMul aSc (e8m0Exp (bitsAt c.words 56 8))
  let side := if op = 2 then (if af = 4 then 6 else 12) * q else if op = 3 then 16 else 0
  let as ← aRows e c (if op = 2 then 48 * q else 192) side (List.range 32)
  let bs ← (if op = 4 then bRows e base 0 ((k + 31) * opndB bf) [0] else bRows e base pitch (32 * opndB bf) (List.range k))
  let bBad := bs.any Prod.snd
  let b (n j : Nat) : FV := if op = 4 then opndVal bf ((bs.map Prod.fst).headD []) (j + n) else opndVal bf ((bs.getD j ([], false)).1) n
  let out := (List.range 1024).map fun i =>
    let row := as.getD (i / 32) ([], [], false)
    let a (j : Nat) : FV := opndVal af row.1 j
    let sideB (j : Nat) : Nat := (row.2.1.getD j 0).toNat
    let scale (ch : Nat) : Option Int := if op = 3 then scaleMul sc (e8m0Exp (sideB ch)) else sc
    let chunk (ch : Nat) : List (FV × FV) :=
      if op = 2 then sparseChunk a (b (i % 32)) (fun j => bitsAt (sideB (j / 4)) (2 * (j % 4)) 2) q len ch
      else denseChunk a (b (i % 32)) len ch k
    let key := accKey tile (i / 32) (i % 32)
    let old := w.accEl key
    (key, (foldChunks old.1 scale chunk (k / len), old.2 || row.2.2 || bBad))
  return out

/-- A drained element in its destination format (R260). -/
def drainVal (fmt ovf bits : Nat) : List Byte :=
  let o : Ovf := match ovf with | 1 => .inf | 2 => .nan | _ => .maxfin
  match fmtCode fmt with
  | some f => bytesOf (if f.width = 8 then 1 else 2) (f.narrow .rne 0 false o (fp32.decode bits)).bits
  | none => bytesOf 4 bits

/-- Rows of a tile written to memory (R260). -/
def drainRows (e : Eng) (w : Row) (tile fmt ovf : Nat) (base : Word) (pitch : Nat) : List Nat → EngM Unit
  | [] => pure ()
  | r :: rest => do
    let els := (List.range 32).map fun n => w.accEl (accKey tile r n)
    let bad := els.any Prod.snd
    accEats bad
    engWrite e (base + BitVec.ofNat 64 (r * pitch)) (els.flatMap fun x => drainVal fmt ovf x.1) bad
    drainRows e w tile fmt ovf base pitch rest

/-- Every element of a tile set to +0. -/
def zeroTile (tile : Nat) : List (Nat × El) := (List.range 1024).map fun i => (accKey tile (i / 32) (i % 32), (0, false))

/-- The effect of a matrix command that is executed: the accumulator elements it leaves. -/
def matRun (cl row : Nat) (c : MatCmd) : EngM (List (Nat × El)) := do
  let w := (← get).row cl row
  let tile := bitsAt c.words 16 2
  match bitsAt c.words 0 8 with
  | 5 => return zeroTile tile
  | 6 => do
    drainRows (engOf cl c.satp c.mode) w tile (bitsAt c.words 32 4) (bitsAt c.words 36 2) (addrField c.words 64)
      (bitsAt c.words 112 32) (List.range 32)
    return if bitAt c.words 38 then zeroTile tile else []
  | _ => matArith cl w c

/-- The command at the head of a row's queue. -/
def Row.head? (w : Row) : Option MatCmd := match w.queue with | .cmd c :: _ => some c | _ => none
/-- The row with another head command. -/
def Row.setHead (w : Row) (c : MatCmd) : Row := { w with queue := .cmd c :: w.queue.drop 1 }

/-- Runs the head command of a row when it is of an OPC and may start (R257 to R261): its contribution merges at its end,
and a failed one merges nothing; what it had read of poison it has consumed (R362). Otherwise the step does not occur. -/
def State.runMatrix (op : Nat) (cl row : Nat) (s : State) : State :=
  match (s.row cl row).head? with
  | none => s
  | some c =>
    if c.result.isSome || c.defect || bitsAt c.words 0 8 ≠ op || !s.matWaited cl row c then s
    else
      match runAcc (matRun cl row c) s with
      | (.ok o, t, ate) =>
        t.setRow cl row (((t.row cl row).setAcc o).setHead { c with result := some ⟨0, 0, 0, false, false, ate, 0⟩ })
      | (.error (.fault f), t, ate) =>
        t.setRow cl row ((t.row cl row).setHead { c with result := some ⟨4, f.cause, f.va, f.write, f.hostfile, ate, 0⟩ })
      | (.error .stall, _) => s

/-- MMA (R258). -/
def execMma (cl row : Nat) (s : State) : Host.Outcome State Fault Refusal := engineStep (State.runMatrix 1 cl row) s
/-- MMAS (R259). -/
def execMmas (cl row : Nat) (s : State) : Host.Outcome State Fault Refusal := engineStep (State.runMatrix 2 cl row) s
/-- MMAW2 (R258). -/
def execMmaw2 (cl row : Nat) (s : State) : Host.Outcome State Fault Refusal := engineStep (State.runMatrix 3 cl row) s
/-- MSLIDE (R258). -/
def execMslide (cl row : Nat) (s : State) : Host.Outcome State Fault Refusal := engineStep (State.runMatrix 4 cl row) s
/-- MZERO (R260). -/
def execMzero (cl row : Nat) (s : State) : Host.Outcome State Fault Refusal := engineStep (State.runMatrix 5 cl row) s
/-- MDRAIN (R260). -/
def execMdrain (cl row : Nat) (s : State) : Host.Outcome State Fault Refusal := engineStep (State.runMatrix 6 cl row) s

/-! ### Completion (R165, R261, R343, R353) -/

/-- The cause that the gang's cores raise for a failed command (R343, R353). DEDUCED, log 70. -/
def matCause (c : Nat) : Nat := if c = 48 then 48 else if c = 12 ∨ c = 13 ∨ c = 15 then 13 else 5

/-- Zeroings that a finished command leaves at the head of the queue take effect. -/
def Row.popClears (w : Row) : List MatItem → Row
  | .clear c :: r => (w.clearSlice c).popClears r
  | q => { w with queue := q }

/-- The waits of a core that the completion of a command of its gang advances (R344). -/
def matWakes (on : WaitOn) : Bool :=
  match on with
  | .interlock | .timeline 0 _ | .post 0 => true
  | _ => false

/-- A core learns of a completed command: DONE of context 0 advances; the task that posted it takes its fault later, and its
poison shows once the core acquires the command (R188, R197). -/
def Hart.matDone (h : Hart) (c : MatCmd) (r : MatResult) (seq : Nat) : Hart :=
  let h := { h with done := h.done.setIfInBounds 0 (h.done.getD 0 0 + 1) }
  let h := match h.wait with
    | some w => if matWakes w.on then { h with progress := 0 } else h
    | none => h
  let mine := match h.task, c.task with | some t, some k => t.id == k | _, _ => false
  if !mine then h
  else
    let h := if r.poisoned then { h with chkPend := h.chkPend ++ [⟨0, seq, 0, false, 3⟩] } else h
    if r.status = 4 then { h with matFaults := h.matFaults ++ [⟨seq, matCause r.cause, r.va, c.words, c.addr, r.lane⟩] } else h

/-- The fault record of a command that completes with BADCMD or FAULT, none after three mismatches (R165, R343, R353): SEQ, CMD and
HART are those of the poster in column 0 (DESIGN CHOICE, log 129). -/
def State.matRecord (s : State) (cl : Nat) (c : MatCmd) (r : MatResult) : State :=
  if r.status = 0 || r.cause = 48 then s
  else s.faultRecord cl ⟨c.seqs.getD 0 0, if r.status = 3 then 2 else r.cause, 3, 0, r.write, r.hostfile, 0,
    if r.status = 3 then 0 else pageOf r.va, c.satp, s.rcbOf c.job, c.addr, c.hart⟩

/-- The completion record of a word of ENGINE 1 or 2 that `mgang` has issued (R165), with column 0's sequence number (DESIGN CHOICE,
log 129), and whether its write has consumed poison. None while the write stalls. -/
def State.badRecord (s : State) (cl : Nat) (c : MatCmd) : Option (State × Bool) :=
  match crecOf c.words with
  | none => some (s, false)
  | some a =>
    let bs := recordBytes (c.seqs.getD 0 0) c.words 3 0 0
    match runAcc (engWrite (engOf cl c.satp c.mode) a bs false) s with
    | (.ok _, t, ate) => some (t, ate)
    | (.error (.fault f), t, ate) =>
      some (t.faultRecord cl ⟨c.seqs.getD 0 0, f.cause, 3, 0, true, f.hostfile, 0, pageOf f.va, c.satp, t.rcbOf c.job, c.addr, c.hart⟩, ate)
    | (.error .stall, _) => none

/-- The records that a command writes as it completes (R165, R343): none while a write of theirs stalls. -/
def State.matRecords (s : State) (cl : Nat) (c : MatCmd) (r : MatResult) : Option (State × Bool) :=
  let t := s.matRecord cl c r
  if r.status = 3 then t.badRecord cl c else some (t, false)

/-- The head command completes with a result, its records written (R261). -/
def State.completeMatrix (s : State) (cl row : Nat) (c : MatCmd) (r : MatResult) : State :=
  match s.matRecords cl c r with
  | none => s
  | some (s, ate) =>
  let r := { r with poisoned := r.poisoned || ate }
  let w := s.row cl row
  let s := s.setRow cl row (w.popClears (w.queue.drop 1))
  let s := ((List.range 4).zip c.seqs).foldl (fun s p => s.modHart (vcNum cl (4 * row + p.1)) fun h => h.matDone c r p.2) s
  match c.job with
  | some j => s.countDown j 1
  | none => s

/-- A matrix command's completion: of one that has run, or of a defective one, once the one before it has completed. -/
def State.matrixComplete (s : State) (cl row : Nat) : State :=
  match (s.row cl row).head? with
  | none => s
  | some c =>
    match c.result with
    | some r => s.completeMatrix cl row c r
    | none => if c.defect then s.completeMatrix cl row c ⟨3, 2, 0, false, false, false, 0⟩ else s

/-- MATRIX_COMMAND_COMPLETE (R261). -/
def execMatrixCommandComplete (cl row : Nat) (s : State) : Host.Outcome State Fault Refusal :=
  engineStep (fun s => s.matrixComplete cl row) s

end Sys2Proof.Machine
end

