-- ==== Sys2Proof/Machine/Chain.lean ====
section
/-! DEFINITION. Weight chains: fetching and checking blocks, their effects, and how a chain ends (R273 to R291, R342, R353). -/

namespace Sys2Proof.Machine

/-- Why a block does not run to its end. -/
inductive ChainStop where
  | fault (f : EngFault)
  | wx (va : Word) (hostfile : Bool)
  | ends (status : Nat)
  | stall
deriving DecidableEq, Repr

/-- Computations of a chain: a stop keeps what was written before it. -/
abbrev ChM := AccM ChainStop

/-- An engine's access made by a chain. -/
def ofEng {α : Type} (m : EngM α) : ChM α := do
  let r := runAcc m (← get)
  accEats r.2.2
  match r.1 with
  | .ok a => do
    set r.2.1
    return a
  | .error (.fault f) => do
    set r.2.1
    throw (.fault f)
  | .error .stall => throw .stall

/-! ### Fetching (R278) -/

/-- Fetches one 32-byte unit, and whether it is poisoned; a poisoned one is consumed (R288). -/
def chainUnit (e : Eng) (va : Word) : ChM (List Byte × Bool) := do
  let s ← get
  match unitXlat e s va with
  | .error f => do
    accEats (s.walkBad [] e.cl e.ctx va false)
    set (s.missed [] e.cl e.ctx.satp va)
    throw (.fault f)
  | .ok (u, t) => do
    accEats (s.walkBad [] e.cl e.ctx va true)
    set t
    match t.engVerdict false u.x.pa with
    | .fault c => throw (.fault ⟨c, va, false, u.x.hostfile⟩)
    | .wait _ => throw .stall
    | .ok =>
      if u.x.wx && u.r then do
        let b ← ofEng (engReadPhys u.x va 32)
        accEats b.2
        return b
      else throw (.wx va u.x.hostfile)

/-- A payload: its bytes, and for each whether it is poisoned. -/
structure Payload where
  bytes : List Byte
  bad : List Bool

/-- Whether any byte of [lo, lo + n) of a payload is poisoned. -/
def Payload.badAt (p : Payload) (lo n : Nat) : Bool := ((p.bad.drop lo).take n).any id

/-- The four cores have consumed poison (R288). -/
def State.poisonRow (s : State) (cl row : Nat) (b : Bool) : State :=
  if b then (colHarts cl row).foldl (fun s n => s.modHart n fun h => { h with chkint := h.chkint ||| 1 }) s else s

/-- Fetches n units of a payload. -/
def chainUnits (e : Eng) : Nat → Word → ChM Payload
  | 0, _ => return ⟨[], []⟩
  | n + 1, va => do
    let a ← chainUnit e va
    let b ← chainUnits e n (va + 32)
    return ⟨a.1 ++ b.bytes, List.replicate 32 a.2 ++ b.bad⟩

/-- The W-opcode of a resume block, 0 when its header cannot be read (R274): a header that has been fetched is not read again, and a
page without WX can be. Poison that is read so is consumed (R288). -/
def State.blockOpc (s : State) (cl row : Nat) (ch : Chain) : Nat × State :=
  let e := ch.eng cl
  match ch.header with
  | some h => (bitsAt h 0 8, s)
  | none =>
    match unitXlat e s ch.block with
    | .error _ => (0, (s.missed [] e.cl e.ctx.satp ch.block).poisonRow cl row (s.walkBad [] e.cl e.ctx ch.block false))
    | .ok (u, t) =>
      let t := t.poisonRow cl row (s.walkBad [] e.cl e.ctx ch.block true)
      if u.r && t.engVerdict false u.x.pa == .ok then
        match runAcc (engReadPhys u.x ch.block 32) t with
        | (.ok b, t, _) => (ofBytes (b.1.take 1), t.poisonRow cl row b.2)
        | (.error _, t, _) => (0, t)
      else (0, t)

/-! ### Headers (R276, R277, R281) -/

/-- PASSES as a count. -/
def wPasses (h : Nat) : Nat := bitsAt h 24 5 + 1
/-- PLEN. -/
def wPlen (h : Nat) : Nat := bitsAt h 112 16
/-- PLANE. -/
def wPlane (h : Nat) : Nat := bitsAt h 208 48
/-- Whether a block's formats are among those R281 lists. -/
def wFormats (h : Nat) : Bool :=
  let w := bitsAt h 32 4
  let a := bitsAt h 36 4
  match bitsAt h 0 8 with
  | 1 | 2 => fmtPair w a
  | 3 => w == 0 && a == 5
  | _ => w == 4 && (a == 4 || a == 5)

/-- The depth K that a compute block's PLEN gives its layout (R281). -/
def wDepth (h : Nat) : Nat :=
  let ws := opndB (bitsAt h 32 4)
  let rank := bitsAt h 42 5 + 1
  match bitsAt h 0 8 with
  | 1 => wPlen h / 384 * (12 / ws)
  | 2 => wPlen h / (32 * bitsAt h 40 2 * (12 * ws + 3)) * 48
  | 3 => wPlen h / 416 * 48
  | _ => (wPlen h - 64 * rank) / (12 * rank) * 6

/-- The bytes of a block's payload that its layout uses; the bytes after them are ignored (R281, R284). -/
def wUsed (h : Nat) : Nat :=
  let ws := opndB (bitsAt h 32 4)
  let k := wDepth h
  let q := bitsAt h 40 2
  let rank := bitsAt h 42 5 + 1
  match bitsAt h 0 8 with
  | 1 => 32 * k * ws
  | 2 => 32 * (k / 48 * 12 * q * ws + k / 48 * 3 * q)
  | 3 => 32 * (k / 4 + k / 48)
  | 4 => 2 * rank * k + 64 * rank
  | 5 => 192
  | _ => 0

/-- Whether a byte that element `key` is computed from is poisoned in the payload (R281, R282, R283, R361). -/
def Payload.badFor (p : Payload) (h key : Nat) : Bool :=
  let ws := opndB (bitsAt h 32 4)
  let k := wDepth h
  let r := key % 1024 / 32
  let rank := bitsAt h 42 5 + 1
  match bitsAt h 0 8 with
  | 1 => p.badAt (r * k * ws) (k * ws)
  | 2 =>
    let vals := k / 48 * 12 * bitsAt h 40 2
    let side := k / 48 * 3 * bitsAt h 40 2
    p.badAt (r * vals * ws) (vals * ws) || p.badAt (32 * vals * ws + r * side) side
  | 3 => p.badAt (r * (k / 4)) (k / 4) || p.badAt (32 * (k / 4) + r * (k / 48)) (k / 48)
  | 4 => p.badAt 0 (2 * rank * k) || p.badAt (2 * rank * k + 2 * rank * r) (2 * rank)
  | _ => p.badAt 0 192

/-- Whether a block works on tiles chosen by SMASK, ACC, PASSES and PLANE (R276). -/
def wTiles (h : Nat) : Bool := let op := bitsAt h 0 8; decide (op ≤ 6) || (op == 7 && bitsAt h 42 2 == 1)

/-- The bits a block may set (R276). -/
def wBits (h : Nat) : Nat :=
  let op := bitsAt h 0 8
  let base := maskOf 13 0 ||| maskOf 127 112 ||| (if op = 9 ∨ op = 10 then 0 else maskOf 111 64)
  let tiles := if wTiles h then maskOf 21 16 ||| maskOf 28 24 ||| maskOf 255 208 else 0
  let comp := maskOf 22 22 ||| maskOf 39 32 ||| maskOf 63 48 ||| maskOf 207 128
  let own := match op with
    | 1 | 3 => comp
    | 2 => comp ||| maskOf 41 40
    | 4 => comp ||| maskOf 46 42
    | 6 => maskOf 23 22 ||| maskOf 37 32 ||| maskOf 175 128 ||| (if bitAt h 23 then 0 else maskOf 207 176)
    | 7 => maskOf 43 42 ||| maskOf 175 128 ||| (if bitsAt h 42 2 = 1 then maskOf 55 48 else 0)
    | 8 => maskOf 175 128
    | _ => 0
  base ||| tiles ||| own

/-- Whether a block is defective (R165, R277). -/
def wDefect (h : Nat) : Bool :=
  let op := bitsAt h 0 8
  let taken := op == 7 || op == 8
  op == 0 || decide (10 < op) || bitsAt h 8 4 != 3 || bitsAt h 14 2 != 0 || h &&& wBits h != h
    || decide (8192 < wPlen h) || wPlen h % 32 != 0 || (decide (6 ≤ op) && wPlen h != 0) || (op == 5 && decide (wPlen h < 192))
    || bitsAt h 64 48 % 32 != 0 || (taken && bitsAt h 128 48 % 32 != 0)
    || (op == 7 && bitsAt h 42 2 == 3)
    || (wTiles h && (bitsAt h 16 4 == 0 || wPlane h % 4096 != 0 || (wPasses h == 1) != (wPlane h == 0)))
    || (op == 6 && (decide (5 < bitsAt h 32 4) || bitsAt h 36 2 == 3 || (bitAt h 23 && bitsAt h 131 45 != 0)))
    || (decide (op ≤ 4) && (!wFormats h || (op == 2 && bitsAt h 40 2 == 0) || wDepth h == 0))

/-- The successor of a block (R276). -/
def wSucc (h : Nat) (va : Word) : Word := if bitsAt h 64 48 = 0 then va + 32 + BitVec.ofNat 64 (wPlen h) else addrField h 64

/-! ### Working tiles (R279, R280) -/

/-- The keys of a block's elements: pass × 1,024 + tile row × 32 + column, over the SMASK slices. -/
def wKeys (h : Nat) : List Nat :=
  (List.range (wPasses h)).flatMap fun p =>
    ((List.range 1024).filter fun i => bitAt (bitsAt h 16 4) (i / 256)).map fun i => p * 1024 + i

/-- The element of a working tile at a key. -/
def State.workEl (s : State) (cl row h key : Nat) : El :=
  if wPasses h = 1 then (s.row cl row).accEl (bitsAt h 20 2 * 1024 + key)
  else (memRead s.mem (wPlane h + 4 * key) 4, s.poisonedAt (wPlane h + 4 * key) 4)

/-- Writes elements to the planes, 16 of them, a sector, at a time (R280, R361); the fuel bounds the sectors. -/
def State.mergePlanes (base : Nat) : (fuel : Nat) → List (Nat × El) → State → State
  | 0, _, s => s
  | f + 1, els, s =>
    match els with
    | [] => s
    | e :: _ =>
      let now := els.take 16
      State.mergePlanes base f (els.drop 16)
        (s.visWrite none (base + 4 * e.1) (now.flatMap fun p => bytesOf 4 p.2.1) (now.any fun p => p.2.2))

/-- Merges staged elements, whole slices of them, into the working tiles at a block's end (R280). -/
def State.mergeEls (s : State) (cl row h : Nat) (els : List (Nat × El)) : State :=
  if wPasses h = 1 then
    s.setRow cl row ((s.row cl row).setAcc (els.map fun p => (bitsAt h 20 2 * 1024 + p.1, p.2)))
  else State.mergePlanes (wPlane h) els.length els s

/-- The check of a block's planes: they lie in one SCRATCH bank of the cluster (R279). -/
def planeCheck (cl h : Nat) : ChM Unit := do
  if wTiles h && wPasses h != 1 then
    let s ← get
    let lo := wPlane h
    let bad : ChM Unit := throw (.fault ⟨5, BitVec.ofNat 64 lo, false, false⟩)
    match regionOf lo with
    | .csram c b off =>
      if c ≠ cl ∨ 0x40000 < off + 4096 * wPasses h then bad
      else if (s.bank c b).busy.isSome then throw .stall
      else if (s.bank c b).mode != modeScratch then bad
      else pure ()
    | _ => bad
  else pure ()

/-! ### Compute blocks (R281 to R284) -/

/-- One row of activations, element by element. -/
def actRow (e : Eng) (ws : Nat) : Nat → Word → EngM (List (List Byte × Bool))
  | 0, _ => return []
  | n + 1, a => do
    let x ← engRead e a ws
    let rest ← actRow e ws n (a + BitVec.ofNat 64 ws)
    return x :: rest

/-- The activations of one pass: K rows of 32 elements (R279). -/
def actRows (e : Eng) (h p : Nat) : List Nat → EngM (List (List (List Byte × Bool)))
  | [] => return []
  | k :: r => do
    let a := addrField h 128 + BitVec.ofNat 64 (p * bitsAt h 192 16 * 128 + k * bitsAt h 176 16)
    let x ← actRow e (opndB (bitsAt h 36 4)) 32 a
    let rest ← actRows e h p r
    return x :: rest

/-- The activations of every pass. -/
def actPasses (e : Eng) (h : Nat) : List Nat → EngM (List (List (List (List Byte × Bool))))
  | [] => return []
  | p :: r => do
    let x ← actRows e h p (List.range (wDepth h))
    let rest ← actPasses e h r
    return x :: rest

/-- Element (k, n) of a pass's activations. -/
def actVal (h : Nat) (as : List (List (List Byte × Bool))) (n k : Nat) : FV :=
  opndVal (bitsAt h 36 4) ((as.getD k []).getD n ([], false)).1 0

/-- Whether an activation in column n of a pass is poisoned. -/
def actBad (as : List (List (List Byte × Bool))) (n : Nat) : Bool := as.any fun r => (r.getD n ([], false)).2

/-- The new value of an element of a WDENSE, WSPARSE or WTWO block (R282). -/
def wDot (h : Nat) (pay : List Byte) (as : List (List (List Byte × Bool))) (old key : Nat) : Nat :=
  let op := bitsAt h 0 8
  let fmt := bitsAt h 32 4
  let ws := opndB fmt
  let k := wDepth h
  let len := chunkLen fmt
  let r := key % 1024 / 32
  let act (j : Nat) : FV := actVal h as (key % 32) j
  let asc := e8m0Exp (bitsAt h 56 8)
  match op with
  | 2 =>
    let q := bitsAt h 40 2
    let vals := k / 48 * 12 * q
    let side := 32 * vals * ws + r * (k / 48 * 3 * q)
    let pos (j : Nat) : Nat := bitsAt (pay.getD (side + j / 4) 0).toNat (2 * (j % 4)) 2
    let w := pay.drop (r * vals * ws)
    foldChunks old (fun _ => scaleMul asc (e8m0Exp (bitsAt h 48 8))) (sparseChunk (opndVal fmt w) act pos q len) (k / len)
  | 3 =>
    let w := pay.drop (r * (k / 4))
    let sc (c : Nat) : Option Int := scaleMul asc (e8m0Exp (pay.getD (32 * (k / 4) + r * (k / 48) + c) 0).toNat)
    foldChunks old sc (fun c => denseChunk (opndVal fmt w) act len c k) (k / len)
  | _ =>
    let w := pay.drop (r * k * ws)
    foldChunks old (fun _ => scaleMul asc (e8m0Exp (bitsAt h 48 8))) (fun c => denseChunk (opndVal fmt w) act len c k) (k / len)

/-- Element (j, n) of T of a WLRC block: D × X rounded to bf16 (R283). -/
def lrcT (h : Nat) (pay : List Byte) (as : List (List (List Byte × Bool))) (n j : Nat) : FV :=
  let k := wDepth h
  let asc := e8m0Exp (bitsAt h 56 8)
  let d := pay.drop (2 * j * k)
  let t := foldChunks 0 (fun _ => asc) (fun c => denseChunk (opndVal 4 d) (actVal h as n) 6 c k) (k / 6)
  bf16.decode (bf16.round .rne 0 true (fp32.decode t)).bits

/-- The new value of an element of a WLRC block, from the columns of T (R283). -/
def wLrc (h : Nat) (pay : List Byte) (t : Nat → List FV) (old key : Nat) : Nat :=
  let rank := bitsAt h 42 5 + 1
  let u := pay.drop (2 * rank * wDepth h + 2 * rank * (key % 1024 / 32))
  let col := t (key % 32)
  foldChunks old (fun _ => some 0) (fun c => denseChunk (opndVal 4 u) (fun j => col.getD j .nan) 6 c rank) (ceilDiv rank 6)

/-- What a block that reaches its end leaves. -/
structure BlockOut where
  els : List (Nat × El)
  next : Word
  links : List Word
  sat : Bool
  poisoned : Bool
deriving DecidableEq, Repr

/-- Whether an element is NaN or reaches 2^(t − 127); 0xFF names no magnitude (R286). -/
def wHits (t bits : Nat) : Bool :=
  let v := fp32.decode bits
  v.isNan || (t != 255 && !(v.abs.lt (.fin false 1 ((t : Int) - 127))))

/-- A compute block (R282, R283). -/
def wCompute (e : Eng) (cl row : Nat) (ch : Chain) (h : Nat) (pay : Payload) : ChM BlockOut := do
  let ps ← ofEng (actPasses e h (List.range (wPasses h)))
  let s ← get
  let lrc := bitsAt h 0 8 == 4
  let ts : List (List (List FV)) :=
    if lrc then ps.map fun as => (List.range 32).map fun n => (List.range (bitsAt h 42 5 + 1)).map (lrcT h pay.bytes as n) else []
  let keys := wKeys h
  let els := keys.map fun k =>
    let old := if bitAt h 22 then (0, false) else s.workEl cl row h k
    let as := ps.getD (k / 1024) []
    let v := if lrc then wLrc h pay.bytes (fun n => (ts.getD (k / 1024) []).getD n []) old.1 k else wDot h pay.bytes as old.1 k
    (k, (v, old.2 || pay.badFor h k || actBad as (k % 32)))
  let satx := bitsAt h 48 8
  let sat := decide (3 ≤ bitsAt h 0 8) && satx != 255 && els.any fun p => wHits satx p.2.1
  return ⟨els, wSucc h ch.block, ch.links, ch.sat || sat, els.any fun p => p.2.2⟩

/-- WACT's function (R284): `vpwl` at fp32, nearest, with flushed sources and result. -/
def wActVal (pay : List Byte) (bits : Nat) : Nat :=
  let src (b : Nat) : FV := fp32.flush true (fp32.decode b)
  let tab (k : Nat) : FV := src (ofBytes ((pay.drop (4 * k)).take 4))
  (fp32.round .rne 0 true (pwlVal .rne tab (src bits))).bits

/-- A WACT block (R284). -/
def wAct (cl row : Nat) (ch : Chain) (h : Nat) (pay : Payload) : ChM BlockOut := do
  let s ← get
  let els := (wKeys h).map fun k =>
    let old := s.workEl cl row h k
    (k, (wActVal pay.bytes old.1, old.2 || pay.badFor h k))
  return ⟨els, wSucc h ch.block, ch.links, ch.sat, els.any fun p => p.2.2⟩

/-! ### WOUT (R285, R291) -/

/-- The bytes of an element in an output format (R260, R285). -/
def outVal (fmt ovf bits : Nat) : List Byte :=
  if fmt = 5 then bytesOf 1 (unsignedOf 8 (narrowInt 8 .rne 0 (fp32.decode bits)).1) else drainVal fmt ovf bits

/-- Bytes of an element in an output format. -/
def outB (fmt : Nat) : Nat := match fmt with | 0 => 4 | 3 | 4 => 2 | _ => 1

/-- The output of a run of elements of one pass, with its poison. -/
def State.outBytes (s : State) (cl row h : Nat) (keys : List Nat) : List Byte × Bool :=
  let els := keys.map (s.workEl cl row h)
  (els.flatMap fun x => outVal (bitsAt h 32 4) (bitsAt h 36 2) x.1, els.any Prod.snd)

/-- The rows of a block's working tiles: pass × 32 + tile row, over the SMASK slices. -/
def wRows (h : Nat) : List Nat :=
  (List.range (wPasses h)).flatMap fun p =>
    ((List.range 32).filter fun r => bitAt (bitsAt h 16 4) (r / 8)).map fun r => p * 32 + r

/-- Writes rows of working tiles to memory; a poisoned element that a row reads is consumed (R288). -/
def outRows (e : Eng) (cl row h : Nat) : List Nat → EngM Unit
  | [] => pure ()
  | k :: r => do
    let a := addrField h 128 + BitVec.ofNat 64 (k / 32 * bitsAt h 192 16 * 128 + k % 32 * bitsAt h 176 16)
    let b := (← get).outBytes cl row h ((List.range 32).map (k * 32 + ·))
    accEats b.2
    engWrite e a b.1 b.2
    outRows e cl row h r

/-- The columns of the SMASK slices. -/
def wCols (h : Nat) : List Nat := (List.range 4).filter fun c => bitAt (bitsAt h 16 4) c

/-- Bytes that one slice writes to its window. -/
def wOutLen (h : Nat) : Nat := wPasses h * 256 * outB (bitsAt h 32 4)

/-- The bank of the window that the core in a column writes for a WOUT. -/
def State.outBank (s : State) (cl row col h : Nat) : Nat :=
  winBank (4 * row + col) ((s.getHart (vcNum cl (4 * row + col))).vec.nwin.getD (bitsAt h 128 3) 0).toNat

/-- What the check of one slice's window write gives (R90): ok, a failure, or a wait for a mode change. `gen` is the bank's generation
at the block's start, once it has been checked: after that, a change of mode alone is looked at again (R84; DEDUCED, log 137). -/
def State.windowVerdict (s : State) (cl row col h : Nat) (gen : Option Nat) : Verdict :=
  let nw := ((s.getHart (vcNum cl (4 * row + col))).vec.nwin.getD (bitsAt h 128 3) 0).toNat
  let b := s.outBank cl row col h
  let k := s.bank cl b
  let len := wOutLen h
  if k.busy.isSome then .wait (.modeChange (cl * 32 + b))
  else if gen = some k.gen then .ok
  else if k.mode != modeLatch || !k.winen then .fault 30
  else if gen.isNone && (!bitAt nw 63 || bitsAt nw 0 16 == 0 || decide (8 * bitsAt nw 0 16 < len)
      || decide (0x40000 < 8 * bitsAt nw 17 15 + len)) then .fault 30
  else .ok

/-- Writes words of a slice from word `done` upward until one is full (R86, R116): the words written. -/
def State.windowWords (cl row bank base : Nat) : State → (done : Nat) → List (List Byte × Bool) → State × Nat
  | s, done, [] => (s, done)
  | s, done, w :: r =>
    let k := s.bank cl bank
    if k.isFull (base + done) then (s, done)
    else
      let s := s.visWrite none (bankAddr cl bank (8 * (base + done))) w.1 w.2
      let s := (s.setWord cl bank (base + done) true).poisonRow cl row w.2
      State.windowWords cl row bank base s (done + 1) r

/-- One slice's part of a WOUT to a window: the state, the words written, and whether it has written all. -/
def State.windowSlice (s : State) (cl row col h done : Nat) : State × Nat × Bool :=
  let n := 4 * row + col
  let nw := ((s.getHart (vcNum cl n)).vec.nwin.getD (bitsAt h 128 3) 0).toNat
  let per := 8 / outB (bitsAt h 32 4)
  let total := wOutLen h / 8
  let word (w : Nat) : List Byte × Bool :=
    s.outBytes cl row h ((List.range per).map fun i => let e := w * per + i; e / 256 * 1024 + col * 256 + e % 256)
  let r := State.windowWords cl row (winBank n nw) (bitsAt nw 17 15) s done ((List.range (total - done)).map fun i => word (done + i))
  (r.1, r.2, decide (total ≤ r.2))

/-- One attempt at a WOUT to a window (R285, R291): the slices go on, but for those whose bank changes its mode (R84); a slice that
wrote nothing keeps the start of its wait. -/
def State.windowAttempt (s : State) (cl row h : Nat) (stalls : Nat → Bool) (ch : Chain) : State × Chain × Bool :=
  (wCols h).foldl (fun acc col =>
    let (s, ch, all) := acc
    let done := ch.outWords.getD col 0
    let (s, n, fin) := if stalls col then (s, done, false) else s.windowSlice cl row col h done
    let since := if fin then none else if n = done ∧ (ch.since.getD col none).isSome then ch.since.getD col none else some s.cycles
    (s, { ch with outWords := ch.outWords.set col n, since := ch.since.set col since }, all && fin)) (s, ch, true)

/-- Elements that a WOUT leaves: zeroed with ZERO, else as they are. -/
def wOutEls (h : Nat) : List (Nat × El) := if bitAt h 22 then (wKeys h).map fun k => (k, (0, false)) else []

/-- Whether a WOUT reads a poisoned element. -/
def State.wOutBad (s : State) (cl row h : Nat) : Bool := (wKeys h).any fun k => (s.workEl cl row h k).2

/-! ### The end of a chain (R274, R275, R288, R342) -/

/-- The fields of a chain's fault record (R288, R339). -/
def State.chainRecord (s : State) (cl row : Nat) (ch : Chain) (cause : Nat) (va : Word) (write hostfile : Bool) : State :=
  let n := vcNum cl (4 * row)
  s.faultRecord cl ⟨0, cause, 4, 0xFF, write, hostfile, cl + 16 * row, va, ch.satp,
    s.rcbOf ((s.getHart n).task.map (·.job)), ch.block, n⟩

/-- A core at the end of its chain (R182, R274): x10, `wdstate`, and on past `wdrive`. -/
def Hart.chainEnd (h : Hart) (x10 wd : Word) : Hart :=
  let h := ((h.setX 10 x10).advance 4).csrClean 0xCC4
  { h with vec := { h.vec with wdstate := wd }, la := [] }

/-- The chain of a row ends with a status (R274, R275). -/
def State.endChain (s : State) (cl row : Nat) (ch : Chain) (status opc : Nat) (repair : Bool) : State :=
  let done := status == 0
  let kept := if done then none else some { ch with begun := false, since := [none, none, none, none], header := none, gens := [] }
  let wd := if done then 0 else BitVec.ofNat 64 (ch.links.length * 2 ^ 48 + bitsAt ch.block.toNat 5 43 * 32)
  let s := s.setRow cl row { s.row cl row with chain := none, resume := kept, repair := repair }
  (colHarts cl row).foldl (fun s n =>
    s.modHart n fun h => h.chainEnd (BitVec.ofNat 64 (status + 256 * (if done then 0 else opc))) wd) s

/-- Each of a row's cores takes an exception before its next instruction. -/
def State.trapRow (s : State) (cl row : Nat) (e : Exc) : State :=
  let me := s.cpu.num
  (colHarts cl row).foldl (fun s n => ((s.turnTo n).takeTrap e 0).turnTo me) s

/-- The chain of a row ends with INTR (R289), once the header of its next block can be read (R84). -/
def State.chainIntr (s : State) (cl row : Nat) : State :=
  match (s.row cl row).chain with
  | none => s
  | some ch =>
    if s.headerStalls (ch.eng cl) ch then s
    else
      let b := s.blockOpc cl row ch
      b.2.endChain cl row ch 1 b.1 (s.row cl row).repair

/-- A block's stop ends the chain, or leaves it where it is while it stalls (R274, R288). -/
def State.chainStop (s : State) (cl row : Nat) (ch : Chain) (opc : Nat) : ChainStop → State
  | .fault f =>
    (s.chainRecord cl row ch f.cause (pageOf f.va) f.write f.hostfile).endChain cl row ch 2 opc true
  | .wx va hostfile =>
    ((s.chainRecord cl row ch 25 (pageOf va) false hostfile).endChain cl row ch 3 opc false).trapRow cl row (.plain 25 va)
  | .ends st => s.endChain cl row ch st opc false
  | .stall => s

/-- A block has ended: its elements merge and the chain goes on (R280, R286). -/
def State.blockEnd (s : State) (cl row h : Nat) (ch : Chain) (o : BlockOut) : State :=
  let s := (s.mergeEls cl row h o.els).poisonRow cl row o.poisoned
  let ch := { ch with
    block := o.next, links := o.links, sat := o.sat, outWords := [0, 0, 0, 0], since := [none, none, none, none], reruns := 0, header := none,
    gens := [] }
  s.setRow cl row { s.row cl row with chain := some ch }

/-! ### Running a block (R278 to R287) -/

/-- A block that goes to an address without touching a working tile. -/
def transfer (next : Word) (links : List Word) (sat : Bool) (poisoned : Bool) : ChM BlockOut :=
  return ⟨[], next, links, sat, poisoned⟩

/-- WSEL (R286). -/
def wSel (cl row : Nat) (ch : Chain) (h : Nat) : ChM BlockOut := do
  let s ← get
  let els := if bitsAt h 42 2 = 1 then (wKeys h).map (s.workEl cl row h) else []
  let holds := match bitsAt h 42 2 with
    | 0 => ch.sat
    | 1 => els.any fun x => wHits (bitsAt h 48 8) x.1
    | _ => true
  let sat := if bitsAt h 42 2 = 0 then false else ch.sat
  transfer (if holds then addrField h 128 else wSucc h ch.block) ch.links sat (els.any Prod.snd)

/-- WCALL (R287). -/
def wCall (ch : Chain) (h : Nat) : ChM BlockOut :=
  if 4 ≤ ch.links.length then throw (.ends 5)
  else transfer (addrField h 128) (wSucc h ch.block :: ch.links) ch.sat false

/-- WRET (R287). -/
def wRet (ch : Chain) : ChM BlockOut :=
  match ch.links with
  | [] => throw (.ends 5)
  | l :: r => transfer l r ch.sat false

/-- A WOUT to memory (R285). -/
def wOutMem (e : Eng) (cl row : Nat) (ch : Chain) (h : Nat) : ChM BlockOut := do
  let bad := (← get).wOutBad cl row h
  ofEng (outRows e cl row h (wRows h))
  return ⟨wOutEls h, wSucc h ch.block, ch.links, ch.sat, bad⟩

/-- The effect of a block with a sound header, but for a WOUT to a window. The payload is fetched and checked unit by unit, those that
serve only slices outside SMASK too (DESIGN CHOICE, log 132). -/
def runBlock (cl row : Nat) (ch : Chain) (h : Nat) : ChM BlockOut := do
  let e := ch.eng cl
  planeCheck cl h
  let pay ← chainUnits e (ceilDiv (wUsed h) 32) (ch.block + 32)
  match bitsAt h 0 8 with
  | 5 => wAct cl row ch h pay
  | 6 => wOutMem e cl row ch h
  | 7 => wSel cl row ch h
  | 8 => wCall ch h
  | 9 => wRet ch
  | 10 => throw (.ends 0)
  | _ => wCompute e cl row ch h pay

/-- Whether a slice has written every word of a WOUT to its window. -/
def Chain.wrote (ch : Chain) (h col : Nat) : Bool := decide (wOutLen h / 8 ≤ ch.outWords.getD col 0)

/-- An attempt at a WOUT to a window (R285): a slice that has written all its words accesses its bank no more (R84). DEDUCED, log 72. -/
def State.runWindow (s : State) (cl row : Nat) (ch : Chain) (h : Nat) : State :=
  let again := !ch.gens.isEmpty
  let verdict (c : Nat) : Verdict := s.windowVerdict cl row c h (if again then some (ch.gens.getD c 0) else none)
  let stalls (c : Nat) : Bool := match verdict c with | .wait _ => true | _ => false
  let open_ := (wCols h).filter fun c => !(again && ch.wrote h c)
  match runAcc (planeCheck cl h) s with
  | (.error r, t, _) => t.chainStop cl row ch 6 r
  | (.ok (), _) =>
    if open_.any fun c => !stalls c && verdict c != .ok then s.endChain cl row ch 6 6 false
    else if !again && open_.any stalls then s.setRow cl row { s.row cl row with chain := some ch }
    else
      let ch := if again then ch else { ch with gens := (List.range 4).map fun c => (s.bank cl (s.outBank cl row c h)).gen }
      let (t, ch, all) := s.windowAttempt cl row h (fun c => open_.contains c && stalls c) ch
      if all then t.blockEnd cl row h ch ⟨wOutEls h, wSucc h ch.block, ch.links, ch.sat, s.wOutBad cl row h⟩
      else t.setRow cl row { t.row cl row with chain := some ch }

/-- Runs a block whose header has been read. -/
def State.runHeader (s : State) (cl row : Nat) (ch : Chain) (h : Nat) : State :=
  if bitsAt h 0 8 = 6 ∧ bitAt h 23 then s.runWindow cl row { ch with header := some h } h
  else
    match runAcc (runBlock cl row ch h) s with
    | (.ok o, t, ate) => (t.poisonRow cl row ate).blockEnd cl row h ch o
    | (.error r, t, ate) => (t.poisonRow cl row ate).chainStop cl row ch (bitsAt h 0 8) r

/-- The next block of a row's chain: a WOUT that is waiting mid-block goes on with the header fetched before (R123). The block runs
when its header's OPC is `op`, or the chain ends before it (R277, R278, R289). DEDUCED, log 71. -/
def State.chainBlock (op cl row : Nat) (s : State) : State :=
  match (s.row cl row).chain with
  | none => s
  | some ch =>
    if !ch.begun then s
    else if (colHarts cl row).any fun n => (s.getHart n).pendingInt.isSome then s.chainIntr cl row
    else
      match ch.header with
      | some h => if bitsAt h 0 8 ≠ op then s else s.runHeader cl row ch h
      | none =>
      match runAcc (chainUnit (ch.eng cl) ch.block) s with
      | (.error (.wx va hostfile), t, ate) =>
        let b := (t.poisonRow cl row ate).blockOpc cl row ch
        b.2.chainStop cl row ch b.1 (.wx va hostfile)
      | (.error r, t, ate) => (t.poisonRow cl row ate).chainStop cl row ch 0 r
      | (.ok b, t, ate) =>
        let h := ofBytes b.1
        if b.2 || wDefect h then
          ((t.poisonRow cl row ate).chainRecord cl row ch 2 0 false false).endChain cl row ch 4 (bitsAt h 0 8) false
        else if bitsAt h 0 8 ≠ op then s
        else (t.poisonRow cl row ate).runHeader cl row ch h

/-! ### The events of a chain -/

/-- CHAIN_START (R273, R342): the chain begins once every earlier command of the row has completed, and its repair. -/
def execChainStart (cl row : Nat) (s : State) : Host.Outcome State Fault Refusal :=
  engineStep (fun s =>
    let w := s.row cl row
    match w.chain with
    | some ch =>
      let begun := { ch with begun := true }
      if w.queue.isEmpty && !w.repair then s.setRow cl row { w with chain := some begun } else s
    | none => s) s

/-- WDENSE (R282). -/
def execWdense (cl row : Nat) (s : State) : Host.Outcome State Fault Refusal := engineStep (State.chainBlock 1 cl row) s
/-- WSPARSE (R282). -/
def execWsparse (cl row : Nat) (s : State) : Host.Outcome State Fault Refusal := engineStep (State.chainBlock 2 cl row) s
/-- WTWO (R282). -/
def execWtwo (cl row : Nat) (s : State) : Host.Outcome State Fault Refusal := engineStep (State.chainBlock 3 cl row) s
/-- WLRC (R283). -/
def execWlrc (cl row : Nat) (s : State) : Host.Outcome State Fault Refusal := engineStep (State.chainBlock 4 cl row) s
/-- WACT (R284). -/
def execWact (cl row : Nat) (s : State) : Host.Outcome State Fault Refusal := engineStep (State.chainBlock 5 cl row) s
/-- WOUT (R285). -/
def execWout (cl row : Nat) (s : State) : Host.Outcome State Fault Refusal := engineStep (State.chainBlock 6 cl row) s
/-- WSEL (R286). -/
def execWsel (cl row : Nat) (s : State) : Host.Outcome State Fault Refusal := engineStep (State.chainBlock 7 cl row) s
/-- WCALL (R287). -/
def execWcall (cl row : Nat) (s : State) : Host.Outcome State Fault Refusal := engineStep (State.chainBlock 8 cl row) s
/-- WRET (R287). -/
def execWret (cl row : Nat) (s : State) : Host.Outcome State Fault Refusal := engineStep (State.chainBlock 9 cl row) s
/-- WEND (R287). -/
def execWend (cl row : Nat) (s : State) : Host.Outcome State Fault Refusal := engineStep (State.chainBlock 10 cl row) s

/-- WOUT_WINDOW_TIMEOUT (R291): the chain ends with PROGRESS. -/
def execWoutWindowTimeout (cl row col : Nat) (s : State) : Host.Outcome State Fault Refusal :=
  engineStep (fun s =>
    match (s.row cl row).chain with
    | some ch => if s.windowLate cl row ch col then s.endChain cl row ch 7 6 false else s
    | none => s) s

/-- The machine-check information of a JMA slice (R353, R354). -/
def jmaInfo (ch : Chain) (opc col : Nat) : McInfo := ⟨false, 4, 3, some col, 3, 0, some ch.block, some (opc + 3 * 256)⟩

/-- Whether a matrix command works on significands (R349): it multiplies, or narrows what it drains. -/
def matMant (words : Nat) : Bool :=
  let op := bitsAt words 0 8
  (decide (1 ≤ op) && decide (op ≤ 4)) || (op == 6 && bitsAt words 32 4 != 0)
/-- Whether a block works on significands (R349): it multiplies, interpolates, or narrows what it puts out. -/
def wMant (h : Nat) : Bool :=
  let op := bitsAt h 0 8
  (decide (1 ≤ op) && decide (op ≤ 5)) || (op == 6 && bitsAt h 32 4 != 0)

/-- The header of the block that a chain runs: the one fetched for a WOUT that waits, else that at its address, if it can be fetched
and is sound (R277, R278). -/
def State.runningHeader (s : State) (cl : Nat) (ch : Chain) : Option Nat :=
  match ch.header with
  | some h => some h
  | none =>
    match (runAcc (chainUnit (ch.eng cl) ch.block) s).1 with
    | .ok b => if b.2 || wDefect (ofBytes b.1) then none else some (ofBytes b.1)
    | .error _ => none

/-- A mismatch in the block with header h: the block runs again; a third one ends the chain with FAULT, without a record or a repair,
and cause 48 on the four cores (R353). -/
def State.chainMismatch (s : State) (cl row col h : Nat) (ch : Chain) : State :=
  let opc := bitsAt h 0 8
  if ch.reruns < 2 then
    let d := s.hartDomain (vcNum cl (4 * row))
    (s.setRow cl row { s.row cl row with chain := some { ch with reruns := ch.reruns + 1 } }).charge d.1 0 d.2
  else (s.endChain cl row ch 2 opc false).trapRow cl row ⟨48, 0, none, false, some (jmaInfo ch opc col)⟩

/-- JMA_RESIDUE_MISMATCH (R349, R353): the command or block that the row runs, if it works on significands, starts again, twice at
most. A command that still waits (R257) does not run. -/
def execJmaResidueMismatch (cl row col : Nat) (s : State) : Host.Outcome State Fault Refusal :=
  engineStep (fun s =>
    let w := s.row cl row
    match w.head? with
    | some c =>
      if c.result.isSome || c.defect || !s.matWaited cl row c || !matMant c.words then s
      else if c.reruns < 2 then
        (s.setRow cl row (w.setHead { c with reruns := c.reruns + 1 })).charge (s.jobDomain c.job).1 0 (s.jobDomain c.job).2
      else s.setRow cl row (w.setHead { c with result := some ⟨4, 48, 0, false, false, false, col⟩ })
    | none =>
      match w.chain with
      | some ch =>
        (match s.runningHeader cl ch with
        | some h => if ch.begun && wMant h then s.chainMismatch cl row col h ch else s
        | none => s)
      | none => s) s

end Sys2Proof.Machine
end

