-- ==== Sys2Proof/Machine/Coding.lean ====
section
/-! DEFINITION. Channel coding as the codec complex computes it (R267 to R269, TS 38.212; the shifts of its base graphs are opaque: DESIGN CHOICE, log 40). -/

namespace Sys2Proof.Machine

/-- Bit j of a packed buffer. -/
def bufBit (bs : List Byte) (j : Nat) : Bool := bitAt (bs.getD (j / 8) 0).toNat (j % 8)

/-- Bits packed eight to a byte, the first at bit 0; the last byte is filled with zeros (R268; DESIGN CHOICE, log 143). -/
def packBits (bs : List Bool) : List Byte :=
  (List.range (ceilDiv bs.length 8)).map fun k =>
    BitVec.ofNat 8 (((List.range 8).map fun i => b2n (bs.getD (8 * k + i) false) * 2 ^ i).foldl (· + ·) 0)

/-- Saturation to −m..m. -/
def satTo (m x : Int) : Int := if m < x then m else if x < -m then -m else x

/-- An LLR of a buffer. -/
def llrAt (bs : List Byte) (j : Nat) : Int := signedOf 8 (bs.getD j 0).toNat
/-- An LLR as a byte. -/
def llrByte (x : Int) : Byte := BitVec.ofInt 8 x

/-! ### CRCs (TS 38.212 clause 5.1) -/

/-- The remainder of bits modulo a generator of degree n, without its leading term. PRESUMED, log 41. -/
def crcRem (n poly : Nat) (bs : List Bool) : Nat :=
  bs.foldl (fun r b =>
    let top := bitAt r (n - 1)
    let r := (2 * r + b2n b) % 2 ^ n
    if top then r ^^^ poly else r) 0

/-- Whether the CRC of R267's CRC field passes over bits: none, CRC16, CRC24A, CRC24B. -/
def ldpcCrcOk (kind : Nat) (bs : List Bool) : Bool :=
  match kind with
  | 0 => true
  | 1 => crcRem 16 0x1021 bs == 0
  | 2 => crcRem 24 0x864CFB bs == 0
  | _ => crcRem 24 0x800063 bs == 0

/-- Whether the CRC of R267's PCRC field passes over bits: CRC6, CRC11, CRC24C, none. -/
def polarCrcOk (kind : Nat) (bs : List Bool) : Bool :=
  match kind with
  | 0 => crcRem 6 0x21 bs == 0
  | 1 => crcRem 11 0x621 bs == 0
  | 2 => crcRem 24 0xB2B117 bs == 0
  | _ => true

/-! ### LDPC -/

/-- The lifting sizes of TS 38.212. -/
def liftSizes : List Nat :=
  [2, 3, 5, 7, 9, 11, 13, 15].flatMap fun a => ((List.range 8).map fun j => a * 2 ^ j).filter (· ≤ 384)

/-- The size of a code: base graph, lifting size, and their counts. -/
structure LdpcCode where
  bg2 : Bool
  z : Nat
deriving DecidableEq, Repr

/-- Systematic columns. -/
def LdpcCode.kb (c : LdpcCode) : Nat := if c.bg2 then 10 else 22
/-- Base-graph rows. -/
def LdpcCode.rows (c : LdpcCode) : Nat := if c.bg2 then 42 else 46
/-- Base-graph columns. -/
def LdpcCode.cols (c : LdpcCode) : Nat := if c.bg2 then 52 else 68
/-- N (R267). -/
def LdpcCode.n (c : LdpcCode) : Nat := if c.bg2 then 50 * c.z else 66 * c.z

/-- The bit positions of check i of base row l: one in each column that has an entry, shifted (clause 5.3.2). -/
def LdpcCode.check (c : LdpcCode) (l i : Nat) : List Nat :=
  (List.range c.cols).filterMap fun j =>
    (Config.ldpcShift c.bg2 c.z l j).map fun v => j * c.z + (i + v % c.z) % c.z

/-- Every parity check. -/
def LdpcCode.checks (c : LdpcCode) : List (List Nat) :=
  (List.range c.rows).flatMap fun l => (List.range c.z).map (c.check l)

/-- One step of elimination over GF(2): equations as numbers whose bit j is the coefficient of unknown j. -/
def gf2Step (st : List Nat × List (Nat × Nat)) (j : Nat) : List Nat × List (Nat × Nat) :=
  match st.1.find? fun r => bitAt r j with
  | none => st
  | some p =>
    let red (r : Nat) : Nat := if bitAt r j then r ^^^ p else r
    ((st.1.erase p).map red, (j, p) :: st.2.map fun q => (q.1, red q.2))

/-- The solution of equations in n unknowns whose right side is bit n; a free unknown is 0. -/
def gf2Solve (n : Nat) (eqs : List Nat) : List Bool :=
  let piv := ((List.range n).foldl gf2Step (eqs, [])).2
  (List.range n).map fun j => match piv.find? (·.1 == j) with | some p => bitAt p.2 n | none => false

/-- LDPC encoding (R268): the systematic bits with filler as zeros, and the parity bits that satisfy every check; the first 2Z
columns are punctured. -/
def LdpcCode.encode (c : LdpcCode) (bits : List Bool) : List Bool :=
  let k := c.kb * c.z
  let sys := (List.range k).map fun i => bits.getD i false
  let m := (c.cols - c.kb) * c.z
  let eqs := c.checks.map fun ps =>
    ps.foldl (fun v p => if p < k then (if sys.getD p false then v ^^^ 2 ^ m else v) else v ^^^ 2 ^ (p - k)) 0
  (sys ++ gf2Solve m eqs).drop (2 * c.z)

/-- The state of the decoder: the combined LLRs, and the messages by check and column position (R269). -/
structure LdpcState where
  p : List Int
  r : List (List Int)
deriving DecidableEq, Repr

/-- The product of the signs of values, with 0 positive. -/
def signProd (ts : List Int) : Int := ts.foldl (fun s t => if t < 0 then -s else s) 1
/-- The least magnitude of values. -/
def leastMag (ts : List Int) : Int := ts.foldl (fun m t => min m t.natAbs) 511

/-- The new message of position k: offset min-sum over the other positions. DEDUCED, log 43. -/
def minSum (ts : List Int) (k : Nat) : Int :=
  let os := ts.eraseIdx k
  signProd os * max 0 (leastMag os - 1)

/-- One check's update. -/
def ldpcCheck (st : List Int × List (List Int)) (q : List Nat × List Int) : List Int × List (List Int) :=
  let ts := ((List.range q.1.length).zip q.1).map fun e => satTo 511 (st.1.getD e.2 0 - q.2.getD e.1 0)
  let rs := (List.range q.1.length).map (minSum ts)
  let p := (q.1.zip (ts.zip rs)).foldl (fun p e => p.set e.1 (satTo 511 (e.2.1 + e.2.2))) st.1
  (p, st.2 ++ [rs])

/-- Whether hard decisions satisfy every check. -/
def LdpcCode.satisfied (c : LdpcCode) (p : List Int) : Bool :=
  c.checks.all fun ps => ((ps.filter fun j => decide (p.getD j 0 < 0)).length % 2) == 0

/-- Iterations until the checks are satisfied or none is left: the LLRs, the iterations made, and CONV. -/
def LdpcCode.iterate (c : LdpcCode) : (left done : Nat) → LdpcState → List Int × Nat × Bool
  | 0, done, s => (s.p, done, false)
  | left + 1, done, s =>
    let r := ((c.checks).zip s.r).foldl ldpcCheck (s.p, [])
    if c.satisfied r.1 then (r.1, done + 1, true) else c.iterate left (done + 1) ⟨r.1, r.2⟩

/-- Layered offset min-sum decoding (R269): output bits, iterations, CONV. -/
def LdpcCode.decode (c : LdpcCode) (llrs : List Int) (iters kp : Nat) : List Bool × Nat × Bool :=
  let p := (List.replicate (2 * c.z) (0 : Int) ++ llrs).map (satTo 511)
  let r := c.iterate iters 0 ⟨p, c.checks.map fun ps => ps.map fun _ => 0⟩
  ((List.range kp).map fun j => decide (r.1.getD j 0 < 0), r.2.1, r.2.2)

/-- The first position that rate matching takes (clause 5.4.2.1). PRESUMED, log 42. -/
def LdpcCode.k0 (c : LdpcCode) (rv ncb : Nat) : Nat :=
  let f (a : Nat) : Nat := a * ncb / c.n * c.z
  match rv with
  | 0 => 0
  | 1 => f (if c.bg2 then 13 else 17)
  | 2 => f (if c.bg2 then 25 else 33)
  | _ => f (if c.bg2 then 43 else 56)

/-- The positions of d that rate matching takes in one turn of the circular buffer: filler is skipped (clause 5.4.2.1). -/
def LdpcCode.turn (c : LdpcCode) (rv ncb kp f : Nat) : List Nat :=
  let start := c.k0 rv ncb
  ((List.range ncb).map fun j => (start + j) % ncb).filter fun p =>
    !(decide (kp ≤ p + 2 * c.z) && decide (p + 2 * c.z < kp + f))

/-- Where position f of the interleaved output comes from in e (clause 5.4.2.2); none beyond the last whole column. -/
def ldpcFrom (e qm f : Nat) : Option Nat := if f < e / qm * qm then some (f % qm * (e / qm) + f / qm) else none

/-! ### Polar -/

/-- The sub-block interleaver pattern (clause 5.4.1.1). -/
def polarPattern : List Nat :=
  [0, 1, 2, 4, 3, 5, 6, 7, 8, 16, 9, 17, 10, 18, 11, 19, 12, 20, 13, 21, 14, 22, 15, 23, 24, 25, 26, 28, 27, 29, 30, 31]

/-- The bit of d at position n of y (clause 5.4.1.1). -/
def polarSub (len n : Nat) : Nat := polarPattern.getD (32 * n / len) 0 * (len / 32) + n % (len / 32)

/-- The position of y that position k of e takes (clause 5.4.1.2). -/
def polarSel (len kp e k : Nat) : Nat :=
  if len ≤ e then k % len else if 16 * kp ≤ 7 * e then k + len - e else k

/-- The side of the channel interleaver's triangle (clause 5.4.1.3). -/
def triangleSide (e : Nat) : Nat := ((List.range (e + 1)).find? fun t => decide (e ≤ t * (t + 1) / 2)).getD e

/-- The order in which the channel interleaver reads e (clause 5.4.1.3): written by rows of falling length, read by columns. -/
def triangleOrder (e : Nat) : List Nat :=
  let t := triangleSide e
  (List.range t).flatMap fun j => (List.range (t - j)).filterMap fun i =>
    let k := i * t - i * (i - 1) / 2 + j
    if k < e then some k else none

/-- Where position f of the rate-matched output comes from in e: the channel interleaver is the uplink's (R267). -/
def polarFrom (mode e f : Nat) : Nat := if mode = 1 then (triangleOrder e).getD f 0 else f

/-- Multiplication by the polar kernel's power, over bits. -/
def polarMul : (n : Nat) → List Bool → List Bool
  | 0, u => u
  | n + 1, u =>
    let a := polarMul n (u.take (2 ^ n))
    let b := polarMul n (u.drop (2 ^ n))
    (a.zip b).map (fun p => p.1 != p.2) ++ b

/-- The K bits in the order in which they enter the channels (clause 5.3.1.1). -/
def polarOrderBits (mode kp : Nat) (bits : List Bool) : List Bool :=
  (List.range kp).map fun k => bits.getD (if mode = 0 then polarInterleave kp k else k) false

/-- The channel bits: frozen ones are 0, information bits enter in order, parity bits follow from earlier ones
(clause 5.3.1.2). -/
def polarInput (mode n kp : Nat) (bits : List Bool) : List Bool :=
  ((List.range (2 ^ n)).foldl (fun (st : List Bool × List Bool) i =>
    match polarKind mode n kp i with
    | 1 => (st.1 ++ [st.2.headD false], st.2.drop 1)
    | 2 => (st.1 ++ [polarParity mode n kp i st.1], st.2)
    | _ => (st.1 ++ [false], st.2)) ([], bits)).1

/-- Polar encoding (R268). -/
def polarEncode (mode n kp : Nat) (bits : List Bool) : List Bool := polarMul n (polarInput mode n kp (polarOrderBits mode kp bits))

/-- The f node (R269). -/
def fNode (a b : Int) : Int :=
  let m : Int := min (a.natAbs : Int) b.natAbs
  if decide (a < 0) != decide (b < 0) then -m else m

/-- Saturation to 16 bits. -/
def sat16 (x : Int) : Int := if 32767 < x then 32767 else if x < -32768 then -32768 else x

/-- The LLR of the next bit after the bits decided (R269). -/
def polarLlr : (n : Nat) → List Int → List Bool → Int
  | 0, l, _ => l.headD 0
  | n + 1, l, pre =>
    let a := l.take (2 ^ n)
    let b := l.drop (2 ^ n)
    if pre.length < 2 ^ n then polarLlr n ((a.zip b).map fun p => fNode p.1 p.2) pre
    else
      let us := polarMul n (pre.take (2 ^ n))
      polarLlr n (((a.zip b).zip us).map fun p => sat16 (p.1.2 + (if p.2 then -p.1.1 else p.1.1))) (pre.drop (2 ^ n))

/-- A path of the list decoder: its metric and the bits decided. -/
structure PolarPath where
  metric : Nat
  bits : List Bool
deriving DecidableEq, Repr

/-- A path extended by a decision: the metric grows where it disagrees with the LLR's sign. -/
def PolarPath.extend (p : PolarPath) (llr : Int) (u : Bool) : PolarPath :=
  ⟨p.metric + (if u == decide (llr < 0) then 0 else llr.natAbs), p.bits ++ [u]⟩

/-- The number of paths that precede candidate i: of lesser metric, or of the same and a lower index. -/
def pathRank (ps : List PolarPath) (i : Nat) : Nat :=
  let m := (ps.getD i ⟨0, []⟩).metric
  ((List.range ps.length).filter fun j =>
    let k := (ps.getD j ⟨0, []⟩).metric
    decide (k < m) || (k == m && decide (j < i))).length

/-- The paths that survive: those of least metric, in index order (DEDUCED, log 45). -/
def survivors (size : Nat) (ps : List PolarPath) : List PolarPath :=
  ((List.range ps.length).filter fun i => decide (pathRank ps i < size)).filterMap fun i => ps[i]?

/-- One bit of successive-cancellation list decoding. -/
def polarBit (mode n kp size : Nat) (llrs : List Int) (ps : List PolarPath) (i : Nat) : List PolarPath :=
  match polarKind mode n kp i with
  | 1 => survivors size (ps.flatMap fun p =>
      let l := polarLlr n llrs p.bits
      [p.extend l false, p.extend l true])
  | 2 => ps.map fun p => p.extend (polarLlr n llrs p.bits) (polarParity mode n kp i p.bits)
  | _ => ps.map fun p => p.extend (polarLlr n llrs p.bits) false

/-- The K bits of a path, in the order of the input. -/
def PolarPath.output (p : PolarPath) (mode n kp : Nat) : List Bool :=
  let info := ((List.range (2 ^ n)).zip p.bits).filterMap fun e => if polarKind mode n kp e.1 = 1 then some e.2 else none
  if mode = 0 then
    (List.range kp).map fun j =>
      match (List.range kp).find? fun k => polarInterleave kp k == j with
      | some k => info.getD k false
      | none => false
  else (List.range kp).map fun k => info.getD k false

/-- List decoding (R269): the output bits, the chosen path, and CRCOK. -/
def polarDecode (mode n kp size pcrc : Nat) (llrs : List Int) : List Bool × Nat × Bool :=
  let ps := (List.range (2 ^ n)).foldl (polarBit mode n kp size llrs) [⟨0, []⟩]
  let order := (List.range ps.length).flatMap fun r => (List.range ps.length).filter fun i => pathRank ps i == r
  let outs := ps.map fun p => p.output mode n kp
  match order.find? fun i => polarCrcOk pcrc (outs.getD i []) with
  | some i => (outs.getD i [], i, true)
  | none => let i := order.headD 0; (outs.getD i [], i, false)

end Sys2Proof.Machine
end

