-- ==== Sys2Proof/Machine/Copy.lean ====
section
/-! DEFINITION. The copy engines, completion records and the publication of commands (R119, R165, R178, R262 to R266, R363,
R379 to R381, R388, R393). -/

namespace Sys2Proof.Machine

/-! ### Command words (R262, R263) -/

/-- Dimensions of a COPYND. -/
def cpDims (w : Nat) : Nat := bitsAt w 32 3 + 1
/-- XF. -/
def cpXf (w : Nat) : Nat := bitsAt w 39 4
/-- XPARM. -/
def cpXparm (w : Nat) : Nat := bitsAt w 43 8
/-- The counts of all seven dimensions: three in word 0, four in word 1. -/
def cpCounts (w : Nat) : List Nat := [208, 224, 240, 256, 272, 288, 304].map fun b => bitsAt w b 16 + 1
/-- The source strides. -/
def cpSrcStrides (w : Nat) : List Int := (List.range 7).map fun d => signedOf 32 (bitsAt w (320 + 32 * d) 32)
/-- The destination strides. -/
def cpDstStrides (w : Nat) : List Int := (List.range 7).map fun d => signedOf 32 (bitsAt w (544 + 32 * d) 32)

/-- Whether a copy command is defective (R165, R262, R263, R265). -/
def copyDefect (w : Nat) : Bool :=
  let op := bitsAt w 0 8
  let next := if op = 1 then 2 else 0
  bitsAt w 8 4 != 1 || op == 0 || decide (3 < op) || bitsAt w 14 2 != next || decide (63 < bitsAt w 16 8) || bitsAt w 25 7 != 0
    || (match crecBit w with | some b => bitsAt w b 48 % 32 != 0 | none => true)
    || (match op with
        | 1 =>
          bitsAt w 51 13 != 0 || bitsAt w 32 3 == 7 || decide (6 < bitsAt w 35 4) || !xfOk (cpXf w) (cpXparm w)
            || (bitsAt w 35 4 != 0 && cpXf w != 0 && cpXf w != 3)
            || ((cpCounts w).drop (cpDims w)).any (· != 1)
            || ((cpSrcStrides w).drop (cpDims w)).any (· != 0) || ((cpDstStrides w).drop (cpDims w)).any (· != 0)
            || (cpXf w == 3 && 2 ^ Nat.log2 ((cpCounts w).headD 1) != (cpCounts w).headD 1)
        | 2 => bitsAt w 224 32 != 0
        | _ => bitsAt w 112 144 != 0)

/-- A unit of a copy: where it is read, none for a pattern, and where it is written. -/
structure CpUnit where
  src : Option Word
  srcLen : Nat
  dst : Word
  dstLen : Nat
deriving DecidableEq, Repr

/-- The odometer's indexes of unit n, dimension 0 innermost (R211, R263). -/
def odometer : List Nat → Nat → List Nat
  | [], _ => []
  | c :: r, n => n % c :: odometer r (n / c)

/-- An address reached by indexes and strides. -/
def strided (base : Word) (idx : List Nat) (strides : List Int) : Word :=
  base + BitVec.ofInt 64 (((idx.zip strides).map fun p => (p.1 : Int) * p.2).foldl (· + ·) 0)

/-- i with its low m bits reversed. -/
def bitRev : Nat → Nat → Nat
  | 0, _ => 0
  | m + 1, i => i % 2 * 2 ^ m + bitRev m (i / 2)

/-- Bytes of a source and a destination unit (R263). -/
def cpSizes (w : Nat) : Nat × Nat :=
  match cpXf w with
  | 1 => ((xfUnit 1 (cpXparm w)).getD 1, 48)
  | 2 => (1, 2)
  | 4 => (2, 2)
  | 5 => (4, 4)
  | _ => (2 ^ bitsAt w 35 4, 2 ^ bitsAt w 35 4)

/-- Unit n of a COPYND (R263). -/
def copyUnit (w n : Nat) : CpUnit :=
  let cs := (cpCounts w).take (cpDims w)
  let i := odometer cs n
  let j := match cpXf w, i with | 3, a :: r => bitRev (Nat.log2 (cs.headD 1)) a :: r | _, _ => i
  ⟨some (strided (sextWord 48 (bitsAt w 64 48)) i (cpSrcStrides w)), (cpSizes w).1,
    strided (sextWord 48 (bitsAt w 112 48)) j (cpDstStrides w), (cpSizes w).2⟩

/-- The units of a command in the order they are visited; FILL is one unit. -/
def copyUnits (w : Nat) : List CpUnit :=
  if bitsAt w 0 8 = 2 then [⟨none, 0, sextWord 48 (bitsAt w 64 48), bitsAt w 32 32⟩]
  else (List.range (((cpCounts w).take (cpDims w)).foldl (· * ·) 1)).map (copyUnit w)

/-- The bytes a command writes. -/
def copyTotal (w : Nat) : Nat := ((copyUnits w).map (·.dstLen)).foldl (· + ·) 0

/-! ### Sectors in write order (R264, R393) -/

/-- A part of a unit's destination that lies in one 64-byte sector. -/
structure CpPiece where
  unit : Nat
  off : Nat
  len : Nat
  addr : Word
deriving DecidableEq, Repr

/-- Cuts n bytes of a unit's destination at sector boundaries; the fuel bounds the pieces. -/
def cutPieces (u : Nat) : (fuel : Nat) → (off n : Nat) → Word → List CpPiece
  | 0, _, _, _ => []
  | f + 1, off, n, a =>
    let k := min n (64 - a.toNat % 64)
    if n = 0 then [] else ⟨u, off, k, a⟩ :: cutPieces u f (off + k) (n - k) (a + BitVec.ofNat 64 k)

/-- Joins neighbouring pieces of one sector. -/
def groupPieces : List CpPiece → List (List CpPiece)
  | [] => []
  | p :: r =>
    match groupPieces r with
    | (q :: qs) :: gs => if p.addr.toNat / 64 = q.addr.toNat / 64 then (p :: q :: qs) :: gs else [p] :: (q :: qs) :: gs
    | gs => [p] :: gs

/-- The sectors of a command in write order, by position. DEDUCED, log 59. -/
def copySectors (us : List CpUnit) : List (Nat × List CpPiece) :=
  let ps := ((List.range us.length).zip us).flatMap fun u => cutPieces u.1 (u.2.dstLen / 64 + 2) 0 u.2.dstLen u.2.dst
  let gs := groupPieces ps
  (List.range gs.length).zip gs

/-! ### Running a copy (R264, R361, R362) -/

/-- A unit's source as read and converted, its poison, and the faults of its pages. -/
structure CpData where
  unit : Nat
  data : List Byte
  bad : Bool
  faults : List EngFault
deriving DecidableEq, Repr

/-- How far a copy has come. -/
structure CpRun where
  cache : Option CpData
  seen : List Word
  ranges : List (Nat × Nat)
  bytes : Nat
  gone : Option EngFault
  full : Bool
deriving DecidableEq, Repr

/-- A run that has not begun. -/
def CpRun.start : CpRun := ⟨none, [], [], 0, none, false⟩

/-- The context of a command's poster. -/
def Cmd.eng (c : Cmd) : Eng := engOf c.cl c.satp c.mode

/-- HANDLE (R264). -/
def Cmd.handle (c : Cmd) : Nat := c.cl + 16 * c.ce + 32 * c.queue + 512 * c.slot

/-- A command's fault record (R339). -/
def State.cmdRecord (s : State) (c : Cmd) (cause : Nat) (va : Word) (write hostfile : Bool) : State :=
  s.faultRecord c.cl ⟨c.seq, cause, if c.ctx = 3 then 2 else 1, c.ctx, write, hostfile, if c.ctx = 3 then 0 else c.handle, va,
    c.satp, s.rcbOf c.job, c.addr, c.hart⟩

/-- Whether a failure ends the command with FAULT: the host or the twin is gone (R299, R388). DEDUCED, log 60. -/
def State.portGone (s : State) (e : Eng) (f : EngFault) : Bool :=
  f.cause == 50 ||
    (!s.ports.twinUp && match engineXlat s e.cl e.ctx (if f.write then .store else .load) f.va with
      | .ok (x, _) => (match regionOf x.pa with | .twin _ => true | _ => false)
      | .error _ => false)

/-- Reads the pages of a source in order; a failing page gives its fault and no bytes. -/
def readSource (e : Eng) : List (Word × Nat) → EngM (List Byte × Bool × List EngFault)
  | [] => return ([], false, [])
  | p :: r => do
    let a ← engTry (engReadParts e false [p])
    let b ← readSource e r
    match a with
    | .ok d => return (d.1 ++ b.1, d.2 || b.2.1, b.2.2)
    | .error f => return (b.1, b.2.1, f :: b.2.2)

/-- The data of a unit that is converted as a whole, from the cache where it has just been read. DEDUCED, log 59. -/
def unitData (c : Cmd) (a : Word) (n u : Nat) (cache : Option CpData) : EngM CpData := do
  match cache with
  | some d => if d.unit = u then return d else read
  | none => read
where
  read : EngM CpData := do
    let d ← readSource c.eng (engCut a n)
    return ⟨u, if d.2.2.isEmpty then xfConvert (cpXf c.words) (cpXparm c.words) d.1 else [], d.2.1, d.2.2⟩

/-- Whether a unit's bytes are moved one by one, so that each destination byte has one source byte (R263). -/
def movesBytes (w : Nat) : Bool := cpXf w == 0 || cpXf w == 3

/-- Whether a copy reads what it carries: one with a transform does, any other moves it unread (R362). -/
def transforms (w : Nat) : Bool := cpXf w != 0 && bitsAt w 0 8 == 1

/-- What a piece takes: its own bytes of a unit that is moved, those of the unit's conversion, or FILL's pattern; with the unit
whose conversion it has read, and the faults of the pages that its source bytes lie in (R264). -/
def pieceData (c : Cmd) (us : List CpUnit) (p : CpPiece) (cache : Option CpData) : EngM (CpData × Option CpData) := do
  match us[p.unit]? with
  | some ⟨some a, n, _, _⟩ =>
    if movesBytes c.words then do
      let d ← readSource c.eng (engCut (a + BitVec.ofNat 64 p.off) p.len)
      return (⟨p.unit, d.1, d.2.1, d.2.2⟩, none)
    else do
      let d ← unitData c a n p.unit cache
      return ({ d with data := (d.data.drop p.off).take p.len }, some d)
  | _ =>
    let fill := (List.range p.len).map fun i => BitVec.ofNat 8 (bitsAt c.words (160 + 8 * ((p.off + i) % 8)) 8)
    return (⟨p.unit, fill, false, []⟩, none)

/-- The data of a sector's pieces, and the unit converted last. -/
def sectorData (c : Cmd) (us : List CpUnit) :
    List CpPiece → Option CpData → EngM (List (CpPiece × CpData) × Option CpData)
  | [], cache => return ([], cache)
  | p :: r, cache => do
    let d ← pieceData c us p cache
    let rest ← sectorData c us r d.2
    return ((p, d.1) :: rest.1, rest.2)

/-- Whether the engine's buffers lost a byte of a piece (R359). -/
def Cmd.lostIn (c : Cmd) (p : CpPiece) : Bool :=
  let o := p.unit * (cpSizes c.words).2 + p.off
  c.lost.any fun b => decide (o ≤ b) && decide (b < o + p.len)

/-- Whether a piece brings poison to its sector. -/
def Cmd.spoils (c : Cmd) (p : CpPiece × CpData) : Bool := p.2.bad || c.lostIn p.1

/-- Writes the pieces of a sector. -/
def writePieces (c : Cmd) : List (CpPiece × CpData) → EngM Unit
  | [] => pure ()
  | p :: r => do
    engWrite c.eng p.1.addr p.2.data (c.spoils p)
    writePieces c r

/-- Whether pieces of one sector cover all its bytes. -/
def coversSector (ps : List CpPiece) : Bool :=
  (List.range 64).all fun i => ps.any fun p => decide (p.addr.toNat % 64 ≤ i) && decide (i < p.addr.toNat % 64 + p.len)

/-- Writes a sector at its physical address: clean pieces that together cover it clear its poison (R361). -/
def writeSector (c : Cmd) (pa : Nat) (ps : List (CpPiece × CpData)) : EngM Unit := do
  writePieces c ps
  if coversSector (ps.map Prod.fst) && !ps.any c.spoils then
    modify fun s => { s with poison := s.poison.filter (· != sectorOf pa) }

/-- A fault record for each page not recorded before (R264, R393). -/
def pageRecords (c : Cmd) : List EngFault → List Word → EngM (List Word)
  | [], seen => return seen
  | f :: r, seen => do
    if seen.contains (pageOf f.va) then pageRecords c r seen
    else do
      modify fun s => s.cmdRecord c f.cause (pageOf f.va) f.write f.hostfile
      pageRecords c r (seen ++ [pageOf f.va])

/-- A skipped sector joins the miss list; where a 17th range would be needed, the 16th goes to the command's last sector and
the command stops (R264). -/
def CpRun.miss (r : CpRun) (pos last : Nat) : CpRun :=
  match r.ranges.getLast? with
  | some (a, b) =>
    if b + 1 = pos then { r with ranges := r.ranges.dropLast ++ [(a, pos)] }
    else if 16 ≤ r.ranges.length then { r with ranges := r.ranges.dropLast ++ [(a, last)], full := true }
    else { r with ranges := r.ranges ++ [(pos, pos)] }
  | none => { r with ranges := [(pos, pos)] }

/-- One sector: its sources are read, then its destination is tried; with no fault it is written (R264). A page that fails before the
port's loss is met has its record all the same (R299, R393). What is converted has been read, written or not (R362). -/
def copySector (c : Cmd) (us : List CpUnit) (last : Nat) (k : Nat × List CpPiece) (r : CpRun) : EngM CpRun := do
  let ds ← sectorData c us k.2 r.cache
  let dst ← engTry (engCheck c.eng true ((k.2.map (·.addr)).headD 0))
  let fs := ds.1.flatMap (fun p => p.2.faults) ++ (match dst with | .error f => [f] | .ok _ => [])
  accEats (transforms c.words && ds.1.any fun p => p.2.bad)
  let r := { r with cache := ds.2 }
  let s ← get
  match fs.find? (s.portGone c.eng), dst with
  | some f, _ => do
    let seen ← pageRecords c (fs.takeWhile fun f => !s.portGone c.eng f) r.seen
    return { r with seen := seen, gone := some f }
  | none, dst =>
    if fs.isEmpty then do
      match dst with
      | .ok x => writeSector c x.pa ds.1
      | .error _ => pure ()
      return { r with bytes := r.bytes + (k.2.map (·.len)).foldl (· + ·) 0 }
    else do
      let seen ← pageRecords c fs r.seen
      return ({ r with seen := seen }).miss k.1 last

/-- Sectors in order, until the command stops. -/
def copyRun (c : Cmd) (us : List CpUnit) (last : Nat) : List (Nat × List CpPiece) → CpRun → EngM CpRun
  | [], r => return r
  | k :: ks, r => do
    let t ← copySector c us last k r
    if t.gone.isSome || t.full then return t else copyRun c us last ks t

/-! ### Completion records (R265) -/

/-- Writes a completion record; false when its write fails, which leaves a fault record (R265). DEDUCED, log 62. -/
def writeRecord (c : Cmd) (status bytes aux : Nat) : EngM Bool := do
  match crecOf c.words with
  | none => return true
  | some a =>
    match ← engTry (engWrite c.eng a (recordBytes c.seq c.words status bytes aux) false) with
    | .ok _ => return true
    | .error f => do
      modify fun s => s.cmdRecord c f.cause (pageOf f.va) true f.hostfile
      return false

/-- Whether fault records of a command are held back by a full or closed queue (R382): a record names its command by SEQ, CTX and HART
(R339). -/
def State.recordsHeld (s : State) (c : Cmd) : Bool :=
  (tabGet [] s.held c.cl).any fun b => b.take 8 == bytesOf 8 c.seq && b.getD 10 0 == BitVec.ofNat 8 c.ctx && (b.drop 48).take 2 == bytesOf 2 c.hart

/-- The PARTIAL record of a copy with a miss list; where its write fails, the command completes with FAULT (R264, R265). -/
def partialRecord (c : Cmd) : EngM Cmd := do
  let ok ← writeRecord c 1 c.bytes c.handle
  let c := { c with poisoned := c.poisoned || (← accAte) }
  if ok then return { c with owes := false }
  else return { c with state := .finished, status := 4, misses := [], bad := true, owes := false }

/-- What a run leaves of its command: it finishes with OK, POISON or FAULT, or is PARTIAL, its record behind its fault records (R264,
R265, R266, R393; DEDUCED, log 138). -/
def copySettle (c : Cmd) (r : CpRun) : EngM Cmd := do
  let c := { c with bytes := c.bytes + r.bytes, poisoned := c.poisoned || (← accAte), owes := false }
  match r.gone with
  | some f => do
    modify fun s => s.cmdRecord c f.cause (pageOf f.va) f.write f.hostfile
    return { c with state := .finished, status := 4, misses := [] }
  | none =>
    if r.ranges.isEmpty then
      return { c with state := .finished, status := if c.poisoned then 5 else 0, bytes := copyTotal c.words, misses := [] }
    else do
      let c := { c with state := .partly, misses := r.ranges }
      if (← get).recordsHeld c then return { c with owes := true } else partialRecord c

/-- Whether a sector position is in a miss list. -/
def missed (ms : List (Nat × Nat)) (pos : Nat) : Bool := ms.any fun m => decide (m.1 ≤ pos) && decide (pos ≤ m.2)

/-- Runs a COPYND or FILL, over all its sectors or over those of its miss list. DESIGN CHOICE, log 57. -/
def copyExec (c : Cmd) (again : Bool) : EngM Cmd := do
  let us := copyUnits c.words
  let secs := copySectors us
  let todo := if again then secs.filter fun k => missed c.misses k.1 else secs
  let r ← copyRun c us (secs.length - 1) todo .start
  copySettle c r

/-! ### Starting commands (R178, R264) -/

/-- Whether two commands are the same one. -/
def Cmd.same (a b : Cmd) : Bool := a.hart == b.hart && a.ctx == b.ctx && a.seq == b.seq
/-- Replaces a command. -/
def State.putCmd (s : State) (c : Cmd) : State := { s with cmds := s.cmds.map fun d => if d.same c then c else d }

/-- The command that a copy engine's queue starts next: the oldest unstarted one that no PARTIAL command of its own context
holds (R178, R264), once every earlier command of its context has published, since its reads come after all their writes, the
completion records too (R119). A defective one is not executed (R165). -/
def State.nextCopy (s : State) (cl ce q : Nat) : Option Cmd :=
  let mine := s.cmds.filter fun (c : Cmd) => c.cl == cl && c.ctx == ce + 1 && c.queue == q
  let behind (c : Cmd) (p : Cmd → Bool) : Bool := mine.any fun (d : Cmd) => d.hart == c.hart && decide (d.seq < c.seq) && p d
  match mine.find? fun (c : Cmd) => c.state == .queued && !copyDefect c.words && !behind c (·.state == .partly) with
  | some c => if behind c fun _ => true then none else some c
  | none => none

/-- Runs the next command of a queue when it is a COPYND or FILL of this OPC; otherwise the step does not occur. -/
def State.startCopy (op cl ce q : Nat) (s : State) : State :=
  match s.nextCopy cl ce q with
  | none => s
  | some c =>
    if bitsAt c.words 0 8 ≠ op then s
    else
      match runAcc (copyExec c false) s with
      | (.ok d, t, _) => t.putCmd d
      | (.error _, _) => s

/-- The PARTIAL command that a HANDLE names (R264). -/
def State.partialOf (s : State) (handle : Nat) : Option Cmd :=
  s.cmds.find? fun (c : Cmd) => c.state == .partly && c.handle == handle

/-- Whether a hart is a stream core of ROLE 1 (R55, R264). -/
def State.isServer (s : State) (n : Nat) : Bool := !isVcNum n && (s.getHart n).srvrole == 1

/-- A REPLAY that is a defect: it completes with BADCMD, and its record says CAUSE 2 (R264, R363). -/
def State.badReplay (s : State) (c : Cmd) : State := (s.cmdRecord c 2 0 false false).putCmd { c with state := .finished, status := 3 }

/-- A PARTIAL command as the REPLAY c runs it again: what its engine's buffers have lost is lost to it (R359). -/
def Cmd.again (o c : Cmd) : Cmd := { o with lost := c.lost.foldl (fun l b => addSorted b l) o.lost }

/-- Runs the next command of a queue when it is a REPLAY (R264); a poisoned miss list is a defect, with a record of CAUSE 2 (R363).
DEDUCED, log 61. -/
def State.startReplay (cl ce q : Nat) (s : State) : State :=
  match s.nextCopy cl ce q with
  | none => s
  | some c =>
    if bitsAt c.words 0 8 ≠ 3 then s
    else
      match s.partialOf (bitsAt c.words 32 32), s.isServer c.hart with
      | some o, true =>
        if o.missBad then s.badReplay c
        else
          (match runAcc (copyExec (o.again c) true) s with
          | (.ok d, t, _) => (t.putCmd d).putCmd { c with state := .finished, status := 0, bytes := d.bytes - o.bytes }
          | (.error _, _) => s)
      | _, _ => s.badReplay c

/-- COPYND (R263, R264). -/
def execCopynd (cl ce queue : Nat) (s : State) : Host.Outcome State Fault Refusal := engineStep (State.startCopy 1 cl ce queue) s
/-- FILL (R264). -/
def execFill (cl ce queue : Nat) (s : State) : Host.Outcome State Fault Refusal := engineStep (State.startCopy 2 cl ce queue) s
/-- REPLAY (R264). -/
def execReplay (cl ce queue : Nat) (s : State) : Host.Outcome State Fault Refusal := engineStep (State.startReplay cl ce queue) s

end Sys2Proof.Machine
end

