-- ==== Sys2Proof/Machine/Codec.lean ====
section
/-! DEFINITION. Codec commands, and the publication of copy and codec commands (R119, R266 to R271, R380). -/

namespace Sys2Proof.Machine

/-! ### Fields (R267) -/

/-- IN. -/
def ckIn (w : Nat) : Word := sextWord 48 (bitsAt w 32 48)
/-- OUT. -/
def ckOut (w : Nat) : Word := sextWord 48 (bitsAt w 80 48)
/-- HARQ. -/
def ckHarq (w : Nat) : Word := sextWord 48 (bitsAt w 176 48)
/-- HC. -/
def ckHc (w : Nat) : Bool := bitAt w 24
/-- OPC. -/
def ckOp (w : Nat) : Nat := bitsAt w 0 8
/-- A field of word 1. -/
def ckF (w lo n : Nat) : Nat := bitsAt w (256 + lo) n
/-- Whether a command is of an LDPC kind. -/
def ckLdpc (w : Nat) : Bool := ckOp w == 1 || ckOp w == 2 || ((ckOp w == 5 || ckOp w == 6) && ckF w 10 1 == 0)
/-- The LDPC code of a command. -/
def ckCode (w : Nat) : LdpcCode := ⟨ckF w 9 1 == 1, ckF w 0 9⟩
/-- KP. -/
def ckKp (w : Nat) : Nat := ckF w 88 16
/-- E. -/
def ckE (w : Nat) : Nat := ckF w 24 24
/-- POLN. -/
def ckPoln (w : Nat) : Nat := ckF w 104 4
/-- PMODE. -/
def ckMode (w : Nat) : Nat := ckF w 112 2
/-- NCB, N where it is 0. -/
def ckNcb (w : Nat) : Nat := if ckF w 48 24 = 0 then (ckCode w).n else ckF w 48 24
/-- Bits or LLRs of the code word. -/
def ckN (w : Nat) : Nat := if ckLdpc w then (ckCode w).n else 2 ^ ckPoln w

/-- The bits of both words that a codec command may set (R267). -/
def ckBits (w : Nat) : Nat :=
  let op := ckOp w
  let hc := op == 1 || op == 6
  let w0 := maskOf 15 0 ||| maskOf 175 32 ||| (if hc then maskOf 24 24 else 0) ||| (if hc && ckHc w then maskOf 223 176 else 0)
  let rate := op == 5 || op == 6
  let w1 := maskOf 103 88
    ||| (if ckLdpc w then maskOf 9 0 ||| maskOf 87 72 else maskOf 107 104 ||| maskOf 113 112)
    ||| (if op == 1 then maskOf 15 11 ||| maskOf 23 22 else 0)
    ||| (if op == 3 then maskOf 111 108 else 0)
    ||| (if rate then maskOf 10 10 ||| maskOf 21 18 ||| maskOf 47 24 else 0)
    ||| (if rate && ckLdpc w then maskOf 17 16 ||| maskOf 71 48 else 0)
  w0 ||| w1 * 2 ^ 256

/-- Whether a codec command is defective (R165, R265, R267). -/
def codecDefect (w : Nat) : Bool :=
  let op := ckOp w
  let rate := op == 5 || op == 6
  let c := ckCode w
  bitsAt w 8 4 != 2 || op == 0 || decide (6 < op) || bitsAt w 14 2 != 1 || w &&& ckBits w != w || bitsAt w 128 48 % 32 != 0
    || (if ckLdpc w then
          !liftSizes.contains c.z || ckKp w + ckF w 72 16 != c.kb * c.z || (rate && decide (c.n < ckF w 48 24))
        else decide (ckPoln w < 5) || decide (10 < ckPoln w) || decide (1 < ckMode w))
    || (op == 1 && ckF w 11 5 == 0)
    || (rate && (!([1, 2, 4, 6, 8, 10].contains (ckF w 18 4)) || ckE w == 0))

/-! ### Effects (R268, R269) -/

/-- The bytes of a command's input. -/
def ckInLen (w : Nat) : Nat :=
  match ckOp w with
  | 2 | 4 => ceilDiv (ckKp w) 8
  | 5 => ceilDiv (ckN w) 8
  | 6 => ckE w
  | _ => ckN w

/-- The position of the code word that entry k of e takes; `none` where every position is filler. -/
def ckSel (w : Nat) : Nat → Option Nat :=
  if ckLdpc w then
    let t := (ckCode w).turn (ckF w 16 2) (ckNcb w) (ckKp w) (ckF w 72 16)
    fun k => if t.isEmpty then none else t[k % t.length]?
  else fun k => some (polarSub (ckN w) (polarSel (ckN w) (ckKp w) (ckE w) k))

/-- The entry of e that position f of the interleaved output takes. -/
def ckFrom (w f : Nat) : Option Nat :=
  if ckLdpc w then ldpcFrom (ckE w) (ckF w 18 4) f else some (polarFrom (ckMode w) (ckE w) f)

/-- Rate matching (R268); a bit that TS 38.212 gives no source is open (DESIGN CHOICE, log 46). -/
def rateMatch (w seed : Nat) (d : List Byte) : List Bool :=
  let sel := ckSel w
  (List.range (ckE w)).map fun f =>
    match (ckFrom w f).bind sel with
    | some p => bufBit d p
    | none => bitAt (Config.freeByte seed f).toNat 0

/-- The inverse of rate matching (R268): LLRs of one position add with saturation in ascending e. -/
def rateDematch (w : Nat) (llrs : List Byte) : List Int :=
  let sel := ckSel w
  let e := (List.range (ckE w)).foldl (fun l f =>
    match ckFrom w f with | some k => l.set k (llrAt llrs f) | none => l) (List.replicate (ckE w) (0 : Int))
  let z := (List.range (ckN w)).map fun p =>
    let c := ckCode w
    let full := ckLdpc w && decide (ckKp w ≤ p + 2 * c.z) && decide (p + 2 * c.z < ckKp w + ckF w 72 16)
    if full then (127 : Int) else 0
  (List.range (ckE w)).foldl (fun l k =>
    match sel k with | some p => l.set p (satTo 127 (l.getD p 0 + e.getD k 0)) | none => l) z

/-- The combination of a HARQ buffer with new LLRs (R270). -/
def harqSum (h l : List Int) : List Int := (h.zip l).map fun p => satTo 127 (p.1 + p.2)

/-- What a codec command produces: OUT, AUX, and the staged HARQ buffer. -/
structure CkOut where
  out : List Byte
  aux : Nat
  staging : List Byte
deriving DecidableEq, Repr

/-- The LLRs of a buffer. -/
def llrsOf (bs : List Byte) : List Int := (List.range bs.length).map (llrAt bs)

/-- A codec command's effect on its input and, with HC, its HARQ buffer (R268 to R270). -/
def codecRun (w seed : Nat) (inp harq : List Byte) : CkOut :=
  let bits := (List.range (ckKp w)).map (bufBit inp)
  let comb (l : List Int) : List Int := if ckHc w then harqSum (llrsOf harq) l else l
  match ckOp w with
  | 1 =>
    let l := comb (llrsOf inp)
    let r := (ckCode w).decode l (ckF w 11 5) (ckKp w)
    ⟨packBits r.1, r.2.1 + 2 ^ 8 * b2n r.2.2 + 2 ^ 9 * b2n (ldpcCrcOk (ckF w 22 2) r.1), if ckHc w then l.map llrByte else []⟩
  | 2 => ⟨packBits ((ckCode w).encode bits), 0, []⟩
  | 3 =>
    let r := polarDecode (ckMode w) (ckPoln w) (ckKp w) (2 ^ ckF w 110 2) (ckF w 108 2) (llrsOf inp)
    ⟨packBits r.1, r.2.1 % 256 + 2 ^ 9 * b2n r.2.2, []⟩
  | 4 => ⟨packBits (polarEncode (ckMode w) (ckPoln w) (ckKp w) bits), 0, []⟩
  | 5 => ⟨packBits (rateMatch w seed inp), 0, []⟩
  | _ =>
    let l := (comb (rateDematch w inp)).map llrByte
    ⟨l, 0, if ckHc w then l else []⟩

/-- Runs a codec command: its inputs are read, OUT is written (R268, R359, R361, R380). DEDUCED, log 44. -/
def codecExec (c : Cmd) : EngM Cmd := do
  let w := c.words
  let inp ← engRead c.eng (ckIn w) (ckInLen w)
  let harq ← if ckHc w then engRead c.eng (ckHarq w) (ckN w) else pure ([], false)
  let s ← get
  set { s with free := s.free + 1 }
  let r := codecRun w s.free inp.1 harq.1
  let bad := inp.2 || harq.2 || !c.lost.isEmpty
  accEats bad
  match ← engTry (engWrite c.eng (ckOut w) r.out bad) with
  | .ok _ => do
    let ate ← accAte
    return { c with state := .started, status := if ate then 5 else 0, bytes := r.out.length, aux := BitVec.ofNat 64 r.aux
                    staging := r.staging, stagingBad := bad, poisoned := ate }
  | .error f => do
    modify fun s => s.cmdRecord c f.cause (pageOf f.va) f.write f.hostfile
    return { c with state := .started, status := 4, bytes := (f.va - ckOut w).toNat, poisoned := (← accAte) }

/-! ### Starting (R271) -/

/-- The kind of engine a codec command needs: 0 decoder, 1 encoder, 2 polar engine. -/
def ckKind (w : Nat) : Nat :=
  match ckOp w with
  | 1 => 0
  | 2 => 1
  | 3 | 4 => 2
  | _ => if ckF w 10 1 = 0 then 1 else 2

/-- The oldest unpublished command of a hart's context. -/
def State.firstOfContext (s : State) (n ctx : Nat) : Option Cmd := s.cmds.find? fun (c : Cmd) => c.hart == n && c.ctx == ctx

/-- The key by which the codec complex orders commands (R271). -/
def State.codecKey (s : State) (c : Cmd) : List Nat :=
  match c.job.bind s.job? with
  | some j => [j.runClass, j.orderDeadline, c.order]
  | none => [3, max64, c.order]

/-- The engines of a kind: 8 decoders, 4 encoders, 4 polar engines (R25). -/
def ckEngines (kind : Nat) : Nat := if kind = 0 then 8 else 4

/-- Whether an engine of the kind is free: a started command holds its engine until it publishes (R271). -/
def State.codecFree (s : State) (kind : Nat) : Bool :=
  decide ((s.cmds.filter fun (d : Cmd) => d.ctx == 3 && d.state == .started && ckKind d.words == kind).length < ckEngines kind)

/-- Whether a command may start: an engine of its kind is free, and it is unstarted, sound, the oldest of its context, and first
among those that wait for such an engine. -/
def State.codecFirst (s : State) (c : Cmd) : Bool :=
  let ready (d : Cmd) : Bool :=
    d.ctx == 3 && d.state == .queued && !codecDefect d.words
      && (match s.firstOfContext d.hart 3 with | some e => e.same d | none => false)
  ready c && s.codecFree (ckKind c.words) && s.cmds.all fun (d : Cmd) => !(ready d && ckKind d.words == ckKind c.words && keyLt (s.codecKey d) (s.codecKey c))

/-- Runs the first codec command of a hart's context when it is of this OPC; otherwise the step does not occur. -/
def State.startCodec (op n : Nat) (s : State) : State :=
  match s.firstOfContext n 3 with
  | none => s
  | some c =>
    if ckOp c.words ≠ op || !s.codecFirst c then s
    else
      match runAcc (codecExec c) s with
      | (.ok d, t, _) => t.putCmd d
      | (.error (.fault f), t, ate) =>
        (t.cmdRecord c f.cause (pageOf f.va) f.write f.hostfile).putCmd
          { c with state := .started, status := 4, poisoned := c.poisoned || ate }
      | (.error .stall, _) => s

/-- LDPCDEC (R269). -/
def execLdpcdec (hart : Nat) (s : State) : Host.Outcome State Fault Refusal := engineStep (State.startCodec 1 hart) s
/-- LDPCENC (R268). -/
def execLdpcenc (hart : Nat) (s : State) : Host.Outcome State Fault Refusal := engineStep (State.startCodec 2 hart) s
/-- POLDEC (R269). -/
def execPoldec (hart : Nat) (s : State) : Host.Outcome State Fault Refusal := engineStep (State.startCodec 3 hart) s
/-- POLENC (R268). -/
def execPolenc (hart : Nat) (s : State) : Host.Outcome State Fault Refusal := engineStep (State.startCodec 4 hart) s
/-- RMATCH (R268). -/
def execRmatch (hart : Nat) (s : State) : Host.Outcome State Fault Refusal := engineStep (State.startCodec 5 hart) s
/-- DEMATCH (R268). -/
def execDematch (hart : Nat) (s : State) : Host.Outcome State Fault Refusal := engineStep (State.startCodec 6 hart) s

/-! ### Publication (R265, R266, R270) -/

/-- Whether a job has been abandoned. -/
def State.abandoned (s : State) (job : Option Nat) : Bool :=
  match job.bind s.job? with
  | some j => j.abandonAt.isSome
  | none => false

/-- The commit test of a HARQ write-back (R270): before the cliff, deferred, or outside a job. -/
def State.harqCommits (s : State) (job : Option Nat) : Bool :=
  match job.bind s.job? with
  | some j => j.abandonAt.isNone && (match j.cliff with | some c => decide (s.dquNow < c) | none => true)
  | none => true

/-- Writes the staged HARQ buffer back, and sets HCOMMIT in the AUX of LDPCDEC; DEMATCH has AUX 0 (R269, R270, R380). -/
def harqBack (c : Cmd) : EngM Cmd := do
  if c.staging.isEmpty || c.status = 4 || !(← get).harqCommits c.job then return c
  else
    match ← engTry (engWrite c.eng (ckHarq c.words) c.staging (c.stagingBad || !c.lost.isEmpty)) with
    | .ok _ => return { c with aux := if ckOp c.words = 1 then c.aux ||| 0x400 else c.aux }
    | .error f => do
      modify fun s => s.cmdRecord c f.cause (pageOf f.va) true f.hostfile
      return { c with status := 4 }

/-- A defective command of either kind. -/
def Cmd.defect (c : Cmd) : Bool := if c.ctx = 3 then codecDefect c.words else copyDefect c.words

/-- A command as it publishes: one of an abandoned codec job completes with ABANDONED, but one that has faulted with FAULT, as R380 and
R266 say, though R75 names ABANDONED for every started codec command (DESIGN CHOICE, log 145); its record is written (R265, R266, R75). Poison
that only the record's own write consumes comes too late for its status (DESIGN CHOICE, log 64). -/
def publishCmd (c : Cmd) : EngM Cmd := do
  let c ← harqBack c
  let c := if c.status == 0 && (← accAte) then { c with status := 5 } else c
  let c := if c.state == .started && c.status != 4 && (← get).abandoned c.job then { c with status := 2 } else c
  if c.bad then return c
  else
    let ok ← writeRecord c c.status c.bytes c.aux.toNat
    return if ok || c.status = 3 then c else { c with status := 4 }

/-- Whether the program that posted a command still runs on its hart (R183, R266). A hart that ran no task when it posted, and
runs none now, counts as the poster: the spec speaks of tasks alone (DESIGN CHOICE, log 113). -/
def Hart.posterOf (h : Hart) (c : Cmd) : Bool := (h.task.map (·.id)) == c.task

/-- Whether the publication of a command sets the bit of its tag: it is set by the first completion of those that share it (R183,
R266). -/
def Hart.setsTag (h : Hart) (c : Cmd) : Bool :=
  h.posterOf c && c.status == 0 && tagged c.words && c.ctx != 3 && !h.ctags.getLsbD (tagOf c.words)

/-- The bits of `chkint` that a command brings to its context: POISON of what it consumed, CORR of what was corrected for it (R197,
R360, R362). -/
def Cmd.chk (c : Cmd) : BitVec 4 := (if c.poisoned then 3 else 0) ||| (if c.corrected then 8 else 0)

/-- What the posting core learns: DONE advances, the tag of a good copy sets while the poster runs, and the poison that the
command consumed shows once the core acquires the command (R183, R188, R197, R266). -/
def Hart.published (h : Hart) (c : Cmd) : Hart :=
  let h' := { h with done := h.done.setIfInBounds c.ctx (h.done.getD c.ctx 0 + 1) }
  let h' := if h.posterOf c && c.chk != 0 then
      { h' with chkPend := h.chkPend ++ [⟨c.ctx, c.seq, tagOf c.words, h.setsTag c, c.chk⟩] } else h'
  if h.setsTag c then { h' with ctags := h.ctags ||| ((1 : Word) <<< tagOf c.words) } else h'

/-- The waits that a publication advances (R344). -/
def publishWakes (c : Cmd) (h : Hart) (on : WaitOn) : Bool :=
  match on with
  | .timeline k _ => h.num == c.hart && k == c.ctx
  | .tags _ _ => h.num == c.hart && h.setsTag c
  | .post k => if c.ctx = 3 then k == 3 else k == c.ctx && h.cluster == c.cl && h.ceQueue == c.queue
  | _ => false

/-- A command that has run publishes (R266). -/
def State.publishOne (s : State) (c : Cmd) : State :=
  match runAcc (publishCmd c) s with
  | (.error _, _) => s
  | (.ok c, s, ate) =>
    let c := { c with poisoned := c.poisoned || ate }
    let s := { s with cmds := s.cmds.filter fun (d : Cmd) => !d.same c }
    let s := s.restartWaits (publishWakes c)
    let s := s.modHart c.hart (·.published c)
    match c.job with
    | some j => s.countDown j 1
    | none => s

/-- The oldest unpublished command of a context goes on behind its fault records, while they are held back it does not (R119, R266,
R393): one that has run publishes, a defective one leaves its fault record and completes with BADCMD (R165), a PARTIAL one that owes
its record writes it. ABANDONED is published at once all the same (R264; DEDUCED, log 138). -/
def State.publish (s : State) (n ctx : Nat) : State :=
  match s.firstOfContext n ctx with
  | none => s
  | some c =>
    if s.recordsHeld c && c.status != 2 then s
    else
      match c.state with
      | .finished | .started => s.publishOne c
      | .queued =>
        if !c.defect then s
        else
          let d := { c with state := .finished, status := 3, bytes := 0 }
          let t := (s.cmdRecord c 2 0 false false).putCmd d
          if t.recordsHeld d then t else t.publishOne d
      | .partly =>
        if !c.owes then s
        else
          match runAcc (partialRecord c) s with
          | (.ok d, t, _) => t.putCmd d
          | (.error _, _) => s

/-- COMMAND_PUBLISH (R266). -/
def execCommandPublish (hart ctx : Nat) (s : State) : Host.Outcome State Fault Refusal := engineStep (fun s => s.publish hart ctx) s

/-- HELD_FAULT_RECORD_WRITE (R382). -/
def execHeldFaultRecordWrite (cl : Nat) (s : State) : Host.Outcome State Fault Refusal := engineStep (fun s => s.heldWrite cl) s

end Sys2Proof.Machine
end

