-- ==== Sys2Proof/Machine/Flags.lean ====
section
/-! DEFINITION. The accrued exception flags of the scalar floating-point unit (R129): NV, DZ, OF, UF and NX. -/

namespace Sys2Proof.Machine

/-- Invalid operation. -/
def flagNV : BitVec 5 := 16
/-- Division by zero. -/
def flagDZ : BitVec 5 := 8
/-- Inexact. -/
def flagNX : BitVec 5 := 1

/-- OF, UF and NX of a rounding: overflow is inexact, and underflow is tininess after rounding with an inexact result. -/
def RR.flags (r : RR) : BitVec 5 :=
  (if r.ovf then 4 else 0) ||| (if r.tiny && r.inexact then 2 else 0) ||| (if r.inexact || r.ovf then flagNX else 0)

/-- NV where an operand is a signalling NaN, or where an invalid combination made the NaN result. -/
def flagInvalid (snan made : Bool) : BitVec 5 := if snan || made then flagNV else 0

end Sys2Proof.Machine
end

