-- ==== Sys2Proof/Machine/FpScalar.lean ====
section
/-! DEFINITION. The scalar F and D instructions of a vector core's control hart (R129, R152). -/

namespace Sys2Proof.Machine

/-- The format of a precision. -/
def fpFmt : FpFmt → Fmt
  | .s => fp32
  | .d => fp64

/-- The bits of an operand: a single that is not NaN-boxed reads as the canonical NaN. -/
def unbox (f : FpFmt) (w : Word) : Nat :=
  match f with
  | .d => w.toNat
  | .s => if bitsAt w.toNat 32 32 = 0xFFFFFFFF then bitsAt w.toNat 0 32 else fp32.nanBits

/-- A result in a register: singles are NaN-boxed. -/
def boxed (f : FpFmt) (b : Nat) : Word :=
  match f with
  | .d => BitVec.ofNat 64 b
  | .s => BitVec.ofNat 64 (0xFFFFFFFF00000000 + b % 2 ^ 32)

/-- The rounding mode of an rm field; a dynamic one is frm's. None where frm holds no mode. -/
def rmOf (rm frm : BitVec 3) : Option Rm :=
  match (if rm = 7 then frm else rm).toNat with
  | 0 => some .rne
  | 1 => some .rtz
  | 2 => some .rdn
  | 3 => some .rup
  | 4 => some .rmm
  | _ => none

/-- A result with the flags it raises. -/
structure FpRes where
  bits : Nat
  flags : BitVec 5
deriving DecidableEq, Repr

/-- A correctly rounded operation: NV where an operand signals or the operation made a NaN. -/
def fpRound (f : Fmt) (snan : Bool) (ops : List FV) (made : Bool) (r : RR) (_mode : Rm) : FpRes :=
  if ops.any FV.isNan then ⟨f.nanBits, flagInvalid snan made⟩
  else if made then ⟨f.nanBits, flagNV⟩
  else ⟨r.bits, r.flags⟩

/-- a + b. -/
def fpAdd (f : Fmt) (mode : Rm) (a b : Nat) : FpRes :=
  let x := f.decode a
  let y := f.decode b
  let v := x.add (mode == .rdn) y
  fpRound f (f.isSnan a || f.isSnan b) [x, y] (v.isNan && !x.isNan && !y.isNan) (f.round mode 0 false v) mode

/-- The bits with the sign inverted. -/
def Fmt.flip (f : Fmt) (a : Nat) : Nat := if bitAt a (f.eb + f.mb) then a - f.signBit else a + f.signBit

/-- a × b. -/
def fpMul (f : Fmt) (mode : Rm) (a b : Nat) : FpRes :=
  let x := f.decode a
  let y := f.decode b
  let v := x.mul y
  fpRound f (f.isSnan a || f.isSnan b) [x, y] (v.isNan && !x.isNan && !y.isNan) (f.round mode 0 false v) mode

/-- a / b: a finite number over zero raises DZ. -/
def fpDiv (f : Fmt) (mode : Rm) (a b : Nat) : FpRes :=
  let x := f.decode a
  let y := f.decode b
  let r := f.div mode 0 false x y
  let finite := match x with | .fin _ m _ => m != 0 | _ => false
  let bad := (x.isZero && y.isZero) || (match x, y with | .inf _, .inf _ => true | _, _ => false)
  let res := fpRound f (f.isSnan a || f.isSnan b) [x, y] bad r mode
  if y.isZero && finite then ⟨res.bits, flagDZ⟩ else res

/-- The square root. -/
def fpSqrt (f : Fmt) (mode : Rm) (a : Nat) : FpRes :=
  let x := f.decode a
  fpRound f (f.isSnan a) [x] (!x.isNan && x.neg? && !x.isZero) (f.sqrt mode 0 false x) mode

/-- a × b + c, rounded once: infinity times zero is invalid whatever c is. -/
def fpFma (f : Fmt) (mode : Rm) (a b c : Nat) : FpRes :=
  let x := f.decode a
  let y := f.decode b
  let z := f.decode c
  let p := x.mul y
  let v := p.add (mode == .rdn) z
  let bad := (p.isNan && !x.isNan && !y.isNan) || (v.isNan && !p.isNan && !z.isNan)
  fpRound f (f.isSnan a || f.isSnan b || f.isSnan c) [x, y, z] bad (f.round mode 0 false v) mode

/-- Sign injection: 0 the sign of b, 1 its inverse, 2 the exclusive or. -/
def fpSgnj (f : Fmt) (k : BitVec 2) (a b : Nat) : Nat :=
  let sa := bitAt a (f.eb + f.mb)
  let sb := bitAt b (f.eb + f.mb)
  let s := match k.toNat with | 0 => sb | 1 => !sb | _ => sa != sb
  a % f.signBit + b2n s * f.signBit

/-- Minimum or maximum: a NaN loses to a number, and −0 is below +0. -/
def fpMinMax (f : Fmt) (mx : Bool) (a b : Nat) : FpRes :=
  let x := f.decode a
  let y := f.decode b
  let fl := flagInvalid (f.isSnan a || f.isSnan b) false
  if x.isNan && y.isNan then ⟨f.nanBits, fl⟩
  else if x.isNan then ⟨b, fl⟩
  else if y.isNan then ⟨a, fl⟩
  else
    let less := x.lt y || (x.isZero && y.isZero && x.neg? && !y.neg?)
    ⟨if less != mx then a else b, fl⟩

/-- Comparison: 0 fle, 1 flt, 2 feq; feq signals only on a signalling NaN. -/
def fpCmp (f : Fmt) (k : BitVec 2) (a b : Nat) : FpRes :=
  let x := f.decode a
  let y := f.decode b
  let nan := x.isNan || y.isNan
  let sn := f.isSnan a || f.isSnan b
  match k.toNat with
  | 2 => ⟨b2n (x.eq y), flagInvalid sn false⟩
  | 1 => ⟨b2n (x.lt y), flagInvalid nan false⟩
  | _ => ⟨b2n (x.lt y || x.eq y), flagInvalid nan false⟩

/-- The one-hot class of RISC-V. -/
def fpClass (f : Fmt) (a : Nat) : Nat :=
  let x := f.decode a
  match x with
  | .nan => if f.isSnan a then 2 ^ 8 else 2 ^ 9
  | .inf n => if n then 1 else 2 ^ 7
  | .fin n m _ =>
    if m = 0 then (if n then 2 ^ 3 else 2 ^ 4)
    else if f.isSub x then (if n then 2 ^ 2 else 2 ^ 5)
    else (if n then 2 ^ 1 else 2 ^ 6)

/-- The bounds of an integer type: 0 w, 1 wu, 2 l, 3 lu. -/
def intBounds (k : BitVec 2) : Int × Int :=
  match k.toNat with
  | 0 => (-2 ^ 31, 2 ^ 31 - 1)
  | 1 => (0, 2 ^ 32 - 1)
  | 2 => (-2 ^ 63, 2 ^ 63 - 1)
  | _ => (0, 2 ^ 64 - 1)

/-- An integer result in an x register: the 32-bit types sign-extend. -/
def intReg (k : BitVec 2) (i : Int) : Word :=
  if k.toNat ≤ 1 then sextWord 32 (unsignedOf 32 i) else BitVec.ofInt 64 i

/-- Conversion to an integer: out of range and NaN saturate and raise NV. -/
def fpToInt (f : Fmt) (k : BitVec 2) (mode : Rm) (a : Nat) : Word × BitVec 5 :=
  let b := intBounds k
  match f.decode a with
  | .nan => (intReg k b.2, flagNV)
  | .inf n => (intReg k (if n then b.1 else b.2), flagNV)
  | .fin n m e =>
    let r := roundInt mode 0 n m e
    if r.1 < b.1 then (intReg k b.1, flagNV)
    else if b.2 < r.1 then (intReg k b.2, flagNV)
    else (intReg k r.1, if r.2 then flagNX else 0)

/-- The integer an x register holds for a type. -/
def intOf (k : BitVec 2) (w : Word) : Int :=
  match k.toNat with
  | 0 => signedOf 32 w.toNat
  | 1 => ((w.toNat % 2 ^ 32 : Nat) : Int)
  | 2 => w.toInt
  | _ => (w.toNat : Int)

/-- Conversion between the precisions. -/
def fpConvert (src dst : Fmt) (mode : Rm) (a : Nat) : FpRes :=
  let x := src.decode a
  fpRound dst (src.isSnan a) [x] false (dst.round mode 0 false x) mode

/-- Reads an f register's bits for a precision, with its poison. -/
def readF (f : FpFmt) (r : Reg) : M (Nat × Bool) := do
  let h ← cpu
  consume (h.fPoisoned r)
  return (unbox f (h.f.getD r.toNat 0), h.fPoisoned r)

/-- Accrues flags: `fflags` takes the mark of what they were computed from (R361). -/
def accrue (fl : BitVec 5) (bad : Bool) : M Unit := modCpu fun h => { h.csrSpoil 0x001 bad with fflags := h.fflags ||| fl }

/-- Writes an f register. -/
def putF (f : FpFmt) (rd : Reg) (r : FpRes) (bad : Bool) : M Unit := do
  accrue r.flags bad
  modCpu fun h => h.setF rd (boxed f r.bits) bad

/-- Writes an x register with flags. -/
def putXf (rd : Reg) (v : Word) (fl : BitVec 5) (bad : Bool) : M Unit := do
  accrue fl bad
  putXp rd v bad

/-- Whether an instruction's rounding mode is dynamic and `frm`, alone or as part of `fcsr`, is poisoned (R359). -/
def Hart.frmBad (h : Hart) (rm : BitVec 3) : Bool := rm == 7 && h.csrBad 0x002

/-- The rounding mode in force and whether it is poisoned, which consumes (R361, R362); a reserved one is illegal. -/
def roundingOf (rm : BitVec 3) : M (Rm × Bool) := do
  let h ← cpu
  match rmOf rm h.frm with
  | some m => do
    consume (h.frmBad rm)
    return (m, h.frmBad rm)
  | none => illegal

/-- The body of a scalar floating-point instruction. -/
def fpBody (op : FpOp) : M Unit := do
  onVc
  consume ((← cpu).csrBad 0x300)
  need (bitsAt (← cpu).csr.mstatus.toNat 13 2 != 0)
  let two (f : FpFmt) (rd a b : Reg) (bad : Bool) (g : Nat → Nat → FpRes) : M Unit := do
    let x ← readF f a
    let y ← readF f b
    putF f rd (g x.1 y.1) (bad || x.2 || y.2)
  let three (f : FpFmt) (rd a b c : Reg) (m : Rm × Bool) (g : Rm → Nat → Nat → Nat → FpRes) : M Unit := do
    let x ← readF f a
    let y ← readF f b
    let z ← readF f c
    putF f rd (g m.1 x.1 y.1 z.1) (m.2 || x.2 || y.2 || z.2)
  match op with
  | .load f rd rs1 imm => do
    let va := (← useX rs1) + sextWord 12 imm.toNat
    let r ← scalarLoad va (match f with | .s => 4 | .d => 8)
    consume r.2
    modCpu fun h => h.setF rd (boxed f r.1) r.2
  | .store f rs2 rs1 imm => do
    let va := (← useX rs1) + sextWord 12 imm.toNat
    let h ← cpu
    scalarStore va (match f with | .s => 4 | .d => 8) (h.f.getD rs2.toNat 0).toNat (h.fPoisoned rs2)
    consume (h.fPoisoned rs2)
  | .add f rd a b rm => do
    let m ← roundingOf rm
    two f rd a b m.2 (fpAdd (fpFmt f) m.1)
  | .sub f rd a b rm => do
    let m ← roundingOf rm
    two f rd a b m.2 fun x y => fpAdd (fpFmt f) m.1 x ((fpFmt f).flip y)
  | .mul f rd a b rm => do
    let m ← roundingOf rm
    two f rd a b m.2 (fpMul (fpFmt f) m.1)
  | .div f rd a b rm => do
    let m ← roundingOf rm
    two f rd a b m.2 (fpDiv (fpFmt f) m.1)
  | .sqrt f rd a rm => do
    let m ← roundingOf rm
    let x ← readF f a
    putF f rd (fpSqrt (fpFmt f) m.1 x.1) (m.2 || x.2)
  | .madd f rd a b c rm => do
    let m ← roundingOf rm
    three f rd a b c m (fpFma (fpFmt f))
  | .msub f rd a b c rm => do
    let m ← roundingOf rm
    three f rd a b c m fun k x y z => fpFma (fpFmt f) k x y ((fpFmt f).flip z)
  | .nmsub f rd a b c rm => do
    let m ← roundingOf rm
    three f rd a b c m fun k x y z => fpFma (fpFmt f) k ((fpFmt f).flip x) y z
  | .nmadd f rd a b c rm => do
    let m ← roundingOf rm
    three f rd a b c m fun k x y z => fpFma (fpFmt f) k ((fpFmt f).flip x) y ((fpFmt f).flip z)
  | .sgnj f k rd a b => do
    let x ← readF f a
    let y ← readF f b
    modCpu fun h => h.setF rd (boxed f (fpSgnj (fpFmt f) k x.1 y.1)) (x.2 || y.2)
  | .minmax f mx rd a b => two f rd a b false (fpMinMax (fpFmt f) mx)
  | .cmp f k rd a b => do
    let x ← readF f a
    let y ← readF f b
    let r := fpCmp (fpFmt f) k x.1 y.1
    putXf rd (BitVec.ofNat 64 r.bits) r.flags (x.2 || y.2)
  | .classify f rd a => do
    let x ← readF f a
    putXp rd (BitVec.ofNat 64 (fpClass (fpFmt f) x.1)) x.2
  | .toInt f k rd a rm => do
    let m ← roundingOf rm
    let x ← readF f a
    let r := fpToInt (fpFmt f) k m.1 x.1
    putXf rd r.1 r.2 (m.2 || x.2)
  | .ofInt f k rd a rm => do
    let m ← roundingOf rm
    let h ← cpu
    consume (h.xPoisoned a)
    let r := (fpFmt f).round m.1 0 false (.ofInt (intOf k (h.xr a)))
    putF f rd ⟨r.bits, r.flags⟩ (m.2 || h.xPoisoned a)
  | .cvtSD rd a rm => do
    let m ← roundingOf rm
    let x ← readF .d a
    putF .s rd (fpConvert fp64 fp32 m.1 x.1) (m.2 || x.2)
  | .cvtDS rd a rm => do
    let m ← roundingOf rm
    let x ← readF .s a
    putF .d rd (fpConvert fp32 fp64 m.1 x.1) (m.2 || x.2)
  | .mvXF f rd a => do
    let h ← cpu
    consume (h.fPoisoned a)
    let w := h.f.getD a.toNat 0
    putXp rd (match f with | .s => sextWord 32 w.toNat | .d => w) (h.fPoisoned a)
  | .mvFX f rd a => do
    let h ← cpu
    consume (h.xPoisoned a)
    modCpu fun g => g.setF rd (boxed f (h.xr a).toNat) (h.xPoisoned a)

/-- FP_SCALAR_INSTRUCTION (R129, R152). -/
def execFpScalar (op : FpOp) (form : Form) (s : State) : Host.Outcome State Fault Refusal :=
  instr (.fpScalar op form) (fpBody op) s

end Sys2Proof.Machine
end

