-- ==== Sys2Proof/Machine/Fronthaul.lean ====
section
/-! DEFINITION. The fronthaul ports: received frames, transmission, and the sub-ports' links (R305 to R309, R364, R384 to
R386). -/

namespace Sys2Proof.Machine

/-- PCTL of port p. -/
def State.pctl (s : State) (p : Nat) : Nat := (s.mmioGet (fhBlock p) 0).toNat

/-- Whether port p is enabled and its split provides the sub-port (R305, R384). DEDUCED, log 84. -/
def State.hasSub (s : State) (p sub : Nat) : Bool :=
  let c := s.pctl p
  let subs := match bitsAt c 61 2 with | 1 => 2 | 2 => 4 | _ => 1
  decide (p < 8) && bitAt c 63 && decide (sub < subs)

/-- A counter of a port counts one: 0 UNMATCHED, 1 BADHDR, 2 BADCOMP, 3 FCSERR, 4 LANDDROP, 5 SLOTDROP, 6 TXERR, 7 TXLATE
(R307, R384). -/
def State.portCount (s : State) (p i : Nat) : State := s.bumpWrap (fhBlock p + 0x2000 + 8 * i) 1

/-- The port counter's time in ns (R310). -/
def State.portNow (s : State) (p : Nat) : Nat := s.ctrNs (24 + p)

/-- n bytes in network order at an offset of a frame. -/
def netAt (bs : List Byte) (o n : Nat) : Nat := ofBytes ((bs.drop o).take n).reverse

/-! ### Slot rings (R308) -/

/-- Bytes of a slot. -/
def slotBytes : Nat := 9216

/-- A frame for queue q of stream core n of cluster c lands in the port's slot ring, or is dropped and counted. Bytes 0x08 to 0x0F of
the slot keep what they held (DESIGN CHOICE, log 128). DEDUCED, log 83. -/
def State.landFrame (s : State) (p c n q : Nat) (frame : List Byte) (lost : Bool) : State :=
  let hart := scNum c n
  let bank := bitsAt (s.pctl p) 53 5
  if slotBytes < frame.length + 16 || 192 ≤ n then s.portCount p 5
  else
    match (s.getHart hart).freeEntry q with
    | none => s.portCount p 5
    | some e =>
      let a := bankAddr c bank (slotBytes * e)
      if (s.bank c bank).busy.isSome then s.portCount p 4
      else if (s.bank c bank).mode != modeScratch then s.bumpSat (clBlock c + 0x600) 32
      else
        let s := (s.visWrite none a (bytesOf 8 (s.portNow p)) false).visWrite none (a + 16) frame lost
        s.modHart hart (·.pushEntry q ⟨e, BitVec.ofNat 64 a, frame.length + 16⟩)

/-! ### Flow lookup (R306) -/

/-- FLOWM and FLOWA of entry e. -/
def State.flow (s : State) (p e : Nat) : Nat × Nat :=
  let o := fhBlock p + 0x100000 + e * 0x10
  ((s.mmioGet o 0).toNat, (s.mmioGet (o + 8) 0).toNat)

/-- The action of the lowest-numbered valid entry that f accepts. -/
def State.flowFind (s : State) (p : Nat) (f : Nat → Bool) : Option Nat :=
  ((List.range 4096).find? fun e => let m := (s.flow p e).1; bitAt m 63 && f m).map fun e => (s.flow p e).2

/-- Whether a U-plane entry matches a section. -/
def uMatch (sub eaxc dir sec : Nat) (m : Nat) : Bool :=
  bitsAt m 43 2 == 0 && bitsAt m 40 2 == sub && bitsAt m 0 16 == eaxc && bitsAt m 42 1 == dir
    && decide (bitsAt m 16 12 ≤ sec) && decide (sec ≤ bitsAt m 28 12)

/-- Whether a C-plane entry matches a frame. -/
def cMatch (sub eaxc : Nat) (m : Nat) : Bool :=
  bitsAt m 43 2 == 1 && bitsAt m 40 2 == sub && bitsAt m 0 16 == eaxc

/-! ### U-plane sections (R307) -/

/-- The code of a mantissa width. -/
def bfpCode (w : Nat) : Option Nat := [8, 9, 10, 12, 14, 16].findIdx? (· == w)

/-- The transform and its parameter that an action and a section's udCompHdr give; none for another method or width. -/
def sectionXf (act : Nat) (hdr : Option Nat) : Option (Nat × Nat) :=
  match hdr with
  | some h =>
    let w := if h / 16 = 0 then 16 else h / 16
    if h % 16 = 0 then (if h / 16 = 0 then some (5, bitsAt act 32 4) else none)
    else if h % 16 = 1 then (bfpCode w).map fun c => (1, c)
    else none
  | none =>
    match bitsAt act 21 3 with
    | 1 => (bfpWidth (bitsAt act 25 3)).map fun _ => (1, bitsAt act 25 3)
    | 5 => some (5, bitsAt act 32 4)
    | _ => some (0, 0)

/-- Bytes of a PRB in the frame. -/
def prbBytes (xf xparm : Nat) : Nat := if xf = 1 then 1 + 3 * (bfpWidth xparm).getD 0 else 48

/-- Swaps the bytes of each pair: network order to little-endian components. -/
def swapPairs : List Byte → List Byte
  | a :: b :: r => b :: a :: swapPairs r
  | r => r

/-- The fields of a U-plane frame's headers that its sections share. -/
structure UFrame where
  sub : Nat
  eaxc : Nat
  dir : Nat
  seqid : Nat
  ids : List Byte
deriving DecidableEq, Repr

/-- A section's arrival at its bank. Every arrival dropped there is counted at the port, and one that the bank's queue refuses for
its tag or for want of room in the bank's DROPS too (R84, R87, R384). DEDUCED, log 116. -/
def State.landSection (s : State) (p act : Nat) (data : List Byte) (bad : Bool) : State :=
  let c := bitsAt act 0 4
  let b := bitsAt act 4 5
  match s.arrive c b (bitsAt act 9 12) data bad with
  | .landed t => t
  | .dropped t => t.portCount p 4
  | .noRoom => (s.bankDrop c b).portCount p 4
  | .notFifo => s.portCount p 4
  | .changing => s.portCount p 4

/-- The 128-byte section header (R307); its byte 0x15 is 0 where the frame carries no udCompHdr. DESIGN CHOICE, log 128. -/
def sectionHeader (time : Nat) (u : UFrame) (sec start n comp : Nat) : List Byte :=
  bytesOf 8 time ++ u.ids ++ bytesOf 2 sec ++ bytesOf 2 start ++ bytesOf 2 n ++ bytesOf 2 u.eaxc ++ bytesOf 1 u.seqid
    ++ bytesOf 1 comp ++ bytesOf 106 0

/-- The sections of a U-plane frame in order; a dropped one ends the parsing. The fuel bounds the sections. -/
def State.sections (p : Nat) (u : UFrame) (lost : Bool) : (fuel : Nat) → List Byte → State → State
  | 0, _, s => s
  | fuel + 1, bs, s =>
    if bs.length < 4 then s
    else
      let sec := netAt bs 0 2 / 16
      let start := netAt bs 1 2 % 1024
      let n := netAt bs 3 1
      match s.flowFind p (uMatch u.sub u.eaxc u.dir sec) with
      | none => s.portCount p 0
      | some act =>
        let dyn := bitAt act 28
        let comp := if dyn then netAt bs 4 1 else 0
        let rest := bs.drop (if dyn then 6 else 4)
        match sectionXf act (if dyn then some comp else none) with
        | none => s.portCount p 2
        | some x =>
          let len := n * prbBytes x.1 x.2
          if n = 0 || rest.length < len then s.portCount p 2
          else
            let raw := rest.take len
            let body := xfAll x.1 x.2 (if x.1 = 5 then swapPairs raw else raw)
            let hdr := if bitAt act 24 then sectionHeader (s.portNow p) u sec start n comp else []
            State.sections p u lost fuel (rest.drop len) (s.landSection p act (hdr ++ body) lost)

/-! ### Received frames (R305) -/

/-- An eCPRI frame from its common header on. -/
def State.ecpri (s : State) (p sub : Nat) (frame bs : List Byte) (lost : Bool) : State :=
  let kind := netAt bs 1 1
  if bs.length < 4 || netAt bs 0 1 / 16 != 1 || netAt bs 0 1 % 2 != 0 then s.portCount p 1
  else if (kind == 0 && decide (bs.length < 12)) || (kind == 2 && decide (bs.length < 14)) then s.portCount p 1
  else
    let pay := (bs.drop 4).take (netAt bs 2 2)
    let eaxc := netAt bs 4 2
    if kind = 0 then
      let u : UFrame := ⟨sub, eaxc, netAt bs 8 1 / 128, netAt bs 6 1,
        bytesOf 1 (netAt bs 9 1) ++ bytesOf 1 (netAt bs 10 1 / 16) ++ bytesOf 1 (netAt bs 10 2 / 64 % 64)
          ++ bytesOf 1 (netAt bs 11 1 % 64)⟩
      State.sections p u lost frame.length (pay.drop 8) s
    else if kind = 2 then
      match s.flowFind p (cMatch sub eaxc) with
      | none => s.portCount p 0
      | some act => s.landFrame p (bitsAt act 0 4) (bitsAt act 4 8) (bitsAt act 12 4) frame lost
    else
      let c := s.pctl p
      s.landFrame p (bitsAt c 28 4) (bitsAt c 20 8) (bitsAt c 16 4) frame lost

/-- The lost byte that a port's buffer holds goes with the next frame (R359). DESIGN CHOICE, log 118. -/
def State.takeLost (s : State) (k : Nat) : State :=
  { s with ports := { s.ports with fhLost := s.ports.fhLost.filter (· != k) } }

/-- A frame that a sub-port received (R305): FCS, then the route by EtherType; one 802.1Q tag is passed over. What it carries is
poisoned where a byte of it was lost in the port's buffers (R359). PRESUMED, log 82. -/
def State.receive (s : State) (p sub : Nat) (fcsOk : Bool) (frame : List Byte) : State :=
  if !s.hasSub p sub || !tabGet false s.ports.subUp (4 * p + sub) then s
  else if !fcsOk then s.portCount p 3
  else
    let lost := s.ports.fhLost.contains (2 * p)
    let s := s.takeLost (2 * p)
    let o := if netAt frame 12 2 = 0x8100 then 18 else 14
    let et := netAt frame (o - 2) 2
    let c := s.pctl p
    if et = 0xAEFE then s.ecpri p sub frame (frame.drop o) lost
    else if et = 0x88F7 then s.landFrame p (bitsAt c 44 4) (bitsAt c 36 8) (bitsAt c 32 4) frame lost
    else s.landFrame p (bitsAt c 28 4) (bitsAt c 20 8) (bitsAt c 16 4) frame lost

/-- FRAME_RECEIVE (R305 to R308, R386). -/
def execFrameReceive (port sub : Nat) (fcsOk : Bool) (frame : List Byte) (s : State) : Host.Outcome State Fault Refusal :=
  happens (fun s => s.receive port sub fcsOk frame) s

/-! ### Transmission (R309, R364, R384, R386) -/

/-- Offset of register f (0 TXCFG, 1 TXPROD, 2 TXCONS) of ring r of port p. -/
def txOff (p r f : Nat) : Nat := fhBlock p + 0x3000 + r * 0x20 + f * 8
/-- TXCFG of a ring; LOG2N resets to 4. -/
def State.txcfg (s : State) (p r : Nat) : Nat := (s.mmioGet (txOff p r 0) 4).toNat
/-- The address of a ring's next descriptor. -/
def State.txDesc (s : State) (p r : Nat) : Nat :=
  bitsAt (s.txcfg p r) 12 40 * 4096 + 32 * ((s.mmioGet (txOff p r 2) 0).toNat % 2 ^ bitsAt (s.txcfg p r) 0 4)

/-- Whether a bank that [pa, pa + n) lies in is in a mode change. -/
def State.changingIn (s : State) (pa n : Nat) : Bool := n != 0 && (s.changingAt pa || s.changingAt (pa + n - 1))

/-- LAUNCH of a ring's next descriptor, if the ring has one that may start now: a read of a bank in a mode change stalls (R84). -/
def State.txReady (s : State) (p r : Nat) : Option Nat :=
  let launch := memRead s.mem (s.txDesc p r + 0x10) 8
  if s.changingIn (s.txDesc p r) 32 then none
  else if bitAt (s.txcfg p r) 63 && s.mmioGet (txOff p r 1) 0 != s.mmioGet (txOff p r 2) 0 && decide (launch ≤ s.portNow p)
  then some launch else none

/-- Whether a ring's next descriptor is the one to start: no other ring's is ready with an earlier LAUNCH. -/
def State.txFirst (s : State) (p launch : Nat) : Bool :=
  (List.range 16).all fun r => match s.txReady p r with | some l => decide (launch ≤ l) | none => true

/-- The write-back of a descriptor: DONE, LATE, and with TSREQ the SFD time of a frame that was sent; CONS moves on. -/
def State.txDone (s : State) (p r : Nat) (late : Bool) : State :=
  let a := s.txDesc p r
  let w := memRead s.mem (a + 8) 8
  let s := s.devWrite (a + 8) (bytesOf 8 (putBits (putBits w 31 1 1) 30 1 (b2n late)))
  let s := if bitAt w 24 && !late then s.devWrite (a + 0x18) (bytesOf 8 (s.portNow p)) else s
  let s := if late then s.portCount p 7 else s
  s.mmioSet (txOff p r 2) 0 (s.mmioGet (txOff p r 2) 0 + 1)

/-- Starts the next descriptor of a ring: a frame more than 1 µs late, or whose sub-port is down, is not sent; one with a
poisoned byte leaves with an inverted FCS. The descriptor and the frame are read through the L2 (R100), and a frame in a bank whose
mode changes waits for it (R84). DEDUCED, log 85. -/
def State.txStart (s : State) (p r : Nat) : State :=
  match s.txReady p r with
  | none => s
  | some launch =>
    if !(decide (p < 8) && decide (r < 16) && bitAt (s.pctl p) 63 && s.txFirst p launch) then s
    else
      let a := s.txDesc p r
      let s := s.l2Fill a 32 none
      let w := memRead s.mem (a + 8) 8
      let sub := bitsAt w 16 2
      let down := !s.hasSub p sub || !tabGet false s.ports.subUp (4 * p + sub)
      let late := launch != 0 && decide (launch + 1000 < s.portNow p)
      if down || late then s.txDone p r true
      else
        let n := bitsAt w 0 16
        let frame := memRead s.mem a 8
        if s.changingIn frame n then s
        else
          let bad := n != 0 && s.poisonedAt frame n || s.ports.fhLost.contains (2 * p + 1)
          let s := (s.l2Fill frame n none).takeLost (2 * p + 1)
          (if bad then s.portCount p 6 else s).txDone p r false

/-- TX_LAUNCH (R309, R390). -/
def execTxLaunch (port ring : Nat) (s : State) : Host.Outcome State Fault Refusal :=
  engineStep (fun s => s.txStart port ring) s

/-! ### Links (R384 to R386) -/

/-- SUBPORT_LINK_LOST (R384, R385): on an enabled sub-port LOS sets and event 5 is sent. -/
def execSubportLinkLost (port sub : Nat) (s : State) : Host.Outcome State Fault Refusal :=
  happens (fun s =>
    let k := 4 * port + sub
    if port < 8 ∧ sub < 4 ∧ tabGet false s.ports.subUp k then
      let t := { s with ports := { s.ports with subUp := tabErase s.ports.subUp k } }
      if s.hasSub port sub then
        (t.mmioSet (fhBlock port + 8) 0 (s.mmioGet (fhBlock port + 8) 0 ||| BitVec.ofNat 64 (2 ^ (4 + sub)))).portEvent 5 k
      else t
    else s) s

/-- SUBPORT_LINK_UP (R385): on an enabled sub-port event 6 is sent. -/
def execSubportLinkUp (port sub : Nat) (s : State) : Host.Outcome State Fault Refusal :=
  happens (fun s =>
    let k := 4 * port + sub
    if port < 8 ∧ sub < 4 ∧ !tabGet false s.ports.subUp k then
      let t := { s with ports := { s.ports with subUp := tabSet false s.ports.subUp k true } }
      if s.hasSub port sub then t.portEvent 6 k else t
    else s) s

end Sys2Proof.Machine
end

