-- ==== Sys2Proof/Machine/Handler.lean ====
section
/-! DEFINITION. Fences, error and random reads, messages and handler activations (R57, R114, R188 to R194). -/

namespace Sys2Proof.Machine

/-- scfence (R114): a commit point on a vector core; memory is one sequence here, so the order it asks for holds. -/
def execScfence (scope : BitVec 2) (s : State) : Host.Outcome State Fault Refusal :=
  instr (.scfence scope) (do
    if (← cpu).isVc then commitPoint) s

/-- chkerr (R188): poison of commands that the hart has not acquired is not in it. -/
def execChkerr (rd : Reg) (s : State) : Host.Outcome State Fault Refusal :=
  instr (.chkerr rd) (do
    let h ← cpu
    consume (h.csrBad 0x804)
    putXp rd (BitVec.ofNat 64 h.chkint.toNat) (h.csrBad 0x804)) s

/-- rnd (R137, R189). -/
def execRnd (rd : Reg) (s : State) : Host.Outcome State Fault Refusal :=
  instr (.rnd rd) (do
    let r ← drawing (tainted nextRand)
    putXp rd r.1 r.2) s

/-- ovfld (R194): S-mode and above; the table takes the operand's mark (R361). -/
def execOvfld (rs1 : Reg) (s : State) : Host.Outcome State Fault Refusal :=
  instr (.ovfld rs1) (do
    need ((← cpu).mode != .u)
    let v ← dataX rs1
    modCpu fun h => { h with ovf := BitVec.ofNat 32 v.1.toNat, ovfBad := v.2 }) s

/-- mcack (R194, R354): M-mode only. -/
def execMcack (s : State) : Host.Outcome State Fault Refusal :=
  instr .mcack (do
    need ((← cpu).mode == .m)
    modCpu fun h => { h with mcrec0 := h.mcrec0 &&& ~~~(0x8000000000000000 : Word) }) s

/-- msend (R191): on a vector core the message is held until the next commit point. -/
def execMsend (rd rs1 rs2 : Reg) (s : State) : Host.Outcome State Fault Refusal :=
  instr (.msend rd rs1 rs2) (do
    let src ← useX rs1
    let hdr ← useX rs2
    if hdr.toNat % 8 ≠ 0 then raise 4 hdr
    let r ← readRecord hdr 16
    if r.2 then raisePsn
    let hdst := BitVec.ofNat 64 (ofBytes (r.1.take 8))
    let hland := BitVec.ofNat 64 (ofBytes (r.1.drop 8))
    let p ← readRecord src (hdLen hdst)
    consume p.2
    let s ← get
    if !headerOk s hdst hland then putX rd 1
    else do
      let m := mkMsg s.cpu.num hdst hland p.1 p.2
      if s.cpu.isVc then holdMsg m 0 else sendNow m
      putX rd 0) s

/-- mpoll (R193): entries pending in a stream core's queue, or the core's messages in flight. -/
def execMpoll (rd rs1 : Reg) (s : State) : Host.Outcome State Fault Refusal :=
  instr (.mpoll rd rs1) (do
    let r ← dataX rs1
    let s ← get
    let h := s.cpu
    let v := r.1.toNat
    let n := if bitAt v 4 then s.inFlightOf h.num else if h.isVc then 0 else (h.queueOf (bitsAt v 0 4)).length
    putXp rd (BitVec.ofNat 64 n) r.2) s

/-- The lowest-numbered enabled queue that holds a message (R56, R57). -/
def State.readyQueue (s : State) (n : Nat) : Option Nat :=
  (List.range 16).find? fun q =>
    !((s.getHart n).queueOf q).isEmpty && s.handler (clusterOf n) (n % 208 - 16) q 0 != 0

/-- Starts an activation for the first message of queue q on the hart whose turn it is (R57, R138). The message leaves the list of those
that `mpoll` counts, and its entry stays taken until `hret` (R191, R193; DESIGN CHOICE, log 141). -/
def State.activate (s : State) (q : Nat) : State :=
  let h := s.cpu
  let f (i : Nat) : Word := s.handler h.cluster h.scIdx q i
  match h.queueOf q with
  | [] => s
  | e :: r =>
    let x : Vector Word 32 := Vector.replicate 32 0
    let x := (((x.set 10 e.addr).set 11 (BitVec.ofNat 64 e.len)).set 12 (BitVec.ofNat 64 q)).set 13 (f 1)
    let x := x.set 14 (f 2)
    { s with cpu := { h with
        xAlt := h.x
        x := x
        xpoison := 0
        act := some ⟨q, e.entry, h.mode, h.pc, h.xpoison⟩
        queues := tabSet [] h.queues q r
        pc := f 0
        mode := if (f 3).getLsbD 32 then .s else .u
        rngkey := rngSeed (f 0) q
        rngctr := 0
        wait := none } }

/-- hwait (R57): completes as `wfi` does, or starts an activation; a core that runs a task holds its messages. Looking at
the interrupts consumes the poison of `mip` and `mie` (R362). DEDUCED, log 38. -/
def execHwait (s : State) : Host.Outcome State Fault Refusal :=
  instrJump .hwait (do
    onSc
    let h ← cpu
    need h.act.isNone
    consume (h.csrBad 0x344 || h.csrBad 0x304)
    let s ← get
    if s.cpu.wakes then advance 4
    else
      match (if s.cpu.task.isSome then none else s.readyQueue s.cpu.num) with
      | some q => set (s.activate q)
      | none => waitFor .hwait 0 0) s

/-- hret (R57): the message's entry is freed and the core returns to the same `hwait`, its own bank as it was. -/
def execHret (s : State) : Host.Outcome State Fault Refusal :=
  instrJump .hret (do
    onSc
    match (← cpu).act with
    | none => illegal
    | some a => do
      modCpu fun h => { (h.advance 0) with
        act := none, x := h.xAlt, xpoison := a.xpoison, pc := a.pc, mode := a.mode, resv := none }
      modify fun s => s.startNext s.cpu.num) s

/-- HANDLER_ACTIVATION (R57): a stream core that waits in `hwait`, or that is idle between tasks, starts an activation for a
queued message. -/
def execHandlerActivation (s : State) : Host.Outcome State Fault Refusal :=
  happens (fun s =>
    let h := s.cpu
    let waits := match h.wait with | some w => w.on == .hwait | none => false
    let ready := !h.isVc && h.act.isNone && (match h.run with | .idle => true | .program => waits | _ => false)
    if ready then
      (match s.readyQueue h.num with
       | some q => s.activate q
       | none => s)
    else s) s

end Sys2Proof.Machine
end

