-- ==== Sys2Proof/Machine/HostPort.lean ====
section
/-! DEFINITION. The host port and the twin port: submissions, resets and links, completion-ring interrupts, CXL.mem, requests
of the twin, heartbeats and credits (R293 to R304, R364, R387, R388). -/

namespace Sys2Proof.Machine

/-! ### Submissions (R295, R296) -/

/-- Offset of register f of submission page p (R294). -/
def spOff (p f : Nat) : Nat := hostBlock + 0x80000 + p * 0x20 + f * 8
/-- SPCFG f of a page. -/
def State.spcfg (s : State) (p f : Nat) : Nat := (s.mmioGet (spOff p f) 0).toNat

/-- The physical address of a record's pool slot (R296). -/
def State.slotAddr (s : State) (p slot : Nat) : Nat := bitsAt (s.spcfg p 2) 12 40 * 4096 + slot * 128

/-- RETRIES of a page counts one, saturating at 32 bits. -/
def State.retry (s : State) (p : Nat) : State := s.bumpSat (spOff p 3) 32

/-- Bytes o to o + n of a record replaced. -/
def setField (bs : List Byte) (o n v : Nat) : List Byte := bs.take o ++ bytesOf n v ++ bs.drop (o + n)

/-- An accepted record after the page's values have replaced its own (R296). -/
def State.admitRecord (s : State) (p : Nat) (bs : List Byte) : List Byte :=
  let c := s.spcfg p 0
  let ctl := fieldAt bs 0x18 8
  let ctl := putBits (putBits (putBits ctl 8 8 (bitsAt c 32 8)) 16 8 (bitsAt c 40 8)) 24 12 (bitsAt c 20 12)
  let ctl := putBits (putBits ctl 0 2 (max (bitsAt ctl 0 2) (bitsAt c 56 2))) 52 4 0
  let xctl := fieldAt bs 0x78 8
  let xctl := if bitAt c 61 then xctl else putBits xctl 0 1 0
  setField (setField (setField (setField bs 0x18 8 ctl) 0x20 8 0) 0x70 8 (s.spcfg p 1)) 0x78 8 xctl

/-- Whether a record's ROUTE names a destination that exists (R39, R296). -/
def routeValid (bs : List Byte) : Bool :=
  let r := fieldAt bs 0x38 8
  bitsAt r 32 32 == 0 && bitsAt r 2 14 == 0 && (bitsAt r 0 2 == 2 || (bitsAt r 0 2 == 1 && decide (bitsAt r 20 8 ≤ 191)))

/-- A submitted job that fails its check (R296): STATE, DONE_TIME and RESULT are written, and its completion goes along a
valid ROUTE. -/
def State.rejectRoot (s : State) (j : Job) (bs : List Byte) : State :=
  let now := s.dquNow
  let s := s.devWrite (j.pa + 0x28) (bytesOf 8 stRejected.toNat ++ bytesOf 8 now)
  let s := s.devWrite (j.pa + 0x60) (bytesOf 8 0)
  if routeValid bs then s.sendCompletion { j with state := stRejected, result := 0, resultBad := false } now else s

/-- Whether bytes 0x22 to 0x27 of a record, which hold nothing, are not zero: a defect of the record (R11, R295). -/
def recordReserved (bs : List Byte) : Bool := fieldAt bs 0x22 6 != 0

/-- Records that may be in acceptance at a time (R296). -/
def maxAccepting : Nat := 64

/-- A record is accepted (R296): it is written to its slot with the page's values, poisoned if its TLP was (R364), and waits for the
DQU. DEDUCED, log 139. -/
def State.acceptRoot (s : State) (p slot pa : Nat) (bs : List Byte) (bad : Bool) : State :=
  let r := s.admitRecord p bs
  let a : Accept := ⟨p, slot, pa, r, bitAt (s.spcfg p 0) 62, recordReserved bs, bad, none⟩
  let s := s.visWrite none pa r bad
  { s with ports := { s.ports with accepting := s.ports.accepting ++ [a] } }

/-- The job of an accepted record. -/
def Accept.job (a : Accept) : Job := { jobOf (BitVec.ofNat 64 a.pa) a.pa a.record a.bad with keep := a.keep }

/-- Whether an accepted record fails its checks (R43, R296). -/
def State.recordFails (s : State) (a : Accept) : Bool :=
  a.defect || rcbInvalid a.record || s.tenantMismatch a.job || decide (a.job.cliffValue ≤ s.dquNow)

/-- The DQU takes up the oldest accepted record (R58, R296): its job is rejected, or enqueued as soon as an entry is free, and abandoned
where its page has lost it meanwhile (R299). The bytes of a poisoned record are taken as they are, with their mark (DESIGN CHOICE, log 115;
DEDUCED, log 139). -/
def State.takeRecord (s : State) : State :=
  match s.ports.accepting with
  | [] => s
  | a :: r =>
    let t := { s with ports := { s.ports with accepting := r } }
    if s.recordFails a then t.rejectRoot a.job a.record
    else if s.dqAvail = 0 then s
    else
      let u := t.acceptJob a.job 0 1
      match a.lostAt with
      | some n => u.abandon s.dqu.nextJob n (n + 2000) true
      | none => u

/-- What a write to a submission page does (R295, R296): the slot's STATE is read through the L2 (R100). DEDUCED, log 78. -/
def State.submit (s : State) (p off : Nat) (bs : List Byte) (bad : Bool) : State :=
  let slot := fieldAt bs 0x20 2
  let pa := s.slotAddr p slot
  let st := memRead s.mem (pa + 0x28) 1
  if !s.ports.hostUp || bs.length != 128 || off % 128 != 0 || decide (4096 ≤ off) || decide (4096 ≤ p) then s
  else if !s.power.locked then s
  else if !bitAt (s.spcfg p 0) 63 || decide (bitsAt (s.spcfg p 3) 32 16 ≤ slot) then s
  else if regionOf pa != .lpddr then s
  else
    let s := s.l2Fill (pa + 0x28) 1 none
    let waits := s.ports.accepting.any fun a => a.page == p && a.slot == slot
    if st == 1 || st == 2 || waits || s.dqAvail == 0 || decide (maxAccepting ≤ s.ports.accepting.length) then s.retry p
    else s.acceptRoot p slot pa bs bad

/-- HOST_SUBMISSION (R295, R296, R364). -/
def execHostSubmission (page off : Nat) (record : Tlp) (s : State) : Host.Outcome State Fault Refusal :=
  happens (fun s => s.submit page off record.data record.poisoned) s
/-- SUBMISSION_PAGE_OTHER_ACCESS (R295): dropped; a read completes Unsupported Request. -/
def execSubmissionPageOtherAccess (_page : Nat) (_isRead : Bool) (s : State) : Host.Outcome State Fault Refusal :=
  happens (fun s => s) s

/-! ### The link (R298 to R301, R387) -/

/-- PF0-visible registers at a reset: every SPCFG register but KEEP, and every completion ring (R299). -/
def resetPf0 (m : Tab (Option Word)) : Tab (Option Word) :=
  m.filterMap fun e =>
    if hostBlock + 0x80000 ≤ e.1 ∧ e.1 < hostBlock + 0xA0000 then
      match e.2 with
      | some v => if e.1 % 0x20 = 0 ∧ v.getLsbD 62 then some (e.1, some (0x4000000000000000 : Word)) else none
      | none => none
    else if hostBlock + 0x100000 ≤ e.1 ∧ e.1 < hostBlock + 0x300000 then none
    else some e

/-- The jobs that a host-port reset abandons: those whose root came through a page without KEEP (R299). -/
def State.hostJobs (s : State) : List Nat :=
  s.dqu.jobs.filterMap fun p =>
    match p.2 with
    | some j => if j.parent.isNone && !j.keep then some p.1 else none
    | none => none

/-- A host-port reset (R299). -/
def State.portReset (s : State) : State :=
  let ports := { s.ports with hostUp := false, rstSeen := true, atomicEnable := false, ringPend := [], msix := [] }
  let s := { s with mmio := resetPf0 s.mmio, ports := ports }
  let now := s.dquNow
  let lose (a : Accept) : Accept := if a.keep || a.lostAt.isSome then a else { a with lostAt := some now }
  let s := { s with ports := { s.ports with accepting := s.ports.accepting.map lose } }
  (s.hostJobs.foldl (fun s id => s.abandon id now (now + 2000) true) s).portEvent 1 0

/-- HOST_PORT_RESET (R299). -/
def execHostPortReset (s : State) : Host.Outcome State Fault Refusal := happens (fun s => s.portReset) s

/-- HOST_LINK_UP (R300, R301, R385, R387): the link has trained, after a reset or, while it is up, again without being lost
(DESIGN CHOICE, log 133); UP sets with event 2. -/
def execHostLinkUp (s : State) : Host.Outcome State Fault Refusal :=
  happens (fun s =>
    let cxl := bitAt (s.mmioGet (hostBlock + 0x10) 0).toNat 63
    let t := { s with ports := { s.ports with hostUp := true, cxlActive := cxl } }
    if s.ports.hostUp then t else t.portEvent 2 0) s

/-- HOST_RING_ITIME (R298): ITIME µs after the oldest pending record its interrupt is sent. -/
def execHostRingItime (ring : Nat) (s : State) : Host.Outcome State Fault Refusal :=
  happens (fun s =>
    let p := tabGet (0, 0) s.ports.ringPend ring
    let itime := bitsAt (s.mmioGet (ringOff ring 1) 0).toNat 32 16
    if itime != 0 && p.1 != 0 && decide (p.2 + itime * 1000 ≤ s.dquNow) then
      { s with ports := { s.ports with ringPend := tabErase s.ports.ringPend ring } }
    else s) s

/-- A write that arrives from outside: memory takes it, and it reaches the L2 (R300, R397). -/
def State.outsideWrite (s : State) (pa : Nat) (data : List Byte) (bad : Bool) : State := s.engWritePhys pa data bad none

/-- CXL_MEM_ACCESS (R300, R301, R364): the host reaches LPDDR6 through the HDM range and the L2, under no domain (R92). A read's data
leaves the module. -/
def execCxlMemAccess (off len : Nat) (data : Option (List Byte)) (poisoned : Bool) (s : State) :
    Host.Outcome State Fault Refusal :=
  happens (fun s =>
    let c := (s.mmioGet (hostBlock + 0x10) 0).toNat
    let inRange := decide (off + len ≤ bitsAt c 0 8 * 2 ^ 30)
    let pa := bitsAt c 8 8 * 2 ^ 30 + off
    if s.ports.hostUp && s.ports.cxlActive && inRange then
      match data with
      | some d => if d.length == len then s.outsideWrite pa d poisoned else s
      | none => s.l2Fill pa len none
    else s) s

/-! ### The twin port (R303, R304, R388) -/

/-- Whether the twin may reach n bytes at a physical address, once no mode change holds the bank (R84, R303). -/
def State.exported (s : State) (pa n : Nat) : Bool :=
  let e := (s.mmioGet (twinBlock + 8) 0).toNat
  let lo := bitsAt e 0 8 * 2 ^ 30
  match regionOf pa with
  | .lpddr => decide (lo ≤ pa) && decide (pa + n ≤ lo + bitsAt e 40 8 * 2 ^ 30) && (regionOf (pa + n - 1) == .lpddr)
  | .csram c b off => bitAt e 63 && decide (off + n ≤ 0x40000) && !(s.bank c b).busy.isSome
      && ((s.bank c b).mode == modeScratch || (s.bank c b).mode == modeLatch)
  | _ => false

/-- Whether a region admits an AtomicOp: no bank in LATCH mode does (R80). -/
def State.atomicRegion (s : State) (pa : Nat) : Bool :=
  match regionOf pa with
  | .csram c b _ => (s.bank c b).mode == modeScratch
  | _ => true

/-- An AtomicOp of n bytes, naturally aligned (R302, R303); `bad` tells that its operand came poisoned (R364). -/
def State.twinAtomic (s : State) (pa n : Nat) (bad : Bool) (f : Nat → Nat) : State :=
  if (n == 4 || n == 8) && pa % n == 0 && s.exported pa n && s.atomicRegion pa then
    s.outsideWrite pa (bytesOf n (f (memRead s.mem pa n) % 2 ^ (8 * n))) (bad || s.poisonedAt pa n)
  else s

/-- Whether a request of the twin waits for a mode change of the bank it goes to (R84). -/
def State.twinWaits (s : State) (pa : Nat) (op : TwinOp) : Bool :=
  match op with
  | .doorbell _ _ _ => false
  | _ => bitAt (s.mmioGet (twinBlock + 8) 0).toNat 63 && s.changingAt pa

/-- A request of the twin (R303, R304): served within the exported ranges, else aborted with no effect here; one to a bank in a
mode change waits for its end (R84). A read's data leaves the module. -/
def State.twinServe (s : State) (pa : Nat) (op : TwinOp) : State :=
  if !s.ports.twinUp then s
  else if s.twinWaits pa op then { s with ports := { s.ports with twinHeld := s.ports.twinHeld ++ [(pa, op)] } }
  else
    match op with
    | .read n => if n != 0 && s.exported pa n then s.l2Fill pa n none else s
    | .write d bad => if d.length != 0 && s.exported pa d.length then s.outsideWrite pa d bad else s
    | .fetchAdd n v bad => s.twinAtomic pa n bad fun o => o + v.toNat
    | .swap n v bad => s.twinAtomic pa n bad fun _ => v.toNat
    | .doorbell idx v sender =>
      if idx < 49152 then
        s.send (deviceMsg .doorbell (idx / 3072) (idx / 16 % 192) (idx % 16)
          (bytesOf 8 v.toNat ++ bytesOf 8 sender ++ bytesOf 16 0))
      else s

/-- The twin's requests that waited for a mode change are served, those whose bank still changes held again (R84). -/
def State.twinResume (s : State) : State :=
  s.ports.twinHeld.foldl (fun s p => s.twinServe p.1 p.2) { s with ports := { s.ports with twinHeld := [] } }

/-- TWIN_REQUEST (R303, R304). -/
def execTwinRequest (pa : Nat) (op : TwinOp) (s : State) : Host.Outcome State Fault Refusal :=
  happens (fun s => s.twinServe pa op) s

/-- TWIN_HEARTBEAT_SEND (R303): one more heartbeat leaves; a fatal event stops them (R390). -/
def execTwinHeartbeatSend (s : State) : Host.Outcome State Fault Refusal :=
  engineStep (fun s => { s with ports := { s.ports with heartbeats := s.ports.heartbeats + 1 } }) s

/-- TWIN_HEARTBEAT_RECEIVE (R303, R385, R388): where UP was clear it sets and event 4 is sent. -/
def execTwinHeartbeatReceive (s : State) : Host.Outcome State Fault Refusal :=
  happens (fun s =>
    let t := { s with ports := { s.ports with twinUp := true, lastBeat := s.cycles } }
    if s.ports.twinUp then t else t.portEvent 4 0) s

/-- Cycles of 30 µs without a heartbeat (R303). DEDUCED, log 86. -/
def heartbeatLimit : Nat := 30 * Config.cyclesPerUs

/-- TWIN_HEARTBEAT_TIMEOUT (R303, R385, R388): UP clears and event 3 is sent. -/
def execTwinHeartbeatTimeout (s : State) : Host.Outcome State Fault Refusal :=
  happens (fun s =>
    if s.ports.twinUp && decide (s.ports.lastBeat + heartbeatLimit ≤ s.cycles) then
      ({ s with ports := { s.ports with twinUp := false } }).portEvent 3 0
    else s) s

/-- MILZIN_CREDIT (R304): a credit returns. -/
def execMilzinCredit (s : State) : Host.Outcome State Fault Refusal :=
  happens (fun s => { s with ports := { s.ports with credits := s.ports.credits + 1 } }) s

end Sys2Proof.Machine
end

