-- ==== Sys2Proof/Machine/Fetch.lean ====
section
/-! DEFINITION. Fetching an instruction (R80, R82, R102, R150, R151): the parcels at the program counter, one at a time,
and the faults of an instruction's first or later part. -/

namespace Sys2Proof.Machine

/-- Whether the region of an address admits an instruction fetch (R80). -/
def State.fetchVerdict (s : State) (pa : Nat) : Verdict :=
  match regionOf pa with
  | .lpddr => .ok
  | .csram c b _ =>
    let k := s.bank c b
    if k.busy.isSome then .wait (.modeChange (c * 32 + b))
    else if k.mode == modeScratch then .ok else .fault 1
  | _ => .fault 1

/-- What the fetch of one or more parcels comes to: their bits, an exception, or a bank that is changing its mode. -/
inductive Fetched where
  | bits (w : Nat) (bad : Bool) (s : State)
  | trap (e : Exc) (s : State)
  | stall
deriving DecidableEq, Repr

/-- Fetches the 16-bit parcel at an address (R150). The trap value is the parcel's address: the pc, or the first address of
the page in which a later part lies. -/
def State.fetchParcel (s : State) (va : Word) : Fetched :=
  match xlat s .fetch va with
  | .error f => .trap (.plain f.cause va) (s.xlatMissed .fetch va)
  | .ok (x, s) =>
    match s.fetchVerdict x.pa with
    | .fault c => .trap (.plain c va) s
    | .wait _ => .stall
    | .ok => .bits (memRead s.mem x.pa 2) (s.poisonedAt x.pa 2) (s.l2Ask x.pa 2 x.dom)

/-- Fetches n parcels upward from an address. -/
def State.fetchParcels (s : State) (va : Word) : Nat → Fetched
  | 0 => .bits 0 false s
  | n + 1 =>
    match s.fetchParcel va with
    | .bits p b s =>
      (match s.fetchParcels (va + 2) n with
       | .bits r c s => .bits (p + 65536 * r) (b || c) s
       | f => f)
    | f => f

/-- Parcels to fetch after the first: an encoding of 64 bits or more reports its first 32 bits (R151). -/
def moreParcels (p : Nat) : Nat :=
  match parcelLen p with
  | some n => n / 2 - 1
  | none => 1

/-- Fetches the instruction at the program counter: its length is in its first parcel (R150). -/
def State.fetch (s : State) : Fetched :=
  match s.fetchParcel s.cpu.pc with
  | .bits p b s =>
    (match s.fetchParcels (s.cpu.pc + 2) (moreParcels p) with
     | .bits r c s => .bits (p + 65536 * r) (b || c) s
     | f => f)
  | f => f

/-- The trap of a fetch of poisoned bytes: an instruction is other than data (R363). -/
def State.fetchPoison (s : State) : Exc := ⟨48, 0, none, true, some (psnInfo s.cpu)⟩

end Sys2Proof.Machine
end

