-- ==== Sys2Proof/Machine/Lookahead.lean ====
section
/-! DEFINITION. The lookahead of long-latency vector instructions (R162, R163): the registers an instruction reads and
writes, and what a window of instructions that breaks the rule leaves undefined. -/

namespace Sys2Proof.Machine

/-- What an instruction reads and writes, in the one numbering of `LaWin`. -/
structure RegUse where
  reads : List Nat
  writes : List Nat
deriving DecidableEq, Repr

/-- An x register in the numbering; x0 is no register to depend on. -/
def xNum (r : Reg) : List Nat := if r = 0 then [] else [r.toNat]
/-- An f register in the numbering. -/
def fNum (r : Reg) : List Nat := [32 + r.toNat]
/-- An x register named by a 6-bit field. -/
def xField (f : BitVec 6) : List Nat := xNum (BitVec.ofNat 5 f.toNat)
/-- The group of vector registers at a field. -/
def vGroup (v : Vec) (f : BitVec 6) : List Nat := (List.range v.grp).map fun i => 64 + f.toNat + i
/-- A key register; k0 names none. -/
def kNum (k : Nat) : List Nat := if k = 0 then [] else [128 + k]

/-- The use of a vector instruction's fields by its shape (R158). `one` tells that vs2 names a single register (R251). -/
def vrowUse (r : VRow) (one : Bool) (v : Vec) (o : VOp) : RegUse :=
  let d := if o.dk then [] else vGroup v o.vd
  let s1 := vGroup v o.vs1
  let s2 := if o.s then xField o.vs2 else if one then [64 + o.vs2.toNat] else vGroup v o.vs2
  let s3 := vGroup v o.vs3
  let u : RegUse := match r.shape with
    | .A => if r.cls == 7 then ⟨(64 + o.vs2.toNat) :: s1, d⟩ else ⟨s1 ++ s2, d⟩
    | .AD => ⟨s1 ++ s2 ++ d, d⟩
    | .T => ⟨s1 ++ s2 ++ s3, d⟩
    | .TD => ⟨s1 ++ s2 ++ s3 ++ d, d⟩
    | .U | .B => ⟨s1, d⟩
    | .Z | .R => ⟨[], d⟩
    | .V => ⟨if o.s then xField o.vs2 else s1, d⟩
    | .K => ⟨s1 ++ s2, kNum (o.vd.toNat % 8)⟩
    | .P => ⟨s1 ++ vGroup v o.vs2 ++ s3, d ++ (d.map fun (k : Nat) => k + v.grp)⟩
    | .I => ⟨s1 ++ (if o.s then xField o.vs2 else []), d⟩
    | .E => ⟨s1 ++ (if o.s then xField o.vs2 else []), xField o.vd⟩
    | .N => ⟨xField o.vs1 ++ (if o.s then xField o.vs2 else []), d⟩
    | .W => ⟨s1, []⟩
    | .W0 => ⟨[], []⟩
    | .KK => ⟨kNum o.vs1.toNat ++ kNum o.vs2.toNat, kNum o.vd.toNat⟩
    | .KU => ⟨kNum o.vs1.toNat, kNum o.vd.toNat⟩
    | .XK => ⟨kNum o.vs1.toNat, xField o.vd⟩
    | .KX => ⟨xField o.vs2, kNum o.vd.toNat⟩
    | .L => if r.cls == 4 then ⟨xField o.vs1, d⟩ else ⟨xField o.vs1 ++ d, []⟩
    | .LS | .LB =>
      if r.cls == 4 then ⟨xField o.vs1 ++ xField o.vs2, d⟩ else ⟨xField o.vs1 ++ xField o.vs2 ++ d, []⟩
    | .LX => if r.cls == 4 then ⟨xField o.vs1 ++ vGroup v o.vs2, d⟩ else ⟨xField o.vs1 ++ vGroup v o.vs2 ++ d, []⟩
    | .LK => if r.cls == 4 then ⟨xField o.vs1, kNum o.vd.toNat⟩ else ⟨xField o.vs1 ++ kNum o.vd.toNat, []⟩
    | .AM => ⟨xField o.vs1 ++ vGroup v o.vs2 ++ d, d⟩
  { u with reads := kNum o.km.toNat ++ u.reads }

/-- The use of a scalar floating-point instruction's registers. -/
def fpUse : FpOp → RegUse
  | .load _ rd rs1 _ => ⟨xNum rs1, fNum rd⟩
  | .store _ rs2 rs1 _ => ⟨fNum rs2 ++ xNum rs1, []⟩
  | .add _ rd a b _ | .sub _ rd a b _ | .mul _ rd a b _ | .div _ rd a b _ => ⟨fNum a ++ fNum b, fNum rd⟩
  | .sqrt _ rd a _ => ⟨fNum a, fNum rd⟩
  | .madd _ rd a b c _ | .msub _ rd a b c _ | .nmsub _ rd a b c _ | .nmadd _ rd a b c _ => ⟨fNum a ++ fNum b ++ fNum c, fNum rd⟩
  | .sgnj _ _ rd a b | .minmax _ _ rd a b => ⟨fNum a ++ fNum b, fNum rd⟩
  | .cmp _ _ rd a b => ⟨fNum a ++ fNum b, xNum rd⟩
  | .classify _ rd a | .toInt _ _ rd a _ | .mvXF _ rd a => ⟨fNum a, xNum rd⟩
  | .ofInt _ _ rd a _ | .mvFX _ rd a => ⟨xNum a, fNum rd⟩
  | .cvtSD rd a _ | .cvtDS rd a _ => ⟨fNum a, fNum rd⟩

/-- The registers of a slot's group, which unbinding zeroes (R185). -/
def slotRegs (v : Vec) (q : Nat) : List Nat :=
  match v.slots.getD q none with
  | some sl => (List.range v.grp).map fun i => 64 + sl.reg + i
  | none => []

/-- The registers that a `vconf` with a request writes: all of them where it changes NREG (R173). -/
def confRegs (v : Vec) (req : Nat) : List Nat :=
  if vcfgSupported v (req % 8192) && bitsAt req 2 2 != bitsAt v.vcfg.toNat 2 2 then (List.range 64).map (64 + ·) else []

/-- The use of an instruction's registers, for those that close no window. A vector instruction with vl = 0 has none (R205). -/
def instrUse (i : Instr) (h : Hart) : RegUse :=
  let v := h.vec
  match i.vrow with
  | some (r, o) =>
    let one := match i with | .vredbs _ => true | _ => false
    if v.vl = 0 then ⟨[], []⟩ else vrowUse r one v o
  | none =>
    match i with
    | .vconf rd rs1 => ⟨xNum rs1, xNum rd ++ confRegs v (h.xr rs1).toNat⟩
    | .vconfi rd imm => ⟨[], xNum rd ++ confRegs v imm.toNat⟩
    | .tlread rd rs1 | .tagffr rd rs1 | .mpoll rd rs1 => ⟨xNum rs1, xNum rd⟩
    | .tnow rd | .sstat rd _ | .chkerr rd | .rnd rd => ⟨[], xNum rd⟩
    | .tlpoll rd rs1 rs2 | .msend rd rs1 rs2 => ⟨xNum rs1 ++ xNum rs2, xNum rd⟩
    | .tagclr rs1 | .ovfld rs1 | .sskip _ rs1 => ⟨xNum rs1, []⟩
    | .sbind q _ rs1 => ⟨xNum rs1, slotRegs v q.toNat⟩
    | .sunbind q => ⟨[], slotRegs v q.toNat⟩
    | .load _ rd rs1 _ _ => ⟨xNum rs1, xNum rd⟩
    | .store _ rs2 rs1 _ _ => ⟨xNum rs1 ++ xNum rs2, []⟩
    | .fpScalar op _ => fpUse op
    | _ => ⟨[], []⟩

/-- The use of a standard integer instruction's registers. -/
def baseUse : Base → RegUse
  | .lui rd _ | .auipc rd _ | .jal rd _ => ⟨[], xNum rd⟩
  | .jalr rd rs1 _ => ⟨xNum rs1, xNum rd⟩
  | .branch _ a b _ => ⟨xNum a ++ xNum b, []⟩
  | .immOp _ rd a _ | .unary _ rd a => ⟨xNum a, xNum rd⟩
  | .regOp _ rd a b => ⟨xNum a ++ xNum b, xNum rd⟩

/-- Whether a standard integer instruction closes a window: a jump, or a branch that is taken, wherever it goes (R162). -/
def baseCloses (b : Base) (h : Hart) : Bool :=
  match b with
  | .jal _ _ | .jalr _ _ _ => true
  | .branch op a c _ => brTaken op (h.xr a) (h.xr c)
  | _ => false

/-- The commit points of R51 and the other instructions that close a window (R162). -/
def closesWindow (i : Instr) : Bool :=
  match i with
  | .vstrip _ _ | .vstripi _ _ | .vclose | .amo _ _ _ _ _ _ _ | .lrSc _ _ _ _ _ _ _ | .vamo _
  | .fence _ _ _ _ _ | .fenceI _ _ _ | .sfenceVma _ _ | .scfence _
  | .llw _ _ | .lld _ _ | .llpw _ _ | .llpd _ _ | .lsw _ _ | .lsd _ _ | .lclr _
  | .tlwait _ _ | .tagwany _ _ | .tagwall _ _ | .cpost _ _ | .mgangVreg _ _ _ | .mgangCsram _ _ _ _ | .mgangNoOperand _ _
  | .wdrive _ | .jspawn _ _ | .jspawnn _ _ _ | .jcont _ _ | .jabandon | .jdefer | .tend | .tendr _
  | .csr _ _ _ _ | .ecall | .ebreak _ | .wfi | .sret | .mret | .hret | .hwait => true
  | _ => match i.vrow with | some (_, o) => o.dk | none => false

/-- The long-latency instructions (R162). -/
def longLatency (i : Instr) : Bool :=
  match i with
  | .vgather _ | .vracc _ | .vfdiv _ | .vfsqrt _ | .vfrcp _ | .vfrsqrt _ | .vfexp2 _ | .vflog2 _ | .vcrcp _ | .vamo _
  | .vld _ | .vlds _ | .vldx _ | .vldbs _ | .vldk _ => true
  | _ => false

/-- The registers that an instruction in a window leaves undefined (R163). -/
def LaWin.spoils (w : LaWin) (u : RegUse) : List Nat :=
  (if u.reads.any w.dst.contains then u.writes else [])
    ++ (if u.writes.any w.src.contains then w.dst else [])
    ++ u.writes.filter w.dst.contains

/-- A register takes an undefined value; a register bound to a stream is unaffected (R163). -/
def State.spoil (s : State) (n : Nat) : State :=
  let h := s.cpu
  let k := s.free
  let s' := { s with free := k + 1 }
  if n < 32 then { s' with cpu := { h with x := h.x.setIfInBounds n (Config.freeWord k) } }
  else if n < 64 then { s' with cpu := { h with f := h.f.setIfInBounds (n - 32) (Config.freeWord k) } }
  else if n < 128 then
    if (h.vec.boundIn (n - 64) 1).isSome || (h.vec.boundAt (n - 64)).isSome then s
    else { s' with cpu := { h with
      vec := h.vec.setBytes (n - 64) 0 ((List.range h.vec.imageB).map fun i => Config.freeByte (k + 1) (vecKey (n - 64) i)) } }
  else { s' with cpu := { h with vec := { h.vec with keys := h.vec.keys.setIfInBounds (n - 128) (Config.freeKey k) } } }

/-- What the open windows make of the instruction that has just retired: `pre` is the state before it, `s` the state after
it, and n its length in bytes. DEDUCED, log 47. -/
def lookahead (n : Nat) (use : RegUse) (closes : Bool) (opens : Nat) (pre s : State) : State :=
  if pre.cpu.la.isEmpty && opens = 0 then s
  else
    let set (s : State) (l : List LaWin) : State := { s with cpu := { s.cpu with la := l } }
    let retired := s.cpu.pc == pre.cpu.pc + BitVec.ofNat 64 n && s.cpu.csr.minstret == pre.cpu.csr.minstret + 1
    if s.cpu.num != pre.cpu.num then s
    else if !retired then (if s.cpu.wait.isSome then s else set s [])
    else if closes then set s (if opens = 0 then [] else [⟨opens, use.writes, use.reads⟩])
    else
      let s := if s.cpu.la.isEmpty then s
        else ((s.cpu.la.flatMap fun w => w.spoils use).dedup).foldl State.spoil s
      let left := s.cpu.la.filterMap fun w => if w.left ≤ 1 then none else some { w with left := w.left - 1 }
      set s (if opens = 0 then left else ⟨opens, use.writes, use.reads⟩ :: left)

/-- The number of instructions a window of an instruction covers: LA of a long-latency instruction, else none (R162). -/
def opensWindow (i : Instr) : Nat :=
  if longLatency i then (match i.vrow with | some (_, o) => o.la.toNat | none => 0) else 0

/-- Applies the lookahead rules to an instruction's outcome. -/
def withLookahead (n : Nat) (use : RegUse) (closes : Bool) (opens : Nat) (pre : State)
    (r : Host.Outcome State Fault Refusal) : Host.Outcome State Fault Refusal :=
  match r with
  | .next s => .next (lookahead n use closes opens pre s)
  | r => r

end Sys2Proof.Machine
end

