-- ==== Sys2Proof/Machine/Residue.lean ====
section
/-! DEFINITION. The datapath classes of the instructions, the operations that carry residue codes, and the mirrored lanes
(R172, R221 to R251, R349, R357). -/

namespace Sys2Proof.Machine

/-- DCLASS of the residue-checked datapaths (R354). -/
def dcInt : Nat := 1
/-- DCLASS of address formation. -/
def dcAddr : Nat := 2
/-- DCLASS of significand arithmetic. -/
def dcMant : Nat := 3

/-- The classes of a vector memory instruction: codes 1 to 4 and 7 to 9 round or widen floating values (R221). -/
def memClasses (o : VOp) : List Nat :=
  let c := o.fmt.toNat
  if (1 ≤ c ∧ c ≤ 4) ∨ (7 ≤ c ∧ c ≤ 9) then [dcAddr, dcMant] else [dcAddr]

/-- The classes of a scalar F or D instruction: its address, its significand, or the integer it converts (R349). DEDUCED, log 117. -/
def fpClasses : FpOp → List Nat
  | .load _ _ _ _ | .store _ _ _ _ => [dcAddr]
  | .sgnj _ _ _ _ _ | .classify _ _ _ | .mvXF _ _ _ | .mvFX _ _ _ => []
  | .toInt _ _ _ _ _ | .ofInt _ _ _ _ _ => [dcInt, dcMant]
  | _ => [dcMant]

/-- The atomic operations without arithmetic: a swap and the logic operations (R349). -/
def amoLogic : AmoOp → Bool
  | .swap | .and | .or | .xor => true
  | .add | .min | .max | .minu | .maxu => false

/-- Whether a vector instruction moves elements through a bound stream or a latch window, whose steps the transfer unit checks (R208,
R215, R349). -/
def Hart.transfers (h : Hart) (i : Instr) : Bool :=
  let bound (n : Nat) : Bool := decide (64 ≤ n) && decide (n < 128) && (h.vec.boundAt (n - 64)).isSome
  match i.vrow with
  | some (_, o) =>
    let u := instrUse i h
    h.vec.vl != 0 && (o.dk || u.reads.any bound || u.writes.any bound)
  | none => false

/-- The datapath classes that an instruction's errors are reported in, as its table gives them (R172, R221, R226 to R251). An
instruction of the standard has the class of what R349 says of its operation (DEDUCED, log 117). `sskip` has INT from its own table and
ADDR from R349, which gives that class to a stream's steps (DESIGN CHOICE, log 146). -/
def instrClasses : Instr → List Nat
  | .vconf _ _ | .vconfi _ _ | .vstrip _ _ | .vstripi _ _ | .tlwait _ _ | .tlpoll _ _ _ | .tagwany _ _ | .tagwall _ _
  | .tagffr _ _ | .tagclr _ | .rnd _ => [dcInt]
  | .sskip _ _ => [dcInt, dcAddr]
  | .jspawn _ _ | .jspawnn _ _ _ | .jcont _ _ | .cpost _ _ | .mgangVreg _ _ _ | .mgangCsram _ _ _ _ | .mgangNoOperand _ _
  | .wdrive _ | .sbind _ _ _ | .llw _ _ | .lld _ _ | .llpw _ _ | .llpd _ _ | .lsw _ _ | .lsd _ _ | .lclr _ | .msend _ _ _
  | .load _ _ _ _ _ | .store _ _ _ _ _ => [dcAddr]
  | .amo op _ _ _ _ _ _ => if amoLogic op then [dcAddr] else [dcInt, dcAddr]
  | .lrSc _ _ _ _ _ _ _ => [dcAddr]
  | .fpScalar op _ => fpClasses op
  | .vfadd _ | .vfsub _ | .vfmul _ | .vfmin _ | .vfmax _ | .vfdiv _ | .vfma _ | .vfms _ | .vfnma _ | .vfnms _ | .vfsqrt _
  | .vfrcp _ | .vfrsqrt _ | .vfexp2 _ | .vflog2 _ | .vfceq _ | .vfclt _ | .vfcle _
  | .vcadd _ | .vcsub _ | .vcmul _ | .vcmulj _ | .vcmac _ | .vcmacj _ | .vcmsc _ | .vcelim _ | .vcrcp _ | .vcnorm _ | .vbfly _
  | .vbflyi _ | .vredsum _ | .vredmax _ | .vredbs _ | .vdot _ | .vpwl _ | .vbscale _ => [dcMant]
  | .vadd _ | .vsub _ | .vmul _ | .vmulh _ | .vand _ | .vor _ | .vxor _ | .vsll _ | .vsrl _ | .vsra _ | .vmin _ | .vmax _
  | .vminu _ | .vmaxu _ | .vsadd _ | .vceq _ | .vclt _ | .vcltu _ | .vid _ | .vmv _ | .kpop _ | .kffs _ | .kvl _ | .vrnd _ => [dcInt]
  | .vfcvtif _ | .vfcvtfi _ => [dcInt, dcMant]
  | .vgather _ => [dcAddr]
  | .vld o | .vlds o | .vldx o | .vst o | .vsts o | .vstx o => memClasses o
  | .vldk _ | .vstk _ => [dcAddr]
  | .vldbs _ | .vstbs _ => [dcAddr, dcMant]
  | .vamo o => if 1 ≤ o.vs3.toNat ∧ o.vs3.toNat ≤ 4 then [dcAddr] else [dcInt, dcAddr]
  | _ => []

/-- The instructions of a class whose operation carries no residue: logic, shifts and bit copies (R349). -/
def unchecked : Instr → Bool
  | .vand _ | .vor _ | .vxor _ | .vsll _ | .vsrl _ | .vsra _ | .vmv _ | .tagclr _ => true
  | _ => false

/-- The classes of a two-operand integer operation: add, subtract, compare and multiply (R349). DEDUCED, log 117. -/
def aluClasses : AluOp → List Nat
  | .add | .sub | .slt | .sltu | .addw | .subw | .mul | .mulh | .mulhsu | .mulhu | .mulw | .adduw | .sh1add | .sh2add | .sh3add
  | .sh1adduw | .sh2adduw | .sh3adduw | .min | .minu | .max | .maxu => [dcInt]
  | _ => []

/-- The classes of a standard integer instruction without a row of its own (R349). -/
def baseClasses : Base → List Nat
  | .auipc _ _ | .jal _ _ | .jalr _ _ _ | .branch _ _ _ _ => [dcInt]
  | .immOp op _ _ _ | .regOp op _ _ _ => aluClasses op
  | .lui _ _ | .unary _ _ _ => []

/-- The instructions of a vector core's control hart alone, beside those of its vector unit (R154, R156, R349). -/
def vcOnly : Instr → Bool
  | .vconf _ _ | .vconfi _ _ | .vstrip _ _ | .vstripi _ _ | .vclose | .wdrive _ | .sbind _ _ _ | .sunbind _ | .sflush _ | .sstat _ _
  | .sskip _ _ | .mgangVreg _ _ _ | .mgangCsram _ _ _ _ | .mgangNoOperand _ _ | .fpScalar _ _ => true
  | i => i.vrow.isSome

/-- The instructions that the task of a job alone may execute, among those with a class (R154). -/
def taskOnly : Instr → Bool
  | .jspawn _ _ | .jspawnn _ _ _ | .jcont _ _ => true
  | _ => false

/-- Whether a hart executes an instruction at all, as far as its core kind, its task and the floating-point unit's state decide: one
that is illegal on it computes nothing (R154, R349). -/
def Hart.executes (h : Hart) (i : Instr) : Bool :=
  (h.isVc || !vcOnly i) && (h.ownTask.isSome || !taskOnly i)
    && (match i with | .fpScalar _ _ => bitsAt h.csr.mstatus.toNat 13 2 != 0 | _ => true)

/-- The classes in which a residue mismatch of the instruction with bits w can be reported. -/
def Hart.residueClasses (h : Hart) (w : Nat) : List Nat :=
  match decode w with
  | .ok (.row i) =>
    if !h.executes i then []
    else (if unchecked i then [] else instrClasses i) ++ (if h.transfers i then [dcAddr] else [])
  | .ok (.base b _) => baseClasses b
  | .error _ => []

/-- The active lanes of a vector core in ascending order (R200). -/
def Vec.activeLanes (v : Vec) : List Nat := (List.range 32).filter fun i => v.lanes.getLsbD i
/-- The primaries under PROT: the lower half of the active lanes (R357). -/
def Vec.primaries (v : Vec) : List Nat := v.activeLanes.take (v.activeLanes.length / 2)
/-- The mirrors under PROT, the highest lane idle where the number is odd (R357). -/
def Vec.mirrors (v : Vec) : List Nat := (v.activeLanes.drop (v.activeLanes.length / 2)).take (v.activeLanes.length / 2)
/-- Whether a mirror computes what a primary computes (R357). -/
def Vec.mirrored (v : Vec) (lane mlane : Nat) : Bool := (v.primaries.zip v.mirrors).contains (lane, mlane)

/-- Whether a vector instruction computes at an element: at the active ones, at the one that a reduction writes, at the number of a
block whose scale it makes, and at 0 for a result in an x register (R207, R236, R248, R250, R251). With `results`, those count too that
it writes without arithmetic: what `vcompress` gathers, and the value of a reduction that no element enters (R247, R249, R358). -/
def Vec.computes (v : Vec) (i : Instr) (o : VOp) (elem : Nat) (results : Bool) : Bool :=
  v.active o.km elem || (decide (elem < v.vl) &&
    match i with
    | .vredsum _ | .vredmax _ | .vdot _ | .vredbs _ => elem == 0 && (results || !(v.actives o.km).isEmpty)
    | .vbscale _ => (v.actives o.km).any fun k => k / (o.vs3.toNat + 1) == elem
    | .vcompress _ => results && decide (elem < (v.actives o.km).length)
    | .vext _ | .kpop _ | .kffs _ => elem == 0
    | _ => false)

/-- Whether an element index can be that of a mismatching element (R351, R354): one that a vector instruction computes at, 0 for a
scalar one. With `steps`, every one below vl of an instruction that moves a stream, whose stride steps past inactive elements too
(R210, R211, R349); with `results`, the elements that it writes without arithmetic too (R358). DEDUCED, log 117. -/
def Hart.elemOk (h : Hart) (w elem : Nat) (steps results : Bool) : Bool :=
  match decode w with
  | .ok (.row i) =>
    (match i.vrow with
     | some (_, o) => h.vec.computes i o elem results || (steps && h.transfers i && decide (elem < h.vec.vl))
     | none => elem == 0)
  | _ => elem == 0

/-- The lanes that compute: the active ones; under PROT the primaries and their mirrors (R200, R357). -/
def Vec.computing (v : Vec) : List Nat := if v.prot then v.primaries ++ v.mirrors else v.activeLanes

/-- Whether the hart whose turn it is can meet this residue mismatch at the instruction with bits w: in a class of the
instruction, at an element it computes, and where a lane is named, in a lane that computes (R172, R349, R354). -/
def State.residueOk (s : State) (w dclass elem : Nat) (lane : Option Nat) : Bool :=
  (s.cpu.residueClasses w).contains dclass && s.cpu.elemOk w elem (dclass == dcAddr) false
    && (match lane with | some l => w % 64 == 0x1F && s.cpu.vec.computing.contains l | none => true)

end Sys2Proof.Machine
end

