-- ==== Sys2Proof/Machine/VecMem.lean ====
section
/-! DEFINITION. The vector loads and stores, classes 4 and 5 (R216 to R220). -/

namespace Sys2Proof.Machine

/-- How the plain loads and stores place their elements (R217). -/
inductive AddrForm where
  | unit | stride | index
deriving DecidableEq, Repr

/-- The index operand of a form. -/
def AddrForm.srcs (f : AddrForm) (o : VOp) : List Opnd := match f with | .index => [.group o.vs2.toNat] | _ => []

/-- The base address. -/
def baseOf (o : VOp) (h : Hart) : Word := h.xr (BitVec.ofNat 5 o.vs1.toNat)
/-- The x register at VS2. -/
def secondX (o : VOp) : Reg := BitVec.ofNat 5 o.vs2.toNat

/-- The address of element i, `b` bytes in memory, with index bits `ix` (R217). -/
def AddrForm.addr (f : AddrForm) (o : VOp) (h : Hart) (b i ix : Nat) : Word :=
  match f with
  | .unit => baseOf o h + BitVec.ofNat 64 (i * b)
  | .stride => baseOf o h + BitVec.ofNat 64 i * h.xr (secondX o)
  | .index => baseOf o h + sextWord h.vec.ew ix

/-- Whether a poisoned value is part of an address (R363). -/
def AddrForm.psn (f : AddrForm) (o : VOp) (h : Hart) (act : List Nat) (ix : List El) : Bool :=
  h.xPoisoned (BitVec.ofNat 5 o.vs1.toNat) || (f == .stride && h.xPoisoned (secondX o))
    || (f == .index && act.any fun i => (ix.getD i (0, false)).2)

/-- Checked pieces of an element. -/
abbrev Pieces := List (Nat × Nat × Word)

/-- Checks elements in ascending order before anything takes effect (R216). -/
def checkElems (acc : Acc) (b : Nat) : List (Nat × Word) → M (List (Nat × Pieces))
  | [] => return []
  | p :: r => do
    let ps ← checkParts acc false (some p.1) (parts p.2 b)
    let rest ← checkElems acc b r
    return (p.1, ps) :: rest

/-- Reads checked elements in ascending order. -/
def readElems : List (Nat × Pieces) → M (List (Nat × El))
  | [] => return []
  | p :: r => do
    let e ← readElem (some p.1) p.2
    let rest ← readElems r
    return (p.1, e) :: rest

/-- Enters the bytes of a number at checked pieces into the strip buffer. -/
def storePieces (val : Nat) (bad : Bool) (elem : Nat) : Pieces → M Unit
  | [] => pure ()
  | p :: r => do
    putStore p.1 (bytesOf p.2.1 val) (← cpu).vec.scope bad p.2.2 elem
    storePieces (val / 2 ^ (8 * p.2.1)) bad elem r

/-- The checks every vector load and store begins with; the rest runs where vl is not zero (R205). A load whose pushed bytes are
all gathered only goes on closing its messages. -/
def memVec (o : VOp) (cfg : Vec → Bool) (body : Hart → M Unit) : M Unit := do
  onVc
  vbadCheck
  let h ← cpu
  need (cfg h.vec && h.vec.keysOk o.km false)
  if h.vec.vl = 0 then pure ()
  else if h.doneTo == allPushed then closeFull o.vd.toNat closeFuel
  else body h

/-- The configuration of a plain load or store. -/
def AddrForm.cfg (f : AddrForm) (o : VOp) (v : Vec) : Bool :=
  v.fmtOk o.fmt.toNat && v.groupOk o.vd.toNat && (f != .index || v.groupOk o.vs2.toNat)

/-- Ends a load: its elements are written, its pops take effect, and the messages that its pushes fill are closed. -/
def loadDest (ctr : Word) (reg : Nat) (es : List (Nat × El)) (got : List Gotten) : M Unit := do
  writeDests ctr [(reg, es)]
  modify fun s => (gottenPops got).foldl State.popTake s
  closeFull reg closeFuel

/-- A plain vector load (R216, R217): every element is checked and read, then widened and written. Where VD is bound to a sink, the
sink's own checks, the end of its pattern and its store faults, come before the load's elements (DESIGN CHOICE, log 110). -/
def loadVec (o : VOp) (f : AddrForm) : M Unit :=
  memVec o (f.cfg o) fun h => do
    let v := h.vec
    let idx := v.actives o.km
    let act (_ i : Nat) : Bool := v.active o.km i
    let b := v.fmtB o.fmt.toNat
    destUse o.vd.toNat
    let r : List Gotten × List (Nat × El) ← checked h.rngctr do
      let got ← readOpnds act 0 (f.srcs o) []
      destCheck o.vd.toNat idx 0
      let ops ← drawing (widenAll v ⟨act, v.active o.km, 0⟩ 0 got [])
      if f.psn o h idx (ops.getD 0 []) then raisePsn
      else do
        let ps ← checkElems .load b (idx.map fun i => (i, f.addr o h b i (opAt ops 0 i).1))
        return (got, ← readElems ps)
    consume (r.2.any (fun e => e.2.2) || v.keyBadAny o.km)
    let es ← drawing (r.2.mapM fun e => do
      return (e.1, ← drawn (v.widen o.fmt.toNat e.2.1) (e.2.2 || v.keyBadAt o.km e.1)))
    loadDest h.rngctr o.vd.toNat es r.1

/-- A plain vector store (R216, R217): every element is checked, then narrowed and entered into the strip buffer. What the pop of a
source raises comes before the store's own faults (DESIGN CHOICE, log 110). -/
def storeVec (o : VOp) (f : AddrForm) : M Unit :=
  memVec o (f.cfg o) fun h => do
    let v := h.vec
    let idx := v.actives o.km
    let act (_ i : Nat) : Bool := v.active o.km i
    let b := v.fmtB o.fmt.toNat
    let r : List Gotten × List (List El) × List (Nat × Pieces) ← checked h.rngctr do
      let got ← readOpnds act 0 (.group o.vd.toNat :: f.srcs o) []
      let ops ← drawing (widenAll v ⟨act, v.active o.km, 0⟩ 0 got [])
      if f.psn o h idx (ops.getD 1 []) then raisePsn
      else do
        let ps ← checkElems .store b (idx.map fun i => (i, f.addr o h b i (opAt ops 1 i).1))
        return (got, ops, ps)
    let tab := h.ovfSpoils o.fmt.toNat && !idx.isEmpty
    consume (anyBad act r.2.1 || v.keyBadAny o.km || tab)
    let raw ← drawing (r.2.2.mapM fun p => do
      let e := opAt r.2.1 0 p.1
      return (p, ← drawn (v.narrowStore h.ovf o.fmt.toNat e.1) (e.2 || tab)))
    storeAll h.rngctr (fun i =>
      match raw.find? fun e => e.1.1 == i with
      | some e => storePieces e.2.1 e.2.2 i e.1.2
      | none => pure ()) idx
    modify fun s => (gottenPops r.1).foldl State.popTake s

/-- vld (R217). -/
def execVld (o : VOp) (s : State) : Host.Outcome State Fault Refusal := instr (.vld o) (loadVec o .unit) s
/-- vlds (R217). -/
def execVlds (o : VOp) (s : State) : Host.Outcome State Fault Refusal := instr (.vlds o) (loadVec o .stride) s
/-- vldx (R217). -/
def execVldx (o : VOp) (s : State) : Host.Outcome State Fault Refusal := instr (.vldx o) (loadVec o .index) s
/-- vst (R217). -/
def execVst (o : VOp) (s : State) : Host.Outcome State Fault Refusal := instr (.vst o) (storeVec o .unit) s
/-- vsts (R217). -/
def execVsts (o : VOp) (s : State) : Host.Outcome State Fault Refusal := instr (.vsts o) (storeVec o .stride) s
/-- vstx (R217). -/
def execVstx (o : VOp) (s : State) : Host.Outcome State Fault Refusal := instr (.vstx o) (storeVec o .index) s

/-! ### Block-scaled loads and stores (R218) -/

/-- The configuration of a block-scaled load or store. -/
def blockCfg (o : VOp) (v : Vec) : Bool := v.blockOk o.fmt.toNat && v.groupOk o.vd.toNat

/-- Checks scales and elements in one ascending pass: the scale of a block before its first active element. Each entry is an
element with its pieces and, where it begins a block, the scale's. A fault on a scale names that element (DESIGN CHOICE, log 111). -/
def checkBlocks (acc : Acc) (o : VOp) (h : Hart) (b len : Nat) (last : Option Nat) :
    List Nat → M (List (Nat × Option Pieces × Pieces))
  | [] => return []
  | i :: r => do
    let k := i / len
    let sc : Option Pieces ←
      if last == some k then pure none
      else do
        let p ← checkParts acc false (some i) (parts (h.xr (secondX o) + BitVec.ofNat 64 k) 1)
        pure (some p)
    let ps ← checkParts acc false (some i) (parts (baseOf o h + BitVec.ofNat 64 (i * b)) b)
    let rest ← checkBlocks acc o h b len (some k) r
    return (i, sc, ps) :: rest

/-- Reads what `checkBlocks` has checked: element, its scale byte, and its bits. -/
def readBlocks (scale : El) : List (Nat × Option Pieces × Pieces) → M (List (Nat × El × El))
  | [] => return []
  | p :: r => do
    let sc ← match p.2.1 with
      | some q => readElem (some p.1) q
      | none => pure scale
    let e ← readElem (some p.1) p.2.2
    let rest ← readBlocks sc r
    return (p.1, sc, e) :: rest

/-- The value of one component of a memory format, integers as integers (R218). -/
def blockVal (code raw : Nat) : FV :=
  match code with
  | 5 | 7 => .ofInt (signedOf 8 raw)
  | 6 | 8 => .ofInt (signedOf 16 raw)
  | _ => memVal code raw

/-- Bits of one component in memory of a complex integer format. -/
def partBits (code : Nat) : Nat := if code = 7 then 8 else 16

/-- A loaded element times its block's scale, rounded once per component and never flushed (R218). -/
def Vec.blockLoad (v : Vec) (code scale raw : Nat) : Draw Nat :=
  let f := if complexCode code then v.fmtC else v.fmtT
  let part (x : FV) : Draw Nat :=
    if scale = 255 then pure f.nanBits
    else roundD fun u => f.round v.rm u false (x.scale ((scale : Int) - 127))
  if complexCode code then do
    let re ← part (blockVal code (raw % 2 ^ partBits code))
    let im ← part (blockVal code (raw / 2 ^ partBits code))
    return re + im * 2 ^ (v.ew / 2)
  else part (blockVal code raw)

/-- vldbs (R218). -/
def execVldbs (o : VOp) (s : State) : Host.Outcome State Fault Refusal :=
  instr (.vldbs o) (memVec o (blockCfg o) fun h => do
    let v := h.vec
    let idx := v.actives o.km
    let b := v.fmtB o.fmt.toNat
    destUse o.vd.toNat
    let r ← checked h.rngctr do
      destCheck o.vd.toNat idx 0
      if h.xPoisoned (BitVec.ofNat 5 o.vs1.toNat) || h.xPoisoned (secondX o) then raisePsn
      else readBlocks (0, false) (← checkBlocks .load o h b (o.vs3.toNat + 1) none idx)
    consume (r.any (fun e => e.2.1.2 || e.2.2.2) || v.keyBadAny o.km)
    let es ← drawing (r.mapM fun e => do
      return (e.1, ← drawn (v.blockLoad o.fmt.toNat (e.2.1.1 % 256) e.2.2.1) (e.2.1.2 || e.2.2.2 || v.keyBadAt o.km e.1)))
    loadDest h.rngctr o.vd.toNat es []) s

/-- One component of a block-scaled element (R143, R144): x / 2^(code − 127) narrowed; under scale 0xFF its overflow-table
value with its own sign, canonical NaN for a NaN, 0 in an integer format. -/
def blockPart (v : Vec) (ovf : BitVec 32) (fmt scale : Nat) (x : FV) (neg : Bool) : Draw Nat :=
  if scale = 255 then
    match fmtCode fmt with
    | some f => pure (if x.isNan then f.nanBits else f.ovfBits (ovfEntry ovf fmt) neg)
    | none => pure 0
  else narrowVal v ovf fmt (x.scale (127 - (scale : Int)))

/-- A stored element of a block. -/
def Vec.blockStore (v : Vec) (ovf : BitVec 32) (fmt scale bits : Nat) : Draw Nat :=
  if complexCode fmt then do
    let c := v.cx bits
    let re ← blockPart v ovf fmt scale c.re c.re.neg?
    let im ← blockPart v ovf fmt scale c.im c.im.neg?
    return re + im * 2 ^ partBits fmt
  else
    let x := v.src bits
    blockPart v ovf fmt scale x x.neg?

/-- vstbs (R218): each block's scale, then its active elements. -/
def execVstbs (o : VOp) (s : State) : Host.Outcome State Fault Refusal :=
  instr (.vstbs o) (memVec o (blockCfg o) fun h => do
    let v := h.vec
    let idx := v.actives o.km
    let act (_ i : Nat) : Bool := v.active o.km i
    let code := o.fmt.toNat
    let b := v.fmtB code
    let len := o.vs3.toNat + 1
    let r : List Gotten × List (List El) × List (Nat × Option Pieces × Pieces) ← checked h.rngctr do
      let got ← readOpnds act 0 [.group o.vd.toNat] []
      let ops ← drawing (widenAll v ⟨act, v.active o.km, 0⟩ 0 got [])
      if h.xPoisoned (BitVec.ofNat 5 o.vs1.toNat) || h.xPoisoned (secondX o) then raisePsn
      else return (got, ops, ← checkBlocks .store o h b len none idx)
    let ops := r.2.1
    let tab := h.ovfSpoils code && !idx.isEmpty
    consume (anyBad act ops || v.keyBadAny o.km || tab)
    let scaleOf (k : Nat) : Nat :=
      blockCode code ((blockElems v o.km len k).flatMap fun i => v.blockParts code (opAt ops 0 i).1)
    let badIn (k : Nat) : Bool := (blockElems v o.km len k).any fun i => (opAt ops 0 i).2
    let raw ← drawing (r.2.2.mapM fun p => do
      return (p, ← drawn (v.blockStore h.ovf code (scaleOf (p.1 / len)) (opAt ops 0 p.1).1) (badIn (p.1 / len) || tab)))
    storeAll h.rngctr (fun i =>
      match raw.find? fun e => e.1.1 == i with
      | some e => do
        match e.1.2.1 with
        | some q => storePieces (scaleOf (i / len)) (badIn (i / len)) i q
        | none => pure ()
        storePieces e.2.1 e.2.2 i e.1.2.2
      | none => pure ()) idx
    modify fun s => (gottenPops r.1).foldl State.popTake s) s

/-! ### Key moves (R219) -/

/-- The configuration of a key move. -/
def keyMoveCfg (o : VOp) (v : Vec) : Bool := v.keysOk o.km true

/-- The bytes of a key move that hold an active element, each with its first active element: that one is `sfinfo.ELEM` where the
byte faults, which the spec does not say (R216, R219; DESIGN CHOICE, log 111). -/
def keyBytes (idx : List Nat) : List (Nat × Nat) :=
  (idx.foldl (fun l i => addSorted (i / 8) l) []).map fun j => (((idx.filter fun i => i / 8 == j).headD 0), j)

/-- Checks the bytes of a key move. -/
def checkKey (acc : Acc) (o : VOp) (h : Hart) : List (Nat × Nat) → M (List (Nat × Nat × Pieces))
  | [] => return []
  | p :: r => do
    let ps ← checkParts acc false (some p.1) (parts (baseOf o h + BitVec.ofNat 64 p.2) 1)
    let rest ← checkKey acc o h r
    return (p.1, p.2, ps) :: rest

/-- Reads the bytes of a key move: byte number and value. -/
def readKey : List (Nat × Nat × Pieces) → M (List (Nat × El))
  | [] => return []
  | p :: r => do
    let e ← readElem (some p.1) p.2.2
    let rest ← readKey r
    return (p.2.1, e) :: rest

/-- vldk (R219). -/
def execVldk (o : VOp) (s : State) : Host.Outcome State Fault Refusal :=
  instr (.vldk o) (memVec o (keyMoveCfg o) fun h => do
    let v := h.vec
    let idx := v.actives o.km
    if h.xPoisoned (BitVec.ofNat 5 o.vs1.toNat) then raisePsn
    let bs ← readKey (← checkKey .load o h (keyBytes idx))
    let byteOf (i : Nat) : El := match bs.find? fun e => e.1 == i / 8 with | some e => e.2 | none => (0, false)
    consume ((bs.any fun e => e.2.2) || v.keyBadAny o.km)
    modVec fun v => v.setKeyBits (o.vd.toNat % 8)
      (idx.map fun i => (i, bitAt (byteOf i).1 (i % 8), (byteOf i).2 || v.keyBadAt o.km i))) s

/-- Byte j of a stored key: bits at or beyond vl are 0 (R219). -/
def Vec.keyByte (v : Vec) (k j : Nat) : Nat :=
  (List.range 8).foldl (fun t b => t + 2 ^ b * b2n (decide (8 * j + b < v.vl) && v.keyBit k (8 * j + b))) 0

/-- vstk (R219). -/
def execVstk (o : VOp) (s : State) : Host.Outcome State Fault Refusal :=
  instr (.vstk o) (memVec o (keyMoveCfg o) fun h => do
    let v := h.vec
    if h.xPoisoned (BitVec.ofNat 5 o.vs1.toNat) then raisePsn
    let ps ← checkKey .store o h (keyBytes (v.actives o.km))
    let bad (j : Nat) : Bool := v.kpoison.contains (32 * o.vd.toNat + j / 8)
    consume ((ps.any fun p => bad p.2.1) || v.keyBadAny o.km)
    storeAll h.rngctr (fun i =>
      match ps.find? fun p => p.1 == i with
      | some p => storePieces (v.keyByte o.vd.toNat p.2.1) (bad p.2.1) i p.2.2
      | none => pure ()) (ps.map Prod.fst)) s

/-! ### vamo (R220) -/

/-- The result of an atomic operation of code `op` on the old value and the operand, w bits wide. -/
def vamoResult (op w old d : Nat) : Nat :=
  match op with
  | 0 => (old + d) % 2 ^ w
  | 1 => d
  | 2 => old &&& d
  | 3 => old ||| d
  | 4 => old ^^^ d
  | 5 => if signedOf w old ≤ signedOf w d then old else d
  | 6 => if signedOf w old ≤ signedOf w d then d else old
  | 7 => min old d
  | _ => max old d

/-- The checks of one element of `vamo`: alignment, translation, region; its physical address. -/
def vamoCheck (i b : Nat) (a : Word) : M Nat := do
  if a.toNat % b ≠ 0 then raiseAt 6 a (some i)
  else do
    let x ← translate .store a (some i)
    let s ← get
    match regionOf x.pa with
    | .lpddr => do
      asks x b
      return x.pa
    | .csram c k _ =>
      let m := s.bank c k
      if m.busy.isSome then waitFor (.modeChange (c * 32 + k)) a i
      else if m.mode == modeScratch then return x.pa else raiseAt 7 a (some i)
    | _ => raiseAt 7 a (some i)

/-- Checks every element of `vamo` in ascending order. -/
def vamoChecks (b : Nat) : List (Nat × Word) → M (List (Nat × Nat))
  | [] => return []
  | p :: r => do
    let pa ← vamoCheck p.1 b p.2
    let rest ← vamoChecks b r
    return (p.1, pa) :: rest

/-- Where a mismatch stops `vamo`: the first element that is not performed, and the first that is not translated, if not all are
(R350, R352). -/
structure VamoStop where
  op : Nat
  check : Option Nat
deriving DecidableEq, Repr

/-- The body of `vamo` (R220, R352): a commit, every check, then the element operations in ascending order, but for those
an earlier execution has performed. With `stop` it ends where a mismatch keeps an element from its write, or from its translation. -/
def vamoBody (o : VOp) (stop : Option VamoStop) : M Unit := do
    onVc
    vbadCheck
    let v := (← cpu).vec
    need (v.ewB != 2 && v.groupOk o.vd.toNat && v.groupOk o.vs2.toNat && v.keysOk o.km false)
    commitPoint
    let h ← cpu
    if v.vl = 0 then pure ()
    else do
      let start := h.doneTo
      let idx := (v.actives o.km).filter (start ≤ ·)
      let act (_ i : Nat) : Bool := v.active o.km i
      destUse o.vd.toNat
      let r : List Gotten × List (List El) × List (Nat × Nat) ← checked h.rngctr do
        let got ← readOpnds act 0 [.group o.vs2.toNat, .group o.vd.toNat] []
        let ops ← drawing (widenAll v ⟨act, v.active o.km, 0⟩ 0 got [])
        if AddrForm.psn .index o h idx (ops.getD 0 []) then raisePsn
        else
          let seen := match stop.bind VamoStop.check with | some k => idx.filter (· < k) | none => idx
          return (got, ops, ← vamoChecks v.ewB (seen.map fun i => (i, baseOf o h + sextWord v.ew (opAt ops 0 i).1)))
      consume (anyBad act r.2.1 || v.keyBadAny o.km)
      (r.2.2.filter fun p => match stop with | some k => decide (p.1 < k.op) | none => true).forM fun p => do
        let s ← get
        let old := ofBytes (memBytes s.mem p.2 v.ewB)
        let bad := s.poisonedAt p.2 v.ewB
        let d := opAt r.2.1 1 p.1
        set (s.visWrite (some h.num) p.2 (bytesOf v.ewB (vamoResult o.vs3.toNat v.ew old d.1)) (bad || d.2))
        consume bad
        modVec fun w => w.setElem o.vd.toNat p.1 (old, bad || v.keyBadAt o.km p.1)
      match stop with
      | some k => do
        modCpu (·.setDone (max start k.op))
        throw .ended
      | none => do
        modCpu (·.clearDone)
        modify fun s => (gottenPops r.1).foldl State.popTake s

/-- vamo (R220). -/
def execVamo (o : VOp) (s : State) : Host.Outcome State Fault Refusal := instr (.vamo o) (vamoBody o none) s

end Sys2Proof.Machine
end

