-- ==== Sys2Proof/Machine/Integrity.lean ====
section
/-! DEFINITION. Datapath and storage integrity: residue and mirror mismatches of a core, and the events of the ECC codes
(R349 to R369, R390). -/

namespace Sys2Proof.Machine

/-! ### Mismatches (R351, R352, R358) -/

/-- The unit that executes an instruction, as SRC of the records names it (R354). -/
def execSrc (h : Hart) (w : Nat) : Nat := if w % 64 = 0x1F then 0 else if h.isVc then 1 else 2

/-- RREPLAY of `chkint`, and the charge of a replay or re-execution (R197, R370). -/
def State.noteReplay (s : State) : State :=
  let d := s.hartDomain s.cpu.num
  { s with cpu := { s.cpu with chkint := s.cpu.chkint ||| 4 } }.charge d.1 0 d.2

/-- The machine check of a third mismatch. -/
def mismatchExc (cause src elem dclass : Nat) (lane : Option Nat) (mlane : Nat) : Exc :=
  ⟨cause, 0, some elem, true, some ⟨false, src, dclass, lane, 3, mlane, none, none⟩⟩

/-- A mismatch at the instruction with bits w: an opened strip is replayed, any other instruction executes again, twice at
most; the third raises the machine check. DEDUCED, log 87. -/
def State.mismatch (s : State) (w cause elem dclass : Nat) (lane : Option Nat) (mlane : Nat) : State :=
  let src := execSrc s.cpu w
  let elem := if src = 0 then elem else 0
  let e := mismatchExc cause src elem dclass (if src = 0 then lane else none) mlane
  if s.cpu.vec.strip.isSome then
    let n := s.cpu.vec.attempt
    if n < 3 then
      let s := s.noteReplay.rewindFor .residue elem 48
      { s with cpu := { s.cpu with vec := { s.cpu.vec with attempt := n + 1 } } }
    else s.takeTrap e w
  else if s.cpu.attempts < 2 then
    let s := s.noteReplay
    { s with cpu := { s.cpu with attempts := s.cpu.attempts + 1 } }
  else s.takeTrap e w

/-- The instruction that the hart whose turn it is executes: its bits. -/
def State.current (s : State) : Option Nat :=
  if s.cpu.runs then
    match s.fetch with
    | .bits w _ _ => some w
    | _ => none
  else none

/-- The elements of a `vamo` below a mismatching one are performed, and its commit with them (R352); what the attempt ends
in otherwise is that instead. An address that mismatches is not translated, nor any after it (R350). -/
def State.partVamo (s : State) (w : Nat) (k : VamoStop) (next : State → State) : State :=
  match decode w with
  | .ok (.row (.vamo o)) =>
    let r := (vamoBody o (some k)).run.run s
    (match r.1 with
     | .error .ended => if r.2.cpu.run = s.cpu.run then next r.2 else r.2
     | .ok _ => next s
     | _ => match finish (BitVec.ofNat 64 w) r with | .next t => t | _ => s)
  | _ => next s

/-- RESIDUE_MISMATCH (R172, R349, R351, R352): one that the instruction's datapaths can show. -/
def execResidueMismatch (dclass : BitVec 2) (elem : BitVec 16) (lane : Option (BitVec 5)) (s : State) :
    Host.Outcome State Fault Refusal :=
  happens (fun s =>
    match s.current with
    | none => s
    | some w =>
      if s.residueOk w dclass.toNat elem.toNat (lane.map (·.toNat)) then
        s.partVamo w (if dclass = 1 then ⟨elem.toNat, none⟩ else ⟨0, some elem.toNat⟩) fun s =>
          s.mismatch w 48 elem.toNat dclass.toNat (lane.map (·.toNat)) 0
      else s) s

/-- MIRROR_MISMATCH (R357, R358): under PROT, at a vector instruction, in a primary and its mirror. -/
def execMirrorMismatch (elem : BitVec 16) (lane mlane : BitVec 5) (s : State) : Host.Outcome State Fault Refusal :=
  happens (fun s =>
    match s.current with
    | none => s
    | some w =>
      if s.cpu.isVc && s.cpu.vec.prot && w % 64 == 0x1F && s.cpu.vec.mirrored lane.toNat mlane.toNat && s.cpu.elemOk w elem.toNat false true then
        s.partVamo w ⟨elem.toNat, none⟩ fun s => s.mismatch w 49 elem.toNat 0 (some lane.toNat) mlane.toNat
      else s) s

/-! ### ECC (R359 to R361, R365, R366, R390) -/

/-- Offset of LHSTAT of a vector core (R366). -/
def lhOff (h : Hart) : Nat := powerBlock + 0x1000 + (16 * h.cluster + h.vcIdx) * 0x10

/-- CORR of the context that consumes corrected data (R197, R360). -/
def State.corrected (s : State) : State := { s with cpu := { s.cpu with chkint := s.cpu.chkint ||| 8 } }

/-- A corrected error in a lane's slice (R366): CE counts it; PER sets where the word was corrected before. -/
def State.laneCorrected (s : State) (lane reg byte : Nat) : State :=
  let h := s.cpu
  let key := vecKey reg byte / 4
  let cnt := (s.mmioGet (lhOff h + 8) 0).toNat
  let s := s.mmioSet (lhOff h + 8) 0 (BitVec.ofNat 64 (min (cnt + 1) 0xFFFFFFFF))
  let s := if h.eccSeen.contains key then
      s.mmioSet (lhOff h) 0 (s.mmioGet (lhOff h) 0 ||| ((1 : Word) <<< lane))
    else { s with cpu := { h with eccSeen := addSorted key h.eccSeen } }
  s.corrected

/-- The oldest unfinished command of a context. -/
def State.oldestCmd (s : State) (n ctx : Nat) : Option Cmd :=
  s.cmds.find? fun (c : Cmd) => c.hart == n && c.ctx == ctx && (c.state != .finished)

/-- Whether a command reads the bytes it carries: a codec command, and a copy with a transform; any other copy moves them unread
(R362). -/
def Cmd.consumes (c : Cmd) : Bool := c.ctx == 3 || transforms c.words

/-- A corrected error in the buffers of a context's oldest unfinished command (R359, R360): CORR reaches the context with the
command that consumes the data. -/
def State.commandCorrected (s : State) (n ctx : Nat) : State :=
  match s.oldestCmd n ctx with
  | some c => if c.consumes then s.putCmd { c with corrected := true } else s
  | none => s

/-- ECC_CORRECTED (R359, R360, R366). What no context consumes sets no CORR. DESIGN CHOICE, log 88. -/
def execEccCorrected (loc : EccLoc) (s : State) : Host.Outcome State Fault Refusal :=
  happens (fun s =>
    match loc with
    | .vecLane lane reg byte => if s.cpu.isVc then s.laneCorrected lane.toNat reg.toNat byte else s
    | .xReg _ | .fReg _ | .keyReg _ _ | .csr _ | .accElem _ _ _ | .refetched _ | .sector _ | .l2Entry _ | .buffered _ => s.corrected
    | .command n ctx _ => s.commandCorrected n ctx
    | .l2Tag | .dquEntry | .rcbCopy | .leaseTable | .faultPtr | .frame _ _ => s) s

/-- Poisons a sector of memory. -/
def State.poisonSector (s : State) (k : Nat) : State := { s with poison := addSorted k s.poison }

/-- An uncorrectable error in an L2 data entry (R365): every line whose tag points to it reads the sector as poisoned. -/
def State.poisonEntry (s : State) (pa : Nat) : State :=
  match s.l2.tagOf (pa / 128) with
  | none => s
  | some t =>
    let bad (e : L2Entry) : L2Entry := if e.id = t.entry then { e with poisoned := true } else e
    let l := { s.l2 with entries := s.l2.entries.map bad }
    let lines := (s.l2.tags.filter (·.entry == t.entry)).map (·.line)
    lines.foldl (fun s n => s.poisonSector (2 * n + pa / 64 % 2)) { s with l2 := l }

/-- Poisons the element of a vector register that holds an image byte, and sets the lane's UE (R359, R366). -/
def State.laneLost (s : State) (lane reg byte : Nat) : State :=
  let h := s.cpu
  let b := byte - byte % h.vec.ewB
  let new := (List.range h.vec.ewB).map (vecKey reg b + ·)
  let s := s.mmioSet (lhOff h) 0 (s.mmioGet (lhOff h) 0 ||| ((1 : Word) <<< (32 + lane)))
  { s with cpu := { h with vec := { h.vec with vpoison := new ++ h.vec.vpoison.filter fun k => !(new.contains k) } } }

/-- Poisons a sector of the strip buffer, if a store in it touches the sector (R359). -/
def State.poisonBuffered (s : State) (k : Nat) : State :=
  if (bufSectors s.cpu.buf).contains k then { s with cpu := { s.cpu with buf := .mark k :: s.cpu.buf } } else s

/-- A byte is lost that the oldest unfinished command of a context carries in its engine's buffers (R359): of a PARTIAL command they
hold its miss list (R264, R363). DESIGN CHOICE, log 118. -/
def State.commandLost (s : State) (n ctx byte : Nat) : State :=
  match s.oldestCmd n ctx with
  | some c => s.putCmd (if c.state == .partly then { c with missBad := true } else { c with lost := addSorted byte c.lost })
  | none => s

/-- ECC_UNCORRECTABLE (R359): poison, or a fatal event with its source (R390). -/
def execEccUncorrectable (loc : EccLoc) (s : State) : Host.Outcome State Fault Refusal :=
  happens (fun s =>
    match loc with
    | .vecLane lane reg byte => if s.cpu.isVc then s.laneLost lane.toNat reg.toNat byte else s
    | .xReg r => { s with cpu := s.cpu.poisonX r true }
    | .fReg r => { s with cpu := { s.cpu with fpoison := s.cpu.fpoison ||| ((1 : BitVec 32) <<< r.toNat) } }
    | .keyReg k g =>
      let v := s.cpu.vec
      { s with cpu := { s.cpu with vec := { v with kpoison := addSorted (32 * k.toNat + g.toNat) v.kpoison } } }
    | .csr n => { s with cpu := s.cpu.csrSpoil n.toNat true }
    | .accElem cl row idx =>
      let w := s.row cl row
      s.setRow cl row { w with apoison := addSorted idx w.apoison }
    | .refetched va => (s.evictTlb s.cpu.num va).corrected
    | .sector pa =>
      match regionOf pa with
      | .lpddr | .csram _ _ _ => s.poisonSector (sectorOf pa)
      | _ => s
    | .l2Entry pa => s.poisonEntry pa
    | .buffered k => s.poisonBuffered k
    | .command n ctx byte => s.commandLost n ctx byte
    | .frame p sending => { s with ports := { s.ports with fhLost := addSorted (2 * p + b2n sending) s.ports.fhLost } }
    | .l2Tag => s.fatal 1
    | .dquEntry => s.fatal 2
    | .rcbCopy => s.fatal 3
    | .leaseTable => s.fatal 4
    | .faultPtr => s.fatal 5) s

/-- PATROL_SCRUB (R360): corrected content is what it was. -/
def execPatrolScrub (s : State) : Host.Outcome State Fault Refusal := happens (fun s => s) s

end Sys2Proof.Machine
end

