-- ==== Sys2Proof/Machine/Latch.lean ====
section
/-! DEFINITION. The latch instructions (R86, R115, R187). -/

namespace Sys2Proof.Machine

/-- The checks of a latch instruction of n bytes, in the order of R187, after its commit point: the word's bank and number,
and the address within the bank. -/
def latchTarget (va : Word) (n : Nat) (load : Bool) : M (Nat × Nat × Nat) := do
  if va.toNat % n ≠ 0 then raise (if load then 4 else 6) va
  commitPoint
  let x ← translate (if load then .load else .store) va none
  let s ← get
  match regionOf x.pa with
  | .csram c b off =>
    let k := s.bank c b
    if k.busy.isSome then waitFor (.latch (x.pa - x.pa % 8) !load) va 0
    else if k.mode != modeLatch then raise (if load then 5 else 7) va
    else return (c, b, off)
  | _ => raise (if load then 5 else 7) va

/-- A latch load of n bytes: it waits for a full word; a consuming one empties it (R86). -/
def latchLoad (rd rs1 : Reg) (n : Nat) (consuming : Bool) : M Unit := do
  let va ← useX rs1
  let t ← latchTarget va n true
  let s ← get
  let k := s.bank t.1 t.2.1
  let pa := bankAddr t.1 t.2.1 t.2.2
  if !k.isFull (t.2.2 / 8) then waitFor (.latch (pa - pa % 8) false) (va - BitVec.ofNat 64 (va.toNat % 8)) 0
  let bad := s.poisonedAt pa n
  consume bad
  if consuming then modify fun s => s.setWord t.1 t.2.1 (t.2.2 / 8) false
  putXp rd (sextWord (8 * n) (memRead s.mem pa n)) bad

/-- A latch store of n bytes: it waits for an empty word, then fills it (R86). -/
def latchStore (rs2 rs1 : Reg) (n : Nat) : M Unit := do
  let va ← useX rs1
  let t ← latchTarget va n false
  let s ← get
  let k := s.bank t.1 t.2.1
  let pa := bankAddr t.1 t.2.1 t.2.2
  if k.isFull (t.2.2 / 8) then waitFor (.latch (pa - pa % 8) true) (va - BitVec.ofNat 64 (va.toNat % 8)) 0
  let h := s.cpu
  modify fun s => s.visWrite (some h.num) pa (bytesOf n (h.xr rs2).toNat) (h.xPoisoned rs2)
  consume (h.xPoisoned rs2)
  modify fun s => s.setWord t.1 t.2.1 (t.2.2 / 8) true

/-- llw (R187). -/
def execLlw (rd rs1 : Reg) (s : State) : Host.Outcome State Fault Refusal := instr (.llw rd rs1) (latchLoad rd rs1 4 true) s
/-- lld (R187). -/
def execLld (rd rs1 : Reg) (s : State) : Host.Outcome State Fault Refusal := instr (.lld rd rs1) (latchLoad rd rs1 8 true) s
/-- llpw (R187). -/
def execLlpw (rd rs1 : Reg) (s : State) : Host.Outcome State Fault Refusal := instr (.llpw rd rs1) (latchLoad rd rs1 4 false) s
/-- llpd (R187). -/
def execLlpd (rd rs1 : Reg) (s : State) : Host.Outcome State Fault Refusal := instr (.llpd rd rs1) (latchLoad rd rs1 8 false) s
/-- lsw (R187). -/
def execLsw (rs2 rs1 : Reg) (s : State) : Host.Outcome State Fault Refusal := instr (.lsw rs2 rs1) (latchStore rs2 rs1 4) s
/-- lsd (R187). -/
def execLsd (rs2 rs1 : Reg) (s : State) : Host.Outcome State Fault Refusal := instr (.lsd rs2 rs1) (latchStore rs2 rs1 8) s

/-- lclr (R86, R187): the word's full bit clears without a wait. -/
def execLclr (rs1 : Reg) (s : State) : Host.Outcome State Fault Refusal :=
  instr (.lclr rs1) (do
    let va ← useX rs1
    let t ← latchTarget va 8 false
    modify fun s => s.setWord t.1 t.2.1 (t.2.2 / 8) false) s

end Sys2Proof.Machine
end

