-- ==== Sys2Proof/Machine/Platform.lean ====
section
/-! DEFINITION. Steps of the platform: bank modes, the deduplicating L2, beacons, power, start-up and shutdown, the root of
trust, freeze and loss of power (R27 to R29, R84, R95, R98, R310 to R321, R391, R397). -/

namespace Sys2Proof.Machine

/-- MODE_CHANGE_COMPLETE (R84): what stalled on the bank goes on under the new mode. -/
def execModeChangeComplete (cl bank : Nat) (s : State) : Host.Outcome State Fault Refusal :=
  happens (fun s => (s.modeChangeDone cl bank).twinResume) s

/-- L2_COMMAND_COMPLETE (R98). -/
def execL2CommandComplete (s : State) : Host.Outcome State Fault Refusal :=
  happens (fun s => { s with l2 := { s.l2 with busy := false } }) s

/-- A core's line reaches the L2 under the domain of the access that asked for it last (R92, R93, R397): a fill, or the write-back of
a line that a core has stored to. The request is over then. DEDUCED, log 80. -/
def State.lineToL2 (s : State) (line : Nat) (dom : Option (BitVec 12)) (dirty : Bool) : State :=
  if !s.l2.asked.contains (line, dom) || (dirty && !s.l2.stored.contains line) then s
  else
    let t := s.l2Touch line dom dirty
    let t := if dirty then { t with l2 := { t.l2 with stored := t.l2.stored.filter (· != line) } } else t
    t.forget (·.1 == line)

/-- L2_WRITEBACK (R92, R97, R397). -/
def execL2Writeback (line : Nat) (dom : Option (BitVec 12)) (dirty : Bool) (s : State) : Host.Outcome State Fault Refusal :=
  happens (fun s => s.lineToL2 line dom dirty) s
/-- L2_ALLOCATION_TIMEOUT (R95). -/
def execL2AllocationTimeout (line : Nat) (isWrite : Bool) (s : State) : Host.Outcome State Fault Refusal :=
  happens (fun s => s.l2Timeout line isWrite) s

/-- BEACON_RECEIVE (R310). -/
def execBeaconReceive (ctr src : Nat) (s : State) : Host.Outcome State Fault Refusal :=
  happens (fun s => s.beaconArrive ctr src) s

/-- I3C_POWER_CAP_WRITE (R27). -/
def execI3cPowerCapWrite (v : Word) (s : State) : Host.Outcome State Fault Refusal :=
  happens (fun s => { s with power := { s.power with capI3c := capClamp v.toNat } }) s
/-- POWER_CAP_APPLY (R27): the effective cap is the lower of the two. -/
def execPowerCapApply (s : State) : Host.Outcome State Fault Refusal :=
  happens (fun s => { s with power := { s.power with capEff := min s.power.capFw s.power.capI3c } }) s
/-- POWER_WINDOW (R28, R29). -/
def execPowerWindow (watts : Nat) (s : State) : Host.Outcome State Fault Refusal :=
  happens (fun s => s.powerAverage watts) s
/-- GRANT_RAISE (R29). -/
def execGrantRaise (s : State) : Host.Outcome State Fault Refusal := happens (fun s => s.raiseGrants) s

/-- COLD_START_REQUEST (R311, R314): the cold start that RSTREQ asked for. -/
def execColdStartRequest (s : State) : Host.Outcome State Fault Refusal :=
  happens (fun s => if s.power.request = 1 then s.coldStart else s) s
/-- WARM_START_REQUEST (R313): orderly shutdown begins; once every task and command has ended, it completes. -/
def execWarmStartRequest (s : State) : Host.Outcome State Fault Refusal :=
  happens (fun s =>
    if s.power.request = 2 then s.warmRequest
    else if s.power.shutdown && s.drained then s.finishShutdown
    else s) s
/-- SHUTDOWN_DRAIN_TIMEOUT (R313): after 10 ms what still runs takes a forced stop, and shutdown completes. DESIGN CHOICE, log 74. -/
def execShutdownDrainTimeout (s : State) : Host.Outcome State Fault Refusal :=
  happens (fun s => if s.drainLate then s.stopAll.finishShutdown else s) s

/-- Whether the mailbox runs command op (R317). -/
def State.mailRuns (s : State) (op : Nat) : Bool := s.unwene.pending == some op
/-- ATTEST (R317, R318). -/
def execAttest (s : State) : Host.Outcome State Fault Refusal :=
  happens (fun s => if s.mailRuns 1 then s.attest else s) s
/-- LCSET (R319, R320). -/
def execLcset (s : State) : Host.Outcome State Fault Refusal :=
  happens (fun s => if s.mailRuns 2 then s.lcset else s) s
/-- SVNSET (R317). -/
def execSvnset (s : State) : Host.Outcome State Fault Refusal :=
  happens (fun s => if s.mailRuns 3 then s.svnset else s) s
/-- MAILBOX_BADOP (R317): an unassigned operation completes with RESULT 1. -/
def execMailboxBadop (s : State) : Host.Outcome State Fault Refusal :=
  happens (fun s =>
    match s.unwene.pending with
    | some op => if op = 1 ∨ op = 2 ∨ op = 3 then s else s.mailDone 1
    | none => s) s

/-- POWER_ON (R311, R312): a cold start. -/
def execPowerOn (s : State) : Host.Outcome State Fault Refusal :=
  happens (fun s => if s.power.off then s.coldStart else s) s
/-- I3C_COLD_REQUEST (R321, R391). -/
def execI3cColdRequest (s : State) : Host.Outcome State Fault Refusal :=
  happens (fun s => if s.power.off then s else s.coldStart) s
/-- FREEZE (R321): the clocks stop. DESIGN CHOICE, log 98. -/
def execFreeze (s : State) : Host.Outcome State Fault Refusal :=
  happens (fun s => { s with power := { s.power with frozen := true } }) s
/-- POWER_LOSS (R391): all activity ends; the next start finds no ORDERLY record. -/
def execPowerLoss (s : State) : Host.Outcome State Fault Refusal :=
  happens (fun s => { s with power := { s.power with off := true }, unwene := { s.unwene with orderly := none } }) s

end Sys2Proof.Machine
end

