-- ==== Sys2Proof/Machine/RegWrite.lean ====
section
/-! DEFINITION. The rows of the table that are writes of registers: CSRs, MMIO registers, the host port's BAR0, and the
configuration write that enables AtomicOps (R9, R10, R27, R55, R84, R98, R173, R200, R294, R302, R304, R309, R310, R315,
R342, R378, R399). -/

namespace Sys2Proof.Machine

/-- A write of a CSR by the hart whose turn it is, as `csrrw` performs it. DESIGN CHOICE, log 10. -/
def csrWrite (n : Nat) (v : Word) (s : State) : Host.Outcome State Fault Refusal :=
  run 0 (do
    let _ ← csrAccess n true fun _ => v
    if s.csrReplaces n v then modCpu (·.csrClean n)) s

/-- A store of size bytes to an offset of the MMIO region by the hart whose turn it is, performed at once: alignment, the
assigned registers and the store permission are checked as for any store (R32, R34). -/
def mmioWriteBody (off size v : Nat) : M Unit := do
  let s ← get
  let va := BitVec.ofNat 64 (mmioBase + off)
  consume (s.roleBad (mmioBase + off) s.cpu.mode)
  obey (s.storeVerdict true (mmioBase + off) size s.cpu.mode) va none
  if s.mmioReady off then modify (·.mmioStore off size v) else waitFor .credit va 0

/-- The store as a step. -/
def mmioWrite (off size v : Nat) (s : State) : Host.Outcome State Fault Refusal := run 0 (mmioWriteBody off size v) s

/-- Offset of register f of the discipline block of a time counter (R310). -/
def discOff (ctr f : Nat) : Option Nat :=
  if ctr < 16 then some (clBlock ctr + 0x1000 + 8 * f)
  else if ctr = 16 then some (0x800 + 8 * f)
  else if 24 ≤ ctr ∧ ctr < 32 then some (fhBlock (ctr - 24) + 0x1000 + 8 * f)
  else none

/-- A store to a register of a discipline block; a number that names no counter has none. -/
def discWrite (ctr f v : Nat) (s : State) : Host.Outcome State Fault Refusal :=
  match discOff ctr f with
  | some off => mmioWrite off 8 v s
  | none => .next s

/-- VCFG_WRITE (R173). -/
def execVcfgWrite (v : Word) (s : State) : Host.Outcome State Fault Refusal := csrWrite 0x800 v s
/-- LANEMAP_WRITE (R200). -/
def execLanemapWrite (v : Word) (s : State) : Host.Outcome State Fault Refusal := csrWrite 0x7C0 v s
/-- SRVROLE_WRITE (R55). -/
def execSrvroleWrite (v : Word) (s : State) : Host.Outcome State Fault Refusal := csrWrite 0x7C1 v s

/-- REGISTER_WRITE (R9, R10, R294, R302): a CSR, an MMIO register, a store of the host through BAR0, or the host's
configuration of AtomicOps. -/
def execRegisterWrite (t : RegTarget) (v : Word) (s : State) : Host.Outcome State Fault Refusal :=
  match t with
  | .csr n => csrWrite n.toNat v s
  | .mmio off size => mmioWrite off size v.toNat s
  | .bar0 off size => happens (fun s => if s.ports.hostUp then s.bar0Store off size v.toNat else s) s
  | .atomicEnable => happens (fun s => { s with ports := { s.ports with atomicEnable := bitAt v.toNat 0 } }) s

/-- BMODE_WRITE (R84). -/
def execBmodeWrite (cl bank : Nat) (v : Word) (s : State) : Host.Outcome State Fault Refusal :=
  mmioWrite (clBlock cl + 8 * bank) 8 v.toNat s
/-- FQLEVEL_RESET (R399). -/
def execFqlevelReset (cl bank : Nat) (s : State) : Host.Outcome State Fault Refusal :=
  mmioWrite (clBlock cl + 0x408 + 0x10 * bank) 8 (2 ^ 63) s
/-- FLUSHALL (R98). -/
def execFlushall (s : State) : Host.Outcome State Fault Refusal := mmioWrite l2Block 8 1 s
/-- DOMCLR (R98). -/
def execDomclr (dom : BitVec 12) (s : State) : Host.Outcome State Fault Refusal :=
  mmioWrite l2Block 8 (2 + 2 ^ 16 * dom.toNat) s
/-- CLRCNT (R98). -/
def execClrcnt (s : State) : Host.Outcome State Fault Refusal := mmioWrite l2Block 8 3 s
/-- EFWAKE_WRITE (R342). -/
def execEfwakeWrite (cl : Nat) (rows : BitVec 4) (s : State) : Host.Outcome State Fault Refusal :=
  mmioWrite (0x3000 + cl * 0x40 + 0x20) 8 rows.toNat s
/-- TSTEP_WRITE (R310, R378). -/
def execTstepWrite (ctr : Nat) (v : Word) (s : State) : Host.Outcome State Fault Refusal := discWrite ctr 3 v.toNat s
/-- TBEACON (R310). -/
def execTbeacon (ctr target : Nat) (s : State) : Host.Outcome State Fault Refusal := discWrite ctr 5 target s
/-- TXPROD_WRITE (R309, R384). -/
def execTxprodWrite (port ring : Nat) (v : Word) (s : State) : Host.Outcome State Fault Refusal :=
  mmioWrite (fhBlock port + 0x3000 + ring * 0x20 + 8) 8 v.toNat s
/-- PWRCAP_WRITE (R27). -/
def execPwrcapWrite (v : Word) (s : State) : Host.Outcome State Fault Refusal := mmioWrite (powerBlock + 0x18) 8 v.toNat s
/-- ROLELOCK_WRITE (R315). -/
def execRolelockWrite (v : Word) (s : State) : Host.Outcome State Fault Refusal :=
  mmioWrite (powerBlock + 0x10) 8 v.toNat s
/-- TWDOOR_STORE (R304). -/
def execTwdoorStore (idx : Nat) (v : Word) (s : State) : Host.Outcome State Fault Refusal :=
  mmioWrite (twinBlock + 0x100000 + 8 * idx) 8 v.toNat s

end Sys2Proof.Machine
end

