-- ==== Sys2Proof/Machine/Sched.lean ====
section
/-! DEFINITION. Steps of the deadline queue unit and of a core's surroundings: messages, prefetch, continuations, cliffs, the
abandon signal, the watchdogs, interrupts and the ends of waits (R54, R61, R62, R66, R74, R75, R86, R171, R179 to R183,
R191, R213, R289, R290, R344 to R346, R374 to R376, R400). -/

namespace Sys2Proof.Machine

/-! ### Messages (R191, R192, R375) -/

/-- A wait of hart n for its messages to land. -/
def waitsPush (n : Nat) (h : Hart) (on : WaitOn) : Bool :=
  match on with
  | .push _ | .messages => h.num == n
  | _ => false

/-- Message number i lands, if it may and its place has room (R191). -/
def State.landIdx (s : State) (i : Nat) : State :=
  match s.inflight[i]? with
  | none => s
  | some m =>
    if !s.mayLand i then s
    else
      match s.landMsg m with
      | none => s
      | some t =>
        let t := { t with inflight := t.inflight.eraseIdx i }
        match m.src with
        | some n => t.restartWaits (waitsPush n)
        | none => t

/-- MESSAGE_LAND (R191, R192). -/
def execMessageLand (idx : Nat) (s : State) : Host.Outcome State Fault Refusal := happens (fun s => s.landIdx idx) s

/-- Whether a message's queue has room for it. -/
def State.hasRoom (s : State) (m : Msg) : Bool := decide (0 < s.roomFor m)

/-- COMPLETION_MESSAGE_SEND (R375): the first waiting completion message whose queue has room is delivered. -/
def execCompletionMessageSend (s : State) : Host.Outcome State Fault Refusal :=
  happens (fun s =>
    match s.dqu.compWait.find? s.hasRoom with
    | some m => ({ s with dqu := { s.dqu with compWait := s.dqu.compWait.erase m } }).send m
    | none => s) s

/-! ### Prefetch and continuations (R61, R62, R374, R376) -/

/-- PREFETCH_FILL (R61, R63). -/
def execPrefetchFill (hart : Nat) (s : State) : Host.Outcome State Fault Refusal :=
  happens (fun s => if hart < hartCount then s.prefetchFill hart else s) s

/-- PREFETCH_RECALL (R61, R62, R69): reclaim of lent rows begins; the first task that has to leave the core's slots is recalled. -/
def execPrefetchRecall (hart : Nat) (s : State) : Host.Outcome State Fault Refusal :=
  happens (fun s =>
    let s := s.reclaims
    match s.recallables hart with
    | t :: _ => s.recallOne t
    | [] => s) s

/-- WAITING_CONTINUATION_ENQUEUE (R374). -/
def execWaitingContinuationEnqueue (s : State) : Host.Outcome State Fault Refusal :=
  happens (fun s =>
    match s.nextCont with
    | some (id, d, n) =>
      if s.dqFree = 0 then s
      else ((s.modJob id fun j => { j with contDue := false, contSeq := 0 }).enqueue id 0 d n).emptyCont id
    | none => s) s

/-- RECLAIM_LATE (R69, R376): a reclaim past the lease cap and 200 ns counts once, and its task may go elsewhere. DEDUCED, log 36. -/
def State.reclaimLate (s : State) (cl row : Nat) : State :=
  let k := rowKey cl row
  match tabGet none s.dqu.reclaim k with
  | none => s
  | some r =>
    if r.late || decide (s.dquNow ≤ r.since + s.leaseCap r.lease + 200) then s
    else
      let v := (s.mmioGet 0x20 0).toNat
      let v := putBits (putBits v 0 32 (min (bitsAt v 0 32 + 1) 0xFFFFFFFF)) 32 8 r.lease
      let s := s.mmioSet 0x20 0 (BitVec.ofNat 64 v)
      let s := { s with dqu := { s.dqu with reclaim := tabInsert s.dqu.reclaim k (some { r with late := true }) } }
      s.sendBack r.task
/-- RECLAIM_LATE (R376). -/
def execReclaimLate (cl row : Nat) (s : State) : Host.Outcome State Fault Refusal := happens (fun s => s.reclaimLate cl row) s

/-! ### Release and cliff (R74, R75) -/

/-- JOB_RELEASE (R74): at the first dqu_now() at or after RELEASE. -/
def execJobRelease (job : Nat) (s : State) : Host.Outcome State Fault Refusal :=
  happens (fun s =>
    match s.job? job with
    | some j => if j.release.toNat ≤ s.dquNow then s.release job else s
    | none => s) s
/-- JOB_CLIFF (R74, R75, R77): at the first dqu_now() at or after the cliff; the grace ends 2,000 ns after the cliff. -/
def execJobCliff (job : Nat) (s : State) : Host.Outcome State Fault Refusal :=
  happens (fun s =>
    match s.job? job with
    | some j =>
      (match j.cliff with
       | some c => if c ≤ s.dquNow then s.passCliff job (c + 2000) else s
       | none => s)
    | none => s) s

/-! ### Stops of running tasks (R66, R74, R75, R290, R346, R400) -/

/-- Runs a body on the hart whose turn it is. -/
def State.does (s : State) (m : M Unit) : State :=
  match run 0 m s with
  | .next t => t
  | _ => s

/-- The stop of a task at the commit point where its core waits (R74): older stores commit, sinks drain, the task ends. -/
def stopHere : M Unit := do
  commit
  endTask none

/-- Marks the running task's signal as arrived. -/
def Hart.signalled (h : Hart) : Hart :=
  match h.run with
  | .task t => { h with run := .task { t with signal := true } }
  | _ => h

/-- The harts of a row that run the task of hart n, in the row's order. -/
def State.gangOf (s : State) (n : Nat) : List Nat :=
  match (s.getHart n).task with
  | some t =>
    if t.gang then (rowHarts (rowOfHart n)).filter fun m =>
      match (s.getHart m).task with | some u => u.id == t.id | none => false
    else [n]
  | none => []

/-- What f does to hart n; the turn stays where it was. -/
def State.onHart (s : State) (n : Nat) (f : State → State) : State := (f (s.turnTo n)).turnTo s.cpu.num

/-- The signal at a row whose chain runs (R290): the chain stops, and every core stops at its `wdrive`. -/
def State.stopChain (s : State) : State :=
  let n := s.cpu.num
  let ns := s.gangOf n
  let s := s.dropChain (rowOfHart n)
  let s := ns.foldl (fun s m => s.modHart m Hart.signalled) s
  ns.foldl (fun s m => s.onHart m fun t => t.does stopHere) s

/-- The abandon signal at a core that runs a task of an abandoned job, by what the core does (R75, R400). DEDUCED, log 26. -/
def State.signalStop (s : State) (t : TaskRun) : State :=
  let n := s.cpu.num
  let s := { s with cpu := s.cpu.signalled }
  if 0 < t.trapDepth then (if s.cpu.mode == .m then s else s.forcedStop n)
  else
    match s.cpu.wait.map Wait.on with
    | some (.pop _ _ _) | some (.push _) | some (.skip _ _ _) | some (.slotStall _ _ _) => s.forcedStop n
    | some (.latch _ _) | some (.window _ _) | some (.timeline _ _) | some (.tags _ _) | some (.post _) | some .hwait =>
      s.does stopHere
    | some (.hinge _) => s.leaveHinge.does stopHere
    | some .chain => s.stopChain
    | _ => s

/-- ABANDON_SIGNAL (R75). -/
def execAbandonSignal (s : State) : Host.Outcome State Fault Refusal :=
  happens (fun s =>
    match s.cpu.task with
    | some t => if t.graceAt.isSome then s.signalStop t else s
    | none => s) s

/-- ABANDON_GRACE_EXPIRY (R75, R400): the forced stop, which an M-mode handler holds back. -/
def execAbandonGraceExpiry (s : State) : Host.Outcome State Fault Refusal :=
  happens (fun s =>
    match s.cpu.task with
    | some t =>
      (match t.graceAt with
       | some g => if g ≤ s.dquNow ∧ ¬(s.cpu.inMHandler) then s.forcedStop s.cpu.num else s
       | none => s)
    | none => s) s

/-- What the watchdog writes to RESULT (R346). -/
def budgetResult : Word := 0x800000000000001B

/-- A core that a budget stop of its ROW task finds in a machine-check handler stops at that handler's return. -/
def Hart.stopLater (h : Hart) : Hart :=
  match h.run with
  | .task t => { h with run := .task { t with counts := false, stopMc := true } }
  | _ => h

/-- The budget of the running task has reached zero (R66, R346): one record, RESULT, and the forced stop of the core, or of
the row's cores. DEDUCED, log 37. -/
def State.budgetStop (s : State) (t : TaskRun) : State :=
  let h := s.cpu
  let ns := s.gangOf h.num
  let r : FaultRec := ⟨0, 27, 0, 0xFF, false, false, 0, h.pc, h.csr.satp, s.rcbOf (some t.job), 0, h.num⟩
  let s := s.faultRecord h.cluster r
  let s := s.modJob t.job fun j => { j with result := budgetResult, resultBad := false }
  ns.foldl (fun s n =>
    match (s.getHart n).task with
    | some u => if u.mcAt = 0 then s.forcedStop n else s.modHart n Hart.stopLater
    | none => s) s

/-- BUDGET_EXPIRY (R346). -/
def execBudgetExpiry (s : State) : Host.Outcome State Fault Refusal :=
  happens (fun s =>
    match s.cpu.task with
    | some t =>
      if t.mcAt != 0 then s
      else if t.stopMc then s.forcedStop s.cpu.num
      else if t.counts && s.cpu.tbudget == 0 then s.budgetStop t
      else s
    | none => s) s

/-- `stval` of PROGRESS (R345): UNIT, PORT and the address of what is awaited. -/
def progressTval (w : Wait) : Word :=
  let f (unit port : Nat) (va : Word) : Word := BitVec.ofNat 64 (unit % 16 * 2 ^ 52 + port * 2 ^ 48 + va.toNat % 2 ^ 48)
  match w.on with
  | .latch _ false => f 0 0 w.va
  | .latch _ true => f 0 1 w.va
  | .window n pa => f n 2 (BitVec.ofNat 64 pa)
  | .pop q _ _ => f q 3 w.va
  | .push q => f q 4 w.va
  | .slotStall q sink _ => f q (if sink then 4 else 3) w.va
  | .hinge _ => f 0 5 0
  | .interlock => f 0 6 0
  | .timeline c _ => f c 7 0
  | .tags _ _ => f 0 8 0
  | .skip q _ _ => f q 9 w.va
  | .post c => f c 10 0
  | _ => 0

/-- PROGRESS_TIMEOUT (R344, R345): cause 26. An opened strip is rewound: a commit point has closed it before waiting. -/
def execProgressTimeout (s : State) : Host.Outcome State Fault Refusal :=
  happens (fun s =>
    match s.cpu.wait with
    | some w =>
      if s.cpu.timed && decide (s.cpu.vec.vprogtmo.toNat ≤ s.cpu.progress) then
        s.takeTrap ⟨26, progressTval w, some w.elem, true, none⟩ 0
      else s
    | none => s) s

/-! ### Interrupts (R54, R289, R332) -/

/-- The interrupts a hart has: software, timer and external, of S-mode and of M-mode. -/
def isInterrupt (code : Nat) : Bool := [1, 3, 5, 7, 9, 11].contains code
/-- The pending bit that the taking of an interrupt clears: the M-mode ones are the platform's pulses. -/
def takenMask (code : Nat) : Word := if [3, 7, 11].contains code then (1 : Word) <<< code else 0

/-- An interrupt becomes pending at the hart whose turn it is, and is taken where it is the first that is enabled: a chain
it waits for ends with INTR first. DESIGN CHOICE, log 22. -/
def State.interruptAt (s : State) (code : Nat) : State :=
  let s := { s with cpu := { s.cpu with csr := { s.cpu.csr with mip := s.cpu.csr.mip ||| ((1 : Word) <<< code) } } }
  if !s.cpu.runs || s.cpu.trap.isSome || s.cpu.pendingInt != some code || s.chainStalls then s
  else
    let s := match s.cpu.wait with
      | some ⟨.chain, _, _, _⟩ => s.chainIntr s.cpu.cluster s.cpu.row
      | _ => s
    let t := s.takeInterrupt code
    if s.cpu.vec.strip.isSome || s.commit.2.isNone then
      { t with cpu := { t.cpu with csr := { t.cpu.csr with mip := t.cpu.csr.mip &&& ~~~(takenMask code) } } }
    else t

/-- INTERRUPT (R54, R332). -/
def execInterrupt (code : BitVec 6) (s : State) : Host.Outcome State Fault Refusal :=
  happens (fun s => if isInterrupt code.toNat then s.interruptAt code.toNat else s) s

/-! ### The ends of waits (R86, R171, R179, R180, R183, R213) -/

/-- The wait of the hart whose turn it is ends when p holds of it: its instruction executes again, and completes. -/
def State.endWait (s : State) (p : WaitOn → Bool) : State :=
  match s.cpu.wait with
  | some w => if p w.on then { s with cpu := { s.cpu with wait := none } } else s
  | none => s

/-- Whether the latch word at a physical address is full; none where its bank is not in LATCH mode any more. -/
def State.wordFull (s : State) (pa : Nat) : Option Bool :=
  match regionOf pa with
  | .csram c b off => if (s.bank c b).mode == modeLatch && (s.bank c b).busy.isNone then some ((s.bank c b).isFull (off / 8)) else none
  | _ => none

/-- LATCH_WAIT_END (R84, R86). -/
def execLatchWaitEnd (s : State) : Host.Outcome State Fault Refusal :=
  happens (fun s => s.endWait fun on =>
    match on with
    | .latch pa st => !s.changingAt pa && s.wordFull pa != some st
    | .window _ pa => !s.changingAt pa && s.wordFull pa != some true
    | _ => false) s
/-- TIMELINE_WAIT_END (R180). -/
def execTimelineWaitEnd (s : State) : Host.Outcome State Fault Refusal :=
  happens (fun s => s.endWait fun on =>
    match on with
    | .timeline c n => decide (n ≤ s.cpu.done.getD c 0)
    | _ => false) s
/-- TAG_WAIT_END (R183). -/
def execTagWaitEnd (s : State) : Host.Outcome State Fault Refusal :=
  happens (fun s => s.endWait fun on =>
    match on with
    | .tags m true => s.cpu.ctags &&& m == m
    | .tags m false => s.cpu.ctags &&& m != 0
    | _ => false) s
/-- STREAM_WAIT_END (R87, R213). -/
def execStreamWaitEnd (s : State) : Host.Outcome State Fault Refusal :=
  happens (fun s => s.endWait fun on =>
    let ready (b n : Nat) : Bool :=
      let k := s.bank s.cpu.cluster b
      k.busy.isNone && (k.mode != modeFifo || decide (k.popped + n ≤ k.level))
    match on with
    | .pop _ b n | .skip _ b n => ready b n
    | .push _ => decide (s.inFlightOf s.cpu.num < maxInFlight)
    | .slotStall _ _ b => (s.bank (b / 32) (b % 32)).busy.isNone
    | _ => false) s
/-- POST_STALL_END (R178, R179, R181). -/
def execPostStallEnd (s : State) : Host.Outcome State Fault Refusal :=
  happens (fun s => s.endWait fun on =>
    let job := s.cpu.ownTask.bind fun t => s.job? t.job
    match on with
    | .post 0 => decide (s.cpu.posted.getD 0 0 - s.cpu.done.getD 0 0 < 64) &&
        (match job with | some j => j.count != 65535 | none => true)
    | .post c => !s.postStalls c job
    | _ => false) s

end Sys2Proof.Machine
end

