-- ==== Sys2Proof/Machine/Standard.lean ====
section
/-! DEFINITION. The standard instructions that have a row of their own: loads, stores, atomics, fences, system instructions
and CSR access (R10, R80, R81, R106, R109, R152, R302, R331, R332). -/

namespace Sys2Proof.Machine

/-- Bytes of a load. -/
def loadBytes : LoadKind → Nat
  | .lb | .lbu => 1
  | .lh | .lhu => 2
  | .lw | .lwu => 4
  | .ld => 8
/-- Whether a load sign-extends. -/
def loadSigned : LoadKind → Bool
  | .lb | .lh | .lw | .ld => true
  | _ => false
/-- Bytes of a store. -/
def storeBytes : StoreKind → Nat
  | .sb => 1 | .sh => 2 | .sw => 4 | .sd => 8

/-- The value a load of n bytes writes. -/
def extend (signed : Bool) (n v : Nat) : Word := if signed then sextWord (8 * n) v else BitVec.ofNat 64 v

/-- LOAD (R80, R81). -/
def execLoad (k : LoadKind) (rd rs1 : Reg) (imm : BitVec 12) (form : Form) (s : State) : Host.Outcome State Fault Refusal :=
  instr (.load k rd rs1 imm form) (do
    let va := (← useX rs1) + sextWord 12 imm.toNat
    let r ← scalarLoad va (loadBytes k)
    consume r.2
    putXp rd (extend (loadSigned k) (loadBytes k) r.1) r.2) s

/-- STORE (R51, R81, R396). -/
def execStore (k : StoreKind) (rs2 rs1 : Reg) (imm : BitVec 12) (form : Form) (s : State) :
    Host.Outcome State Fault Refusal :=
  instr (.store k rs2 rs1 imm form) (do
    let va := (← useX rs1) + sextWord 12 imm.toNat
    let h ← cpu
    scalarStore va (storeBytes k) (h.xr rs2).toNat (h.xPoisoned rs2)
    consume (h.xPoisoned rs2)) s

/-- What an AMO stores, from the old value and the operand, as n-bit numbers. -/
def amoResult (op : AmoOp) (n old v : Nat) : Nat :=
  match op with
  | .swap => v
  | .add => (old + v) % 2 ^ n
  | .xor => old ^^^ v
  | .and => old &&& v
  | .or => old ||| v
  | .min => if signedOf n old ≤ signedOf n v then old else v
  | .max => if signedOf n v ≤ signedOf n old then old else v
  | .minu => min old v
  | .maxu => max old v

/-- Where an atomic access is performed. -/
inductive AmoPlace where
  | memory
  | host (bus : Nat)
  | twin
deriving DecidableEq, Repr

/-- The region rules of an atomic access (R80, R302); `cause` is the access fault's. On the host window an operation that no AtomicOp
maps gives 7 whether the port is up or not, and a port that is down gives 50 before the enable bit is looked at
(DESIGN CHOICE, log 134). -/
def amoPlace (pa : Nat) (cause : Nat) (mapped : Bool) (va : Word) (elem : Option Nat) : M AmoPlace := do
  let s ← get
  match regionOf pa with
  | .lpddr => return .memory
  | .csram c b _ =>
    let k := s.bank c b
    if k.busy.isSome then waitFor (.modeChange (c * 32 + b)) va (elem.getD 0)
    else if k.mode == modeScratch then return .memory
    else raiseAt cause va elem
  | .host bus =>
    if !mapped then raiseAt 7 va elem
    else if !s.ports.hostUp then raiseAt 50 va elem
    else if !s.ports.atomicEnable || s.hostAborts bus then raiseAt 7 va elem
    else return .host bus
  | .twin _ =>
    if !mapped || !s.ports.twinUp then raiseAt 7 va elem
    else return .twin
  | _ => raiseAt cause va elem

/-- An AtomicOp on the twin window (R302): the old value is the other side's. -/
def twinAtomicOld (n : Nat) (va : Word) : M Nat := do
  let s ← get
  set { s with free := s.free + 1 }
  if Config.completerAborts s.free then raise 7 va
  else return (Config.twinData s.free).toNat % 2 ^ (8 * n)

/-- Bytes of an atomic access. -/
def amoBytes (dbl : Bool) : Nat := if dbl then 8 else 4

/-- AMO (R80, R81, R109, R302): a commit point. DEDUCED, log 30. -/
def execAmo (op : AmoOp) (dbl aq rl : Bool) (rd rs1 rs2 : Reg) (s : State) : Host.Outcome State Fault Refusal :=
  instr (.amo op dbl aq rl rd rs1 rs2) (do
    let va ← useX rs1
    let n := amoBytes dbl
    if va.toNat % n ≠ 0 then raise 6 va
    commitPoint
    let x ← translate .store va none
    let place ← amoPlace x.pa 7 (op == .add || op == .swap) va none
    asks x n
    let h ← cpu
    let v := (h.xr rs2).toNat % 2 ^ (8 * n)
    match place with
    | .memory => do
      let s ← get
      let old := memRead s.mem x.pa n
      let bad := s.poisonedAt x.pa n
      consume (bad || h.xPoisoned rs2)
      modify fun s => s.visWrite (some h.num) x.pa (bytesOf n (amoResult op (8 * n) old v))
        ((bad && op != .swap) || h.xPoisoned rs2)
      putXp rd (sextWord (8 * n) old) bad
    | .host bus => do
      let old := ofBytes ((← get).hostBytes bus n)
      consume (h.xPoisoned rs2)
      modify fun s => s.hostWrite bus (bytesOf n (amoResult op (8 * n) old v))
      putX rd (sextWord (8 * n) old)
    | .twin => do
      let old ← twinAtomicOld n va
      consume (h.xPoisoned rs2)
      putX rd (sextWord (8 * n) old)) s

/-- LR_SC (R80, R152, R302): the reservation is one 128-byte line; on a vector core a commit point. -/
def execLrSc (op : LrScOp) (dbl aq rl : Bool) (rd rs1 rs2 : Reg) (s : State) : Host.Outcome State Fault Refusal :=
  instr (.lrSc op dbl aq rl rd rs1 rs2) (do
    let va ← useX rs1
    let n := amoBytes dbl
    let isLr := op == .lr
    if va.toNat % n ≠ 0 then raise (if isLr then 4 else 6) va
    if (← cpu).isVc then commitPoint
    let x ← translate (if isLr then .load else .store) va none
    let _ ← amoPlace x.pa (if isLr then 5 else 7) false va none
    asks x n
    let s ← get
    let h := s.cpu
    if isLr then do
      let bad := s.poisonedAt x.pa n
      consume bad
      modCpu fun h => { h with resv := some (x.pa / 128) }
      putXp rd (sextWord (8 * n) (memRead s.mem x.pa n)) bad
    else do
      let ok := h.resv == some (x.pa / 128)
      if ok then
        set (s.visWrite (some h.num) x.pa (bytesOf n (h.xr rs2).toNat) (h.xPoisoned rs2))
      consume (ok && h.xPoisoned rs2)
      modCpu fun h => { h with resv := none }
      putX rd (if ok then 0 else 1)) s

/-- fence (R109, R112): memory is one sequence here; the commit is its effect. DESIGN CHOICE, log 29. -/
def execFence (fm pred succ : BitVec 4) (rd rs1 : Reg) (s : State) : Host.Outcome State Fault Refusal :=
  instr (.fence fm pred succ rd rs1) commitPoint s

/-- fence.i (R82): a commit point; fetches read memory as it stands. -/
def execFenceI (imm : BitVec 12) (rd rs1 : Reg) (s : State) : Host.Outcome State Fault Refusal :=
  instr (.fenceI imm rd rs1) commitPoint s

/-- Whether `sfence.vma` with these operands invalidates an entry (R105, R106). -/
def TlbEntry.fenced (e : TlbEntry) (va asid : Option Word) : Bool :=
  (match va with
    | some v => decide (e.base ≤ v.toNat) && decide (v.toNat < e.base + e.size)
    | none => true)
  && (match asid with
    | some a => !e.glob && e.asid == a.toNat % 65536
    | none => true)

/-- sfence.vma (R51, R97, R106): S-mode, not under TVM, or M-mode. Requests made before it under a domain are over. -/
def execSfenceVma (rs1 rs2 : Reg) (s : State) : Host.Outcome State Fault Refusal :=
  instr (.sfenceVma rs1 rs2) (do
    let h ← cpu
    consume (h.mode == .s && h.csrBad 0x300)
    need (h.mode == .m || (h.mode == .s && !bitAt h.csr.mstatus.toNat 20))
    let va ← useX rs1
    let asid ← useX rs2
    commitPoint
    let a := if rs1 = 0 then none else some va
    let b := if rs2 = 0 then none else some asid
    modify fun s =>
      let cl := s.cpu.cluster
      State.forget { s with
        cpu := { s.cpu with tlb := s.cpu.tlb.filter fun e => !e.fenced a b }
        l2tlb := tabSet [] s.l2tlb cl ((tabGet [] s.l2tlb cl).filter fun e => !e.fenced a b) } fun q => q.2.isSome) s

/-- wfi (R66, R152): illegal in U-mode, and in S-mode under TW; otherwise it waits for a pending interrupt. -/
def execWfi (s : State) : Host.Outcome State Fault Refusal :=
  instr .wfi (do
    let h ← cpu
    consume (h.mode == .s && h.csrBad 0x300)
    need (h.mode == .m || (h.mode == .s && !bitAt h.csr.mstatus.toNat 21))
    consume (h.csrBad 0x344 || h.csrBad 0x304)
    if !h.wakes then waitFor .wfi 0 0) s

/-- ecall (R331): cause 8, 9 or 11 by the mode. -/
def execEcall (s : State) : Host.Outcome State Fault Refusal :=
  instrJump .ecall (do
    let h ← cpu
    raise (match h.mode with | .u => 8 | .s => 9 | .m => 11) 0) s

/-- ebreak (R331): the trap value is the pc. -/
def execEbreak (form : Form) (s : State) : Host.Outcome State Fault Refusal :=
  instrJump (.ebreak form) (do
    raise 3 (← cpu).pc) s

/-- A task whose abandon signal has come is stopped when its M-mode handler returns below M-mode (R75). -/
def stopBelowM : M Unit := do
  let h ← cpu
  match h.task with
  | some t => if t.signal && h.mode != .m then modify fun s => s.forcedStop h.num else pure ()
  | none => pure ()

/-- A saved pc is the target of an indirect jump: poisoned, it is not jumped to (R363). -/
def useEpc (csr : Nat) : M Unit := do
  if (← cpu).csrBad csr then raisePsn

/-- sret (R332, R334, R363, R400). -/
def execSret (s : State) : Host.Outcome State Fault Refusal :=
  instrJump .sret (do
    let h ← cpu
    consume (h.mode != .u && h.csrBad 0x300)
    need (h.mode == .m || (h.mode == .s && !bitAt h.csr.mstatus.toNat 22))
    useEpc 0x141
    modCpu fun h => (h.advance 0).sret
    if h.mode == .m then stopBelowM) s

/-- mret (R75, R332, R334, R363, R400). -/
def execMret (s : State) : Host.Outcome State Fault Refusal :=
  instrJump .mret (do
    need ((← cpu).mode == .m)
    consume ((← cpu).csrBad 0x300)
    useEpc 0x341
    modCpu fun h => (h.advance 0).mret
    stopBelowM) s

/-- What a CSR instruction writes, from the old value and its operand. -/
def csrNew (op : CsrOp) (old v : Word) : Word :=
  match op with
  | .rw => v
  | .rs => old ||| v
  | .rc => old &&& ~~~v

/-- Whether a CSR number shows the bits of a register that `mideleg` selects: `sie` and `sip`. -/
def csrMasked (n : Nat) : Bool := n == 0x104 || n == 0x144
/-- A CSR instruction's mark of what it reads: that of the register; `vlgrant` is computed from `vcfg` and `lanemap`, `sie` and `sip`
with `mideleg` (R198, R361). -/
def Hart.csrReadBad (h : Hart) (n : Nat) : Bool :=
  h.csrBad n || (n == 0xCC0 && (h.csrBad 0x800 || h.csrBad 0x7C0)) || (csrMasked n && h.csrBad 0x303)
/-- Whether a poisoned register decides that a CSR may be accessed: FS for those of the floating-point unit, TVM for `satp` in S-mode,
the counter enables below M-mode (R152, R361, R362; DESIGN CHOICE, log 64). -/
def Hart.csrGateBad (h : Hart) (n : Nat) : Bool :=
  ((h.isVc && decide (1 ≤ n ∧ n ≤ 3) || (h.mode == .s && n == 0x180)) && h.csrBad 0x300)
    || (decide (0xC00 ≤ n ∧ n ≤ 0xC02) && ((h.mode != .m && h.csrBad 0x306) || (h.mode == .u && h.csrBad 0x106)))
/-- A written `minstret` is not counted up by the instruction that writes it: the write is done instead (R16, R152). -/
def Hart.uncount (h : Hart) : Hart := { h with csr := { h.csr with minstret := h.csr.minstret - 1 } }

/-- CSR_INSTRUCTION (R10, R195): csrrs and csrrc with x0 or a zero immediate do not write. What may not be accessed is illegal
before its source is read; a poisoned source of a write is
not acted on (R363); a poisoned CSR's value is poisoned (R359, R361). DESIGN CHOICE, log 64. -/
def execCsr (op : CsrOp) (rd : Reg) (src : CsrSrc) (csr : BitVec 12) (s : State) : Host.Outcome State Fault Refusal :=
  instr (.csr op rd src csr) (do
    let write := op == .rw || (match src with | .reg r => r != 0 | .imm z => z != 0)
    consume ((← cpu).csrGateBad csr.toNat)
    need ((← get).csrLegal csr.toNat write)
    let v ← (match src with
      | .reg r => useX r
      | .imm z => pure (z.zeroExtend 64) : M Word)
    let bad := (← cpu).csrReadBad csr.toNat
    let whole := (← get).csrReplaces csr.toNat v
    let old ← csrAccess csr.toNat write (fun old => csrNew op old v) (op != .rw && bad)
    consume bad
    if write && op == .rw && whole then modCpu (·.csrClean csr.toNat)
    if write && bad && csrMasked csr.toNat then modCpu (·.csrSpoil csr.toNat true)
    if write && csr == 0xB02 then modCpu (·.uncount)
    putXp rd old bad) s

end Sys2Proof.Machine
end

