-- ==== Sys2Proof/Machine/Stream.lean ====
section
/-! DEFINITION. The stream instructions (R184 to R186, R208, R209, R213). -/

namespace Sys2Proof.Machine

/-- The dimensions of a descriptor's counts, innermost first (R208). -/
def descCounts (bs : List Byte) : List Nat := (List.range 4).map fun i => fieldAt bs (0x10 + 4 * i) 4
/-- Its strides. -/
def descStrides (bs : List Byte) : List Int := (List.range 4).map fun i => (wordAt bs (0x20 + 8 * i)).toInt

/-- Whether a stream descriptor is invalid (R209). -/
def State.descBad (s : State) (bs : List Byte) : Bool :=
  let v := s.cpu.vec
  let c := fieldAt bs 0 8
  let kind := bitsAt c 0 2
  let fmt := bitsAt c 4 4
  let dims := bitsAt c 8 2
  let zero (o n : Nat) : Bool := fieldAt bs o n == 0
  let pattern := kind == 0 || kind == 2
  bitsAt c 34 30 != 0 || bitsAt c 21 1 != 0 || bitsAt c 10 6 != 0 || bitsAt c 2 2 != 0
    || (kind != 1 && (bitsAt c 22 12 != 0 || bitsAt c 16 5 != 0)) || (!pattern && dims != 0)
    || !v.fmtOk fmt
    || (pattern && (List.range 4).any fun d =>
          if d ≤ dims then (descCounts bs).getD d 0 == 0
          else (descCounts bs).getD d 0 != 0 || (descStrides bs).getD d 0 != 0)
    || (kind == 1 &&
          (!zero 8 8 || !zero 0x10 16 || !zero 0x20 32
            || (let k := s.bank s.cpu.cluster (bitsAt c 16 5)
                k.mode != modeFifo || k.chan.toNat != bitsAt c 22 12)))
    || (kind == 3 &&
          (!zero 0x18 8 || !zero 0x20 32 || !headerOk s (wordAt bs 8) (wordAt bs 0x10)
            || (fmt != 0 && hdLen (wordAt bs 8) % v.fmtB fmt != 0)))

/-- The slot that a valid descriptor binds (R208). -/
def slotOf (reg : Nat) (bs : List Byte) : Slot :=
  let c := fieldAt bs 0 8
  let n := bitsAt c 8 2 + 1
  { reg := reg
    kind := match bitsAt c 0 2 with
      | 0 => .memSource
      | 1 => .fifoSource (bitsAt c 16 5)
      | 2 => .memSink
      | _ => .msgSink (wordAt bs 8) (wordAt bs 0x10)
    fmt := bitsAt c 4 4
    base := wordAt bs 8
    counts := (descCounts bs).take n
    strides := (descStrides bs).take n
    pos := 0
    moved := 0
    gathered := []
    marks := [] }

/-- The number of a slot operand. -/
def slotNum (q : BitVec 3) : Nat := q.toNat

/-- Illegal inside an opened strip (R184). -/
def outsideStrip : M Unit := do need (← cpu).vec.strip.isNone

/-- sbind (R184, R209): a group that meets another slot's binding is bound to another slot. -/
def execSbind (q : BitVec 3) (v : BitVec 6) (rs1 : Reg) (s : State) : Host.Outcome State Fault Refusal :=
  instr (.sbind q v rs1) (do
    onVc
    outsideStrip
    let h ← cpu
    need (h.vec.groupOk v.toNat)
    let a ← useX rs1
    if a.toNat % 64 ≠ 0 then raise 4 a
    let r ← readRecord a 64
    let s ← get
    let elsewhere := s.cpu.vec.slotList.any fun p =>
      p.1 != slotNum q && decide (p.2.reg < v.toNat + s.cpu.vec.grp) && decide (v.toNat < p.2.reg + s.cpu.vec.grp)
    if r.2 then do
      consume true
      modify fun s => s.defectRecord a
    if r.2 || s.descBad r.1 then raiseStream (slotNum q) 0
    if elsewhere then raiseStream (slotNum q) 1
    unbind (slotNum q)
    modVec fun w => { w with slots := w.slots.setIfInBounds (slotNum q) (some (slotOf v.toNat r.1)) }) s

/-- sunbind (R185). -/
def execSunbind (q : BitVec 3) (s : State) : Host.Outcome State Fault Refusal :=
  instr (.sunbind q) (do
    onVc
    outsideStrip
    unbind (slotNum q)) s

/-- sflush (R185): a memory-pattern sink and a source keep their position; the model keeps no read-ahead. -/
def execSflush (q : BitVec 3) (s : State) : Host.Outcome State Fault Refusal :=
  instr (.sflush q) (do
    onVc
    outsideStrip
    closeMsg (slotNum q)) s

/-- The strip buffer's entries for the next strip of a memory-pattern sink, none where an address does not translate. -/
def State.sinkNext (s : State) (sl : Slot) : Option (List BufEntry) :=
  let v := s.cpu.vec
  let idx := (List.range v.vl).filter fun i => decide (sl.pos + i < sl.total)
  (idx.flatMap fun i => parts (sl.addr (sl.pos + i)) (v.fmtB sl.fmt)).mapM fun p =>
    match xlat s .store p.1 with
    | .ok (x, _) => some (.store x.pa (List.replicate p.2 0) 0 false)
    | .error _ => none

/-- The least and the greatest count of strips that a bound slot can have ready (R186). A source has filled no more than its pattern
or its arrival queue holds; a full sink has no free space (R213), another sink has some. How far the transfer unit is ahead is open. -/
def State.readyRange (s : State) (sl : Slot) : Nat × Nat :=
  let v := s.cpu.vec
  let strip := max 1 v.vl
  let sink (full : Bool) : Nat × Nat := if full then (0, 0) else (1, 4)
  match sl.kind with
  | .memSource => (0, min 4 (ceilDiv (sl.total - sl.pos) strip))
  | .fifoSource b =>
    let k := s.bank s.cpu.cluster b
    if k.busy.isSome || k.mode != modeFifo then (0, 4)
    else (0, min 4 ((k.level - k.popped) / (ceilDiv (strip * v.fmtB sl.fmt) 128 * 128)))
  | .memSink =>
    match s.sinkNext sl with
    | some l => sink (decide (stripEntries < (bufSectors (l ++ s.cpu.buf)).length))
    | none => (0, 4)
  | .msgSink _ _ => sink (decide (maxInFlight ≤ s.inFlightOf s.cpu.num))

/-- The status word of a slot (R186). -/
def Slot.status (sl : Slot) (ready : Nat) : Word :=
  let fifo := match sl.kind with | .fifoSource _ => true | _ => false
  BitVec.ofNat 64 (2 ^ 63 + 2 ^ 62 * b2n (!sl.isSource) + 2 ^ 61 * b2n fifo + 2 ^ 48 * sl.reg + 2 ^ 32 * ready + sl.moved)

/-- sstat (R186). DESIGN CHOICE, log 54. -/
def execSstat (rd : Reg) (q : BitVec 3) (s : State) : Host.Outcome State Fault Refusal :=
  instr (.sstat rd q) (do
    onVc
    match (← cpu).vec.slots.getD (slotNum q) none with
    | none => putX rd 0
    | some sl => do
      let r := (← get).readyRange sl
      let f ← freshWord
      putX rd (sl.status (r.1 + f.toNat % (r.2 - r.1 + 1)))) s

/-- sskip (R185, R87): whole 128-byte slots of an arrival queue, or elements of a memory pattern. -/
def execSskip (q : BitVec 3) (rs1 : Reg) (s : State) : Host.Outcome State Fault Refusal :=
  instr (.sskip q rs1) (do
    onVc
    let count ← useX rs1
    let s ← get
    let h := s.cpu
    let n := count.toNat
    let i := slotNum q
    match h.vec.slots.getD i none with
    | none => raiseStream i 7
    | some sl =>
      match sl.kind with
      | .memSource =>
        modVec fun v => { v with slots := v.slots.setIfInBounds i (some { sl with pos := sl.pos + n }) }
      | .fifoSource b => do
        let k := s.bank h.cluster b
        let bytes := ceilDiv n 128 * 128
        let waits := waitFor (.skip i b bytes) (k.nextByte h.cluster b) 0
        if k.busy.isSome then waits
        if k.mode != modeFifo then raiseStream i 5
        if k.level < k.popped + bytes then waits
        let s := s.setBank h.cluster b { k with popped := k.popped + bytes }
        set { s with cpu := { s.cpu with pops := s.cpu.pops ++ [(⟨b, bytes, k.gen⟩ : Pop)] } }
      | _ => raiseStream i 7) s

end Sys2Proof.Machine
end

