-- ==== Sys2Proof/Machine/Strip.lean ====
section
/-! DEFINITION. The vector configuration and strip instructions (R52, R54, R155, R173 to R175). -/

namespace Sys2Proof.Machine

/-- The body of `vconf` with a requested configuration. What it computes from a poisoned lane map is poisoned (R173, R361). -/
def confBody (rd : Reg) (req : Nat) : M Unit := do
  let v ← setVcfg req
  let bad := v != 0 && (← cpu).csrBad 0x7C0
  consume bad
  putXp rd (BitVec.ofNat 64 v) bad

/-- vconf (R173). -/
def execVconf (rd rs1 : Reg) (s : State) : Host.Outcome State Fault Refusal :=
  instr (.vconf rd rs1) (do
    onVc
    confBody rd (← useX rs1).toNat) s

/-- vconfi (R155): the immediate gives vcfg[11:0], PROT is 0. -/
def execVconfi (rd : Reg) (imm : BitVec 12) (s : State) : Host.Outcome State Fault Refusal :=
  instr (.vconfi rd imm) (do
    onVc
    confBody rd imm.toNat) s

/-- The numbers of the bits set in a mask. -/
def maskBits (m : Word) : List Nat := (List.range 64).filter fun i => m.getLsbD i

/-- The journal of a strip of length vl that opens at the present pc (R52, R174). -/
def Hart.journal (h : Hart) (vl : Nat) : Journal :=
  let v := h.vec
  let xs := (maskBits h.vec.xckmask).filter fun i => i != 0 && decide (i < 32)
  let vs := if 8 < popWord v.vckmask then [] else (maskBits v.vckmask).filter fun i => decide (i < v.nreg)
  { pc := h.pc
    x := xs.map fun i => (i, h.x.getD i 0)
    f := h.f
    frm := h.frm
    fflags := h.fflags
    vcfg := v.vcfg
    vregs := vs.map fun i => (i, v.bytes i 0 v.imageB)
    keys := v.keys
    rngctr := h.rngctr
    slots := v.slots
    vl := vl
    xpoison := h.xpoison
    fpoison := h.fpoison
    vpoison := v.vpoison
    kpoison := v.kpoison
    cpoison := h.cpoison.filter journalled }

/-- The grant of `vstrip` (R174, R198, R335). -/
def State.grantVl (s : State) (req : Nat) (replay : Bool) : Nat :=
  let v := s.cpu.vec
  let g := min req (s.vlgrant s.cpu * v.grp)
  if replay && v.vlimit != 0 then min g v.vlimit else g

/-- Opens a strip (R52, R174): commit point, journal, grant. A `vstrip` at another address than the rewound strip's is no
replay (R334). It does not act on poisoned journal masks (R363; DESIGN CHOICE, log 64); a grant from a poisoned configuration, lane
map or limit is poisoned (R174, R361). -/
def stripBody (rd : Reg) (req : Nat) : M Unit := do
  let h ← cpu
  if h.csrBad 0x802 || h.csrBad 0x803 then raisePsn
  commitPoint
  let h ← cpu
  let replay := h.vec.replayPc == some h.pc
  modCpu fun h => if replay then h else { h.csrClean 0x5C0 with vec := h.vec.clearLineage }
  modVec fun v => if 8 < popWord v.vckmask then { v with vcfg := v.vcfg ||| 0x8000000000000000 } else v
  let s ← get
  let bad := s.cpu.vec.vbad
  let vl := if bad then 0 else s.grantVl req replay
  let psn := h.csrBad 0x800 || h.csrBad 0x7C0 || (replay && h.csrBad 0x5C0)
  consume psn
  modCpu fun h => { h.csrMark 0x801 psn with vec := { h.vec with
    strip := some (h.journal vl), vl := vl, attempt := if replay && h.vec.resReplay then h.vec.attempt else 1 } }
  putXp rd (BitVec.ofNat 64 vl) psn

/-- vstrip (R52, R174). -/
def execVstrip (rd rs1 : Reg) (s : State) : Host.Outcome State Fault Refusal :=
  instr (.vstrip rd rs1) (do
    onVc
    stripBody rd (← useX rs1).toNat) s

/-- vstripi (R155). -/
def execVstripi (rd : Reg) (imm : BitVec 12) (s : State) : Host.Outcome State Fault Refusal :=
  instr (.vstripi rd imm) (do
    onVc
    stripBody rd imm.toNat) s

/-- vclose (R175). -/
def execVclose (s : State) : Host.Outcome State Fault Refusal :=
  instr .vclose (do
    onVc
    commitPoint) s

end Sys2Proof.Machine
end

