-- ==== Sys2Proof/Machine/VecInt.lean ====
section
/-! DEFINITION. The vector integer instructions, class 2, and the key instructions, class 6 (R231 to R234). -/

namespace Sys2Proof.Machine

/-- Class 2 executes at every element width. -/
def intCfg (_ : Vec) : Bool := true

/-- A class-2 instruction: a function of the element width and of the two operands' bits, taken modulo 2^EW (R231). -/
def intExec (o : VOp) (f : Nat → Nat → Nat → Nat) : M Unit :=
  elementwise o intCfg [srcA o, srcB o] fun v xs => pure (f v.ew (xs.getD 0 0) (xs.getD 1 0) % 2 ^ v.ew)

/-- A class-2 instruction on the signed readings of its operands. -/
def signedExec (o : VOp) (f : Nat → Int → Int → Int) : M Unit :=
  intExec o fun w a b => unsignedOf w (f w (signedOf w a) (signedOf w b))

/-- The shift amount: the low log2 EW bits of b. -/
def shiftAmount (w b : Nat) : Nat := b % w

/-- An integer comparison (R232). -/
def intCompare (o : VOp) (f : Nat → Nat → Nat → Bool) : M Unit :=
  keyExec o intCfg [srcA o, srcB o] fun v ops idx =>
    idx.map fun i => f v.ew (opAt ops 0 i).1 (opAt ops 1 i).1

/-- vadd (R231). -/
def execVadd (o : VOp) (s : State) : Host.Outcome State Fault Refusal := instr (.vadd o) (intExec o fun _ a b => a + b) s
/-- vsub (R231). -/
def execVsub (o : VOp) (s : State) : Host.Outcome State Fault Refusal :=
  instr (.vsub o) (intExec o fun w a b => a + 2 ^ w - b) s
/-- vmul (R231). -/
def execVmul (o : VOp) (s : State) : Host.Outcome State Fault Refusal := instr (.vmul o) (intExec o fun _ a b => a * b) s
/-- vmulh (R231). -/
def execVmulh (o : VOp) (s : State) : Host.Outcome State Fault Refusal :=
  instr (.vmulh o) (signedExec o fun w a b => a * b / ((2 ^ w : Nat) : Int)) s
/-- vand (R231). -/
def execVand (o : VOp) (s : State) : Host.Outcome State Fault Refusal := instr (.vand o) (intExec o fun _ a b => a &&& b) s
/-- vor (R231). -/
def execVor (o : VOp) (s : State) : Host.Outcome State Fault Refusal := instr (.vor o) (intExec o fun _ a b => a ||| b) s
/-- vxor (R231). -/
def execVxor (o : VOp) (s : State) : Host.Outcome State Fault Refusal := instr (.vxor o) (intExec o fun _ a b => a ^^^ b) s
/-- vsll (R231). -/
def execVsll (o : VOp) (s : State) : Host.Outcome State Fault Refusal :=
  instr (.vsll o) (intExec o fun w a b => a * 2 ^ shiftAmount w b) s
/-- vsrl (R231). -/
def execVsrl (o : VOp) (s : State) : Host.Outcome State Fault Refusal :=
  instr (.vsrl o) (intExec o fun w a b => a / 2 ^ shiftAmount w b) s
/-- vsra (R231). -/
def execVsra (o : VOp) (s : State) : Host.Outcome State Fault Refusal :=
  instr (.vsra o) (intExec o fun w a b => unsignedOf w (signedOf w a / ((2 ^ shiftAmount w b : Nat) : Int))) s
/-- vmin (R231). -/
def execVmin (o : VOp) (s : State) : Host.Outcome State Fault Refusal := instr (.vmin o) (signedExec o fun _ a b => min a b) s
/-- vmax (R231). -/
def execVmax (o : VOp) (s : State) : Host.Outcome State Fault Refusal := instr (.vmax o) (signedExec o fun _ a b => max a b) s
/-- vminu (R231). -/
def execVminu (o : VOp) (s : State) : Host.Outcome State Fault Refusal := instr (.vminu o) (intExec o fun _ a b => min a b) s
/-- vmaxu (R231). -/
def execVmaxu (o : VOp) (s : State) : Host.Outcome State Fault Refusal := instr (.vmaxu o) (intExec o fun _ a b => max a b) s
/-- vsadd (R231). -/
def execVsadd (o : VOp) (s : State) : Host.Outcome State Fault Refusal :=
  instr (.vsadd o) (signedExec o fun w a b => saturate (a + b) (-((2 ^ (w - 1) : Nat) : Int)) (((2 ^ (w - 1) : Nat) : Int) - 1)) s
/-- vceq (R232). -/
def execVceq (o : VOp) (s : State) : Host.Outcome State Fault Refusal := instr (.vceq o) (intCompare o fun _ a b => a == b) s
/-- vclt (R232). -/
def execVclt (o : VOp) (s : State) : Host.Outcome State Fault Refusal :=
  instr (.vclt o) (intCompare o fun w a b => decide (signedOf w a < signedOf w b)) s
/-- vcltu (R232). -/
def execVcltu (o : VOp) (s : State) : Host.Outcome State Fault Refusal :=
  instr (.vcltu o) (intCompare o fun _ a b => decide (a < b)) s

/-- vid (R233): each element receives its index. -/
def execVid (o : VOp) (s : State) : Host.Outcome State Fault Refusal :=
  instr (.vid o) (VecFn.exec
    { cfg := intCfg, srcs := [], dests := [o.vd.toNat], idx := fun v => v.actives o.km
      comp := fun v _ => return [(v.actives o.km).map fun i => (i, false)] } o) s

/-- vmv (R233): a bit copy of a vector, or of an x register into every element. -/
def execVmv (o : VOp) (s : State) : Host.Outcome State Fault Refusal :=
  instr (.vmv o) (elementwise o intCfg [if o.s then srcB o else srcA o] fun _ xs => pure (xs.getD 0 0)) s

/-! ### Keys (R234) -/

/-- A key instruction that writes a key register at every position below vl (R206, R234): `srcs` are its key operands. -/
def keyOp (o : VOp) (srcs : List (BitVec 6)) (bad : Hart → Bool) (f : Hart → Nat → Bool) : M Unit := do
  onVc
  vbadCheck
  let h ← cpu
  let v := h.vec
  need (v.keysOk 0 true)
  let p (i : Nat) : Bool := bad h || srcs.any fun k => v.kpoison.contains (32 * k.toNat + i / 64)
  if v.vl = 0 then pure ()
  else do
    consume (bad h || srcs.any fun k => v.keyBadBelow k.toNat)
    modVec fun v => v.setKeyBits o.vd.toNat ((List.range v.vl).map fun i => (i, f h i, p i))

/-- A key instruction of two keys. -/
def keyOp2 (o : VOp) (f : Bool → Bool → Bool) : M Unit :=
  keyOp o [o.vs1, o.vs2] (fun _ => false) fun h i => f (h.vec.keyBit o.vs1.toNat i) (h.vec.keyBit o.vs2.toNat i)

/-- kand (R234). -/
def execKand (o : VOp) (s : State) : Host.Outcome State Fault Refusal := instr (.kand o) (keyOp2 o fun a b => a && b) s
/-- kor (R234). -/
def execKor (o : VOp) (s : State) : Host.Outcome State Fault Refusal := instr (.kor o) (keyOp2 o fun a b => a || b) s
/-- kxor (R234). -/
def execKxor (o : VOp) (s : State) : Host.Outcome State Fault Refusal := instr (.kxor o) (keyOp2 o fun a b => a != b) s
/-- kandn (R234). -/
def execKandn (o : VOp) (s : State) : Host.Outcome State Fault Refusal := instr (.kandn o) (keyOp2 o fun a b => a && !b) s
/-- knot (R234). -/
def execKnot (o : VOp) (s : State) : Host.Outcome State Fault Refusal :=
  instr (.knot o) (keyOp o [o.vs1] (fun _ => false) fun h i => !h.vec.keyBit o.vs1.toNat i) s
/-- The set bits of a key below vl. At EW 16 vl may exceed the 2,048 bits of a key (R202); `kpop` and `kffs` execute there (R206),
and bits at or beyond 2,048 read as 0 (DESIGN CHOICE, log 112). -/
def Vec.setBelow (v : Vec) (k : Nat) : List Nat := (List.range v.vl).filter (v.keyBit k)
/-- kpop (R234). -/
def execKpop (o : VOp) (s : State) : Host.Outcome State Fault Refusal :=
  instr (.kpop o) (scalarExec o false intCfg [] 0 fun v _ => ((v.setBelow o.vs1.toNat).length, v.keyBadBelow o.vs1.toNat)) s
/-- kffs (R234). -/
def execKffs (o : VOp) (s : State) : Host.Outcome State Fault Refusal :=
  instr (.kffs o) (scalarExec o false intCfg [] 0 fun v _ => ((v.setBelow o.vs1.toNat).headD v.vl, v.keyBadBelow o.vs1.toNat)) s
/-- kvl (R234). -/
def execKvl (o : VOp) (s : State) : Host.Outcome State Fault Refusal :=
  instr (.kvl o) (keyOp o [] (fun h => h.xPoisoned (BitVec.ofNat 5 o.vs2.toNat))
    fun h i => decide (i < (h.xr (BitVec.ofNat 5 o.vs2.toNat)).toNat)) s

end Sys2Proof.Machine
end

