-- ==== Sys2Proof/Machine/VecPermute.lean ====
section
/-! DEFINITION. The permutations and reductions, class 3 (R245 to R251). -/

namespace Sys2Proof.Machine

/-! ### Permutations (R245 to R248) -/

/-- A source position: +0 at or beyond vl. -/
def pickAt (v : Vec) (ops : List (List El)) (q : Nat × Nat) : El := if q.2 < v.vl then opAt ops q.1 q.2 else (0, false)

/-- A permute (R245): an operand that `whole` names is read at any position. `pick` gives the operand and the position that each
written position receives, `bad` is the poison of the amount. -/
def permute (o : VOp) (srcs : List Opnd) (whole : Nat → Bool) (idx : Vec → List Nat) (pick : Vec → List (List El) → Nat → Nat × Nat)
    (psn : Vec → List (List El) → Bool) (deps : Vec → Nat → List Nat := fun _ i => [i]) (bad : Bool := false) : M Unit :=
  VecFn.exec
    { cfg := fun _ => true, srcs := srcs, dests := [o.vd.toNat], idx := idx, whole := whole, psn := psn, deps := deps
      takes := fun v ops k i => (srcs.getD k (.group 0)).isX || (idx v).any fun j => pick v ops j == (k, i)
      comp := fun v ops => return [(idx v).map fun j => let e := pickAt v ops (pick v ops j); (e.1, e.2 || bad)] } o

/-- The amount of a slide or rotate, and whether it is poisoned: IMM6, or x[VS2] (R246). -/
def slideAmount (o : VOp) (h : Hart) : El :=
  if o.s then ((h.xr (BitVec.ofNat 5 o.vs2.toNat)).toNat, h.xPoisoned (BitVec.ofNat 5 o.vs2.toNat)) else (o.vs3.toNat, false)

/-- A slide or rotate: which positions it writes, and from where, for an amount n (R246). -/
def slide (o : VOp) (writes : Nat → Nat → Bool) (src : Vec → Nat → Nat → Nat) : M Unit := do
  let n := slideAmount o (← cpu)
  permute o (srcA o :: (if o.s then [srcB o] else [])) (fun _ => true)
    (fun v => (v.actives o.km).filter (writes n.1)) (fun v _ i => (0, src v n.1 i)) (fun _ _ => false) (bad := n.2)

/-- The least power of two that is at least n. -/
def powerAbove (n : Nat) : Nat := 2 ^ (if n ≤ 1 then 0 else Nat.log2 (n - 1) + 1)

/-- The low m bits of i reversed. -/
def brev : (m i : Nat) → Nat
  | 0, _ => 0
  | m + 1, i => i % 2 * 2 ^ m + brev m (i / 2)

/-- vslideup (R246). -/
def execVslideup (o : VOp) (s : State) : Host.Outcome State Fault Refusal :=
  instr (.vslideup o) (slide o (fun n i => decide (n ≤ i)) fun _ n i => i - n) s
/-- vslidedn (R246). -/
def execVslidedn (o : VOp) (s : State) : Host.Outcome State Fault Refusal :=
  instr (.vslidedn o) (slide o (fun _ _ => true) fun _ n i => i + n) s
/-- vrotl (R246). -/
def execVrotl (o : VOp) (s : State) : Host.Outcome State Fault Refusal :=
  instr (.vrotl o) (slide o (fun _ _ => true) fun v n i => (i + n) % powerAbove v.vl) s

/-- vgather (R247): a poisoned index of an active element is not acted on (R363). -/
def execVgather (o : VOp) (s : State) : Host.Outcome State Fault Refusal :=
  instr (.vgather o) (permute o [srcA o, srcB o] (fun k => k == 0) (fun v => v.actives o.km)
    (fun _ ops i => (0, (opAt ops 1 i).1))
    (fun v ops => (v.actives o.km).any fun i => (opAt ops 1 i).2)) s
/-- vzip (R247). -/
def execVzip (o : VOp) (s : State) : Host.Outcome State Fault Refusal :=
  instr (.vzip o) (permute o [srcA o, srcB o] (fun _ => true) (fun v => v.actives o.km)
    (fun _ _ i => (i % 2, i / 2)) (fun _ _ => false)) s
/-- vunzip (R247). -/
def execVunzip (o : VOp) (s : State) : Host.Outcome State Fault Refusal :=
  instr (.vunzip o) (permute o [srcA o, srcB o] (fun _ => true) (fun v => v.actives o.km)
    (fun v _ i =>
      let h := ceilDiv v.vl 2
      if i < h then (0, 2 * i) else (1, 2 * (i - h) + 1)) (fun _ _ => false)) s
/-- vbrev (R247). -/
def execVbrev (o : VOp) (s : State) : Host.Outcome State Fault Refusal :=
  instr (.vbrev o) (permute o [srcA o] (fun _ => true) (fun v => v.actives o.km)
    (fun v _ i => (0, brev (Nat.log2 (powerAbove v.vl)) i)) (fun _ _ => false)) s
/-- vcompress (R247): the key selects sources. -/
def execVcompress (o : VOp) (s : State) : Host.Outcome State Fault Refusal :=
  instr (.vcompress o) (permute o [srcA o] (fun _ => false) (fun v => List.range (v.actives o.km).length)
    (fun v _ j => (0, (v.actives o.km).getD j 0)) (fun _ _ => false)
    fun v _ => List.range v.vl) s

/-- The element number of `vext` and `vins`, and whether it is poisoned (R248). -/
def elemNumber (o : VOp) (h : Hart) : El := slideAmount o h

/-- vext (R248). -/
def execVext (o : VOp) (s : State) : Host.Outcome State Fault Refusal :=
  instr (.vext o) (do
    let u := elemNumber o (← cpu)
    scalarExec o u.2 (fun _ => true) [srcA o] u.1 fun v ops =>
      if v.active o.km u.1 then ((sextWord v.ew (opAt ops 0 u.1).1).toNat, (opAt ops 0 u.1).2) else (0, false)) s

/-- vins (R248). Where vd is bound to a sink, a strip is pushed also when no element is written (DESIGN CHOICE, log 121). -/
def execVins (o : VOp) (s : State) : Host.Outcome State Fault Refusal :=
  instr (.vins o) (do
    let u := elemNumber o (← cpu)
    VecFn.exec
      { cfg := fun _ => true, srcs := [.xreg (BitVec.ofNat 5 o.vs1.toNat)], dests := [o.vd.toNat]
        idx := fun v => if v.active o.km u.1 then [u.1] else []
        comp := fun v ops => return [if v.active o.km u.1 then [opAt ops 0 u.1] else []]
        psn := fun _ _ => u.2 } o) s

/-! ### Reductions (R148, R249 to R251) -/

/-- A value in a reduction tree: its components and its poison. -/
abbrev Node := List FV × Bool

/-- The format and the flushed components of an element: one component, or two at EW 64 (R249). -/
def Vec.redFmt (v : Vec) : Fmt := if v.ewB = 8 then fp32 else v.fmtT
/-- The components of an element. -/
def Vec.redParts (v : Vec) (bits : Nat) : List FV :=
  let f := v.redFmt
  let part (b : Nat) : FV := f.flush v.fz (f.decode b)
  if v.ewB = 8 then [part (bits % 2 ^ 32), part (bits / 2 ^ 32)] else [part bits]
/-- The bits of a node whose components are values of the element type. -/
def Vec.redBits (v : Vec) (n : Node) : El :=
  let f := v.redFmt
  let b := n.1.map fun x => (f.round .rne 0 false x).bits
  (b.getD 0 0 + b.getD 1 0 * 2 ^ 32, n.2)

/-- A node rounded to the element type and flushed, the real component first (R249). -/
def Vec.redRound (v : Vec) (n : Node) : Draw Node := do
  let f := v.redFmt
  let r ← tainted (n.1.mapM fun x => do return f.decode (← roundD fun u => f.round v.rm u v.fz x))
  return (r.1, r.2 || n.2)

/-- The sum of two nodes, rounded. -/
def Vec.redAdd (v : Vec) (a b : Node) : Draw Node :=
  v.redRound (List.zipWith (fun x y => x.add v.rm.negZero y) a.1 b.1, a.2 || b.2)

/-- The maximum of two nodes, never rounded (R250). -/
def redMax (a b : Node) : Draw Node :=
  return (List.zipWith (minMaxVal true) a.1 b.1, a.2 || b.2)

/-- One level of the tree: adjacent inputs pair, and an absent one passes the other through (R148). -/
def treeLevel (op : Node → Node → Draw Node) : List (Option Node) → Draw (List (Option Node))
  | [] => return []
  | [a] => return [a]
  | a :: b :: r => do
    let n ← match a, b with
      | some x, some y => do pure (some (← op x y))
      | some x, none => pure (some x)
      | none, y => pure y
    return n :: (← treeLevel op r)

/-- The tree of one element group, level by level. -/
def treeGroup (op : Node → Node → Draw Node) : (levels : Nat) → List (Option Node) → Draw (Option Node)
  | 0, l => return l.headD none
  | k + 1, l => do treeGroup op k (← treeLevel op l)

/-- The result of every group in ascending order; `leaf` gives the present elements, `fin` what is made of a group's result
as it leaves the tree. -/
def groupResults (v : Vec) (op : Node → Node → Draw Node) (leaf : Nat → Option Node) (fin : Nat → Node → Draw Node) :
    List Nat → Draw (List Node)
  | [] => return []
  | g :: r => do
    let n := v.groupLen
    let t ← treeGroup op 6 ((List.range n).map fun i => leaf (g * n + i))
    match t with
    | none => groupResults v op leaf fin r
    | some x => do
      let y ← fin g x
      return y :: (← groupResults v op leaf fin r)

/-- The inter-group combination, ascending. -/
def foldNodes (op : Node → Node → Draw Node) : Node → List Node → Draw Node
  | t, [] => return t
  | t, g :: r => do foldNodes op (← op t g) r

/-- A reduction into element 0 (R249): `empty` are the bits with no active element. -/
def reduce (o : VOp) (cfg : Vec → Bool) (srcs : List Opnd) (whole : Nat → Bool) (op : Vec → Node → Node → Draw Node)
    (leaf : Vec → List (List El) → Nat → Node) (fin : Vec → List (List El) → Nat → Node → Draw Node) (empty : Vec → Nat) :
    M Unit :=
  VecFn.exec
    { cfg := cfg, srcs := srcs, dests := [o.vd.toNat], idx := fun _ => [0], whole := whole
      deps := fun v _ => List.range v.vl
      table := fun v g => (List.range v.groupLen).any fun i => v.active o.km (g * v.groupLen + i)
      comp := fun v ops => do
        let gs ← groupResults v (op v) (fun i => if v.active o.km i then some (leaf v ops i) else none) (fin v ops)
          (List.range (ceilDiv v.vl v.groupLen))
        match gs with
        | [] => return [[(empty v, false)]]
        | g :: r => return [[v.redBits (← foldNodes (op v) g r)]] } o

/-- The element of one operand as a leaf. -/
def leafOf (v : Vec) (ops : List (List El)) (i : Nat) : Node := (v.redParts (opAt ops 0 i).1, (opAt ops 0 i).2)

/-- vredsum (R250). -/
def execVredsum (o : VOp) (s : State) : Host.Outcome State Fault Refusal :=
  instr (.vredsum o) (reduce o (fun _ => true) [srcA o] (fun _ => false) (fun v => v.redAdd) leafOf
    (fun _ _ _ n => return n) fun _ => 0) s
/-- vredmax (R250): −∞ with no active element. -/
def execVredmax (o : VOp) (s : State) : Host.Outcome State Fault Refusal :=
  instr (.vredmax o) (reduce o floatCfg [srcA o] (fun _ => false) (fun _ => redMax) leafOf
    (fun _ _ _ n => return n) fun v => v.fmtT.infBits true) s

/-- The exact product of two elements' components: complex, not conjugated, at EW 64 (R250). -/
def dotLeaf (v : Vec) (ops : List (List El)) (i : Nat) : Node :=
  let a := v.redParts (opAt ops 0 i).1
  let b := v.redParts (opAt ops 1 i).1
  let bad := (opAt ops 0 i).2 || (opAt ops 1 i).2
  match a, b with
  | [x, y], [z, w] =>
    let t := mulTerms ⟨x, y⟩ ⟨z, w⟩
    ([sumTerms v.rm.negZero t.1, sumTerms v.rm.negZero t.2], bad)
  | _, _ => ([(a.headD .nan).mul (b.headD .nan)], bad)

/-- vdot (R250): a product without a partner is rounded as it leaves its group. -/
def execVdot (o : VOp) (s : State) : Host.Outcome State Fault Refusal :=
  instr (.vdot o) (reduce o (fun _ => true) [srcA o, srcB o] (fun _ => false) (fun v => v.redAdd) dotLeaf
    (fun v _ _ n => v.redRound n) fun _ => 0) s

/-- A group's sum with its block scale (R251): a NaN, zero or infinite scale gives NaN. The scale is a source, flushed like every
other (R139, R249). -/
def scaleGroup (v : Vec) (ops : List (List El)) (g : Nat) (n : Node) : Draw Node :=
  let e := opAt ops 1 g
  let bad := n.2 || e.2
  match (v.redParts e.1).headD .nan with
  | .fin _ m x => if m = 0 then return (n.1.map fun _ => .nan, bad) else v.redRound (n.1.map (·.scale (floorLog2 m x)), bad)
  | _ => return (n.1.map fun _ => .nan, bad)

/-- vredbs (R251): element k of the single register vs2 is the scale of group k. -/
def execVredbs (o : VOp) (s : State) : Host.Outcome State Fault Refusal :=
  instr (.vredbs o) (do
    let v := (← cpu).vec
    reduce o (fun v => v.ewB != 2) [srcA o, .one o.vs2.toNat (ceilDiv v.vl v.groupLen)] (fun _ => false)
      (fun v => v.redAdd) leafOf scaleGroup fun _ => 0) s

end Sys2Proof.Machine
end

