-- ==== Sys2Proof/Machine/Dispatch.lean ====
section
/-! DEFINITION. One arm for each row of the opcode table: its meaning. -/

namespace Sys2Proof.Machine

/-- The effect of one step of the opcode table. -/
def exec (i : Instr) (s : State) : Host.Outcome State Fault Refusal :=
  match i with
  | .vconf rd rs1 => Sys2Proof.Machine.execVconf rd rs1 s
  | .vconfi rd imm => Sys2Proof.Machine.execVconfi rd imm s
  | .vstrip rd rs1 => Sys2Proof.Machine.execVstrip rd rs1 s
  | .vstripi rd imm => Sys2Proof.Machine.execVstripi rd imm s
  | .vclose => Sys2Proof.Machine.execVclose s
  | .jspawn rd rs1 => Sys2Proof.Machine.execJspawn rd rs1 s
  | .jspawnn rd rs1 rs2 => Sys2Proof.Machine.execJspawnn rd rs1 rs2 s
  | .jcont rd rs1 => Sys2Proof.Machine.execJcont rd rs1 s
  | .tend => Sys2Proof.Machine.execTend s
  | .tendr rs1 => Sys2Proof.Machine.execTendr rs1 s
  | .jabandon => Sys2Proof.Machine.execJabandon s
  | .jdefer => Sys2Proof.Machine.execJdefer s
  | .tnow rd => Sys2Proof.Machine.execTnow rd s
  | .cpost rd rs1 => Sys2Proof.Machine.execCpost rd rs1 s
  | .tlread rd rs1 => Sys2Proof.Machine.execTlread rd rs1 s
  | .tlwait rs1 rs2 => Sys2Proof.Machine.execTlwait rs1 rs2 s
  | .tlpoll rd rs1 rs2 => Sys2Proof.Machine.execTlpoll rd rs1 rs2 s
  | .mgangVreg rd rs1 v => Sys2Proof.Machine.execMgangVreg rd rs1 v s
  | .mgangCsram rd rs1 rs2 rs3 => Sys2Proof.Machine.execMgangCsram rd rs1 rs2 rs3 s
  | .mgangNoOperand rd rs1 => Sys2Proof.Machine.execMgangNoOperand rd rs1 s
  | .wdrive rs1 => Sys2Proof.Machine.execWdrive rs1 s
  | .tagwany rd rs1 => Sys2Proof.Machine.execTagwany rd rs1 s
  | .tagwall rd rs1 => Sys2Proof.Machine.execTagwall rd rs1 s
  | .tagffr rd rs1 => Sys2Proof.Machine.execTagffr rd rs1 s
  | .tagclr rs1 => Sys2Proof.Machine.execTagclr rs1 s
  | .sbind q v rs1 => Sys2Proof.Machine.execSbind q v rs1 s
  | .sunbind q => Sys2Proof.Machine.execSunbind q s
  | .sflush q => Sys2Proof.Machine.execSflush q s
  | .sstat rd q => Sys2Proof.Machine.execSstat rd q s
  | .sskip q rs1 => Sys2Proof.Machine.execSskip q rs1 s
  | .llw rd rs1 => Sys2Proof.Machine.execLlw rd rs1 s
  | .lld rd rs1 => Sys2Proof.Machine.execLld rd rs1 s
  | .llpw rd rs1 => Sys2Proof.Machine.execLlpw rd rs1 s
  | .llpd rd rs1 => Sys2Proof.Machine.execLlpd rd rs1 s
  | .lsw rs2 rs1 => Sys2Proof.Machine.execLsw rs2 rs1 s
  | .lsd rs2 rs1 => Sys2Proof.Machine.execLsd rs2 rs1 s
  | .lclr rs1 => Sys2Proof.Machine.execLclr rs1 s
  | .scfence scope => Sys2Proof.Machine.execScfence scope s
  | .chkerr rd => Sys2Proof.Machine.execChkerr rd s
  | .rnd rd => Sys2Proof.Machine.execRnd rd s
  | .hret => Sys2Proof.Machine.execHret s
  | .hwait => Sys2Proof.Machine.execHwait s
  | .msend rd rs1 rs2 => Sys2Proof.Machine.execMsend rd rs1 rs2 s
  | .mpoll rd rs1 => Sys2Proof.Machine.execMpoll rd rs1 s
  | .ovfld rs1 => Sys2Proof.Machine.execOvfld rs1 s
  | .mcack => Sys2Proof.Machine.execMcack s
  | .load k rd rs1 imm form => Sys2Proof.Machine.execLoad k rd rs1 imm form s
  | .store k rs2 rs1 imm form => Sys2Proof.Machine.execStore k rs2 rs1 imm form s
  | .amo op dbl aq rl rd rs1 rs2 => Sys2Proof.Machine.execAmo op dbl aq rl rd rs1 rs2 s
  | .lrSc op dbl aq rl rd rs1 rs2 => Sys2Proof.Machine.execLrSc op dbl aq rl rd rs1 rs2 s
  | .fence fm pred succ rd rs1 => Sys2Proof.Machine.execFence fm pred succ rd rs1 s
  | .fenceI imm rd rs1 => Sys2Proof.Machine.execFenceI imm rd rs1 s
  | .sfenceVma rs1 rs2 => Sys2Proof.Machine.execSfenceVma rs1 rs2 s
  | .wfi => Sys2Proof.Machine.execWfi s
  | .ecall => Sys2Proof.Machine.execEcall s
  | .ebreak form => Sys2Proof.Machine.execEbreak form s
  | .sret => Sys2Proof.Machine.execSret s
  | .mret => Sys2Proof.Machine.execMret s
  | .csr op rd src csr => Sys2Proof.Machine.execCsr op rd src csr s
  | .fpScalar op form => Sys2Proof.Machine.execFpScalar op form s
  | .vfadd o => Sys2Proof.Machine.execVfadd o s
  | .vfsub o => Sys2Proof.Machine.execVfsub o s
  | .vfmul o => Sys2Proof.Machine.execVfmul o s
  | .vfmin o => Sys2Proof.Machine.execVfmin o s
  | .vfmax o => Sys2Proof.Machine.execVfmax o s
  | .vfdiv o => Sys2Proof.Machine.execVfdiv o s
  | .vfsgnj o => Sys2Proof.Machine.execVfsgnj o s
  | .vfma o => Sys2Proof.Machine.execVfma o s
  | .vfms o => Sys2Proof.Machine.execVfms o s
  | .vfnma o => Sys2Proof.Machine.execVfnma o s
  | .vfnms o => Sys2Proof.Machine.execVfnms o s
  | .vfsqrt o => Sys2Proof.Machine.execVfsqrt o s
  | .vfrcp o => Sys2Proof.Machine.execVfrcp o s
  | .vfrsqrt o => Sys2Proof.Machine.execVfrsqrt o s
  | .vfabs o => Sys2Proof.Machine.execVfabs o s
  | .vfneg o => Sys2Proof.Machine.execVfneg o s
  | .vfexp2 o => Sys2Proof.Machine.execVfexp2 o s
  | .vflog2 o => Sys2Proof.Machine.execVflog2 o s
  | .vfclass o => Sys2Proof.Machine.execVfclass o s
  | .vfceq o => Sys2Proof.Machine.execVfceq o s
  | .vfclt o => Sys2Proof.Machine.execVfclt o s
  | .vfcle o => Sys2Proof.Machine.execVfcle o s
  | .vcadd o => Sys2Proof.Machine.execVcadd o s
  | .vcsub o => Sys2Proof.Machine.execVcsub o s
  | .vcmul o => Sys2Proof.Machine.execVcmul o s
  | .vcmulj o => Sys2Proof.Machine.execVcmulj o s
  | .vcmac o => Sys2Proof.Machine.execVcmac o s
  | .vcmacj o => Sys2Proof.Machine.execVcmacj o s
  | .vcmsc o => Sys2Proof.Machine.execVcmsc o s
  | .vcelim o => Sys2Proof.Machine.execVcelim o s
  | .vcrcp o => Sys2Proof.Machine.execVcrcp o s
  | .vcnorm o => Sys2Proof.Machine.execVcnorm o s
  | .vcconj o => Sys2Proof.Machine.execVcconj o s
  | .vcrotj o => Sys2Proof.Machine.execVcrotj o s
  | .vbfly o => Sys2Proof.Machine.execVbfly o s
  | .vbflyi o => Sys2Proof.Machine.execVbflyi o s
  | .vadd o => Sys2Proof.Machine.execVadd o s
  | .vsub o => Sys2Proof.Machine.execVsub o s
  | .vmul o => Sys2Proof.Machine.execVmul o s
  | .vmulh o => Sys2Proof.Machine.execVmulh o s
  | .vand o => Sys2Proof.Machine.execVand o s
  | .vor o => Sys2Proof.Machine.execVor o s
  | .vxor o => Sys2Proof.Machine.execVxor o s
  | .vsll o => Sys2Proof.Machine.execVsll o s
  | .vsrl o => Sys2Proof.Machine.execVsrl o s
  | .vsra o => Sys2Proof.Machine.execVsra o s
  | .vmin o => Sys2Proof.Machine.execVmin o s
  | .vmax o => Sys2Proof.Machine.execVmax o s
  | .vminu o => Sys2Proof.Machine.execVminu o s
  | .vmaxu o => Sys2Proof.Machine.execVmaxu o s
  | .vsadd o => Sys2Proof.Machine.execVsadd o s
  | .vceq o => Sys2Proof.Machine.execVceq o s
  | .vclt o => Sys2Proof.Machine.execVclt o s
  | .vcltu o => Sys2Proof.Machine.execVcltu o s
  | .vid o => Sys2Proof.Machine.execVid o s
  | .vmv o => Sys2Proof.Machine.execVmv o s
  | .vslideup o => Sys2Proof.Machine.execVslideup o s
  | .vslidedn o => Sys2Proof.Machine.execVslidedn o s
  | .vrotl o => Sys2Proof.Machine.execVrotl o s
  | .vgather o => Sys2Proof.Machine.execVgather o s
  | .vzip o => Sys2Proof.Machine.execVzip o s
  | .vunzip o => Sys2Proof.Machine.execVunzip o s
  | .vbrev o => Sys2Proof.Machine.execVbrev o s
  | .vcompress o => Sys2Proof.Machine.execVcompress o s
  | .vredsum o => Sys2Proof.Machine.execVredsum o s
  | .vredmax o => Sys2Proof.Machine.execVredmax o s
  | .vredbs o => Sys2Proof.Machine.execVredbs o s
  | .vdot o => Sys2Proof.Machine.execVdot o s
  | .vext o => Sys2Proof.Machine.execVext o s
  | .vins o => Sys2Proof.Machine.execVins o s
  | .kand o => Sys2Proof.Machine.execKand o s
  | .kor o => Sys2Proof.Machine.execKor o s
  | .kxor o => Sys2Proof.Machine.execKxor o s
  | .kandn o => Sys2Proof.Machine.execKandn o s
  | .knot o => Sys2Proof.Machine.execKnot o s
  | .kpop o => Sys2Proof.Machine.execKpop o s
  | .kffs o => Sys2Proof.Machine.execKffs o s
  | .kvl o => Sys2Proof.Machine.execKvl o s
  | .vfcvtif o => Sys2Proof.Machine.execVfcvtif o s
  | .vfcvtfi o => Sys2Proof.Machine.execVfcvtfi o s
  | .vpwl o => Sys2Proof.Machine.execVpwl o s
  | .vbscale o => Sys2Proof.Machine.execVbscale o s
  | .vrnd o => Sys2Proof.Machine.execVrnd o s
  | .vracc o => Sys2Proof.Machine.execVracc o s
  | .vwacc o => Sys2Proof.Machine.execVwacc o s
  | .vzacc o => Sys2Proof.Machine.execVzacc o s
  | .vld o => Sys2Proof.Machine.execVld o s
  | .vlds o => Sys2Proof.Machine.execVlds o s
  | .vldx o => Sys2Proof.Machine.execVldx o s
  | .vldbs o => Sys2Proof.Machine.execVldbs o s
  | .vldk o => Sys2Proof.Machine.execVldk o s
  | .vst o => Sys2Proof.Machine.execVst o s
  | .vsts o => Sys2Proof.Machine.execVsts o s
  | .vstx o => Sys2Proof.Machine.execVstx o s
  | .vstbs o => Sys2Proof.Machine.execVstbs o s
  | .vstk o => Sys2Proof.Machine.execVstk o s
  | .vamo o => Sys2Proof.Machine.execVamo o s
  | .vcfgWrite v => Sys2Proof.Machine.execVcfgWrite v s
  | .lanemapWrite v => Sys2Proof.Machine.execLanemapWrite v s
  | .srvroleWrite v => Sys2Proof.Machine.execSrvroleWrite v s
  | .registerWrite t v => Sys2Proof.Machine.execRegisterWrite t v s
  | .bmodeWrite cl bank v => Sys2Proof.Machine.execBmodeWrite cl bank v s
  | .modeChangeComplete cl bank => Sys2Proof.Machine.execModeChangeComplete cl bank s
  | .fqlevelReset cl bank => Sys2Proof.Machine.execFqlevelReset cl bank s
  | .flushall => Sys2Proof.Machine.execFlushall s
  | .domclr dom => Sys2Proof.Machine.execDomclr dom s
  | .clrcnt => Sys2Proof.Machine.execClrcnt s
  | .l2CommandComplete => Sys2Proof.Machine.execL2CommandComplete s
  | .l2Writeback line dom dirty => Sys2Proof.Machine.execL2Writeback line dom dirty s
  | .l2AllocationTimeout line isWrite => Sys2Proof.Machine.execL2AllocationTimeout line isWrite s
  | .efwakeWrite cl rows => Sys2Proof.Machine.execEfwakeWrite cl rows s
  | .tstepWrite ctr v => Sys2Proof.Machine.execTstepWrite ctr v s
  | .tbeacon ctr target => Sys2Proof.Machine.execTbeacon ctr target s
  | .beaconReceive ctr src => Sys2Proof.Machine.execBeaconReceive ctr src s
  | .txprodWrite port ring v => Sys2Proof.Machine.execTxprodWrite port ring v s
  | .txLaunch port ring => Sys2Proof.Machine.execTxLaunch port ring s
  | .pwrcapWrite v => Sys2Proof.Machine.execPwrcapWrite v s
  | .i3cPowerCapWrite v => Sys2Proof.Machine.execI3cPowerCapWrite v s
  | .powerCapApply => Sys2Proof.Machine.execPowerCapApply s
  | .powerWindow watts => Sys2Proof.Machine.execPowerWindow watts s
  | .grantRaise => Sys2Proof.Machine.execGrantRaise s
  | .coldStartRequest => Sys2Proof.Machine.execColdStartRequest s
  | .warmStartRequest => Sys2Proof.Machine.execWarmStartRequest s
  | .shutdownDrainTimeout => Sys2Proof.Machine.execShutdownDrainTimeout s
  | .rolelockWrite v => Sys2Proof.Machine.execRolelockWrite v s
  | .attest => Sys2Proof.Machine.execAttest s
  | .lcset => Sys2Proof.Machine.execLcset s
  | .svnset => Sys2Proof.Machine.execSvnset s
  | .mailboxBadop => Sys2Proof.Machine.execMailboxBadop s
  | .powerOn => Sys2Proof.Machine.execPowerOn s
  | .i3cColdRequest => Sys2Proof.Machine.execI3cColdRequest s
  | .freeze => Sys2Proof.Machine.execFreeze s
  | .hostSubmission page off record => Sys2Proof.Machine.execHostSubmission page off record s
  | .submissionPageOtherAccess page isRead => Sys2Proof.Machine.execSubmissionPageOtherAccess page isRead s
  | .hostPortReset => Sys2Proof.Machine.execHostPortReset s
  | .hostLinkUp => Sys2Proof.Machine.execHostLinkUp s
  | .hostRingItime ring => Sys2Proof.Machine.execHostRingItime ring s
  | .cxlMemAccess off len data poisoned => Sys2Proof.Machine.execCxlMemAccess off len data poisoned s
  | .twinRequest pa op => Sys2Proof.Machine.execTwinRequest pa op s
  | .twdoorStore idx v => Sys2Proof.Machine.execTwdoorStore idx v s
  | .twinHeartbeatSend => Sys2Proof.Machine.execTwinHeartbeatSend s
  | .twinHeartbeatReceive => Sys2Proof.Machine.execTwinHeartbeatReceive s
  | .twinHeartbeatTimeout => Sys2Proof.Machine.execTwinHeartbeatTimeout s
  | .frameReceive port sub fcsOk frame => Sys2Proof.Machine.execFrameReceive port sub fcsOk frame s
  | .subportLinkLost port sub => Sys2Proof.Machine.execSubportLinkLost port sub s
  | .subportLinkUp port sub => Sys2Proof.Machine.execSubportLinkUp port sub s
  | .messageLand idx => Sys2Proof.Machine.execMessageLand idx s
  | .handlerActivation => Sys2Proof.Machine.execHandlerActivation s
  | .completionMessageSend => Sys2Proof.Machine.execCompletionMessageSend s
  | .prefetchFill hart => Sys2Proof.Machine.execPrefetchFill hart s
  | .prefetchRecall hart => Sys2Proof.Machine.execPrefetchRecall hart s
  | .waitingContinuationEnqueue => Sys2Proof.Machine.execWaitingContinuationEnqueue s
  | .jobRelease job => Sys2Proof.Machine.execJobRelease job s
  | .jobCliff job => Sys2Proof.Machine.execJobCliff job s
  | .abandonSignal => Sys2Proof.Machine.execAbandonSignal s
  | .abandonGraceExpiry => Sys2Proof.Machine.execAbandonGraceExpiry s
  | .budgetExpiry => Sys2Proof.Machine.execBudgetExpiry s
  | .reclaimLate cl row => Sys2Proof.Machine.execReclaimLate cl row s
  | .progressTimeout => Sys2Proof.Machine.execProgressTimeout s
  | .interrupt code => Sys2Proof.Machine.execInterrupt code s
  | .latchWaitEnd => Sys2Proof.Machine.execLatchWaitEnd s
  | .timelineWaitEnd => Sys2Proof.Machine.execTimelineWaitEnd s
  | .tagWaitEnd => Sys2Proof.Machine.execTagWaitEnd s
  | .streamWaitEnd => Sys2Proof.Machine.execStreamWaitEnd s
  | .postStallEnd => Sys2Proof.Machine.execPostStallEnd s
  | .chainStart cl row => Sys2Proof.Machine.execChainStart cl row s
  | .wdense cl row => Sys2Proof.Machine.execWdense cl row s
  | .wsparse cl row => Sys2Proof.Machine.execWsparse cl row s
  | .wtwo cl row => Sys2Proof.Machine.execWtwo cl row s
  | .wlrc cl row => Sys2Proof.Machine.execWlrc cl row s
  | .wact cl row => Sys2Proof.Machine.execWact cl row s
  | .wout cl row => Sys2Proof.Machine.execWout cl row s
  | .woutWindowTimeout cl row col => Sys2Proof.Machine.execWoutWindowTimeout cl row col s
  | .wsel cl row => Sys2Proof.Machine.execWsel cl row s
  | .wcall cl row => Sys2Proof.Machine.execWcall cl row s
  | .wret cl row => Sys2Proof.Machine.execWret cl row s
  | .wend cl row => Sys2Proof.Machine.execWend cl row s
  | .mma cl row => Sys2Proof.Machine.execMma cl row s
  | .mmas cl row => Sys2Proof.Machine.execMmas cl row s
  | .mmaw2 cl row => Sys2Proof.Machine.execMmaw2 cl row s
  | .mslide cl row => Sys2Proof.Machine.execMslide cl row s
  | .mzero cl row => Sys2Proof.Machine.execMzero cl row s
  | .mdrain cl row => Sys2Proof.Machine.execMdrain cl row s
  | .matrixCommandComplete cl row => Sys2Proof.Machine.execMatrixCommandComplete cl row s
  | .copynd cl ce queue => Sys2Proof.Machine.execCopynd cl ce queue s
  | .fill cl ce queue => Sys2Proof.Machine.execFill cl ce queue s
  | .replay cl ce queue => Sys2Proof.Machine.execReplay cl ce queue s
  | .ldpcdec hart => Sys2Proof.Machine.execLdpcdec hart s
  | .ldpcenc hart => Sys2Proof.Machine.execLdpcenc hart s
  | .poldec hart => Sys2Proof.Machine.execPoldec hart s
  | .polenc hart => Sys2Proof.Machine.execPolenc hart s
  | .rmatch hart => Sys2Proof.Machine.execRmatch hart s
  | .dematch hart => Sys2Proof.Machine.execDematch hart s
  | .commandPublish hart ctx => Sys2Proof.Machine.execCommandPublish hart ctx s
  | .heldFaultRecordWrite cl => Sys2Proof.Machine.execHeldFaultRecordWrite cl s
  | .residueMismatch dclass elem lane => Sys2Proof.Machine.execResidueMismatch dclass elem lane s
  | .mirrorMismatch elem lane mlane => Sys2Proof.Machine.execMirrorMismatch elem lane mlane s
  | .jmaResidueMismatch cl row col => Sys2Proof.Machine.execJmaResidueMismatch cl row col s
  | .eccCorrected loc => Sys2Proof.Machine.execEccCorrected loc s
  | .eccUncorrectable loc => Sys2Proof.Machine.execEccUncorrectable loc s
  | .patrolScrub => Sys2Proof.Machine.execPatrolScrub s
  | .powerLoss => Sys2Proof.Machine.execPowerLoss s
  | .milzinCredit => Sys2Proof.Machine.execMilzinCredit s

end Sys2Proof.Machine
end

