-- ==== Sys2Proof/Machine/Step.lean ====
section
/-! DEFINITION. One step of the module: a freeze or a loss of power that comes now, what is due, else the next turn of the agenda,
else one instruction of the hart whose turn it is. -/

namespace Sys2Proof.Machine

/-- Performs a step of the opcode table on a hart; the turn stays where it was. -/
def execOn (n : Nat) (i : Instr) (s : State) : Host.Outcome State Fault Refusal :=
  match exec i (s.turnTo n) with
  | .next t => .next (t.turnTo s.cpu.num)
  | r => r

/-- Performs the instruction that was fetched. -/
def execDecoded (w : Nat) (d : Except DecodeError Decoded) (s : State) : Host.Outcome State Fault Refusal :=
  match d with
  | .ok (.row i) =>
    withLookahead (instrLen i) (instrUse i s.cpu) (closesWindow i) (opensWindow i) s (exec i s)
  | .ok (.base b form) => withLookahead form.len (baseUse b) (baseCloses b s.cpu) 0 s (execBase b form w s)
  | .error e => .next (s.takeTrap (.plain 2 (BitVec.ofNat 64 e.bits)) e.bits)

/-- Whether a hart fetches nothing because its row's chain runs (R273). -/
def State.inChain (s : State) : Bool :=
  match s.cpu.wait with
  | some ⟨.chain, _, _, _⟩ => (s.row s.cpu.cluster s.cpu.row).chain.isSome
  | _ => false

/-- One instruction of the hart whose turn it is; one whose trap still waits for the older stores goes on with that trap (R54). -/
def stepHart (s : State) : Host.Outcome State Fault Refusal :=
  if s.power.stopped || !s.cpu.runs || s.inChain then .next s
  else
    match s.cpu.trap with
    | some p => .next (s.takeTrap p.1 p.2)
    | none =>
      match s.fetch with
      | .stall => .next s
      | .trap e t => .next (t.takeTrap e 0)
      | .bits w bad t => if bad then .next (t.takeTrap t.fetchPoison w) else execDecoded w (decode w) t

/-- One turn of the agenda; an event that cannot come from there is passed over. -/
def stepTurn (t : Turn) (s : State) : Host.Outcome State Fault Refusal :=
  match t with
  | .hart n => if n < hartCount then .next (s.turnTo n) else .fault .noSuchHart
  | .run => stepHart s
  | .ticks n => .next (s.passTime n)
  | .event i => if s.admits i then exec i s else .next s
  | .evict n va => if n < hartCount then .next (if s.power.stopped then s else s.evictTlb n va) else .fault .noSuchHart
  | .evictL2 line => .next (if s.power.stopped then s else s.evictLine line)
  | .record => .next (if s.power.stopped then s else s.takeRecord)
  | .hostWrites bus data => .next (s.hostWrite bus data)
  | .hostRefuses page on => .next (s.hostAnswers page on)

/-- Whether a turn is a freeze or a loss of power: it comes at any instant, before what is due (R320, R321, R391). -/
def Turn.strikes : Turn → Bool
  | .event .freeze | .event .powerLoss => true
  | _ => false

/-- The agenda begins again with its round. -/
def refill (r : Host.Outcome State Fault Refusal) : Host.Outcome State Fault Refusal :=
  match r with
  | .next s => .next { s with agenda := s.round }
  | r => r

/-- One step of the module: a freeze or a loss of power that comes now, what is due, the next turn of the agenda, or, once the
agenda is empty, an instruction of the hart whose turn it is, after which the agenda begins again with its round. DESIGN CHOICE, log 12. -/
def step (s : State) : Host.Outcome State Fault Refusal :=
  match s.agenda with
  | [] =>
    match s.due with
    | some p => execOn p.1 p.2 s
    | none => refill (stepHart s)
  | t :: r =>
    if t.strikes then stepTurn t { s with agenda := r }
    else
      match s.due with
      | some p => execOn p.1 p.2 s
      | none => stepTurn t { s with agenda := r }

/-- The physical address at which the next instruction's first byte is fetched. -/
def State.fetchAddr (s : State) : Nat :=
  match xlat s .fetch s.cpu.pc with
  | .ok (x, _) => x.pa
  | .error _ => s.cpu.pc.toNat

/-- s with an instruction's bits stored where the hart whose turn it is fetches next, and nothing waiting before it. DESIGN CHOICE, log 13. -/
def State.withFetchWord (s : State) (nbits w : Nat) : State :=
  { s with mem := memWrite s.mem s.fetchAddr (max 6 (nbits / 8)) w, agenda := [] }

end Sys2Proof.Machine
end

