-- ==== Sys2Proof/Safety.lean ====
section
/-! DEFINITION. What counts as a safe step and a safe run: one that answers a next state, neither a fault nor a refusal. -/

namespace Sys2Proof.Machine

/-- Whether an outcome is a next state. -/
def isNext (r : Host.Outcome State Fault Refusal) : Bool :=
  match r with
  | .next _ => true
  | _ => false

/-- The state an outcome leaves, s where there is none. -/
def nextOr (s : State) (r : Host.Outcome State Fault Refusal) : State :=
  match r with
  | .next t => t
  | _ => s

/-- A run of k steps in which every step answers a next state. -/
def safeRun : Nat → State → Bool
  | 0, _ => true
  | k + 1, s => isNext (step s) && safeRun k (nextOr s (step s))

/-- The machine once an instruction of n bytes has retired that left its hart as h: the pc is past it, the count of retired
instructions is one more, the hart waits for nothing. -/
abbrev State.retired (s : State) (h : Hart) (n : Nat) : State := { s with cpu := h.advance n }

/-- The machine whose hart waits in an instruction that left it as h. -/
abbrev State.waiting (s : State) (h : Hart) (w : Wait) : State := { s with cpu := { h with wait := some w } }

/-- The machine with its hart's count of retired instructions at a value. -/
abbrev State.counting (s : State) (n : Word) : State := { s with cpu := { s.cpu with csr := { s.cpu.csr with minstret := n } } }

/-- The illegal-instruction exception of instruction i, its bits as trap value (R151). -/
abbrev State.illegalAt (s : State) (i : Instr) : State := s.takeTrap (.plain 2 (instrBits i)) (instrBits i).toNat

/-- No abandon signal stops the running task at a commit point: it runs none, none has come, or a trap handler runs (R75). -/
def noStop (s : State) : Prop := ∀ t, s.cpu.task = some t → (t.signal && t.trapDepth == 0) = false

/-- A commit point in s completes and leaves t: no buffered store has to wait, none ends the core's task, and no abandon
signal stops the task there (R51, R75). -/
def commitsTo (s t : State) : Prop := s.commit = (t, none) ∧ t.cpu.run = s.cpu.run ∧ noStop s

/-- A body run in s answers a and leaves t. -/
abbrev answers {α : Type} (m : M α) (s : State) (a : α) (t : State) : Prop := m.run.run s = (.ok a, t)

/-- No stream slot of the core is bound. -/
def noSlots (h : Hart) : Prop := ∀ i, h.vec.slots.getD i none = none

/-- The hart executes the program of task r, not a handler activation. -/
def inTaskOf (s : State) (r : TaskRun) : Prop := s.cpu.run = .task r ∧ s.cpu.act = none

/-- No message sink of the core has gathered bytes for a message that has not left. -/
def drained (h : Hart) : Prop :=
  ∀ i sl d l, h.vec.slots.getD i none = some sl → sl.kind = .msgSink d l → sl.gathered = []

/-- The core without the binding of a slot. -/
def Hart.unslotted (h : Hart) (k : Nat) : Hart := { h with vec := { h.vec with slots := h.vec.slots.setIfInBounds k none } }

/-- `tend`, or `tendr` with a result and its mark, ends task r of job j at a commit point that leaves t. -/
def taskEnds (s t : State) (i : Instr) (r : TaskRun) (j : Job) (result : Option (Word × Bool)) : Prop :=
  (i = .tend ∧ result = none ∨ ∃ rs1, i = .tendr rs1 ∧ result = some (s.cpu.xr rs1, s.cpu.xPoisoned rs1))
    ∧ inTaskOf s r ∧ s.cpu.matFaults = [] ∧ commitsTo s t ∧ t.cpu.num = s.cpu.num ∧ t.cpu.x = s.cpu.x
    ∧ t.cpu.xpoison = s.cpu.xpoison ∧ t.cpu.prefetch = [] ∧ t.job? r.job = some j ∧ j.final = false

/-- Job d is n generations below job p. -/
def State.below (s : State) (p : Nat) : Nat → Nat → Prop
  | 0, d => d = p
  | n + 1, d => ∃ j q, s.job? d = some j ∧ j.parent = some q ∧ s.below p n q

/-- Job d is job p or descends from it; a tree of jobs has at most sixteen levels (R44). -/
def State.inFamily (s : State) (p d : Nat) : Prop := ∃ n, n ≤ 16 ∧ s.below p n d

/-- A core with nothing buffered, nothing popped and no open strip. -/
def quiet (s : State) : Prop := s.cpu.buf = [] ∧ s.cpu.pops = [] ∧ s.cpu.vec.strip = none

/-- A hart with nothing buffered, nothing popped and no open strip. -/
def Hart.quiet (h : Hart) : Prop := h.buf = [] ∧ h.pops = [] ∧ h.vec.strip = none

/-- Hart g has become t by taking an exception of a delegable cause at its pc: into the S-mode handler where `medeleg` sends it from
below M-mode, else into the M-mode handler (R332). -/
def entered (g t : Hart) (cause : Nat) (tval : Word) : Prop :=
  let down := g.mode ≠ .m ∧ g.csr.medeleg.getLsbD cause = true
  t.x = g.x ∧ t.posted = g.posted ∧ t.wait = none
    ∧ (down → t.mode = .s ∧ t.pc = g.csr.stvec &&& ~~~(3 : Word) ∧ t.csr.sepc = g.pc
        ∧ t.csr.scause = BitVec.ofNat 64 cause ∧ t.csr.stval = tval)
    ∧ (¬down → t.mode = .m ∧ t.pc = g.csr.mtvec &&& ~~~(3 : Word) ∧ t.csr.mepc = g.pc
        ∧ t.csr.mcause = BitVec.ofNat 64 cause ∧ t.csr.mtval = tval)

/-- Every core of a row takes HINGE with the address of its own command word or block: each hart n of it has become the one that
machine t holds. Nothing else joins or starts (R254, R347). -/
def hingesAll (s t : State) (cl row : Nat) (addr : Nat → Word) : Prop :=
  (∀ c, c < 4 → entered (s.getHart (vcNum cl (4 * row + c))) (t.getHart (vcNum cl (4 * row + c))) 28 (addr c))
    ∧ (t.row cl row).joins = [] ∧ (t.row cl row).queue = (s.row cl row).queue ∧ (t.row cl row).chain = (s.row cl row).chain
    ∧ t.mem = s.mem

/-- The machine with the lines of LPDDR6 that cores have asked the L2 for (R92). -/
abbrev State.asking (s : State) (q : List (Nat × Option (BitVec 12))) : State := { s with l2 := { s.l2 with asked := q } }

/-- An access translates to x and leaves the machine as it is, whatever lines have been asked for: by an entry that the hart's TLB
holds, or as identity. -/
def held (s : State) (acc : Acc) (a : Word) (x : Xlat) : Prop := ∀ q, xlat (s.asking q) acc a = .ok (x, s.asking q)

/-! ### Address translation -/

/-- A PTE that points to the next table: V alone of V, R, W and X, and no reserved bit set, N, WX, DD and PD among them (R102, R103);
that U, A and D count as reserved there is a reading of the model's (log 27). -/
def pointerPte (pte : Nat) : Prop := pte % 16 = 1 ∧ pte / 2 ^ 4 % 2 = 0 ∧ pte / 2 ^ 6 % 4 = 0 ∧ pte / 2 ^ 54 = 0

/-- The size of the page that a PTE maps as a leaf of its level, where it is one that R103 and R104 admit. -/
def leafPage (pte level : Nat) : Option Nat :=
  let ppn := pte / 2 ^ 10 % 2 ^ 44
  let kinds := [3, 7, 9, 11, 15]
  if pte % 16 ∉ kinds ∨ pte / 2 ^ 54 % 16 ≠ 0 ∨ pte / 2 ^ 61 % 4 ≠ 0 ∨ 2 < level then none
  else if pte / 2 ^ 63 % 2 = 0 then if ppn % 512 ^ level = 0 then some (4096 * 512 ^ level) else none
  else if level = 0 ∧ ppn % 16 = 8 then some 0x10000
  else if level = 2 ∧ ppn % 2 ^ 21 = 2 ^ 20 then some 0x200000000
  else none

/-- The PTE that the Sv48 walk of va from a root table reads at a level, by its address: each one above it points on (R102). -/
inductive WalkReads (m : Memory) (va root : Nat) : Nat → Nat → Prop where
  | root : WalkReads m va root 3 (root * 4096 + 8 * (va / 2 ^ 39 % 512))
  | next (level a : Nat) : WalkReads m va root (level + 1) a → a < 0x4000000000 → pointerPte (memRead m a 8) →
      WalkReads m va root level
        (memRead m a 8 / 2 ^ 10 % 2 ^ 44 * 4096 + 8 * (va / 2 ^ (12 + 9 * level) % 512))

/-- Whether a page's permission bits admit an access: A, and D for a store; R, W or X by its kind, X for R under MXR; U as the mode
has it, or SUM for data (R102, R103). -/
def pageAdmits (p : Nat) (c : Ctx) (acc : Acc) : Prop :=
  let bit := fun (k : Nat) => p / 2 ^ k % 2 = 1
  bit 6
    ∧ (match acc with | .fetch => bit 3 | .load => bit 1 ∨ c.mxr = true ∧ bit 3 | .store => bit 2 ∧ bit 7)
    ∧ (if c.mode = .u then bit 4 else bit 4 → c.sum = true ∧ acc ≠ .fetch)

/-! ### Refused accesses -/

/-- What refuses an access of n bytes in a mode for its region, and with which cause: a hole, MMIO for a vector access, for a size
other than 4 or 8 and where no register admits it, a CSRAM bank in CACHE mode and a store to one in FIFO mode, and a twin port that is
down are access faults; a host port that is down is HOSTGONE; a scalar access that leaves its bank or LPDDR6, or is misaligned where
only aligned ones complete, is misaligned (R32, R34, R80, R81, R302, R398; the end of LPDDR6, and which comes first where two apply,
are the model's, log 96). -/
def refused (s : State) (scalar : Bool) (acc : Acc) (pa n : Nat) (mode : Mode) (cause : Nat) : Prop :=
  let odd := scalar = true ∧ pa % n ≠ 0
  let mis := cause = acc.misCause
  let no := cause = acc.accessCause
  match regionOf pa with
  | .lpddr => scalar = true ∧ 0x4000000000 < pa + n ∧ mis
  | .csram c b off =>
    let k := s.bank c b
    let closed := k.mode = 0 ∨ k.mode = 3 ∧ acc = .store
    k.busy = none ∧ (closed ∧ no ∨ ¬closed ∧ mis ∧ (odd ∧ k.mode ≠ 1 ∨ scalar = true ∧ 0x40000 < off + n))
  | .mmio off =>
    let admitted := ∃ r, mmioReg (off - off % 8) = some r ∧ (match acc with
      | .store => r.storeOk s.cpu mode n = true
      | _ => mmioLoadOk off mode = true)
    odd ∧ mis ∨ ¬odd ∧ no ∧ ¬(scalar = true ∧ (n = 4 ∨ n = 8) ∧ admitted)
  | .host _ => odd ∧ mis ∨ ¬odd ∧ s.ports.hostUp = false ∧ cause = 50
  | .twin _ => odd ∧ mis ∨ ¬odd ∧ s.ports.twinUp = false ∧ no
  | .hole => no

/-! ### Standard instructions -/

/-- The computing instructions of RV64I, M, Zba and Zbb: the result of each from its operands (R16, R152). -/
def aluResult (op : AluOp) (a b : Word) : Word :=
  let n := a.toNat
  let m := b.toNat
  let sh := m % 64
  let sh32 := m % 32
  let lo := a.truncate 32
  let lom := b.truncate 32
  let uw := n % 2 ^ 32
  let sx := fun (w : BitVec 32) => w.signExtend 64
  let num := fun (k : Nat) => BitVec.ofNat 64 k
  match op with
  | .add => a + b | .sub => a - b | .mul => a * b
  | .and => a &&& b | .or => a ||| b | .xor => a ^^^ b
  | .andn => a &&& ~~~b | .orn => a ||| ~~~b | .xnor => ~~~(a ^^^ b)
  | .sll => a <<< sh | .srl => a >>> sh | .sra => a.sshiftRight sh
  | .slt => num (if a.toInt < b.toInt then 1 else 0) | .sltu => num (if n < m then 1 else 0)
  | .min => if a.toInt ≤ b.toInt then a else b | .max => if a.toInt ≤ b.toInt then b else a
  | .minu => num (min n m) | .maxu => num (max n m)
  | .addw => sx (lo + lom) | .subw => sx (lo - lom) | .mulw => sx (lo * lom)
  | .sllw => sx (lo <<< sh32) | .srlw => sx (lo >>> sh32) | .sraw => sx (lo.sshiftRight sh32)
  | .mulh => BitVec.ofInt 64 (a.toInt * b.toInt / 2 ^ 64)
  | .mulhsu => BitVec.ofInt 64 (a.toInt * (m : Int) / 2 ^ 64)
  | .mulhu => num (n * m / 2 ^ 64)
  -- the quotient by zero is all ones, the remainder the dividend; the overflowing quotient is the dividend, its remainder 0
  | .div => if b = 0 then -1 else BitVec.ofInt 64 (a.toInt.tdiv b.toInt)
  | .divu => if b = 0 then -1 else num (n / m)
  | .rem => if b = 0 then a else BitVec.ofInt 64 (a.toInt.tmod b.toInt)
  | .remu => num (n % m)
  | .divw => if lom = 0 then -1 else sx (BitVec.ofInt 32 (lo.toInt.tdiv lom.toInt))
  | .divuw => if lom = 0 then -1 else sx (BitVec.ofNat 32 (lo.toNat / lom.toNat))
  | .remw => if lom = 0 then sx lo else sx (BitVec.ofInt 32 (lo.toInt.tmod lom.toInt))
  | .remuw => sx (BitVec.ofNat 32 (lo.toNat % lom.toNat))
  | .adduw => num uw + b
  | .sh1add => num (2 * n) + b | .sh2add => num (4 * n) + b | .sh3add => num (8 * n) + b
  | .sh1adduw => num (2 * uw) + b | .sh2adduw => num (4 * uw) + b | .sh3adduw => num (8 * uw) + b
  | .slliuw => num (uw * 2 ^ sh)
  | .rol => a.rotateLeft sh | .ror => a.rotateRight sh
  | .rolw => sx (lo.rotateLeft sh32) | .rorw => sx (lo.rotateRight sh32)
  | .zexth => num (n % 2 ^ 16)

/-- The one-operand instructions of Zbb: y is the result for operand a (R16, R152). -/
def unaryResult (op : UnOp) (a y : Word) : Prop :=
  let leading := fun (w k : Nat) => k ≤ w ∧ (∀ j, w - k ≤ j → j < w → a.getLsbD j = false) ∧ (k < w → a.getLsbD (w - 1 - k) = true)
  let trailing := fun (w k : Nat) => k ≤ w ∧ (∀ j, j < k → a.getLsbD j = false) ∧ (k < w → a.getLsbD k = true)
  let ones := fun (w : Nat) => ((List.range w).map fun j => if a.getLsbD j then 1 else 0).sum
  let byteOf := fun (v : Word) (k : Nat) => v.toNat / 256 ^ k % 256
  match op with
  | .clz => leading 64 y.toNat | .clzw => leading 32 y.toNat
  | .ctz => trailing 64 y.toNat | .ctzw => trailing 32 y.toNat
  | .cpop => y.toNat = ones 64 | .cpopw => y.toNat = ones 32
  | .sextb => y = (a.truncate 8).signExtend 64 | .sexth => y = (a.truncate 16).signExtend 64
  | .orcb => ∀ k, k < 8 → byteOf y k = if byteOf a k = 0 then 0 else 255
  | .rev8 => ∀ k, k < 8 → byteOf y k = byteOf a (7 - k)

/-- Whether a branch is taken (R16, R152). -/
def branchTaken (op : BrOp) (a b : Word) : Prop :=
  match op with
  | .eq => a = b | .ne => a ≠ b
  | .lt => a.toInt < b.toInt | .ge => b.toInt ≤ a.toInt
  | .ltu => a.toNat < b.toNat | .geu => b.toNat ≤ a.toNat

/-! ### Scalar floating point -/

/-- The rounded arithmetic of F and D: the sources, each result's rounding from their values, and whether an operation on numbers is
invalid or a finite number is divided by zero (R129, R152). An exact zero sum of unlike signs is −0 under RDN alone. -/
def fpArith (op : FpOp) (f : FpFmt) (rd : Reg) (rm : BitVec 3) (srcs : List Reg) (g : Rm → (Nat → FV) → RR)
    (bad byZero : (Nat → FV) → Bool) : Prop :=
  let none := fun (_ : Nat → FV) => false
  let finite := fun (x : FV) => match x with | .fin _ _ _ => true | _ => false
  let infinite := fun (x : FV) => !x.isNan && !finite x
  let exact := fun (e : Bool → (Nat → FV) → FV) =>
    (g = fun m x => (fpFmt f).round m 0 false (e (m == .rdn) x)) ∧ (bad = fun x => (e false x).isNan) ∧ byZero = none
  (∃ a b, op = .add f rd a b rm ∧ srcs = [a, b] ∧ exact fun z x => (x 0).add z (x 1))
  ∨ (∃ a b, op = .sub f rd a b rm ∧ srcs = [a, b] ∧ exact fun z x => (x 0).add z (x 1).negate)
  ∨ (∃ a b, op = .mul f rd a b rm ∧ srcs = [a, b] ∧ exact fun _ x => (x 0).mul (x 1))
  ∨ (∃ a b, op = .div f rd a b rm ∧ srcs = [a, b] ∧ (g = fun m x => (fpFmt f).div m 0 false (x 0) (x 1))
      ∧ (bad = fun x => (x 0).isZero && (x 1).isZero || infinite (x 0) && infinite (x 1))
      ∧ byZero = fun x => finite (x 0) && !(x 0).isZero && (x 1).isZero)
  ∨ (∃ a, op = .sqrt f rd a rm ∧ srcs = [a] ∧ (g = fun m x => (fpFmt f).sqrt m 0 false (x 0))
      ∧ (bad = fun x => (x 0).neg? && !(x 0).isZero) ∧ byZero = none)
  ∨ ∃ a b c, srcs = [a, b, c] ∧
    ((op = .madd f rd a b c rm ∧ exact fun z x => ((x 0).mul (x 1)).add z (x 2))
    ∨ (op = .msub f rd a b c rm ∧ exact fun z x => ((x 0).mul (x 1)).add z (x 2).negate)
    ∨ (op = .nmsub f rd a b c rm ∧ exact fun z x => ((x 0).mul (x 1)).negate.add z (x 2))
    ∨ (op = .nmadd f rd a b c rm ∧ exact fun z x => ((x 0).mul (x 1)).negate.add z (x 2).negate))

/-- The accrued flags after an instruction that raises these: invalid operation, division by zero, overflow, underflow, inexact. -/
def raised (h : Hart) (nv dz ovf uf nx : Bool) : BitVec 5 :=
  h.fflags ||| BitVec.ofNat 5 (16 * b2n nv + 8 * b2n dz + 4 * b2n ovf + 2 * b2n uf + b2n nx)

/-- The hart after an instruction that wrote f register rd with a value of a precision, raised flags, and read poison or not: the flags take the mark (R361). -/
abbrev Hart.fpDone (h : Hart) (f : FpFmt) (rd : Reg) (bits : Nat) (fl : BitVec 5) (p : Bool) : Hart :=
  Hart.setF { (h.eats p).csrSpoil 0x001 p with fflags := fl } rd
    (match f with | .s => BitVec.ofNat 64 (0xFFFFFFFF00000000 + bits % 2 ^ 32) | .d => BitVec.ofNat 64 bits) p

/-! ### Vector instructions -/

/-- A vector core with a good configuration, no bound stream slot, nothing poisoned and no instruction partly done: what a vector
instruction computes depends on its operands alone. -/
def vectorReady (h : Hart) : Prop :=
  h.isVc = true ∧ (∀ n ∈ [0x800, 0x801, 0x805, 0x806], h.csrBad n = false) ∧ h.vec.vbad = false ∧ h.vec.vpoison = []
    ∧ h.vec.kpoison = [] ∧ h.xpoison = 0 ∧ h.ovfBad = false ∧ h.winDone = [] ∧ noSlots h

/-- The number that draw k from now on gives an SR rounding (R136, R137). -/
def drawOf (h : Hart) (k : Nat) : Nat := (Rng.value { h.rng with ctr := h.rngctr + BitVec.ofNat 64 k }).toNat % 2 ^ 32

/-- Roundings in order, each with the next number: it is used up where the rounding is inexact under SR, and only there. The results,
and how many numbers have been used (R136, R138). -/
def rounded (u : Nat → Nat) (k : Nat) : List (Nat → RR) → List Nat × Nat
  | [] => ([], k)
  | f :: r =>
    let x := f (u k)
    let y := rounded u (if x.drew then k + 1 else k) r
    (x.bits :: y.1, y.2)

/-- A component that needs no rounding. -/
def exactly (n : Nat) : Nat → RR := fun _ => ⟨n, false, false, false, false⟩

/-- The bits of an element from its components, each w bits wide, the lowest first. -/
def joined (w : Nat) : List Nat → Nat
  | [] => 0
  | a :: r => a + joined w r * 2 ^ w

/-- The components that `parts` gives each element at the indices `is`, in ascending order, are rounded one after another, the n-th
inexact one under SR by the n-th number from now on; the results of element j make it as `put` says, and the counter ends at c,
advanced by as many numbers as were used (R136, R138). -/
def drawnInOrder (h : Hart) (is : List Nat) (parts : Nat → List (Nat → RR)) (put : Nat → List Nat → Prop) (c : Word) : Prop :=
  let r := rounded (drawOf h) 0 (is.flatMap parts)
  c = h.rngctr + BitVec.ofNat 64 r.2
    ∧ ∃ bits : Nat → List Nat, is.flatMap bits = r.1 ∧ ∀ j ∈ is, (bits j).length = (parts j).length ∧ put j (bits j)

/-- The elements at the indices `is` are `val`, their components w bits wide. -/
def drawnAs (h : Hart) (is : List Nat) (w : Nat) (parts : Nat → List (Nat → RR)) (val : Nat → Nat) (c : Word) : Prop :=
  drawnInOrder h is parts (fun j bits => val j = joined w bits) c

/-- The components of an element loaded from a memory format (R126, R134). -/
def widenParts (v : Vec) (code raw : Nat) : List (Nat → RR) :=
  let whole := fun (i : Int) => [exactly (unsignedOf v.ew i)]
  let part := fun (n k : Nat) => fun (u : Nat) => v.fmtC.round v.rm u false (.ofInt (signedOf n (k % 2 ^ n)))
  match code with
  | 0 => [exactly raw]
  | 5 => whole (signedOf 8 raw)
  | 6 => whole (signedOf 16 raw)
  | 7 => [part 8 raw, part 8 (raw / 2 ^ 8)]
  | 8 => [part 16 raw, part 16 (raw / 2 ^ 16)]
  | _ => [fun u => v.fmtT.round v.rm u false (memVal code raw)]

/-- A value narrowed to one component of a memory format (R140 to R142). -/
def narrowPart (v : Vec) (ovf : BitVec 32) (code : Nat) (x : FV) : Nat → RR := fun u =>
  match fmtCode code with
  | some f => f.narrow v.rm u v.fz (ovfEntry ovf code) x
  | none =>
    let n := if code = 5 ∨ code = 7 then 8 else 16
    let r := narrowInt n v.rm u x
    ⟨unsignedOf n r.1, r.2, false, false, false⟩

/-- Bits of a component in memory. -/
def partWidth (code : Nat) : Nat := if code = 8 then 16 else 8

/-- The components of an element stored in a memory format (R140 to R142, R217). -/
def narrowParts (v : Vec) (ovf : BitVec 32) (code bits : Nat) : List (Nat → RR) :=
  match code with
  | 0 => [exactly bits]
  | 5 => [exactly (unsignedOf 8 (saturate (signedOf v.ew bits) (-128) 127))]
  | 6 => [exactly (unsignedOf 16 (saturate (signedOf v.ew bits) (-32768) 32767))]
  | 7 | 8 => [narrowPart v ovf code (v.fmtC.decode (bits % 2 ^ (v.ew / 2))),
      narrowPart v ovf code (v.fmtC.decode (bits / 2 ^ (v.ew / 2)))]
  | 9 => [fun u =>
      let x := v.fmtT.decode bits
      let r := toE8m0 v.rm u x
      ⟨(match x with | .fin false m _ => if m = 0 then 0 else clampE8m0 r.1 | _ => r.1), r.2, false, false, false⟩]
  | _ => [narrowPart v ovf code (v.fmtT.decode bits)]

/-- The components of an element of a block under a scale: NaN under 0xFF, else the value times the scale (R218). -/
def blockLoadParts (v : Vec) (code scale raw : Nat) : List (Nat → RR) :=
  let f := if complexCode code then v.fmtC else v.fmtT
  let n := partBits code
  let raws := if complexCode code then [raw % 2 ^ n, raw / 2 ^ n] else [raw]
  raws.map fun x => if scale = 255 then exactly f.nanBits else fun u => f.round v.rm u false ((blockVal code x).scale ((scale : Int) - 127))

/-- The components of a block's stored element under a scale: under 0xFF the overflow table's value with the component's sign,
canonical NaN for a NaN, 0 in an integer format; else the value over the scale (R143, R144, R218). -/
def blockStoreParts (v : Vec) (ovf : BitVec 32) (code scale bits : Nat) : List (Nat → RR) :=
  (v.blockParts code bits).map fun x =>
    if scale = 255 then
      match fmtCode code with
      | some f => exactly (if x.isNan then f.nanBits else f.ovfBits (ovfEntry ovf code) x.neg?)
      | none => exactly 0
    else narrowPart v ovf code (x.scale (127 - (scale : Int)))

/-- The pairwise tree of R148 over 2^k leaves: an absent input passes the other through. Node i of level k covers leaves i × 2^k on. -/
def treeOf {α : Type} (op : α → α → α) (leaf : Nat → Option α) : (k i : Nat) → Option α
  | 0, i => leaf i
  | k + 1, i =>
    match treeOf op leaf k (2 * i), treeOf op leaf k (2 * i + 1) with
    | some x, some y => some (op x y)
    | some x, none => some x
    | none, y => y

/-- What a reduction of `groups` groups of 2^k leaves gives: `fin` acts on each group's result as it leaves its tree, and the results
are combined in ascending order (R148, R249). -/
def treeReduce {α : Type} (op : α → α → α) (leaf : Nat → Option α) (fin : Nat → α → α) (k groups : Nat) : Option α :=
  match (List.range groups).filterMap fun g => (treeOf op leaf k g).map (fin g) with
  | [] => none
  | t :: r => some (r.foldl op t)

/-- Element i of an operand: an element of registers, or the low bits of an x register at every position (R222). -/
def operandElem (h : Hart) (x : Opnd) (i : Nat) : Nat :=
  match x with
  | .group r | .one r _ => h.vec.elem r i
  | .xreg r => (h.xr r).toNat % 2 ^ h.vec.ew

/-- Vector unit w is v but for the elements at the indices `is` of the operand at a register, which hold the low bits of
`val`; every byte of vector storage outside those elements is as in v. -/
def placed (v w : Vec) (reg : Nat) (is : List Nat) (val : Nat → Nat) : Prop :=
  w = { v with store := w.store } ∧ (∀ i ∈ is, w.elem reg i = val i % 2 ^ v.ew)
    ∧ ∀ r b, (∀ i ∈ is, vecKey r b < vecKey (v.elemReg reg i) (v.elemByte i)
        ∨ vecKey (v.elemReg reg i) (v.elemByte i) + v.ewB ≤ vecKey r b) → w.byte r b = v.byte r b

/-- Vector unit w is v but for the bits at the indices `is` of key register k, which are `val`. -/
def keyed (v w : Vec) (k : Nat) (is : List Nat) (val : Nat → Bool) : Prop :=
  w = { v with keys := w.keys } ∧ (∀ i ∈ is, w.keyBit k i = val i) ∧ ∀ q j, q ≠ k ∨ j ∉ is → w.keyBit q j = v.keyBit q j

/-- The machine once a vector instruction has retired that left vector unit w and the random counter at c. -/
abbrev State.vecDone (s : State) (w : Vec) (c : Word) : State := s.retired { s.cpu with rngctr := c, vec := w } 6

/-- A destination register, source operands and a key that fit the configuration (R160, R206). -/
def fitsAll (v : Vec) (o : VOp) (srcs : List Opnd) : Prop :=
  v.groupOk o.vd.toNat = true ∧ (∀ x ∈ srcs, v.opndOk x = true) ∧ v.keysOk o.km false = true

/-- The class-0 instructions and the conversions: operands, and the rounding of each element's result (R224 to R230, R235). -/
def floatElem (i : Instr) (o : VOp) (srcs : List Opnd) (f : Vec → Nat → List Nat → RR) : Prop :=
  let a := fun (v : Vec) (xs : List Nat) => v.src (xs.getD 0 0)
  let b := fun (v : Vec) (xs : List Nat) => v.src (xs.getD 1 0)
  let c := fun (v : Vec) (xs : List Nat) => v.src (xs.getD 2 0)
  let rnd := fun (g : Vec → List Nat → FV) (v : Vec) (u : Nat) (xs : List Nat) => v.fmtT.round v.rm u v.fz (g v xs)
  let own := fun (v : Vec) (x y : FV) => x.add v.rm.negZero y
  (i = .vfadd o ∧ srcs = [srcA o, srcB o] ∧ f = rnd fun v xs => own v (a v xs) (b v xs))
  ∨ (i = .vfsub o ∧ srcs = [srcA o, srcB o] ∧ f = rnd fun v xs => own v (a v xs) (b v xs).negate)
  ∨ (i = .vfmul o ∧ srcs = [srcA o, srcB o] ∧ f = rnd fun v xs => (a v xs).mul (b v xs))
  ∨ (i = .vfdiv o ∧ srcs = [srcA o, srcB o] ∧ f = fun v u xs => v.fmtT.div v.rm u v.fz (a v xs) (b v xs))
  ∨ (i = .vfmin o ∧ srcs = [srcA o, srcB o] ∧ f = rnd fun v xs => minMaxVal false (a v xs) (b v xs))
  ∨ (i = .vfmax o ∧ srcs = [srcA o, srcB o] ∧ f = rnd fun v xs => minMaxVal true (a v xs) (b v xs))
  ∨ (i = .vfsgnj o ∧ srcs = [srcA o, srcB o] ∧ f = rnd fun v xs =>
      if bitAt (xs.getD 1 0) (v.fmtT.eb + v.fmtT.mb) then (a v xs).abs.negate else (a v xs).abs)
  ∨ (i = .vfma o ∧ srcs = [srcA o, srcB o, srcC o] ∧ f = rnd fun v xs => own v ((a v xs).mul (b v xs)) (c v xs))
  ∨ (i = .vfms o ∧ srcs = [srcA o, srcB o, srcC o] ∧ f = rnd fun v xs => own v ((a v xs).mul (b v xs)) (c v xs).negate)
  ∨ (i = .vfnma o ∧ srcs = [srcA o, srcB o, srcC o]
      ∧ f = rnd fun v xs => own v ((a v xs).mul (b v xs)).negate (c v xs).negate)
  ∨ (i = .vfnms o ∧ srcs = [srcA o, srcB o, srcC o] ∧ f = rnd fun v xs => own v ((a v xs).mul (b v xs)).negate (c v xs))
  ∨ (i = .vfsqrt o ∧ srcs = [srcA o] ∧ f = fun v u xs => v.fmtT.sqrt v.rm u v.fz (a v xs))
  ∨ (i = .vfrcp o ∧ srcs = [srcA o] ∧ f = fun v _ xs => v.fmtT.div .rne 0 v.fz (.ofInt 1) (a v xs))
  ∨ (i = .vfrsqrt o ∧ srcs = [srcA o] ∧ f = fun v _ xs => v.fmtT.rsqrt v.fz (a v xs))
  ∨ (i = .vfabs o ∧ srcs = [srcA o] ∧ f = rnd fun v xs => (a v xs).abs)
  ∨ (i = .vfneg o ∧ srcs = [srcA o] ∧ f = rnd fun v xs => (a v xs).negate)
  ∨ (i = .vfexp2 o ∧ srcs = [srcA o] ∧ f = fun v _ xs => v.fmtT.exp2 v.fz (a v xs))
  ∨ (i = .vflog2 o ∧ srcs = [srcA o] ∧ f = fun v _ xs => v.fmtT.log2 v.fz (a v xs))
  ∨ (i = .vfclass o ∧ srcs = [srcA o] ∧ f = fun v _ xs => ⟨2 ^ classBit v.fmtT (a v xs), false, false, false, false⟩)
  ∨ (i = .vfcvtif o ∧ srcs = [srcA o]
      ∧ f = fun v u xs => v.fmtT.round v.rm u false (.ofInt (signedOf v.ew (xs.getD 0 0))))
  ∨ (i = .vfcvtfi o ∧ srcs = [srcA o] ∧ f = fun v u xs =>
      let r := narrowInt v.ew v.rm u (a v xs)
      ⟨unsignedOf v.ew r.1, r.2, false, false, false⟩)

/-- The class-1 instructions but the butterflies: operands, and the roundings of the real and of the imaginary component of
each element's result (R241 to R243). -/
def complexElem (i : Instr) (o : VOp) (srcs : List Opnd) (f : Vec → (Nat → Cx) → (Nat → RR) × (Nat → RR)) : Prop :=
  let rnd := fun (g : Bool → (Nat → Cx) → FV × FV) (v : Vec) (x : Nat → Cx) =>
    ((fun u => v.fmtC.round v.rm u v.fz (g v.rm.negZero x).1), (fun u => v.fmtC.round v.rm u v.fz (g v.rm.negZero x).2))
  let plus := fun (z : Bool) (x y : Cx) => (x.re.add z y.re, x.im.add z y.im)
  let times := fun (z : Bool) (x y : Cx) =>
    ((x.re.mul y.re).add z (x.im.mul y.im).negate, (x.re.mul y.im).add z (x.im.mul y.re))
  let onto := fun (z neg : Bool) (d x y : Cx) =>
    let s := fun (t : FV) => if neg then t.negate else t
    (d.re.add z ((s (x.re.mul y.re)).add z (s (x.im.mul y.im).negate)),
      d.im.add z ((s (x.re.mul y.im)).add z (s (x.im.mul y.re))))
  (i = .vcadd o ∧ srcs = [srcA o, srcB o] ∧ f = rnd fun z x => plus z (x 0) (x 1))
  ∨ (i = .vcsub o ∧ srcs = [srcA o, srcB o] ∧ f = rnd fun z x => plus z (x 0) (x 1).neg)
  ∨ (i = .vcmul o ∧ srcs = [srcA o, srcB o] ∧ f = rnd fun z x => times z (x 0) (x 1))
  ∨ (i = .vcmulj o ∧ srcs = [srcA o, srcB o] ∧ f = rnd fun z x => times z (x 0) (x 1).conj)
  ∨ (i = .vcmac o ∧ srcs = [srcA o, srcB o, srcD o] ∧ f = rnd fun z x => onto z false (x 2) (x 0) (x 1))
  ∨ (i = .vcmacj o ∧ srcs = [srcA o, srcB o, srcD o] ∧ f = rnd fun z x => onto z false (x 2) (x 0) (x 1).conj)
  ∨ (i = .vcmsc o ∧ srcs = [srcA o, srcB o, srcD o] ∧ f = rnd fun z x => onto z true (x 2) (x 0) (x 1))
  ∨ (i = .vcelim o ∧ srcs = [srcA o, srcB o, srcC o, srcD o] ∧ f = rnd fun z x =>
      let t := negTerms (mul3Terms (x 0) (x 1) (x 2))
      ((x 3).re.add z (sumTerms z t.1), (x 3).im.add z (sumTerms z t.2)))
  ∨ (i = .vcnorm o ∧ srcs = [srcA o] ∧ f = rnd fun _ x => (normVal (x 0), .zero false))
  ∨ (i = .vcconj o ∧ srcs = [srcA o] ∧ f = rnd fun _ x => ((x 0).re, (x 0).im.negate))
  ∨ (i = .vcrotj o ∧ srcs = [srcA o] ∧ f = rnd fun _ x => ((x 0).im.negate, (x 0).re))
  ∨ (i = .vcrcp o ∧ srcs = [srcA o] ∧ f = fun v x => v.crcp (x 0))

/-- The class-2 instructions with register results: the result as a function of the width, the operands and the index
(R231, R233). -/
def intElem (i : Instr) (o : VOp) (srcs : List Opnd) (f : Nat → Nat → Nat → Nat → Nat) : Prop :=
  let so := signedOf
  let top := fun (w : Nat) => ((2 ^ (w - 1) : Nat) : Int)
  (i = .vid o ∧ srcs = [] ∧ f = fun _ _ _ j => j)
  ∨ (i = .vmv o ∧ srcs = [if o.s then srcB o else srcA o] ∧ f = fun _ a _ _ => a)
  ∨ srcs = [srcA o, srcB o] ∧
    ((i = .vadd o ∧ f = fun _ a b _ => a + b)
    ∨ (i = .vsub o ∧ f = fun w a b _ => unsignedOf w (((a : Nat) : Int) - ((b : Nat) : Int)))
    ∨ (i = .vmul o ∧ f = fun _ a b _ => a * b)
    ∨ (i = .vmulh o ∧ f = fun w a b _ => unsignedOf w (so w a * so w b / 2 ^ w))
    ∨ (i = .vand o ∧ f = fun _ a b _ => a &&& b)
    ∨ (i = .vor o ∧ f = fun _ a b _ => a ||| b)
    ∨ (i = .vxor o ∧ f = fun _ a b _ => a ^^^ b)
    ∨ (i = .vsll o ∧ f = fun w a b _ => a * 2 ^ (b % w))
    ∨ (i = .vsrl o ∧ f = fun w a b _ => a / 2 ^ (b % w))
    ∨ (i = .vsra o ∧ f = fun w a b _ => unsignedOf w (so w a / 2 ^ (b % w)))
    ∨ (i = .vmin o ∧ f = fun w a b _ => if so w a ≤ so w b then a else b)
    ∨ (i = .vmax o ∧ f = fun w a b _ => if so w a ≤ so w b then b else a)
    ∨ (i = .vminu o ∧ f = fun _ a b _ => if a ≤ b then a else b)
    ∨ (i = .vmaxu o ∧ f = fun _ a b _ => if a ≤ b then b else a)
    ∨ (i = .vsadd o ∧ f = fun w a b _ =>
        let t := so w a + so w b
        if t < -top w then 2 ^ (w - 1) else if top w - 1 < t then 2 ^ (w - 1) - 1 else unsignedOf w t))

/-- The comparisons: whether each key bit is set (R229, R232). -/
def compareElem (i : Instr) (o : VOp) (f : Vec → Nat → Nat → Bool) : Prop :=
  let so := signedOf
  (i = .vceq o ∧ f = fun _ a b => a == b)
  ∨ (i = .vclt o ∧ f = fun v a b => decide (so v.ew a < so v.ew b))
  ∨ (i = .vcltu o ∧ f = fun _ a b => decide (a < b))
  ∨ (i = .vfceq o ∧ f = fun v a b => (v.src a).eq (v.src b))
  ∨ (i = .vfclt o ∧ f = fun v a b => (v.src a).lt (v.src b))
  ∨ (i = .vfcle o ∧ f = fun v a b => (v.src a).lt (v.src b) || (v.src a).eq (v.src b))

/-- The key instructions that write a key: bit j from the keys and x registers (R234). -/
def keyElem (i : Instr) (o : VOp) (f : Hart → Nat → Bool) : Prop :=
  let a := fun (h : Hart) (j : Nat) => h.vec.keyBit o.vs1.toNat j
  let b := fun (h : Hart) (j : Nat) => h.vec.keyBit o.vs2.toNat j
  (i = .kand o ∧ f = fun h j => a h j && b h j)
  ∨ (i = .kor o ∧ f = fun h j => a h j || b h j)
  ∨ (i = .kxor o ∧ f = fun h j => a h j ^^ b h j)
  ∨ (i = .kandn o ∧ f = fun h j => a h j && !b h j)
  ∨ (i = .knot o ∧ f = fun h j => !a h j)
  ∨ (i = .kvl o ∧ f = fun h j => decide (j < (h.xr (BitVec.ofNat 5 o.vs2.toNat)).toNat))

/-- The amount of a slide, rotate, extract or insert: x[VS2] in the S form, else IMM6 (R246, R248). -/
def amountOf (o : VOp) (h : Hart) : Nat := if o.s then (h.xr (BitVec.ofNat 5 o.vs2.toNat)).toNat else o.vs3.toNat

/-- The permutes: operands, the positions written, and the register and position that each receives (R245 to R247); 2^m is
the least power of two that is at least vl. -/
def permuteElem (i : Instr) (o : VOp) (h : Hart) (m : Nat) (srcs : List Opnd) (is : List Nat) (src : Nat → Nat × Nat) :
    Prop :=
  let v := h.vec
  let act := v.actives o.km
  let a := o.vs1.toNat
  let b := o.vs2.toNat
  let n := amountOf o h
  let half := (v.vl + 1) / 2
  let amt := if o.s then [srcB o] else []
  (i = .vslideup o ∧ srcs = srcA o :: amt ∧ is = act.filter (n ≤ ·) ∧ src = fun j => (a, j - n))
  ∨ (i = .vslidedn o ∧ srcs = srcA o :: amt ∧ is = act ∧ src = fun j => (a, j + n))
  ∨ (i = .vrotl o ∧ srcs = srcA o :: amt ∧ is = act ∧ src = fun j => (a, (j + n) % 2 ^ m))
  ∨ (i = .vgather o ∧ o.s = false ∧ srcs = [srcA o, srcB o] ∧ is = act ∧ src = fun j => (a, v.elem b j))
  ∨ (i = .vzip o ∧ o.s = false ∧ srcs = [srcA o, srcB o] ∧ is = act
      ∧ src = fun j => (if j % 2 = 0 then a else b, j / 2))
  ∨ (i = .vunzip o ∧ o.s = false ∧ srcs = [srcA o, srcB o] ∧ is = act
      ∧ src = fun j => if j < half then (a, 2 * j) else (b, 2 * (j - half) + 1))
  ∨ (i = .vbrev o ∧ srcs = [srcA o] ∧ is = act
      ∧ ∀ j, j < 2 ^ m → (src j).1 = a ∧ (src j).2 < 2 ^ m
        ∧ ∀ k, k < m → (src j).2.testBit k = j.testBit (m - 1 - k))
  ∨ (i = .vcompress o ∧ srcs = [srcA o] ∧ is = List.range act.length ∧ src = fun j => (a, act.getD j 0))

/-! ### Engines -/

/-- Ordinary memory: LPDDR6, or a SCRATCH bank that is in no mode change. -/
def plainMem (s : State) (pa : Nat) : Prop :=
  regionOf pa = .lpddr
    ∨ ∃ c b off, regionOf pa = .csram c b off ∧ (s.bank c b).busy = none ∧ (s.bank c b).mode = modeScratch

/-- Where a vector load finds an element: LPDDR6, a bank in SCRATCH, LATCH or FIFO mode and in no mode change, or the host's memory
behind a port that is up and a completer that answers (R80, R87, R302). -/
def loadable (s : State) (pa : Nat) : Prop :=
  regionOf pa = .lpddr
    ∨ (∃ c b off, regionOf pa = .csram c b off ∧ (s.bank c b).busy = none ∧ (s.bank c b).mode ≠ modeCache)
    ∨ ∃ bus, regionOf pa = .host bus ∧ s.ports.hostUp = true ∧ s.hostAborts bus = false

/-- The n bytes an element's load finds: the core's own buffered ones before those of memory or of the host. -/
def State.found (s : State) (pa n : Nat) : Nat :=
  match regionOf pa with
  | .host bus => (s.forward pa n (ofBytes (s.hostBytes bus n), false)).1
  | _ => ofBytes (s.seenBytes pa n)

/-- Where a vector store may put an element: LPDDR6, a bank in SCRATCH or LATCH mode and in no mode change, or a window whose port is
up (R80, R86, R302). -/
def storable (s : State) (pa : Nat) : Prop :=
  regionOf pa = .lpddr
    ∨ (∃ c b off, regionOf pa = .csram c b off ∧ (s.bank c b).busy = none
        ∧ ((s.bank c b).mode = modeScratch ∨ (s.bank c b).mode = modeLatch))
    ∨ (∃ bus, regionOf pa = .host bus ∧ s.ports.hostUp = true) ∨ ∃ a, regionOf pa = .twin a ∧ s.ports.twinUp = true

/-- Element j at address a is the first of a vector access that fails, for its translation or for its region: the instruction takes that
exception with the element's address and number, and nothing else changes but the lines that have been asked of the L2 (R54, R216). -/
def elementFaults (s : State) (i : Instr) (acc : Acc) (a : Word) (j n pa : Nat) : Prop :=
  let traps := fun (t : State) (cause : Nat) => exec i s =
    .next (t.takeTrap { Exc.plain cause a with elem := some j } (instrBits i).toNat)
  (∀ f, (∀ q, xlat (s.asking q) acc a = .error f) → ∃ q, traps ((s.asking q).xlatMissed acc a) f.cause)
    ∧ ∀ x cause, held s acc a x → x.pa = pa → refused s false acc pa n (s.cpu.ctx acc).mode cause →
      ∃ q, traps (s.asking q) cause

/-- The n bytes at va are ordinary memory for an engine: each part of the access that the pages cut translates, by an entry that
the cluster's TLB holds or as identity, to the physical address that `pa` gives it. -/
def engHolds (s : State) (e : Eng) (write : Bool) (va : Word) (n : Nat) (pa : Word → Nat) : Prop :=
  ∀ q ∈ engCut va n, plainMem s (pa q.1) ∧ ∃ x : Xlat, x.pa = pa q.1
    ∧ ∀ u : State, u.l2tlb = s.l2tlb → engineXlat u e.cl e.ctx (if write then .store else .load) q.1 = .ok (x, u)
      ∧ u.walkBad [] e.cl e.ctx q.1 true = false

/-- The n bytes that an engine reads at va. -/
def engBytes (m : Memory) (pa : Word → Nat) (va : Word) (n : Nat) : List Byte :=
  (engCut va n).flatMap fun q => memBytes m (pa q.1) q.2

/-- The n 32-byte units of weights at va are ordinary memory that a chain may fetch, with R and WX (R278). -/
def unitsHeld (s : State) (e : Eng) (va : Word) (n : Nat) (pa : Word → Nat) : Prop :=
  ∀ k, k < n →
    let a := va + BitVec.ofNat 64 (32 * k)
    plainMem s (pa a) ∧ ∃ x : Xlat, x.pa = pa a ∧ x.wx = true
      ∧ ∀ u : State, u.l2tlb = s.l2tlb → unitXlat e u a = .ok (⟨x, true⟩, u) ∧ u.walkBad [] e.cl e.ctx a true = false

/-- The bytes of n units of weights at va. -/
def unitBytes (m : Memory) (pa : Word → Nat) (va : Word) (n : Nat) : List Byte :=
  (List.range n).flatMap fun k => memBytes m (pa (va + BitVec.ofNat 64 (32 * k))) 32

/-- An engine's writes: the addresses, and the bytes that go to each. -/
abbrev Writes := List (Word × List Byte)

/-- The physical parts of an engine's writes. -/
def Writes.parts (ws : Writes) (pa : Word → Nat) : List (Nat × Nat) :=
  ws.flatMap fun w => (engCut w.1 w.2.length).map fun q => (pa q.1, q.2)

/-- Ordinary memory takes every write, and no two parts of them overlap. -/
def Writes.fit (ws : Writes) (s : State) (e : Eng) (pa : Word → Nat) : Prop :=
  (∀ w ∈ ws, engHolds s e true w.1 w.2.length pa)
    ∧ (ws.parts pa).Pairwise fun p q => p.1 + p.2 ≤ q.1 ∨ q.1 + q.2 ≤ p.1

/-- Memory t is memory m with the writes done: each place holds its bytes, and every byte outside them is as in m. -/
def Writes.done (ws : Writes) (m t : Memory) (pa : Word → Nat) : Prop :=
  (∀ w ∈ ws, engBytes t pa w.1 w.2.length = w.2)
    ∧ ∀ x, (∀ p ∈ ws.parts pa, x < p.1 ∨ p.1 + p.2 ≤ x) → memByte t x = memByte m x

/-! ### Matrix commands and weight chains -/

/-- The bytes and the side bytes of row r of a command's A operand (R255). -/
def aBytes (m : Memory) (pa : Word → Nat) (c : MatCmd) (main side r : Nat) : List Byte × List Byte :=
  let i := r % 8
  match c.forms.getD (r / 8) .none with
  | .vreg image _ => ((image.drop (i * 192)).take main, (image.drop (1536 + i * 64)).take side)
  | .csram base pitch tile =>
    (engBytes m pa (BitVec.ofNat 64 (base + i * pitch)) main, engBytes m pa (BitVec.ofNat 64 (base + tile + i * 64)) side)
  | .none => ([], [])

/-- The rows of a command's A operand that lie in CSRAM are held. -/
def aHeld (s : State) (e : Eng) (pa : Word → Nat) (c : MatCmd) (main side : Nat) : Prop :=
  ∀ r, r < 32 → ∀ base pitch tile, c.forms.getD (r / 8) .none = .csram base pitch tile →
    engHolds s e false (BitVec.ofNat 64 (base + r % 8 * pitch)) main pa
      ∧ engHolds s e false (BitVec.ofNat 64 (base + tile + r % 8 * 64)) side pa

/-- The accumulator element that an arithmetic command leaves, from its A row, its side bytes, its B column and the element
before (R145, R146, R258, R259). -/
def matElem (words : Nat) (a side : List Byte) (b : Nat → FV) (old : Nat) : Nat :=
  let op := words % 256
  let af := bitsAt words 32 4
  let q := bitsAt words 40 2
  let len := chunkLen af
  let sc := scaleMul (if op = 3 then some 0 else e8m0Exp (bitsAt words 48 8)) (e8m0Exp (bitsAt words 56 8))
  foldChunks old (fun ch => if op = 3 then scaleMul sc (e8m0Exp (side.getD ch 0).toNat) else sc)
    (fun ch => if op = 2 then sparseChunk (opndVal af a) b (fun j => bitsAt (side.getD (j / 4) 0).toNat (2 * (j % 4)) 2) q len ch
      else denseChunk (opndVal af a) b len ch (matK af)) (matK af / len)

/-- The address of element (k, n) of a block's activations for a pass (R279). -/
def actAddr (h p k n : Nat) : Word :=
  addrField h 128 + BitVec.ofNat 64 (p * bitsAt h 192 16 * 128 + k * bitsAt h 176 16) + BitVec.ofNat 64 (n * opndB (bitsAt h 36 4))

/-- The activations of a pass. -/
def blockActs (m : Memory) (pa : Word → Nat) (h p : Nat) : List (List (List Byte × Bool)) :=
  (List.range (wDepth h)).map fun k => (List.range 32).map fun n =>
    (engBytes m pa (actAddr h p k n) (opndB (bitsAt h 36 4)), false)

/-- The value that a WDENSE, WSPARSE, WTWO, WLRC or WACT block gives an element of its working tiles (R282 to R284). -/
def blockElem (m : Memory) (pa : Word → Nat) (h : Nat) (pay : List Byte) (old key : Nat) : Nat :=
  let as := blockActs m pa h (key / 1024)
  let start := if bitAt h 22 then 0 else old
  match h % 256 with
  | 4 => wLrc h pay (fun n => (List.range (bitsAt h 42 5 + 1)).map (lrcT h pay as n)) start key
  | 5 => wActVal pay old
  | _ => wDot h pay as start key

/-- The planes of a block that has them lie in one SCRATCH bank of the cluster (R279). -/
def planesHeld (s : State) (cl h : Nat) : Prop :=
  wTiles h = true → wPasses h ≠ 1 → ∃ b off, regionOf (wPlane h) = .csram cl b off ∧ off + 4096 * wPasses h ≤ 0x40000
    ∧ (s.bank cl b).busy = none ∧ (s.bank cl b).mode = modeScratch

/-- The writes of a WOUT to memory, row by row (R285). -/
def outWrites (s : State) (cl row h : Nat) : Writes :=
  (wRows h).map fun k =>
    (addrField h 128 + BitVec.ofNat 64 (k / 32 * bitsAt h 192 16 * 128 + k % 32 * bitsAt h 176 16),
      (List.range 32).flatMap fun i => outVal (bitsAt h 32 4) (bitsAt h 36 2) (s.workEl cl row h (k * 32 + i)).1)

/-! ### Copy commands -/

/-- The bytes that a piece of a copy is read from: its own bytes of a unit that is moved, the whole unit where it is converted; none
for FILL (R263, R264). -/
def pieceSource (w : Nat) (us : List CpUnit) (p : CpPiece) : Option (Word × Nat) :=
  match us[p.unit]? with
  | some ⟨some a, n, _, _⟩ => some (if movesBytes w then (a + BitVec.ofNat 64 p.off, p.len) else (a, n))
  | _ => none

/-- The bytes that a copy writes to a piece: its source bytes, its part of the unit's conversion, or FILL's pattern (R263, R264). -/
def pieceBytes (m : Memory) (pa : Word → Nat) (w : Nat) (us : List CpUnit) (p : CpPiece) : List Byte :=
  match pieceSource w us p with
  | some q =>
    let b := engBytes m pa q.1 q.2
    if movesBytes w then b else ((xfConvert (cpXf w) (cpXparm w) b).drop p.off).take p.len
  | none => (List.range p.len).map fun i => BitVec.ofNat 8 (bitsAt w (160 + 8 * ((p.off + i) % 8)) 8)

/-- The writes of a copy over the sectors that `todo` names, in their order. -/
def copyWrites (m : Memory) (pa : Word → Nat) (w : Nat) (todo : Nat → Bool) : Writes :=
  let us := copyUnits w
  (((copySectors us).filter fun k => todo k.1).flatMap Prod.snd).map fun p => (p.addr, pieceBytes m pa w us p)

/-- A copy's sources over those sectors are ordinary memory, apart from everything it writes. -/
def copyReads (s : State) (c : Cmd) (pa : Word → Nat) (todo : Nat → Bool) : Prop :=
  let us := copyUnits c.words
  ∀ p ∈ ((copySectors us).filter fun k => todo k.1).flatMap Prod.snd, ∀ q, pieceSource c.words us p = some q →
    engHolds s c.eng false q.1 q.2 pa
      ∧ ∀ r ∈ engCut q.1 q.2, ∀ d ∈ (copyWrites s.mem pa c.words todo).parts pa, pa r.1 + r.2 ≤ d.1 ∨ d.1 + d.2 ≤ pa r.1

end Sys2Proof.Machine
end

