-- ==== Sys2Proof/Certificates/Slice0/Obligations.lean ====
section
/-! DEFINITION. The statements for the provers. -/

open Sys2Proof Sys2Proof.Machine

/-! ### The scalar extension -/

/-- R73, R177, R180, R188, R193: `tnow`, `chkerr`, `tlread` and `mpoll` complete in every state, write x[rd] alone, and
retire. A result computed from a poisoned x[rs1] or CSR is poisoned (R361), and the hart has then consumed poison (R362).
R137, R189: `rnd` answers the generator's value at the hart's key, counter and stream, and advances the counter by one. -/
def Obligations.ScalarReadsAndRandomNumbers : Prop :=
  (∀ (s : State) (rd rs1 : Reg),
      let h := s.cpu
      let v := (h.xr rs1).toNat
      let p := h.xPoisoned rs1
      let number := if v / 256 % 2 = 1 then h.posted.getD (v % 4) 0 else h.done.getD (v % 4) 0
      let count := if v / 16 % 2 = 1 then s.inFlightOf h.num else if h.isVc then 0 else (h.queueOf (v % 16)).length
      exec (.tnow rd) s = .next (s.retired (h.setX rd (BitVec.ofNat 64 (s.ctrNs h.cluster))) 4)
      ∧ exec (.chkerr rd) s = .next (s.retired
          ((h.eats (h.csrBad 0x804)).setXp rd (h.chkint.zeroExtend 64) (h.csrBad 0x804)) 4)
      ∧ exec (.tlread rd rs1) s = .next (s.retired ((h.eats p).setXp rd (BitVec.ofNat 64 number) p) 4)
      ∧ exec (.mpoll rd rs1) s = .next (s.retired ((h.eats p).setXp rd (BitVec.ofNat 64 count) p) 4))
  ∧ (∀ (s : State) (rd : Reg),
      let h := s.cpu
      let z0 := h.rngctr + h.rngkey
      let z1 := (z0 ^^^ (z0 >>> 31)) * 0xD6E8FEB86659FD93
      let z2 := z1 ^^^ ((BitVec.ofNat 64 h.num + 1) * 0xA3C59E3714F26B8D)
      let z3 := (z2 ^^^ (z2 >>> 29)) * 0x9FB21C651E98DF25
      let z := z3 ^^^ (z3 >>> 32)
      let b := h.rngBad
      exec (.rnd rd) s = .next (s.retired (Hart.setXp { h.eats b with rngctr := h.rngctr + 1 } rd z b) 4))

/-- R183: `tagclr` clears the masked bits of `ctags`, which no completion before it has then set; `tagffr` answers the lowest set bit
under the mask, and 64 when there is none. Neither commits nor waits.
R183: after its commit point, `tagwany` answers the set tags of its mask once one is set, `tagwall` once all are; a mask
of zero answers zero at once. Else each waits, without retiring. An answer acquires the copies whose completions set the tags it
returns, and no other: their poison shows in `chkint` from then on (R120, R188). -/
def Obligations.CompletionTags : Prop :=
  (∀ (s : State) (rd rs1 : Reg),
      let h := s.cpu
      let m := h.xr rs1
      let p := h.xPoisoned rs1
      let b := h.csrBad 0xCC1
      exec (.tagclr rs1) s = .next (s.retired { h.eats p with
          ctags := h.ctags &&& ~~~m
          chkPend := h.chkPend.map fun c => if m.getLsbD c.tag then { c with sets := false } else c } 4)
      ∧ ∃ n : Nat,
          (n = 64 ∧ h.ctags &&& m = 0 ∨ n < 64 ∧ (h.ctags &&& m).getLsbD n = true)
          ∧ (∀ j, j < n → (h.ctags &&& m).getLsbD j = false)
          ∧ exec (.tagffr rd rs1) s = .next (s.retired (((h.eats p).eats b).setXp rd (BitVec.ofNat 64 n) (p || b)) 4))
  ∧ (∀ (s t : State) (rd rs1 : Reg), commitsTo s t →
      let h := t.cpu
      let m := h.xr rs1
      let p := h.xPoisoned rs1
      let b := h.csrBad 0xCC1
      let acquired := (h.eats p).acquire fun c => c.sets && (h.ctags &&& m).getLsbD c.tag
      let done := t.retired ((acquired.eats b).setXp rd (h.ctags &&& m) (p || b)) 4
      let waits := fun all => t.waiting (h.eats p) ⟨.tags m all, 0, 0, false⟩
      (m = 0 ∨ h.ctags &&& m ≠ 0 → exec (.tagwany rd rs1) s = .next done)
      ∧ (m ≠ 0 → h.ctags &&& m = 0 → exec (.tagwany rd rs1) s = .next (waits false))
      ∧ (h.ctags &&& m = m → exec (.tagwall rd rs1) s = .next done)
      ∧ (h.ctags &&& m ≠ m → exec (.tagwall rd rs1) s = .next (waits true)))

/-- R180, R343: with n the smaller of x[rs2] and POSTED of context x[rs1][1:0], `tlpoll` answers whether DONE has reached n,
and `tlwait`, after its commit point, completes when it has and waits when it has not; both on a core without an untaken
failure of a matrix command. Where DONE has reached n, the commands up to n are acquired, and their poison shows in `chkint`
from then on (R120, R188). -/
def Obligations.TimelineWaitAndPoll : Prop :=
  ∀ (s t : State) (rd rs1 rs2 : Reg), s.cpu.matFaults = [] →
    let ctx := fun (h : Hart) => (h.xr rs1).toNat % 4
    let target := fun (h : Hart) => min (h.xr rs2).toNat (h.posted.getD (ctx h) 0)
    let reached := fun (h : Hart) => target h ≤ h.done.getD (ctx h) 0
    let eaten := fun (h : Hart) => (h.eats (h.xPoisoned rs1)).eats (h.xPoisoned rs2)
    let acquired := fun (h : Hart) => (eaten h).acquire fun c => c.ctx == ctx h && decide (c.seq ≤ target h)
    let bad := s.cpu.xPoisoned rs1 || s.cpu.xPoisoned rs2
    (reached s.cpu → exec (.tlpoll rd rs1 rs2) s = .next (s.retired ((acquired s.cpu).setXp rd 1 bad) 4))
    ∧ (¬reached s.cpu → exec (.tlpoll rd rs1 rs2) s = .next (s.retired ((eaten s.cpu).setXp rd 0 bad) 4))
    ∧ (commitsTo s t → t.cpu.matFaults = [] →
        (reached t.cpu → exec (.tlwait rs1 rs2) s = .next (t.retired (acquired t.cpu) 4))
        ∧ (¬reached t.cpu → exec (.tlwait rs1 rs2) s =
            .next (t.waiting (eaten t.cpu) ⟨.timeline (ctx t.cpu) (target t.cpu), 0, 0, false⟩)))

/-- R194: `ovfld` loads the overflow table from x[rs1][31:0] above U-mode, with the mark of x[rs1] (R361), `mcack` clears VALID of `mcrec0` in M-mode; each is
an illegal instruction below. -/
def Obligations.OvfldAndMcack : Prop :=
  ∀ (s : State) (rs1 : Reg),
    let h := s.cpu
    let ate := h.eats (h.xPoisoned rs1)
    (h.mode ≠ .u → exec (.ovfld rs1) s = .next (s.retired { ate with ovf := (h.xr rs1).truncate 32, ovfBad := h.xPoisoned rs1 } 4))
    ∧ (h.mode = .u → exec (.ovfld rs1) s = .next (s.illegalAt (.ovfld rs1)))
    ∧ (h.mode = .m → exec .mcack s = .next (s.retired { h with mcrec0 := h.mcrec0 &&& 0x7FFFFFFFFFFFFFFF } 4))
    ∧ (h.mode ≠ .m → exec .mcack s = .next (s.illegalAt .mcack))

/-! ### Vector configuration and strips -/

/-- R155, R173, R357: `vconf` and `vconfi` on a vector core. A supported request that leaves NREG alone, or meets no bound
stream slot, becomes the configuration (an RM from 101 stores 000), clears VBAD and answers MVL × GRP; a change of EW,
NREG, GRP or PROT zeroes `vl`; a change of NREG zeroes all vector storage. The configuration written is not poisoned, and the answer
is where `lanemap` is (R361).
R173: an unsupported request sets VBAD, answers zero and changes nothing else; in an opened strip a request that changes
NREG is an illegal instruction. -/
def Obligations.VconfInstallsOrRefuses : Prop :=
  (∀ (s : State) (i : Instr) (rd rs1 : Reg) (imm : BitVec 12) (req : Nat),
      (i = .vconf rd rs1 ∧ s.cpu.xPoisoned rs1 = false ∧ req = (s.cpu.xr rs1).toNat % 8192
        ∨ i = .vconfi rd imm ∧ req = imm.toNat) →
      s.cpu.isVc = true →
      let v := s.cpu.vec
      let ew := req % 4
      let nreg := fun (c : Nat) => 8 * 2 ^ (c / 4 % 4)
      let grp := 2 ^ (req / 16 % 4)
      let prot := req / 4096 % 2
      let lanes := popLanes v.lanes
      let stored := if 5 ≤ req / 64 % 8 then req - req / 64 % 8 * 64 else req
      let used := if prot = 1 then lanes / 2 else lanes
      ew ≠ 0 → 4 * grp ≤ nreg req → (prot = 1 → 2 ≤ lanes) →
      nreg req = nreg v.vcfg.toNat ∨ v.strip = none ∧ noSlots s.cpu →
      ∃ t : State, exec i s = .next t
        ∧ t.cpu.vec.vcfg = BitVec.ofNat 64 stored
        ∧ t.cpu.x = (s.cpu.setX rd (BitVec.ofNat 64 (used * (32768 / nreg req / 32) / 2 ^ ew * grp))).x
        ∧ t.cpu.pc = s.cpu.pc + 4
        ∧ t.cpu.vec.vl = (if stored % 64 = v.vcfg.toNat % 64 ∧ prot = v.vcfg.toNat / 4096 % 2 then v.vl else 0)
        ∧ (nreg req ≠ nreg v.vcfg.toNat → ∀ reg b, t.cpu.vec.byte reg b = 0)
        ∧ (nreg req = nreg v.vcfg.toNat → prot = v.vcfg.toNat / 4096 % 2 → t.cpu.vec.store = v.store)
        ∧ t.cpu.vec.keys = v.keys ∧ t.cpu.vec.strip = v.strip ∧ t.mem = s.mem ∧ t.cpu.csr.mstatus = s.cpu.csr.mstatus
        ∧ t.cpu.csrBad 0x800 = false ∧ (rd ≠ 0 → 0 < lanes → t.cpu.xPoisoned rd = s.cpu.csrBad 0x7C0))
  ∧ (∀ (s : State) (i : Instr) (rd rs1 : Reg) (imm : BitVec 12) (req : Nat),
      (i = .vconf rd rs1 ∧ s.cpu.xPoisoned rs1 = false ∧ req = (s.cpu.xr rs1).toNat % 8192
        ∨ i = .vconfi rd imm ∧ req = imm.toNat) →
      s.cpu.isVc = true →
      let v := s.cpu.vec
      let changes := req / 4 % 4 ≠ v.vcfg.toNat / 4 % 4
      (v.strip ≠ none → changes → exec i s = .next (s.illegalAt i))
      ∧ ((v.strip = none ∨ ¬changes) →
          (req % 4 = 0 ∨ 8 * 2 ^ (req / 4 % 4) < 4 * 2 ^ (req / 16 % 4)) →
          exec i s = .next (s.retired
            (Hart.setX { s.cpu with vec := { v with vcfg := v.vcfg ||| 0x8000000000000000 } } rd 0) 4)))

/-- R52, R155, R174, R334, R335: `vstrip` and `vstripi` on a vector core whose masks are not poisoned and whose commit point
completes. They open a strip whose
journal holds what R52 lists, as it stands after the commit; `vl` and x[rd] become the grant, the smallest of the
request, `vlgrant` × GRP, and on a replay the replay limit; under VBAD, or with more than eight bits in `vckmask`, both
become zero, and no register is journalled in the latter case. What is computed from a poisoned `vcfg`, `lanemap` or, on a replay,
`sfinfo` is poisoned (R361). -/
def Obligations.VstripOpensAJournalledStrip : Prop :=
  ∀ (s t : State) (i : Instr) (rd rs1 : Reg) (imm : BitVec 12) (req : Nat),
    (i = .vstrip rd rs1 ∧ s.cpu.xPoisoned rs1 = false ∧ req = (s.cpu.xr rs1).toNat
      ∨ i = .vstripi rd imm ∧ req = imm.toNat) →
    s.cpu.isVc = true → s.cpu.csrBad 0x802 = false → s.cpu.csrBad 0x803 = false → t.cpu.isVc = true → commitsTo s t →
    let h := t.cpu
    let v := h.vec
    let replay := v.replayPc = some h.pc
    let many := 8 < popWord v.vckmask
    let free := min req (t.vlgrant h * v.grp)
    let grant := if v.vbad ∨ many then 0 else if replay ∧ v.vlimit ≠ 0 then min free v.vlimit else free
    ∃ (u : State) (j : Journal), exec i s = .next u
      ∧ u.cpu.vec.strip = some j ∧ u.cpu.vec.vl = grant
      ∧ u.cpu.x = (h.setX rd (BitVec.ofNat 64 grant)).x
      ∧ u.cpu.pc = h.pc + 4 ∧ u.mem = t.mem
      ∧ u.cpu.vec.vcfg = (if many then v.vcfg ||| 0x8000000000000000 else v.vcfg)
      ∧ j.pc = h.pc ∧ j.vl = grant ∧ j.f = h.f ∧ j.frm = h.frm ∧ j.fflags = h.fflags
      ∧ j.keys = v.keys ∧ j.rngctr = h.rngctr ∧ j.slots = v.slots ∧ j.vcfg = u.cpu.vec.vcfg
      ∧ (∀ r w, (r, w) ∈ j.x ↔ r ≠ 0 ∧ r < 32 ∧ v.xckmask.getLsbD r = true ∧ w = h.x.getD r 0)
      ∧ (∀ r w, (r, w) ∈ j.vregs ↔
          ¬many ∧ r < v.nreg ∧ v.vckmask.getLsbD r = true ∧ w = v.bytes r 0 v.imageB)
      ∧ (let bad := h.csrBad 0x800 = true ∨ h.csrBad 0x7C0 = true ∨ replay ∧ h.csrBad 0x5C0 = true
        (u.cpu.csrBad 0x801 = true ↔ bad) ∧ (rd ≠ 0 → (u.cpu.xPoisoned rd = true ↔ bad)))

/-- R175: `vclose` on a vector core performs its commit point, after which no strip is open, and changes nothing more. Where
nothing is buffered or popped, it ends the opened strip, if there is one, and clears that strip's replay lineage (R335);
`vl`, `vcfg` and everything else stay; outside an opened strip only the commit point remains. -/
def Obligations.VcloseEndsTheStrip : Prop :=
  (∀ s t : State, s.cpu.isVc = true → commitsTo s t →
      exec .vclose s = .next (t.retired t.cpu 4) ∧ t.cpu.vec.strip = none)
  ∧ (∀ s : State, s.cpu.isVc = true → s.cpu.buf = [] → s.cpu.pops = [] → noStop s →
      let v := s.cpu.vec
      (v.strip = none → exec .vclose s = .next (s.retired s.cpu 4))
      ∧ (v.strip ≠ none → exec .vclose s = .next (s.retired { s.cpu with vec := { v with
          strip := none, vlimit := 0, replays := 0, pageKept := none, sfElem := 0, sfCause := 0, replayPc := none,
          resReplay := false } } 4)))

/-! ### Fences -/

/-- R51, R82, R109, R114: `fence` and `fence.i` on any core, and `scfence` on a vector core, perform their commit point and
nothing else; `scfence` on a stream core retires without one. That they order nothing further is the model's choice: accesses
are one sequence here (log 29).
R51, R106: `sfence.vma`, with `mstatus` unpoisoned, removes exactly the matching entries from the hart's own translations and from its
cluster's. That it may run in M-mode and in S-mode without TVM, and is an illegal instruction elsewhere, is taken from the privileged
architecture, outside the spec (log 21).
R101 to R105: what a translation answers. In M-mode, and under a Bare satp (for the lower modes log 103), it is the identity. An address
that is not canonical raises the page fault of the access. An entry that the hart's TLB holds, or else its cluster's, is used as it
stands (log 27). Else the Sv48 walk decides: a PTE outside LPDDR6 raises the access fault of the access, one that is neither a pointer
above level 0 nor a sound leaf its page fault, and so does a leaf or an entry whose permissions deny the access. An admitted access
takes the physical address of the page with its offset, with WX and the host-file mark of the leaf; the page is then in both TLBs. -/
def Obligations.FencesAndTranslations : Prop :=
  ( ∀ (s t : State) (i : Instr) (fm pred succ : BitVec 4) (imm : BitVec 12) (rd rs1 : Reg) (scope : BitVec 2),
      (i = .fence fm pred succ rd rs1 ∨ i = .fenceI imm rd rs1 ∨ i = .scfence scope ∧ s.cpu.isVc = true →
        commitsTo s t → exec i s = .next (t.retired t.cpu 4))
      ∧ (s.cpu.isVc = false → exec (.scfence scope) s = .next (s.retired s.cpu 4)))
  ∧ (∀ (s t : State) (rs1 rs2 : Reg),
      let tvm := s.cpu.csr.mstatus.getLsbD 20
      let may := s.cpu.mode = .m ∨ s.cpu.mode = .s ∧ tvm = false
      let va := s.cpu.xr rs1
      let asid := s.cpu.xr rs2
      let gone := fun (e : TlbEntry) =>
        (rs1 = 0 ∨ e.base ≤ va.toNat ∧ va.toNat < e.base + e.size) ∧ (rs2 = 0 ∨ e.glob = false ∧ e.asid = asid.toNat % 65536)
      s.cpu.csrBad 0x300 = false →
      (¬may → exec (.sfenceVma rs1 rs2) s = .next (s.illegalAt (.sfenceVma rs1 rs2)))
      ∧ (may → s.cpu.xPoisoned rs1 = false → s.cpu.xPoisoned rs2 = false → commitsTo s t →
          ∃ u : State, exec (.sfenceVma rs1 rs2) s = .next u
            ∧ (∀ e, e ∈ u.cpu.tlb ↔ e ∈ t.cpu.tlb ∧ ¬gone e)
            ∧ (∀ e, e ∈ tabGet [] u.l2tlb t.cpu.cluster ↔ e ∈ tabGet [] t.l2tlb t.cpu.cluster ∧ ¬gone e)
            ∧ u.cpu.x = t.cpu.x ∧ u.cpu.pc = t.cpu.pc + 4 ∧ u.mem = t.mem))
  ∧ (∀ (s : State) (acc : Acc) (va : Word),
      let h := s.cpu
      let c := h.ctx acc
      let n := va.toNat
      let asid := c.satp.toNat / 2 ^ 44 % 2 ^ 16
      let on := c.mode ≠ .m ∧ c.satp.toNat / 2 ^ 60 = 9
      let canonical := (va.truncate 48 : BitVec 48).signExtend 64 = va
      let fails := fun (cause : Nat) => ∃ mark, xlat s acc va = .error ⟨cause, mark⟩
      let pageFault := fails (match acc with | .fetch => 12 | .load => 13 | .store => 15)
      let accessFault := fails (match acc with | .fetch => 1 | .load => 5 | .store => 7)
      let gives := fun (pa : Nat) (p : Xlat → State → Prop) => ∃ x u, xlat s acc va = .ok (x, u) ∧ x.pa = pa ∧ p x u
        ∧ u.mem = s.mem ∧ u.cpu.x = h.x ∧ u.cpu.pc = h.pc
      let hits := fun (e : TlbEntry) => (e.glob = true ∨ e.asid = asid) ∧ e.base ≤ n ∧ n < e.base + e.size
      let l2 := tabGet [] s.l2tlb h.cluster
      let missed := ∀ e ∈ h.tlb, ¬hits e
      (¬on → gives n fun _ u => u.cpu.tlb = h.tlb)
      ∧ (on → ¬canonical → pageFault)
      ∧ (on → canonical → ∀ e, (e ∈ h.tlb ∧ hits e ∧ (∀ d ∈ h.tlb, hits d → d = e)
          ∨ missed ∧ e ∈ l2 ∧ hits e ∧ ∀ d ∈ l2, hits d → d = e) →
          (pageAdmits e.perms.toNat c acc → gives (e.pa + (n - e.base)) fun x u =>
            e ∈ u.cpu.tlb ∧ x.wx = e.wx ∧ x.dom = e.dom ∧ x.pageBase = e.base ∧ x.pageSize = e.size)
          ∧ (¬pageAdmits e.perms.toNat c acc → pageFault))
      ∧ (on → canonical → missed → (∀ e ∈ l2, ¬hits e) →
          ∀ level a, WalkReads s.mem n (c.satp.toNat % 2 ^ 44) level a →
            let pte := memRead s.mem a 8
            (0x4000000000 ≤ a → accessFault)
            ∧ (a < 0x4000000000 →
              (leafPage pte level = none → ¬pointerPte pte ∨ level = 0 → pageFault)
              ∧ ∀ size, leafPage pte level = some size →
                (¬pageAdmits (pte % 256) c acc → pageFault)
                ∧ (pageAdmits (pte % 256) c acc →
                  gives (pte / 2 ^ 10 % 2 ^ 44 * 4096 / size * size + n % size) fun x u =>
                    x.wx = bitAt pte 60 ∧ x.hostfile = decide (pte / 2 ^ 8 % 4 = 1)
                    ∧ x.pageBase = n - n % size ∧ x.pageSize = size
                    ∧ ∃ e, hits e ∧ e ∈ u.cpu.tlb ∧ e ∈ tabGet [] u.l2tlb h.cluster))))

/-! ### Jobs -/

/-- R43, R154, R176, R373: the codes of `jspawn` and `jspawnn` that change nothing, in their order, on a task of a job that
is not abandoned, once the commit point completes: an RCB address off its alignment, then, of the image at the address,
BUSY for an abandoned job's RCB, BADRCB, BUSY, DEPTH and FULL.
R43, R45, R58: a spawn that meets none of those: BADRCB for a tenant mismatch, LATE (with STATE 0x13 and DONE_TIME in the
child's RCB) for a cliff that has passed, else acceptance: x[rd] is zero, the parent's COUNT is one more, and the child
holds n tasks under one sequence number and an empty continuation slot, PENDING before its release time and RUNNING after.
The model's choices: BUSY for an abandoned job's RCB stands before BADRCB, and for n = 0 or an invalid image too (log 31), and the
entries owed to waiting continuations are not free for a spawn (log 32). -/
def Obligations.SpawnAcceptsOrRefuses : Prop :=
  (∀ (s t u v : State) (i : Instr) (rd rs1 rs2 : Reg) (n : Nat) (r : TaskRun) (parent : Job) (bs : List Byte) (x : Xlat),
      (i = .jspawn rd rs1 ∧ n = 1 ∨ i = .jspawnn rd rs1 rs2 ∧ n = (s.cpu.xr rs2).toNat % 65536) →
      inTaskOf s r → s.cpu.xPoisoned rs1 = false → s.cpu.xPoisoned rs2 = false → commitsTo s t →
      t.job? r.job = some parent → parent.abandonAt = none →
      let a := s.cpu.xr rs1
      let busy := bitsAt (fieldAt bs 0x28 8) 0 8 ≠ 0
      let code : Nat :=
        if u.abandonedAt x.pa = true then 5
        else if n = 0 ∨ rcbInvalid bs = true then 4
        else if busy then 5
        else if parent.depth = 15 then 2
        else if u.dqAvail < n ∨ parent.count = 65535 then 1
        else 0
      (a.toNat % 128 ≠ 0 → exec i s = .next (t.retired (t.cpu.setX rd 4) 4))
      ∧ (a.toNat % 128 = 0 → answers (readRecord a 128) t (bs, false) v → answers (translate .load a none) v x u → code ≠ 0 →
          exec i s = .next (u.retired (u.cpu.setX rd (BitVec.ofNat 64 code)) 4)))
  ∧ (∀ (s t u v : State) (i : Instr) (rd rs1 rs2 : Reg) (n : Nat) (r : TaskRun) (parent : Job) (bs : List Byte) (x : Xlat),
      (i = .jspawn rd rs1 ∧ n = 1 ∨ i = .jspawnn rd rs1 rs2 ∧ n = (s.cpu.xr rs2).toNat % 65536) →
      inTaskOf s r → s.cpu.xPoisoned rs1 = false → s.cpu.xPoisoned rs2 = false → commitsTo s t →
      t.job? r.job = some parent → parent.abandonAt = none →
      let a := s.cpu.xr rs1
      a.toNat % 128 = 0 → answers (readRecord a 128) t (bs, false) v → answers (translate .load a none) v x u →
      spawnCode u parent bs n x.pa = 0 →
      let child := { (jobOf a x.pa bs (u.seenPoison (x.pa + 0x40) 64)).inherit parent (u.cpu.mode == .u) with parent := some r.job }
      let late := child.deferred = false ∧ child.cliffValue ≤ u.dquNow
      let counted := u.modJob r.job fun p => { p with count := p.count + 1 }
      let taken := counted.acceptJob child parent.addr n
      let marked := (u.devWrite (x.pa + 0x28) [0x13]).devWrite (x.pa + 0x30) (bytesOf 8 u.dquNow)
      (u.tenantMismatch child = true → exec i s = .next (u.retired (u.cpu.setX rd 4) 4))
      ∧ (u.tenantMismatch child = false → late → exec i s = .next (marked.retired (marked.cpu.setX rd 3) 4))
      ∧ (u.tenantMismatch child = false → ¬late →
          exec i s = .next (taken.retired (taken.cpu.setX rd 0) 4)
          ∧ taken.job? u.dqu.nextJob = some { child with
              count := n, cont := none, state := if u.dquNow < child.release.toNat then 1 else 2,
              runningAt := if u.dquNow < child.release.toNat then 0 else u.dquNow }
          ∧ taken.dqu.queue.length = u.dqu.queue.length + n
          ∧ ∀ q ∈ taken.dqu.queue.drop u.dqu.queue.length, q.job = u.dqu.nextJob ∧ q.seq = u.dqu.seq))

/-- R46: `jcont` in a task of a job that is not abandoned: rs1 = x0 empties the slot and answers 0; an address off its
alignment and an invalid descriptor empty it and answer 4; of a valid one the 32 bytes are stored in the slot, and it answers 0.
That an address off its alignment is answered so, without a read, is the model's reading (log 31).
R77, R176: `jdefer` in a task of a job that is not abandoned defers the job, and with it its live descendants, and goes
on with the next instruction; a job already deferred stays as it is.
R77: deferring a job sets DEFERRED in it and in each of its descendants that is not final, and in no other job: these are then in class
3, with the greatest ordering deadline and without a cliff; their queued tasks stay queued, out of every prefetch slot. What a core
runs, and every command, stays as it is. -/
def Obligations.ContinuationAndDeferral : Prop :=
  (∀ (s t u : State) (rd rs1 : Reg) (r : TaskRun) (j : Job) (bs : List Byte),
      inTaskOf s r → s.cpu.xPoisoned rs1 = false → commitsTo s t → t.job? r.job = some j → j.abandonAt = none →
      let a := s.cpu.xr rs1
      let ends := fun (m : State) (c : Option Desc) (bytes : List Byte) (code : Word) =>
        let w := m.setCont r.job c bytes
        exec (.jcont rd rs1) s = .next (w.retired (w.cpu.setX rd code) 4)
          ∧ w.job? r.job = some { j with cont := c }
          ∧ (regionOf (j.pa + 0x40) = .lpddr → memBytes w.mem (j.pa + 0x40) bytes.length = bytes)
      let empty := bytesOf 32 0
      (rs1 = 0 → ends t none empty 0)
      ∧ (rs1 ≠ 0 → a.toNat % 32 ≠ 0 → ends t none empty 4)
      ∧ (rs1 ≠ 0 → a.toNat % 32 = 0 → answers (readRecord a 32) t (bs, false) u → u.job? r.job = some j →
          (descInvalid bs j.akind = true → ends u none empty 4)
          ∧ (descInvalid bs j.akind = false → ends u (some (descOf bs)) bs 0)))
  ∧ (∀ (s t : State) (r : TaskRun) (j : Job),
      inTaskOf s r → commitsTo s t → t.job? r.job = some j → j.abandonAt = none → j.final = false →
      let w := if j.deferred then t else t.deferJob r.job
      exec .jdefer s = .next (w.retired w.cpu 4)
        ∧ ∃ k, w.job? r.job = some k ∧ k.deferred = true ∧ k.runClass = 3 ∧ k.cliff = none)
  ∧ (∀ (s : State) (id : Nat), tabWf none 0 s.dqu.jobs = true → (s.dqu.queue.map (·.id)).Nodup →
      let w := s.deferJob id
      (∀ d j, s.job? d = some j →
        (s.inFamily id d → j.final = false → ∃ k, w.job? d = some k ∧ k = { j with deferred := true }
          ∧ k.runClass = 3 ∧ k.orderDeadline = 0xFFFFFFFFFFFFFFFF ∧ k.cliff = none)
        ∧ (¬s.inFamily id d ∨ j.final = true → w.job? d = some j))
      ∧ w.dqu.queue.map (·.id) = s.dqu.queue.map (·.id) ∧ w.cmds = s.cmds
      ∧ (∀ q ∈ s.dqu.queue, (¬s.inFamily id q.job → q ∈ w.dqu.queue)
          ∧ (s.inFamily id q.job → { q with slots := [] } ∈ w.dqu.queue ∧ ∀ n ∈ q.slots, q.id ∉ (w.getHart n).prefetch))
      ∧ ∀ n, (w.getHart n).run = (s.getHart n).run)

/-- R47, R50: `tend`, and `tendr` with the value of x[rs1] and its mark (R361), at a completed commit point of a task, without an untaken failure of a
matrix command and without a prefetched successor: the core is idle, with an empty store buffer, no bound slot and no reservation (a
reading of the model's, log 30); RESULT is the value, POISON the core's, set by a poisoned value too (R362). A message that one sink slot still gathers leaves.
R47, R48: COUNT is one less at the end of the task, a ROW task's when its last core ends. Where it reaches zero, a continuation is
enqueued and COUNT is one, at once or, while no entry is free, when one comes; without one the job is DONE with DONE_TIME the instant,
and its parent's COUNT is one less; an abandoned job becomes ABANDONED, or HOSTLOST, and marks its parent with ABCHILD.
R74, R75, R176: `jabandon` at a completed commit point of a task whose job is not abandoned marks the job abandoned at
the instant of execution, empties its continuation slot, and ends the task: the core leaves it.
R75: abandonment strikes the job and its descendants that are neither final nor abandoned: each has the instant, an empty continuation
slot, and COUNT less what was queued; it becomes final when COUNT is zero, and its parent's COUNT falls, with ABCHILD. Their queued
tasks and unstarted commands are withdrawn, and no other; a core that runs one has its grace. -/
def Obligations.TaskEndsAndAbandonment : Prop :=
  (∀ (s t : State) (i : Instr) (r : TaskRun) (j : Job) (result : Option (Word × Bool)), taskEnds s t i r j result →
      let poison := j.poison || t.cpu.chkAll.getLsbD 0 || (match result with | some p => p.2 | none => false)
      let left := match result with
        | some (v, mark) => { j with result := v, resultBad := mark, poison := poison }
        | none => { j with poison := poison }
      let n := t.cpu.num
      let others := ∃ m ∈ rowHarts (rowOfHart n), m ≠ n ∧ ∃ o, (t.getHart m).task = some o ∧ o.id = r.id
      let last := r.gang = false ∨ ¬others
      let ends := fun (u : State) => exec i s = .next u
        ∧ u.cpu.run = .idle ∧ u.cpu.buf = [] ∧ u.cpu.pops = [] ∧ noSlots u.cpu ∧ u.cpu.resv = none ∧ u.cpu.wait = none
        ∧ u.cpu.jobrcb = 0 ∧ u.cpu.pc = t.cpu.pc
      let parent := fun (u : State) (flag : Bool) => ∀ p q, j.parent = some p → p ≠ r.job → t.job? p = some q → q.final = false →
        2 ≤ q.count → u.job? p = some { q with count := q.count - 1, abchild := q.abchild || flag }
      let final := fun (u : State) (k : Job) (at_ : Nat) => u.job? r.job = some k
        ∧ (j.parent = none → regionOf (j.pa + 0x28) = .lpddr → regionOf (j.pa + 0x30) = .lpddr → regionOf (j.pa + 0x60) = .lpddr →
            memBytes u.mem (j.pa + 0x28) 16 = bytesOf 8 k.status ++ bytesOf 8 at_
              ∧ memBytes u.mem (j.pa + 0x60) 8 = bytesOf 8 k.result.toNat)
      (drained t.cpu →
        (r.gang = true → others → ∃ u, ends u ∧ u.job? r.job = some left)
        ∧ (last → 2 ≤ j.count → ∃ u, ends u ∧ u.job? r.job = some { left with count := j.count - 1 })
        ∧ (last → j.count = 1 → ∀ at_, j.abandonAt = some at_ → ∃ u, ends u ∧ parent u true
            ∧ final u { left with state := if j.lost then 0x12 else 0x11, count := 0, contDue := false } at_)
        ∧ (last → j.count = 1 → j.abandonAt = none → j.cont = none → ∃ u, ends u ∧ parent u false
            ∧ final u { left with state := 0x10, count := 0, contDue := false } t.dquNow)
        ∧ (last → j.count = 1 → j.abandonAt = none → j.contDue = false → ∀ d, j.cont = some d →
            (t.dqu.queue.length < 65536 → (∀ p ∈ t.dqu.jobs, ∀ q, p.2 = some q → q.contDue = false) →
              ∃ u, ends u ∧ u.job? r.job = some { left with count := 1, cont := none, contSeq := 0 }
                ∧ u.dqu.queue = t.dqu.queue ++ [⟨t.dqu.nextTask, r.job, 0, d, t.dqu.seq, t.dquNow, []⟩])
            ∧ (t.dqu.queue.length = 65536 →
              ∃ u, ends u ∧ u.job? r.job = some { left with count := 1, contDue := true, contSeq := t.dqu.seq }
                ∧ u.dqu.queue = t.dqu.queue)))
      ∧ (∀ (k : Nat) (sl : Slot) (d l : Word), k < 8 → t.cpu.vec.slots.getD k none = some sl → sl.kind = .msgSink d l →
          sl.gathered ≠ [] → drained (t.cpu.unslotted k) → t.inFlightOf n < 8 → last → 2 ≤ j.count →
          ∃ u, ends u ∧ u.job? r.job = some { left with count := j.count - 1 }
            ∧ mkMsg n d l sl.gathered (sl.marks.any id) ∈ u.inflight))
  ∧ (∀ (s t : State) (r : TaskRun) (j : Job),
      inTaskOf s r → commitsTo s t → drained t.cpu → t.cpu.prefetch = [] → t.job? r.job = some j → j.abandonAt = none →
      j.final = false →
      let w := t.abandon r.job t.dquNow (t.dquNow + 2000) false
      ∃ (u : State) (k : Job), exec .jabandon s = .next u ∧ u.job? r.job = some k
        ∧ k.abandonAt = some t.dquNow ∧ k.cont = none ∧ u.cpu.run = .idle ∧ u.cpu.buf = [] ∧ noSlots u.cpu
        ∧ (∀ q ∈ w.dqu.queue, q ∈ u.dqu.queue)
        ∧ ∀ d m, w.job? d = some m → ∃ o, u.job? d = some o ∧ o.abandonAt = m.abandonAt)
  ∧ (∀ (s : State) (id now grace : Nat) (lost : Bool), tabWf none 0 s.dqu.jobs = true → (s.dqu.queue.map (·.id)).Nodup →
      (∀ d j p, s.job? d = some j → j.parent = some p → p < d) →
      let w := s.abandon id now grace lost
      let struck := fun (d : Nat) => s.inFamily id d ∧ ∃ j, s.job? d = some j ∧ j.final = false ∧ j.abandonAt = none
      let queued := fun (d : Nat) => (s.dqu.queue.filter fun q => q.job == d).length
      let childless := fun (d : Nat) => ∀ e j, s.job? e = some j → j.parent = some d → j.final = true
      (∀ d j, s.job? d = some j → struck d → ∃ k, w.job? d = some k ∧ k.abandonAt = some now ∧ k.lost = lost ∧ k.cont = none
        ∧ k.contDue = false ∧ k.result = j.result
        ∧ k.state = (if k.count = 0 then (if lost then 0x12 else 0x11) else j.state)
        ∧ (childless d → k.count = j.count - (queued d + b2n j.contDue)
          ∧ (k.count = 0 → ∀ p q, d = id → j.parent = some p → s.job? p = some q → q.final = false → 2 ≤ q.count →
              w.job? p = some { q with count := q.count - 1, abchild := true })))
      ∧ (∀ q ∈ w.dqu.queue, ¬struck q.job)
      ∧ (∀ q ∈ s.dqu.queue, ¬struck q.job → ∃ p ∈ w.dqu.queue, p.id = q.id ∧ p.job = q.job)
      ∧ (∀ n r, (s.getHart n).run = .task r →
          (struck r.job → (w.getHart n).run = .task { r with graceAt := some grace })
          ∧ (¬struck r.job → (w.getHart n).run = .task r))
      ∧ w.cmds.length = s.cmds.length
      ∧ ∀ (k : Nat) (c : Cmd), s.cmds[k]? = some c → ∃ m, w.cmds[k]? = some m ∧
          let mine := ∃ d, c.job = some d ∧ struck d
          (mine → c.state = .queued → m = { c with state := .finished, status := 2, bytes := 0, misses := [] })
          ∧ (mine → c.state = .partly → m = { c with state := .finished, status := 2, misses := [] })
          ∧ (¬mine ∨ c.state ≠ .queued ∧ c.state ≠ .partly → m = c))

/-- R154, R177: the instructions that act on the running job are illegal where the hart runs no task.
R254, R347: a `mgang` without an operand, or a `wdrive`, on a core that runs no ROW task takes HINGE, cause 28, with the
address in x[rs1]; nothing joins. That HINGE comes before the command word is read is the model's reading (log 69), that a core
which runs no task at all takes it its choice (log 124). -/
def Obligations.TaskInstructionsOutsideATask : Prop :=
  (∀ (s : State) (i : Instr) (rd rs1 rs2 : Reg), s.cpu.task = none →
      i = .jspawn rd rs1 ∨ i = .jspawnn rd rs1 rs2 ∨ i = .jcont rd rs1 ∨ i = .jabandon ∨ i = .jdefer ∨ i = .tend
        ∨ i = .tendr rs1 →
      exec i s = .next (s.illegalAt i))
  ∧ (∀ (s t : State) (rd rs1 : Reg),
      let may := fun (h : Hart) => h.xPoisoned rs1 = false ∧ (h.xr rs1).toNat % 32 = 0 ∧ h.matFaults = []
      let hinge := fun (h : Hart) (i : Instr) => t.takeTrap (.plain 28 (h.xr rs1)) (instrBits i).toNat
      s.cpu.isVc = true → s.cpu.wait = none → commitsTo s t → (∀ r, t.cpu.ownTask = some r → r.gang = false) →
      (may t.cpu → t.cpu.csrBad 0xCC4 = false → exec (.wdrive rs1) s = .next (hinge t.cpu (.wdrive rs1)))
      ∧ (may s.cpu → exec (.mgangNoOperand rd rs1) s = .next (hinge s.cpu (.mgangNoOperand rd rs1))))

/-! ### Posting commands and joining the hinge -/

/-- R178, R179: `cpost` with a readable command word at an aligned address, after its commit point: the word goes to the
context its header names; while that context, its queue or the job's COUNT is full the core waits, and keeps the word it has
read; else POSTED of the context rises by one and is answered, the command joins the posted ones, and the tag of a copy command
clears. A word whose ENGINE is 4 or above goes to context 1 by a reading of the model's (log 56): R178 names 0 to 3. -/
def Obligations.CpostPostsTheCommand : Prop :=
  ∀ (s t u : State) (rd rs1 : Reg) (w : Nat),
    let a := s.cpu.xr rs1
    let engine := w / 256 % 16
    let c : Nat := if engine = 2 then 3 else if engine = 1 ∧ w / 2 ^ 24 % 2 = 1 then 2 else 1
    let job := match u.cpu.ownTask with | some r => u.job? r.job | none => none
    let n := u.cpu.posted.getD c 0 + 1
    let copy := engine = 1 ∧ w % 256 ∈ [1, 2, 3]
    s.cpu.xPoisoned rs1 = false → a.toNat % 32 = 0 → commitsTo s t → answers (commandOnce a) t w u →
    (u.postStalls c job = true → exec (.cpost rd rs1) s = .next (u.waiting u.cpu ⟨.post c, 0, 0, false⟩)
      ∧ u.cpu.posting = some w)
    ∧ (u.postStalls c job = false → ∃ (v : State) (m : Cmd), exec (.cpost rd rs1) s = .next v
        ∧ v.cmds = u.cmds ++ [m] ∧ m.hart = u.cpu.num ∧ m.ctx = c ∧ m.seq = n ∧ m.words = w ∧ m.addr = a
        ∧ m.satp = u.cpu.csr.satp ∧ m.mode = u.cpu.mode ∧ m.state = .queued
        ∧ v.cpu.posted = u.cpu.posted.setIfInBounds c n
        ∧ v.cpu.x = (u.cpu.setX rd (BitVec.ofNat 64 n)).x
        ∧ v.cpu.ctags = (if copy then u.cpu.ctags &&& ~~~((1 : Word) <<< (w / 65536 % 64)) else u.cpu.ctags)
        ∧ v.cpu.pc = u.cpu.pc + 4
        ∧ ∀ r j, u.cpu.ownTask = some r → u.job? r.job = some j → j.final = false →
            v.job? r.job = some { j with count := j.count + 1 })

/-- R181, R254: the fourth core of a row that joins the hinge with a `mgang` whose command word agrees with the other three:
one command issues at the end of the row's queue, the joins are withdrawn, and the core's POSTED[0] rises by one, is
answered in x[rd], and the instruction retires. A core that joins while fewer than three others have waits in the hinge.
R254, R347: where a join of another core is a `wdrive` or has another command word, the fourth join takes HINGE on all four cores,
each with the address of its own word or block, and nothing issues; stated for cores with nothing buffered, popped or open. -/
def Obligations.MgangIssuesAtTheFourthJoin : Prop :=
  ∀ (s t u : State) (i : Instr) (rd rs1 rs2 rs3 : Reg) (g : BitVec 6) (w : Nat) (f : AForm) (r : TaskRun) (j : Job),
    let h := u.cpu
    let csram := AForm.csram
      (sextWord 48 (h.xr rs2).toNat + BitVec.ofNat 64 (h.col * ((h.xr rs3).toNat / 2 ^ 32 % 32 * 0x40000))).toNat
      ((h.xr rs2).toNat / 2 ^ 48) ((h.xr rs3).toNat % 2 ^ 32)
    (i = .mgangVreg rd rs1 g ∧ s.cpu.vec.groupOk g.toNat = true ∧ imageNeed w ≤ h.vec.imageB * h.vec.grp
        ∧ (∀ p ∈ h.vec.slotList, p.2.reg + h.vec.grp ≤ g.toNat ∨ g.toNat + h.vec.grp ≤ p.2.reg)
        ∧ f = h.vec.aImage g.toNat
      ∨ i = .mgangCsram rd rs1 rs2 rs3 ∧ h.xPoisoned rs2 = false ∧ h.xPoisoned rs3 = false ∧ f = csram
      ∨ i = .mgangNoOperand rd rs1 ∧ f = .none) →
    s.cpu.isVc = true → s.cpu.wait = none → s.cpu.xPoisoned rs1 = false → (s.cpu.xr rs1).toNat % 32 = 0 →
    s.cpu.matFaults = [] → commitsTo s t → inTaskOf t r → r.gang = true →
    answers (commandOnce (s.cpu.xr rs1)) t w u → inTaskOf u r → h.isVc = true → u.job? r.job = some j → j.count < 65535 →
    h.posted.getD 0 0 < h.done.getD 0 0 + 64 →
    let row := u.row h.cluster h.row
    (∀ k ∈ row.joins, k.col < 4 ∧ k.col ≠ h.col) → (row.joins.map Join.col).Nodup →
    (row.joins.length = 3 → (∃ k ∈ row.joins, k.isDrive = true ∨ k.words ≠ w) →
      (∀ c, c < 4 → (u.getHart (vcNum h.cluster (4 * h.row + c))).quiet) →
      ∃ v : State, exec i s = .next v ∧ hingesAll u v h.cluster h.row fun c =>
        ((row.joins.find? fun k => k.col == c).map Join.addr).getD (s.cpu.xr rs1))
    ∧ ((∀ k ∈ row.joins, k.isDrive = false ∧ k.words = w) → ∃ v : State, exec i s = .next v
      ∧ (row.joins.length = 3 →
          v.cpu.pc = h.pc + 4 ∧ v.cpu.posted.getD 0 0 = h.posted.getD 0 0 + 1
          ∧ (rd ≠ 0 → v.cpu.xr rd = BitVec.ofNat 64 (h.posted.getD 0 0 + 1))
          ∧ (v.row h.cluster h.row).joins = []
          ∧ ∃ c : MatCmd, (v.row h.cluster h.row).queue = row.queue ++ [.cmd c] ∧ c.words = w)
      ∧ (row.joins.length < 3 →
          v.cpu.pc = h.pc ∧ v.cpu.wait = some ⟨.hinge false, s.cpu.xr rs1, 0, false⟩
          ∧ (v.row h.cluster h.row).joins = row.joins ++ [⟨h.col, false, s.cpu.xr rs1, w, f, rd⟩]
          ∧ (v.row h.cluster h.row).queue = row.queue))

/-- R182, R254, R273: `wdrive` on a core of a ROW task. The fourth join at one address hands the row to its JMA: a chain at
that address, and the cores wait for its end; an earlier join waits in the hinge.
R151, R182: its commit point completes before its address is tested; a misaligned one raises cause 4.
R254, R347: where a join of another core is a `mgang` or has another address, the fourth join takes HINGE on all four cores, each with
its own address, and no chain starts; stated for cores with nothing buffered, popped or open. -/
def Obligations.WdriveStartsTheChainAtTheFourthJoin : Prop :=
  ∀ (s t : State) (rs1 : Reg) (r : TaskRun),
    let h := t.cpu
    let a := h.xr rs1
    s.cpu.isVc = true → s.cpu.wait = none → commitsTo s t → h.xPoisoned rs1 = false →
    (a.toNat % 32 ≠ 0 → exec (.wdrive rs1) s = .next (t.takeTrap (.plain 4 a) (instrBits (.wdrive rs1)).toNat))
    ∧ (a.toNat % 32 = 0 → h.csrBad 0xCC4 = false → h.matFaults = [] → inTaskOf t r → r.gang = true → h.isVc = true →
    h.num < hartCount →
    let row := t.row h.cluster h.row
    (∀ k ∈ row.joins, k.col < 4 ∧ k.col ≠ h.col) → (row.joins.map Join.col).Nodup →
    (row.joins.length = 3 → (∃ k ∈ row.joins, k.isDrive = false ∨ k.addr ≠ a) →
      (∀ c, c < 4 → (t.getHart (vcNum h.cluster (4 * h.row + c))).quiet) →
      ∃ v : State, exec (.wdrive rs1) s = .next v ∧ hingesAll t v h.cluster h.row fun c =>
        ((row.joins.find? fun k => k.col == c).map Join.addr).getD a)
    ∧ ((∀ k ∈ row.joins, k.isDrive = true ∧ k.addr = a) → ∃ v : State, exec (.wdrive rs1) s = .next v ∧ v.cpu.pc = h.pc
      ∧ (row.joins.length = 3 →
          v.cpu.wait = some ⟨.chain, 0, 0, false⟩ ∧ (v.row h.cluster h.row).joins = []
          ∧ ∃ c : Chain, (v.row h.cluster h.row).chain = some c ∧ c.block = a ∧ c.begun = false)
      ∧ (row.joins.length < 3 →
          v.cpu.wait = some ⟨.hinge true, a, 0, false⟩ ∧ (v.row h.cluster h.row).chain = row.chain
          ∧ (v.row h.cluster h.row).joins = row.joins ++ [⟨h.col, true, a, 0, .none, 0⟩])))

/-! ### Streams -/

/-- R184, R208, R209: `sbind` outside an opened strip, with a readable and valid descriptor at a 64-byte aligned address and
a register group no other slot's binding meets, binds the slot to it; an invalid descriptor, and a group bound elsewhere,
raise STREAM with reasons 0 and 1.
R185, R186: outside an opened strip `sunbind` empties the slot and leaves the bound register group, and no other, as ordinary
zeros, and `sflush` sends on the partial message of a message sink and leaves every other slot alone; `sstat` reads the slot.
R186, R213: `sstat`'s READY is at most 4: 0 of a message sink while eight messages are in flight and at least 1 else, 0 of a source whose
pattern is at its end or whose arrival queue is empty; within that it is left open (log 54). -/
def Obligations.StreamSlots : Prop :=
  ( ∀ (s u : State) (q : BitVec 3) (g : BitVec 6) (rs1 : Reg) (bs : List Byte),
      let a := s.cpu.xr rs1
      s.cpu.isVc = true → s.cpu.vec.strip = none → s.cpu.vec.groupOk g.toNat = true → s.cpu.xPoisoned rs1 = false →
      a.toNat % 64 = 0 → answers (readRecord a 64) s (bs, false) u → u.cpu.vec.slots.getD q.toNat none = none →
      let v := u.cpu.vec
      let meets := ∃ p ∈ v.slotList, p.1 ≠ q.toNat ∧ p.2.reg < g.toNat + v.grp ∧ g.toNat < p.2.reg + v.grp
      let i := Instr.sbind q g rs1
      (u.descBad bs = true → exec i s = .next (u.takeTrap (.plain 29 (BitVec.ofNat 64 q.toNat)) (instrBits i).toNat))
      ∧ (u.descBad bs = false → meets →
          exec i s = .next (u.takeTrap (.plain 29 (BitVec.ofNat 64 (q.toNat + 256))) (instrBits i).toNat))
      ∧ (u.descBad bs = false → ¬meets → exec i s = .next (u.retired
          { u.cpu with vec := { v with slots := v.slots.setIfInBounds q.toNat (some (slotOf g.toNat bs)) } } 4)))
  ∧ (∀ (s : State) (q : BitVec 3) (rd : Reg),
      let h := s.cpu
      let v := h.vec
      let slot := v.slots.getD q.toNat none
      let full := fun (sl : Slot) => ∃ d l, sl.kind = .msgSink d l ∧ sl.gathered ≠ []
      h.isVc = true →
      (slot = none → exec (.sstat rd q) s = .next (s.retired (h.setX rd 0) 4))
      ∧ (∀ sl, slot = some sl → ∃ (t : State) (ready : Nat), exec (.sstat rd q) s = .next t ∧ ready ≤ 4
          ∧ t.cpu.x = (h.setX rd (BitVec.ofNat 64 (2 ^ 63
              + (match sl.kind with | .memSink => 2 ^ 62 | .msgSink _ _ => 2 ^ 62 | .fifoSource _ => 2 ^ 61 | .memSource => 0)
              + sl.reg * 2 ^ 48 + ready * 2 ^ 32 + sl.moved))).x
          ∧ (∀ d l, sl.kind = .msgSink d l → (ready = 0 ↔ 8 ≤ s.inFlightOf h.num))
          ∧ (sl.kind = .memSource → sl.total ≤ sl.pos → ready = 0)
          ∧ (∀ b, sl.kind = .fifoSource b →
              let k := s.bank h.cluster b
              k.busy = none → k.mode = 3 → k.level ≤ k.popped → ready = 0)
          ∧ t.cpu.vec = v ∧ t.cpu.pc = h.pc + 4 ∧ t.mem = s.mem)
      ∧ (v.strip = none →
          (slot = none → exec (.sunbind q) s = .next (s.retired h 4) ∧ exec (.sflush q) s = .next (s.retired h 4))
          ∧ (∀ sl, slot = some sl → ¬full sl → exec (.sflush q) s = .next (s.retired h 4))
          ∧ (∀ sl, slot = some sl → (full sl → s.inFlightOf h.num < 8) →
              ∃ t : State, exec (.sunbind q) s = .next t ∧ t.cpu.vec.slots.getD q.toNat none = none
                  ∧ t.cpu.pc = h.pc + 4 ∧ t.mem = s.mem ∧ t.cpu.x = h.x
                  ∧ (¬full sl → t.cpu.buf = h.buf)
                  ∧ (∀ d l, sl.kind = .msgSink d l → sl.gathered ≠ [] →
                      t.cpu.buf = .msg (mkMsg h.num d l sl.gathered (sl.marks.any id)) :: h.buf)
                  ∧ (∀ k ∈ t.cpu.vec.vpoison, k / 4096 < sl.reg ∨ sl.reg + v.grp ≤ k / 4096)
                  ∧ (∀ r b, b < 4096 → sl.reg ≤ r → r < sl.reg + v.grp → t.cpu.vec.byte r b = 0)
                  ∧ (∀ r b, b < 4096 → (r < sl.reg ∨ sl.reg + v.grp ≤ r) → t.cpu.vec.byte r b = v.byte r b))
          ∧ (∀ sl d l, slot = some sl → sl.kind = .msgSink d l → sl.gathered ≠ [] → s.inFlightOf h.num < 8 →
              exec (.sflush q) s = .next (s.retired { h with
                buf := .msg (mkMsg h.num d l sl.gathered (sl.marks.any id)) :: h.buf
                vec := { v with slots := v.slots.setIfInBounds q.toNat (some { sl with gathered := [], marks := [] }) } } 4)))
      ∧ (v.strip ≠ none → exec (.sunbind q) s = .next (s.illegalAt (.sunbind q))
          ∧ exec (.sflush q) s = .next (s.illegalAt (.sflush q))))

/-- R87, R185: `sskip`, with an unpoisoned x[rs1], moves a memory pattern by x[rs1] elements, and takes whole 128-byte slots that hold x[rs1] bytes from an
arrival queue, to leave it at the next commit; it waits for bytes that have not arrived. A sink and an unbound slot raise
STREAM with reason 7. -/
def Obligations.SskipMovesTheStream : Prop :=
  ∀ (s : State) (q : BitVec 3) (rs1 : Reg),
    let h := s.cpu
    let v := h.vec
    let n := (s.cpu.xr rs1).toNat
    let slot := v.slots.getD q.toNat none
    let i := Instr.sskip q rs1
    h.isVc = true → h.xPoisoned rs1 = false →
    (∀ sl, slot = some sl → sl.kind = .memSource → exec i s = .next (s.retired
      { h with vec := { v with slots := v.slots.setIfInBounds q.toNat (some { sl with pos := sl.pos + n }) } } 4))
    ∧ (∀ sl b, slot = some sl → sl.kind = .fifoSource b →
        let k := s.bank h.cluster b
        let bytes := (n + 127) / 128 * 128
        let u := s.setBank h.cluster b { k with popped := k.popped + bytes }
        k.busy = none → k.mode = 3 →
        (k.popped + bytes ≤ k.level →
          exec i s = .next (u.retired { h with pops := h.pops ++ [(⟨b, bytes, k.gen⟩ : Pop)] } 4))
        ∧ (k.level < k.popped + bytes → ∃ va,
          exec i s = .next (s.waiting h ⟨.skip q.toNat b bytes, va, 0, false⟩)))
    ∧ ((slot = none ∨ ∃ sl, slot = some sl ∧ (sl.kind = .memSink ∨ ∃ d l, sl.kind = .msgSink d l)) →
        exec i s = .next (s.takeTrap (.plain 29 (BitVec.ofNat 64 (q.toNat + 7 * 256))) (instrBits i).toNat))

/-! ### Latch words -/

/-- R86, R115, R187: the latch instructions on an aligned word of a LATCH bank outside a mode change, after their commit
point. A load of a full word answers its bytes sign-extended; only a consuming one empties it. A store into an empty word
writes its bytes and no other and fills it. `lclr` empties the word. A load of an empty word and a store into a full one
wait. Every other word keeps its full bit. -/
def Obligations.LatchWordsFillAndEmpty : Prop :=
  ∀ (s t u : State) (rd rs1 rs2 : Reg) (x : Xlat) (c b off : Nat),
    let a := s.cpu.xr rs1
    let k := u.bank c b
    let full := k.isFull (off / 8) = true
    let others := fun (v : State) => ∀ w, w ≠ off / 8 → (v.bank c b).isFull w = k.isFull w
    let word := a - BitVec.ofNat 64 (a.toNat % 8)
    s.cpu.xPoisoned rs1 = false → commitsTo s t →
    regionOf x.pa = .csram c b off → k.busy = none → k.mode = 2 →
    (∀ (i : Instr) (n : Nat) (consuming : Bool),
        (i, n, consuming) ∈ [(Instr.llw rd rs1, 4, true), (.lld rd rs1, 8, true), (.llpw rd rs1, 4, false),
          (.llpd rd rs1, 8, false)] →
        a.toNat % n = 0 → xlat t .load a = .ok (x, u) →
        (full → ∃ v : State, exec i s = .next v ∧ v.cpu.pc = u.cpu.pc + 4 ∧ v.mem = u.mem
          ∧ v.cpu.x = (u.cpu.setX rd (sextWord (8 * n) (memRead u.mem x.pa n))).x
          ∧ (v.bank c b).isFull (off / 8) = !consuming ∧ others v)
        ∧ (¬full → exec i s = .next (u.waiting u.cpu ⟨.latch (x.pa - x.pa % 8) false, word, 0, false⟩)))
    ∧ (∀ (i : Instr) (n : Nat), (i, n) ∈ [(Instr.lsw rs2 rs1, 4), (.lsd rs2 rs1, 8)] →
        a.toNat % n = 0 → xlat t .store a = .ok (x, u) →
        (¬full → ∃ v : State, exec i s = .next v ∧ v.cpu.pc = u.cpu.pc + 4 ∧ v.cpu.x = u.cpu.x
          ∧ memRead v.mem x.pa n = (u.cpu.xr rs2).toNat % 256 ^ n
          ∧ (∀ p, p < x.pa ∨ x.pa + n ≤ p → memByte v.mem p = memByte u.mem p)
          ∧ (v.bank c b).isFull (off / 8) = true ∧ others v)
        ∧ (full → exec i s = .next (u.waiting u.cpu ⟨.latch (x.pa - x.pa % 8) true, word, 0, false⟩)))
    ∧ (a.toNat % 8 = 0 → xlat t .store a = .ok (x, u) →
        ∃ v : State, exec (.lclr rs1) s = .next v ∧ v.cpu.pc = u.cpu.pc + 4 ∧ v.mem = u.mem ∧ v.cpu.x = u.cpu.x
          ∧ (v.bank c b).isFull (off / 8) = false ∧ others v)

/-! ### Messages and handlers -/

/-- R191: `msend` with readable header and payload. An invalid header answers 1 and sends nothing. A valid one answers 0; a
stream core sends the message at once, a vector core holds it in its buffer for the next commit point, in both cases while
fewer than eight are in flight. -/
def Obligations.MsendSendsOrHolds : Prop :=
  ∀ (s u v : State) (rd rs1 rs2 : Reg) (hb pb : List Byte),
    let hdr := s.cpu.xr rs2
    let hdst := BitVec.ofNat 64 (ofBytes (hb.take 8))
    let hland := BitVec.ofNat 64 (ofBytes (hb.drop 8))
    s.cpu.xPoisoned rs1 = false → s.cpu.xPoisoned rs2 = false → hdr.toNat % 8 = 0 →
    answers (readRecord hdr 16) s (hb, false) u → answers (readRecord (s.cpu.xr rs1) (hdLen hdst)) u (pb, false) v →
    let m := mkMsg v.cpu.num hdst hland pb false
    (headerOk v hdst hland = false → exec (.msend rd rs1 rs2) s = .next (v.retired (v.cpu.setX rd 1) 4))
    ∧ (headerOk v hdst hland = true → v.inFlightOf v.cpu.num < 8 →
        (v.cpu.isVc = true → exec (.msend rd rs1 rs2) s =
          .next (v.retired (Hart.setX { v.cpu with buf := .msg m :: v.cpu.buf } rd 0) 4))
        ∧ (v.cpu.isVc = false → exec (.msend rd rs1 rs2) s =
          .next ((v.send m).retired (v.cpu.setX rd 0) 4)))

/-- R57: `hwait` on a stream core outside an activation: it completes when an interrupt is pending and enabled; else, outside
a task, it starts an activation for the lowest-numbered enabled queue that holds a message; else it waits. It consumes the poison of
`mip` and `mie` (R362).
R57, R138: an activation, started by `hwait` or by the handler-activation step on a core that waits in `hwait`, takes the
oldest message of its queue. It begins at the queue's ENTRY in the handler bank: every register is zero but x10 (the
message's address), x11 (its length), x12 (the queue), x13 and x14 (REG0, REG1); HCTL.PRIV names the mode; the random generator
begins at the activation's key. The core's own bank, mode and pc are kept.
R56, R57: that queue is the lowest-numbered one of the sixteen that holds a message and has an ENTRY other than 0.
R57: `hret` in an activation returns to the `hwait` with the core's own registers, mode and pc; outside one, and on a
vector core, it is an illegal instruction. That it ends the reservation is a reading of the model's (log 30). -/
def Obligations.HandlerWaitStartAndReturn : Prop :=
  (∀ s : State, s.cpu.isVc = false → s.cpu.act = none →
      let wakes := s.cpu.csr.mip &&& s.cpu.csr.mie ≠ 0
      let t := s.eats (s.cpu.csrBad 0x344 || s.cpu.csrBad 0x304)
      (wakes → exec .hwait s = .next (t.retired t.cpu 4))
      ∧ (∀ q, ¬wakes → s.cpu.task = none → s.readyQueue s.cpu.num = some q → exec .hwait s = .next (t.activate q))
      ∧ (¬wakes → (s.cpu.task ≠ none ∨ s.readyQueue s.cpu.num = none) →
          exec .hwait s = .next (t.waiting t.cpu ⟨.hwait, 0, 0, false⟩)))
  ∧ (∀ (s : State) (n : Nat),
      let waits := fun q => (s.getHart n).queueOf q ≠ [] ∧ s.handler (clusterOf n) (n % 208 - 16) q 0 ≠ 0
      (∀ q, s.readyQueue n = some q ↔ q < 16 ∧ waits q ∧ ∀ p, p < q → ¬waits p)
      ∧ (s.readyQueue n = none ↔ ∀ q, q < 16 → ¬waits q))
  ∧ (∀ (s : State) (q : Nat) (e : QEntry) (rest : List QEntry) (w : Wait),
      s.cpu.isVc = false → s.cpu.act = none → s.cpu.run = .program → s.cpu.wait = some w → w.on = .hwait →
      s.readyQueue s.cpu.num = some q → q < 16 → s.cpu.queueOf q = e :: rest →
      let f := fun i => s.handler s.cpu.cluster s.cpu.scIdx q i
      ∃ t : State, exec .handlerActivation s = .next t ∧ t = s.activate q
        ∧ t.cpu.pc = f 0 ∧ t.cpu.mode = (if (f 3).getLsbD 32 then .s else .u)
        ∧ (∀ r : Reg, t.cpu.xr r = (if r = 10 then e.addr else if r = 11 then BitVec.ofNat 64 e.len
            else if r = 12 then BitVec.ofNat 64 q else if r = 13 then f 1 else if r = 14 then f 2 else 0))
        ∧ t.cpu.act = some ⟨q, e.entry, s.cpu.mode, s.cpu.pc, s.cpu.xpoison⟩
        ∧ t.cpu.rngkey = f 0 ^^^ BitVec.ofNat 64 (q * 2 ^ 48) ∧ t.cpu.rngctr = 0
        ∧ t.cpu.xAlt = s.cpu.x ∧ t.cpu.queueOf q = rest ∧ t.cpu.csr.satp = s.cpu.csr.satp ∧ t.mem = s.mem)
  ∧ (∀ s : State,
      (∀ a : Activation, s.cpu.isVc = false → s.cpu.act = some a → s.cpu.prefetch = [] →
          exec .hret s = .next { s with cpu := { s.cpu.advance 0 with
            act := none, x := s.cpu.xAlt, xpoison := a.xpoison, pc := a.pc, mode := a.mode, resv := none } })
      ∧ ((s.cpu.isVc = true ∨ s.cpu.act = none) → exec .hret s = .next (s.illegalAt .hret)))

/-! ### Loads, stores and atomics -/

/-- R32, R34, R51, R80, R81, R302, R398: a scalar load. One whose translation fails raises that fault; one that leaves its page is
misaligned; one that its region or its permission refuses raises the cause of `refused` (the end of LPDDR6: log 96); one to a bank in a
mode change waits. Each other load reads, extends and retires, and what it read poisoned is poisoned:
in LPDDR6 and the banks, a FIFO bank's included, the bytes as the core sees them, its own buffered stores before memory, which is
unchanged; in MMIO the register as the core's older stores leave it (log 120), TWDOOR as zero; in the host window the host's bytes, and
in the twin window what the twin answers, its own buffered bytes before them, or an access fault where the completer aborts. -/
def Obligations.LoadReadsMemory : Prop :=
  ∀ (s : State) (k : LoadKind) (rd rs1 : Reg) (imm : BitVec 12) (form : Form),
    let a := s.cpu.xr rs1 + imm.signExtend 64
    let n := loadBytes k
    let i := Instr.load k rd rs1 imm form
    let traps := fun (t : State) (cause : Nat) => exec i s = .next (t.takeTrap (.plain cause a) (instrBits i).toNat)
    let answers := fun (t : State) (h : Hart) (w : Nat) (p : Bool) =>
      let value : Word := match k with
        | .lb => (BitVec.ofNat 8 w).signExtend 64 | .lh => (BitVec.ofNat 16 w).signExtend 64
        | .lw => (BitVec.ofNat 32 w).signExtend 64 | .ld | .lbu | .lhu | .lwu => BitVec.ofNat 64 w
      exec i s = .next (t.retired ((h.eats p).setXp rd value p) form.len)
    s.cpu.xPoisoned rs1 = false →
    (∀ f, xlat s .load a = .error f → traps (s.xlatMissed .load a) f.cause)
    ∧ ∀ x u, xlat s .load a = .ok (x, u) →
      let pa := x.pa
      let asked := u.l2Ask pa n x.dom
      let mode := (u.cpu.ctx .load).mode
      (x.pageBase + x.pageSize < a.toNat + n → traps u 4)
      ∧ (a.toNat + n ≤ x.pageBase + x.pageSize →
        (∀ cause, refused u true .load pa n mode cause → traps u cause)
        ∧ (∀ c b off, regionOf pa = .csram c b off → (u.bank c b).busy ≠ none →
            ∃ w : Wait, exec i s = .next (u.waiting u.cpu w) ∧ w.on = .modeChange (c * 32 + b) ∧ w.va = a)
        ∧ (u.loadVerdict true pa n mode = .ok →
          (regionOf pa = .lpddr ∨ (∃ c b off, regionOf pa = .csram c b off) →
            answers asked u.cpu (ofBytes (u.seenBytes pa n)) (u.seenPoison pa n))
          ∧ (∀ off, regionOf pa = .mmio off → ∀ v t, u.mmioView.mmioLoad off n = some (v, t) →
              ((∃ d, mmioReg (off - off % 8) = some (.twdoor d)) → v = 0)
              ∧ ∃ t : State, answers t u.cpu v false ∧ t.mem = u.mem)
          ∧ (∀ bus, regionOf pa = .host bus →
              let r := u.forward pa n (ofBytes (u.hostBytes bus n), false)
              (u.hostAborts bus = true → traps asked 5) ∧ (u.hostAborts bus = false → answers asked u.cpu r.1 r.2))
          ∧ (∀ b, regionOf pa = .twin b →
              let t := { asked with free := u.free + 1 }
              let r := u.forward pa n ((Config.twinData u.free).toNat % 256 ^ n, false)
              (Config.completerAborts u.free = true → traps t 5)
              ∧ (Config.completerAborts u.free = false → answers t u.cpu r.1 r.2))))

/-- R32, R34, R51, R80, R81, R302, R336, R398: a scalar store, where `srvrole` does not decide it poisoned (log 64). One whose
translation fails raises that fault; one that leaves its page is misaligned; one that its region or its permission refuses raises the
cause of `refused` (the end of LPDDR6: log 96); one to a bank in a mode change waits. On a vector core each other store enters the
strip buffer, if its sectors fit in 512, and memory is unchanged. On a stream core the low bytes of x[rs2] stand at once in LPDDR6, or
in a SCRATCH or LATCH bank, and every other byte is unchanged; they reach the MMIO register, or the store waits while the twin gives no
credit; or they reach the host's memory, or leave for the twin. -/
def Obligations.StoreWritesItsBytes : Prop :=
  ∀ (s : State) (k : StoreKind) (rs1 rs2 : Reg) (imm : BitVec 12) (form : Form),
    let a := s.cpu.xr rs1 + imm.signExtend 64
    let n := storeBytes k
    let p := s.cpu.xPoisoned rs2
    let num := (s.cpu.xr rs2).toNat % 256 ^ n
    let data := bytesOf n (s.cpu.xr rs2).toNat
    let i := Instr.store k rs2 rs1 imm form
    let traps := fun (t : State) (cause : Nat) => exec i s = .next (t.takeTrap (.plain cause a) (instrBits i).toNat)
    let waits := fun (t : State) (on : WaitOn) => ∃ w : Wait, exec i s = .next (t.waiting t.cpu w) ∧ w.on = on ∧ w.va = a
    let leaves := fun (t : State) => exec i s = .next (t.retired (t.cpu.eats p) form.len)
    s.cpu.xPoisoned rs1 = false →
    (∀ f, xlat s .store a = .error f → traps (s.xlatMissed .store a) f.cause)
    ∧ ∀ x u, xlat s .store a = .ok (x, u) →
      let pa := x.pa
      let e := BufEntry.store pa data 2 p
      let asked := u.l2Ask pa n x.dom
      let mode := (u.cpu.ctx .store).mode
      (x.pageBase + x.pageSize < a.toNat + n → traps u 6)
      ∧ (a.toNat + n ≤ x.pageBase + x.pageSize → u.roleBad pa mode = false →
        (∀ cause, refused u true .store pa n mode cause → traps u cause)
        ∧ (∀ c b off, regionOf pa = .csram c b off → (u.bank c b).busy ≠ none → waits u (.modeChange (c * 32 + b)))
        ∧ (u.storeVerdict true pa n mode = .ok →
          (u.cpu.isVc = true → (bufSectors (e :: u.cpu.buf)).length ≤ 512 →
            exec i s = .next (asked.retired (Hart.eats { u.cpu with buf := e :: u.cpu.buf } p) form.len))
          ∧ (u.cpu.isVc = false →
            (regionOf pa = .lpddr ∨ (∃ c b off, regionOf pa = .csram c b off) →
              ∃ v : State, exec i s = .next v ∧ memRead v.mem pa n = num
                ∧ (∀ b, b < pa ∨ pa + n ≤ b → memByte v.mem b = memByte u.mem b)
                ∧ v.cpu.x = u.cpu.x ∧ v.cpu.pc = u.cpu.pc + BitVec.ofNat 64 form.len ∧ v.banks = u.banks)
            ∧ (∀ off, regionOf pa = .mmio off →
                (u.mmioReady off = true → leaves (asked.mmioStore off n num))
                ∧ (u.mmioReady off = false → waits asked .credit))
            ∧ (∀ bus, regionOf pa = .host bus → leaves (asked.hostWrite bus data))
            ∧ (∀ b, regionOf pa = .twin b → leaves asked))))

/-- R51, R80, R81, R152: an AMO on LPDDR6 or a SCRATCH bank, aligned, after its commit point: x[rd] receives the old value
sign-extended, memory the operation's result, and every other byte is unchanged. A misaligned one raises cause 6. -/
def Obligations.AmoReadsModifiesWrites : Prop :=
  ∀ (s t u : State) (op : AmoOp) (dbl aq rl : Bool) (rd rs1 rs2 : Reg) (x : Xlat),
    let a := s.cpu.xr rs1
    let n := if dbl then 8 else 4
    let i := Instr.amo op dbl aq rl rd rs1 rs2
    let old := memRead u.mem x.pa n
    let v := (u.cpu.xr rs2).toNat % 256 ^ n
    let so := fun (k : Nat) => if k < 256 ^ n / 2 then (k : Int) else (k : Int) - 256 ^ n
    let new : Nat := match op with
      | .swap => v | .add => (old + v) % 256 ^ n | .xor => old ^^^ v | .and => old &&& v | .or => old ||| v
      | .min => if so old ≤ so v then old else v | .max => if so v ≤ so old then old else v
      | .minu => min old v | .maxu => max old v
    s.cpu.xPoisoned rs1 = false →
    (a.toNat % n ≠ 0 → exec i s = .next (s.takeTrap (.plain 6 a) (instrBits i).toNat))
    ∧ (a.toNat % n = 0 → commitsTo s t → xlat t .store a = .ok (x, u) →
        (regionOf x.pa = .lpddr ∨ ∃ c b off, regionOf x.pa = .csram c b off ∧ (u.bank c b).busy = none
          ∧ (u.bank c b).mode = 1) →
        ∃ w : State, exec i s = .next w
          ∧ w.cpu.x = (u.cpu.setX rd (sextWord (8 * n) old)).x ∧ w.cpu.pc = u.cpu.pc + 4
          ∧ memRead w.mem x.pa n = new
          ∧ ∀ b, b < x.pa ∨ x.pa + n ≤ b → memByte w.mem b = memByte u.mem b)

/-- R80, R152: LR and SC on LPDDR6 or a SCRATCH bank, aligned, after the commit point of a vector core. LR answers the bytes
and reserves their 128-byte line. SC stores and answers 0 when the hart holds that line's reservation, else stores nothing
and answers 1; it ends the reservation either way. That SC stores whenever the reservation is held, and answers 1 where it fails, is
the model's reading (log 30). -/
def Obligations.LrReservesScStores : Prop :=
  ∀ (s t u : State) (dbl aq rl : Bool) (rd rs1 rs2 : Reg) (x : Xlat),
    let a := s.cpu.xr rs1
    let n := if dbl then 8 else 4
    let held := u.cpu.resv = some (x.pa / 128)
    s.cpu.xPoisoned rs1 = false → a.toNat % n = 0 →
    (s.cpu.isVc = true → commitsTo s t) → (s.cpu.isVc = false → t = s) →
    (regionOf x.pa = .lpddr ∨ ∃ c b off, regionOf x.pa = .csram c b off ∧ (u.bank c b).busy = none
      ∧ (u.bank c b).mode = 1) →
    (xlat t .load a = .ok (x, u) →
        ∃ w : State, exec (.lrSc .lr dbl aq rl rd rs1 rs2) s = .next w ∧ w.cpu.resv = some (x.pa / 128)
          ∧ w.cpu.x = (u.cpu.setX rd (sextWord (8 * n) (memRead u.mem x.pa n))).x
          ∧ w.mem = u.mem ∧ w.cpu.pc = u.cpu.pc + 4)
    ∧ (xlat t .store a = .ok (x, u) →
        ∃ w : State, exec (.lrSc .sc dbl aq rl rd rs1 rs2) s = .next w ∧ w.cpu.resv = none
          ∧ w.cpu.x = (u.cpu.setX rd (if held then 0 else 1)).x ∧ w.cpu.pc = u.cpu.pc + 4
          ∧ (held → memRead w.mem x.pa n = (u.cpu.xr rs2).toNat % 256 ^ n)
          ∧ (¬held → w.mem = u.mem)
          ∧ ∀ b, b < x.pa ∨ x.pa + n ≤ b → memByte w.mem b = memByte u.mem b)

/-! ### Traps, returns and control registers -/

/-- R54, R331, R332, R333: `ecall` (cause 8, 9 or 11 by the mode, trap value 0) and `ebreak` (cause 3, trap value the pc)
commit the older stores and take their exception at the instruction: `medeleg` sends it from below M-mode to S-mode,
everything else to M-mode; the pc, the cause and the trap value are saved, the interrupt enable and the mode are stacked in
`mstatus`, and the pc goes to the trap vector's base. Cause 11 of an `ecall` in M-mode, which the table of R331 does not hold, and the
layout of what is saved are taken from the privileged architecture, outside the spec (log 21). -/
def Obligations.EnvironmentCallsTrap : Prop :=
  ∀ (s t : State) (i : Instr) (form : Form) (cause : Nat) (tv : Word),
    (i = .ecall ∧ tv = 0 ∧ (s.cpu.mode = .u ∧ cause = 8 ∨ s.cpu.mode = .s ∧ cause = 9 ∨ s.cpu.mode = .m ∧ cause = 11)
      ∨ i = .ebreak form ∧ cause = 3 ∧ tv = s.cpu.pc) →
    s.cpu.wait = none → s.commit = (t, none) → t.cpu.mode = s.cpu.mode →
    let h := t.cpu
    let ms := h.csr.mstatus
    let down := h.mode ≠ .m ∧ h.csr.medeleg.getLsbD cause = true
    ∃ u : State, exec i s = .next u ∧ u.mem = t.mem ∧ u.cpu.x = h.x ∧ u.cpu.f = h.f ∧ u.cpu.vec = h.vec
      ∧ (down → u.cpu.mode = .s ∧ u.cpu.pc = h.csr.stvec &&& ~~~(3 : Word) ∧ u.cpu.csr.sepc = h.pc
          ∧ u.cpu.csr.scause = BitVec.ofNat 64 cause ∧ u.cpu.csr.stval = tv ∧ u.cpu.csr.mepc = h.csr.mepc
          ∧ ∀ b, b < 64 → u.cpu.csr.mstatus.getLsbD b = (if b = 1 then false else if b = 5 then ms.getLsbD 1
              else if b = 8 then decide (h.mode = .s) else ms.getLsbD b))
      ∧ (¬down → u.cpu.mode = .m ∧ u.cpu.pc = h.csr.mtvec &&& ~~~(3 : Word) ∧ u.cpu.csr.mepc = h.pc
          ∧ u.cpu.csr.mcause = BitVec.ofNat 64 cause ∧ u.cpu.csr.mtval = tv ∧ u.cpu.csr.sepc = h.csr.sepc
          ∧ ∀ b, b < 64 → u.cpu.csr.mstatus.getLsbD b = (if b = 3 then false else if b = 7 then ms.getLsbD 3
              else if b = 11 then decide (h.mode ≠ .u) else if b = 12 then decide (h.mode = .m) else ms.getLsbD b))

/-- R52, R53, R333, R334, R337: a rewinding exception in an opened strip discards the strip's buffered stores, returns its pops, and
restores the journal: the x registers it holds, the f registers, `frm` and `fflags`, `vcfg`, the vector registers it holds, the keys,
`rngctr` and the stream positions; the x registers and CSRs restored have the marks they had (R361). Every other x and vector register
keeps the value it has. The trap saves the `vstrip`'s address, in S-mode where `medeleg` sends it there from below M-mode, else in
M-mode (R332), and `sfinfo` notes the element and the cause. Memory is unchanged.
R335: the replay lineage after it: a page, access or HOSTGONE fault keeps its page, and VLIMIT is the strip's length, or half of it where
another page was kept; PROGRESS sets VLIMIT to the length where there was none; each raises REPLAYS by one, up to 15. The next `vstrip`
at that address is the replay (R334). -/
def Obligations.RewindRestoresTheJournal : Prop :=
  ∀ (s : State) (j : Journal) (e : Exc) (bits n : Nat),
    s.cpu.vec.strip = some j → e.rewinds = true → e.mc = none → e.elem = some n → n < 65536 → e.cause < 256 →
    s.cpu.wait = none → (j.x.map Prod.fst).Nodup → (j.vregs.map Prod.fst).Nodup → (∀ p ∈ j.vregs, p.2.length ≤ 4096) →
    let h := s.cpu
    let t := s.takeTrap e bits
    let v := t.cpu.vec
    let down := h.mode ≠ .m ∧ delegableCause e.cause = true ∧ h.csr.medeleg.getLsbD e.cause = true
    t.mem = s.mem ∧ t.cpu.buf = [] ∧ t.cpu.pops = [] ∧ v.strip = none
      ∧ (down → t.cpu.csr.sepc = j.pc ∧ t.cpu.csr.scause = BitVec.ofNat 64 e.cause ∧ t.cpu.csr.stval = e.tval
          ∧ t.cpu.mode = .s ∧ t.cpu.pc = h.csr.stvec &&& ~~~(3 : Word) ∧ t.cpu.csr.mepc = h.csr.mepc)
      ∧ (¬down → t.cpu.csr.mepc = j.pc ∧ t.cpu.csr.mcause = BitVec.ofNat 64 e.cause ∧ t.cpu.csr.mtval = e.tval
          ∧ t.cpu.mode = .m ∧ t.cpu.pc = h.csr.mtvec &&& ~~~(3 : Word) ∧ t.cpu.csr.sepc = h.csr.sepc)
      ∧ t.cpu.f = j.f ∧ t.cpu.frm = j.frm ∧ t.cpu.fflags = j.fflags ∧ t.cpu.rngctr = j.rngctr
      ∧ v.keys = j.keys ∧ v.slots = j.slots ∧ v.vcfg = j.vcfg
      ∧ v.sfElem.toNat = n ∧ v.sfCause.toNat = e.cause
      ∧ (∀ r w, (r, w) ∈ j.x → r < 32 → t.cpu.x.getD r 0 = w ∧ t.cpu.xpoison.getLsbD r = j.xpoison.getLsbD r)
      ∧ (∀ r, r < 32 → r ∉ j.x.map Prod.fst → t.cpu.x.getD r 0 = h.x.getD r 0 ∧ t.cpu.xpoison.getLsbD r = h.xpoison.getLsbD r)
      ∧ (∀ r bs, (r, bs) ∈ j.vregs → v.bytes r 0 bs.length = bs)
      ∧ (∀ r b, b < 4096 → (∀ bs, (r, bs) ∈ j.vregs → bs.length ≤ b) → v.byte r b = h.vec.byte r b)
      ∧ (∀ c, c ∈ [0x001, 0x002, 0x800, 0x806] → (c ∈ t.cpu.cpoison ↔ c ∈ j.cpoison))
      ∧ v.replayPc = some j.pc
      ∧ (let page := e.tval - BitVec.ofNat 64 (e.tval.toNat % 4096)
        let more := min 15 (h.vec.replays.toNat + 1)
        (e.cause ∈ [1, 5, 7, 12, 13, 15, 50] → v.pageKept = some page ∧ v.replays.toNat = more
          ∧ v.vlimit = (if h.vec.pageKept = none ∨ h.vec.pageKept = some page then j.vl else max 1 (j.vl / 2)))
        ∧ (e.cause = 26 → v.pageKept = h.vec.pageKept ∧ v.replays.toNat = more
          ∧ v.vlimit = (if h.vec.vlimit = 0 then j.vl else h.vec.vlimit)))

/-- R332, R334, R400: `mret` in M-mode, and `sret` in M-mode or in S-mode without TSR, return to the saved pc in the saved
mode and restore the interrupt enable; a saved mode that is absent returns to U-mode. Elsewhere
they are illegal instructions. Stated for a hart whose task no abandon signal has reached. A poisoned saved pc is not jumped to: it
raises cause 48 (R363). That both give up the reservation is the model's reading, not R332's (logs 21, 30).
R66, R152: `wfi` in M-mode, and in S-mode without TW, completes when an interrupt is pending and enabled in `mie`,
whatever `mstatus` says, and else waits; elsewhere it is an illegal instruction. Each consumes the poison of the status and interrupt
registers it looks at (R362).
TSR, TW, `wfi` in U-mode and the clearing of MPRV are taken from the privileged architecture, outside the spec (log 21). -/
def Obligations.ReturnsAndWfi : Prop :=
  ( ∀ s : State,
      let h := s.cpu
      let ms := h.csr.mstatus
      let mpp : Mode := if ms.toNat / 2048 % 4 = 3 then .m else if ms.toNat / 2048 % 4 = 1 then .s else .u
      let spp : Mode := if ms.getLsbD 8 then .s else .u
      let trap := h.mode = .s ∧ ms.getLsbD 22 = true
      let ate := s.eats (h.mode != .u && h.csrBad 0x300)
      let psn := fun (i : Instr) => ate.takeTrap ⟨48, 0, none, true, some (psnInfo h)⟩ (instrBits i).toNat
      (h.csrBad 0x341 = true → h.mode = .m → exec .mret s = .next (psn .mret))
      ∧ (h.csrBad 0x141 = true → (h.mode = .m ∨ h.mode = .s ∧ ¬trap) → exec .sret s = .next (psn .sret))
      ∧ ((∀ r, h.task = some r → r.signal = false) →
      (h.mode = .m → h.csrBad 0x341 = false → ∃ t : State, exec .mret s = .next t ∧ t.cpu.pc = h.csr.mepc ∧ t.cpu.mode = mpp ∧ t.cpu.resv = none
          ∧ t.cpu.x = h.x ∧ t.mem = s.mem
          ∧ ∀ b, b < 64 → t.cpu.csr.mstatus.getLsbD b = (if b = 3 then ms.getLsbD 7 else if b = 7 then true
              else if b = 11 ∨ b = 12 then false else if b = 17 ∧ mpp ≠ .m then false else ms.getLsbD b))
      ∧ (h.mode ≠ .m → exec .mret s = .next (s.illegalAt .mret))
      ∧ (h.mode = .m ∨ h.mode = .s ∧ ¬trap → h.csrBad 0x141 = false → ∃ t : State, exec .sret s = .next t ∧ t.cpu.pc = h.csr.sepc
          ∧ t.cpu.mode = spp ∧ t.cpu.resv = none ∧ t.cpu.x = h.x ∧ t.mem = s.mem
          ∧ ∀ b, b < 64 → t.cpu.csr.mstatus.getLsbD b = (if b = 1 then ms.getLsbD 5 else if b = 5 then true
              else if b = 8 ∨ b = 17 then false else ms.getLsbD b))
      ∧ (h.mode = .u ∨ trap → exec .sret s = .next (ate.illegalAt .sret))))
  ∧ (∀ s : State,
      let may := s.cpu.mode = .m ∨ s.cpu.mode = .s ∧ s.cpu.csr.mstatus.getLsbD 21 = false
      let pending := s.cpu.csr.mip &&& s.cpu.csr.mie ≠ 0
      let ate := s.eats (s.cpu.mode == .s && s.cpu.csrBad 0x300)
      let t := ate.eats (s.cpu.csrBad 0x344 || s.cpu.csrBad 0x304)
      (may → pending → exec .wfi s = .next (t.retired t.cpu 4))
      ∧ (may → ¬pending → exec .wfi s = .next (t.waiting t.cpu ⟨.wfi, 0, 0, false⟩))
      ∧ (¬may → exec .wfi s = .next (ate.illegalAt .wfi)))

/-- R10, R152, R173, R195: a CSR instruction on an implemented CSR that the mode reaches answers the old value; it writes,
unless it sets or clears with x0 or a zero immediate, the new value its operation gives. A CSR out of the mode's reach, one
the core lacks, and a write of a read-only one are illegal instructions, whatever the source register holds. A write of `vcfg` is `vconf`'s,
another statement. A write of `minstret` is done instead of the count of its own instruction, so that the next one reads the value
written (R16, R152). Stated where no poisoned register decides the access (log 64). -/
def Obligations.CsrInstructionReadsAndWrites : Prop :=
  ∀ (s : State) (op : CsrOp) (rd : Reg) (src : CsrSrc) (n : BitVec 12),
    let h := s.cpu
    let c := n.toNat
    let v : Word := match src with | .reg r => h.xr r | .imm z => z.zeroExtend 64
    let writes := op = .rw ∨ (match src with | .reg r => r ≠ 0 | .imm z => z ≠ 0)
    let reach := c / 256 % 4 ≤ h.mode.rank ∧ c / 256 % 4 ≠ 2
    let i := Instr.csr op rd src n
    h.csrGateBad c = false →
    ((∀ r, src = .reg r → h.xPoisoned r = false) → h.csrReadBad c = false → ∀ old, reach → s.csrRead c = some old →
        let new := match op with | .rw => v | .rs => old ||| v | .rc => old &&& ~~~v
        let t := (s.csrStd c new).csrDev c new
        (¬writes → exec i s = .next (s.retired (h.setX rd old) 4))
        ∧ (writes → csrReadOnly c = false → c ≠ 0x800 → c ≠ 0xB02 → exec i s = .next (t.retired (t.cpu.setX rd old) 4))
        ∧ (writes → c = 0xB02 → exec i s = .next ((t.retired (t.cpu.setX rd old) 4).counting new)))
    ∧ (¬reach ∨ s.csrRead c = none ∨ writes ∧ csrReadOnly c = true → exec i s = .next (s.illegalAt i))

/-- R10, R137, R152, R195, R332: what a CSR instruction's write leaves in a register with a legal set of values of its own: the
vector bases drop bit 1, the saved pcs drop bit 0, the counter enables keep three bits, `xckmask` drops bit 0, a write of
ones to `chkint` clears those bits; of `medeleg` the bits of R331's causes can be set, and `satp` keeps a Bare mode that M-mode writes
and stores Sv48 for any other (R102); the scratch registers, `rngkey`, `rngctr` and `vckmask` take the value whole. The CSRs 0xF11,
0xF15, 0x3A0, 0x3B0, 0xB03 and 0x323 (`mvendorid`, `mconfigptr`, `pmpcfg0`, `pmpaddr0`, `mhpmcounter3`, `mhpmevent3`) read zero.
Bit 1 of the bases, bit 0 of the saved pcs, the three counter enables and the zero CSRs, the interrupts that `mideleg`, `mie`, `mip`
and their S-mode views hold (log 20), and the fields of `mstatus` and `sstatus` with an FS of 0 or 3 and no absent MPP (log 7) are taken
from the privileged architecture, outside the spec. -/
def Obligations.CsrWritesStoreTheLegalValue : Prop :=
  ∀ (s : State) (v : Word),
    let w := fun n => (s.csrStd n v).csrDev n v
    (w 0x305).csrRead 0x305 = some (v &&& 0xFFFFFFFFFFFFFFFD) ∧ (w 0x105).csrRead 0x105 = some (v &&& 0xFFFFFFFFFFFFFFFD)
    ∧ (w 0x341).csrRead 0x341 = some (v &&& 0xFFFFFFFFFFFFFFFE) ∧ (w 0x141).csrRead 0x141 = some (v &&& 0xFFFFFFFFFFFFFFFE)
    ∧ (w 0x306).csrRead 0x306 = some (v &&& 7) ∧ (w 0x106).csrRead 0x106 = some (v &&& 7)
    ∧ (w 0x340).csrRead 0x340 = some v ∧ (w 0x140).csrRead 0x140 = some v
    ∧ (w 0x805).csrRead 0x805 = some v ∧ (w 0x806).csrRead 0x806 = some v
    ∧ (s.cpu.isVc = true → (w 0x802).csrRead 0x802 = some (v &&& 0xFFFFFFFFFFFFFFFE)
        ∧ (w 0x803).csrRead 0x803 = some v)
    ∧ (w 0x804).csrRead 0x804 = some (BitVec.zeroExtend 64 (s.cpu.chkAll &&& ~~~(v.truncate 4)))
    ∧ (∀ n, n ∈ [0xF11, 0xF15, 0x3A0, 0x3B0, 0xB03, 0x323] → s.csrRead n = some 0)
    ∧ (let c := s.cpu.csr
      let stands := fun (n : Nat) (bit : Nat → Bool) => ∃ m : Word, (w n).csrRead n = some m ∧ ∀ b, b < 64 → m.getLsbD b = bit b
      let merged := fun (old mask : Word) (b : Nat) => if mask.getLsbD b then v.getLsbD b else old.getLsbD b
      let fs := s.cpu.isVc && (v.getLsbD 13 || v.getLsbD 14)
      let status := fun (own : List Nat) (b : Nat) =>
        if b = 13 ∨ b = 14 ∨ b = 63 then fs else if b ∈ own then v.getLsbD b else b == 33
      stands 0x302 (fun b => decide (b ∈ [1, 2, 3, 4, 5, 6, 7, 8, 9, 12, 13, 15, 24, 25, 26, 28, 29, 30, 31, 50]) && v.getLsbD b)
      ∧ stands 0x303 (fun b => decide (b ∈ [1, 5, 9]) && v.getLsbD b)
      ∧ stands 0x304 (fun b => decide (b ∈ [1, 3, 5, 7, 9, 11]) && v.getLsbD b)
      ∧ stands 0x344 (merged c.mip 0x222)
      ∧ stands 0x104 (fun b => c.mideleg.getLsbD b && merged c.mie (c.mideleg &&& 0x222) b)
      ∧ stands 0x144 (fun b => c.mideleg.getLsbD b && merged c.mip (c.mideleg &&& 2) b)
      ∧ ((s.cpu.mode = .s → c.mstatus.getLsbD 20 = false) → stands 0x180 (fun b =>
          if b < 60 ∨ s.cpu.mode = .m ∧ v.toNat / 2 ^ 60 = 0 then v.getLsbD b else b == 60 || b == 63))
      ∧ stands 0x300 (fun b => if b = 11 then v.getLsbD 11 else if b = 12 then v.getLsbD 11 && v.getLsbD 12
          else if b = 35 then true else status [1, 3, 5, 7, 8, 17, 18, 19, 20, 21, 22] b)
      ∧ stands 0x100 (status [1, 5, 8, 18, 19]))

/-! ### Scalar floating point -/

/-- R80, R81, R129, R152: a scalar floating-point instruction other than a load or store, on a vector core with FS not off and with a
rounding mode in force and `mstatus` unpoisoned, completes: it retires, `fflags` only gains bits, and it writes at most its destination register;
every other x and f register and all of memory are unchanged. A load or store whose translation and region admit it and that stays
in its page completes: a load writes its f register with the bytes as the core sees them, a single NaN-boxed, and a store enters
the strip buffer, if its sectors fit in 512. On a stream core each is illegal. FS, and that with FS off each is illegal, are taken from
the privileged architecture, outside the spec (log 7). -/
def Obligations.FpScalarCompletesWithItsFrame : Prop :=
  ∀ (s : State) (op : FpOp) (form : Form),
    let h := s.cpu
    let rmOk := fun (rm : BitVec 3) => rm.toNat ≤ 4 ∨ rm.toNat = 7 ∧ h.frm.toNat ≤ 4
    let plain : Prop := match op with
      | .load _ _ _ _ | .store _ _ _ _ => False
      | .add _ _ _ _ rm | .sub _ _ _ _ rm | .mul _ _ _ _ rm | .div _ _ _ _ rm | .sqrt _ _ _ rm
      | .madd _ _ _ _ _ rm | .msub _ _ _ _ _ rm | .nmsub _ _ _ _ _ rm | .nmadd _ _ _ _ _ rm
      | .toInt _ _ _ _ rm | .ofInt _ _ _ _ rm | .cvtSD _ _ rm | .cvtDS _ _ rm => rmOk rm
      | _ => True
    let fs := h.csr.mstatus.toNat / 8192 % 4 ≠ 0
    let i := Instr.fpScalar op form
    let admits := fun (acc : Acc) (f : FpFmt) (rs1 : Reg) (imm : BitVec 12) (x : Xlat) (u : State) =>
      let a := h.xr rs1 + imm.signExtend 64
      let n := match f with | .s => 4 | .d => 8
      h.xPoisoned rs1 = false ∧ xlat s acc a = .ok (x, u) ∧ a.toNat + n ≤ x.pageBase + x.pageSize
        ∧ (regionOf x.pa = .lpddr ∨ ∃ c b off, regionOf x.pa = .csram c b off)
    h.csrBad 0x300 = false →
    (h.isVc = true → fs → ∀ f r rs1 imm x u,
      let n := match f with | .s => 4 | .d => 8
      (op = .load f r rs1 imm → admits .load f rs1 imm x u → u.loadVerdict true x.pa n (u.cpu.ctx .load).mode = .ok →
        let p := u.seenPoison x.pa n
        let w := ofBytes (u.seenBytes x.pa n)
        let v := match f with | .s => 0xFFFFFFFF00000000 + w | .d => w
        exec i s = .next ((u.l2Ask x.pa n x.dom).retired ((u.cpu.eats p).setF r (BitVec.ofNat 64 v) p) form.len))
      ∧ (op = .store f r rs1 imm → admits .store f rs1 imm x u → u.storeVerdict true x.pa n (u.cpu.ctx .store).mode = .ok →
        let p := h.fPoisoned r
        let e := BufEntry.store x.pa (bytesOf n (h.f.getD r.toNat 0).toNat) 2 p
        (bufSectors (e :: u.cpu.buf)).length ≤ 512 →
        exec i s = .next ((u.l2Ask x.pa n x.dom).retired (Hart.eats { u.cpu with buf := e :: u.cpu.buf } p) form.len)))
    ∧ (h.isVc = true → fs → plain → ∃ t : State, exec i s = .next t
        ∧ t.cpu.pc = h.pc + BitVec.ofNat 64 form.len ∧ t.mem = s.mem ∧ t.cpu.frm = h.frm
        ∧ (∀ b, b < 5 → h.fflags.getLsbD b = true → t.cpu.fflags.getLsbD b = true)
        ∧ (∀ r : Reg, (fpUse op).writes ≠ [r.toNat] → t.cpu.xr r = h.xr r)
        ∧ (∀ r : Reg, (fpUse op).writes ≠ [32 + r.toNat] → t.cpu.f.getD r.toNat 0 = h.f.getD r.toNat 0))
    ∧ (h.isVc = false ∨ ¬fs → exec i s = .next (s.illegalAt i))

/-- R129, R152: the results of the scalar floating-point instructions. A single stands NaN-boxed in an f register, and one that is not
boxed reads as the canonical NaN.
Moving bits: `fsgnj`, `fsgnjn` and `fsgnjx` take the sign from b, from its inverse, or from both; a move to x sign-extends a single;
none raises a flag.
Arithmetic: under the mode of the rm field, or of `frm` where it is dynamic, add, sub, mul, div, sqrt and the fused forms write the
exact result rounded once, canonical NaN for a NaN operand or an invalid operation, and raise the flags of IEEE 754: NV for a signalling
operand, an invalid operation, and infinity times zero in a fused form whatever its addend; DZ for a finite number over zero; OF, UF
(tininess after rounding) and NX. Minimum and maximum prefer a number to a NaN and put −0 below +0; comparisons with a NaN are false;
conversions to integers round, saturate with NV, and sign-extend 32-bit results; conversions between the precisions round. -/
def Obligations.FpMovesAndSignsAreExact : Prop :=
  ∀ (s : State) (rd a b : Reg) (form : Form),
    let h := s.cpu
    let f := fun (r : Reg) => h.f.getD r.toNat 0
    let single := fun (r : Reg) => if (f r).toNat / 2 ^ 32 = 0xFFFFFFFF then (f r).toNat % 2 ^ 32 else 0x7FC00000
    let box := fun (v : Nat) => BitVec.ofNat 64 (0xFFFFFFFF00000000 + v)
    let sign := fun (k : BitVec 2) (x y : Bool) => match k.toNat with | 0 => y | 1 => !y | _ => x != y
    h.isVc = true → h.csr.mstatus.toNat / 8192 % 4 ≠ 0 → h.csrBad 0x300 = false →
    (∀ k : BitVec 2, ∃ t : State, exec (.fpScalar (.sgnj .d k rd a b) form) s = .next t ∧ t.cpu.fflags = h.fflags
        ∧ t.cpu.f.getD rd.toNat 0 = BitVec.ofNat 64
            ((f a).toNat % 2 ^ 63 + (if sign k ((f a).getLsbD 63) ((f b).getLsbD 63) then 2 ^ 63 else 0)))
    ∧ (∀ k : BitVec 2, ∃ t : State, exec (.fpScalar (.sgnj .s k rd a b) form) s = .next t ∧ t.cpu.fflags = h.fflags
        ∧ t.cpu.f.getD rd.toNat 0 = box (single a % 2 ^ 31
            + (if sign k (decide (2 ^ 31 ≤ single a)) (decide (2 ^ 31 ≤ single b)) then 2 ^ 31 else 0)))
    ∧ (∃ t : State, exec (.fpScalar (.mvXF .d rd a) form) s = .next t ∧ t.cpu.x = (h.setX rd (f a)).x)
    ∧ (∃ t : State, exec (.fpScalar (.mvXF .s rd a) form) s = .next t
        ∧ t.cpu.x = (h.setX rd (((f a).truncate 32).signExtend 64)).x)
    ∧ (∃ t : State, exec (.fpScalar (.mvFX .s rd a) form) s = .next t
        ∧ t.cpu.f.getD rd.toNat 0 = box ((h.xr a).toNat % 2 ^ 32))
    ∧ (∃ t : State, exec (.fpScalar (.mvFX .d rd a) form) s = .next t ∧ t.cpu.f.getD rd.toNat 0 = h.xr a)
    ∧ (let bitsOf := fun (p : FpFmt) (r : Reg) => match p with | .s => single r | .d => (f r).toNat
      let val := fun (p : FpFmt) (r : Reg) => (fpFmt p).decode (bitsOf p r)
      let signals := fun (p : FpFmt) (r : Reg) => (fpFmt p).isSnan (bitsOf p r)
      let gives := fun (op : FpOp) (g : Hart) => exec (.fpScalar op form) s = .next (s.retired g form.len)
      let toF := fun (op : FpOp) (p : FpFmt) (bits : Nat) (fl : BitVec 5) (psn : Bool) => gives op (h.fpDone p rd bits fl psn)
      let toX := fun (op : FpOp) (v : Word) (fl : BitVec 5) (psn : Bool) =>
        gives op (Hart.setXp { (h.eats psn).csrSpoil 0x001 psn with fflags := fl } rd v psn)
      let two := h.fPoisoned a || h.fPoisoned b
      let rounding := fun (r : RR) (nv dz : Bool) => raised h nv dz r.ovf (r.tiny && r.inexact) (r.inexact || r.ovf)
      (∀ rm m, (if rm = 7 then h.frm else rm, m) ∈ [((0 : BitVec 3), Rm.rne), (1, .rtz), (2, .rdn), (3, .rup), (4, .rmm)] →
        (∀ op p srcs g bad byZero, fpArith op p rd rm srcs g bad byZero →
          let x := fun (k : Nat) => val p (srcs.getD k 0)
          let nan := srcs.any fun r => (val p r).isNan
          let r := g m x
          let nv := srcs.any (signals p) || (bad x && !nan)
            || (srcs.length == 3 && !(x 0).isNan && !(x 1).isNan && ((x 0).mul (x 1)).isNan)
          toF op p r.bits (rounding r nv (byZero x)) (h.frmBad rm || srcs.any h.fPoisoned))
        ∧ (∀ (p : FpFmt) (k : BitVec 2) (lo hi : Int),
          (k, lo, hi) ∈ [((0 : BitVec 2), (-2 ^ 31 : Int), (2 ^ 31 - 1 : Int)), (1, 0, 2 ^ 32 - 1), (2, -2 ^ 63, 2 ^ 63 - 1),
            (3, 0, 2 ^ 64 - 1)] →
          let sat : Int × Bool × Bool := match val p a with
            | .nan => (hi, true, false)
            | .inf neg => (if neg then lo else hi, true, false)
            | .fin neg c e =>
              let q := roundInt m 0 neg c e
              if q.1 < lo then (lo, true, false) else if hi < q.1 then (hi, true, false) else (q.1, false, q.2)
          toX (.toInt p k rd a rm) (if k.toNat ≤ 1 then (BitVec.ofInt 32 sat.1).signExtend 64 else BitVec.ofInt 64 sat.1)
              (raised h sat.2.1 false false false sat.2.2) (h.frmBad rm || h.fPoisoned a)
            ∧ let w := h.xr a
              let i : Int := match k.toNat with
                | 0 => (w.truncate 32 : BitVec 32).toInt | 1 => ((w.toNat % 2 ^ 32 : Nat) : Int) | 2 => w.toInt | _ => (w.toNat : Int)
              let r := (fpFmt p).round m 0 false (.ofInt i)
              toF (.ofInt p k rd a rm) p r.bits (rounding r false false) (h.frmBad rm || h.xPoisoned a))
        ∧ (let r := fp32.round m 0 false (val .d a)
          toF (.cvtSD rd a rm) .s r.bits (rounding r (signals .d a) false) (h.frmBad rm || h.fPoisoned a))
        ∧ (let r := fp64.round m 0 false (val .s a)
          toF (.cvtDS rd a rm) .d r.bits (rounding r (signals .s a) false) (h.frmBad rm || h.fPoisoned a)))
      ∧ (∀ (p : FpFmt),
        let x := val p a
        let y := val p b
        let sn := signals p a || signals p b
        let nan := x.isNan || y.isNan
        let below := x.lt y || (x.isZero && y.isZero && x.neg? && !y.neg?)
        let truth := fun (t : Bool) => BitVec.ofNat 64 (b2n t)
        (∀ mx : Bool, toF (.minmax p mx rd a b) p
          (if x.isNan && y.isNan then (fpFmt p).nanBits else if x.isNan then bitsOf p b else if y.isNan then bitsOf p a
            else if below != mx then bitsOf p a else bitsOf p b) (raised h sn false false false false) two)
        ∧ toX (.cmp p 0 rd a b) (truth (x.lt y || x.eq y)) (raised h nan false false false false) two
        ∧ toX (.cmp p 1 rd a b) (truth (x.lt y)) (raised h nan false false false false) two
        ∧ toX (.cmp p 2 rd a b) (truth (x.eq y)) (raised h sn false false false false) two
        ∧ gives (.classify p rd a) ((h.eats (h.fPoisoned a)).setXp rd (BitVec.ofNat 64 (match x with
            | .nan => if signals p a then 2 ^ 8 else 2 ^ 9
            | .inf neg => if neg then 2 ^ 0 else 2 ^ 7
            | .fin neg c _ => if c = 0 then (if neg then 2 ^ 3 else 2 ^ 4)
                else if (fpFmt p).isSub x then (if neg then 2 ^ 2 else 2 ^ 5) else if neg then 2 ^ 1 else 2 ^ 6))
            (h.fPoisoned a))))

/-! ### Vector instructions -/

/-- R151, R160, R163, R205: a vector instruction is illegal on a stream core; under VBAD it raises cause 24; with a
destination group that does not fit the configuration it is illegal; with `vl` zero it has no effect beyond its checks. -/
def Obligations.VectorInstructionsCheckTheirConfiguration : Prop :=
  ∀ (s : State) (i : Instr) (r : VRow) (o : VOp), i.vrow = some (r, o) → r.ok o = true →
    let h := s.cpu
    (h.isVc = false → exec i s = .next (s.illegalAt i))
    ∧ (h.isVc = true → h.csrBad 0x800 = false → h.csrBad 0x801 = false →
        (h.vec.vbad = true → exec i s = .next (s.takeTrap (.plain 24 (instrBits i)) (instrBits i).toNat))
        ∧ (h.vec.vbad = false → o.dk = false →
            (r.cls ≠ 6 → (r.shape ∈ [.A, .AD, .T, .TD, .U, .V, .Z, .P, .I, .N, .B, .R, .L, .LS, .LX, .LB, .AM]) →
              h.vec.groupOk o.vd.toNat = false → exec i s = .next (s.illegalAt i))
            ∧ (h.vec.vl = 0 → r.shape ≠ .AM →
                exec i s = .next (s.illegalAt i) ∨ exec i s = .next (s.retired h 6))))

/-- R206, R222 to R230, R235: a class-0 instruction or a conversion with a register destination writes each active element
with the rounding of its operands' elements at the same position, and changes nothing else. Under SR the n-th inexact element, in
ascending order, takes the n-th number of the generator, whose counter advances by as many (R136, R138); else it does not move. -/
def Obligations.VectorFloatElements : Prop :=
  ∀ (s : State) (i : Instr) (o : VOp) (srcs : List Opnd) (f : Vec → Nat → List Nat → RR), floatElem i o srcs f →
    let h := s.cpu
    let v := h.vec
    vectorReady h → o.dk = false → fitsAll v o srcs → (v.ewB = 2 ∨ v.ewB = 4) →
    ∃ (w : Vec) (c : Word) (val : Nat → Nat), exec i s = .next (s.vecDone w c)
      ∧ placed v w o.vd.toNat (v.actives o.km) val
      ∧ drawnAs h (v.actives o.km) v.ew (fun j => [fun u => f v u (srcs.map fun x => operandElem h x j)]) val c
      ∧ (v.rm ≠ .sr → c = h.rngctr)

/-- R206, R240 to R244: a class-1 instruction with a register destination writes each active element with its two components,
each rounded once; a butterfly writes a + c × b and a − c × b (`vbflyi` with the conjugate of c) into its register pair. Under SR the
n-th inexact component takes the n-th number of the generator: elements ascending, of each the real component first, and of a
butterfly the sum before the difference (R136, R138, R240, R244). -/
def Obligations.VectorComplexElements : Prop :=
  ∀ (s : State) (i : Instr) (o : VOp),
    let h := s.cpu
    let v := h.vec
    let half := v.ew / 2
    let cx := fun (x : Opnd) (j : Nat) => v.cx (operandElem h x j)
    vectorReady h → o.dk = false → (v.ewB = 4 ∨ v.ewB = 8) →
    (∀ srcs f, complexElem i o srcs f → fitsAll v o srcs →
      ∃ (w : Vec) (c : Word) (val : Nat → Nat), exec i s = .next (s.vecDone w c)
        ∧ placed v w o.vd.toNat (v.actives o.km) val
        ∧ drawnAs h (v.actives o.km) half (fun j =>
            let r := f v fun k => cx (srcs.getD k (.group 0)) j
            [r.1, r.2]) val c
        ∧ (v.rm ≠ .sr → c = h.rngctr))
    ∧ (∀ (tw : Cx → Cx), (i = .vbfly o ∧ tw = id ∨ i = .vbflyi o ∧ tw = Cx.conj) →
        fitsAll v o [srcA o, srcB o, srcC o] → v.groupOk (o.vd.toNat + v.grp) = true → o.vd.toNat % (2 * v.grp) = 0 →
        let term := fun (j : Nat) => mulTerms (tw (cx (srcC o) j)) (cx (srcB o) j)
        let sum := fun (t : List FV × List FV) =>
          [fun u => v.fmtC.round v.rm u v.fz (sumTerms v.rm.negZero t.1),
            fun u => v.fmtC.round v.rm u v.fz (sumTerms v.rm.negZero t.2)]
        ∃ (w x : Vec) (c : Word) (p q : Nat → Nat), exec i s = .next (s.vecDone x c)
          ∧ placed v w o.vd.toNat (v.actives o.km) p ∧ placed w x (o.vd.toNat + v.grp) (v.actives o.km) q
          ∧ drawnInOrder h (v.actives o.km)
              (fun j => sum (addTerms (cx (srcA o) j) (term j)) ++ sum (addTerms (cx (srcA o) j) (negTerms (term j))))
              (fun j bits => p j = joined half (bits.take 2) ∧ q j = joined half (bits.drop 2)) c
          ∧ (v.rm ≠ .sr → c = h.rngctr))

/-- R206, R231, R233: a class-2 instruction with a register destination writes each active element with the stated function
of its operands' bits modulo 2^EW, and changes nothing else. -/
def Obligations.VectorIntegerElements : Prop :=
  ∀ (s : State) (i : Instr) (o : VOp) (srcs : List Opnd) (f : Nat → Nat → Nat → Nat → Nat), intElem i o srcs f →
    let h := s.cpu
    let v := h.vec
    let at' := fun (k j : Nat) => operandElem h (srcs.getD k (.group 0)) j
    vectorReady h → o.dk = false → fitsAll v o srcs →
    ∃ w : Vec, exec i s = .next (s.vecDone w h.rngctr)
      ∧ placed v w o.vd.toNat (v.actives o.km) fun j => f v.ew (at' 0 j) (at' 1 j) j

/-- R206, R229, R232, R234: the comparisons write the key bits of the active elements, the key instructions those of every
element below `vl`; no other key bit changes. `kpop` counts the set bits below `vl`, `kffs` answers the least, or `vl`; with rd = x0 the answer
is discarded. That key bits at and beyond 2,048 read as 0 there is the model's choice (log 112). -/
def Obligations.ComparisonsAndKeys : Prop :=
  ∀ (s : State) (i : Instr) (o : VOp),
    let h := s.cpu
    let v := h.vec
    let below := (List.range v.vl).filter (v.keyBit o.vs1.toNat)
    vectorReady h →
    (∀ f, compareElem i o f → 1 ≤ o.vd.toNat → o.vd.toNat < 8 → (∀ x ∈ [srcA o, srcB o], v.opndOk x = true) → v.vl ≤ 2048 →
      (i = .vfceq o ∨ i = .vfclt o ∨ i = .vfcle o → v.ewB = 2 ∨ v.ewB = 4) →
      ∃ w : Vec, exec i s = .next (s.vecDone w h.rngctr)
        ∧ keyed v w o.vd.toNat (v.actives o.km) fun j => f v (operandElem h (srcA o) j) (operandElem h (srcB o) j))
    ∧ (∀ f, keyElem i o f → 1 ≤ o.vd.toNat → o.vd.toNat < 8 → v.vl ≤ 2048 →
        ∃ w : Vec, exec i s = .next (s.vecDone w h.rngctr) ∧ keyed v w o.vd.toNat (List.range v.vl) (f h))
    ∧ (v.vl ≠ 0 → v.keysOk o.km false = true →
        exec (.kpop o) s = .next (s.retired (h.setX (BitVec.ofNat 5 o.vd.toNat) (BitVec.ofNat 64 below.length)) 6)
        ∧ exec (.kffs o) s = .next (s.retired
            (h.setX (BitVec.ofNat 5 o.vd.toNat) (BitVec.ofNat 64 (below.headD v.vl))) 6))

/-- R206, R245 to R248: each permute writes the stated positions with the source element that its rule names, +0 where that
lies at or beyond `vl`; `vext` reads one active element sign-extended into an x register, 0 for an inactive one; `vins`
writes one element if it is active. -/
def Obligations.PermutesMoveElements : Prop :=
  ∀ (s : State) (i : Instr) (o : VOp),
    let h := s.cpu
    let v := h.vec
    let u := amountOf o h
    vectorReady h →
    (∀ m srcs is src, permuteElem i o h m srcs is src → o.dk = false → fitsAll v o srcs →
      (v.vl = 0 ∨ v.vl ≤ 2 ^ m ∧ 2 ^ m < 2 * v.vl) →
      ∃ w : Vec, exec i s = .next (s.vecDone w h.rngctr)
        ∧ placed v w o.vd.toNat is fun j => if (src j).2 < v.vl then v.elem (src j).1 (src j).2 else 0)
    ∧ (v.vl ≠ 0 → v.groupOk o.vs1.toNat = true → v.keysOk o.km false = true →
        exec (.vext o) s = .next (s.retired (h.setX (BitVec.ofNat 5 o.vd.toNat)
          (if v.active o.km u then sextWord v.ew (v.elem o.vs1.toNat u) else 0)) 6))
    ∧ (o.dk = false → v.groupOk o.vd.toNat = true → v.keysOk o.km false = true →
        ∃ w : Vec, exec (.vins o) s = .next (s.vecDone w h.rngctr)
          ∧ placed v w o.vd.toNat (if v.active o.km u then [u] else [])
              fun _ => (h.xr (BitVec.ofNat 5 o.vs1.toNat)).toNat)

/-- R148, R249 to R251: a reduction writes element 0 alone. With no active element it writes its empty result; else, under a mode
other than SR, the pairwise tree of each group over the active elements, the groups combined in ascending order. `vredsum` and `vdot`
add, each sum rounded, `vdot` the exact products, a group's result rounded as it leaves its tree; `vredmax` takes the maximum,
unrounded; in `vredbs` each group's sum takes its group's scale, rounded, NaN for a scale that is no finite non-zero number. -/
def Obligations.ReductionsWriteElementZero : Prop :=
  ∀ (s : State) (o : VOp),
    let h := s.cpu
    let v := h.vec
    let a := fun (j : Nat) => v.redParts (v.elem o.vs1.toNat j)
    let b := fun (j : Nat) => v.redParts (v.elem o.vs2.toNat j)
    let enc := fun (xs : List FV) => (v.redBits (xs, false)).1
    let rnd := fun (xs : List FV) => xs.map fun x => v.redFmt.decode (v.redFmt.round v.rm 0 v.fz x).bits
    let product := fun (j : Nat) => match a j, b j with
      | [x, y], [z, w] => [(x.mul z).add v.rm.negZero (y.mul w).negate, (x.mul w).add v.rm.negZero (y.mul z)]
      | x, z => [(x.headD .nan).mul (z.headD .nan)]
    let scaled := fun (g : Nat) (xs : List FV) =>
      match (v.redParts (v.elem o.vs2.toNat g)).headD .nan with
      | .fin _ (m + 1) x => rnd (xs.map fun y => y.scale (floorLog2 (m + 1) x))
      | _ => xs.map fun _ => .nan
    let n := 128 / v.ewB
    let reduced := fun (op : List FV → List FV → List FV) (leaf : Nat → List FV) (fin : Nat → List FV → List FV) (empty : Nat) =>
      match treeReduce op (fun j => if v.active o.km j = true then some (leaf j) else none) fin (Nat.log2 n) ((v.vl + n - 1) / n) with
      | some x => enc x
      | none => empty
    let add := fun (x y : List FV) => rnd (List.zipWith (fun p q => p.add v.rm.negZero q) x y)
    let kept := fun (_ : Nat) (x : List FV) => x
    let answer := fun (i : Instr) (p : Nat → Prop) => ∃ (w : Vec) (c : Word) (val : Nat), exec i s = .next (s.vecDone w c)
      ∧ placed v w o.vd.toNat (if v.vl = 0 then [] else [0]) (fun _ => val) ∧ (v.rm ≠ .sr → c = h.rngctr ∧ p val)
    vectorReady h → o.dk = false → o.s = false → fitsAll v o [srcA o] → v.ewB ≠ 1 →
    answer (.vredsum o) (fun val => val = reduced add a kept 0)
    ∧ (v.ewB ≠ 8 → answer (.vredmax o) fun val => val = reduced (List.zipWith (minMaxVal true)) a kept (v.fmtT.infBits true))
    ∧ (v.groupOk o.vs2.toNat = true → answer (.vdot o) fun val => val = reduced add product (fun _ x => rnd x) 0)
    ∧ (v.oneOk o.vs2.toNat = true → v.ewB ≠ 2 → answer (.vredbs o) fun val => val = reduced add a scaled 0)

/-- R137, R236 to R238: `vpwl` applies the segment of its table that the element reaches, under SR with the numbers in order (R138),
`vbscale` writes the shared scale
of each block with an active element, `vrnd` one draw for each active element in ascending order. -/
def Obligations.PiecewiseScaleAndRandom : Prop :=
  ∀ (s : State) (o : VOp),
    let h := s.cpu
    let v := h.vec
    let act := v.actives o.km
    let code := o.vs2.toNat
    let len := o.vs3.toNat + 1
    let x := fun (j : Nat) => v.src (v.elem o.vs1.toNat j)
    let tab := fun (k : Nat) => v.src (v.elem o.vs2.toNat k)
    let seg := fun (j : Nat) => ((List.range 15).filter fun k => (tab k).lt (x j) || (tab k).eq (x j)).length
    let line := fun (j : Nat) =>
      if (x j).isNan then .nan
      else if (tab (16 + seg j)).isZero then tab (32 + seg j)
      else ((tab (16 + seg j)).mul (x j)).add v.rm.negZero (tab (32 + seg j))
    vectorReady h → o.dk = false →
    (fitsAll v o [srcA o] → v.oneOk o.vs2.toNat = true → (v.ewB = 2 ∨ v.ewB = 4) → 48 ≤ v.mvl →
      ∃ (w : Vec) (c : Word) (val : Nat → Nat), exec (.vpwl o) s = .next (s.vecDone w c)
        ∧ placed v w o.vd.toNat act val ∧ (v.rm ≠ .sr → c = h.rngctr)
        ∧ drawnAs h act v.ew (fun j => [fun u => v.fmtT.round v.rm u v.fz (line j)]) val c)
    ∧ (fitsAll v o [srcA o] → v.blockOk code = true →
        ∃ (w : Vec) (is : List Nat), exec (.vbscale o) s = .next (s.vecDone w h.rngctr)
          ∧ (∀ k, k ∈ is ↔ ∃ j ∈ act, j / len = k)
          ∧ placed v w o.vd.toNat is fun k => scaleBits (if complexCode code then v.fmtC else v.fmtT)
              (blockCode code ((act.filter fun j => j / len == k).flatMap fun j =>
                v.blockParts code (v.elem o.vs1.toNat j))))
    ∧ (fitsAll v o [] → ∃ w : Vec, exec (.vrnd o) s = .next (s.vecDone w (h.rngctr + BitVec.ofNat 64 act.length))
        ∧ placed v w o.vd.toNat act fun j =>
            (Rng.value { h.rng with ctr := h.rngctr + BitVec.ofNat 64 (act.idxOf j) }).toNat)

/-- R21, R122, R239: on a vector core with a good configuration, nothing poisoned, EW 32, a nonzero `vl` and no untaken failure
of a matrix command. With no matrix command of the core's row in the queue, `vracc`, at a legal VD, writes each of the `vl`
elements of VD with its element of the core's slice of the tile as bits, +0 off the slice, and changes nothing else (the row's
elements unpoisoned); `vwacc`, at a legal VS1, writes each element that lies on the slice with its element of VS1 as bits, and
`vzacc` clears the whole slice: both retire and change no register, no memory and no other accumulator element. With a command
in the queue each of the three waits on the interlock. -/
def Obligations.AccumulatorInstructions : Prop :=
  ∀ (s : State) (o : VOp),
    let h := s.cpu
    let v := h.vec
    let row := s.row h.cluster h.row
    let imm := o.vs3.toNat
    let key := fun (tile j : Nat) => accKey tile (8 * h.col + imm + j / 32) (j % 32)
    let wrote := fun (i : Instr) (val : Nat → Option (BitVec 32)) => ∃ t : State, exec i s = .next t
      ∧ t.cpu = h.advance 6 ∧ t.mem = s.mem
      ∧ (∀ k, tabGet 0 (t.row h.cluster h.row).acc k = (val k).getD (tabGet 0 row.acc k))
      ∧ ∀ c r, rowKey c r ≠ rowKey h.cluster h.row → t.row c r = s.row c r
    vectorReady h → o.dk = false → v.ewB = 4 → v.vl ≠ 0 → h.matFaults = [] →
    (row.queue = [] →
      (row.apoison = [] → v.groupOk o.vd.toNat = true → o.km = 0 → ∃ w : Vec, exec (.vracc o) s = .next (s.vecDone w h.rngctr)
        ∧ placed v w o.vd.toNat (List.range v.vl) fun j =>
            if imm + j / 32 < 8 then (tabGet 0 row.acc (key o.vs1.toNat j)).toNat else 0)
      ∧ (v.groupOk o.vs1.toNat = true → wrote (.vwacc o) fun k =>
          ((List.range v.vl).find? fun j => decide (imm + j / 32 < 8) && key o.vd.toNat j == k).map fun j =>
            BitVec.ofNat 32 (v.elem o.vs1.toNat j))
      ∧ wrote (.vzacc o) fun k =>
          let first := accKey o.vd.toNat (8 * h.col) 0
          if first ≤ k ∧ k < first + 256 then some 0 else none)
    ∧ (row.queue ≠ [] → ∀ i, i = .vracc o ∧ v.groupOk o.vd.toNat = true ∨ i = .vwacc o ∧ v.groupOk o.vs1.toNat = true
        ∨ i = .vzacc o → exec i s = .next (s.waiting h ⟨.interlock, 0, 0, true⟩))

/-- R80, R87, R216, R217, R302: a plain vector load whose active elements each lie in one 4 KiB page of LPDDR6, of a SCRATCH, LATCH or
FIFO bank, or of the host window, translated and unpoisoned,
reads each from the address of its form, widens it and writes it, and changes nothing else but the lines that have been asked of the
L2. Under SR the n-th inexact component takes the n-th number of the generator (R136, R138).
R32, R34, R54, R101: the first element whose translation fails, or that its region refuses (MMIO, a hole, a bank in CACHE mode, a port
that is down), has the instruction take that exception with the element's address and number; nothing is written. -/
def Obligations.VectorLoadsReadTheirElements : Prop :=
  ∀ (s : State) (i : Instr) (o : VOp) (addr : Nat → Word) (pa : Nat → Nat),
    let h := s.cpu
    let v := h.vec
    let code := o.fmt.toNat
    let b := v.fmtB code
    let base := h.xr (BitVec.ofNat 5 o.vs1.toNat)
    let act := v.actives o.km
    let raw := fun (j : Nat) => s.found (pa j) b
    let good := fun (j : Nat) => (addr j).toNat % 4096 + b ≤ 4096 ∧ loadable s (pa j) ∧ s.seenPoison (pa j) b = false
      ∧ ∃ x, held s .load (addr j) x ∧ x.pa = pa j
    (i = .vld o ∧ (∀ j, addr j = base + BitVec.ofNat 64 (j * b))
      ∨ i = .vlds o ∧ (∀ j, addr j = base + BitVec.ofNat 64 j * h.xr (BitVec.ofNat 5 o.vs2.toNat))
      ∨ i = .vldx o ∧ v.groupOk o.vs2.toNat = true
        ∧ (∀ j, addr j = base + sextWord v.ew (v.elem o.vs2.toNat j))) →
    vectorReady h → fitsAll v o [] → v.fmtOk code = true →
    ((∀ j ∈ act, good j) →
      ∃ (q : List (Nat × Option (BitVec 12))) (w : Vec) (c : Word) (val : Nat → Nat), exec i s = .next ((s.asking q).vecDone w c)
        ∧ placed v w o.vd.toNat act val
        ∧ drawnAs h act (v.ew / 2) (fun j => widenParts v code (raw j)) val c
        ∧ (v.rm ≠ .sr → c = h.rngctr))
    ∧ ∀ j ∈ act, (addr j).toNat % 4096 + b ≤ 4096 → (∀ k ∈ act, k < j → good k) →
        elementFaults s i .load (addr j) j b (pa j)

/-- R51, R80, R86, R216, R217, R302: a plain vector store whose active elements each lie in one 4 KiB page of LPDDR6, of a SCRATCH or
LATCH bank, or of a window whose port is up, and are translated enters each, narrowed, into the strip buffer in ascending order at the address of its form, if the buffer's 512 sectors
hold it, and changes nothing else but the lines that have been asked of the L2: memory is unchanged. Under SR the n-th inexact
component takes the n-th number of the generator (R136, R138); which values of format code 9 draw is the model's choice (log 107).
R32, R34, R54, R101: the first element whose translation fails, or that its region refuses (a bank in FIFO mode too), has the
instruction take that exception with the element's address and number; nothing is stored. -/
def Obligations.VectorStoresEnterTheStripBuffer : Prop :=
  ∀ (s : State) (i : Instr) (o : VOp) (addr : Nat → Word) (pa : Nat → Nat),
    let h := s.cpu
    let v := h.vec
    let code := o.fmt.toNat
    let b := v.fmtB code
    let base := h.xr (BitVec.ofNat 5 o.vs1.toNat)
    let act := v.actives o.km
    let entries := fun (raw : Nat → Nat) =>
      (act.map fun j => BufEntry.store (pa j) (bytesOf b (raw j)) v.scope false).reverse ++ h.buf
    let good := fun (j : Nat) => (addr j).toNat % 4096 + b ≤ 4096 ∧ storable s (pa j)
      ∧ ∃ x, held s .store (addr j) x ∧ x.pa = pa j
    (i = .vst o ∧ (∀ j, addr j = base + BitVec.ofNat 64 (j * b))
      ∨ i = .vsts o ∧ (∀ j, addr j = base + BitVec.ofNat 64 j * h.xr (BitVec.ofNat 5 o.vs2.toNat))
      ∨ i = .vstx o ∧ v.groupOk o.vs2.toNat = true
        ∧ (∀ j, addr j = base + sextWord v.ew (v.elem o.vs2.toNat j))) →
    vectorReady h → fitsAll v o [] → v.fmtOk code = true → h.winDone = [] →
    ((∀ raw, (bufSectors (entries raw)).length ≤ 512) → (∀ j ∈ act, good j) →
      ∃ (q : List (Nat × Option (BitVec 12))) (c : Word) (raw : Nat → Nat),
        exec i s = .next ((s.asking q).retired { h with rngctr := c, buf := entries raw } 6)
        ∧ drawnAs h act (partWidth code) (fun j => narrowParts v h.ovf code (v.elem o.vd.toNat j)) raw c
        ∧ (v.rm ≠ .sr → c = h.rngctr))
    ∧ ∀ j ∈ act, (addr j).toNat % 4096 + b ≤ 4096 → (∀ k ∈ act, k < j → good k) →
        elementFaults s i .store (addr j) j b (pa j)

/-- R80, R143, R144, R216, R218, R219: block-scaled loads and stores and key moves in translated, unpoisoned LPDDR6 or SCRATCH banks.
`vldbs` reads
each element and its block's scale byte, `vstbs` enters each block's scale before its first active element; `vldk` loads
and `vstk` stores key bits eight to a byte, at the bytes that hold an active element. Nothing else changes but the lines that have been
asked of the L2. Under SR the n-th inexact component takes the n-th number of the generator (R136, R138). -/
def Obligations.BlockAndKeyMoves : Prop :=
  ∀ (s : State) (o : VOp) (pa ps pk : Nat → Nat),
    let h := s.cpu
    let v := h.vec
    let code := o.fmt.toNat
    let b := v.fmtB code
    let len := o.vs3.toNat + 1
    let base := h.xr (BitVec.ofNat 5 o.vs1.toNat)
    let act := v.actives o.km
    let reaches := fun (acc : Acc) (a : Word) (n p : Nat) => a.toNat % 4096 + n ≤ 4096 ∧ plainMem s p
      ∧ s.seenPoison p n = false ∧ ∃ x, held s acc a x ∧ x.pa = p
    let asked := fun (p : State → Prop) => ∃ q : List (Nat × Option (BitVec 12)), p (s.asking q)
    let byteAt := fun (p : Nat) => ofBytes (s.seenBytes p 1)
    let scale := fun (k : Nat) => blockCode code ((act.filter fun j => j / len == k).flatMap fun j =>
      v.blockParts code (v.elem o.vd.toNat j))
    let store := fun (p n x : Nat) => BufEntry.store p (bytesOf n x) v.scope false
    let blockEntries := fun (raw : Nat → Nat) => act.flatMap fun j =>
      (if act.any fun q => decide (q < j) && q / len == j / len then [] else [store (ps (j / len)) 1 (scale (j / len))])
        ++ [store (pa j) b (raw j)]
    vectorReady h → h.winDone = [] →
    ((∀ acc, acc = .load ∨ acc = .store → ∀ j ∈ act, reaches acc (base + BitVec.ofNat 64 (j * b)) b (pa j)
        ∧ reaches acc (h.xr (BitVec.ofNat 5 o.vs2.toNat) + BitVec.ofNat 64 (j / len)) 1 (ps (j / len))) →
      fitsAll v o [] → v.blockOk code = true →
      (∃ (w : Vec) (c : Word) (val : Nat → Nat), asked (fun t => exec (.vldbs o) s = .next (t.vecDone w c))
        ∧ placed v w o.vd.toNat act val ∧ (v.rm ≠ .sr → c = h.rngctr)
        ∧ drawnAs h act (v.ew / 2) (fun j =>
            blockLoadParts v code (byteAt (ps (j / len))) (ofBytes (s.seenBytes (pa j) b))) val c)
      ∧ ((∀ raw, (bufSectors ((blockEntries raw).reverse ++ h.buf)).length ≤ 512) →
          ∃ (c : Word) (raw : Nat → Nat),
            asked (fun t => exec (.vstbs o) s =
              .next (t.retired { h with rngctr := c, buf := (blockEntries raw).reverse ++ h.buf } 6))
            ∧ (v.rm ≠ .sr → c = h.rngctr)
            ∧ drawnAs h act (partWidth code) (fun j =>
                blockStoreParts v h.ovf code (scale (j / len)) (v.elem o.vd.toNat j)) raw c))
    ∧ ((∀ acc, acc = .load ∨ acc = .store → ∀ j ∈ act, reaches acc (base + BitVec.ofNat 64 (j / 8)) 1 (pk (j / 8))) →
        1 ≤ o.vd.toNat → o.vd.toNat < 8 → v.vl ≤ 2048 →
        (∃ w : Vec, asked (fun t => exec (.vldk o) s = .next (t.vecDone w h.rngctr))
          ∧ keyed v w o.vd.toNat act fun j => bitAt (byteAt (pk (j / 8))) (j % 8))
        ∧ ∀ is : List Nat, is.Pairwise (· < ·) → (∀ k, k ∈ is ↔ ∃ j ∈ act, j / 8 = k) →
            let image := fun (k : Nat) => ((List.range 8).map fun q =>
              if 8 * k + q < v.vl ∧ v.keyBit o.vd.toNat (8 * k + q) = true then 2 ^ q else 0).sum
            let after := (is.map fun k => store (pk k) 1 (image k)).reverse ++ h.buf
            (bufSectors after).length ≤ 512 → asked fun t => exec (.vstk o) s = .next (t.retired { h with buf := after } 6))

/-- R80, R220: `vamo` after its commit point, on aligned, translated elements in LPDDR6 or SCRATCH banks that do not overlap: each active element
of memory takes the operation's result, the destination its old value, nothing else changes. -/
def Obligations.VamoOperatesOnEachElement : Prop :=
  ∀ (s t : State) (o : VOp) (pa : Nat → Nat),
    let h := t.cpu
    let v := h.vec
    let b := v.ewB
    let act := v.actives o.km
    let addr := fun (j : Nat) => h.xr (BitVec.ofNat 5 o.vs1.toNat) + sextWord v.ew (v.elem o.vs2.toNat j)
    let old := fun (j : Nat) => memRead t.mem (pa j) b
    let d := fun (j : Nat) => v.elem o.vd.toNat j
    let so := signedOf v.ew
    let new := fun (j : Nat) => match o.vs3.toNat with
      | 0 => (old j + d j) % 2 ^ v.ew | 1 => d j | 2 => old j &&& d j | 3 => old j ||| d j | 4 => old j ^^^ d j
      | 5 => if so (old j) ≤ so (d j) then old j else d j
      | 6 => if so (old j) ≤ so (d j) then d j else old j
      | 7 => if old j ≤ d j then old j else d j
      | _ => if old j ≤ d j then d j else old j
    vectorReady s.cpu → commitsTo s t → vectorReady h → h.winDone = [] → v = s.cpu.vec.closeStrip →
    h.num = s.cpu.num → fitsAll v o [.group o.vs2.toNat] → v.ewB ≠ 2 →
    (∀ j ∈ act, (addr j).toNat % b = 0 ∧ plainMem t (pa j) ∧ t.poisonedAt (pa j) b = false
      ∧ (∃ x, held t .store (addr j) x ∧ x.pa = pa j)
      ∧ ∀ k ∈ act, j ≠ k → pa j + b ≤ pa k ∨ pa k + b ≤ pa j) →
    ∃ u : State, exec (.vamo o) s = .next u
      ∧ placed v u.cpu.vec o.vd.toNat act old
      ∧ (∀ j ∈ act, memRead u.mem (pa j) b = new j)
      ∧ (∀ q, (∀ j ∈ act, q < pa j ∨ pa j + b ≤ q) → memByte u.mem q = memByte t.mem q)
      ∧ u.cpu.x = h.x ∧ u.cpu.f = h.f ∧ u.cpu.pc = h.pc + 6 ∧ u.cpu.csr.mstatus = h.csr.mstatus

/-- R90, R116, R215, R222: a vector instruction that computes through the shared driver, with a latch window as destination
and its window in order and empty: after its commit point each result element stands in the window at its offset, the
latch word that holds it is full, no register changes, and no other byte of memory changes. The statement is about every
instruction whose meaning on the state is such a computation f. -/
def Obligations.WindowDestinationsFillLatchWords : Prop :=
  ∀ (s t : State) (i : Instr) (o : VOp) (f : VecFn),
    let h := t.cpu
    let v := h.vec
    let v0 := s.cpu.vec
    let ops := f.srcs.map fun x => (List.range (match x with | .one _ n => n | _ => v.vl)).map fun k =>
      (operandElem h x k, false)
    let r := ((f.comp v0 ops).run h.rng).1
    let vals := (f.idx v0).zip (r.headD [])
    let win := (v.nwin.getD (o.vd.toNat % 8) 0).toNat
    let b := winBank h.vcIdx win
    let word := fun (j : Nat) => bitsAt win 17 15 + j * v.ewB / 8
    let place := fun (j : Nat) => bankAddr h.cluster b (8 * bitsAt win 17 15 + j * v.ewB)
    exec i s = instr i (f.exec o) s → instrLen i = 6 → o.dk = true →
    vectorReady s.cpu → f.fits o v0 = true → commitsTo s t → vectorReady h → v = v0.closeStrip →
    v.vl ≠ 0 → 2 ≤ v.ewB → f.psn v0 ops = false → (∀ l ∈ r, ∀ e ∈ l, e.2 = false) → (f.idx v0).Nodup →
    h.cpoison.contains (0x810 + o.vd.toNat % 8) = false → (t.bank h.cluster b).busy = none → (t.bank h.cluster b).mode = 2 → (t.bank h.cluster b).winen = true →
    bitAt win 63 = true → bitsAt win 0 16 ≠ 0 →
    (∀ j ∈ f.idx v0, (j + 1) * v.ewB ≤ 8 * bitsAt win 0 16 ∧ 8 * bitsAt win 17 15 + (j + 1) * v.ewB ≤ 0x40000
      ∧ (t.bank h.cluster b).isFull (word j) = false) →
    ∃ u : State, exec i s = .next u ∧ u.cpu.pc = h.pc + 6 ∧ u.cpu.vec = v ∧ u.cpu.x = h.x ∧ u.cpu.f = h.f
      ∧ (∀ e ∈ vals, memRead u.mem (place e.1) v.ewB = e.2.1 % 2 ^ v.ew
          ∧ (u.bank h.cluster b).isFull (word e.1) = true)
      ∧ ∀ q, (∀ e ∈ vals, q < place e.1 ∨ place e.1 + v.ewB ≤ q) → memByte u.mem q = memByte t.mem q

/-! ### Register writes and events of the platform -/

/-- R9, R10, R27, R55, R173, R200, R294, R302, R304, R309, R310, R315, R342, R367, R378: the table's register-write rows, by a
hart in M-mode: each register takes its legal value, and the writes that are ignored change nothing. A row performs its
store at once (the model's choice, log 10), so no pc moves. A write that replaces a CSR takes its poison mark away (R361).
R33, R56, R71, R89, R98, R99, R294, R314, R338, R366, R370: a store to a register of the DQU, of a lease, of a fault queue, of a fault
domain, of a handler table, of the L2 or of the power block writes the fields that are RW and leaves the others; weights, ages, quanta
and queue sizes are held in their ranges; lease 0, a read-only register and an unknown L2 or reset code are passed over. -/
def Obligations.RegisterWriteRowsTakeEffect : Prop :=
  ∀ (s : State) (v : Word), s.cpu.mode = .m →
    let h := s.cpu
    let gives := fun (i : Instr) (t : State) => exec i s = .next t
    let lanes := v.truncate 32 &&& ~~~(tabGet 0 s.unwene.fused h.num)
    let clean := fun (n : Nat) (t : State) => if s.csrReplaces n v then { t with cpu := t.cpu.csrClean n } else t
    let put := fun (off : Nat) (p : State → Prop) => ∃ t, gives (.registerWrite (.mmio off 8) v) t ∧ t.cpu = h ∧ t.mem = s.mem ∧ p t
    let fields := fun (off : Nat) (fs : List (Nat × Nat)) => put off fun t => ∀ b, b < 64 → (t.mmioGet off 0).getLsbD b =
      if fs.any fun f => decide (f.1 ≤ b ∧ b < f.1 + f.2) then v.getLsbD b else (s.mmioGet off 0).getLsbD b
    let part := fun (lo n : Nat) => v.toNat / 2 ^ lo % 2 ^ n
    (∀ (n : BitVec 12) old, csrReadOnly n.toNat = false → n ≠ 0x800 → n.toNat / 256 % 4 ≠ 2 → s.csrRead n.toNat = some old →
      gives (.registerWrite (.csr n) v) (clean n.toNat ((s.csrStd n.toNat v).csrDev n.toNat v)))
    ∧ (∀ l, 1 ≤ l → l < 256 → fields (leaseOff l 0) [(0, 64)] ∧ fields (leaseOff l 2) [(0, 32)]
        ∧ put (leaseOff l 1) fun t => bitAt (t.lcfg l) 0 = v.getLsbD 0 ∧ bitsAt (t.lcfg l) 16 16 = max 1 (part 16 16)
          ∧ bitsAt (t.lcfg l) 40 8 = part 40 8)
    ∧ (∀ f, f < 4 → gives (.registerWrite (.mmio (leaseOff 0 f) 8) v) s)
    ∧ (put 0 fun t => t.dqAge = max 1 (part 16 16) ∧ t.dqQuant = max 1 (part 0 16))
    ∧ (∀ off, off ∈ [8, 0x10, 0x18, l2Block + 8, powerBlock] → gives (.registerWrite (.mmio off 8) v) s)
    ∧ fields 0x20 [(0, 32)] ∧ fields 0x28 [(0, 32)]
    ∧ (∀ c, c < 16 → fields (efOff c 0) [(12, 40)] ∧ fields (efOff c 3) [(0, 64)] ∧ fields (clBlock c + 0x600) [(0, 32)]
        ∧ put (efOff c 1) fun t =>
            bitsAt (t.mmioGet (efOff c 1) 0x60000).toNat 16 5 = max 6 (min 16 (part 16 5)))
    ∧ (∀ d, d < 4096 → fields (fdstatOff d) [(63, 1), (0, 48)])
    ∧ (∀ c n q, c < 16 → n < 192 → q < 16 → fields (handlerOff c n q 3) [(0, 33)])
    ∧ fields (l2Block + 0x10) [(17, 35), (0, 1)] ∧ fields (l2Block + 0x18) [(0, 12)]
    ∧ (v.toNat % 16 ∉ [1, 2, 3] → gives (.registerWrite (.mmio l2Block 8) v) s)
    ∧ (∀ p, p < 4096 → fields (hostBlock + 0x80000 + p * 0x20 + 0x18) [(32, 16)])
    ∧ (∀ k, k < 256 → fields (powerBlock + 0x1008 + 0x10 * k) [(0, 32)])
    ∧ gives (.registerWrite (.mmio (powerBlock + 8) 8) v) (if v.toNat % 4 = 1 ∨ v.toNat % 4 = 2 then
        { s with power := { s.power with request := if v.toNat % 4 = 1 then 1 else 2 } } else s)
    ∧ gives (.registerWrite (.mmio (powerBlock + 0x20) 8) v)
        (if v.getLsbD 0 then { s with power := { s.power with excursion := false } } else s)
    ∧ (∀ n off, discOff n 2 = some off → put off fun t => t = s.setCounter n { s.counter n with
        base := (s.counter n).value s.cycles, since := s.cycles
        inc := max (tincReset - tincReset / 1000) (min (tincReset + tincReset / 1000) (part 0 40)) })
    ∧ (h.isVc = true →
        (v.toNat % 4 = 0 → h.vec.strip = none → gives (.vcfgWrite v)
          { s with cpu := { h with vec := { h.vec with vcfg := h.vec.vcfg ||| 0x8000000000000000 } } })
        ∧ (vcfgSupported h.vec (v.toNat % 8192) = true → v.toNat / 4 % 4 = h.vec.vcfg.toNat / 4 % 4 →
            ∃ t, gives (.vcfgWrite v) t ∧ t.cpu.vec.vcfg = BitVec.ofNat 64 (vcfgStored (v.toNat % 8192))
              ∧ t.cpu.x = h.x ∧ t.cpu.pc = h.pc ∧ t.mem = s.mem)
        ∧ (lanes = 0 → gives (.lanemapWrite v) s)
        ∧ (lanes ≠ 0 → ∃ t, gives (.lanemapWrite v) t
            ∧ t.cpu = Hart.csrClean { h with vec := { h.vec with lanemap := lanes } } 0x7C0
            ∧ tabGet 0 t.unwene.retired h.num = tabGet 0 s.unwene.retired h.num ||| (h.vec.lanemap &&& ~~~lanes)))
    ∧ gives (.srvroleWrite v) (if s.power.locked || h.isVc then s
        else { s with cpu := Hart.csrClean { h with srvrole := if v.toNat % 16 ≤ 5 then v.truncate 4 else 0 } 0x7C1 })
    ∧ gives (.registerWrite .atomicEnable v) { s with ports := { s.ports with atomicEnable := v.getLsbD 0 } }
    ∧ (∀ o n, s.ports.hostUp = false → gives (.registerWrite (.bar0 o n) v) s)
    ∧ (∀ p, p < 4096 → s.ports.hostUp = true →
        ∃ t, gives (.registerWrite (.bar0 (0x80000 + p * 0x20 + 8) 8) v) t ∧ t.spcfg p 1 = v.toNat ∧ t.cpu = h ∧ t.mem = s.mem)
    ∧ (∀ c n q f, c < 16 → n < 192 → q < 16 → f < 3 →
        ∃ t, gives (.registerWrite (.mmio (clBlock c + 0x80000 + n * 0x200 + q * 0x20 + f * 8) 8) v) t
          ∧ t.handler c n q f = v ∧ t.cpu = h ∧ t.mem = s.mem)
    ∧ (∀ c rows, c < 16 → ∃ t, gives (.efwakeWrite c rows) t ∧ t.cpu = h ∧ t.mem = s.mem
        ∧ ∀ r, r < 4 → t.row c r = if rows.getLsbD r then { s.row c r with repair := false } else s.row c r)
    ∧ (∀ n, isCounter n = true →
        ((s.counter n).locked = true ∨ v = 0 ∨ v.getLsbD 63 = true → gives (.tstepWrite n v) s)
        ∧ ((s.counter n).locked = false → v ≠ 0 → v.getLsbD 63 = false → ∃ t, gives (.tstepWrite n v) t
            ∧ (n ≠ 16 → t = s.setCounter n { s.counter n with base := ((s.counter n).base + v.toNat * 2 ^ 32) % 2 ^ 96 }))
        ∧ ∀ m, m < 64 → gives (.tbeacon n m) (if isCounter m then { s with beacons := s.beacons ++ [(n, m)] } else s))
    ∧ (∀ p r, p < 8 → r < 16 → ∃ t, gives (.txprodWrite p r v) t
        ∧ t.mmioGet (fhBlock p + 0x3000 + r * 0x20 + 8) 0 = v ∧ t.cpu = h ∧ t.mem = s.mem)
    ∧ gives (.pwrcapWrite v) { s with power := { s.power with capFw := max 300 (min 600 (v.toNat % 1024)) } }
    ∧ (v.getLsbD 0 = true → s.unwene.life ≠ .decommissioned →
        ∃ t, gives (.rolelockWrite v) t ∧ t.power.locked = true ∧ t.cpu = h ∧ t.mem = s.mem)
    ∧ (v.getLsbD 0 = false ∨ s.unwene.life = .decommissioned → gives (.rolelockWrite v) s)
    ∧ ∀ d, d < 49152 →
        (s.ports.twinUp = false → gives (.twdoorStore d v) s)
        ∧ (s.ports.twinUp = true → 0 < s.ports.credits →
            gives (.twdoorStore d v) { s with ports := { s.ports with credits := s.ports.credits - 1 } })
        ∧ (s.ports.twinUp = true → s.ports.credits = 0 → gives (.twdoorStore d v)
            (s.waiting h ⟨.credit, BitVec.ofNat 64 (mmioBase + twinBlock + 0x100000 + 8 * d), 0, false⟩))

/-- R84, R399: `BMODE` and `FQLEVEL.RESET` by a hart in M-mode, and the end of a mode change. A store while BUSY is ignored; a
new MODE starts a change; at its end the bank is in the new mode, its data zeroed but between SCRATCH and LATCH, its
queue and full bits empty, and no byte outside the bank changes, where nothing waited for that end; without a change under way
the event changes nothing.
R92 to R98, R397: the L2 commands of a hart in M-mode, ignored while BUSY: FLUSHALL drops every tag, entry and waiting request
and leaves no line to be written back, DOMCLR leaves no tag of its domain and adds none, CLRCNT zeroes the counters; a
command's end clears BUSY. The requests of cores that a command ends are over, but for lines that buffered stores have still to reach,
and under DOMCLR lines of another domain that have still to be written back. A core's line of LPDDR6 that reaches the L2, under the domain of an access of a core that asked for it,
and if dirty one that a core has stored to, has a tag then unless its slice has no free entry, and its request is over unless a store to
it is still owed; any other changes nothing. A waiting
request goes on once its slice has a free entry, leaving a tag; without one, and none to be freed, it waits 512 cycles, then
WTHRU counts. Neither changes anything but the L2.
The model's: HEAD, LEVEL and DROPS zero and a new queue generation after every change of mode (log 114), which lines reach the L2 and
when (log 80), and which tag gives way (log 81). -/
def Obligations.BankModesAndL2 : Prop :=
  ( ∀ (s : State) (cl b : Nat), cl < 16 → b < 32 →
      let k := s.bank cl b
      let lo := bankAddr cl b 0
      (∀ v : Word, s.cpu.mode = .m →
        (k.busy ≠ none → exec (.bmodeWrite cl b v) s = .next s)
        ∧ (k.busy = none → ∃ t, exec (.bmodeWrite cl b v) s = .next t ∧ t.mem = s.mem ∧ t.cpu = s.cpu
            ∧ t.bank cl b = { k with
                chan := BitVec.ofNat 12 (v.toNat / 2 ^ 20), winen := v.getLsbD 8
                busy := if v.truncate 2 = k.mode then none else some (v.truncate 2) }
            ∧ ∀ c q, c * 32 + q ≠ cl * 32 + b → t.bank c q = s.bank c q))
      ∧ (s.cpu.mode = .m → ∃ t, exec (.fqlevelReset cl b) s = .next t ∧ t.mem = s.mem ∧ t.cpu = s.cpu
          ∧ t.bank cl b = { k with head := (k.head + k.level) % 0x40000, level := 0, drops := 0, popped := 0, gen := if k.mode = 3 then k.gen + 1 else k.gen })
      ∧ (k.busy = none → s.ports.twinHeld = [] → exec (.modeChangeComplete cl b) s = .next s)
      ∧ ∀ m, k.busy = some m → k.stalled = [] → k.after = [] → s.ports.twinHeld = [] → ∃ t, exec (.modeChangeComplete cl b) s = .next t ∧ t.cpu = s.cpu
          ∧ t.bank cl b = { k with mode := m, busy := none, head := 0, level := 0, drops := 0, popped := 0, gen := k.gen + 1, full := [] }
          ∧ (∀ a, a < lo ∨ lo + 0x40000 ≤ a → memByte t.mem a = memByte s.mem a)
          ∧ ∀ a, lo ≤ a → a < lo + 0x40000 → memByte t.mem a =
              if k.mode = 1 ∧ m = 2 ∨ k.mode = 2 ∧ m = 1 then memByte s.mem a else 0)
  ∧ (∀ (s : State),
      let l := s.l2
      let buffered := fun (line : Nat) => ∃ h ∈ s.liveHarts, ∃ e ∈ h.buf, BufEntry.inLine line e = true
      (s.cpu.mode = .m →
        (l.busy = true → ∀ d, exec .flushall s = .next s ∧ exec (.domclr d) s = .next s ∧ exec .clrcnt s = .next s)
        ∧ (l.busy = false →
            (∃ q, (∀ a, a ∈ q ↔ a ∈ l.asked ∧ buffered a.1) ∧ exec .flushall s = .next { s with l2 :=
              { l with tags := [], entries := [], stored := [], asked := q, waiting := [], keyGen := l.keyGen + 1, busy := true } })
            ∧ exec .clrcnt s = .next { s with l2 := { l with unshare := 0, wthru := 0, hmiss := 0, shares := 0, busy := true } }
            ∧ ∀ d, ∃ t, exec (.domclr d) s = .next t ∧ t.l2.busy = true ∧ t.mem = s.mem ∧ t.cpu = s.cpu
                ∧ (∀ g ∈ t.l2.tags, g ∈ l.tags ∧ g.dom ≠ some d)
                ∧ ∀ a ∈ t.l2.asked, a ∈ l.asked ∧ (a.2 = some d → a.1 ∈ t.l2.stored ∨ buffered a.1)))
      ∧ exec .l2CommandComplete s = .next { s with l2 := { l with busy := false } }
      ∧ (∀ line dom dirty,
          let may := (line, dom) ∈ l.asked ∧ (dirty = true → line ∈ l.stored)
          (¬may → exec (.l2Writeback line dom dirty) s = .next s)
          ∧ ∃ m : L2, exec (.l2Writeback line dom dirty) s = .next { s with l2 := m }
            ∧ (may → l.sliceFull line = false → (m.tagOf line).isSome = true)
            ∧ (may → ∀ a ∈ m.asked, a ∈ l.asked ∧ (a.1 = line → line ∈ m.stored ∨ buffered line)))
      ∧ ∀ line w,
          let req := l.waiting.find? fun r => r.line == line && r.isWrite == w
          (req = none → exec (.l2AllocationTimeout line w) s = .next s)
          ∧ ∀ r, req = some r → ∃ m : L2, exec (.l2AllocationTimeout line w) s = .next { s with l2 := m }
            ∧ (l.sliceFull line = false → (m.tagOf line).isSome = true ∧ ∀ q ∈ m.waiting, ¬(q.line = line ∧ q.isWrite = w))
            ∧ (l.sliceFull line = true → l.victim line = none →
                (s.cycles < r.since + 512 → m = l) ∧ (r.since + 512 ≤ s.cycles → m.wthru = (l.wthru + 1) % 2 ^ 64)))

/-- R27 to R29, R310 to R314, R317 to R321, R391: events of time, power, start-up and the mailbox. A beacon sets TDIFF within 1 ns
of the difference (the model leaves the error free), the caps clamp, the average steers the grants. A cold start that fails
at step 1, 2 or 3 wipes nothing and keeps the mark; else memory is wiped, and holds the verified image from address 0, where the
harts start at its entry point, or, where none passes, the cores are held with CODE 3 or 4. An orderly shutdown begins,
completes once all has ended, and after 10 ms ends by force. The mailbox operations complete with their results; an authorised
LCSET records the state with a pending wipe and requests a cold start. An event whose condition does not hold changes nothing.
The model's: the error of a beacon and the other outcomes the spec leaves to the hardware are free (log 16); a window above the cap
lowers class 3 by an eighth and a raise begins at class 0 (log 75); a start takes one step, and one that fails early leaves memory
and the mark (log 102); a beacon measures when it arrives, its error free in steps of 2^-16 ns (log 76); a warm request starts the 10 ms
of a shutdown anew, also of one that is under way (log 135), and an event of shutdown or of the power window acts only when it is due
(log 74). -/
def Obligations.PlatformEvents : Prop :=
  ∀ (s : State),
    let p := s.power
    let u := s.unwene
    let gives := fun (i : Instr) (t : State) => exec i s = .next t
    let mail := fun (t : State) (r : BitVec 8) => t.unwene.pending = none ∧ t.unwene.result = r
    (∀ n src, (src, n) ∉ s.beacons → gives (.beaconReceive n src) s)
    ∧ (∀ n src, (src, n) ∈ s.beacons → ∃ t, gives (.beaconReceive n src) t ∧ t.beacons = s.beacons.erase (src, n)
        ∧ (t.counter n).fresh = true ∧ (t.counter n).src = src
        ∧ ∃ e : Int, -65536 ≤ e ∧ e ≤ 65536 ∧ (t.counter n).diff = BitVec.ofInt 64
            ((((s.counter src).value s.cycles : Int) - ((s.counter n).value s.cycles : Int)) / 65536 + e))
    ∧ (∀ v, gives (.i3cPowerCapWrite v) { s with power := { p with capI3c := max 300 (min 600 v.toNat) } })
    ∧ gives .powerCapApply { s with power := { p with capEff := min p.capFw p.capI3c } }
    ∧ (∀ w, ∃ q : Power, gives (.powerWindow w) { s with power := q }
        ∧ (w ≤ p.capEff → q = { p with below := decide (w < p.capEff) })
        ∧ (p.capEff < w → q.below = false
            ∧ ((∀ c, c < 4 → p.grant.getD c 1 ≤ 1 ∧ 8 ≤ p.pacing.getD c 8) → q.excursion = true)
            ∧ (1 < p.grant.getD 3 1 → q.grant.getD 3 1 = p.grant.getD 3 1 - 1 ∧ ∀ c, c < 3 → q.grant.getD c 1 = p.grant.getD c 1)))
    ∧ (p.below = false → gives .grantRaise s)
    ∧ (p.below = true → ∃ q : Power, gives .grantRaise { s with power := q }
        ∧ (p.grant.getD 0 8 < 8 → q.grant.getD 0 8 = p.grant.getD 0 8 + 1))
    ∧ (p.request ≠ 1 → gives .coldStartRequest s)
    ∧ (∀ i, (i = .coldStartRequest ∧ p.request = 1 ∨ i = .powerOn ∧ p.off = true ∨ i = .i3cColdRequest ∧ p.off = false) →
        let starts := fun (t : State) => gives i t ∧ t.power.bootKind = 1 ∧ t.power.request = 0 ∧ t.power.fatal = none
          ∧ t.power.off = false ∧ t.unwene.life = u.life ∧ t.unwene.svnMin = u.svnMin
          ∧ (u.pending ≠ some 1 → t.unwene.ots = u.ots) ∧ t.cpu.mode = .m
        (∀ c, earlyCode s.free = some c → ∃ t, starts t ∧ t.mem = s.mem ∧ t.poison = s.poison ∧ t.power.wiped = false
            ∧ t.power.held = true ∧ t.power.bootCode = BitVec.ofNat 8 c ∧ t.unwene.wipe = u.wipe)
        ∧ (earlyCode s.free = none →
            (∀ c, s.verified = .error c → ∃ t, starts t ∧ t.mem = [] ∧ t.poison = [] ∧ t.power.wiped = true
                ∧ t.power.held = true ∧ t.power.bootCode = BitVec.ofNat 8 c ∧ t.unwene.wipe = false)
            ∧ ∀ slotB, s.verified = .ok slotB →
                let img := Config.bootImage slotB
                let bytes := img.head ++ img.sig ++ img.code
                ∃ t, starts t ∧ memBytes t.mem 0 bytes.length = bytes ∧ (∀ a, bytes.length ≤ a → memByte t.mem a = 0)
                  ∧ t.poison = [] ∧ t.power.wiped = true ∧ t.power.held = false ∧ t.power.bootCode = 0
                  ∧ t.power.bootSlot = slotB ∧ t.unwene.wipe = false ∧ t.cpu.pc = BitVec.ofNat 64 img.entry))
    ∧ (p.request ≠ 2 → p.shutdown = false ∨ s.drained = false → gives .warmStartRequest s)
    ∧ (p.request = 2 → s.drained = false → gives .warmStartRequest
        { s with power := { p with shutdown := true, shutSince := s.cycles, request := 0 } })
    ∧ (p.request = 2 ∨ p.shutdown = true → s.drained = true → ∃ t, gives .warmStartRequest t
        ∧ t.power.shutdown = false ∧ t.power.request = 0 ∧ t.unwene.life = u.life ∧ t.unwene.orderly = none)
    ∧ (p.shutdown = false ∨ s.cycles < p.shutSince + 19000000 → gives .shutdownDrainTimeout s)
    ∧ (p.shutdown = true → p.shutSince + 19000000 ≤ s.cycles → ∃ t, gives .shutdownDrainTimeout t
        ∧ t.power.shutdown = false ∧ t.cmds = [])
    ∧ (p.off = false → gives .powerOn s) ∧ (p.off = true → gives .i3cColdRequest s)
    ∧ gives .freeze { s with power := { p with frozen := true } }
    ∧ gives .powerLoss { s with power := { p with off := true }, unwene := { u with orderly := none } }
    ∧ (∀ i, (i = .attest ∧ u.pending ≠ some 1 ∨ i = .lcset ∧ u.pending ≠ some 2 ∨ i = .svnset ∧ u.pending ≠ some 3) → gives i s)
    ∧ (u.pending = some 1 → ∃ t, gives .attest t ∧ t.mem = s.mem ∧ t.cpu = s.cpu
        ∧ (u.ots < 2 ^ 20 → mail t 0 ∧ t.unwene.ots = u.ots + 1) ∧ (2 ^ 20 ≤ u.ots → mail t 3 ∧ t.unwene.ots = u.ots))
    ∧ (u.pending = some 2 →
        let q := Config.lcRequest (s.mailBytes 0 0x4000)
        (s.lcSigned q = false → gives .lcset { s with unwene := { u with result := 2, pending := none } })
        ∧ (s.lcSigned q = true → (∀ n, q.target = some n → lifeMoves u.life (lifeOf n) = false) →
            gives .lcset { s with unwene := { u with result := 4, pending := none } })
        ∧ (s.lcSigned q = true → ∀ n, q.target = some n → lifeMoves u.life (lifeOf n) = true → gives .lcset
            { s with unwene := { u with life := lifeOf n, wipe := true, result := 0, pending := none }
                     power := { p with request := 1 } }))
    ∧ (u.pending = some 3 → ∃ t, gives .svnset t ∧ mail t 0
        ∧ t.unwene.svnMin.toNat = max u.svnMin.toNat (ofBytes (s.mailBytes 0 4)))
    ∧ ∀ op, u.pending = some op → ∃ t, gives .mailboxBadop t
        ∧ (op = 1 ∨ op = 2 ∨ op = 3 → t = s) ∧ (¬(op = 1 ∨ op = 2 ∨ op = 3) → mail t 1)

/-- R294 to R304, R364, R387, R388, R397: events of the host and the twin port. A submission off its page's conditions changes
nothing; one to a busy slot or one with a record pending, with no queue entry free, or behind 64 pending records counts in RETRIES
alone; any other is accepted: the record, with the page's values and its poison, is written into its slot and is pending. The turn in
which the DQU takes up the oldest pending record (log 139) enqueues its job's one task once an entry is free, and abandons a job whose
page was lost; where a check fails it writes STATE, DONE_TIME and RESULT and enqueues nothing. Any other access of a submission page has no effect. A
reset takes the port down, sets RSTSEEN, disables AtomicOps and clears the MSI-X table; a link that trains takes EN into ACTIVE, and
comes up where it was down (that one that is up can train again without being lost is the model's, log 133); a ring's pending
records are forgotten once ITIME has passed since the oldest. CXL.mem and twin writes store within their ranges, their reads pass through
the L2 and change nothing else, AtomicOps of the twin update memory; a request of the twin to a bank in a mode change waits for its
end; doorbells, beats and credits count.
The model's: the bytes of a poisoned submission are taken as they are, with their mark (log 115); the links at reset and the credits (log 77), the order
in which a submission is answered (log 78), and what leaves the port (log 79). -/
def Obligations.HostAndTwinEvents : Prop :=
  ∀ (s : State),
    let p := s.ports
    let gives := fun (i : Instr) (t : State) => exec i s = .next t
    let stored := fun (t : State) (pa : Nat) (d : List Byte) => memBytes t.mem pa d.length = d
      ∧ (∀ a, a < pa ∨ pa + d.length ≤ a → memByte t.mem a = memByte s.mem a) ∧ t.cpu.x = s.cpu.x ∧ t.cpu.pc = s.cpu.pc
    (∀ pg off rec bad,
      let slot := fieldAt rec 0x20 2
      let pa := s.slotAddr pg slot
      let st := memRead s.mem (pa + 0x28) 1
      let usable := p.hostUp = true ∧ rec.length = 128 ∧ off % 128 = 0 ∧ off < 4096 ∧ pg < 4096 ∧ s.power.locked = true
        ∧ bitAt (s.spcfg pg 0) 63 = true ∧ slot < s.spcfg pg 3 / 2 ^ 32 % 65536 ∧ regionOf pa = .lpddr
      let r := s.admitRecord pg rec
      let pending := ∃ a ∈ p.accepting, a.page = pg ∧ a.slot = slot
      let busy := st = 1 ∨ st = 2 ∨ pending ∨ s.dqAvail = 0 ∨ 64 ≤ p.accepting.length
      let did := fun (t : State) => gives (.hostSubmission pg off ⟨rec, bad⟩) t ∧ t.cpu.x = s.cpu.x ∧ t.cpu.pc = s.cpu.pc ∧ t.dqu = s.dqu
      (¬usable → gives (.hostSubmission pg off ⟨rec, bad⟩) s)
      ∧ (usable → busy → ∃ t, did t ∧ t.cpu = s.cpu ∧ t.mem = s.mem ∧ t.ports.accepting = p.accepting
          ∧ t.spcfg pg 3 % 2 ^ 32 = min (s.spcfg pg 3 % 2 ^ 32 + 1) 0xFFFFFFFF)
      ∧ (usable → ¬busy → ∃ t, did t ∧ memBytes t.mem pa 128 = r
          ∧ (∀ a, a < pa ∨ pa + 128 ≤ a → memByte t.mem a = memByte s.mem a) ∧ (bad = true → t.poisonedAt pa 128 = true)
          ∧ t.spcfg pg 3 = s.spcfg pg 3
          ∧ t.ports.accepting = p.accepting ++ [⟨pg, slot, pa, r, bitAt (s.spcfg pg 0) 62, recordReserved rec, bad, none⟩]))
    ∧ (s.power.stopped = true ∨ p.accepting = [] → stepTurn .record s = .next s)
    ∧ (∀ a rest, s.power.stopped = false → p.accepting = a :: rest → a.record.length = 128 → a.pa % 128 = 0 → regionOf a.pa = .lpddr →
      let j := { jobOf (BitVec.ofNat 64 a.pa) a.pa a.record a.bad with keep := a.keep }
      let now := s.dquNow
      let waits := now < j.release.toNat
      let fails := a.defect = true ∨ rcbInvalid a.record = true ∨ s.tenantMismatch j = true ∨ j.cliffValue ≤ now
      let did := fun (t : State) => stepTurn .record s = .next t ∧ t.ports.accepting = rest ∧ t.cpu.x = s.cpu.x ∧ t.cpu.pc = s.cpu.pc
        ∧ ∀ b, b < a.pa ∨ a.pa + 128 ≤ b → memByte t.mem b = memByte s.mem b
      (fails → ∃ t, did t ∧ memRead t.mem (a.pa + 0x28) 8 = 0x13 ∧ memRead t.mem (a.pa + 0x30) 8 = now
        ∧ memRead t.mem (a.pa + 0x60) 8 = 0 ∧ t.dqu.queue = s.dqu.queue ∧ t.dqu.jobs = s.dqu.jobs)
      ∧ (¬fails → s.dqAvail = 0 → stepTurn .record s = .next s)
      ∧ (¬fails → s.dqAvail ≠ 0 → a.lostAt = none → ∃ t, did t ∧ memBytes t.mem a.pa 0x20 = a.record.take 0x20
        ∧ memRead t.mem (a.pa + 0x20) 8 = 0 ∧ memRead t.mem (a.pa + 0x28) 1 = (if waits then 1 else 2)
        ∧ t.job? s.dqu.nextJob = some { j with
            count := 1, cont := none, state := if waits then 1 else 2, runningAt := if waits then 0 else now }
        ∧ t.dqu.queue = s.dqu.queue ++ [⟨s.dqu.nextTask, s.dqu.nextJob, 0, descOf (a.record.drop 0x40) a.bad, s.dqu.seq, now, []⟩])
      ∧ (¬fails → s.dqAvail ≠ 0 → ∀ n, a.lostAt = some n → ∃ (t : State) (k : Job), stepTurn .record s = .next t
        ∧ t.ports.accepting = rest ∧ t.job? s.dqu.nextJob = some k ∧ k.abandonAt = some n))
    ∧ (∀ pg isRead, gives (.submissionPageOtherAccess pg isRead) s)
    ∧ (∃ t, gives .hostPortReset t ∧ t.ports.hostUp = false ∧ t.ports.rstSeen = true ∧ t.ports.atomicEnable = false
        ∧ t.ports.msix = [])
    ∧ (p.hostUp = true → gives .hostLinkUp
        { s with ports := { p with cxlActive := (s.mmioGet (hostBlock + 0x10) 0).getLsbD 63 } })
    ∧ (p.hostUp = false → ∃ t, gives .hostLinkUp t ∧ t.ports.hostUp = true ∧ t.mem = s.mem
        ∧ t.ports.cxlActive = (s.mmioGet (hostBlock + 0x10) 0).getLsbD 63)
    ∧ (∀ r,
        let pend := tabGet (0, 0) p.ringPend r
        let itime := (s.mmioGet (ringOff r 1) 0).toNat / 2 ^ 32 % 2 ^ 16
        let ripe := itime ≠ 0 ∧ pend.1 ≠ 0 ∧ pend.2 + itime * 1000 ≤ s.dquNow
        (¬ripe → gives (.hostRingItime r) s)
        ∧ (ripe → ∃ t, gives (.hostRingItime r) t ∧ tabGet (0, 0) t.ports.ringPend r = (0, 0) ∧ t.mem = s.mem ∧ t.cpu = s.cpu
            ∧ ∀ q, q ≠ r → tabGet (0, 0) t.ports.ringPend q = tabGet (0, 0) p.ringPend q))
    ∧ (∀ off len d bad,
        let c := (s.mmioGet (hostBlock + 0x10) 0).toNat
        let pa := c / 256 % 256 * 2 ^ 30 + off
        let mayNot := p.hostUp = false ∨ p.cxlActive = false ∨ c % 256 * 2 ^ 30 < off + len
        (mayNot → gives (.cxlMemAccess off len none bad) s ∧ gives (.cxlMemAccess off len (some d) bad) s)
        ∧ (∃ m : L2, gives (.cxlMemAccess off len none bad) { s with l2 := m })
        ∧ (p.hostUp = true → p.cxlActive = true → off + len ≤ c % 256 * 2 ^ 30 → d.length = len → regionOf pa = .lpddr →
            ∃ t, gives (.cxlMemAccess off len (some d) bad) t ∧ stored t pa d))
    ∧ (∀ pa op, p.twinUp = false → gives (.twinRequest pa op) s)
    ∧ (∀ pa op, let waits := (s.mmioGet (twinBlock + 8) 0).getLsbD 63 = true ∧ s.changingAt pa = true
        (p.twinUp = true → waits → (∀ k v w, op ≠ .doorbell k v w) →
          gives (.twinRequest pa op) { s with ports := { p with twinHeld := p.twinHeld ++ [(pa, op)] } })
        ∧ (¬waits → ∀ n, op = .read n → ∃ m : L2, gives (.twinRequest pa op) { s with l2 := m }))
    ∧ (∀ pa d bad, p.twinUp = true → d ≠ [] → s.exported pa d.length = true →
        ∃ t, gives (.twinRequest pa (.write d bad)) t ∧ stored t pa d)
    ∧ (∀ pa n v bad, p.twinUp = true → (n = 4 ∨ n = 8) → pa % n = 0 → s.exported pa n = true → s.atomicRegion pa = true →
        (∃ t, gives (.twinRequest pa (.fetchAdd n v bad)) t ∧ memRead t.mem pa n = (memRead s.mem pa n + v.toNat) % 256 ^ n)
        ∧ ∃ t, gives (.twinRequest pa (.swap n v bad)) t ∧ memRead t.mem pa n = v.toNat % 256 ^ n)
    ∧ (∀ pa k v w, p.twinUp = true → k < 49152 → ∃ m : Msg,
        gives (.twinRequest pa (.doorbell k v w)) { s with inflight := s.inflight ++ [m] }
          ∧ m.cl = k / 3072 ∧ m.dest = k / 16 % 192 ∧ m.queue = k % 16
          ∧ m.data = bytesOf 8 v.toNat ++ bytesOf 8 w ++ List.replicate 16 0)
    ∧ gives .twinHeartbeatSend (if s.power.fatal = none then { s with ports := { p with heartbeats := p.heartbeats + 1 } } else s)
    ∧ (∃ t, gives .twinHeartbeatReceive t ∧ t.ports.twinUp = true ∧ t.ports.lastBeat = s.cycles ∧ t.mem = s.mem)
    ∧ (∃ t, gives .twinHeartbeatTimeout t ∧ t.mem = s.mem
        ∧ t.ports.twinUp = (p.twinUp && decide (s.cycles < p.lastBeat + heartbeatLimit)))
    ∧ gives .milzinCredit { s with ports := { p with credits := p.credits + 1 } }

/-- R305 to R309, R384 to R386: events of fronthaul port p. A frame for a sub-port that is not up is ignored; one with a bad FCS
counts in FCSERR. The rest with no byte lost in the buffers, by EtherType behind at most one 802.1Q tag: a management or
synchronisation frame, an eCPRI C-plane frame whose flow is known, and an eCPRI frame of another kind are for a queue of a stream
core: where they fit a slot of its free entry, they land in the SCRATCH bank with their arrival time, and the entry joins the queue;
too long a frame, no such core or no entry counts in SLOTDROP, a bank in a mode change in LANDDROP. A bad eCPRI
header counts in BADHDR, an unknown C-plane flow in UNMATCHED, and a U-plane frame goes through its sections: an unknown flow counts in
UNMATCHED, another method or width, no PRB, or data past the frame in BADCOMP, each ending the frame; any other section makes one
arrival at its bank, the header if the flow asks for it and the converted PRBs, laid into the ring in whole 128-byte slots; one that
the queue refuses, for its tag or for want of room, counts in DROPS and LANDDROP, one to a bank that is changing or no queue in LANDDROP;
then the next section follows.
A launch that is due and first sends its frame: DONE is written back, with TSREQ the time, CONS moves, and a poisoned byte counts in
TXERR; a late frame or one for a sub-port that is down is not sent: DONE and LATE are written, CONS moves, TXLATE counts. A launch
that is not due, or not first, or after a fatal event changes nothing.
A frame in a bank in a mode change waits for its end.
The loss of a link that is up clears its bit, and on an enabled sub-port sets LOS and sends port event 5; a link that comes up sets
its bit, and on an enabled sub-port sends event 6; at most 16 such events are in flight.
The model's: BADHDR for a C-plane frame cut short (log 82), the counts of dropped frames (log 83), which launch is first (log 85), and a
header's byte 0x15 without udCompHdr (log 128). -/
def Obligations.FronthaulEvents : Prop :=
  ∀ (s : State) (p : Nat), p < 8 →
    let gives := fun (i : Instr) (t : State) => exec i s = .next t
    let isUp := fun (sub : Nat) => s.hasSub p sub = true ∧ tabGet false s.ports.subUp (4 * p + sub) = true
    let counts := fun (i : Instr) (k : Nat) => gives i (s.bumpWrap (fhBlock p + 0x2000 + 8 * k) 1)
    let slotLands := fun (i : Instr) (f : List Byte) (c n q : Nat) =>
      let hart := scNum c n
      let b := s.pctl p / 2 ^ 53 % 32
      (9216 < f.length + 16 ∨ 192 ≤ n ∨ (s.getHart hart).freeEntry q = none → counts i 5)
      ∧ ∀ e, f.length + 16 ≤ 9216 → n < 192 → (s.getHart hart).freeEntry q = some e →
          let a := bankAddr c b (9216 * e)
          ((s.bank c b).busy ≠ none → counts i 4)
          ∧ ((s.bank c b).busy = none → (s.bank c b).mode = 1 → ∃ t, gives i t
              ∧ memRead t.mem a 8 = s.portNow p ∧ memBytes t.mem (a + 16) f.length = f
              ∧ (∀ x, x < a ∨ a + 16 + f.length ≤ x → memByte t.mem x = memByte s.mem x)
              ∧ (t.getHart hart).queueOf q = (s.getHart hart).queueOf q ++ [⟨e, BitVec.ofNat 64 a, f.length + 16⟩])
    (∀ sub ok f, ¬isUp sub → gives (.frameReceive p sub ok f) s)
    ∧ (∀ sub f, isUp sub → counts (.frameReceive p sub false f) 3)
    ∧ (∀ sub f, isUp sub → s.ports.fhLost = [] →
        let i := Instr.frameReceive p sub true f
        let o := if netAt f 12 2 = 0x8100 then 18 else 14
        let ether := netAt f (o - 2) 2
        let ctl := s.pctl p
        let managed := slotLands i f (ctl / 2 ^ 28 % 16) (ctl / 2 ^ 20 % 256) (ctl / 2 ^ 16 % 16)
        let bs := f.drop o
        let kind := netAt bs 1 1
        let bad := bs.length < 4 ∨ netAt bs 0 1 / 16 ≠ 1 ∨ netAt bs 0 1 % 2 ≠ 0 ∨ kind = 0 ∧ bs.length < 12 ∨ kind = 2 ∧ bs.length < 14
        (ether = 0x88F7 → slotLands i f (ctl / 2 ^ 44 % 16) (ctl / 2 ^ 36 % 256) (ctl / 2 ^ 32 % 16))
        ∧ (ether ≠ 0x88F7 → ether ≠ 0xAEFE → managed)
        ∧ (ether = 0xAEFE → bad → counts i 1)
        ∧ (ether = 0xAEFE → ¬bad →
            (kind ≠ 0 → kind ≠ 2 → managed)
            ∧ (kind = 2 → s.flowFind p (cMatch sub (netAt bs 4 2)) = none → counts i 0)
            ∧ (kind = 2 → ∀ act, s.flowFind p (cMatch sub (netAt bs 4 2)) = some act →
                slotLands i f (act % 16) (act / 16 % 256) (act / 4096 % 16))
            ∧ (kind = 0 →
                let ids := bytesOf 1 (netAt bs 9 1) ++ bytesOf 1 (netAt bs 10 1 / 16) ++ bytesOf 1 (netAt bs 10 2 / 64 % 64)
                  ++ bytesOf 1 (netAt bs 11 1 % 64)
                gives i (s.sections p ⟨sub, netAt bs 4 2, netAt bs 8 1 / 128, netAt bs 6 1, ids⟩ false f.length
                  (((bs.drop 4).take (netAt bs 2 2)).drop 8)))))
    ∧ (∀ (u : UFrame) (lost : Bool) (k : Nat) (bs : List Byte),
        let parse := fun (k : Nat) (bs : List Byte) (t : State) => State.sections p u lost k bs t
        let ends := fun (k : Nat) (bs : List Byte) (n : Nat) => parse k bs s = s.bumpWrap (fhBlock p + 0x2000 + 8 * n) 1
        let sec := netAt bs 0 2 / 16
        let found := s.flowFind p (uMatch u.sub u.eaxc u.dir sec)
        (bs.length < 4 → parse (k + 1) bs s = s)
        ∧ (4 ≤ bs.length → found = none → ends (k + 1) bs 0)
        ∧ ∀ act, 4 ≤ bs.length → found = some act →
          let dyn := bitAt act 28
          let comp := netAt bs 4 1
          let n := netAt bs 3 1
          let rest := bs.drop (if dyn then 6 else 4)
          let widths := [8, 9, 10, 12, 14, 16]
          let method := fun (x w : Nat) =>
            dyn = true ∧ (x = 5 ∧ w = act / 2 ^ 32 % 16 ∧ comp = 0
              ∨ x = 1 ∧ w < 6 ∧ comp % 16 = 1 ∧ (if comp / 16 = 0 then 16 else comp / 16) = widths.getD w 0)
            ∨ dyn = false ∧ (x = 5 ∧ w = act / 2 ^ 32 % 16 ∧ act / 2 ^ 21 % 8 = 5
              ∨ x = 1 ∧ w < 6 ∧ act / 2 ^ 21 % 8 = 1 ∧ w = act / 2 ^ 25 % 8
              ∨ x = 0 ∧ w = 0 ∧ act / 2 ^ 21 % 8 ≠ 5 ∧ act / 2 ^ 21 % 8 ≠ 1)
          ((∀ x w, ¬method x w) → ends (k + 1) bs 2)
          ∧ ∀ x w, method x w →
            let size := n * (if x = 1 then 1 + 3 * widths.getD w 0 else 48)
            (n = 0 ∨ rest.length < size → ends (k + 1) bs 2)
            ∧ (n ≠ 0 → size ≤ rest.length →
              let raw := rest.take size
              let body := if x = 0 then raw else xfAll x w (if x = 5 then swapPairs raw else raw)
              let header := bytesOf 8 (s.portNow p) ++ u.ids ++ bytesOf 2 sec ++ bytesOf 2 (netAt bs 1 2 % 1024) ++ bytesOf 2 n
                ++ bytesOf 2 u.eaxc ++ bytesOf 1 u.seqid ++ bytesOf 1 (if dyn then comp else 0) ++ List.replicate 106 0
              let data := (if bitAt act 24 then header else []) ++ body
              let slots := (data.length + 127) / 128 * 128
              let c := act % 16
              let b := act / 16 % 32
              let q := s.bank c b
              let lo := bankAddr c b 0
              let goesOn := fun (t : State) => parse (k + 1) bs s = parse k (rest.drop size) t
              let takes := q.busy = none ∧ q.mode = 3
              let fits := q.chan.toNat = act / 2 ^ 9 % 4096 ∧ q.level + slots ≤ 0x40000
              (takes → fits → ∃ t, goesOn t ∧ t.bank c b = { q with level := q.level + slots }
                ∧ (∀ y, y < slots → memByte t.mem (bankAddr c b ((q.head + q.level + y) % 0x40000)) = data.getD y 0)
                ∧ ∀ a, a < lo ∨ lo + 0x40000 ≤ a → memByte t.mem a = memByte s.mem a)
              ∧ (takes → ¬fits → ∃ t, goesOn t ∧ t.mem = s.mem ∧ t.bank c b = { q with drops := min (q.drops + 1) 0xFFFFF }
                ∧ t.mmioGet (fhBlock p + 0x2020) 0 = s.mmioGet (fhBlock p + 0x2020) 0 + 1)
              ∧ (¬takes → goesOn (s.bumpWrap (fhBlock p + 0x2020) 1))))
    ∧ (∀ r, r < 16 →
        let i := Instr.txLaunch p r
        let a := s.txDesc p r
        let w := memRead s.mem (a + 8) 8
        let sub := w / 2 ^ 16 % 4
        let now := s.portNow p
        let launch := memRead s.mem (a + 0x10) 8
        let due := bitAt (s.txcfg p r) 63 = true ∧ s.mmioGet (txOff p r 1) 0 ≠ s.mmioGet (txOff p r 2) 0 ∧ launch ≤ now
        let first := ∀ q, q < 16 → ∀ m, s.txReady p q = some m → launch ≤ m
        let may := due ∧ first ∧ bitAt (s.pctl p) 63 = true ∧ s.power.fatal = none
        let sent := isUp sub ∧ (launch = 0 ∨ now ≤ launch + 1000)
        let n := w % 2 ^ 16
        let waits := s.changingIn (memRead s.mem a 8) n = true
        let bad := n ≠ 0 ∧ s.poisonedAt (memRead s.mem a 8) n = true ∨ 2 * p + 1 ∈ s.ports.fhLost
        let counter := fun (t : State) (k : Nat) => t.mmioGet (fhBlock p + 0x2000 + 8 * k) 0
        let did := fun (t : State) => gives i t ∧ t.mmioGet (txOff p r 2) 0 = s.mmioGet (txOff p r 2) 0 + 1
          ∧ ∀ x, x < a + 8 ∨ a + 0x20 ≤ x → memByte t.mem x = memByte s.mem x
        (¬may → gives i s)
        ∧ (may → regionOf a = .lpddr →
            (sent → waits → ∃ m : L2, gives i { s with l2 := m })
            ∧ (sent → ¬waits → ∃ t, did t ∧ memRead t.mem (a + 8) 8 = putBits (putBits w 31 1 1) 30 1 0
              ∧ (bitAt w 24 = true → memRead t.mem (a + 0x18) 8 = now)
              ∧ (bad → counter t 6 = counter s 6 + 1) ∧ (¬bad → counter t 6 = counter s 6))
            ∧ (¬sent → ∃ t, did t ∧ memRead t.mem (a + 8) 8 = putBits (putBits w 31 1 1) 30 1 1
              ∧ counter t 7 = counter s 7 + 1)))
    ∧ (∀ sub, sub < 4 →
        let k := 4 * p + sub
        let was := tabGet false s.ports.subUp k
        let changes := fun (i : Instr) (up : Bool) (code : Nat) => ∃ t, gives i t ∧ t.mem = s.mem ∧ t.cpu = s.cpu
          ∧ (∀ m, tabGet false t.ports.subUp m = if m = k then up else tabGet false s.ports.subUp m)
          ∧ t.mmioGet (fhBlock p + 8) 0 = (if up = false ∧ s.hasSub p sub = true then
              s.mmioGet (fhBlock p + 8) 0 ||| BitVec.ofNat 64 (2 ^ (4 + sub)) else s.mmioGet (fhBlock p + 8) 0)
          ∧ (s.hasSub p sub = false → t.inflight = s.inflight)
          ∧ ∀ h, s.hasSub p sub = true → s.power.port15 = some h →
              (s.inflight.filter fun m => m.kind == .portEvent).length < 16 →
              ∃ m : Msg, t.inflight = s.inflight ++ [m] ∧ m.cl = h / 208 ∧ m.dest = h % 208 - 16 ∧ m.queue = 15
                ∧ m.data = bytesOf 8 code ++ bytesOf 8 k ++ bytesOf 8 s.dquNow ++ bytesOf 8 0
        (was = false → gives (.subportLinkLost p sub) s) ∧ (was = true → gives (.subportLinkUp p sub) s)
        ∧ (was = true → changes (.subportLinkLost p sub) false 5)
        ∧ (was = false → changes (.subportLinkUp p sub) true 6))

/-- R58, R61, R62, R64, R69, R74, R75, R77, R87, R191, R297, R374 to R376: messages and the deadline queue unit.
A message that may land, for a stream core's queue with a free entry and in SCRATCH banks that do not change, is written at its landing
address and joins the queue; one to a bank in FIFO mode with its channel tag and room is laid into the ring; one that may not land, or
cannot yet, stays. The first waiting completion message whose queue has room is sent, past earlier ones whose queue is full (that it
passes them is the model's reading: log 100).
Prefetch, with nothing to recall: for a core that holds two tasks, or takes none, or for which none is chosen, nothing is placed; if it
is free, and the task of its older slot, not a ROW task, may start there, that one starts, else all stays as it is. A
chosen task goes into the younger slot of a busy core, or starts at once on a free one, and a ROW task goes into the slots of its
row's four cores and reserves the row. A recall empties the task's slots, and it holds no row's reservation
any more (stated for busy cores; what becomes of the reservation is log 33). Before either, reclaim begins of a
lent row that a class-0 or class-1 task wants, one that has an eligible core in it and could start nowhere at once (R69): the row's
slots then hold no class-2 task, and none goes there (stated for one such row, while no core is free).
The waiting continuation is enqueued, under the sequence number it took when COUNT reached zero, once an entry is free (logs 32 and 33
say what of these steps is the model's). A PENDING job is RUNNING from its
release time on. At its cliff a live job is deferred or abandoned by its policy (what either does to each job and queued task stands
in the statements about `jdefer` and `jabandon`). A reclaim past the lease cap and 200 ns counts
once (the lease it is counted under: log 36). An event whose condition does not hold changes nothing. -/
def Obligations.DeadlineQueueEvents : Prop :=
  ∀ (s : State),
    let now := s.dquNow
    let gives := fun (i : Instr) (t : State) => exec i s = .next t
    let calm := ∀ r q, q ∈ s.dqu.queue → s.wantsRow r q = false
    (∀ n, s.inflight[n]? = none ∨ s.mayLand n = false → gives (.messageLand n) s)
    ∧ (∀ n m, s.inflight[n]? = some m → s.mayLand n = true →
        let landed := fun (t : State) => gives (.messageLand n) t ∧ t.inflight = s.inflight.eraseIdx n
        let hart := scNum m.cl m.dest
        let k := s.bank m.cl m.dest
        let size := (m.data.length + 127) / 128 * 128
        (s.landMsg m = none → gives (.messageLand n) s)
        ∧ (m.toFifo = false → ∀ e, (s.getHart hart).freeEntry m.queue = some e →
            let a := m.land.getD ((s.handler m.cl m.dest m.queue 1).toNat + 32 * e)
            s.changingAt a = false → s.changingAt (a + m.data.length - 1) = false →
            inScratch s m.cl a (max m.data.length 1) = true →
            ∃ t, landed t ∧ memBytes t.mem a m.data.length = m.data
              ∧ (∀ x, x < a ∨ a + m.data.length ≤ x → memByte t.mem x = memByte s.mem x)
              ∧ (t.getHart hart).queueOf m.queue = (s.getHart hart).queueOf m.queue ++ [⟨e, BitVec.ofNat 64 a, m.data.length⟩])
        ∧ (m.toFifo = true → k.busy = none → k.mode = 3 → k.chan.toNat = m.chan → k.level + size ≤ 0x40000 →
            ∃ t, landed t ∧ t.bank m.cl m.dest = { k with level := k.level + size }
              ∧ ∀ x, x < m.data.length →
                  memByte t.mem (bankAddr m.cl m.dest ((k.head + k.level + x) % 0x40000)) = m.data.getD x 0))
    ∧ (s.dqu.compWait.find? s.hasRoom = none → gives .completionMessageSend s)
    ∧ (∀ m, s.dqu.compWait.find? s.hasRoom = some m → gives .completionMessageSend
        { s with dqu := { s.dqu with compWait := s.dqu.compWait.erase m }, inflight := s.inflight ++ [m] })
    ∧ (∀ n, hartCount ≤ n → gives (.prefetchFill n) s)
    ∧ (∀ n k g, n < hartCount → (s.getHart n).free = false → (∀ m ∈ s.liveHarts, m.free = false) → g ∈ s.liveHarts → isVcNum g.num = true → rowOfHart g.num = k →
        (∃ q ∈ s.dqu.queue, s.wantsRow k q = true) → (∀ r, ∀ q ∈ s.dqu.queue, s.wantsRow r q = true → r = k) →
        (s.dqu.queue.map (·.id)).Nodup →
        ∀ i, i = .prefetchFill n ∨ i = .prefetchRecall n → ∃ t x, gives i t ∧ tabGet none t.dqu.reclaim k = some x ∧ x.since = now
          ∧ x.late = false ∧ (∃ q ∈ s.dqu.queue, s.wantsRow k q = true ∧ x.task = q.id)
          ∧ ∀ b ∈ t.dqu.queue, t.classOf b = 2 → ∀ m ∈ b.slots, isVcNum m = true → rowOfHart m ≠ k)
    ∧ (∀ n, n < hartCount → calm → s.recallables n = [] →
        let h := s.getHart n
        let row := rowOfHart n
        let chosen := s.choose n fun q => q.slots.isEmpty
        let nothing := 2 ≤ h.prefetch.length ∨ h.takesTasks = false ∨ chosen = none
        (nothing → h.free = false ∨ h.prefetch = [] ∨ s.messagesWait n = true → gives (.prefetchFill n) s)
        ∧ (nothing → h.free = true → s.messagesWait n = false → ∀ id rest q j, h.prefetch = id :: rest → s.task? id = some q →
            s.job? q.job = some j → q.desc.kind ≠ 1 →
            let may := s.startable j = true ∧ (isVcNum n = true → s.leaseAdmits j row = true) ∧ s.power.locked = true
              ∧ s.power.shutdown = false ∧ s.power.fatal = none
            (¬may → gives (.prefetchFill n) s)
            ∧ (may → ∃ t r, gives (.prefetchFill n) t ∧ (t.getHart n).run = .task r ∧ r.id = id ∧ r.job = q.job ∧ r.tidx = q.tidx
                ∧ (t.getHart n).pc = q.desc.entry ∧ t.task? id = none ∧ t.mem = s.mem))
        ∧ ∀ q u, h.prefetch.length < 2 → h.takesTasks = true → chosen = some (q, u) →
          (q.desc.kind ≠ 1 → h.free = false →
            ∃ t k, gives (.prefetchFill n) t ∧ (t.getHart n).prefetch = h.prefetch ++ [q.id] ∧ t.task? q.id = some k
              ∧ k.slots = [n] ∧ t.mem = s.mem)
          ∧ (q.desc.kind ≠ 1 → h.free = true → h.prefetch = [] → s.messagesWait n = false → s.task? q.id = some q →
            ∃ t r, gives (.prefetchFill n) t ∧ (t.getHart n).run = .task r ∧ r.id = q.id ∧ r.job = q.job ∧ r.tidx = q.tidx
              ∧ (t.getHart n).pc = q.desc.entry ∧ (t.getHart n).prefetch = [] ∧ t.task? q.id = none ∧ t.mem = s.mem)
          ∧ (q.desc.kind = 1 → h.free = false → tabGet none s.dqu.reserved row = none →
            (s.rowSlotted row).all (fun b => b.desc.kind != 0) = true →
            (∀ m ∈ rowHarts row, (s.getHart m).prefetch.length < 2) →
            ∃ t, gives (.prefetchFill n) t ∧ tabGet none t.dqu.reserved row = some q.id ∧ t.mem = s.mem
              ∧ ∀ m ∈ rowHarts row, (t.getHart m).prefetch = (s.getHart m).prefetch ++ [q.id]))
    ∧ (∀ n, calm → s.recallables n = [] → gives (.prefetchRecall n) s)
    ∧ (∀ n b bs k, calm → s.recallables n = b :: bs → s.task? b.id = some k → (∀ m ∈ b.slots, (s.getHart m).free = false) →
        ∃ t, gives (.prefetchRecall n) t ∧ t.mem = s.mem
        ∧ t.task? b.id = some { k with slots := [] }
        ∧ (∀ m ∈ k.slots, b.id ∉ (t.getHart m).prefetch)
        ∧ (∀ r, tabGet none t.dqu.reserved r ≠ some b.id)
        ∧ (s.reservedFor b.id = [] → ∀ m ∈ k.slots, (t.getHart m).prefetch = (s.getHart m).prefetch.filter (· != b.id)))
    ∧ (s.nextCont = none ∨ s.dqFree = 0 → gives .waitingContinuationEnqueue s)
    ∧ (∀ id d n j, s.nextCont = some (id, d, n) → s.dqFree ≠ 0 → s.job? id = some j → j.final = false →
        ∃ t, gives .waitingContinuationEnqueue t
          ∧ t.dqu.queue = s.dqu.queue ++ [⟨s.dqu.nextTask, id, 0, d, n, now, []⟩]
          ∧ t.dqu.seq = s.dqu.seq ∧ t.job? id = some { j with contDue := false, contSeq := 0, cont := none })
    ∧ (∀ id, s.job? id = none → gives (.jobRelease id) s ∧ gives (.jobCliff id) s)
    ∧ (∀ id j, s.job? id = some j →
        (now < j.release.toNat → gives (.jobRelease id) s)
        ∧ (j.release.toNat ≤ now → j.state = 1 → ∃ t, gives (.jobRelease id) t
            ∧ t.job? id = some { j with state := 2, runningAt := now }
            ∧ (regionOf (j.pa + 0x28) = .lpddr → memRead t.mem (j.pa + 0x28) 1 = 2))
        ∧ (j.deferred = true ∨ now < j.cliffValue ∨ j.live = false ∨ j.abandonAt ≠ none → gives (.jobCliff id) s)
        ∧ (j.deferred = false → j.cliffValue ≤ now → j.live = true → j.abandonAt = none →
            (j.defer = true → gives (.jobCliff id) (s.deferJob id) ∧ (s.deferJob id).job? id = some { j with deferred := true })
            ∧ (j.defer = false → ∃ (g : Nat) (k : Job), let w := s.abandon id j.cliffValue g false
                gives (.jobCliff id) w ∧ w.job? id = some k ∧ k.abandonAt = some j.cliffValue ∧ k.cont = none)))
    ∧ ∀ c r,
        let k := rowKey c r
        (tabGet none s.dqu.reclaim k = none → gives (.reclaimLate c r) s)
        ∧ ∀ x, tabGet none s.dqu.reclaim k = some x →
          (x.late = true ∨ now ≤ x.since + s.leaseCap x.lease + 200 → gives (.reclaimLate c r) s)
          ∧ (x.late = false → x.since + s.leaseCap x.lease + 200 < now → ∃ t, gives (.reclaimLate c r) t
              ∧ tabGet none t.dqu.reclaim k = some { x with late := true }
              ∧ (t.mmioGet 0x20 0).toNat % 2 ^ 32 = min ((s.mmioGet 0x20 0).toNat % 2 ^ 32 + 1) 0xFFFFFFFF)

/-- R54, R66, R75, R84, R86, R87, R171, R178 to R180, R183, R213, R332, R344 to R346, R400: events at the core whose turn it is.
The abandon signal marks the task; it does no more in an M-mode handler, or while the task runs on, or waits where no wait of R171
ends; in an S-mode handler, and in a wait for a stream, it is a forced stop; in any other wait, with nothing buffered, popped or
bound (and for a chain on none of its cores), the task stops there. The end of the grace time is a forced stop outside an M-mode handler.
An empty budget of a task of one core is a forced stop, with its RESULT; so is a budget stop that has waited for a machine-check
handler. A stop leaves the core without the task, its wait and its buffer, and idle where nothing is prefetched. The progress timer's
end takes cause 26. An interrupt becomes pending; the first that is enabled is taken, here of a core with nothing buffered, popped or
open that waits neither in the hinge nor for a chain. A wait ends when what it waits for is there, and not before. An event
whose condition does not hold changes nothing.
The model's choices: bits 3, 7 and 11 of `mip` are pulses of the platform and clear when their interrupt is taken (log 22); an abandon
signal in an S-mode handler is a forced stop (log 26); the end of a wait is an event of its own, after which the hart executes its
instruction again (log 51). -/
def Obligations.CoreEvents : Prop :=
  ∀ (s : State),
    let h := s.cpu
    let now := s.dquNow
    let gives := fun (i : Instr) (t : State) => exec i s = .next t
    let gone := fun (i : Instr) => ∃ t, gives i t ∧ t.cpu.num = h.num ∧ t.cpu.buf = [] ∧ t.cpu.wait = none
      ∧ (h.prefetch = [] → t.cpu.run = .idle)
    let still := fun (g : Hart) => g.buf = [] ∧ g.pops = [] ∧ noSlots g
    let waitEnds := fun (i : Instr) (p : WaitOn → Bool) =>
      (h.wait = none → gives i s)
      ∧ ∀ w, h.wait = some w → (p w.on = true → gives i { s with cpu := { h with wait := none } }) ∧ (p w.on = false → gives i s)
    let ready := fun (b n : Nat) =>
      let k := s.bank h.cluster b
      k.busy.isNone && (k.mode != 3 || decide (k.popped + n ≤ k.level))
    let job := h.ownTask.bind fun r => s.job? r.job
    (h.task = none → gives .abandonSignal s ∧ gives .abandonGraceExpiry s ∧ gives .budgetExpiry s)
    ∧ (∀ r, h.run = .task r →
        let marked := { s with cpu := { h with run := .task { r with signal := true } } }
        (r.graceAt = none → gives .abandonSignal s ∧ gives .abandonGraceExpiry s)
        ∧ (r.graceAt ≠ none → 0 < r.trapDepth →
            (h.mode = .m → gives .abandonSignal marked) ∧ (h.mode ≠ .m → gone .abandonSignal))
        ∧ (r.graceAt ≠ none → r.trapDepth = 0 →
            (h.wait = none → gives .abandonSignal marked)
            ∧ ∀ w, h.wait = some w →
              (w.on = .interlock ∨ w.on = .wfi ∨ w.on = .messages ∨ w.on = .credit ∨ (∃ b, w.on = .modeChange b) →
                gives .abandonSignal marked)
              ∧ ((∃ q b n, w.on = .pop q b n) ∨ (∃ q b n, w.on = .skip q b n) ∨ (∃ q, w.on = .push q)
                  ∨ (∃ q k b, w.on = .slotStall q k b) → gone .abandonSignal)
              ∧ (still h → (∃ a st, w.on = .latch a st) ∨ (∃ n a, w.on = .window n a) ∨ (∃ c n, w.on = .timeline c n)
                  ∨ (∃ m all, w.on = .tags m all) ∨ (∃ c, w.on = .post c) ∨ w.on = .hwait ∨ (∃ d, w.on = .hinge d) →
                gone .abandonSignal)
              ∧ (w.on = .chain → h.isVc = true → (∀ n ∈ s.gangOf h.num, still (s.getHart n)) → gone .abandonSignal))
        ∧ (∀ g, r.graceAt = some g →
            (now < g ∨ h.inMHandler = true → gives .abandonGraceExpiry s)
            ∧ (g ≤ now → h.inMHandler = false → gone .abandonGraceExpiry))
        ∧ (r.mcAt ≠ 0 ∨ r.stopMc = false ∧ (r.counts = false ∨ h.tbudget ≠ 0) → gives .budgetExpiry s)
        ∧ (r.mcAt = 0 → r.stopMc = true → gone .budgetExpiry)
        ∧ (r.mcAt = 0 → r.stopMc = false → r.counts = true → h.tbudget = 0 → r.gang = false → gone .budgetExpiry
            ∧ ∀ j, s.job? r.job = some j → j.final = false →
              ∃ t k, gives .budgetExpiry t ∧ t.job? r.job = some k ∧ k.result = 0x800000000000001B))
    ∧ (∀ w, h.wait = some w → h.timed = true → h.vec.vprogtmo.toNat ≤ h.progress →
        gives .progressTimeout (s.takeTrap ⟨26, progressTval w, some w.elem, true, none⟩ 0))
    ∧ (h.wait = none ∨ h.timed = false ∨ h.progress < h.vec.vprogtmo.toNat → gives .progressTimeout s)
    ∧ (∀ c : BitVec 6, c.toNat ∉ [1, 3, 5, 7, 9, 11] → gives (.interrupt c) s)
    ∧ (∀ c : BitVec 6, c.toNat ∈ [1, 3, 5, 7, 9, 11] →
        let pending := { h with csr := { h.csr with mip := h.csr.mip ||| ((1 : Word) <<< c.toNat) } }
        let taken := pending.enterTrap true c.toNat 0 h.pc
        let pulse : Word := if c.toNat ∈ [3, 7, 11] then (1 : Word) <<< c.toNat else 0
        (h.runs = false ∨ h.trap ≠ none ∨ pending.pendingInt ≠ some c.toNat → gives (.interrupt c) { s with cpu := pending })
        ∧ (h.runs = true → h.trap = none → pending.pendingInt = some c.toNat → quiet s →
            (∀ w, h.wait = some w → w.on ≠ .chain ∧ ∀ d, w.on ≠ .hinge d) →
            gives (.interrupt c) { s with cpu := { taken with csr := { taken.csr with mip := taken.csr.mip &&& ~~~pulse } } }))
    ∧ waitEnds .latchWaitEnd (fun on => match on with
        | .latch pa st => !s.changingAt pa && s.wordFull pa != some st
        | .window _ pa => !s.changingAt pa && s.wordFull pa != some true
        | _ => false)
    ∧ waitEnds .timelineWaitEnd (fun on => match on with | .timeline c n => decide (n ≤ h.done.getD c 0) | _ => false)
    ∧ waitEnds .tagWaitEnd (fun on => match on with
        | .tags m true => h.ctags &&& m == m
        | .tags m false => h.ctags &&& m != 0
        | _ => false)
    ∧ waitEnds .streamWaitEnd (fun on => match on with
        | .pop _ b n | .skip _ b n => ready b n
        | .push _ => decide (s.inFlightOf h.num < 8)
        | .slotStall _ _ b => (s.bank (b / 32) (b % 32)).busy.isNone
        | _ => false)
    ∧ waitEnds .postStallEnd (fun on => match on with
        | .post 0 => decide (h.posted.getD 0 0 - h.done.getD 0 0 < 64)
            && (match job with | some j => j.count != 65535 | none => true)
        | .post c => !s.postStalls c job
        | _ => false)

/-- R145, R146, R257 to R261, R273 to R291, R342, R349, R353, R390: the steps of a row's matrix unit and weight chain. Each changes nothing
after a fatal event, or where its condition does not hold.
Matrix: a command of the step's kind at the head of the queue, sound and past its waits, gets a result while no bank changes mode.
Where its operands are in registers or in ordinary memory, an arithmetic command gives each element of its tile the value of
`matElem`, MZERO clears its tile, and MDRAIN writes its 32 rows and clears the tile with ZERO; each succeeds and changes no
other accumulator element, and no other memory. The completion moves the queue on and advances DONE of the four cores.
Chain: it begins once the queue is empty and no repair is due. The next block runs in the step of its own kind: with its
header, units and activations in ordinary memory and an unpoisoned header, a compute or WACT block gives each element of its working
tiles the value of `blockElem`, WOUT writes its rows to memory, or its words to windows that are free, and clears with ZERO; WSEL,
WCALL and WRET choose the next block, and end the chain with LINK where the link stack does not allow it; WEND ends it with OK.
A pending interrupt ends it with INTR, unless the read of its next header stalls on a bank's mode change; a late window write with
PROGRESS. A mismatch, of a command past its waits or a block that works on significands, runs it again, twice at most; then the
command fails, and the chain ends with FAULT (the cores having nothing buffered, popped or open, and no machine
check unacknowledged).
The model's readings: a position that a sparse row skips adds an exact zero (log 66), opposite terms that face an infinity give NaN
(log 126), the order in which a block's interrupt, header, payload and planes are looked at (log 71), and which commands and blocks can
meet a mismatch, a waiting command meeting none (log 117). -/
def Obligations.MatrixAndChainSteps : Prop :=
  ∀ (s : State) (cl row : Nat), cl < 16 → row < 4 →
    let w := s.row cl row
    let gives := fun (i : Instr) (t : State) => exec i s = .next t
    let cores := (List.range 4).map fun k => vcNum cl (4 * row + k)
    let mats := [(Instr.mma cl row, 1), (.mmas cl row, 2), (.mmaw2 cl row, 3), (.mslide cl row, 4), (.mzero cl row, 5), (.mdrain cl row, 6)]
    let blocks := [(Instr.wdense cl row, 1), (.wsparse cl row, 2), (.wtwo cl row, 3), (.wlrc cl row, 4), (.wact cl row, 5),
      (.wout cl row, 6), (.wsel cl row, 7), (.wcall cl row, 8), (.wret cl row, 9), (.wend cl row, 10)]
    let significands := fun (op last fmt : Nat) => 1 ≤ op ∧ op ≤ last ∨ op = 6 ∧ fmt ≠ 0
    let accOf := fun (t : State) (k : Nat) => tabGet 0 (t.row cl row).acc k
    let idle := fun (t : State) => t.mem = s.mem ∧ ∀ k, accOf t k = accOf s k
    (s.power.fatal ≠ none → ∀ i, i ∈ mats.map Prod.fst ++ blocks.map Prod.fst ++ [.matrixCommandComplete cl row, .chainStart cl row] →
      gives i s)
    ∧ (s.power.fatal = none →
        (∀ i op, (i, op) ∈ mats →
          (w.head? = none → gives i s)
          ∧ ∀ c, w.head? = some c →
              let runs := c.result = none ∧ c.defect = false ∧ c.words % 256 = op ∧ s.matWaited cl row c = true
              let e := engOf cl c.satp c.mode
              let tile := bitsAt c.words 16 2
              let base := addrField c.words 64
              let pitch := bitsAt c.words 112 32
              let bf := bitsAt c.words 36 4
              let k := matK (bitsAt c.words 32 4)
              let q := bitsAt c.words 40 2
              let main := if op = 2 then 48 * q else 192
              let side := if op = 2 then (if bitsAt c.words 32 4 = 4 then 6 else 12) * q else if op = 3 then 16 else 0
              let done := fun (t : State) => gives i t ∧ ∃ r : MatResult, r.status = 0 ∧ (t.row cl row).head? = some { c with result := some r }
              (¬runs → gives i s)
              ∧ (runs → (∀ n b, (s.bank n b).busy = none) →
                  ∃ t r, gives i t ∧ (t.row cl row).head? = some { c with result := some r })
              ∧ (runs → op ≤ 4 → ∀ pa, aHeld s e pa c main side →
                  (op = 4 → engHolds s e false base ((k + 31) * opndB bf) pa) →
                  (op ≠ 4 → ∀ j, j < k → engHolds s e false (base + BitVec.ofNat 64 (j * pitch)) (32 * opndB bf) pa) →
                  let b := fun (n j : Nat) =>
                    if op = 4 then opndVal bf (engBytes s.mem pa base ((k + 31) * opndB bf)) (j + n)
                    else opndVal bf (engBytes s.mem pa (base + BitVec.ofNat 64 (j * pitch)) (32 * opndB bf)) n
                  ∃ t, done t ∧ t.mem = s.mem ∧ t.cpu = s.cpu
                    ∧ (∀ m n, m < 32 → n < 32 → accOf t (accKey tile m n) = BitVec.ofNat 32
                        (matElem c.words (aBytes s.mem pa c main side m).1 (aBytes s.mem pa c main side m).2 (b n)
                          (accOf s (accKey tile m n)).toNat))
                    ∧ ∀ x, x / 1024 ≠ tile → accOf t x = accOf s x)
              ∧ (runs → op = 5 → ∃ t, done t ∧ t.mem = s.mem ∧ t.cpu = s.cpu
                  ∧ ∀ x, accOf t x = if x / 1024 = tile then 0 else accOf s x)
              ∧ (runs → op = 6 → ∀ pa,
                  let ws : Writes := (List.range 32).map fun r => (base + BitVec.ofNat 64 (r * pitch),
                    (List.range 32).flatMap fun n =>
                      drainVal (bitsAt c.words 32 4) (bitsAt c.words 36 2) (accOf s (accKey tile r n)).toNat)
                  ws.fit s e pa → ∃ t, done t ∧ ws.done s.mem t.mem pa
                    ∧ ∀ x, accOf t x = if bitAt c.words 38 = true ∧ x / 1024 = tile then 0 else accOf s x))
        ∧ (w.head? = none → gives (.matrixCommandComplete cl row) s)
        ∧ (∀ c rest, w.queue = .cmd c :: rest →
            (c.result = none → c.defect = false → gives (.matrixCommandComplete cl row) s)
            ∧ (c.result ≠ none ∨ c.defect = true → c.seqs.length = 4 → ∃ t, gives (.matrixCommandComplete cl row) t
                ∧ ((∀ col, rest.head? ≠ some (.clear col)) → (t.row cl row).queue = rest)
                ∧ ∀ n ∈ cores, (t.getHart n).done.getD 0 0 = (s.getHart n).done.getD 0 0 + 1))
        ∧ (w.chain = none → ∀ i, i ∈ .chainStart cl row :: blocks.map Prod.fst → gives i s)
        ∧ (∀ ch, w.chain = some ch →
            let e := ch.eng cl
            let chainOf := fun (t : State) => (t.row cl row).chain
            let ends := fun (i : Instr) (x10 : Nat) => ∃ t, gives i t ∧ chainOf t = none ∧ (x10 = 0 → (t.row cl row).resume = none)
              ∧ ∀ n ∈ cores, ((t.getHart n).xr 10).toNat = x10 ∧ (t.getHart n).pc = (s.getHart n).pc + 4
            let onTo := fun (blk : Word) (links : List Word) (sat : Bool) => some { ch with
              block := blk, links := links, sat := sat, reruns := 0, header := none
              outWords := [0, 0, 0, 0], since := [none, none, none, none], gens := [] }
            (w.queue = [] → w.repair = false → gives (.chainStart cl row)
              (s.setRow cl row { w with chain := some { ch with begun := true } }))
            ∧ (w.queue ≠ [] ∨ w.repair = true → gives (.chainStart cl row) s)
            ∧ (∀ i op, (i, op) ∈ blocks →
              (ch.begun = false → gives i s)
              ∧ (ch.begun = true → (∃ n ∈ cores, (s.getHart n).pendingInt ≠ none) →
                  (s.headerStalls e ch = true → gives i s)
                  ∧ (s.headerStalls e ch = false → ∃ t, gives i t ∧ chainOf t = none
                      ∧ ∀ n ∈ cores, ((t.getHart n).xr 10).toNat % 256 = 1
                        ∧ ∀ h, ch.header = some h → ((t.getHart n).xr 10).toNat = 1 + 256 * (h % 256)))
              ∧ ∀ h pa, ch.begun = true → (∀ n ∈ cores, (s.getHart n).pendingInt = none) →
                wDefect h = false → (ch.header = some h ∨ ch.header = none ∧ unitsHeld s e ch.block 1 pa
                  ∧ s.poisonedAt (pa ch.block) 32 = false ∧ ofBytes (unitBytes s.mem pa ch.block 1) = h) →
                let keys := wKeys h
                let old := fun (k : Nat) => (s.workEl cl row h k).1
                let plane := fun (x : Nat) => wPlane h ≤ x ∧ x < wPlane h + 4096 * wPasses h
                let apart := fun (ws : Writes) => wPasses h ≠ 1 → ∀ p ∈ ws.parts pa,
                  p.1 + p.2 ≤ wPlane h ∨ wPlane h + 4096 * wPasses h ≤ p.1
                (h % 256 ≠ op → gives i s)
                ∧ (h % 256 = op → planesHeld s cl h →
                  (op ≤ 5 → unitsHeld s e (ch.block + 32) (ceilDiv (wUsed h) 32) pa →
                    (op ≠ 5 → ∀ p k n, p < wPasses h → k < wDepth h → n < 32 →
                      engHolds s e false (actAddr h p k n) (opndB (bitsAt h 36 4)) pa) →
                    let val := fun (k : Nat) =>
                      blockElem s.mem pa h (unitBytes s.mem pa (ch.block + 32) (ceilDiv (wUsed h) 32)) (old k) k
                    let hit := (op = 3 ∨ op = 4) ∧ bitsAt h 48 8 ≠ 255 ∧ ∃ k ∈ keys, wHits (bitsAt h 48 8) (val k) = true
                    ∃ t sat, gives i t ∧ chainOf t = onTo (wSucc h ch.block) ch.links sat ∧ (sat = true ↔ ch.sat = true ∨ hit)
                      ∧ (∀ k ∈ keys, (t.workEl cl row h k).1 = val k % 2 ^ 32)
                      ∧ (wPasses h = 1 → t.mem = s.mem ∧ ∀ x, (∀ k ∈ keys, x ≠ bitsAt h 20 2 * 1024 + k) → accOf t x = accOf s x)
                      ∧ (wPasses h ≠ 1 → (∀ x, accOf t x = accOf s x) ∧ ∀ x, ¬plane x → memByte t.mem x = memByte s.mem x))
                  ∧ (op = 6 → bitAt h 23 = false → (outWrites s cl row h).fit s e pa → apart (outWrites s cl row h) →
                    ∃ t, gives i t ∧ chainOf t = onTo (wSucc h ch.block) ch.links ch.sat
                      ∧ (∀ x ∈ outWrites s cl row h, engBytes t.mem pa x.1 x.2.length = x.2)
                      ∧ (∀ x, (∀ p ∈ (outWrites s cl row h).parts pa, x < p.1 ∨ p.1 + p.2 ≤ x) → (wPasses h ≠ 1 → ¬plane x) →
                          memByte t.mem x = memByte s.mem x)
                      ∧ ∀ k ∈ keys, (t.workEl cl row h k).1 = if bitAt h 22 then 0 else old k)
                  ∧ (op = 6 → bitAt h 23 = true → ch.outWords = [0, 0, 0, 0] → ch.since = [none, none, none, none] → ch.gens = [] →
                    let nw := fun (col : Nat) => ((s.getHart (vcNum cl (4 * row + col))).vec.nwin.getD (bitsAt h 128 3) 0).toNat
                    let bank := fun (col : Nat) => winBank (4 * row + col) (nw col)
                    let first := fun (col : Nat) => bitsAt (nw col) 17 15
                    let n := wOutLen h / 8
                    let per := 8 / outB (bitsAt h 32 4)
                    let word := fun (col j : Nat) => (List.range per).flatMap fun x =>
                      let y := j * per + x
                      outVal (bitsAt h 32 4) (bitsAt h 36 2) (old (y / 256 * 1024 + col * 256 + y % 256))
                    (∀ col ∈ wCols h, s.windowVerdict cl row col h none = .ok
                      ∧ ∀ j, j < n → (s.bank cl (bank col)).isFull (first col + j) = false) →
                    (∀ a ∈ wCols h, ∀ b ∈ wCols h, a ≠ b → bank a ≠ bank b ∨ first a + n ≤ first b ∨ first b + n ≤ first a) →
                    ∃ t, gives i t ∧ chainOf t = onTo (wSucc h ch.block) ch.links ch.sat
                      ∧ (∀ col ∈ wCols h, ∀ j, j < n → (t.bank cl (bank col)).isFull (first col + j) = true
                          ∧ memBytes t.mem (bankAddr cl (bank col) (8 * (first col + j))) 8 = word col j)
                      ∧ ∀ k ∈ keys, (t.workEl cl row h k).1 = if bitAt h 22 then 0 else old k)
                  ∧ (op = 7 →
                    let c := bitsAt h 42 2
                    let holds := c = 0 ∧ ch.sat = true ∨ c = 1 ∧ (∃ k ∈ keys, wHits (bitsAt h 48 8) (old k) = true) ∨ 2 ≤ c
                    let sat := if c = 0 then false else ch.sat
                    (holds → ∃ t, gives i t ∧ chainOf t = onTo (addrField h 128) ch.links sat ∧ idle t)
                    ∧ (¬holds → ∃ t, gives i t ∧ chainOf t = onTo (wSucc h ch.block) ch.links sat ∧ idle t))
                  ∧ (op = 8 → (4 ≤ ch.links.length → ends i (5 + 256 * 8))
                    ∧ (ch.links.length < 4 → ∃ t, gives i t ∧ idle t
                        ∧ chainOf t = onTo (addrField h 128) (wSucc h ch.block :: ch.links) ch.sat))
                  ∧ (op = 9 → (ch.links = [] → ends i (5 + 256 * 9))
                    ∧ ∀ l r, ch.links = l :: r → ∃ t, gives i t ∧ idle t ∧ chainOf t = onTo l r ch.sat)
                  ∧ (op = 10 → ends i 0)))
            ∧ ∀ col, (s.windowLate cl row ch col = false → gives (.woutWindowTimeout cl row col) s)
              ∧ (s.windowLate cl row ch col = true → ends (.woutWindowTimeout cl row col) (7 + 256 * 6)))
        ∧ (w.chain = none → ∀ col, gives (.woutWindowTimeout cl row col) s)
        ∧ ∀ col,
            (w.head? = none → w.chain = none → gives (.jmaResidueMismatch cl row col) s)
            ∧ (∀ ch h pa, w.head? = none → w.chain = some ch →
                (ch.header = some h ∨ ch.header = none ∧ unitsHeld s (ch.eng cl) ch.block 1 pa ∧ wDefect h = false
                  ∧ s.poisonedAt (pa ch.block) 32 = false ∧ ofBytes (unitBytes s.mem pa ch.block 1) = h) →
                let runs := ch.begun = true ∧ significands (h % 256) 5 (bitsAt h 32 4)
                (¬runs → gives (.jmaResidueMismatch cl row col) s)
                ∧ (runs → ch.reruns < 2 → ∃ t, gives (.jmaResidueMismatch cl row col) t ∧ idle t
                    ∧ (t.row cl row).chain = some { ch with reruns := ch.reruns + 1 })
                ∧ (runs → 2 ≤ ch.reruns →
                    (∀ n ∈ cores, (s.getHart n).buf = [] ∧ (s.getHart n).pops = [] ∧ (s.getHart n).vec.strip = none
                      ∧ (s.getHart n).mcrec0.getLsbD 63 = false) →
                    ∃ t, gives (.jmaResidueMismatch cl row col) t ∧ (t.row cl row).chain = none
                      ∧ ∀ n ∈ cores, ((t.getHart n).xr 10).toNat = 2 + 256 * (h % 256)))
            ∧ ∀ c, w.head? = some c →
                let runs := c.result = none ∧ c.defect = false ∧ s.matWaited cl row c = true
                  ∧ significands (c.words % 256) 4 (bitsAt c.words 32 4)
                (¬runs → gives (.jmaResidueMismatch cl row col) s)
                ∧ (runs → ∃ t, gives (.jmaResidueMismatch cl row col) t ∧ idle t
                    ∧ (t.row cl row).head? = some (if c.reruns < 2 then { c with reruns := c.reruns + 1 }
                        else { c with result := some ⟨4, 48, 0, false, false, false, col⟩ })))

/-- R172, R263 to R271, R349 to R366, R382, R390: the steps of copy engines and codecs, publication, held fault records, mismatches and
ECC errors. An event whose condition does not hold changes nothing.
Copies and codecs: the next command of a queue or context runs when it is of the step's kind; while no bank changes mode the step ends
with the command run. With its memory ordinary, nothing poisoned or lost, and nothing it writes overlapping what it reads or
writes elsewhere: COPYND and FILL write every piece and finish with OK; REPLAY writes the missed sectors of its PARTIAL command, and
both finish with OK; a codec command writes its OUT. A REPLAY that is not a server's, or names no PARTIAL command or one whose miss list
is poisoned (R363), finishes with BADCMD.
A command that has run publishes: it is gone, DONE of its context advances, and outside a job it writes its completion record;
`chkint` as software reads it shows CORR of a command whose data was corrected, while its poster runs. While a fault record of it is
held it does not (R393; ABANDONED apart, log 138): a PARTIAL one then writes its record later, and a defective one, whose record goes to
the queue first, completes later.
Integrity: a held record is written once its queue has space. A mismatch that the instruction can show, outside an opened strip and
not at a `vamo`, executes again twice and then raises its cause. A corrected error sets CORR where a context consumes it; an
uncorrectable one poisons the place it names, or is fatal.
The model's choices: a codec writes OUT at its start event (log 44); CORR goes to the hart whose turn it is, an uncorrectable error of a
refetched translation evicts it, and a corrected error that no context consumes sets no CORR (log 88); a command's buffers hold the
bytes of its oldest unfinished command, which consumes them if it is a codec's or transforms them, and a port's buffer the frame it
names (log 118). -/
def Obligations.EngineAndIntegrityEvents : Prop :=
  ∀ (s : State),
    let h := s.cpu
    let live := s.power.fatal = none
    let calm := ∀ c b, (s.bank c b).busy = none
    let gives := fun (i : Instr) (t : State) => exec i s = .next t
    let quietLoc := fun (l : EccLoc) => match l with
      | .l2Tag | .dquEntry | .rcbCopy | .leaseTable | .faultPtr | .frame _ _ => true
      | _ => false
    let oldest := fun (n ctx : Nat) => s.cmds.find? fun c => c.hart == n && c.ctx == ctx && c.state != .finished
    let again := fun (i : Instr) (cause w : Nat) =>
      (h.attempts < 2 → ∃ t, gives i t ∧ t.cpu.attempts = h.attempts + 1 ∧ t.cpu.pc = h.pc
          ∧ t.cpu.chkint = h.chkint ||| 4 ∧ t.cpu.x = h.x ∧ t.mem = s.mem)
      ∧ (2 ≤ h.attempts → ∃ x : Exc, x.cause = cause ∧ x.mc ≠ none ∧ gives i (s.takeTrap x w))
    let lost := fun (l : EccLoc) (p : State → Prop) => ∃ t, gives (.eccUncorrectable l) t ∧ t.mem = s.mem ∧ p t
    (∀ cl ce q i op, (i, op) ∈ [(Instr.copynd cl ce q, 1), (.fill cl ce q, 2), (.replay cl ce q, 3)] →
      (¬live ∨ s.nextCopy cl ce q = none → gives i s)
      ∧ (live → ∀ c, s.nextCopy cl ce q = some c →
          (c.words % 256 ≠ op → gives i s)
          ∧ (c.words % 256 = op → calm → ∃ t, gives i t
              ∧ ∃ d ∈ t.cmds, d.same c = true ∧ (d.state = .finished ∨ d.state = .partly))
          ∧ (c.words % 256 = op → op ≠ 3 → s.poison = [] → c.lost = [] → c.poisoned = false → ∀ pa,
              let ws := copyWrites s.mem pa c.words fun _ => true
              ws.fit s c.eng pa → copyReads s c pa (fun _ => true) →
              ∃ t, gives i t ∧ ws.done s.mem t.mem pa ∧ t.cmds = s.cmds.map fun d =>
                if d.same c then { c with
                  state := .finished, status := 0, bytes := copyTotal c.words, misses := [], owes := false } else d)
          ∧ (c.words % 256 = 3 → op = 3 →
              let o := s.partialOf (c.words / 2 ^ 32 % 2 ^ 32)
              (s.isServer c.hart = false ∨ o = none ∨ (∃ d, o = some d ∧ d.missBad = true) →
                gives i ((s.cmdRecord c 2 0 false false).putCmd { c with state := .finished, status := 3 }))
              ∧ ∀ d, s.isServer c.hart = true → o = some d → d.missBad = false → c.lost = [] → s.poison = [] → d.lost = [] → d.poisoned = false → ∀ pa,
                let ws := copyWrites s.mem pa d.words (missed d.misses)
                ws.fit s d.eng pa → copyReads s d pa (missed d.misses) →
                let e := { d with state := .finished, status := 0, bytes := copyTotal d.words, misses := [], owes := false }
                ∃ t, gives i t ∧ ws.done s.mem t.mem pa
                  ∧ t.cmds = (s.cmds.map fun x => if x.same e then e else x).map fun x =>
                    if x.same c then { c with state := .finished, status := 0, bytes := copyTotal d.words - d.bytes } else x)))
    ∧ (∀ n i op, (i, op) ∈ [(Instr.ldpcdec n, 1), (.ldpcenc n, 2), (.poldec n, 3), (.polenc n, 4), (.rmatch n, 5), (.dematch n, 6)] →
        (¬live ∨ s.firstOfContext n 3 = none → gives i s)
        ∧ (live → ∀ c, s.firstOfContext n 3 = some c →
            (ckOp c.words ≠ op ∨ s.codecFirst c = false → gives i s)
            ∧ (ckOp c.words = op → s.codecFirst c = true →
              (calm → ∃ t, gives i t ∧ ∃ d ∈ t.cmds, d.same c = true ∧ d.state = .started)
              ∧ (s.poison = [] → c.lost = [] → ∀ pa, engHolds s c.eng false (ckIn c.words) (ckInLen c.words) pa →
                (ckHc c.words = true → engHolds s c.eng false (ckHarq c.words) (ckN c.words) pa) →
                let r := codecRun c.words s.free (engBytes s.mem pa (ckIn c.words) (ckInLen c.words))
                  (if ckHc c.words then engBytes s.mem pa (ckHarq c.words) (ckN c.words) else [])
                let ws : Writes := [(ckOut c.words, r.out)]
                ws.fit s c.eng pa → ∃ t, gives i t ∧ ws.done s.mem t.mem pa ∧ t.cmds = s.cmds.map fun d =>
                  if d.same c then { c with
                    state := .started, status := 0, bytes := r.out.length, aux := BitVec.ofNat 64 r.aux, staging := r.staging
                    stagingBad := false, poisoned := false } else d))))
    ∧ (∀ n ctx, (¬live ∨ s.firstOfContext n ctx = none → gives (.commandPublish n ctx) s)
        ∧ (live → ctx < 4 → ∀ c, s.firstOfContext n ctx = some c →
            let holds := s.recordsHeld c = true
            let row := tabGet [] s.held c.cl
            let runs := (c.state = .finished ∨ c.state = .started) ∧ (holds → c.status = 2)
            let rejected := c.state = .queued ∧ c.defect = true ∧ ¬holds
            let owing := c.state = .partly ∧ c.owes = true ∧ ¬holds
            let ends := fun (t : State) => gives (.commandPublish n ctx) t ∧ (∀ d ∈ t.cmds, d.same c = false)
              ∧ (t.getHart n).done.getD ctx 0 = (s.getHart n).done.getD ctx 0 + 1
            (holds → c.status ≠ 2 → gives (.commandPublish n ctx) s)
            ∧ (c.state = .queued ∧ c.defect = false ∨ c.state = .partly ∧ c.owes = false → gives (.commandPublish n ctx) s)
            ∧ (runs → calm → ∃ t, ends t)
            ∧ (rejected → calm → row = [] ∧ s.efSpace c.cl = true ∨ row ≠ [] ∧ 16 ≤ row.length → ∃ t, ends t)
            ∧ (rejected → row ≠ [] ∨ s.efSpace c.cl = false → row.length < 16 → gives (.commandPublish n ctx)
                ((s.cmdRecord c 2 0 false false).putCmd { c with state := .finished, status := 3, bytes := 0 }))
            ∧ (owing → calm → ∃ t, gives (.commandPublish n ctx) t ∧ ∃ d ∈ t.cmds, d.same c = true ∧ d.owes = false)
            ∧ (owing → c.bad = false → ∀ a pa, crecOf c.words = some a →
                let ws : Writes := [(a, recordBytes c.seq c.words 1 c.bytes c.handle)]
                ws.fit s c.eng pa → ∃ t, gives (.commandPublish n ctx) t ∧ ws.done s.mem t.mem pa
                  ∧ ∃ d ∈ t.cmds, d.same c = true ∧ d.owes = false ∧ d.state = .partly)
            ∧ (runs → calm → c.job = none → c.corrected = true → (s.getHart n).task.map (·.id) = c.task →
                ∃ t, ends t ∧ (t.getHart n).chkAll.getLsbD 3 = true)
            ∧ (runs → c.state = .finished → c.bad = false → c.staging = [] → c.job = none → ∀ a pa, crecOf c.words = some a →
                let ws : Writes := [(a, recordBytes c.seq c.words c.status c.bytes c.aux.toNat)]
                ws.fit s c.eng pa → ∃ t, ends t ∧ ws.done s.mem t.mem pa)))
    ∧ (∀ c, c < 16 →
        (¬live ∨ tabGet [] s.held c = [] ∨ s.efSpace c = false → gives (.heldFaultRecordWrite c) s)
        ∧ (live → ∀ f r, tabGet [] s.held c = f :: r → s.efSpace c = true → ∃ t, gives (.heldFaultRecordWrite c) t
            ∧ tabGet [] t.held c = r ∧ t.mmioGet (efOff c 2) 0 = s.mmioGet (efOff c 2) 0 + 1))
    ∧ (s.current = none → ∀ d e l m k, gives (.residueMismatch d e k) s ∧ gives (.mirrorMismatch e l m) s)
    ∧ (∀ w d e k, s.current = some w →
        let shows := s.residueOk w d.toNat e.toNat (k.map (·.toNat))
        (shows = false → gives (.residueMismatch d e k) s)
        ∧ (shows = true → h.vec.strip = none → (∀ o, decode w ≠ .ok (.row (.vamo o))) → again (.residueMismatch d e k) 48 w))
    ∧ (∀ w e l m, s.current = some w →
        let shows := h.isVc && h.vec.prot && w % 64 == 0x1F && h.vec.mirrored l.toNat m.toNat && h.elemOk w e.toNat false true
        (shows = false → gives (.mirrorMismatch e l m) s)
        ∧ (shows = true → h.vec.strip = none → (∀ o, decode w ≠ .ok (.row (.vamo o))) → again (.mirrorMismatch e l m) 49 w))
    ∧ (∀ loc, quietLoc loc = true → gives (.eccCorrected loc) s)
    ∧ (∀ loc, quietLoc loc = false → (∀ l r b, loc ≠ .vecLane l r b) → (∀ n ctx b, loc ≠ .command n ctx b) →
        gives (.eccCorrected loc) { s with cpu := { h with chkint := h.chkint ||| 8 } })
    ∧ (∀ n ctx b,
        (oldest n ctx = none → gives (.eccCorrected (.command n ctx b)) s)
        ∧ ∀ c, oldest n ctx = some c →
          let reads := ctx = 3 ∨ ctx ≠ 3 ∧ transforms c.words = true
          (reads → gives (.eccCorrected (.command n ctx b)) (s.putCmd { c with corrected := true }))
          ∧ (¬reads → gives (.eccCorrected (.command n ctx b)) s))
    ∧ (∀ l r b, (h.isVc = false → gives (.eccCorrected (.vecLane l r b)) s ∧ gives (.eccUncorrectable (.vecLane l r b)) s)
        ∧ (h.isVc = true → (∃ t, gives (.eccCorrected (.vecLane l r b)) t ∧ t.cpu.chkint = h.chkint ||| 8
              ∧ t.cpu.vec = h.vec ∧ t.mem = s.mem)
            ∧ lost (.vecLane l r b) fun t => t.cpu.vec.store = h.vec.store
              ∧ ∀ x, x / h.vec.ewB = b / h.vec.ewB → vecKey r.toNat x ∈ t.cpu.vec.vpoison))
    ∧ (∀ loc code, (loc, code) ∈ [(EccLoc.l2Tag, (1 : BitVec 8)), (.dquEntry, 2), (.rcbCopy, 3), (.leaseTable, 4), (.faultPtr, 5)] →
        s.power.fatal = none → ∃ t, gives (.eccUncorrectable loc) t ∧ t.power.fatal = some code ∧ t.cmds = [])
    ∧ (∀ r, gives (.eccUncorrectable (.xReg r)) { s with cpu := h.poisonX r true })
    ∧ (∀ r : BitVec 5, gives (.eccUncorrectable (.fReg r)) { s with cpu := { h with fpoison := h.fpoison ||| ((1 : BitVec 32) <<< r.toNat) } })
    ∧ (∀ k g, lost (.keyReg k g) fun t => 32 * k.toNat + g.toNat ∈ t.cpu.vec.kpoison ∧ t.cpu.vec.keys = h.vec.keys)
    ∧ (∀ n, lost (.csr n) fun t => t.cpu.csrBad n.toNat = true ∧ t.cpu.csr = h.csr)
    ∧ (∀ cl row k, lost (.accElem cl row k) fun t => k ∈ (t.row cl row).apoison ∧ (t.row cl row).acc = (s.row cl row).acc)
    ∧ (∀ va, lost (.refetched va) fun t => t.cpu.chkint = h.chkint ||| 8 ∧ t.cpu.x = h.x
        ∧ ∀ e ∈ t.cpu.tlb, va < e.base ∨ e.base + e.size ≤ va)
    ∧ (∀ pa, plainMem s pa → lost (.sector pa) fun t => t.poisonedAt pa 1 = true)
    ∧ (∀ pa, (s.l2.tagOf (pa / 128) = none → gives (.eccUncorrectable (.l2Entry pa)) s)
        ∧ (s.l2.tagOf (pa / 128) ≠ none → lost (.l2Entry pa) fun t => t.poisonedAt pa 1 = true))
    ∧ (∀ k, (k ∈ bufSectors h.buf → gives (.eccUncorrectable (.buffered k)) { s with cpu := { h with buf := .mark k :: h.buf } })
        ∧ (k ∉ bufSectors h.buf → gives (.eccUncorrectable (.buffered k)) s))
    ∧ (∀ n ctx b,
        (oldest n ctx = none → gives (.eccUncorrectable (.command n ctx b)) s)
        ∧ ∀ c, oldest n ctx = some c →
          (c.state = .partly → gives (.eccUncorrectable (.command n ctx b)) (s.putCmd { c with missBad := true }))
          ∧ (c.state ≠ .partly → ∃ l, b ∈ l ∧ gives (.eccUncorrectable (.command n ctx b)) (s.putCmd { c with lost := l })))
    ∧ (∀ p sending, lost (.frame p sending) fun t => 2 * p + b2n sending ∈ t.ports.fhLost)
    ∧ gives .patrolScrub s

/-! ### The machine as a whole -/

/-- R312, R5, R49, R195, R196, R310: what a start leaves at its step 7, but for the verified image that R316 copies to LPDDR6 (the model's
reset leaves it out, logs 11 and 13). Every hart is in M-mode at the firmware entry point
(the address is the model's, log 1) and runs; every byte of memory, of vector storage and of the keys reads zero; every bank
is in CACHE mode with an empty queue, every strip buffer is empty; `srvrole`, `mcounteren` and `scounteren` are 0, `lanemap` is all ones, `vcfg` selects EW 32 and 32
registers; the DQU holds no job and no task; every counter advances by TINC's reset value; memory has its canonical form. -/
def Obligations.ResetLeavesTheStartValues : Prop :=
  let s := State.reset
  Memory.wf s.mem = true
  ∧ (∀ a, memByte s.mem a = 0)
  ∧ (∀ n, n < 3328 → (s.getHart n).num = n ∧ (s.getHart n).mode = .m ∧ (s.getHart n).pc = Config.firmwareEntry
      ∧ (s.getHart n).runs = true ∧ (s.getHart n).srvrole = 0 ∧ (s.getHart n).vec.lanemap = 0xFFFFFFFF
      ∧ (s.getHart n).csr.mcounteren = 0 ∧ (s.getHart n).csr.scounteren = 0 ∧ (s.getHart n).vec.vcfg = 0x40A
      ∧ (s.getHart n).vec.vl = 0 ∧ (s.getHart n).ctags = 0 ∧ (s.getHart n).vec.strip = none ∧ (s.getHart n).buf = []
      ∧ (∀ reg b, (s.getHart n).vec.byte reg b = 0) ∧ ∀ k j, (s.getHart n).vec.keyBit k j = false)
  ∧ (∀ c b, (s.bank c b).mode = modeCache ∧ (s.bank c b).level = 0 ∧ (s.bank c b).popped = 0)
  ∧ (∀ c r i, tabGet 0 (s.row c r).acc i = 0)
  ∧ s.dqu.jobs = [] ∧ s.dqu.queue = [] ∧ s.cmds = [] ∧ s.inflight = []
  ∧ ∀ n, (s.counter n).inc = 0x0086BCA1AF ∧ (s.counter n).locked = false

/-- R312, R80, R150, R151, R16, R152: with nothing due, the hart whose turn it is running, no trap of it waiting and no chain of its
row: a turn of the agenda that runs the hart, or a step with an empty agenda (after which the agenda begins again with its round: agenda
and round are the model's choice of the order among harts, engines and the surroundings, log 12), fetches at the
pc, decodes, and runs the instruction it decoded, then applies the lookahead rules of R162 and R163, which change nothing while no
window is open and none opens. Bytes that decode to nothing raise the illegal-instruction exception with their bits. In
M-mode, at an LPDDR6 address whose bytes are not poisoned, the fetch reads the bytes at the pc, through the L2.
A standard integer instruction that computes writes its result to x[rd], as `aluResult` and `unaryResult` state it, and moves on; `lui`,
`auipc`, the link of `jal` and `jalr`, and the targets of jumps and taken branches are as RV64I has them. Each changes no other x
register, x0 included, and nothing else of the machine but the pc, the count of retired instructions, the marks of poison, which a
result takes from its operands (R361, R362), and the hart's wait. A poisoned operand of a branch or of `jalr` raises cause 48 (R363). -/
def Obligations.StepRunsTheDecodedInstruction : Prop :=
  (∀ (s t : State) (w : Nat), s.due = none → s.power.stopped = false → s.cpu.runs = true → s.cpu.trap = none → s.inChain = false →
      s.fetch = .bits w false t →
      let stepIs := fun (r : Host.Outcome State Fault Refusal) =>
        (s.agenda = [] → step s = refill r) ∧ step { s with agenda := .run :: s.agenda } = r
      (∀ i, decode w = .ok (.row i) →
        stepIs (withLookahead (instrLen i) (instrUse i t.cpu) (closesWindow i) (opensWindow i) t (exec i t))
        ∧ (t.cpu.la = [] → opensWindow i = 0 → stepIs (exec i t)))
      ∧ (∀ b form, decode w = .ok (.base b form) →
        stepIs (withLookahead form.len (baseUse b) (baseCloses b t.cpu) 0 t (execBase b form w t))
        ∧ (t.cpu.la = [] → stepIs (execBase b form w t)))
      ∧ ∀ e, decode w = .error e → stepIs (.next (t.takeTrap (.plain 2 (BitVec.ofNat 64 e.bits)) e.bits)))
  ∧ (∀ (s : State) (n : Nat), s.cpu.mode = .m → s.cpu.pc.toNat + 8 ≤ 0x4000000000 →
      s.poisonedAt s.cpu.pc.toNat 8 = false → parcelLen (memRead s.mem s.cpu.pc.toNat 2) = some n →
      ∃ asked, s.fetch = .bits (memRead s.mem s.cpu.pc.toNat n) false (s.asking asked))
  ∧ ∀ (s : State) (b : Base) (form : Form) (bits : Nat),
      let h := s.cpu
      let gives := fun (t : State) => execBase b form bits s = .next t
      let next := h.pc + BitVec.ofNat 64 form.len
      let done := fun (pc : Word) (write : Option (Reg × Word)) (bad : Bool) => ∃ g : Hart,
        gives { s with cpu := { h with
          pc := pc, x := g.x, xpoison := g.xpoison, chkint := if bad then h.chkint ||| 1 else h.chkint
          csr := { h.csr with minstret := h.csr.minstret + 1 }
          wait := none, progress := 0, attempts := 0, posting := none } }
        ∧ (∀ r, g.xr r = match write with | some (rd, v) => if r = rd ∧ r ≠ 0 then v else h.xr r | none => h.xr r)
        ∧ ∀ r, g.xPoisoned r = match write with | some (rd, _) => if r = rd ∧ r ≠ 0 then bad else h.xPoisoned r | none => h.xPoisoned r
      let cause48 := ∃ x : Exc, x.cause = 48 ∧ x.mc ≠ none ∧ gives (s.takeTrap x (bits % 2 ^ 64))
      let upper := fun (imm : BitVec 20) => (imm ++ (0 : BitVec 12)).signExtend 64
      match b with
      | .regOp op rd a c => done next (some (rd, aluResult op (h.xr a) (h.xr c))) (h.xPoisoned a || h.xPoisoned c)
      | .immOp op rd a imm => done next (some (rd, aluResult op (h.xr a) imm)) (h.xPoisoned a)
      | .unary op rd a => ∃ y, unaryResult op (h.xr a) y ∧ done next (some (rd, y)) (h.xPoisoned a)
      | .lui rd imm => done next (some (rd, upper imm)) false
      | .auipc rd imm => done next (some (rd, h.pc + upper imm)) false
      | .jal rd off => done (h.pc + off.signExtend 64) (some (rd, next)) false
      | .jalr rd a imm =>
        (h.xPoisoned a = true → cause48)
        ∧ (h.xPoisoned a = false → done ((h.xr a + imm.signExtend 64) &&& ~~~(1 : Word)) (some (rd, next)) false)
      | .branch op a c off =>
        (h.xPoisoned a = true ∨ h.xPoisoned c = true → cause48)
        ∧ (h.xPoisoned a = false → h.xPoisoned c = false →
          (branchTaken op (h.xr a) (h.xr c) → done (h.pc + off.signExtend 64) none false)
          ∧ (¬branchTaken op (h.xr a) (h.xr c) → done next none false))

/-- R150, R152 to R159: the words of these encodings decode to the instructions they stand for: `tnow t1`, `jspawnn t0, t1, t2`,
`vstripi t2, 64`, `scfence` of scope DEVICE, `vfma v6, v4, v3, v5`, `vld v4, (a0)` in E4M3 under k2 with LA 3, and the standard
`addi a0, a0, 1`, its compressed form, `ecall` and `mret`; the all-zero parcel and a 64-bit encoding decode to nothing. -/
def Obligations.EncodingsDecodeAsTabulated : Prop :=
  decode 0x1E00030B = .ok (.row (.tnow 6))
  ∧ decode 0x1273028B = .ok (.row (.jspawnn 5 6 7))
  ∧ decode 0x0400238B = .ok (.row (.vstripi 7 64))
  ∧ decode 0x7020000B = .ok (.row (.scfence 2))
  ∧ decode 0x00143106101F = .ok (.row (.vfma ⟨0, false, 0, false, 0, 5, 3, 4, 6⟩))
  ∧ decode 0x32000284031F = .ok (.row (.vld ⟨3, false, 2, false, 1, 0, 0, 10, 4⟩))
  ∧ decode 0x00150513 = .ok (.base (.immOp .add 10 10 1) .w32)
  ∧ decode 0x0505 = .ok (.base (.immOp .add 10 10 1) (.c16 0x0505))
  ∧ decode 0x00000073 = .ok (.row .ecall)
  ∧ decode 0x30200073 = .ok (.row .mret)
  ∧ decode 0 = .error (.reservedParcel 0)
  ∧ decode 0x0000003F = .error (.tooLong 0x3F)

/-- R150, R153 to R159: decoding and encoding agree on every instruction of the table that has an encoding. The bits of a
well-formed instruction in its own form (not a parcel of the C extension), whatever follows them, decode to it, with every
operand at every value; the decoder reads it alone from the table's bits; its bits fill four or six bytes. The same holds of every
well-formed standard integer instruction (R152), whose bits fill four bytes. -/
def Obligations.DecodeOfEncode : Prop :=
  (∀ (i : Instr) (n w after : Nat), i.wf = true → encode i = some (n, w) → n ≠ 2 →
    (n = 4 ∨ n = 6) ∧ w < 2 ^ (8 * n)
    ∧ decode (w + 2 ^ (8 * n) * after) = .ok (.row i)
    ∧ decodeTableWord (8 * n) w = some i)
  ∧ ∀ (b : Base) (after : Nat), b.ok = true →
    b.encode < 2 ^ 32 ∧ decode (b.encode + 2 ^ 32 * after) = .ok (.base b .w32)

/-- R150 to R159: what decodes is well formed, and no bit of it is dropped: whenever bytes decode to an instruction of the table,
that instruction obeys the field rules, and its encoding is those bytes. Two different words of one length therefore never
decode to one instruction. The same holds of the standard integer instructions; one that a 16-bit parcel stands for keeps the parcel, and its
own 32 bits decode to it too (R152). -/
def Obligations.EncodeOfDecode : Prop :=
  (∀ (w : Nat) (i : Instr), decode w = .ok (.row i) →
    i.wf = true ∧ ∃ n, (n = 2 ∨ n = 4 ∨ n = 6) ∧ encode i = some (n, w % 2 ^ (8 * n)))
  ∧ ∀ (w : Nat) (b : Base) (form : Form), decode w = .ok (.base b form) →
    b.ok = true ∧ form.ok = true ∧ decode b.encode = .ok (.base b .w32)
    ∧ ∃ n, (n = 2 ∨ n = 4) ∧ form.pack b.encode = (n, w % 2 ^ (8 * n))

/-- What every step, of a hart, of a device and of the environment, keeps from every state that has it: the memory's canonical form,
so that memories that read alike are equal (the representation is the model's; R5, R30 give the bytes); in every bank, a queue of
at most 0x40000 bytes, and not more of them popped than it holds (R87); and in every hart's strip buffer, stores to at most
512 sectors (R51, R336). -/
def Obligations.EveryStepKeepsMemoryCanonical : Prop :=
  ∀ (s t : State), step s = .next t →
    (Memory.wf s.mem = true → Memory.wf t.mem = true)
    ∧ ((∀ c b, (s.bank c b).level ≤ 0x40000 ∧ (s.bank c b).popped ≤ (s.bank c b).level) →
        ∀ c b, (t.bank c b).level ≤ 0x40000 ∧ (t.bank c b).popped ≤ (t.bank c b).level)
    ∧ ((∀ n, (bufSectors (s.getHart n).buf).length ≤ 512) → ∀ n, (bufSectors (t.getHart n).buf).length ≤ 512)
end

