-- ==== Sys2Proof/Laws/Memory.lean ====
section
/-! SUPPORT. Sparse tables and memory: a read after a write, a write leaves every other key alone, and every operation keeps
the canonical form. -/

namespace Sys2Proof.Machine

variable {α : Type}

/-- The canonical form holds from any smaller bound. -/
theorem tabWf_mono [DecidableEq α] (d : α) {lo lo' : Nat} (t : Tab α) (h : tabWf d lo t = true) (hl : lo' ≤ lo) :
    tabWf d lo' t = true := by
  cases t with
  | nil => rfl
  | cons p r =>
    simp only [tabWf, Bool.and_eq_true, decide_eq_true_eq] at h ⊢
    exact ⟨⟨by omega, h.1.2⟩, h.2⟩

/-- Inserting a value other than the default keeps the canonical form. -/
theorem tabWf_insert [DecidableEq α] (d : α) (t : Tab α) (lo k : Nat) (v : α) (h : tabWf d lo t = true) (hk : lo ≤ k)
    (hv : v ≠ d) : tabWf d lo (tabInsert t k v) = true := by
  induction t generalizing lo with
  | nil => simp [tabInsert, tabWf, hk, hv]
  | cons p r ih =>
    simp only [tabWf, Bool.and_eq_true, decide_eq_true_eq] at h
    simp only [tabInsert]
    split
    · subst_vars; simp [tabWf, hk, hv, h.2]
    · split
      · simp only [tabWf, Bool.and_eq_true, decide_eq_true_eq]
        exact ⟨⟨hk, hv⟩, ⟨by omega, h.1.2⟩, h.2⟩
      · simp only [tabWf, Bool.and_eq_true, decide_eq_true_eq]
        exact ⟨h.1, ih _ h.2 (by omega)⟩

/-- Dropping listed keys keeps the canonical form. -/
theorem tabWf_filter [DecidableEq α] (d : α) (p : Nat × α → Bool) (t : Tab α) (lo : Nat) (h : tabWf d lo t = true) :
    tabWf d lo (t.filter p) = true := by
  induction t generalizing lo with
  | nil => rfl
  | cons c r ih =>
    simp only [tabWf, Bool.and_eq_true, decide_eq_true_eq] at h
    rw [List.filter_cons]
    split
    · simp only [tabWf, Bool.and_eq_true, decide_eq_true_eq]
      exact ⟨h.1, ih _ h.2⟩
    · exact tabWf_mono d _ (ih _ h.2) (by omega)

/-- Erasing a key keeps the canonical form. -/
theorem tabWf_erase [DecidableEq α] (d : α) (t : Tab α) (lo k : Nat) (h : tabWf d lo t = true) :
    tabWf d lo (tabErase t k) = true := tabWf_filter d _ t lo h

/-- Every store keeps the canonical form. -/
theorem tabWf_set [DecidableEq α] (d : α) (t : Tab α) (k : Nat) (v : α) (h : tabWf d 0 t = true) :
    tabWf d 0 (tabSet d t k v) = true := by
  unfold tabSet
  split
  · exact tabWf_erase d t 0 k h
  · exact tabWf_insert d t 0 k v h (Nat.zero_le _) ‹_›

/-- A read of an inserted key gives its value; other keys read as before. -/
theorem tabGet_insert (d : α) (t : Tab α) (k j : Nat) (v : α) :
    tabGet d (tabInsert t k v) j = if j = k then v else tabGet d t j := by
  induction t with
  | nil =>
    simp only [tabInsert, tabGet]
    by_cases h : j = k
    · simp [h]
    · rw [if_neg (Ne.symm h), if_neg h]
  | cons p r ih =>
    obtain ⟨a, w⟩ := p
    simp only [tabInsert]
    by_cases h1 : a = k
    · subst h1
      simp only [↓reduceIte, tabGet]
      by_cases h : j = a
      · simp [h]
      · rw [if_neg (Ne.symm h), if_neg h, if_neg (Ne.symm h)]
    · rw [if_neg h1]
      by_cases h2 : k < a
      · rw [if_pos h2]
        simp only [tabGet]
        by_cases h : j = k
        · simp [h]
        · rw [if_neg (Ne.symm h), if_neg h]
      · rw [if_neg h2]
        simp only [tabGet, ih]
        by_cases h : j = k
        · subst h; rw [if_neg h1]; simp
        · simp only [if_neg h]

/-- A read of an erased key gives the default; other keys read as before. -/
theorem tabGet_erase (d : α) (t : Tab α) (k j : Nat) :
    tabGet d (tabErase t k) j = if j = k then d else tabGet d t j := by
  induction t with
  | nil => simp [tabErase, tabGet]
  | cons p r ih =>
    obtain ⟨a, w⟩ := p
    simp only [tabErase] at ih
    simp only [tabErase, List.filter_cons]
    by_cases h1 : a = k
    · subst h1
      simp only [bne_self_eq_false, Bool.false_eq_true, ↓reduceIte, tabGet, ih]
      by_cases hj : j = a
      · simp [hj]
      · rw [if_neg hj, if_neg hj, if_neg (Ne.symm hj)]
    · rw [if_pos (by simpa using h1)]
      simp only [tabGet, ih]
      by_cases hj : j = k
      · subst hj; rw [if_neg h1]; simp
      · simp only [if_neg hj]

/-- A read after a store, at the key stored to and at every other. -/
theorem tabGet_set [DecidableEq α] (d : α) (t : Tab α) (k j : Nat) (v : α) :
    tabGet d (tabSet d t k v) j = if j = k then v else tabGet d t j := by
  unfold tabSet
  split
  · subst_vars; exact tabGet_erase _ t k j
  · exact tabGet_insert d t k j v

/-- Memory with nothing listed is canonical. -/
theorem memory_wf_nil : Memory.wf [] = true := rfl

/-- A byte's store keeps memory canonical. -/
theorem memSetByte_wf (m : Memory) (a : Nat) (b : Byte) (h : m.wf = true) : Memory.wf (memSetByte m a b) = true :=
  tabWf_set memDefault m a b h

/-- A read after a byte's store. -/
theorem memByte_set (m : Memory) (a x : Nat) (b : Byte) :
    memByte (memSetByte m a b) x = if x = a then b else memByte m x :=
  tabGet_set memDefault m a x b

/-- A list's store keeps memory canonical. -/
theorem memSetBytes_wf (m : Memory) (a : Nat) (l : List Byte) (h : m.wf = true) :
    Memory.wf (memSetBytes m a l) = true := by
  induction l generalizing m a with
  | nil => exact h
  | cons b r ih => exact ih _ _ (memSetByte_wf m a b h)

/-- Every byte outside a list's store reads as before. -/
theorem memByte_setBytes_outside (m : Memory) (a x : Nat) (l : List Byte)
    (hx : x < a ∨ a + l.length ≤ x) : memByte (memSetBytes m a l) x = memByte m x := by
  induction l generalizing m a with
  | nil => rfl
  | cons b r ih =>
    simp only [List.length_cons] at hx
    rw [memSetBytes, ih _ _ (by omega), memByte_set m a x b, if_neg (by omega)]

/-- Every byte of a list's store reads as the list says. -/
theorem memByte_setBytes_inside (m : Memory) (a i : Nat) (l : List Byte) (hi : i < l.length) :
    memByte (memSetBytes m a l) (a + i) = l[i] := by
  induction l generalizing m a i with
  | nil => simp at hi
  | cons b r ih =>
    cases i with
    | zero =>
      rw [memSetBytes, memByte_setBytes_outside _ _ _ _ (by omega), Nat.add_zero, memByte_set m a a b]
      simp
    | succ i =>
      rw [memSetBytes]
      have := ih (memSetByte m a b) (a + 1) i (by simpa using hi)
      rw [show a + (i + 1) = a + 1 + i by omega, this]
      rfl

/-- The n little-endian bytes of a number are n. -/
@[simp] theorem bytesOf_length (n v : Nat) : (bytesOf n v).length = n := by
  induction n generalizing v with
  | zero => rfl
  | succ n ih => simp [bytesOf, ih]

/-- A number's store keeps memory canonical. -/
theorem memWrite_wf (m : Memory) (a n v : Nat) (h : m.wf = true) : Memory.wf (memWrite m a n v) = true :=
  memSetBytes_wf m a _ h

/-- Every byte outside a number's store reads as before. -/
theorem memByte_write_outside (m : Memory) (a n v x : Nat) (hx : x < a ∨ a + n ≤ x) :
    memByte (memWrite m a n v) x = memByte m x :=
  memByte_setBytes_outside m a x _ (by simpa using hx)

/-- Zeroing a range keeps memory canonical. -/
theorem memZero_wf (m : Memory) (lo hi : Nat) (h : m.wf = true) : Memory.wf (memZero m lo hi) = true :=
  tabWf_filter memDefault _ m 0 h

/-- The little-endian bytes of a number give it back, below their range. -/
theorem ofBytes_bytesOf (n v : Nat) : ofBytes (bytesOf n v) = v % 256 ^ n := by
  induction n generalizing v with
  | zero => simp [bytesOf, ofBytes, Nat.mod_one]
  | succ n ih =>
    simp only [bytesOf, ofBytes, ih, BitVec.toNat_ofNat]
    rw [show (2 : Nat) ^ 8 = 256 by rfl, pow_succ', Nat.mod_mul]

/-- Bytes read where a list was stored are the list. -/
theorem memBytes_setBytes (m : Memory) (a : Nat) (l : List Byte) : memBytes (memSetBytes m a l) a l.length = l := by
  induction l generalizing m a with
  | nil => rfl
  | cons b r ih =>
    simp only [List.length_cons, memBytes, memSetBytes]
    rw [ih, memByte_setBytes_outside _ _ _ _ (by omega), memByte_set m a a b]
    simp

/-- A read after a write of the same bytes gives the value written. -/
theorem memRead_write (m : Memory) (a n v : Nat) : memRead (memWrite m a n v) a n = v % 256 ^ n := by
  have := memBytes_setBytes m a (bytesOf n v)
  rw [bytesOf_length] at this
  rw [memRead, memWrite, this, ofBytes_bytesOf]

end Sys2Proof.Machine
end

