-- ==== Sys2Proof/Laws/Monad.lean ====
section
/-! SUPPORT. What the bodies of meanings do when they run, one equation for each primitive, so that no proof unfolds the
monad. -/

namespace Sys2Proof.Machine

variable {α β : Type}

/-- Runs a body: its outcome and the state it leaves. -/
abbrev runM (m : M α) (s : State) : Except Stop α × State := m.run.run s

@[simp] theorem runM_pure (a : α) (s : State) : runM (pure a : M α) s = (.ok a, s) := rfl

/-- The outcome of a sequence. -/
theorem runM_bind (m : M α) (f : α → M β) (s : State) :
    runM (m >>= f) s = match runM m s with | (.ok a, t) => runM (f a) t | (.error e, t) => (.error e, t) := by
  show (ExceptT.bind m f).run.run s = _
  unfold ExceptT.bind
  show StateT.run (m.run >>= ExceptT.bindCont f) s = _
  rw [StateT.run_bind]
  cases h : StateT.run m.run s with
  | mk r t =>
    rw [show runM m s = (r, t) from h]
    cases r <;> rfl

theorem runM_bind_ok {m : M α} {f : α → M β} {s t : State} {a : α} (h : runM m s = (.ok a, t)) :
    runM (m >>= f) s = runM (f a) t := by rw [runM_bind, h]

theorem runM_bind_error {m : M α} {f : α → M β} {s t : State} {e : Stop} (h : runM m s = (.error e, t)) :
    runM (m >>= f) s = (.error e, t) := by rw [runM_bind, h]

@[simp] theorem runM_get (s : State) : runM (get : M State) s = (.ok s, s) := rfl
@[simp] theorem runM_set (t s : State) : runM (set t : M PUnit) s = (.ok (), t) := rfl
@[simp] theorem runM_modify (f : State → State) (s : State) : runM (modify f : M PUnit) s = (.ok (), f s) := rfl
@[simp] theorem runM_throw (e : Stop) (s : State) : runM (throw e : M α) s = (.error e, s) := rfl
@[simp] theorem runM_cpu (s : State) : runM cpu s = (.ok s.cpu, s) := rfl
@[simp] theorem runM_modCpu (f : Hart → Hart) (s : State) : runM (modCpu f) s = (.ok (), { s with cpu := f s.cpu }) := rfl
@[simp] theorem runM_modCsr (f : Csrs → Csrs) (s : State) :
    runM (modCsr f) s = (.ok (), { s with cpu := { s.cpu with csr := f s.cpu.csr } }) := rfl
@[simp] theorem runM_modVec (f : Vec → Vec) (s : State) :
    runM (modVec f) s = (.ok (), { s with cpu := { s.cpu with vec := f s.cpu.vec } }) := rfl
@[simp] theorem runM_getX (r : Reg) (s : State) : runM (getX r) s = (.ok (s.cpu.xr r), s) := rfl
@[simp] theorem runM_putX (r : Reg) (v : Word) (s : State) :
    runM (putX r v) s = (.ok (), { s with cpu := s.cpu.setX r v }) := rfl
@[simp] theorem runM_putXp (r : Reg) (v : Word) (p : Bool) (s : State) :
    runM (putXp r v p) s = (.ok (), { s with cpu := s.cpu.setXp r v p }) := rfl
@[simp] theorem runM_illegal (s : State) : runM (illegal : M α) s = (.error (.excBits 2), s) := rfl
@[simp] theorem runM_raise (c : Nat) (v : Word) (s : State) :
    runM (raise c v : M α) s = (.error (.exc (.plain c v)), s) := rfl
@[simp] theorem runM_raiseAt (c : Nat) (v : Word) (e : Option Nat) (s : State) :
    runM (raiseAt c v e : M α) s = (.error (.exc { Exc.plain c v with elem := e }), s) := rfl
@[simp] theorem runM_waitFor (o : WaitOn) (v : Word) (n : Nat) (s : State) :
    runM (waitFor o v n : M α) s = (.error (.wait ⟨o, v, n, false⟩), s) := rfl
@[simp] theorem runM_waitTimed (o : WaitOn) (v : Word) (n : Nat) (s : State) :
    runM (waitTimed o v n : M α) s = (.error (.wait ⟨o, v, n, true⟩), s) := rfl
@[simp] theorem runM_advance (n : Nat) (s : State) :
    runM (advance n) s = (.ok (), { s with cpu := s.cpu.advance n }) := rfl
@[simp] theorem runM_freshWord (s : State) :
    runM freshWord s = (.ok (Config.freeWord s.free), { s with free := s.free + 1 }) := rfl

theorem runM_need (b : Bool) (s : State) :
    runM (need b) s = if b then (.ok (), s) else (.error (.excBits 2), s) := by cases b <;> rfl
@[simp] theorem runM_need_true (s : State) : runM (need true) s = (.ok (), s) := rfl
@[simp] theorem runM_need_false (s : State) : runM (need false) s = (.error (.excBits 2), s) := rfl

theorem runM_onVc (s : State) : runM onVc s = if s.cpu.isVc then (.ok (), s) else (.error (.excBits 2), s) := by
  unfold onVc; rw [runM_bind_ok (runM_cpu s), runM_need]

theorem runM_onSc (s : State) : runM onSc s = if s.cpu.isVc then (.error (.excBits 2), s) else (.ok (), s) := by
  unfold onSc; rw [runM_bind_ok (runM_cpu s), runM_need]; cases s.cpu.isVc <;> rfl

/-- A running task outside a handler activation passes the check for one. -/
theorem runM_inTask_ok (s : State) (t : TaskRun) (h : s.cpu.run = .task t) (ha : s.cpu.act = none) :
    runM inTask s = (.ok t, s) := by
  unfold inTask
  rw [runM_bind_ok (runM_cpu s)]
  simp only [Hart.task, h, ha]
  rfl

/-- Without a running task the instruction is illegal. -/
theorem runM_inTask_none (s : State) (h : s.cpu.task = none) : runM inTask s = (.error (.excBits 2), s) := by
  unfold inTask
  rw [runM_bind_ok (runM_cpu s)]
  simp only [h]
  rfl

/-- An unpoisoned register passes for any use. -/
theorem runM_useX (r : Reg) (s : State) (h : s.cpu.xPoisoned r = false) : runM (useX r) s = (.ok (s.cpu.xr r), s) := by
  unfold useX
  rw [runM_bind_ok (runM_cpu s)]
  simp only [h]
  rfl

@[simp] theorem runM_consume (p : Bool) (s : State) : runM (consume p) s = (.ok (), { s with cpu := s.cpu.eats p }) := rfl
@[simp] theorem runM_dataX (r : Reg) (s : State) :
    runM (dataX r) s = (.ok (s.cpu.xr r, s.cpu.xPoisoned r), { s with cpu := s.cpu.eats (s.cpu.xPoisoned r) }) := rfl

/-- What a body's outcome makes of the machine. -/
theorem run_ok {bits : Word} {m : M Unit} {s t : State} (h : runM m s = (.ok (), t)) : run bits m s = .next t := by
  unfold run finish; rw [show m.run.run s = (.ok (), t) from h]

theorem run_illegal {bits : Word} {m : M Unit} {s t : State} {c : Nat} (h : runM m s = (.error (.excBits c), t)) :
    run bits m s = .next (t.takeTrap (.plain c bits) bits.toNat) := by
  unfold run finish; rw [show m.run.run s = (.error (.excBits c), t) from h]

theorem run_exc {bits : Word} {m : M Unit} {s t : State} {e : Exc} (h : runM m s = (.error (.exc e), t)) :
    run bits m s = .next (t.takeTrap e bits.toNat) := by
  unfold run finish; rw [show m.run.run s = (.error (.exc e), t) from h]

theorem run_wait {bits : Word} {m : M Unit} {s t : State} {w : Wait} (h : runM m s = (.error (.wait w), t)) :
    run bits m s = .next { t with cpu := { t.cpu with wait := some (w.timedBy bits.toNat) } } := by
  unfold run finish; rw [show m.run.run s = (.error (.wait w), t) from h]

theorem run_ended {bits : Word} {m : M Unit} {s t : State} (h : runM m s = (.error .ended, t)) :
    run bits m s = .next t := by
  unfold run finish; rw [show m.run.run s = (.error .ended, t) from h]

/-- An instruction whose body completes advances the pc past it. -/
theorem instr_ok {i : Instr} {m : M Unit} {s t : State} (h : runM m s = (.ok (), t)) :
    instr i m s = .next { t with cpu := t.cpu.advance (instrLen i) } := by
  unfold instr; exact run_ok (by rw [runM_bind_ok h]; rfl)

/-- An instruction whose body is illegal traps with its own bits. -/
theorem instr_illegal {i : Instr} {m : M Unit} {s t : State} {c : Nat} (h : runM m s = (.error (.excBits c), t)) :
    instr i m s = .next (t.takeTrap (.plain c (instrBits i)) (instrBits i).toNat) := by
  unfold instr; exact run_illegal (by rw [runM_bind_error h])

/-- Every body ends in a next state. -/
theorem run_next (bits : Word) (m : M Unit) (s : State) : ∃ t, run bits m s = .next t := by
  unfold run finish
  split <;> exact ⟨_, rfl⟩

/-- Every instruction written as a body ends in a next state. -/
theorem instr_next (i : Instr) (m : M Unit) (s : State) : ∃ t, instr i m s = .next t := run_next _ _ s

end Sys2Proof.Machine
end

