-- ==== Sys2Proof/Laws/State.lean ====
section
/-! SUPPORT. One lemma for each field and each update of a hart or of the machine: what the update leaves alone, and what
it writes. No later proof unfolds a record update. -/

namespace Sys2Proof.Machine


/-! ### `Hart.advance` -/

@[simp] theorem Hart.advance_num (h : Hart) (n : Nat) : (h.advance n).num = h.num := rfl
@[simp] theorem Hart.advance_run (h : Hart) (n : Nat) : (h.advance n).run = h.run := rfl
@[simp] theorem Hart.advance_pc (h : Hart) (n : Nat) : (h.advance n).pc = h.pc + BitVec.ofNat 64 n := rfl
@[simp] theorem Hart.advance_x (h : Hart) (n : Nat) : (h.advance n).x = h.x := rfl
@[simp] theorem Hart.advance_xAlt (h : Hart) (n : Nat) : (h.advance n).xAlt = h.xAlt := rfl
@[simp] theorem Hart.advance_act (h : Hart) (n : Nat) : (h.advance n).act = h.act := rfl
@[simp] theorem Hart.advance_f (h : Hart) (n : Nat) : (h.advance n).f = h.f := rfl
@[simp] theorem Hart.advance_frm (h : Hart) (n : Nat) : (h.advance n).frm = h.frm := rfl
@[simp] theorem Hart.advance_fflags (h : Hart) (n : Nat) : (h.advance n).fflags = h.fflags := rfl
@[simp] theorem Hart.advance_mode (h : Hart) (n : Nat) : (h.advance n).mode = h.mode := rfl
@[simp] theorem Hart.advance_csr (h : Hart) (n : Nat) : (h.advance n).csr = { h.csr with minstret := h.csr.minstret + 1 } := rfl
@[simp] theorem Hart.advance_vec (h : Hart) (n : Nat) : (h.advance n).vec = h.vec := rfl
@[simp] theorem Hart.advance_ovf (h : Hart) (n : Nat) : (h.advance n).ovf = h.ovf := rfl
@[simp] theorem Hart.advance_ovfBad (h : Hart) (n : Nat) : (h.advance n).ovfBad = h.ovfBad := rfl
@[simp] theorem Hart.advance_rngkey (h : Hart) (n : Nat) : (h.advance n).rngkey = h.rngkey := rfl
@[simp] theorem Hart.advance_rngctr (h : Hart) (n : Nat) : (h.advance n).rngctr = h.rngctr := rfl
@[simp] theorem Hart.advance_chkint (h : Hart) (n : Nat) : (h.advance n).chkint = h.chkint := rfl
@[simp] theorem Hart.advance_chkPend (h : Hart) (n : Nat) : (h.advance n).chkPend = h.chkPend := rfl
@[simp] theorem Hart.advance_ctags (h : Hart) (n : Nat) : (h.advance n).ctags = h.ctags := rfl
@[simp] theorem Hart.advance_tbudget (h : Hart) (n : Nat) : (h.advance n).tbudget = h.tbudget := rfl
@[simp] theorem Hart.advance_jobrcb (h : Hart) (n : Nat) : (h.advance n).jobrcb = h.jobrcb := rfl
@[simp] theorem Hart.advance_srvrole (h : Hart) (n : Nat) : (h.advance n).srvrole = h.srvrole := rfl
@[simp] theorem Hart.advance_mcrec0 (h : Hart) (n : Nat) : (h.advance n).mcrec0 = h.mcrec0 := rfl
@[simp] theorem Hart.advance_mcrec1 (h : Hart) (n : Nat) : (h.advance n).mcrec1 = h.mcrec1 := rfl
@[simp] theorem Hart.advance_mcrec2 (h : Hart) (n : Nat) : (h.advance n).mcrec2 = h.mcrec2 := rfl
@[simp] theorem Hart.advance_mcrec3 (h : Hart) (n : Nat) : (h.advance n).mcrec3 = h.mcrec3 := rfl
@[simp] theorem Hart.advance_posted (h : Hart) (n : Nat) : (h.advance n).posted = h.posted := rfl
@[simp] theorem Hart.advance_done (h : Hart) (n : Nat) : (h.advance n).done = h.done := rfl
@[simp] theorem Hart.advance_resv (h : Hart) (n : Nat) : (h.advance n).resv = h.resv := rfl
@[simp] theorem Hart.advance_wait (h : Hart) (n : Nat) : (h.advance n).wait = none := rfl
@[simp] theorem Hart.advance_progress (h : Hart) (n : Nat) : (h.advance n).progress = 0 := rfl
@[simp] theorem Hart.advance_attempts (h : Hart) (n : Nat) : (h.advance n).attempts = 0 := rfl
@[simp] theorem Hart.advance_nest (h : Hart) (n : Nat) : (h.advance n).nest = h.nest := rfl
@[simp] theorem Hart.advance_trap (h : Hart) (n : Nat) : (h.advance n).trap = h.trap := rfl
@[simp] theorem Hart.advance_posting (h : Hart) (n : Nat) : (h.advance n).posting = none := rfl
@[simp] theorem Hart.advance_prefetch (h : Hart) (n : Nat) : (h.advance n).prefetch = h.prefetch := rfl
@[simp] theorem Hart.advance_queues (h : Hart) (n : Nat) : (h.advance n).queues = h.queues := rfl
@[simp] theorem Hart.advance_tlb (h : Hart) (n : Nat) : (h.advance n).tlb = h.tlb := rfl
@[simp] theorem Hart.advance_buf (h : Hart) (n : Nat) : (h.advance n).buf = h.buf := rfl
@[simp] theorem Hart.advance_pops (h : Hart) (n : Nat) : (h.advance n).pops = h.pops := rfl
@[simp] theorem Hart.advance_matFaults (h : Hart) (n : Nat) : (h.advance n).matFaults = h.matFaults := rfl
@[simp] theorem Hart.advance_la (h : Hart) (n : Nat) : (h.advance n).la = h.la := rfl
@[simp] theorem Hart.advance_winDone (h : Hart) (n : Nat) : (h.advance n).winDone = h.winDone := rfl
@[simp] theorem Hart.advance_xpoison (h : Hart) (n : Nat) : (h.advance n).xpoison = h.xpoison := rfl
@[simp] theorem Hart.advance_fpoison (h : Hart) (n : Nat) : (h.advance n).fpoison = h.fpoison := rfl
@[simp] theorem Hart.advance_cpoison (h : Hart) (n : Nat) : (h.advance n).cpoison = h.cpoison := rfl
@[simp] theorem Hart.advance_eccSeen (h : Hart) (n : Nat) : (h.advance n).eccSeen = h.eccSeen := rfl

/-! ### `Hart.setX` -/

@[simp] theorem Hart.setX_num (h : Hart) (r : Reg) (v : Word) : (h.setX r v).num = h.num := by unfold Hart.setX; split <;> rfl
@[simp] theorem Hart.setX_run (h : Hart) (r : Reg) (v : Word) : (h.setX r v).run = h.run := by unfold Hart.setX; split <;> rfl
@[simp] theorem Hart.setX_pc (h : Hart) (r : Reg) (v : Word) : (h.setX r v).pc = h.pc := by unfold Hart.setX; split <;> rfl
@[simp] theorem Hart.setX_xAlt (h : Hart) (r : Reg) (v : Word) : (h.setX r v).xAlt = h.xAlt := by unfold Hart.setX; split <;> rfl
@[simp] theorem Hart.setX_act (h : Hart) (r : Reg) (v : Word) : (h.setX r v).act = h.act := by unfold Hart.setX; split <;> rfl
@[simp] theorem Hart.setX_f (h : Hart) (r : Reg) (v : Word) : (h.setX r v).f = h.f := by unfold Hart.setX; split <;> rfl
@[simp] theorem Hart.setX_frm (h : Hart) (r : Reg) (v : Word) : (h.setX r v).frm = h.frm := by unfold Hart.setX; split <;> rfl
@[simp] theorem Hart.setX_fflags (h : Hart) (r : Reg) (v : Word) : (h.setX r v).fflags = h.fflags := by unfold Hart.setX; split <;> rfl
@[simp] theorem Hart.setX_mode (h : Hart) (r : Reg) (v : Word) : (h.setX r v).mode = h.mode := by unfold Hart.setX; split <;> rfl
@[simp] theorem Hart.setX_csr (h : Hart) (r : Reg) (v : Word) : (h.setX r v).csr = h.csr := by unfold Hart.setX; split <;> rfl
@[simp] theorem Hart.setX_vec (h : Hart) (r : Reg) (v : Word) : (h.setX r v).vec = h.vec := by unfold Hart.setX; split <;> rfl
@[simp] theorem Hart.setX_ovf (h : Hart) (r : Reg) (v : Word) : (h.setX r v).ovf = h.ovf := by unfold Hart.setX; split <;> rfl
@[simp] theorem Hart.setX_ovfBad (h : Hart) (r : Reg) (v : Word) : (h.setX r v).ovfBad = h.ovfBad := by unfold Hart.setX; split <;> rfl
@[simp] theorem Hart.setX_rngkey (h : Hart) (r : Reg) (v : Word) : (h.setX r v).rngkey = h.rngkey := by unfold Hart.setX; split <;> rfl
@[simp] theorem Hart.setX_rngctr (h : Hart) (r : Reg) (v : Word) : (h.setX r v).rngctr = h.rngctr := by unfold Hart.setX; split <;> rfl
@[simp] theorem Hart.setX_chkint (h : Hart) (r : Reg) (v : Word) : (h.setX r v).chkint = h.chkint := by unfold Hart.setX; split <;> rfl
@[simp] theorem Hart.setX_chkPend (h : Hart) (r : Reg) (v : Word) : (h.setX r v).chkPend = h.chkPend := by unfold Hart.setX; split <;> rfl
@[simp] theorem Hart.setX_ctags (h : Hart) (r : Reg) (v : Word) : (h.setX r v).ctags = h.ctags := by unfold Hart.setX; split <;> rfl
@[simp] theorem Hart.setX_tbudget (h : Hart) (r : Reg) (v : Word) : (h.setX r v).tbudget = h.tbudget := by unfold Hart.setX; split <;> rfl
@[simp] theorem Hart.setX_jobrcb (h : Hart) (r : Reg) (v : Word) : (h.setX r v).jobrcb = h.jobrcb := by unfold Hart.setX; split <;> rfl
@[simp] theorem Hart.setX_srvrole (h : Hart) (r : Reg) (v : Word) : (h.setX r v).srvrole = h.srvrole := by unfold Hart.setX; split <;> rfl
@[simp] theorem Hart.setX_mcrec0 (h : Hart) (r : Reg) (v : Word) : (h.setX r v).mcrec0 = h.mcrec0 := by unfold Hart.setX; split <;> rfl
@[simp] theorem Hart.setX_mcrec1 (h : Hart) (r : Reg) (v : Word) : (h.setX r v).mcrec1 = h.mcrec1 := by unfold Hart.setX; split <;> rfl
@[simp] theorem Hart.setX_mcrec2 (h : Hart) (r : Reg) (v : Word) : (h.setX r v).mcrec2 = h.mcrec2 := by unfold Hart.setX; split <;> rfl
@[simp] theorem Hart.setX_mcrec3 (h : Hart) (r : Reg) (v : Word) : (h.setX r v).mcrec3 = h.mcrec3 := by unfold Hart.setX; split <;> rfl
@[simp] theorem Hart.setX_posted (h : Hart) (r : Reg) (v : Word) : (h.setX r v).posted = h.posted := by unfold Hart.setX; split <;> rfl
@[simp] theorem Hart.setX_done (h : Hart) (r : Reg) (v : Word) : (h.setX r v).done = h.done := by unfold Hart.setX; split <;> rfl
@[simp] theorem Hart.setX_resv (h : Hart) (r : Reg) (v : Word) : (h.setX r v).resv = h.resv := by unfold Hart.setX; split <;> rfl
@[simp] theorem Hart.setX_wait (h : Hart) (r : Reg) (v : Word) : (h.setX r v).wait = h.wait := by unfold Hart.setX; split <;> rfl
@[simp] theorem Hart.setX_progress (h : Hart) (r : Reg) (v : Word) : (h.setX r v).progress = h.progress := by unfold Hart.setX; split <;> rfl
@[simp] theorem Hart.setX_attempts (h : Hart) (r : Reg) (v : Word) : (h.setX r v).attempts = h.attempts := by unfold Hart.setX; split <;> rfl
@[simp] theorem Hart.setX_nest (h : Hart) (r : Reg) (v : Word) : (h.setX r v).nest = h.nest := by unfold Hart.setX; split <;> rfl
@[simp] theorem Hart.setX_trap (h : Hart) (r : Reg) (v : Word) : (h.setX r v).trap = h.trap := by unfold Hart.setX; split <;> rfl
@[simp] theorem Hart.setX_posting (h : Hart) (r : Reg) (v : Word) : (h.setX r v).posting = h.posting := by unfold Hart.setX; split <;> rfl
@[simp] theorem Hart.setX_prefetch (h : Hart) (r : Reg) (v : Word) : (h.setX r v).prefetch = h.prefetch := by unfold Hart.setX; split <;> rfl
@[simp] theorem Hart.setX_queues (h : Hart) (r : Reg) (v : Word) : (h.setX r v).queues = h.queues := by unfold Hart.setX; split <;> rfl
@[simp] theorem Hart.setX_tlb (h : Hart) (r : Reg) (v : Word) : (h.setX r v).tlb = h.tlb := by unfold Hart.setX; split <;> rfl
@[simp] theorem Hart.setX_buf (h : Hart) (r : Reg) (v : Word) : (h.setX r v).buf = h.buf := by unfold Hart.setX; split <;> rfl
@[simp] theorem Hart.setX_pops (h : Hart) (r : Reg) (v : Word) : (h.setX r v).pops = h.pops := by unfold Hart.setX; split <;> rfl
@[simp] theorem Hart.setX_matFaults (h : Hart) (r : Reg) (v : Word) : (h.setX r v).matFaults = h.matFaults := by unfold Hart.setX; split <;> rfl
@[simp] theorem Hart.setX_la (h : Hart) (r : Reg) (v : Word) : (h.setX r v).la = h.la := by unfold Hart.setX; split <;> rfl
@[simp] theorem Hart.setX_winDone (h : Hart) (r : Reg) (v : Word) : (h.setX r v).winDone = h.winDone := by unfold Hart.setX; split <;> rfl
@[simp] theorem Hart.setX_fpoison (h : Hart) (r : Reg) (v : Word) : (h.setX r v).fpoison = h.fpoison := by unfold Hart.setX; split <;> rfl
@[simp] theorem Hart.setX_cpoison (h : Hart) (r : Reg) (v : Word) : (h.setX r v).cpoison = h.cpoison := by unfold Hart.setX; split <;> rfl
@[simp] theorem Hart.setX_eccSeen (h : Hart) (r : Reg) (v : Word) : (h.setX r v).eccSeen = h.eccSeen := by unfold Hart.setX; split <;> rfl

/-! ### `Hart.poisonX` -/

@[simp] theorem Hart.poisonX_num (h : Hart) (r : Reg) (b : Bool) : (h.poisonX r b).num = h.num := by unfold Hart.poisonX; split <;> rfl
@[simp] theorem Hart.poisonX_run (h : Hart) (r : Reg) (b : Bool) : (h.poisonX r b).run = h.run := by unfold Hart.poisonX; split <;> rfl
@[simp] theorem Hart.poisonX_pc (h : Hart) (r : Reg) (b : Bool) : (h.poisonX r b).pc = h.pc := by unfold Hart.poisonX; split <;> rfl
@[simp] theorem Hart.poisonX_x (h : Hart) (r : Reg) (b : Bool) : (h.poisonX r b).x = h.x := by unfold Hart.poisonX; split <;> rfl
@[simp] theorem Hart.poisonX_xAlt (h : Hart) (r : Reg) (b : Bool) : (h.poisonX r b).xAlt = h.xAlt := by unfold Hart.poisonX; split <;> rfl
@[simp] theorem Hart.poisonX_act (h : Hart) (r : Reg) (b : Bool) : (h.poisonX r b).act = h.act := by unfold Hart.poisonX; split <;> rfl
@[simp] theorem Hart.poisonX_f (h : Hart) (r : Reg) (b : Bool) : (h.poisonX r b).f = h.f := by unfold Hart.poisonX; split <;> rfl
@[simp] theorem Hart.poisonX_frm (h : Hart) (r : Reg) (b : Bool) : (h.poisonX r b).frm = h.frm := by unfold Hart.poisonX; split <;> rfl
@[simp] theorem Hart.poisonX_fflags (h : Hart) (r : Reg) (b : Bool) : (h.poisonX r b).fflags = h.fflags := by unfold Hart.poisonX; split <;> rfl
@[simp] theorem Hart.poisonX_mode (h : Hart) (r : Reg) (b : Bool) : (h.poisonX r b).mode = h.mode := by unfold Hart.poisonX; split <;> rfl
@[simp] theorem Hart.poisonX_csr (h : Hart) (r : Reg) (b : Bool) : (h.poisonX r b).csr = h.csr := by unfold Hart.poisonX; split <;> rfl
@[simp] theorem Hart.poisonX_vec (h : Hart) (r : Reg) (b : Bool) : (h.poisonX r b).vec = h.vec := by unfold Hart.poisonX; split <;> rfl
@[simp] theorem Hart.poisonX_ovf (h : Hart) (r : Reg) (b : Bool) : (h.poisonX r b).ovf = h.ovf := by unfold Hart.poisonX; split <;> rfl
@[simp] theorem Hart.poisonX_ovfBad (h : Hart) (r : Reg) (b : Bool) : (h.poisonX r b).ovfBad = h.ovfBad := by unfold Hart.poisonX; split <;> rfl
@[simp] theorem Hart.poisonX_rngkey (h : Hart) (r : Reg) (b : Bool) : (h.poisonX r b).rngkey = h.rngkey := by unfold Hart.poisonX; split <;> rfl
@[simp] theorem Hart.poisonX_rngctr (h : Hart) (r : Reg) (b : Bool) : (h.poisonX r b).rngctr = h.rngctr := by unfold Hart.poisonX; split <;> rfl
@[simp] theorem Hart.poisonX_chkint (h : Hart) (r : Reg) (b : Bool) : (h.poisonX r b).chkint = h.chkint := by unfold Hart.poisonX; split <;> rfl
@[simp] theorem Hart.poisonX_chkPend (h : Hart) (r : Reg) (b : Bool) : (h.poisonX r b).chkPend = h.chkPend := by unfold Hart.poisonX; split <;> rfl
@[simp] theorem Hart.poisonX_ctags (h : Hart) (r : Reg) (b : Bool) : (h.poisonX r b).ctags = h.ctags := by unfold Hart.poisonX; split <;> rfl
@[simp] theorem Hart.poisonX_tbudget (h : Hart) (r : Reg) (b : Bool) : (h.poisonX r b).tbudget = h.tbudget := by unfold Hart.poisonX; split <;> rfl
@[simp] theorem Hart.poisonX_jobrcb (h : Hart) (r : Reg) (b : Bool) : (h.poisonX r b).jobrcb = h.jobrcb := by unfold Hart.poisonX; split <;> rfl
@[simp] theorem Hart.poisonX_srvrole (h : Hart) (r : Reg) (b : Bool) : (h.poisonX r b).srvrole = h.srvrole := by unfold Hart.poisonX; split <;> rfl
@[simp] theorem Hart.poisonX_mcrec0 (h : Hart) (r : Reg) (b : Bool) : (h.poisonX r b).mcrec0 = h.mcrec0 := by unfold Hart.poisonX; split <;> rfl
@[simp] theorem Hart.poisonX_mcrec1 (h : Hart) (r : Reg) (b : Bool) : (h.poisonX r b).mcrec1 = h.mcrec1 := by unfold Hart.poisonX; split <;> rfl
@[simp] theorem Hart.poisonX_mcrec2 (h : Hart) (r : Reg) (b : Bool) : (h.poisonX r b).mcrec2 = h.mcrec2 := by unfold Hart.poisonX; split <;> rfl
@[simp] theorem Hart.poisonX_mcrec3 (h : Hart) (r : Reg) (b : Bool) : (h.poisonX r b).mcrec3 = h.mcrec3 := by unfold Hart.poisonX; split <;> rfl
@[simp] theorem Hart.poisonX_posted (h : Hart) (r : Reg) (b : Bool) : (h.poisonX r b).posted = h.posted := by unfold Hart.poisonX; split <;> rfl
@[simp] theorem Hart.poisonX_done (h : Hart) (r : Reg) (b : Bool) : (h.poisonX r b).done = h.done := by unfold Hart.poisonX; split <;> rfl
@[simp] theorem Hart.poisonX_resv (h : Hart) (r : Reg) (b : Bool) : (h.poisonX r b).resv = h.resv := by unfold Hart.poisonX; split <;> rfl
@[simp] theorem Hart.poisonX_wait (h : Hart) (r : Reg) (b : Bool) : (h.poisonX r b).wait = h.wait := by unfold Hart.poisonX; split <;> rfl
@[simp] theorem Hart.poisonX_progress (h : Hart) (r : Reg) (b : Bool) : (h.poisonX r b).progress = h.progress := by unfold Hart.poisonX; split <;> rfl
@[simp] theorem Hart.poisonX_attempts (h : Hart) (r : Reg) (b : Bool) : (h.poisonX r b).attempts = h.attempts := by unfold Hart.poisonX; split <;> rfl
@[simp] theorem Hart.poisonX_nest (h : Hart) (r : Reg) (b : Bool) : (h.poisonX r b).nest = h.nest := by unfold Hart.poisonX; split <;> rfl
@[simp] theorem Hart.poisonX_trap (h : Hart) (r : Reg) (b : Bool) : (h.poisonX r b).trap = h.trap := by unfold Hart.poisonX; split <;> rfl
@[simp] theorem Hart.poisonX_posting (h : Hart) (r : Reg) (b : Bool) : (h.poisonX r b).posting = h.posting := by unfold Hart.poisonX; split <;> rfl
@[simp] theorem Hart.poisonX_prefetch (h : Hart) (r : Reg) (b : Bool) : (h.poisonX r b).prefetch = h.prefetch := by unfold Hart.poisonX; split <;> rfl
@[simp] theorem Hart.poisonX_queues (h : Hart) (r : Reg) (b : Bool) : (h.poisonX r b).queues = h.queues := by unfold Hart.poisonX; split <;> rfl
@[simp] theorem Hart.poisonX_tlb (h : Hart) (r : Reg) (b : Bool) : (h.poisonX r b).tlb = h.tlb := by unfold Hart.poisonX; split <;> rfl
@[simp] theorem Hart.poisonX_buf (h : Hart) (r : Reg) (b : Bool) : (h.poisonX r b).buf = h.buf := by unfold Hart.poisonX; split <;> rfl
@[simp] theorem Hart.poisonX_pops (h : Hart) (r : Reg) (b : Bool) : (h.poisonX r b).pops = h.pops := by unfold Hart.poisonX; split <;> rfl
@[simp] theorem Hart.poisonX_matFaults (h : Hart) (r : Reg) (b : Bool) : (h.poisonX r b).matFaults = h.matFaults := by unfold Hart.poisonX; split <;> rfl
@[simp] theorem Hart.poisonX_la (h : Hart) (r : Reg) (b : Bool) : (h.poisonX r b).la = h.la := by unfold Hart.poisonX; split <;> rfl
@[simp] theorem Hart.poisonX_winDone (h : Hart) (r : Reg) (b : Bool) : (h.poisonX r b).winDone = h.winDone := by unfold Hart.poisonX; split <;> rfl
@[simp] theorem Hart.poisonX_fpoison (h : Hart) (r : Reg) (b : Bool) : (h.poisonX r b).fpoison = h.fpoison := by unfold Hart.poisonX; split <;> rfl
@[simp] theorem Hart.poisonX_cpoison (h : Hart) (r : Reg) (b : Bool) : (h.poisonX r b).cpoison = h.cpoison := by unfold Hart.poisonX; split <;> rfl
@[simp] theorem Hart.poisonX_eccSeen (h : Hart) (r : Reg) (b : Bool) : (h.poisonX r b).eccSeen = h.eccSeen := by unfold Hart.poisonX; split <;> rfl

/-! ### `Hart.setXp` -/

@[simp] theorem Hart.setXp_num (h : Hart) (r : Reg) (v : Word) (b : Bool) : (h.setXp r v b).num = h.num := by simp [Hart.setXp]
@[simp] theorem Hart.setXp_run (h : Hart) (r : Reg) (v : Word) (b : Bool) : (h.setXp r v b).run = h.run := by simp [Hart.setXp]
@[simp] theorem Hart.setXp_pc (h : Hart) (r : Reg) (v : Word) (b : Bool) : (h.setXp r v b).pc = h.pc := by simp [Hart.setXp]
@[simp] theorem Hart.setXp_x (h : Hart) (r : Reg) (v : Word) (b : Bool) : (h.setXp r v b).x = (h.setX r v).x := by simp [Hart.setXp]
@[simp] theorem Hart.setXp_xAlt (h : Hart) (r : Reg) (v : Word) (b : Bool) : (h.setXp r v b).xAlt = h.xAlt := by simp [Hart.setXp]
@[simp] theorem Hart.setXp_act (h : Hart) (r : Reg) (v : Word) (b : Bool) : (h.setXp r v b).act = h.act := by simp [Hart.setXp]
@[simp] theorem Hart.setXp_f (h : Hart) (r : Reg) (v : Word) (b : Bool) : (h.setXp r v b).f = h.f := by simp [Hart.setXp]
@[simp] theorem Hart.setXp_frm (h : Hart) (r : Reg) (v : Word) (b : Bool) : (h.setXp r v b).frm = h.frm := by simp [Hart.setXp]
@[simp] theorem Hart.setXp_fflags (h : Hart) (r : Reg) (v : Word) (b : Bool) : (h.setXp r v b).fflags = h.fflags := by simp [Hart.setXp]
@[simp] theorem Hart.setXp_mode (h : Hart) (r : Reg) (v : Word) (b : Bool) : (h.setXp r v b).mode = h.mode := by simp [Hart.setXp]
@[simp] theorem Hart.setXp_csr (h : Hart) (r : Reg) (v : Word) (b : Bool) : (h.setXp r v b).csr = h.csr := by simp [Hart.setXp]
@[simp] theorem Hart.setXp_vec (h : Hart) (r : Reg) (v : Word) (b : Bool) : (h.setXp r v b).vec = h.vec := by simp [Hart.setXp]
@[simp] theorem Hart.setXp_ovf (h : Hart) (r : Reg) (v : Word) (b : Bool) : (h.setXp r v b).ovf = h.ovf := by simp [Hart.setXp]
@[simp] theorem Hart.setXp_ovfBad (h : Hart) (r : Reg) (v : Word) (b : Bool) : (h.setXp r v b).ovfBad = h.ovfBad := by simp [Hart.setXp]
@[simp] theorem Hart.setXp_rngkey (h : Hart) (r : Reg) (v : Word) (b : Bool) : (h.setXp r v b).rngkey = h.rngkey := by simp [Hart.setXp]
@[simp] theorem Hart.setXp_rngctr (h : Hart) (r : Reg) (v : Word) (b : Bool) : (h.setXp r v b).rngctr = h.rngctr := by simp [Hart.setXp]
@[simp] theorem Hart.setXp_chkint (h : Hart) (r : Reg) (v : Word) (b : Bool) : (h.setXp r v b).chkint = h.chkint := by simp [Hart.setXp]
@[simp] theorem Hart.setXp_chkPend (h : Hart) (r : Reg) (v : Word) (b : Bool) : (h.setXp r v b).chkPend = h.chkPend := by simp [Hart.setXp]
@[simp] theorem Hart.setXp_ctags (h : Hart) (r : Reg) (v : Word) (b : Bool) : (h.setXp r v b).ctags = h.ctags := by simp [Hart.setXp]
@[simp] theorem Hart.setXp_tbudget (h : Hart) (r : Reg) (v : Word) (b : Bool) : (h.setXp r v b).tbudget = h.tbudget := by simp [Hart.setXp]
@[simp] theorem Hart.setXp_jobrcb (h : Hart) (r : Reg) (v : Word) (b : Bool) : (h.setXp r v b).jobrcb = h.jobrcb := by simp [Hart.setXp]
@[simp] theorem Hart.setXp_srvrole (h : Hart) (r : Reg) (v : Word) (b : Bool) : (h.setXp r v b).srvrole = h.srvrole := by simp [Hart.setXp]
@[simp] theorem Hart.setXp_mcrec0 (h : Hart) (r : Reg) (v : Word) (b : Bool) : (h.setXp r v b).mcrec0 = h.mcrec0 := by simp [Hart.setXp]
@[simp] theorem Hart.setXp_mcrec1 (h : Hart) (r : Reg) (v : Word) (b : Bool) : (h.setXp r v b).mcrec1 = h.mcrec1 := by simp [Hart.setXp]
@[simp] theorem Hart.setXp_mcrec2 (h : Hart) (r : Reg) (v : Word) (b : Bool) : (h.setXp r v b).mcrec2 = h.mcrec2 := by simp [Hart.setXp]
@[simp] theorem Hart.setXp_mcrec3 (h : Hart) (r : Reg) (v : Word) (b : Bool) : (h.setXp r v b).mcrec3 = h.mcrec3 := by simp [Hart.setXp]
@[simp] theorem Hart.setXp_posted (h : Hart) (r : Reg) (v : Word) (b : Bool) : (h.setXp r v b).posted = h.posted := by simp [Hart.setXp]
@[simp] theorem Hart.setXp_done (h : Hart) (r : Reg) (v : Word) (b : Bool) : (h.setXp r v b).done = h.done := by simp [Hart.setXp]
@[simp] theorem Hart.setXp_resv (h : Hart) (r : Reg) (v : Word) (b : Bool) : (h.setXp r v b).resv = h.resv := by simp [Hart.setXp]
@[simp] theorem Hart.setXp_wait (h : Hart) (r : Reg) (v : Word) (b : Bool) : (h.setXp r v b).wait = h.wait := by simp [Hart.setXp]
@[simp] theorem Hart.setXp_progress (h : Hart) (r : Reg) (v : Word) (b : Bool) : (h.setXp r v b).progress = h.progress := by simp [Hart.setXp]
@[simp] theorem Hart.setXp_attempts (h : Hart) (r : Reg) (v : Word) (b : Bool) : (h.setXp r v b).attempts = h.attempts := by simp [Hart.setXp]
@[simp] theorem Hart.setXp_nest (h : Hart) (r : Reg) (v : Word) (b : Bool) : (h.setXp r v b).nest = h.nest := by simp [Hart.setXp]
@[simp] theorem Hart.setXp_trap (h : Hart) (r : Reg) (v : Word) (b : Bool) : (h.setXp r v b).trap = h.trap := by simp [Hart.setXp]
@[simp] theorem Hart.setXp_posting (h : Hart) (r : Reg) (v : Word) (b : Bool) : (h.setXp r v b).posting = h.posting := by simp [Hart.setXp]
@[simp] theorem Hart.setXp_prefetch (h : Hart) (r : Reg) (v : Word) (b : Bool) : (h.setXp r v b).prefetch = h.prefetch := by simp [Hart.setXp]
@[simp] theorem Hart.setXp_queues (h : Hart) (r : Reg) (v : Word) (b : Bool) : (h.setXp r v b).queues = h.queues := by simp [Hart.setXp]
@[simp] theorem Hart.setXp_tlb (h : Hart) (r : Reg) (v : Word) (b : Bool) : (h.setXp r v b).tlb = h.tlb := by simp [Hart.setXp]
@[simp] theorem Hart.setXp_buf (h : Hart) (r : Reg) (v : Word) (b : Bool) : (h.setXp r v b).buf = h.buf := by simp [Hart.setXp]
@[simp] theorem Hart.setXp_pops (h : Hart) (r : Reg) (v : Word) (b : Bool) : (h.setXp r v b).pops = h.pops := by simp [Hart.setXp]
@[simp] theorem Hart.setXp_matFaults (h : Hart) (r : Reg) (v : Word) (b : Bool) : (h.setXp r v b).matFaults = h.matFaults := by simp [Hart.setXp]
@[simp] theorem Hart.setXp_la (h : Hart) (r : Reg) (v : Word) (b : Bool) : (h.setXp r v b).la = h.la := by simp [Hart.setXp]
@[simp] theorem Hart.setXp_winDone (h : Hart) (r : Reg) (v : Word) (b : Bool) : (h.setXp r v b).winDone = h.winDone := by simp [Hart.setXp]
@[simp] theorem Hart.setXp_fpoison (h : Hart) (r : Reg) (v : Word) (b : Bool) : (h.setXp r v b).fpoison = h.fpoison := by simp [Hart.setXp]
@[simp] theorem Hart.setXp_cpoison (h : Hart) (r : Reg) (v : Word) (b : Bool) : (h.setXp r v b).cpoison = h.cpoison := by simp [Hart.setXp]
@[simp] theorem Hart.setXp_eccSeen (h : Hart) (r : Reg) (v : Word) (b : Bool) : (h.setXp r v b).eccSeen = h.eccSeen := by simp [Hart.setXp]

/-! ### `Hart.eats` -/

@[simp] theorem Hart.eats_num (h : Hart) (p : Bool) : (h.eats p).num = h.num := by unfold Hart.eats; split <;> rfl
@[simp] theorem Hart.eats_run (h : Hart) (p : Bool) : (h.eats p).run = h.run := by unfold Hart.eats; split <;> rfl
@[simp] theorem Hart.eats_pc (h : Hart) (p : Bool) : (h.eats p).pc = h.pc := by unfold Hart.eats; split <;> rfl
@[simp] theorem Hart.eats_x (h : Hart) (p : Bool) : (h.eats p).x = h.x := by unfold Hart.eats; split <;> rfl
@[simp] theorem Hart.eats_xAlt (h : Hart) (p : Bool) : (h.eats p).xAlt = h.xAlt := by unfold Hart.eats; split <;> rfl
@[simp] theorem Hart.eats_act (h : Hart) (p : Bool) : (h.eats p).act = h.act := by unfold Hart.eats; split <;> rfl
@[simp] theorem Hart.eats_f (h : Hart) (p : Bool) : (h.eats p).f = h.f := by unfold Hart.eats; split <;> rfl
@[simp] theorem Hart.eats_frm (h : Hart) (p : Bool) : (h.eats p).frm = h.frm := by unfold Hart.eats; split <;> rfl
@[simp] theorem Hart.eats_fflags (h : Hart) (p : Bool) : (h.eats p).fflags = h.fflags := by unfold Hart.eats; split <;> rfl
@[simp] theorem Hart.eats_mode (h : Hart) (p : Bool) : (h.eats p).mode = h.mode := by unfold Hart.eats; split <;> rfl
@[simp] theorem Hart.eats_csr (h : Hart) (p : Bool) : (h.eats p).csr = h.csr := by unfold Hart.eats; split <;> rfl
@[simp] theorem Hart.eats_vec (h : Hart) (p : Bool) : (h.eats p).vec = h.vec := by unfold Hart.eats; split <;> rfl
@[simp] theorem Hart.eats_ovf (h : Hart) (p : Bool) : (h.eats p).ovf = h.ovf := by unfold Hart.eats; split <;> rfl
@[simp] theorem Hart.eats_ovfBad (h : Hart) (p : Bool) : (h.eats p).ovfBad = h.ovfBad := by unfold Hart.eats; split <;> rfl
@[simp] theorem Hart.eats_rngkey (h : Hart) (p : Bool) : (h.eats p).rngkey = h.rngkey := by unfold Hart.eats; split <;> rfl
@[simp] theorem Hart.eats_rngctr (h : Hart) (p : Bool) : (h.eats p).rngctr = h.rngctr := by unfold Hart.eats; split <;> rfl
@[simp] theorem Hart.eats_chkPend (h : Hart) (p : Bool) : (h.eats p).chkPend = h.chkPend := by unfold Hart.eats; split <;> rfl
@[simp] theorem Hart.eats_ctags (h : Hart) (p : Bool) : (h.eats p).ctags = h.ctags := by unfold Hart.eats; split <;> rfl
@[simp] theorem Hart.eats_tbudget (h : Hart) (p : Bool) : (h.eats p).tbudget = h.tbudget := by unfold Hart.eats; split <;> rfl
@[simp] theorem Hart.eats_jobrcb (h : Hart) (p : Bool) : (h.eats p).jobrcb = h.jobrcb := by unfold Hart.eats; split <;> rfl
@[simp] theorem Hart.eats_srvrole (h : Hart) (p : Bool) : (h.eats p).srvrole = h.srvrole := by unfold Hart.eats; split <;> rfl
@[simp] theorem Hart.eats_mcrec0 (h : Hart) (p : Bool) : (h.eats p).mcrec0 = h.mcrec0 := by unfold Hart.eats; split <;> rfl
@[simp] theorem Hart.eats_mcrec1 (h : Hart) (p : Bool) : (h.eats p).mcrec1 = h.mcrec1 := by unfold Hart.eats; split <;> rfl
@[simp] theorem Hart.eats_mcrec2 (h : Hart) (p : Bool) : (h.eats p).mcrec2 = h.mcrec2 := by unfold Hart.eats; split <;> rfl
@[simp] theorem Hart.eats_mcrec3 (h : Hart) (p : Bool) : (h.eats p).mcrec3 = h.mcrec3 := by unfold Hart.eats; split <;> rfl
@[simp] theorem Hart.eats_posted (h : Hart) (p : Bool) : (h.eats p).posted = h.posted := by unfold Hart.eats; split <;> rfl
@[simp] theorem Hart.eats_done (h : Hart) (p : Bool) : (h.eats p).done = h.done := by unfold Hart.eats; split <;> rfl
@[simp] theorem Hart.eats_resv (h : Hart) (p : Bool) : (h.eats p).resv = h.resv := by unfold Hart.eats; split <;> rfl
@[simp] theorem Hart.eats_wait (h : Hart) (p : Bool) : (h.eats p).wait = h.wait := by unfold Hart.eats; split <;> rfl
@[simp] theorem Hart.eats_progress (h : Hart) (p : Bool) : (h.eats p).progress = h.progress := by unfold Hart.eats; split <;> rfl
@[simp] theorem Hart.eats_attempts (h : Hart) (p : Bool) : (h.eats p).attempts = h.attempts := by unfold Hart.eats; split <;> rfl
@[simp] theorem Hart.eats_nest (h : Hart) (p : Bool) : (h.eats p).nest = h.nest := by unfold Hart.eats; split <;> rfl
@[simp] theorem Hart.eats_trap (h : Hart) (p : Bool) : (h.eats p).trap = h.trap := by unfold Hart.eats; split <;> rfl
@[simp] theorem Hart.eats_posting (h : Hart) (p : Bool) : (h.eats p).posting = h.posting := by unfold Hart.eats; split <;> rfl
@[simp] theorem Hart.eats_prefetch (h : Hart) (p : Bool) : (h.eats p).prefetch = h.prefetch := by unfold Hart.eats; split <;> rfl
@[simp] theorem Hart.eats_queues (h : Hart) (p : Bool) : (h.eats p).queues = h.queues := by unfold Hart.eats; split <;> rfl
@[simp] theorem Hart.eats_tlb (h : Hart) (p : Bool) : (h.eats p).tlb = h.tlb := by unfold Hart.eats; split <;> rfl
@[simp] theorem Hart.eats_buf (h : Hart) (p : Bool) : (h.eats p).buf = h.buf := by unfold Hart.eats; split <;> rfl
@[simp] theorem Hart.eats_pops (h : Hart) (p : Bool) : (h.eats p).pops = h.pops := by unfold Hart.eats; split <;> rfl
@[simp] theorem Hart.eats_matFaults (h : Hart) (p : Bool) : (h.eats p).matFaults = h.matFaults := by unfold Hart.eats; split <;> rfl
@[simp] theorem Hart.eats_la (h : Hart) (p : Bool) : (h.eats p).la = h.la := by unfold Hart.eats; split <;> rfl
@[simp] theorem Hart.eats_winDone (h : Hart) (p : Bool) : (h.eats p).winDone = h.winDone := by unfold Hart.eats; split <;> rfl
@[simp] theorem Hart.eats_xpoison (h : Hart) (p : Bool) : (h.eats p).xpoison = h.xpoison := by unfold Hart.eats; split <;> rfl
@[simp] theorem Hart.eats_fpoison (h : Hart) (p : Bool) : (h.eats p).fpoison = h.fpoison := by unfold Hart.eats; split <;> rfl
@[simp] theorem Hart.eats_cpoison (h : Hart) (p : Bool) : (h.eats p).cpoison = h.cpoison := by unfold Hart.eats; split <;> rfl
@[simp] theorem Hart.eats_eccSeen (h : Hart) (p : Bool) : (h.eats p).eccSeen = h.eccSeen := by unfold Hart.eats; split <;> rfl

/-! ### `Hart.setF` -/

@[simp] theorem Hart.setF_num (h : Hart) (r : Reg) (v : Word) (p : Bool) : (h.setF r v p).num = h.num := rfl
@[simp] theorem Hart.setF_run (h : Hart) (r : Reg) (v : Word) (p : Bool) : (h.setF r v p).run = h.run := rfl
@[simp] theorem Hart.setF_pc (h : Hart) (r : Reg) (v : Word) (p : Bool) : (h.setF r v p).pc = h.pc := rfl
@[simp] theorem Hart.setF_x (h : Hart) (r : Reg) (v : Word) (p : Bool) : (h.setF r v p).x = h.x := rfl
@[simp] theorem Hart.setF_xAlt (h : Hart) (r : Reg) (v : Word) (p : Bool) : (h.setF r v p).xAlt = h.xAlt := rfl
@[simp] theorem Hart.setF_act (h : Hart) (r : Reg) (v : Word) (p : Bool) : (h.setF r v p).act = h.act := rfl
@[simp] theorem Hart.setF_f (h : Hart) (r : Reg) (v : Word) (p : Bool) : (h.setF r v p).f = h.f.set r.toNat v := rfl
@[simp] theorem Hart.setF_frm (h : Hart) (r : Reg) (v : Word) (p : Bool) : (h.setF r v p).frm = h.frm := rfl
@[simp] theorem Hart.setF_fflags (h : Hart) (r : Reg) (v : Word) (p : Bool) : (h.setF r v p).fflags = h.fflags := rfl
@[simp] theorem Hart.setF_mode (h : Hart) (r : Reg) (v : Word) (p : Bool) : (h.setF r v p).mode = h.mode := rfl
@[simp] theorem Hart.setF_csr (h : Hart) (r : Reg) (v : Word) (p : Bool) : (h.setF r v p).csr = h.csr := rfl
@[simp] theorem Hart.setF_vec (h : Hart) (r : Reg) (v : Word) (p : Bool) : (h.setF r v p).vec = h.vec := rfl
@[simp] theorem Hart.setF_ovf (h : Hart) (r : Reg) (v : Word) (p : Bool) : (h.setF r v p).ovf = h.ovf := rfl
@[simp] theorem Hart.setF_ovfBad (h : Hart) (r : Reg) (v : Word) (p : Bool) : (h.setF r v p).ovfBad = h.ovfBad := rfl
@[simp] theorem Hart.setF_rngkey (h : Hart) (r : Reg) (v : Word) (p : Bool) : (h.setF r v p).rngkey = h.rngkey := rfl
@[simp] theorem Hart.setF_rngctr (h : Hart) (r : Reg) (v : Word) (p : Bool) : (h.setF r v p).rngctr = h.rngctr := rfl
@[simp] theorem Hart.setF_chkint (h : Hart) (r : Reg) (v : Word) (p : Bool) : (h.setF r v p).chkint = h.chkint := rfl
@[simp] theorem Hart.setF_chkPend (h : Hart) (r : Reg) (v : Word) (p : Bool) : (h.setF r v p).chkPend = h.chkPend := rfl
@[simp] theorem Hart.setF_ctags (h : Hart) (r : Reg) (v : Word) (p : Bool) : (h.setF r v p).ctags = h.ctags := rfl
@[simp] theorem Hart.setF_tbudget (h : Hart) (r : Reg) (v : Word) (p : Bool) : (h.setF r v p).tbudget = h.tbudget := rfl
@[simp] theorem Hart.setF_jobrcb (h : Hart) (r : Reg) (v : Word) (p : Bool) : (h.setF r v p).jobrcb = h.jobrcb := rfl
@[simp] theorem Hart.setF_srvrole (h : Hart) (r : Reg) (v : Word) (p : Bool) : (h.setF r v p).srvrole = h.srvrole := rfl
@[simp] theorem Hart.setF_mcrec0 (h : Hart) (r : Reg) (v : Word) (p : Bool) : (h.setF r v p).mcrec0 = h.mcrec0 := rfl
@[simp] theorem Hart.setF_mcrec1 (h : Hart) (r : Reg) (v : Word) (p : Bool) : (h.setF r v p).mcrec1 = h.mcrec1 := rfl
@[simp] theorem Hart.setF_mcrec2 (h : Hart) (r : Reg) (v : Word) (p : Bool) : (h.setF r v p).mcrec2 = h.mcrec2 := rfl
@[simp] theorem Hart.setF_mcrec3 (h : Hart) (r : Reg) (v : Word) (p : Bool) : (h.setF r v p).mcrec3 = h.mcrec3 := rfl
@[simp] theorem Hart.setF_posted (h : Hart) (r : Reg) (v : Word) (p : Bool) : (h.setF r v p).posted = h.posted := rfl
@[simp] theorem Hart.setF_done (h : Hart) (r : Reg) (v : Word) (p : Bool) : (h.setF r v p).done = h.done := rfl
@[simp] theorem Hart.setF_resv (h : Hart) (r : Reg) (v : Word) (p : Bool) : (h.setF r v p).resv = h.resv := rfl
@[simp] theorem Hart.setF_wait (h : Hart) (r : Reg) (v : Word) (p : Bool) : (h.setF r v p).wait = h.wait := rfl
@[simp] theorem Hart.setF_progress (h : Hart) (r : Reg) (v : Word) (p : Bool) : (h.setF r v p).progress = h.progress := rfl
@[simp] theorem Hart.setF_attempts (h : Hart) (r : Reg) (v : Word) (p : Bool) : (h.setF r v p).attempts = h.attempts := rfl
@[simp] theorem Hart.setF_nest (h : Hart) (r : Reg) (v : Word) (p : Bool) : (h.setF r v p).nest = h.nest := rfl
@[simp] theorem Hart.setF_trap (h : Hart) (r : Reg) (v : Word) (p : Bool) : (h.setF r v p).trap = h.trap := rfl
@[simp] theorem Hart.setF_posting (h : Hart) (r : Reg) (v : Word) (p : Bool) : (h.setF r v p).posting = h.posting := rfl
@[simp] theorem Hart.setF_prefetch (h : Hart) (r : Reg) (v : Word) (p : Bool) : (h.setF r v p).prefetch = h.prefetch := rfl
@[simp] theorem Hart.setF_queues (h : Hart) (r : Reg) (v : Word) (p : Bool) : (h.setF r v p).queues = h.queues := rfl
@[simp] theorem Hart.setF_tlb (h : Hart) (r : Reg) (v : Word) (p : Bool) : (h.setF r v p).tlb = h.tlb := rfl
@[simp] theorem Hart.setF_buf (h : Hart) (r : Reg) (v : Word) (p : Bool) : (h.setF r v p).buf = h.buf := rfl
@[simp] theorem Hart.setF_pops (h : Hart) (r : Reg) (v : Word) (p : Bool) : (h.setF r v p).pops = h.pops := rfl
@[simp] theorem Hart.setF_matFaults (h : Hart) (r : Reg) (v : Word) (p : Bool) : (h.setF r v p).matFaults = h.matFaults := rfl
@[simp] theorem Hart.setF_la (h : Hart) (r : Reg) (v : Word) (p : Bool) : (h.setF r v p).la = h.la := rfl
@[simp] theorem Hart.setF_winDone (h : Hart) (r : Reg) (v : Word) (p : Bool) : (h.setF r v p).winDone = h.winDone := rfl
@[simp] theorem Hart.setF_xpoison (h : Hart) (r : Reg) (v : Word) (p : Bool) : (h.setF r v p).xpoison = h.xpoison := rfl
@[simp] theorem Hart.setF_cpoison (h : Hart) (r : Reg) (v : Word) (p : Bool) : (h.setF r v p).cpoison = h.cpoison := rfl
@[simp] theorem Hart.setF_eccSeen (h : Hart) (r : Reg) (v : Word) (p : Bool) : (h.setF r v p).eccSeen = h.eccSeen := rfl

/-! ### `Hart.csrMark` -/

@[simp] theorem Hart.csrMark_num (h : Hart) (n : Nat) (b : Bool) : (h.csrMark n b).num = h.num := rfl
@[simp] theorem Hart.csrMark_run (h : Hart) (n : Nat) (b : Bool) : (h.csrMark n b).run = h.run := rfl
@[simp] theorem Hart.csrMark_pc (h : Hart) (n : Nat) (b : Bool) : (h.csrMark n b).pc = h.pc := rfl
@[simp] theorem Hart.csrMark_x (h : Hart) (n : Nat) (b : Bool) : (h.csrMark n b).x = h.x := rfl
@[simp] theorem Hart.csrMark_xAlt (h : Hart) (n : Nat) (b : Bool) : (h.csrMark n b).xAlt = h.xAlt := rfl
@[simp] theorem Hart.csrMark_act (h : Hart) (n : Nat) (b : Bool) : (h.csrMark n b).act = h.act := rfl
@[simp] theorem Hart.csrMark_f (h : Hart) (n : Nat) (b : Bool) : (h.csrMark n b).f = h.f := rfl
@[simp] theorem Hart.csrMark_frm (h : Hart) (n : Nat) (b : Bool) : (h.csrMark n b).frm = h.frm := rfl
@[simp] theorem Hart.csrMark_fflags (h : Hart) (n : Nat) (b : Bool) : (h.csrMark n b).fflags = h.fflags := rfl
@[simp] theorem Hart.csrMark_mode (h : Hart) (n : Nat) (b : Bool) : (h.csrMark n b).mode = h.mode := rfl
@[simp] theorem Hart.csrMark_csr (h : Hart) (n : Nat) (b : Bool) : (h.csrMark n b).csr = h.csr := rfl
@[simp] theorem Hart.csrMark_vec (h : Hart) (n : Nat) (b : Bool) : (h.csrMark n b).vec = h.vec := rfl
@[simp] theorem Hart.csrMark_ovf (h : Hart) (n : Nat) (b : Bool) : (h.csrMark n b).ovf = h.ovf := rfl
@[simp] theorem Hart.csrMark_ovfBad (h : Hart) (n : Nat) (b : Bool) : (h.csrMark n b).ovfBad = h.ovfBad := rfl
@[simp] theorem Hart.csrMark_rngkey (h : Hart) (n : Nat) (b : Bool) : (h.csrMark n b).rngkey = h.rngkey := rfl
@[simp] theorem Hart.csrMark_rngctr (h : Hart) (n : Nat) (b : Bool) : (h.csrMark n b).rngctr = h.rngctr := rfl
@[simp] theorem Hart.csrMark_chkint (h : Hart) (n : Nat) (b : Bool) : (h.csrMark n b).chkint = h.chkint := rfl
@[simp] theorem Hart.csrMark_chkPend (h : Hart) (n : Nat) (b : Bool) : (h.csrMark n b).chkPend = h.chkPend := rfl
@[simp] theorem Hart.csrMark_ctags (h : Hart) (n : Nat) (b : Bool) : (h.csrMark n b).ctags = h.ctags := rfl
@[simp] theorem Hart.csrMark_tbudget (h : Hart) (n : Nat) (b : Bool) : (h.csrMark n b).tbudget = h.tbudget := rfl
@[simp] theorem Hart.csrMark_jobrcb (h : Hart) (n : Nat) (b : Bool) : (h.csrMark n b).jobrcb = h.jobrcb := rfl
@[simp] theorem Hart.csrMark_srvrole (h : Hart) (n : Nat) (b : Bool) : (h.csrMark n b).srvrole = h.srvrole := rfl
@[simp] theorem Hart.csrMark_mcrec0 (h : Hart) (n : Nat) (b : Bool) : (h.csrMark n b).mcrec0 = h.mcrec0 := rfl
@[simp] theorem Hart.csrMark_mcrec1 (h : Hart) (n : Nat) (b : Bool) : (h.csrMark n b).mcrec1 = h.mcrec1 := rfl
@[simp] theorem Hart.csrMark_mcrec2 (h : Hart) (n : Nat) (b : Bool) : (h.csrMark n b).mcrec2 = h.mcrec2 := rfl
@[simp] theorem Hart.csrMark_mcrec3 (h : Hart) (n : Nat) (b : Bool) : (h.csrMark n b).mcrec3 = h.mcrec3 := rfl
@[simp] theorem Hart.csrMark_posted (h : Hart) (n : Nat) (b : Bool) : (h.csrMark n b).posted = h.posted := rfl
@[simp] theorem Hart.csrMark_done (h : Hart) (n : Nat) (b : Bool) : (h.csrMark n b).done = h.done := rfl
@[simp] theorem Hart.csrMark_resv (h : Hart) (n : Nat) (b : Bool) : (h.csrMark n b).resv = h.resv := rfl
@[simp] theorem Hart.csrMark_wait (h : Hart) (n : Nat) (b : Bool) : (h.csrMark n b).wait = h.wait := rfl
@[simp] theorem Hart.csrMark_progress (h : Hart) (n : Nat) (b : Bool) : (h.csrMark n b).progress = h.progress := rfl
@[simp] theorem Hart.csrMark_attempts (h : Hart) (n : Nat) (b : Bool) : (h.csrMark n b).attempts = h.attempts := rfl
@[simp] theorem Hart.csrMark_nest (h : Hart) (n : Nat) (b : Bool) : (h.csrMark n b).nest = h.nest := rfl
@[simp] theorem Hart.csrMark_trap (h : Hart) (n : Nat) (b : Bool) : (h.csrMark n b).trap = h.trap := rfl
@[simp] theorem Hart.csrMark_posting (h : Hart) (n : Nat) (b : Bool) : (h.csrMark n b).posting = h.posting := rfl
@[simp] theorem Hart.csrMark_prefetch (h : Hart) (n : Nat) (b : Bool) : (h.csrMark n b).prefetch = h.prefetch := rfl
@[simp] theorem Hart.csrMark_queues (h : Hart) (n : Nat) (b : Bool) : (h.csrMark n b).queues = h.queues := rfl
@[simp] theorem Hart.csrMark_tlb (h : Hart) (n : Nat) (b : Bool) : (h.csrMark n b).tlb = h.tlb := rfl
@[simp] theorem Hart.csrMark_buf (h : Hart) (n : Nat) (b : Bool) : (h.csrMark n b).buf = h.buf := rfl
@[simp] theorem Hart.csrMark_pops (h : Hart) (n : Nat) (b : Bool) : (h.csrMark n b).pops = h.pops := rfl
@[simp] theorem Hart.csrMark_matFaults (h : Hart) (n : Nat) (b : Bool) : (h.csrMark n b).matFaults = h.matFaults := rfl
@[simp] theorem Hart.csrMark_la (h : Hart) (n : Nat) (b : Bool) : (h.csrMark n b).la = h.la := rfl
@[simp] theorem Hart.csrMark_winDone (h : Hart) (n : Nat) (b : Bool) : (h.csrMark n b).winDone = h.winDone := rfl
@[simp] theorem Hart.csrMark_xpoison (h : Hart) (n : Nat) (b : Bool) : (h.csrMark n b).xpoison = h.xpoison := rfl
@[simp] theorem Hart.csrMark_fpoison (h : Hart) (n : Nat) (b : Bool) : (h.csrMark n b).fpoison = h.fpoison := rfl
@[simp] theorem Hart.csrMark_eccSeen (h : Hart) (n : Nat) (b : Bool) : (h.csrMark n b).eccSeen = h.eccSeen := rfl

/-! ### `State.eats` -/

@[simp] theorem State.eats_cpu (s : State) (p : Bool) : (s.eats p).cpu = s.cpu.eats p := by unfold State.eats; cases p <;> rfl
@[simp] theorem State.eats_entry (s : State) (p : Bool) : (s.eats p).entry = s.entry := by unfold State.eats; cases p <;> rfl
@[simp] theorem State.eats_parked (s : State) (p : Bool) : (s.eats p).parked = s.parked := by unfold State.eats; cases p <;> rfl
@[simp] theorem State.eats_mem (s : State) (p : Bool) : (s.eats p).mem = s.mem := by unfold State.eats; cases p <;> rfl
@[simp] theorem State.eats_banks (s : State) (p : Bool) : (s.eats p).banks = s.banks := by unfold State.eats; cases p <;> rfl
@[simp] theorem State.eats_rows (s : State) (p : Bool) : (s.eats p).rows = s.rows := by unfold State.eats; cases p <;> rfl
@[simp] theorem State.eats_l2tlb (s : State) (p : Bool) : (s.eats p).l2tlb = s.l2tlb := by unfold State.eats; cases p <;> rfl
@[simp] theorem State.eats_mmio (s : State) (p : Bool) : (s.eats p).mmio = s.mmio := by unfold State.eats; cases p <;> rfl
@[simp] theorem State.eats_cmds (s : State) (p : Bool) : (s.eats p).cmds = s.cmds := by unfold State.eats; cases p <;> rfl
@[simp] theorem State.eats_order (s : State) (p : Bool) : (s.eats p).order = s.order := by unfold State.eats; cases p <;> rfl
@[simp] theorem State.eats_inflight (s : State) (p : Bool) : (s.eats p).inflight = s.inflight := by unfold State.eats; cases p <;> rfl
@[simp] theorem State.eats_held (s : State) (p : Bool) : (s.eats p).held = s.held := by unfold State.eats; cases p <;> rfl
@[simp] theorem State.eats_dqu (s : State) (p : Bool) : (s.eats p).dqu = s.dqu := by unfold State.eats; cases p <;> rfl
@[simp] theorem State.eats_counters (s : State) (p : Bool) : (s.eats p).counters = s.counters := by unfold State.eats; cases p <;> rfl
@[simp] theorem State.eats_beacons (s : State) (p : Bool) : (s.eats p).beacons = s.beacons := by unfold State.eats; cases p <;> rfl
@[simp] theorem State.eats_cycles (s : State) (p : Bool) : (s.eats p).cycles = s.cycles := by unfold State.eats; cases p <;> rfl
@[simp] theorem State.eats_l2 (s : State) (p : Bool) : (s.eats p).l2 = s.l2 := by unfold State.eats; cases p <;> rfl
@[simp] theorem State.eats_power (s : State) (p : Bool) : (s.eats p).power = s.power := by unfold State.eats; cases p <;> rfl
@[simp] theorem State.eats_unwene (s : State) (p : Bool) : (s.eats p).unwene = s.unwene := by unfold State.eats; cases p <;> rfl
@[simp] theorem State.eats_ports (s : State) (p : Bool) : (s.eats p).ports = s.ports := by unfold State.eats; cases p <;> rfl
@[simp] theorem State.eats_poison (s : State) (p : Bool) : (s.eats p).poison = s.poison := by unfold State.eats; cases p <;> rfl
@[simp] theorem State.eats_agenda (s : State) (p : Bool) : (s.eats p).agenda = s.agenda := by unfold State.eats; cases p <;> rfl
@[simp] theorem State.eats_round (s : State) (p : Bool) : (s.eats p).round = s.round := by unfold State.eats; cases p <;> rfl
@[simp] theorem State.eats_free (s : State) (p : Bool) : (s.eats p).free = s.free := by unfold State.eats; cases p <;> rfl

/-! ### `State.forget` -/

@[simp] theorem State.forget_cpu (s : State) (p : Nat × Option (BitVec 12) → Bool) : (s.forget p).cpu = s.cpu := rfl
@[simp] theorem State.forget_entry (s : State) (p : Nat × Option (BitVec 12) → Bool) : (s.forget p).entry = s.entry := rfl
@[simp] theorem State.forget_parked (s : State) (p : Nat × Option (BitVec 12) → Bool) : (s.forget p).parked = s.parked := rfl
@[simp] theorem State.forget_mem (s : State) (p : Nat × Option (BitVec 12) → Bool) : (s.forget p).mem = s.mem := rfl
@[simp] theorem State.forget_banks (s : State) (p : Nat × Option (BitVec 12) → Bool) : (s.forget p).banks = s.banks := rfl
@[simp] theorem State.forget_rows (s : State) (p : Nat × Option (BitVec 12) → Bool) : (s.forget p).rows = s.rows := rfl
@[simp] theorem State.forget_l2tlb (s : State) (p : Nat × Option (BitVec 12) → Bool) : (s.forget p).l2tlb = s.l2tlb := rfl
@[simp] theorem State.forget_mmio (s : State) (p : Nat × Option (BitVec 12) → Bool) : (s.forget p).mmio = s.mmio := rfl
@[simp] theorem State.forget_cmds (s : State) (p : Nat × Option (BitVec 12) → Bool) : (s.forget p).cmds = s.cmds := rfl
@[simp] theorem State.forget_order (s : State) (p : Nat × Option (BitVec 12) → Bool) : (s.forget p).order = s.order := rfl
@[simp] theorem State.forget_inflight (s : State) (p : Nat × Option (BitVec 12) → Bool) : (s.forget p).inflight = s.inflight := rfl
@[simp] theorem State.forget_held (s : State) (p : Nat × Option (BitVec 12) → Bool) : (s.forget p).held = s.held := rfl
@[simp] theorem State.forget_dqu (s : State) (p : Nat × Option (BitVec 12) → Bool) : (s.forget p).dqu = s.dqu := rfl
@[simp] theorem State.forget_counters (s : State) (p : Nat × Option (BitVec 12) → Bool) : (s.forget p).counters = s.counters := rfl
@[simp] theorem State.forget_beacons (s : State) (p : Nat × Option (BitVec 12) → Bool) : (s.forget p).beacons = s.beacons := rfl
@[simp] theorem State.forget_cycles (s : State) (p : Nat × Option (BitVec 12) → Bool) : (s.forget p).cycles = s.cycles := rfl
@[simp] theorem State.forget_power (s : State) (p : Nat × Option (BitVec 12) → Bool) : (s.forget p).power = s.power := rfl
@[simp] theorem State.forget_unwene (s : State) (p : Nat × Option (BitVec 12) → Bool) : (s.forget p).unwene = s.unwene := rfl
@[simp] theorem State.forget_ports (s : State) (p : Nat × Option (BitVec 12) → Bool) : (s.forget p).ports = s.ports := rfl
@[simp] theorem State.forget_poison (s : State) (p : Nat × Option (BitVec 12) → Bool) : (s.forget p).poison = s.poison := rfl
@[simp] theorem State.forget_agenda (s : State) (p : Nat × Option (BitVec 12) → Bool) : (s.forget p).agenda = s.agenda := rfl
@[simp] theorem State.forget_round (s : State) (p : Nat × Option (BitVec 12) → Bool) : (s.forget p).round = s.round := rfl
@[simp] theorem State.forget_free (s : State) (p : Nat × Option (BitVec 12) → Bool) : (s.forget p).free = s.free := rfl

/-! ### `State.setBank` -/

@[simp] theorem State.setBank_cpu (s : State) (c b : Nat) (k : Bank) : (s.setBank c b k).cpu = s.cpu := rfl
@[simp] theorem State.setBank_entry (s : State) (c b : Nat) (k : Bank) : (s.setBank c b k).entry = s.entry := rfl
@[simp] theorem State.setBank_parked (s : State) (c b : Nat) (k : Bank) : (s.setBank c b k).parked = s.parked := rfl
@[simp] theorem State.setBank_mem (s : State) (c b : Nat) (k : Bank) : (s.setBank c b k).mem = s.mem := rfl
@[simp] theorem State.setBank_banks (s : State) (c b : Nat) (k : Bank) : (s.setBank c b k).banks = tabSet Bank.reset s.banks (c * 32 + b) k := rfl
@[simp] theorem State.setBank_rows (s : State) (c b : Nat) (k : Bank) : (s.setBank c b k).rows = s.rows := rfl
@[simp] theorem State.setBank_l2tlb (s : State) (c b : Nat) (k : Bank) : (s.setBank c b k).l2tlb = s.l2tlb := rfl
@[simp] theorem State.setBank_mmio (s : State) (c b : Nat) (k : Bank) : (s.setBank c b k).mmio = s.mmio := rfl
@[simp] theorem State.setBank_cmds (s : State) (c b : Nat) (k : Bank) : (s.setBank c b k).cmds = s.cmds := rfl
@[simp] theorem State.setBank_order (s : State) (c b : Nat) (k : Bank) : (s.setBank c b k).order = s.order := rfl
@[simp] theorem State.setBank_inflight (s : State) (c b : Nat) (k : Bank) : (s.setBank c b k).inflight = s.inflight := rfl
@[simp] theorem State.setBank_held (s : State) (c b : Nat) (k : Bank) : (s.setBank c b k).held = s.held := rfl
@[simp] theorem State.setBank_dqu (s : State) (c b : Nat) (k : Bank) : (s.setBank c b k).dqu = s.dqu := rfl
@[simp] theorem State.setBank_counters (s : State) (c b : Nat) (k : Bank) : (s.setBank c b k).counters = s.counters := rfl
@[simp] theorem State.setBank_beacons (s : State) (c b : Nat) (k : Bank) : (s.setBank c b k).beacons = s.beacons := rfl
@[simp] theorem State.setBank_cycles (s : State) (c b : Nat) (k : Bank) : (s.setBank c b k).cycles = s.cycles := rfl
@[simp] theorem State.setBank_l2 (s : State) (c b : Nat) (k : Bank) : (s.setBank c b k).l2 = s.l2 := rfl
@[simp] theorem State.setBank_power (s : State) (c b : Nat) (k : Bank) : (s.setBank c b k).power = s.power := rfl
@[simp] theorem State.setBank_unwene (s : State) (c b : Nat) (k : Bank) : (s.setBank c b k).unwene = s.unwene := rfl
@[simp] theorem State.setBank_ports (s : State) (c b : Nat) (k : Bank) : (s.setBank c b k).ports = s.ports := rfl
@[simp] theorem State.setBank_poison (s : State) (c b : Nat) (k : Bank) : (s.setBank c b k).poison = s.poison := rfl
@[simp] theorem State.setBank_agenda (s : State) (c b : Nat) (k : Bank) : (s.setBank c b k).agenda = s.agenda := rfl
@[simp] theorem State.setBank_round (s : State) (c b : Nat) (k : Bank) : (s.setBank c b k).round = s.round := rfl
@[simp] theorem State.setBank_free (s : State) (c b : Nat) (k : Bank) : (s.setBank c b k).free = s.free := rfl

/-! ### `State.setRow` -/

@[simp] theorem State.setRow_cpu (s : State) (c r : Nat) (w : Row) : (s.setRow c r w).cpu = s.cpu := rfl
@[simp] theorem State.setRow_entry (s : State) (c r : Nat) (w : Row) : (s.setRow c r w).entry = s.entry := rfl
@[simp] theorem State.setRow_parked (s : State) (c r : Nat) (w : Row) : (s.setRow c r w).parked = s.parked := rfl
@[simp] theorem State.setRow_mem (s : State) (c r : Nat) (w : Row) : (s.setRow c r w).mem = s.mem := rfl
@[simp] theorem State.setRow_banks (s : State) (c r : Nat) (w : Row) : (s.setRow c r w).banks = s.banks := rfl
@[simp] theorem State.setRow_rows (s : State) (c r : Nat) (w : Row) : (s.setRow c r w).rows = tabSet Row.reset s.rows (rowKey c r) w := rfl
@[simp] theorem State.setRow_l2tlb (s : State) (c r : Nat) (w : Row) : (s.setRow c r w).l2tlb = s.l2tlb := rfl
@[simp] theorem State.setRow_mmio (s : State) (c r : Nat) (w : Row) : (s.setRow c r w).mmio = s.mmio := rfl
@[simp] theorem State.setRow_cmds (s : State) (c r : Nat) (w : Row) : (s.setRow c r w).cmds = s.cmds := rfl
@[simp] theorem State.setRow_order (s : State) (c r : Nat) (w : Row) : (s.setRow c r w).order = s.order := rfl
@[simp] theorem State.setRow_inflight (s : State) (c r : Nat) (w : Row) : (s.setRow c r w).inflight = s.inflight := rfl
@[simp] theorem State.setRow_held (s : State) (c r : Nat) (w : Row) : (s.setRow c r w).held = s.held := rfl
@[simp] theorem State.setRow_dqu (s : State) (c r : Nat) (w : Row) : (s.setRow c r w).dqu = s.dqu := rfl
@[simp] theorem State.setRow_counters (s : State) (c r : Nat) (w : Row) : (s.setRow c r w).counters = s.counters := rfl
@[simp] theorem State.setRow_beacons (s : State) (c r : Nat) (w : Row) : (s.setRow c r w).beacons = s.beacons := rfl
@[simp] theorem State.setRow_cycles (s : State) (c r : Nat) (w : Row) : (s.setRow c r w).cycles = s.cycles := rfl
@[simp] theorem State.setRow_l2 (s : State) (c r : Nat) (w : Row) : (s.setRow c r w).l2 = s.l2 := rfl
@[simp] theorem State.setRow_power (s : State) (c r : Nat) (w : Row) : (s.setRow c r w).power = s.power := rfl
@[simp] theorem State.setRow_unwene (s : State) (c r : Nat) (w : Row) : (s.setRow c r w).unwene = s.unwene := rfl
@[simp] theorem State.setRow_ports (s : State) (c r : Nat) (w : Row) : (s.setRow c r w).ports = s.ports := rfl
@[simp] theorem State.setRow_poison (s : State) (c r : Nat) (w : Row) : (s.setRow c r w).poison = s.poison := rfl
@[simp] theorem State.setRow_agenda (s : State) (c r : Nat) (w : Row) : (s.setRow c r w).agenda = s.agenda := rfl
@[simp] theorem State.setRow_round (s : State) (c r : Nat) (w : Row) : (s.setRow c r w).round = s.round := rfl
@[simp] theorem State.setRow_free (s : State) (c r : Nat) (w : Row) : (s.setRow c r w).free = s.free := rfl

/-! ### `State.setCounter` -/

@[simp] theorem State.setCounter_cpu (s : State) (n : Nat) (c : Counter) : (s.setCounter n c).cpu = s.cpu := rfl
@[simp] theorem State.setCounter_entry (s : State) (n : Nat) (c : Counter) : (s.setCounter n c).entry = s.entry := rfl
@[simp] theorem State.setCounter_parked (s : State) (n : Nat) (c : Counter) : (s.setCounter n c).parked = s.parked := rfl
@[simp] theorem State.setCounter_mem (s : State) (n : Nat) (c : Counter) : (s.setCounter n c).mem = s.mem := rfl
@[simp] theorem State.setCounter_banks (s : State) (n : Nat) (c : Counter) : (s.setCounter n c).banks = s.banks := rfl
@[simp] theorem State.setCounter_rows (s : State) (n : Nat) (c : Counter) : (s.setCounter n c).rows = s.rows := rfl
@[simp] theorem State.setCounter_l2tlb (s : State) (n : Nat) (c : Counter) : (s.setCounter n c).l2tlb = s.l2tlb := rfl
@[simp] theorem State.setCounter_mmio (s : State) (n : Nat) (c : Counter) : (s.setCounter n c).mmio = s.mmio := rfl
@[simp] theorem State.setCounter_cmds (s : State) (n : Nat) (c : Counter) : (s.setCounter n c).cmds = s.cmds := rfl
@[simp] theorem State.setCounter_order (s : State) (n : Nat) (c : Counter) : (s.setCounter n c).order = s.order := rfl
@[simp] theorem State.setCounter_inflight (s : State) (n : Nat) (c : Counter) : (s.setCounter n c).inflight = s.inflight := rfl
@[simp] theorem State.setCounter_held (s : State) (n : Nat) (c : Counter) : (s.setCounter n c).held = s.held := rfl
@[simp] theorem State.setCounter_dqu (s : State) (n : Nat) (c : Counter) : (s.setCounter n c).dqu = s.dqu := rfl
@[simp] theorem State.setCounter_counters (s : State) (n : Nat) (c : Counter) : (s.setCounter n c).counters = tabSet Counter.reset s.counters n c := rfl
@[simp] theorem State.setCounter_beacons (s : State) (n : Nat) (c : Counter) : (s.setCounter n c).beacons = s.beacons := rfl
@[simp] theorem State.setCounter_cycles (s : State) (n : Nat) (c : Counter) : (s.setCounter n c).cycles = s.cycles := rfl
@[simp] theorem State.setCounter_l2 (s : State) (n : Nat) (c : Counter) : (s.setCounter n c).l2 = s.l2 := rfl
@[simp] theorem State.setCounter_power (s : State) (n : Nat) (c : Counter) : (s.setCounter n c).power = s.power := rfl
@[simp] theorem State.setCounter_unwene (s : State) (n : Nat) (c : Counter) : (s.setCounter n c).unwene = s.unwene := rfl
@[simp] theorem State.setCounter_ports (s : State) (n : Nat) (c : Counter) : (s.setCounter n c).ports = s.ports := rfl
@[simp] theorem State.setCounter_poison (s : State) (n : Nat) (c : Counter) : (s.setCounter n c).poison = s.poison := rfl
@[simp] theorem State.setCounter_agenda (s : State) (n : Nat) (c : Counter) : (s.setCounter n c).agenda = s.agenda := rfl
@[simp] theorem State.setCounter_round (s : State) (n : Nat) (c : Counter) : (s.setCounter n c).round = s.round := rfl
@[simp] theorem State.setCounter_free (s : State) (n : Nat) (c : Counter) : (s.setCounter n c).free = s.free := rfl

/-! ### `State.mmioSet` -/

@[simp] theorem State.mmioSet_cpu (s : State) (o : Nat) (r v : Word) : (s.mmioSet o r v).cpu = s.cpu := rfl
@[simp] theorem State.mmioSet_entry (s : State) (o : Nat) (r v : Word) : (s.mmioSet o r v).entry = s.entry := rfl
@[simp] theorem State.mmioSet_parked (s : State) (o : Nat) (r v : Word) : (s.mmioSet o r v).parked = s.parked := rfl
@[simp] theorem State.mmioSet_mem (s : State) (o : Nat) (r v : Word) : (s.mmioSet o r v).mem = s.mem := rfl
@[simp] theorem State.mmioSet_banks (s : State) (o : Nat) (r v : Word) : (s.mmioSet o r v).banks = s.banks := rfl
@[simp] theorem State.mmioSet_rows (s : State) (o : Nat) (r v : Word) : (s.mmioSet o r v).rows = s.rows := rfl
@[simp] theorem State.mmioSet_l2tlb (s : State) (o : Nat) (r v : Word) : (s.mmioSet o r v).l2tlb = s.l2tlb := rfl
@[simp] theorem State.mmioSet_mmio (s : State) (o : Nat) (r v : Word) : (s.mmioSet o r v).mmio = (if v = r then tabErase s.mmio o else tabInsert s.mmio o (some v)) := rfl
@[simp] theorem State.mmioSet_cmds (s : State) (o : Nat) (r v : Word) : (s.mmioSet o r v).cmds = s.cmds := rfl
@[simp] theorem State.mmioSet_order (s : State) (o : Nat) (r v : Word) : (s.mmioSet o r v).order = s.order := rfl
@[simp] theorem State.mmioSet_inflight (s : State) (o : Nat) (r v : Word) : (s.mmioSet o r v).inflight = s.inflight := rfl
@[simp] theorem State.mmioSet_held (s : State) (o : Nat) (r v : Word) : (s.mmioSet o r v).held = s.held := rfl
@[simp] theorem State.mmioSet_dqu (s : State) (o : Nat) (r v : Word) : (s.mmioSet o r v).dqu = s.dqu := rfl
@[simp] theorem State.mmioSet_counters (s : State) (o : Nat) (r v : Word) : (s.mmioSet o r v).counters = s.counters := rfl
@[simp] theorem State.mmioSet_beacons (s : State) (o : Nat) (r v : Word) : (s.mmioSet o r v).beacons = s.beacons := rfl
@[simp] theorem State.mmioSet_cycles (s : State) (o : Nat) (r v : Word) : (s.mmioSet o r v).cycles = s.cycles := rfl
@[simp] theorem State.mmioSet_l2 (s : State) (o : Nat) (r v : Word) : (s.mmioSet o r v).l2 = s.l2 := rfl
@[simp] theorem State.mmioSet_power (s : State) (o : Nat) (r v : Word) : (s.mmioSet o r v).power = s.power := rfl
@[simp] theorem State.mmioSet_unwene (s : State) (o : Nat) (r v : Word) : (s.mmioSet o r v).unwene = s.unwene := rfl
@[simp] theorem State.mmioSet_ports (s : State) (o : Nat) (r v : Word) : (s.mmioSet o r v).ports = s.ports := rfl
@[simp] theorem State.mmioSet_poison (s : State) (o : Nat) (r v : Word) : (s.mmioSet o r v).poison = s.poison := rfl
@[simp] theorem State.mmioSet_agenda (s : State) (o : Nat) (r v : Word) : (s.mmioSet o r v).agenda = s.agenda := rfl
@[simp] theorem State.mmioSet_round (s : State) (o : Nat) (r v : Word) : (s.mmioSet o r v).round = s.round := rfl
@[simp] theorem State.mmioSet_free (s : State) (o : Nat) (r v : Word) : (s.mmioSet o r v).free = s.free := rfl

/-! ### `State.send` -/

@[simp] theorem State.send_cpu (s : State) (m : Msg) : (s.send m).cpu = s.cpu := rfl
@[simp] theorem State.send_entry (s : State) (m : Msg) : (s.send m).entry = s.entry := rfl
@[simp] theorem State.send_parked (s : State) (m : Msg) : (s.send m).parked = s.parked := rfl
@[simp] theorem State.send_mem (s : State) (m : Msg) : (s.send m).mem = s.mem := rfl
@[simp] theorem State.send_banks (s : State) (m : Msg) : (s.send m).banks = s.banks := rfl
@[simp] theorem State.send_rows (s : State) (m : Msg) : (s.send m).rows = s.rows := rfl
@[simp] theorem State.send_l2tlb (s : State) (m : Msg) : (s.send m).l2tlb = s.l2tlb := rfl
@[simp] theorem State.send_mmio (s : State) (m : Msg) : (s.send m).mmio = s.mmio := rfl
@[simp] theorem State.send_cmds (s : State) (m : Msg) : (s.send m).cmds = s.cmds := rfl
@[simp] theorem State.send_order (s : State) (m : Msg) : (s.send m).order = s.order := rfl
@[simp] theorem State.send_inflight (s : State) (m : Msg) : (s.send m).inflight = s.inflight ++ [m] := rfl
@[simp] theorem State.send_held (s : State) (m : Msg) : (s.send m).held = s.held := rfl
@[simp] theorem State.send_dqu (s : State) (m : Msg) : (s.send m).dqu = s.dqu := rfl
@[simp] theorem State.send_counters (s : State) (m : Msg) : (s.send m).counters = s.counters := rfl
@[simp] theorem State.send_beacons (s : State) (m : Msg) : (s.send m).beacons = s.beacons := rfl
@[simp] theorem State.send_cycles (s : State) (m : Msg) : (s.send m).cycles = s.cycles := rfl
@[simp] theorem State.send_l2 (s : State) (m : Msg) : (s.send m).l2 = s.l2 := rfl
@[simp] theorem State.send_power (s : State) (m : Msg) : (s.send m).power = s.power := rfl
@[simp] theorem State.send_unwene (s : State) (m : Msg) : (s.send m).unwene = s.unwene := rfl
@[simp] theorem State.send_ports (s : State) (m : Msg) : (s.send m).ports = s.ports := rfl
@[simp] theorem State.send_poison (s : State) (m : Msg) : (s.send m).poison = s.poison := rfl
@[simp] theorem State.send_agenda (s : State) (m : Msg) : (s.send m).agenda = s.agenda := rfl
@[simp] theorem State.send_round (s : State) (m : Msg) : (s.send m).round = s.round := rfl
@[simp] theorem State.send_free (s : State) (m : Msg) : (s.send m).free = s.free := rfl

/-! ### Reads of the x registers -/

/-- x0 reads zero. -/
@[simp] theorem Hart.xr_zero (h : Hart) : h.xr 0 = 0 := by simp [Hart.xr]

/-- A read of an x register after a write: the value written, but that x0 stays zero. -/
theorem Hart.xr_setX (h : Hart) (r q : Reg) (v : Word) :
    (h.setX r v).xr q = if q = r ∧ r ≠ 0 then v else h.xr q := by
  unfold Hart.setX Hart.xr
  by_cases hq : q = 0
  · rw [if_pos hq, if_pos hq, if_neg]
    rintro ⟨h1, h2⟩
    exact h2 (h1 ▸ hq)
  · rw [if_neg hq, if_neg hq]
    by_cases hr : r = 0
    · rw [if_pos hr, if_neg (fun c => c.2 hr)]
    · rw [if_neg hr]
      by_cases e : q = r
      · subst e; rw [if_pos ⟨rfl, hr⟩]; exact Vector.getElem_set_self ..
      · rw [if_neg (fun c => e c.1)]
        exact Vector.getElem_set_ne r.isLt q.isLt (fun c => e (BitVec.eq_of_toNat_eq c.symm))

@[simp] theorem Hart.xr_advance (h : Hart) (n : Nat) (q : Reg) : (h.advance n).xr q = h.xr q := rfl
@[simp] theorem Hart.xr_eats (h : Hart) (p : Bool) (q : Reg) : (h.eats p).xr q = h.xr q := by simp [Hart.xr]
@[simp] theorem Hart.xr_poisonX (h : Hart) (r q : Reg) (b : Bool) : (h.poisonX r b).xr q = h.xr q := by simp [Hart.xr]
theorem Hart.xr_setXp (h : Hart) (r q : Reg) (v : Word) (b : Bool) :
    (h.setXp r v b).xr q = if q = r ∧ r ≠ 0 then v else h.xr q := by
  rw [← Hart.xr_setX]; simp [Hart.setXp]

/-- The mark of an x register after a marked write. -/
theorem Hart.xPoisoned_setXp (h : Hart) (r : Reg) (v : Word) (b : Bool) (hr : r ≠ 0) :
    (h.setXp r v b).xPoisoned r = b := by
  have hl : r.toNat < 32 := r.isLt
  have hr' : ¬r = 0#5 := hr
  cases b <;> simp [Hart.setXp, Hart.setX, Hart.poisonX, Hart.xPoisoned, hr', hl]

/-! ### Consuming poison -/

@[simp] theorem Hart.eats_false (h : Hart) : h.eats false = h := rfl
@[simp] theorem State.eats_false (s : State) : s.eats false = s := rfl

/-! ### Banks and rows -/

@[simp] theorem State.cpu_setBank (s : State) (c b : Nat) (k : Bank) : (s.setBank c b k).cpu = s.cpu := rfl

end Sys2Proof.Machine
end

