-- ==== Sys2Proof/Laws/Ops.lean ====
section
/-! SUPPORT. What the shared operations do, said once: commit points, taking an exception, returning from one. -/

namespace Sys2Proof.Machine

/-- A hart alone in replacing itself. -/
@[simp] theorem getHart_self (s : State) : s.getHart s.cpu.num = s.cpu := by simp [State.getHart]

@[simp] theorem modHart_self (s : State) (f : Hart → Hart) :
    s.modHart s.cpu.num f = { s with cpu := { f s.cpu with num := s.cpu.num } } := by
  simp [State.modHart, State.setHart]

/-- Without popped bytes nothing leaves a queue. -/
theorem commitPops_nil (s : State) (h : s.cpu.pops = []) : s.commitPops s.cpu.num = s := by
  obtain ⟨c, _, _, _, _, _, _, _, _, _, _, _, _, _, _, _, _, _, _, _, _, _, _, _⟩ := s
  cases c
  simp only at h
  subst h
  simp [State.commitPops, State.getHart, State.modHart, State.setHart]

/-- Without performed stores no sector's mark is taken away. -/
@[simp] theorem unmark_nil (s : State) : s.unmark [] = s := by
  unfold State.unmark
  split
  · rfl
  · have h : (s.poison.filter fun k => bufBad [] k || !bufCovers [] k) = s.poison :=
      List.filter_eq_self.2 fun k _ => by simp [bufCovers, bufByte, List.range, List.range.loop]
    rw [h]

/-- A core with nothing buffered, nothing popped and no open strip commits nothing (R51). -/
theorem commit_quiet (s : State) (hb : s.cpu.buf = []) (hp : s.cpu.pops = []) (hs : s.cpu.vec.strip = none) :
    s.commit = (s, none) := by
  have e : { s with cpu := { s.cpu with buf := [], vec := s.cpu.vec.closeStrip } } = s := by
    simp only [Vec.closeStrip, hs, Option.isSome_none]
    obtain ⟨c, _, _, _, _, _, _, _, _, _, _, _, _, _, _, _, _, _, _, _, _, _, _, _⟩ := s
    cases c
    simp only at hb
    subst hb
    rfl
  unfold State.commit
  simp only [e, hb, List.reverse_nil, State.performAll, List.drop_nil, unmark_nil]
  rw [commitPops_nil s hp]

/-- Such a core that runs no task, or a task that no signal has reached, completes its commit point and stays as it is. -/
theorem commitsTo_quiet {s : State} (h : quiet s) (hn : noStop s) : commitsTo s s :=
  ⟨commit_quiet s h.1 h.2.1 h.2.2, rfl, hn⟩

/-- A core without a task meets no abandon signal. -/
theorem noStop_of_task_none {s : State} (h : s.cpu.task = none) : noStop s := by
  intro t ht
  rw [h] at ht
  cases ht

/-- A task that no signal has reached goes on at its commit points. -/
theorem noStop_of_signal {s : State} {r : TaskRun} (h : s.cpu.task = some r) (hs : r.signal = false) : noStop s := by
  intro t ht
  rw [h] at ht
  cases ht
  simp [hs]

/-- A commit that performs everything and leaves the core with what it was running lets a body go on. -/
theorem runM_commit_ok {s t : State} (h : s.commit = (t, none)) (hr : t.cpu.run = s.cpu.run) :
    runM commit s = (.ok (), t) := by
  unfold commit
  rw [runM_bind_ok (runM_get s)]
  simp only [h]
  rw [runM_bind_ok (runM_set t s), if_pos hr]
  rfl

/-- The commit point of such a core, without an abandon signal. -/
theorem runM_commitPoint_ok {s t : State} (hc : commitsTo s t) : runM commitPoint s = (.ok (), t) := by
  obtain ⟨h, hr, hn⟩ := hc
  unfold commitPoint
  rw [runM_bind_ok (runM_commit_ok h hr), runM_bind_ok (runM_cpu t)]
  have ht : t.cpu.task = s.cpu.task := by simp only [Hart.task, hr]
  rw [ht]
  cases hc : s.cpu.task with
  | none => rfl
  | some r => simp only [hn r hc]; rfl

/-- An instruction whose body completes retires. -/
theorem instr_retired {i : Instr} {m : M Unit} {s t : State} {h : Hart} {n : Nat}
    (hm : runM m s = (.ok (), { t with cpu := h })) (hn : instrLen i = n := by rfl) :
    instr i m s = .next (t.retired h n) := by
  rw [instr_ok hm, hn]

/-- A scalar-extension word is no vector instruction's. -/
theorem scalar_bits (a b c d e : Nat) : (BitVec.ofNat 64 (rPack ⟨0x0B, a, b, c, d, e⟩)).toNat % 64 ≠ 0x1F := by
  simp only [rPack, BitVec.toNat_ofNat]
  omega

/-- The wait of an instruction that is no vector instruction is timed as its kind says. -/
theorem timedBy_scalar (w : Wait) {bits : Nat} (h : bits % 64 ≠ 0x1F) : w.timedBy bits = w := by
  simp [Wait.timedBy, h]

/-- A scalar instruction that has to wait does not retire. -/
theorem instr_waiting {i : Instr} {m : M Unit} {s t : State} {h : Hart} {w : Wait}
    (hm : runM m s = (.error (.wait w), { t with cpu := h })) (hb : (instrBits i).toNat % 64 ≠ 0x1F) :
    instr i m s = .next (t.waiting h w) := by
  have := run_wait (bits := instrBits i) (runM_bind_error (f := fun _ => advance (instrLen i)) hm)
  rw [timedBy_scalar w hb] at this
  exact this

/-- An instruction whose body is illegal takes the illegal-instruction exception. -/
theorem instr_illegalAt {i : Instr} {m : M Unit} {s t : State} (hm : runM m s = (.error (.excBits 2), t)) :
    instr i m s = .next (t.illegalAt i) := instr_illegal hm

/-- A body that jumps. -/
theorem instrJump_ok {i : Instr} {m : M Unit} {s t : State} (h : runM m s = (.ok (), t)) :
    instrJump i m s = .next t := run_ok h

theorem instrJump_exc {i : Instr} {m : M Unit} {s t : State} {e : Exc} (h : runM m s = (.error (.exc e), t)) :
    instrJump i m s = .next (t.takeTrap e (instrBits i).toNat) := run_exc h

theorem instrJump_ended {i : Instr} {m : M Unit} {s t : State} (h : runM m s = (.error .ended, t)) :
    instrJump i m s = .next t := run_ended h

theorem instr_exc {i : Instr} {m : M Unit} {s t : State} {e : Exc} (h : runM m s = (.error (.exc e), t)) :
    instr i m s = .next (t.takeTrap e (instrBits i).toNat) := by
  unfold instr; exact run_exc (by rw [runM_bind_error h])

theorem instr_wait {i : Instr} {m : M Unit} {s t : State} {w : Wait} (h : runM m s = (.error (.wait w), t)) :
    instr i m s = .next { t with cpu := { t.cpu with wait := some (w.timedBy (instrBits i).toNat) } } := by
  unfold instr; exact run_wait (by rw [runM_bind_error h])

theorem instr_ended {i : Instr} {m : M Unit} {s t : State} (h : runM m s = (.error .ended, t)) :
    instr i m s = .next t := by
  unfold instr; exact run_ended (by rw [runM_bind_error h])

/-- An admitted access goes on. -/
@[simp] theorem runM_obey_ok (va : Word) (e : Option Nat) (s : State) : runM (obey .ok va e) s = (.ok (), s) := rfl
@[simp] theorem runM_obey_fault (c : Nat) (va : Word) (e : Option Nat) (s : State) :
    runM (obey (.fault c) va e) s = (.error (.exc { Exc.plain c va with elem := e }), s) := rfl

/-- A trap that the hart does not delegate goes to M-mode (R332). -/
theorem enterTrap_m (h : Hart) (i : Bool) (c : Nat) (v e : Word) (hd : h.delegates i c = false) :
    (h.enterTrap i c v e).mode = .m ∧ (h.enterTrap i c v e).csr.mepc = e
      ∧ (h.enterTrap i c v e).csr.mcause = causeWord i c ∧ (h.enterTrap i c v e).csr.mtval = v
      ∧ (h.enterTrap i c v e).pc = tvecTarget h.csr.mtvec i c := by
  have hd' : ∀ r, Hart.delegates { h with run := r, wait := none, trap := none, posting := none, progress := 0, attempts := 0, nest := h.nest + 1, la := [] } i c = false :=
    fun _ => hd
  unfold Hart.enterTrap Hart.entered
  simp only [hd', Hart.eats_mode, Hart.eats_csr, Hart.eats_pc]
  simp

/-- A trap that the hart delegates goes to S-mode (R332). -/
theorem enterTrap_s (h : Hart) (i : Bool) (c : Nat) (v e : Word) (hd : h.delegates i c = true) :
    (h.enterTrap i c v e).mode = .s ∧ (h.enterTrap i c v e).csr.sepc = e
      ∧ (h.enterTrap i c v e).csr.scause = causeWord i c ∧ (h.enterTrap i c v e).csr.stval = v
      ∧ (h.enterTrap i c v e).pc = tvecTarget h.csr.stvec i c := by
  have hd' : ∀ r, Hart.delegates { h with run := r, wait := none, trap := none, posting := none, progress := 0, attempts := 0, nest := h.nest + 1, la := [] } i c = true :=
    fun _ => hd
  unfold Hart.enterTrap Hart.entered
  simp only [hd', Hart.eats_mode, Hart.eats_csr, Hart.eats_pc]
  simp

/-- A trap leaves every x and f register, the vector unit, memory addresses and the hart's number alone. -/
theorem enterTrap_frame (h : Hart) (i : Bool) (c : Nat) (v e : Word) :
    (h.enterTrap i c v e).x = h.x ∧ (h.enterTrap i c v e).f = h.f ∧ (h.enterTrap i c v e).vec = h.vec
      ∧ (h.enterTrap i c v e).num = h.num ∧ (h.enterTrap i c v e).wait = none := by
  have hd : ∀ r, Hart.delegates { h with run := r, wait := none, trap := none, posting := none, progress := 0, attempts := 0, nest := h.nest + 1, la := [] } i c = h.delegates i c :=
    fun _ => rfl
  unfold Hart.enterTrap Hart.entered
  simp only [hd, Hart.eats_x, Hart.eats_f, Hart.eats_vec, Hart.eats_num, Hart.eats_wait]
  cases h.delegates i c <;> simp

/-! ### Marks, requests of the L2, and loads behind buffered stores -/

theorem mem_addSorted (k n : Nat) (l : List Nat) : n ∈ addSorted k l ↔ n = k ∨ n ∈ l := by
  induction l with
  | nil => simp [addSorted]
  | cons a r ih =>
    unfold addSorted
    split
    · simp
    · split
      · subst_vars; simp
      · simp [ih, or_left_comm]

theorem mem_foldl_addSorted (ks l : List Nat) (n : Nat) : n ∈ ks.foldl (fun l k => addSorted k l) l ↔ n ∈ ks ∨ n ∈ l := by
  induction ks generalizing l with
  | nil => simp
  | cons k ks ih => simp [ih, mem_addSorted, or_assoc, or_left_comm]

theorem csrHome_ne_nil (n : Nat) : csrHome n ≠ [] := by unfold csrHome; split <;> simp

/-- A register's mark is what it has been given (R359, R361). -/
@[simp] theorem Hart.csrBad_csrMark (h : Hart) (n : Nat) (b : Bool) : (h.csrMark n b).csrBad n = b := by
  cases b
  · simp only [Hart.csrBad, Hart.csrMark, Bool.false_eq_true, if_false, List.any_eq_false]
    intro k hk
    simp [hk]
  · obtain ⟨k, hk⟩ := List.exists_mem_of_ne_nil _ (csrHome_ne_nil n)
    simp only [Hart.csrBad, Hart.csrMark, if_true, List.any_eq_true]
    exact ⟨k, hk, by simp [mem_foldl_addSorted, hk]⟩

/-- A mark of other registers stays as it is. -/
theorem Hart.mem_cpoison_csrMark (h : Hart) (n : Nat) (b : Bool) {k : Nat} (hk : k ∉ csrHome n) :
    k ∈ (h.csrMark n b).cpoison ↔ k ∈ h.cpoison := by
  cases b <;> simp [Hart.csrMark, mem_foldl_addSorted, hk]

/-- What is forgotten were requests, and those that `p` does not name stay (R92). -/
theorem State.mem_asked_forget (s : State) (p : Nat × Option (BitVec 12) → Bool) (q : Nat × Option (BitVec 12)) :
    (q ∈ (s.forget p).l2.asked → q ∈ s.l2.asked) ∧ (q ∈ s.l2.asked → p q = false → q ∈ (s.forget p).l2.asked) := by
  constructor
  · intro h
    exact (List.mem_filter.mp h).1
  · intro h hp
    exact List.mem_filter.mpr ⟨h, by simp [hp]⟩

/-- With nothing buffered a load returns what the device answers (R51). -/
@[simp] theorem State.forward_of_empty (s : State) (pa n : Nat) (r : Nat × Bool) (h : s.cpu.buf = []) : s.forward pa n r = r := by
  simp [State.forward, h]

end Sys2Proof.Machine
end

