-- ==== Sys2Proof/Tests/Slice0.lean ====
section
/-! SUPPORT. Tests of this model: a word of every encoding, an ill-formed term for each check of well-formedness, single steps
with results worked out by hand from the rules, and a witness for the hypotheses of each statement. -/

open Sys2Proof Sys2Proof.Machine

namespace Sys2Proof.Tests

/- The kernel checks these theorems one after another: many at once take a stack each. -/
set_option Elab.async false

/-! ### Small states -/

/-- The machine once a physically addressed read has asked the L2 for lines. -/
abbrev asked (s : State) (l : List Nat) : State := s.asking (l.map fun k => (k, none))

/-- The vector core 0 after reset, in M-mode, with value v in x register r. -/
def setX1 (s : State) (r : Reg) (v : Word) : State := { s with cpu := s.cpu.setX r v }

/-- The machine whose turn it is stream core 0 of cluster 0. -/
def scState : State := State.reset.turnTo (scNum 0 0)

/-- A machine whose core is in another mode. -/
def inMode (s : State) (mode : Mode) : State := { s with cpu := { s.cpu with mode := mode } }

/-- A vector unit change. -/
def onVec (s : State) (f : Vec → Vec) : State := { s with cpu := { s.cpu with vec := f s.cpu.vec } }

/-- A root job of the host with two tasks and no policy. -/
def aJob : Job where
  addr := 0x1000
  pa := 0x1000
  deadline := 1000000
  release := 0
  slack := 0
  budget := 0
  ctl := 0
  route := 0
  user := 0
  satp := 0
  priv := true
  parent := none
  state := 2
  count := 2
  clamped := false
  poison := false
  deferred := false
  abchild := false
  result := 0
  cont := none
  contDue := false
  contSeq := 0
  abandonAt := none
  lost := false
  keep := false
  runningAt := 0
  recBad := false
  resultBad := false

/-- A task of job 7. -/
def aTask (gang : Bool) : TaskRun := ⟨3, 7, 0, gang, false, 0, false, none, 0, 0, false, false, false, 0⟩

/-- A machine whose core executes a task of job 7. -/
def inTask7 (s : State) (gang : Bool) : State :=
  { s with cpu := { s.cpu with run := .task (aTask gang) }, dqu := { s.dqu with jobs := [(7, some aJob)], nextJob := 8 } }

/-- A bound slot. -/
def boundSlot (k : SlotKind) (gathered : List Byte) : Slot := ⟨8, k, 0, 0x2000, [], [], 0, 0, gathered, gathered.map fun _ => false⟩

/-- A machine with slot 2 bound. -/
def bindSlot (s : State) (k : SlotKind) (g : List Byte) : State :=
  onVec s fun v => { v with slots := v.slots.setIfInBounds 2 (some (boundSlot k g)) }

/-- An empty journal at the pc, as an opened strip holds one. -/
def aJournal : Journal where
  pc := 0x40
  x := [(9, 5)]
  f := Vector.replicate 32 0
  frm := 0
  fflags := 0
  vcfg := 0x40A
  vregs := [(5, [7, 8])]
  keys := Vector.replicate 8 0
  rngctr := 0
  slots := Vector.replicate 8 none
  vl := 4
  xpoison := 0
  fpoison := 0
  vpoison := []
  kpoison := []
  cpoison := []

/-- A machine inside an opened strip. -/
def inStrip (s : State) : State := onVec s fun v => { v with strip := some aJournal }

/-- A core with nothing buffered, popped or open, without a task, completes its commit point unchanged. -/
theorem commits_here {s : State} (hb : s.cpu.buf = []) (hp : s.cpu.pops = []) (hs : s.cpu.vec.strip = none)
    (ht : s.cpu.task = none) : commitsTo s s :=
  commitsTo_quiet ⟨hb, hp, hs⟩ (noStop_of_task_none ht)

/-- The same in a task that no signal has reached. -/
theorem commits_in_task (s : State) (gang : Bool) (hb : s.cpu.buf = []) (hp : s.cpu.pops = [])
    (hs : s.cpu.vec.strip = none) (ha : s.cpu.task = some (aTask gang)) : commitsTo s s :=
  commitsTo_quiet ⟨hb, hp, hs⟩ (noStop_of_signal ha rfl)

/-- A hart without poisoned x registers. -/
theorem clean_x {h : Hart} (hp : h.xpoison = 0) (r : Reg) : h.xPoisoned r = false := by simp [Hart.xPoisoned, hp]

/-- Writing an x register poisons none. -/
theorem clean_setX {h : Hart} (hp : h.xpoison = 0) (r : Reg) (v : Word) : (h.setX r v).xpoison = 0 := by
  unfold Hart.setX
  split <;> simp [hp]

/-! ### Witnesses: scalar extension -/

/-- The core with tags c and mask m in x6. -/
def tagState (c m : Word) : State := setX1 { State.reset with cpu := { State.reset.cpu with ctags := c } } 6 m

theorem witness_CompletionTags_commits (c m : Word) : commitsTo (tagState c m) (tagState c m) :=
  commits_here rfl rfl rfl rfl

theorem witness_CompletionTags_zero_mask : (tagState 5 0).cpu.xr 6 = 0 := by decide
theorem witness_CompletionTags_one_set :
    (tagState 1 5).cpu.ctags &&& (tagState 1 5).cpu.xr 6 ≠ 0
      ∧ (tagState 1 5).cpu.ctags &&& (tagState 1 5).cpu.xr 6 ≠ (tagState 1 5).cpu.xr 6 := by decide
theorem witness_CompletionTags_none_set :
    (tagState 2 5).cpu.xr 6 ≠ 0 ∧ (tagState 2 5).cpu.ctags &&& (tagState 2 5).cpu.xr 6 = 0 := by decide
theorem witness_CompletionTags_all_set :
    (tagState 7 5).cpu.ctags &&& (tagState 7 5).cpu.xr 6 = (tagState 7 5).cpu.xr 6 := by decide

/-- Context 1 with 5 commands posted and 3 done, and a number to wait for in x7. -/
def lineState (n : Word) : State :=
  let h := State.reset.cpu
  setX1 (setX1 { State.reset with cpu := { h with
    posted := h.posted.setIfInBounds 1 5, done := h.done.setIfInBounds 1 3 } } 6 1) 7 n

theorem witness_TimelineWaitAndPoll (n : Word) :
    (lineState n).cpu.matFaults = [] ∧ commitsTo (lineState n) (lineState n) := ⟨rfl, commits_here rfl rfl rfl rfl⟩
theorem witness_TimelineWaitAndPoll_reached :
    min ((lineState 3).cpu.xr 7).toNat ((lineState 3).cpu.posted.getD 1 0) ≤ (lineState 3).cpu.done.getD 1 0 := by decide
theorem witness_TimelineWaitAndPoll_not_reached :
    ¬ min ((lineState 4).cpu.xr 7).toNat ((lineState 4).cpu.posted.getD 1 0) ≤ (lineState 4).cpu.done.getD 1 0 := by decide
/-- R180: DONE reads, POSTED reads, and the poll is 0 one past DONE (hand calculation from the rule). -/
theorem test_tlread_and_tlpoll :
    (nextOr State.reset (exec (.tlread 5 6) (lineState 4))).cpu.xr 5 = 3
      ∧ (nextOr State.reset (exec (.tlpoll 5 6 7) (lineState 3))).cpu.xr 5 = 1
      ∧ (nextOr State.reset (exec (.tlpoll 5 6 7) (lineState 4))).cpu.xr 5 = 0 := by decide

theorem witness_OvfldAndMcack : State.reset.cpu.mode = .m ∧ State.reset.cpu.mode ≠ .u
    ∧ (inMode State.reset .u).cpu.mode = .u ∧ (inMode State.reset .s).cpu.mode ≠ .m := by decide

/-! ### Witnesses: vector configuration and strips -/

/-- The core with a request in x6. -/
def requestState (v : Word) : State := setX1 State.reset 6 v

/-- The boundary of the supported groups: four registers a group, 8 registers in all; and a change of NREG. -/
theorem witness_VconfInstallsOrRefuses_installs :
    let s := requestState 0x412
    s.cpu.xPoisoned 6 = false ∧ s.cpu.isVc = true ∧ 0x412 = (s.cpu.xr 6).toNat % 8192 ∧ 0x412 % 4 ≠ 0
      ∧ 4 * 2 ^ (0x412 / 16 % 4) ≤ 8 * 2 ^ (0x412 / 4 % 4) ∧ (0x412 / 4096 % 2 = 1 → 2 ≤ popLanes s.cpu.vec.lanes)
      ∧ s.cpu.vec.strip = none ∧ 8 * 2 ^ (0x412 / 4 % 4) ≠ 8 * 2 ^ (s.cpu.vec.vcfg.toNat / 4 % 4) := by decide
theorem witness_VconfInstallsOrRefuses_slots : noSlots State.reset.cpu := by
  intro i
  simp only [State.reset, Hart.reset, Vec.reset]
  rcases Nat.lt_or_ge i 8 with h | h
  · simp [Vector.getD, h]
  · simp [Vector.getD, Nat.not_lt.mpr h]
theorem witness_VconfInstallsOrRefuses_prot :
    (0x140A / 4096 % 2 = 1 ∧ 2 ≤ popLanes (requestState 0x140A).cpu.vec.lanes)
      ∧ 8 * 2 ^ (0x140A / 4 % 4) = 8 * 2 ^ ((requestState 0x140A).cpu.vec.vcfg.toNat / 4 % 4) := by decide
theorem witness_VconfInstallsOrRefuses_refuses :
    State.reset.cpu.isVc = true ∧ State.reset.cpu.vec.strip = none ∧ 0 % 4 = 0
      ∧ 8 * 2 ^ (0x22 / 4 % 4) < 4 * 2 ^ (0x22 / 16 % 4) := by decide
theorem witness_VconfInstallsOrRefuses_in_strip :
    (inStrip State.reset).cpu.vec.strip ≠ none ∧ (0x402 : Nat) / 4 % 4 ≠ (inStrip State.reset).cpu.vec.vcfg.toNat / 4 % 4 := by
  decide
/-- R155: EW 32, 8 registers, group 2 by the formula of the rule, 32 lanes; EW 00 is unsupported and answers 0. -/
theorem test_vconf_answers_mvl :
    (nextOr State.reset (exec (.vconf 5 6) (requestState 0x412))).cpu.xr 5
      = BitVec.ofNat 64 (32 * (32768 / 8 / 32) / 4 * 2)
    ∧ (nextOr State.reset (exec (.vconf 5 6) (requestState 0x40C))).cpu.xr 5 = 0 := by decide

theorem witness_VstripOpensAJournalledStrip :
    let s := requestState 40
    s.cpu.xPoisoned 6 = false ∧ 40 = (s.cpu.xr 6).toNat ∧ s.cpu.isVc = true ∧ commitsTo s s :=
  ⟨by decide, by decide, by decide, commits_here rfl rfl rfl rfl⟩
theorem witness_VstripOpensAJournalledStrip_many :
    8 < popWord (onVec State.reset fun v => { v with vckmask := 0x1FF }).cpu.vec.vckmask := by decide

theorem witness_VcloseEndsTheStrip :
    (inStrip State.reset).cpu.isVc = true ∧ (inStrip State.reset).cpu.buf = [] ∧ (inStrip State.reset).cpu.pops = []
      ∧ noStop (inStrip State.reset) ∧ (inStrip State.reset).cpu.vec.strip ≠ none ∧ State.reset.cpu.vec.strip = none :=
  ⟨by decide, rfl, rfl, noStop_of_task_none rfl, by decide, rfl⟩

theorem witness_FencesAndTranslations :
    commitsTo State.reset State.reset ∧ State.reset.cpu.isVc = true ∧ scState.cpu.isVc = false ∧ State.reset.cpu.mode = .m
      ∧ State.reset.cpu.xPoisoned 6 = false ∧ (inMode State.reset .u).cpu.mode = .u :=
  ⟨commits_here rfl rfl rfl rfl, by decide, by decide, rfl, by decide, rfl⟩
theorem witness_FencesAndTranslations_tvm :
    let s := inMode { State.reset with cpu := { State.reset.cpu with
      csr := { State.reset.cpu.csr with mstatus := 0x100000 } } } .s
    s.cpu.mode = .s ∧ s.cpu.csr.mstatus.getLsbD 20 = true := by decide

/-! ### Witnesses: jobs -/

/-- A core of a ROW task or of a task of its own, at peace. -/
theorem task_commits (gang : Bool) : commitsTo (inTask7 State.reset gang) (inTask7 State.reset gang) :=
  commits_in_task _ gang rfl rfl rfl rfl
theorem task_in (gang : Bool) : inTaskOf (inTask7 State.reset gang) (aTask gang) := ⟨rfl, rfl⟩

/-- The RCB of a child: deadline and release as given, cluster 0 allowed, one task with its entry at 0x100 for a stream core. -/
def childRcb (deadline release : Nat) : List Byte :=
  bytesOf 8 deadline ++ bytesOf 8 release ++ bytesOf 8 0 ++ bytesOf 8 (2 ^ 36) ++ bytesOf 32 0
    ++ bytesOf 8 0x100 ++ bytesOf 16 0 ++ bytesOf 8 2 ++ bytesOf 32 0

/-- A task about to spawn the job whose RCB lies at the address in x6. -/
def spawnState (a : Word) (rcb : List Byte) : State :=
  setX1 { inTask7 State.reset false with mem := memSetBytes [] 0x4000 rcb } 6 a

theorem witness_SpawnAcceptsOrRefuses_task (a : Word) (rcb : List Byte) :
    inTaskOf (spawnState a rcb) (aTask false) ∧ commitsTo (spawnState a rcb) (spawnState a rcb)
      ∧ (spawnState a rcb).job? 7 = some aJob ∧ aJob.abandonAt = none
      ∧ (spawnState a rcb).cpu.xPoisoned 6 = false ∧ (spawnState a rcb).cpu.xPoisoned 7 = false :=
  ⟨⟨rfl, rfl⟩, commits_in_task _ false rfl rfl rfl rfl, rfl, rfl, clean_x (clean_setX rfl 6 a) 6, clean_x (clean_setX rfl 6 a) 7⟩
theorem witness_SpawnAcceptsOrRefuses_misaligned : ((spawnState 0x4040 []).cpu.xr 6).toNat % 128 ≠ 0 := by decide
set_option maxRecDepth 20000 in
theorem witness_SpawnAcceptsOrRefuses_reads :
    let s := spawnState 0x4000 (childRcb 2000000 0)
    let v := asked s [0x80]
    (s.cpu.xr 6).toNat % 128 = 0 ∧ answers (readRecord 0x4000 128) s (childRcb 2000000 0, false) v
      ∧ answers (translate .load 0x4000 none) v (identity 0x4000) v := ⟨by decide, by rfl, by rfl⟩
/-- An invalid child (no cluster), and a valid one that is accepted at once, held until its release, or late. -/
theorem witness_SpawnAcceptsOrRefuses_codes :
    rcbInvalid ((childRcb 2000000 0).map fun _ => 0) = true
      ∧ spawnCode (spawnState 0x4000 (childRcb 2000000 0)) aJob (childRcb 2000000 0) 1 0x4000 = 0
      ∧ (spawnState 0x4000 (childRcb 2000000 0)).tenantMismatch (jobOf 0x4000 0x4000 (childRcb 2000000 0)) = false := by
  decide
set_option maxRecDepth 20000 in
theorem test_jspawn_accepts :
    let t := nextOr State.reset (exec (.jspawn 5 6) (spawnState 0x4000 (childRcb 2000000 0)))
    t.cpu.xr 5 = 0 ∧ (t.job? 7).map (·.count) = some 3 ∧ t.dqu.queue.length = 1 ∧ memByte t.mem 0x4028 = 2 := by decide
theorem test_jspawn_refuses :
    (nextOr State.reset (exec (.jspawn 5 6) (spawnState 0x4040 []))).cpu.xr 5 = 4
      ∧ (nextOr State.reset (exec (.jspawn 5 6) (spawnState 0x4000 []))).cpu.xr 5 = 4 := by decide

set_option maxRecDepth 20000 in
/-- A task about to set its job's continuation to the descriptor at x6. -/
theorem witness_ContinuationAndDeferral :
    let s := spawnState 0x4040 (childRcb 2000000 0)
    s.cpu.xPoisoned 6 = false ∧ (s.cpu.xr 6).toNat % 32 = 0
      ∧ answers (readRecord 0x4040 32) s (memBytes s.mem 0x4040 32, false) (asked s [0x80]) ∧ s.job? 7 = some aJob ∧ aJob.final = false :=
  ⟨by decide, by decide, by rfl, rfl, by decide⟩
theorem witness_ContinuationAndDeferral_misaligned : ((spawnState 0x4008 []).cpu.xr 6).toNat % 32 ≠ 0 := by decide
set_option maxRecDepth 20000 in
theorem test_jcont_sets :
    let s := spawnState 0x4040 (childRcb 2000000 0)
    let t := nextOr State.reset (exec (.jcont 5 6) s)
    t.cpu.xr 5 = 0 ∧ (t.job? 7).map (fun j => j.cont.map (·.entry)) = some (some 0x100)
      ∧ (nextOr State.reset (exec (.jcont 5 6) (spawnState 0x4000 []))).cpu.xr 5 = 4 := by decide

/-- Job 7 with its child 9, a final child 10 and the root 11; a queued task of 9 in a slot of core 3, one of 11; a FILL of 9. -/
def familyState : State :=
  let child (st : BitVec 8) : Job := { aJob with parent := some 7, count := 1, state := st }
  { State.reset with dqu := { Dqu.reset with
      jobs := [(7, some aJob), (9, some (child 2)), (10, some (child 0x10)), (11, some aJob)]
      queue := [⟨3, 9, 0, ⟨0x100, 0, 0, false⟩, 0, 0, [3]⟩, ⟨4, 11, 0, ⟨0x100, 0, 0, false⟩, 1, 0, []⟩]
      nextJob := 12, nextTask := 5 } }
theorem witness_ContinuationAndDeferral_family :
    tabWf none 0 familyState.dqu.jobs = true ∧ (familyState.dqu.queue.map (·.id)).Nodup
      ∧ (familyState.job? 9).map (·.final) = some false ∧ (familyState.job? 10).map (·.final) = some true
      ∧ familyState.inFamily 7 7 ∧ familyState.inFamily 7 9 ∧ ¬familyState.inFamily 9 7 := by
  refine ⟨by decide, by decide, by decide, by decide, ⟨0, by decide, rfl⟩, ⟨1, by decide, _, _, rfl, rfl, rfl⟩, ?_⟩
  rintro ⟨_ | n, -, h⟩
  · cases h
  · obtain ⟨j, q, h, hq, -⟩ := h
    cases h
    cases hq
/-- Deferring job 7 defers 9, not the final 10, and empties the slot of 9's task; abandoning it withdraws that task, and 9 is final. -/
theorem test_family :
    let d := familyState.deferJob 7
    let a := familyState.abandon 7 5 2005 false
    [7, 9, 10, 11].map (fun k => (d.job? k).map (·.deferred)) = [some true, some true, some false, some false]
      ∧ d.dqu.queue.map (·.slots) = [[], []] ∧ a.dqu.queue.map (·.id) = [4]
      ∧ [7, 9, 10, 11].map (fun k => (a.job? k).map fun j => (j.abandonAt, j.state, j.count, j.abchild))
        = [some (some 5, 2, 1, true), some (some 5, 0x11, 0, false), some (none, 0x10, 1, false), some (none, 2, 2, false)] := by
  decide +kernel
theorem witness_TaskEndsAndAbandonment_family :
    ∀ d j p, familyState.job? d = some j → j.parent = some p → p < d := by
  intro d j p hj hp
  simp only [familyState, State.job?, tabGet] at hj
  split_ifs at hj <;> cases hj <;> cases hp <;> omega

/-- A core in a task of job 7, which stands as j; with gang, of a ROW task that core 1 runs too. -/
def endState (j : Job) (gang : Bool) : State :=
  { inTask7 State.reset gang with
    dqu := { Dqu.reset with jobs := [(7, some j)], nextJob := 8 }
    parked := if gang then [(1, some { State.reset.getHart 1 with run := .task (aTask true) })] else [] }
theorem witness_TaskEndsAndAbandonment (j : Job) (gang : Bool) (hf : j.final = false) :
    taskEnds (endState j gang) (endState j gang) .tend (aTask gang) j none ∧ drained (endState j gang).cpu := by
  refine ⟨⟨Or.inl ⟨rfl, rfl⟩, ⟨rfl, rfl⟩, rfl, commits_in_task _ gang rfl rfl rfl rfl, rfl, rfl, rfl, rfl, rfl, hf⟩, ?_⟩
  intro i sl d l h
  cases (witness_VconfInstallsOrRefuses_slots i).symm.trans h
/-- Its COUNT reaches zero: done, abandoned, or with a continuation, for which there is an entry or none; a ROW task with others. -/
theorem witness_TaskEndsAndAbandonment_ends :
    let last (f : Job → Job) := f { aJob with count := 1 }
    let cont := last fun j => { j with cont := some ⟨0x100, 0, 2, false⟩ }
    (last id).final = false ∧ (last id).count = 1 ∧ (last id).abandonAt = none ∧ (last id).cont = none
      ∧ (last fun j => { j with abandonAt := some 5 }).final = false ∧ cont.final = false ∧ cont.contDue = false
      ∧ (endState cont false).dqu.queue.length < 65536
      ∧ (∀ p ∈ (endState cont false).dqu.jobs, ∀ q, p.2 = some q → q.contDue = false)
      ∧ (List.replicate 65536 (⟨3, 7, 0, ⟨0x100, 0, 2, false⟩, 0, 0, []⟩ : QTask)).length = 65536
      ∧ (∃ m ∈ rowHarts (rowOfHart 0), m ≠ 0 ∧ ∃ o, ((endState aJob true).getHart m).task = some o ∧ o.id = 3)
      ∧ ¬ ∃ m ∈ rowHarts (rowOfHart 0), m ≠ 0 ∧ ∃ o, ((inTask7 State.reset true).getHart m).task = some o ∧ o.id = 3 := by
  refine ⟨by decide, rfl, rfl, rfl, by decide, by decide, rfl, by decide, ?_, List.length_replicate .., ⟨1, by decide, by decide, _, rfl, rfl⟩, ?_⟩
  · intro p hp q hq
    cases hp with
    | head => cases hq; rfl
    | tail _ h => cases h
  · rintro ⟨m, hm, hn, o, ho, -⟩
    have h : ∀ m ∈ rowHarts (rowOfHart 0), m ≠ 0 → ((inTask7 State.reset true).getHart m).task = none := by decide
    rw [h m hm hn] at ho
    cases ho
/-- A message sink in slot 2 with a partial message. -/
theorem witness_TaskEndsAndAbandonment_sink :
    let s := bindSlot (inTask7 State.reset false) (.msgSink 0 0) [1, 2]
    s.cpu.vec.slots.getD 2 none = some (boundSlot (.msgSink 0 0) [1, 2]) ∧ drained (s.cpu.unslotted 2) ∧ s.inFlightOf 0 < 8 := by
  refine ⟨by decide, ?_, by decide⟩
  have h : ∀ i, i < 8 → ((bindSlot (inTask7 State.reset false) (.msgSink 0 0) [1, 2]).cpu.unslotted 2).vec.slots.getD i none = none := by
    decide
  intro i sl d l hs
  rcases Nat.lt_or_ge i 8 with hi | hi
  · rw [h i hi] at hs
    cases hs
  · simp [Vector.getD, Nat.not_lt.mpr hi] at hs
/-- DONE with DONE_TIME 0 and RESULT; a continuation's task is enqueued; a ROW task goes on while another core runs it. -/
theorem test_last_end :
    let t := nextOr State.reset (exec (.tendr 6) (setX1 (endState { aJob with count := 1 } false) 6 99))
    let c := nextOr State.reset (exec .tend (endState { aJob with count := 1, cont := some ⟨0x100, 0, 2, false⟩ } false))
    (t.job? 7).map (fun j => (j.state, j.count)) = some (0x10, 0) ∧ memRead t.mem 0x1028 1 = 0x10 ∧ memRead t.mem 0x1060 8 = 99
      ∧ (c.job? 7).map (fun j => (j.state, j.count, j.cont)) = some (2, 1, none) ∧ c.dqu.queue.map (·.job) = [7]
      ∧ ((nextOr State.reset (exec .tend (endState { aJob with count := 1 } true))).job? 7).map (·.count) = some 1 := by decide +kernel
theorem test_tendr_leaves_result :
    let t := nextOr State.reset (exec (.tendr 6) (setX1 (inTask7 State.reset false) 6 99))
    t.cpu.run = .idle ∧ (t.job? 7).map (fun j => (j.count, j.result)) = some (1, 99) := by decide
theorem test_jabandon_abandons :
    let t := nextOr State.reset (exec .jabandon (inTask7 State.reset false))
    t.cpu.run = .idle ∧ (t.job? 7).map (·.abandonAt) = some (some 0) := by decide

theorem witness_TaskInstructionsOutsideATask :
    State.reset.cpu.task = none ∧ State.reset.cpu.isVc = true ∧ State.reset.cpu.wait = none
      ∧ State.reset.cpu.xPoisoned 6 = false ∧ (State.reset.cpu.xr 6).toNat % 32 = 0 ∧ State.reset.cpu.matFaults = []
      ∧ State.reset.cpu.ownTask = none := by decide
/-- R347: HINGE outside a ROW task has cause 28. -/
theorem test_wdrive_hinge :
    (nextOr State.reset (exec (.wdrive 6) State.reset)).cpu.csr.mcause = 28
      ∧ (nextOr State.reset (exec (.jdefer) State.reset)).cpu.csr.mcause = 2 := by decide

/-! ### Witnesses: commands and the hinge -/

/-- A core with a command word at 0x4000, its address in x6. -/
def commandState (s : State) (w : Nat) : State := setX1 { s with mem := memSetBytes [] 0x4000 (bytesOf 32 w) } 6 0x4000

/-- A COPYND of queue 3, tag 5. -/
def copyWord : Nat := 1 + 256 * 1 + 4096 * 3 + 65536 * 5

theorem witness_CpostPostsTheCommand :
    let s := commandState State.reset copyWord
    let u : State := { asked s [0x80] with cpu := { s.cpu with posting := some copyWord } }
    s.cpu.xPoisoned 6 = false ∧ (s.cpu.xr 6).toNat % 32 = 0 ∧ commitsTo s s
      ∧ answers (commandOnce 0x4000) s copyWord u ∧ u.postStalls 1 none = false :=
  ⟨by decide, by decide, commits_here rfl rfl rfl rfl, by rfl, by decide⟩
/-- A job whose COUNT is full holds a further command up. -/
theorem witness_CpostPostsTheCommand_stalls :
    let full : Job := { aJob with count := 65535 }
    let s := inTask7 (commandState State.reset copyWord) false
    let u : State := { s with dqu := { s.dqu with jobs := [(7, some full)] } }
    u.cpu.ownTask = some (aTask false) ∧ u.job? 7 = some full ∧ u.postStalls 1 (some full) = true := by decide
theorem test_cpost :
    let t := nextOr State.reset (exec (.cpost 5 6) (commandState State.reset copyWord))
    t.cpu.xr 5 = 1 ∧ t.cpu.posted.getD 1 0 = 1 ∧ t.cmds.length = 1 := by decide

/-- A core of a ROW task whose three row mates have joined. -/
def hingeState (w : Nat) (drive : Bool) (cols : List Nat) : State :=
  (commandState (inTask7 State.reset true) w).setRow 0 0
    { Row.reset with joins := cols.map fun c => ⟨c, drive, 0x4000, if drive then 0 else w, .none, 0⟩ }

/-- An MZERO of tile 1. -/
def mzeroWord : Nat := 5 + 65536 * 1

theorem witness_MgangIssuesAtTheFourthJoin :
    let s := hingeState mzeroWord false [1, 2, 3]
    let row := s.row s.cpu.cluster s.cpu.row
    s.cpu.isVc = true ∧ s.cpu.wait = none ∧ s.cpu.xPoisoned 6 = false ∧ (s.cpu.xr 6).toNat % 32 = 0 ∧ s.cpu.matFaults = []
      ∧ commitsTo s s ∧ inTaskOf s (aTask true) ∧ (aTask true).gang = true ∧ answers (commandOnce (s.cpu.xr 6)) s mzeroWord
        { asked s [0x80] with cpu := { s.cpu with posting := some mzeroWord } }
      ∧ s.job? 7 = some aJob ∧ aJob.count < 65535 ∧ s.cpu.posted.getD 0 0 < s.cpu.done.getD 0 0 + 64
      ∧ (∀ k ∈ row.joins, k.isDrive = false ∧ k.words = mzeroWord ∧ k.col < 4 ∧ k.col ≠ s.cpu.col)
      ∧ (row.joins.map Join.col).Nodup ∧ row.joins.length = 3 :=
  ⟨by decide, rfl, by decide, by decide, rfl, commits_in_task _ true rfl rfl rfl rfl, ⟨rfl, rfl⟩, rfl, by rfl, rfl, by decide,
    by decide, by decide, by decide, by decide⟩
/-- Joins that differ: of a `wdrive` with a fourth core's `mgang`, and of another address; the cores of the row are quiet. -/
theorem witness_hinge_differs (w : Nat) (drive : Bool) :
    let s := hingeState w drive [1, 2, 3]
    (∃ k ∈ (s.row 0 0).joins, k.isDrive = drive ∧ k.addr = 0x4000) ∧ ∀ c, c < 4 → (s.getHart (vcNum 0 c)).quiet := by
  refine ⟨⟨_, List.mem_cons_self .., rfl, rfl⟩, fun c hc => ?_⟩
  have : c = 0 ∨ c = 1 ∨ c = 2 ∨ c = 3 := by omega
  rcases this with rfl | rfl | rfl | rfl <;> exact ⟨rfl, rfl, rfl⟩
/-- R254: a fourth core that joins with a `mgang` where the others wait in `wdrive` makes all four take HINGE. -/
theorem test_hinge_differs :
    let t := nextOr State.reset (exec (.mgangNoOperand 5 6) (hingeState mzeroWord true [1, 2, 3]))
    t.cpu.csr.mcause = 28 ∧ (t.getHart 3).csr.mcause = 28 ∧ (t.getHart 3).csr.mtval = 0x4000 ∧ (t.row 0 0).joins = [] := by decide
theorem witness_MgangIssuesAtTheFourthJoin_earlier :
    let s := hingeState mzeroWord false [2, 3]
    (s.row s.cpu.cluster s.cpu.row).joins.length < 3 ∧ s.cpu.vec.groupOk 8 = true
      ∧ imageNeed mzeroWord ≤ s.cpu.vec.imageB * s.cpu.vec.grp := by decide
theorem test_mgang_fourth_join :
    let t := nextOr State.reset (exec (.mgangNoOperand 5 6) (hingeState mzeroWord false [1, 2, 3]))
    t.cpu.xr 5 = 1 ∧ (t.row 0 0).joins = [] ∧ (t.row 0 0).queue.length = 1 ∧ t.cpu.wait = none := by decide
theorem test_mgang_waits :
    let t := nextOr State.reset (exec (.mgangNoOperand 5 6) (hingeState mzeroWord false [2, 3]))
    (t.row 0 0).joins.length = 3 ∧ (t.row 0 0).queue = [] ∧ t.cpu.wait = some ⟨.hinge false, 0x4000, 0, false⟩ := by decide

theorem witness_WdriveStartsTheChainAtTheFourthJoin :
    let s := hingeState 0 true [1, 2, 3]
    let row := s.row s.cpu.cluster s.cpu.row
    commitsTo s s ∧ inTaskOf s (aTask true) ∧ s.cpu.num < hartCount
      ∧ (∀ k ∈ row.joins, k.isDrive = true ∧ k.addr = s.cpu.xr 6 ∧ k.col < 4 ∧ k.col ≠ s.cpu.col)
      ∧ (row.joins.map Join.col).Nodup ∧ row.joins.length = 3 :=
  ⟨commits_in_task _ true rfl rfl rfl rfl, ⟨rfl, rfl⟩, by decide, by decide, by decide, by decide⟩
theorem witness_WdriveStartsTheChainAtTheFourthJoin_misaligned :
    ((setX1 (inTask7 State.reset true) 6 0x4010).cpu.xr 6).toNat % 32 ≠ 0 ∧ State.reset.cpu.csrBad 0xCC4 = false := by decide
theorem test_wdrive_misaligned :
    (nextOr State.reset (exec (.wdrive 6) (setX1 (inTask7 State.reset true) 6 0x4010))).cpu.csr.mcause = 4 := by decide
theorem test_wdrive_fourth_join :
    let t := nextOr State.reset (exec (.wdrive 6) (hingeState 0 true [1, 2, 3]))
    (t.row 0 0).chain.map (·.block) = some 0x4000 ∧ (t.row 0 0).joins = [] := by decide

/-! ### Witnesses: streams -/

/-- A descriptor of a memory-pattern source of four elements, 4 bytes apart, from 0x8000. -/
def patternDesc : List Byte :=
  bytesOf 8 0 ++ bytesOf 8 0x8000 ++ bytesOf 16 4 ++ bytesOf 8 4 ++ bytesOf 24 0

/-- A core with a descriptor at 0x4000 and its address in x6. -/
def descState (bs : List Byte) : State := setX1 { State.reset with mem := memSetBytes [] 0x4000 bs } 6 0x4000

set_option maxRecDepth 20000 in
theorem witness_StreamSlots_binds :
    let s := descState patternDesc
    s.cpu.isVc = true ∧ s.cpu.vec.strip = none ∧ s.cpu.vec.groupOk 8 = true ∧ s.cpu.xPoisoned 6 = false
      ∧ (s.cpu.xr 6).toNat % 64 = 0 ∧ answers (readRecord 0x4000 64) s (patternDesc, false) (asked s [0x80])
      ∧ s.cpu.vec.slots.getD 3 none = none ∧ s.descBad patternDesc = false ∧ s.cpu.vec.slotList = [] :=
  ⟨by decide, rfl, by decide, by decide, by decide, by rfl, by decide, by decide, by decide⟩
/-- A COUNT of zero is invalid; a group of another slot meets its own register. -/
theorem witness_StreamSlots_bad_or_taken :
    (descState patternDesc).descBad (bytesOf 64 0) = true
      ∧ ∃ p ∈ (bindSlot State.reset .memSource []).cpu.vec.slotList, p.1 ≠ 3 ∧ p.2.reg < 8 + 1 ∧ 8 < p.2.reg + 1 := by
  refine ⟨by decide, (2, boundSlot .memSource []), by decide, by decide⟩
theorem witness_StreamSlots_sinks :
    (bindSlot State.reset (.msgSink 0 0) [1]).cpu.vec.slots.getD 2 none = some (boundSlot (.msgSink 0 0) [1])
      ∧ (boundSlot (.msgSink 0 0) [1]).gathered ≠ [] ∧ (bindSlot State.reset (.msgSink 0 0) [1]).inFlightOf 0 < 8
      ∧ (bindSlot State.reset .memSink []).cpu.vec.slots.getD 2 none = some (boundSlot .memSink [])
      ∧ State.reset.cpu.vec.slots.getD 2 none = none ∧ (inStrip State.reset).cpu.vec.strip ≠ none := by decide
set_option maxRecDepth 20000 in
theorem test_sbind_binds :
    let t := nextOr State.reset (exec (.sbind 3 8 6) (descState patternDesc))
    (t.cpu.vec.slots.getD 3 none).map (fun s => (s.reg, s.base, s.counts, s.strides)) = some (8, 0x8000, [4], [4])
      ∧ t.cpu.pc = State.reset.cpu.pc + 4 := by decide
theorem test_sstat_and_sunbind :
    (nextOr State.reset (exec (.sstat 5 1) (bindSlot State.reset .memSink []))).cpu.xr 5 = 0
      ∧ (nextOr State.reset (exec (.sunbind 2) (bindSlot State.reset .memSink []))).cpu.vec.slots.getD 2 none = none := by
  decide

/-- Queue 1 of cluster 0 as a FIFO bank that holds n bytes. -/
def fifoState (n : Nat) : State :=
  (setX1 (bindSlot State.reset (.fifoSource 1) []) 6 100).setBank 0 1 { Bank.reset with mode := 3, level := n }

theorem witness_SskipMovesTheStream :
    let s := fifoState 128
    s.cpu.isVc = true ∧ s.cpu.vec.slots.getD 2 none = some (boundSlot (.fifoSource 1) [])
      ∧ (s.bank 0 1).busy = none ∧ (s.bank 0 1).mode = 3 ∧ (s.bank 0 1).popped + (100 + 127) / 128 * 128 ≤ (s.bank 0 1).level
      ∧ ((fifoState 127).bank 0 1).level < 0 + 128 := by decide
/-- R185: 100 bytes take one whole slot of 128; a sink is cause 29. -/
theorem test_sskip :
    ((nextOr State.reset (exec (.sskip 2 6) (fifoState 128))).bank 0 1).popped = 128
      ∧ (nextOr State.reset (exec (.sskip 2 6) (bindSlot State.reset .memSink []))).cpu.csr.mcause = 29 := by decide

/-! ### Witnesses: latch words, messages, handlers -/

/-- Bank 2 of cluster 0 as a LATCH bank whose words of the list are full, and the address of its word 5 in x6. -/
def latchState (full : List Nat) : State :=
  let s := setX1 (setX1 State.reset 6 (BitVec.ofNat 64 (bankAddr 0 2 40))) 7 0x1122334455667788
  s.setBank 0 2 { Bank.reset with mode := 2, full := full }

theorem witness_LatchWordsFillAndEmpty (acc : Acc) :
    let s := latchState [5]
    let a := BitVec.ofNat 64 (bankAddr 0 2 40)
    s.cpu.xPoisoned 6 = false ∧ commitsTo s s ∧ regionOf (bankAddr 0 2 40) = .csram 0 2 40 ∧ (s.bank 0 2).busy = none
      ∧ (s.bank 0 2).mode = 2 ∧ (s.cpu.xr 6).toNat % 8 = 0 ∧ xlat s acc a = .ok (identity a, s)
      ∧ (identity a).pa = bankAddr 0 2 40 ∧ (s.bank 0 2).isFull 5 = true ∧ ((latchState []).bank 0 2).isFull 5 = false := by
  refine ⟨by decide, commits_here rfl rfl rfl rfl, by decide, by decide, by decide, by decide, ?_, by decide, by decide, by decide⟩
  cases acc <;> rfl
theorem test_lsd_fills :
    let t := nextOr State.reset (exec (.lsd 7 6) (latchState []))
    (t.bank 0 2).isFull 5 = true ∧ memRead t.mem (bankAddr 0 2 40) 8 = 0x1122334455667788 := by decide
theorem test_lld_waits_and_empties :
    (nextOr State.reset (exec (.lld 5 6) (latchState []))).cpu.wait.isSome = true
      ∧ ((nextOr State.reset (exec (.lld 5 6) (latchState [5]))).bank 0 2).isFull 5 = false
      ∧ ((nextOr State.reset (exec (.llpd 5 6) (latchState [5]))).bank 0 2).isFull 5 = true := by decide

/-- A header for queue 3 of stream core 4 of cluster 0, 8 bytes, landing in bank 1, in SCRATCH mode; header at x7, payload at x6. -/
def sendState (s : State) (kind : Nat) : State :=
  let hdst := 8 + 2 ^ 34 * 3 + 2 ^ 38 * 4 + 2 ^ 62 * kind
  let m := memSetBytes (memSetBytes [] 0x4000 (bytesOf 8 hdst ++ bytesOf 8 (bankAddr 0 1 0))) 0x4100 [1, 2, 3, 4, 5, 6, 7, 8]
  (setX1 (setX1 { s with mem := m } 6 0x4100) 7 0x4000).setBank 0 1 { Bank.reset with mode := 1 }

theorem witness_MsendSendsOrHolds :
    let s := sendState State.reset 0
    let hb := memBytes s.mem 0x4000 16
    let hdst := BitVec.ofNat 64 (ofBytes (hb.take 8))
    s.cpu.xPoisoned 6 = false ∧ s.cpu.xPoisoned 7 = false ∧ (s.cpu.xr 7).toNat % 8 = 0
      ∧ answers (readRecord 0x4000 16) s (hb, false) (asked s [0x80])
      ∧ answers (readRecord 0x4100 8) (asked s [0x80]) (memBytes s.mem 0x4100 8, false) (asked s [0x80, 0x82])
      ∧ hdLen hdst = 8 ∧ headerOk s hdst (BitVec.ofNat 64 (ofBytes (hb.drop 8))) = true ∧ s.inFlightOf s.cpu.num < 8
      ∧ s.cpu.isVc = true ∧ (sendState scState 0).cpu.isVc = false :=
  ⟨by decide, by decide, by decide, by rfl, by rfl, by decide, by decide, by decide, by decide, by decide⟩
/-- R190: KIND 10 is invalid. -/
theorem witness_MsendSendsOrHolds_invalid :
    let s := sendState State.reset 2
    let hb := memBytes s.mem 0x4000 16
    headerOk s (BitVec.ofNat 64 (ofBytes (hb.take 8))) (BitVec.ofNat 64 (ofBytes (hb.drop 8))) = false := by decide
theorem test_msend :
    (nextOr State.reset (exec (.msend 5 6 7) (sendState scState 0))).inflight.map (fun m => (m.dest, m.queue, m.data))
        = [(4, 3, [1, 2, 3, 4, 5, 6, 7, 8])]
      ∧ (nextOr State.reset (exec (.msend 5 6 7) (sendState State.reset 0))).cpu.buf.length = 1
      ∧ (nextOr State.reset (exec (.msend 5 6 7) (sendState State.reset 2))).cpu.xr 5 = 1 := by decide

/-- Stream core 0 waiting in `hwait` with a message in queue 3, whose handler is at 0x700 in S-mode. -/
def handlerState : State :=
  let s := (scState.mmioSet (handlerOff 0 0 3 0) 0 0x700).mmioSet (handlerOff 0 0 3 3) 0 0x100000000
  { s with cpu := { s.cpu.pushEntry 3 ⟨2, 0x9000, 24⟩ with wait := some ⟨.hwait, 0, 0, false⟩ } }

theorem witness_HandlerWaitStartAndReturn :
    let s := handlerState
    s.cpu.isVc = false ∧ s.cpu.act = none ∧ s.cpu.run = .program ∧ s.cpu.wait = some ⟨.hwait, 0, 0, false⟩
      ∧ s.cpu.csr.mip &&& s.cpu.csr.mie = 0 ∧ s.cpu.task = none
      ∧ s.readyQueue s.cpu.num = some 3 ∧ s.cpu.queueOf 3 = [⟨2, 0x9000, 24⟩] ∧ scState.readyQueue scState.cpu.num = none := by
  decide
theorem witness_HandlerWaitStartAndReturn_wakes :
    let h := scState.cpu
    let s : State := { scState with cpu := { h with csr := { h.csr with mip := 0x800, mie := 0x800 } } }
    s.cpu.csr.mip &&& s.cpu.csr.mie ≠ 0 ∧ s.cpu.isVc = false := by decide
theorem witness_HandlerWaitStartAndReturn_returns :
    let t := nextOr State.reset (exec .handlerActivation handlerState)
    t.cpu.act = some ⟨3, 2, .m, handlerState.cpu.pc, 0⟩ ∧ t.cpu.prefetch = [] ∧ State.reset.cpu.isVc = true := by decide
/-- R57: the handler's x10 to x12, its pc and its mode. -/
theorem test_activation :
    let t := nextOr State.reset (exec .handlerActivation handlerState)
    t.cpu.pc = 0x700 ∧ t.cpu.mode = .s ∧ t.cpu.xr 10 = 0x9000 ∧ t.cpu.xr 11 = 24 ∧ t.cpu.xr 12 = 3 := by decide

/-! ### Witnesses: loads, stores, atomics -/

/-- A core with eight bytes at 0x5000, their address in x6 and a value in x7. -/
def dataState (s : State) : State :=
  setX1 (setX1 { s with mem := memSetBytes [] 0x5000 [0x80, 2, 3, 4, 5, 6, 7, 0x88] } 6 0x5000) 7 0xFFFFFFFFFFFFFFFE

theorem witness_LoadReadsMemory :
    let s := dataState State.reset
    s.cpu.xPoisoned 6 = false ∧ xlat s .load 0x5000 = .ok (identity 0x5000, s)
      ∧ (0x5000 : Word).toNat + 8 ≤ (identity 0x5000).pageBase + (identity 0x5000).pageSize
      ∧ s.loadVerdict true 0x5000 8 (s.cpu.ctx .load).mode = .ok ∧ regionOf 0x5000 = .lpddr :=
  ⟨by decide, rfl, by decide, by decide, by decide⟩
theorem witness_StoreWritesItsBytes :
    let s := dataState State.reset
    let u := dataState scState
    xlat s .store 0x5000 = .ok (identity 0x5000, s) ∧ xlat u .store 0x5000 = .ok (identity 0x5000, u)
      ∧ s.storeVerdict true 0x5000 8 (s.cpu.ctx .store).mode = .ok ∧ s.cpu.isVc = true
      ∧ u.storeVerdict true 0x5000 8 (u.cpu.ctx .store).mode = .ok ∧ u.cpu.isVc = false
      ∧ (bufSectors [.store 0x5000 (bytesOf 8 0) 2 false]).length ≤ 512 := ⟨rfl, rfl, by decide, by decide, by decide, by decide, by decide⟩
theorem test_loads :
    let s := dataState State.reset
    (nextOr s (exec (.load .lb 5 6 0 .w32) s)).cpu.xr 5 = 0xFFFFFFFFFFFFFF80
      ∧ (nextOr s (exec (.load .lhu 5 6 6 .w32) s)).cpu.xr 5 = 0x8807 := by decide
/-- A vector core reads its own buffered store before memory; a stream core's store is in memory at once. -/
theorem test_stores :
    let s := nextOr State.reset (exec (.store .sh 7 6 2 .w32) (dataState State.reset))
    s.mem = (dataState State.reset).mem ∧ (nextOr s (exec (.load .lw 5 6 0 .w32) s)).cpu.xr 5 = 0xFFFFFFFFFFFE0280
      ∧ memRead (nextOr State.reset (exec (.store .sh 7 6 2 .w32) (dataState scState))).mem 0x5000 4 = 0xFFFE0280 := by
  decide

theorem witness_AmoReadsModifiesWrites :
    let s := dataState State.reset
    s.cpu.xPoisoned 6 = false ∧ (s.cpu.xr 6).toNat % 8 = 0 ∧ commitsTo s s ∧ xlat s .store 0x5000 = .ok (identity 0x5000, s)
      ∧ regionOf 0x5000 = .lpddr ∧ ((setX1 s 6 0x5002).cpu.xr 6).toNat % 4 ≠ 0 :=
  ⟨by decide, by decide, commits_here rfl rfl rfl rfl, rfl, by decide, by decide⟩
theorem test_amoadd_w :
    let t := nextOr State.reset (exec (.amo .add false false false 5 6 7) (dataState State.reset))
    t.cpu.xr 5 = 0x04030280 ∧ memRead t.mem 0x5000 8 = 0x880706050403027E := by decide
theorem test_amominu_d :
    let t := nextOr State.reset (exec (.amo .minu true false false 5 6 7) (dataState State.reset))
    t.cpu.xr 5 = 0x8807060504030280 ∧ memRead t.mem 0x5000 8 = 0x8807060504030280 := by decide

/-- The core holding the reservation of the line at 0x5000. -/
def reservedState : State :=
  let s := dataState State.reset
  { s with cpu := { s.cpu with resv := some (0x5000 / 128) } }

theorem witness_LrReservesScStores :
    commitsTo reservedState reservedState ∧ xlat reservedState .load 0x5000 = .ok (identity 0x5000, reservedState)
      ∧ xlat reservedState .store 0x5000 = .ok (identity 0x5000, reservedState)
      ∧ reservedState.cpu.resv = some ((identity 0x5000).pa / 128) ∧ (dataState scState).cpu.isVc = false
      ∧ (dataState State.reset).cpu.resv = none ∧ (reservedState.cpu.xr 6).toNat % 8 = 0 :=
  ⟨commits_here rfl rfl rfl rfl, rfl, rfl, by decide, by decide, by decide, by decide⟩
theorem test_sc :
    let t := nextOr State.reset (exec (.lrSc .sc true false false 5 6 7) reservedState)
    t.cpu.xr 5 = 0 ∧ t.cpu.resv = none ∧ memRead t.mem 0x5000 8 = 0xFFFFFFFFFFFFFFFE
      ∧ (nextOr State.reset (exec (.lrSc .sc true false false 5 6 7) (dataState State.reset))).cpu.xr 5 = 1 := by decide

/-! ### Witnesses: traps, returns, control registers -/

/-- A core below M-mode whose M-mode delegates breakpoints and user calls. -/
def delegating (s : State) (mode : Mode) : State :=
  { s with cpu := { s.cpu with
    mode := mode
    csr := { s.cpu.csr with medeleg := 0x2108, stvec := 0x800, mtvec := 0x900 } } }

theorem witness_EnvironmentCallsTrap :
    let s := delegating State.reset .u
    s.cpu.mode = .u ∧ s.cpu.wait = none ∧ s.commit = (s, none) ∧ s.cpu.mode ≠ .m ∧ s.cpu.csr.medeleg.getLsbD 8 = true
      ∧ s.cpu.csr.medeleg.getLsbD 3 = true :=
  ⟨rfl, rfl, commit_quiet _ rfl rfl rfl, by decide, by decide, by decide⟩
theorem witness_EnvironmentCallsTrap_undelegated :
    (delegating State.reset .s).cpu.csr.medeleg.getLsbD 9 = false ∧ State.reset.cpu.mode = .m := by decide
theorem test_ecall :
    let t := nextOr State.reset (exec .ecall (delegating State.reset .u))
    t.cpu.mode = .s ∧ t.cpu.pc = 0x800 ∧ t.cpu.csr.scause = 8 ∧ t.cpu.csr.sepc = State.reset.cpu.pc
      ∧ (nextOr State.reset (exec .ecall (delegating State.reset .s))).cpu.csr.mcause = 9 := by decide
theorem test_ebreak :
    let t := nextOr State.reset (exec (.ebreak (.c16 0x9002)) (delegating State.reset .m))
    t.cpu.mode = .m ∧ t.cpu.pc = 0x900 ∧ t.cpu.csr.mcause = 3 ∧ t.cpu.csr.mtval = State.reset.cpu.pc := by decide

/-- A load page fault at element 7 in an opened strip of a user program, with one store buffered. -/
def rewindState : State :=
  let s := setX1 (inStrip (delegating State.reset .u)) 9 77
  { s with cpu := { s.cpu with buf := [.store 0x5000 [1] 1 false] } }

theorem witness_RewindRestoresTheJournal :
    let e : Exc := ⟨13, 0x6000, some 7, true, none⟩
    rewindState.cpu.vec.strip = some aJournal ∧ e.rewinds = true ∧ e.mc = none ∧ e.elem = some 7 ∧ e.cause < 256
      ∧ rewindState.cpu.wait = none ∧ rewindState.cpu.mode ≠ .m ∧ rewindState.cpu.csr.medeleg.getLsbD 13 = true
      ∧ delegableCause 13 = true ∧ (inMode rewindState .m).cpu.mode = .m ∧ (aJournal.x.map Prod.fst).Nodup
      ∧ (aJournal.vregs.map Prod.fst).Nodup ∧ (∀ p ∈ aJournal.vregs, p.2.length ≤ 4096)
      ∧ ∃ r bs, (r, bs) ∈ aJournal.vregs :=
  ⟨rfl, rfl, rfl, rfl, by decide, rfl, by decide, by decide, by decide, rfl, by decide, by decide, by decide, 5, _, List.mem_singleton_self _⟩
theorem test_rewind :
    let t := rewindState.takeTrap ⟨13, 0x6000, some 7, true, none⟩ 0
    t.cpu.xr 9 = 5 ∧ t.cpu.buf = [] ∧ t.cpu.csr.sepc = 0x40 ∧ t.cpu.csr.stval = 0x6000 ∧ t.cpu.vec.sfElem = 7
      ∧ t.cpu.vec.bytes 5 0 3 = [7, 8, 0] ∧ t.cpu.vec.pageKept = some 0x6000 ∧ t.cpu.vec.vlimit = 4 ∧ t.cpu.vec.replays = 1
      ∧ ((inMode rewindState .m).takeTrap ⟨26, 0, some 7, true, none⟩ 0).cpu.csr.mepc = 0x40 := by decide +kernel

/-- A machine with a value of `mstatus`. -/
def statusState (mode : Mode) (ms : Word) : State :=
  { State.reset with cpu := { State.reset.cpu with
    mode := mode
    csr := { State.reset.cpu.csr with mstatus := ms, mepc := 0x444, sepc := 0x222 } } }

theorem witness_ReturnsAndWfi :
    (∀ r, (statusState .m 0).cpu.task = some r → r.signal = false) ∧ (statusState .m 0).cpu.mode = .m
      ∧ (statusState .s 0).cpu.mode = .s ∧ (statusState .s 0x400000).cpu.csr.mstatus.getLsbD 22 = true
      ∧ (statusState .u 0).cpu.mode = .u ∧ (statusState .s 0).cpu.csr.mstatus.getLsbD 21 = false
      ∧ (statusState .s 0x200000).cpu.csr.mstatus.getLsbD 21 = true
      ∧ State.reset.cpu.csr.mip &&& State.reset.cpu.csr.mie = 0
      ∧ (statusState .m 0).cpu.csrBad 0x341 = false ∧ (statusState .s 0).cpu.csrBad 0x141 = false :=
  ⟨fun _ h => (by simp [statusState, Hart.task, State.reset, Hart.reset] at h), rfl, rfl, by decide, rfl, by decide, by decide, by decide,
    by decide, by decide⟩
/-- Saved pcs that are poisoned. -/
theorem witness_ReturnsAndWfi_poisoned :
    let bad (k : Mode) : State := { statusState k 0 with cpu := { (statusState k 0).cpu with cpoison := [0x141, 0x341] } }
    (bad .m).cpu.csrBad 0x341 = true ∧ (bad .m).cpu.mode = .m ∧ (bad .s).cpu.csrBad 0x141 = true ∧ (bad .s).cpu.mode = .s := by decide
theorem test_mret :
    let t := nextOr State.reset (exec .mret (statusState .m 0x880))
    t.cpu.pc = 0x444 ∧ t.cpu.mode = .s ∧ t.cpu.csr.mstatus = 0x88 := by decide
theorem test_sret :
    let t := nextOr State.reset (exec .sret (statusState .s 0x20))
    t.cpu.pc = 0x222 ∧ t.cpu.mode = .u ∧ t.cpu.csr.mstatus = 0x22
      ∧ (nextOr State.reset (exec .sret (statusState .s 0x400000))).cpu.csr.mcause = 2 := by decide

theorem witness_CsrInstructionReadsAndWrites :
    let s := requestState 0x55
    s.cpu.xPoisoned 6 = false ∧ s.cpu.csrReadBad 0x340 = false ∧ (0x340 / 256 % 4 ≤ s.cpu.mode.rank ∧ 0x340 / 256 % 4 ≠ 2)
      ∧ s.csrRead 0x340 = some 0 ∧ csrReadOnly 0x340 = false := by decide
/-- Out of reach from U-mode, read-only, and a vector CSR on a stream core. -/
theorem witness_CsrInstructionReadsAndWrites_illegal :
    ¬ 0x340 / 256 % 4 ≤ (inMode State.reset .u).cpu.mode.rank ∧ csrReadOnly 0xCC0 = true ∧ scState.csrRead 0x801 = none
      ∧ scState.cpu.cpoison = [] := by decide
theorem test_csr :
    let t := nextOr State.reset (exec (.csr .rw 5 (.reg 6) 0x305) (requestState 0x57))
    t.cpu.csr.mtvec = 0x55 ∧ t.cpu.xr 5 = 0
      ∧ (nextOr State.reset (exec (.csr .rw 0 (.reg 6) 0xB02) (requestState 0x57))).csrRead 0xB02 = some 0x57
      ∧ (nextOr State.reset (exec (.csr .rs 0 (.imm 3) 0xCC0) State.reset)).cpu.csr.mcause = 2 := by decide
theorem witness_CsrWritesStoreTheLegalValue :
    State.reset.cpu.isVc = true ∧ State.reset.cpu.csr.mstatus.getLsbD 20 = false := by decide

/-! ### Witnesses: scalar floating point -/

theorem witness_FpScalarCompletesWithItsFrame :
    State.reset.cpu.isVc = true ∧ State.reset.cpu.csr.mstatus.toNat / 8192 % 4 ≠ 0 ∧ State.reset.cpu.frm.toNat ≤ 4
      ∧ scState.cpu.isVc = false ∧ ¬ (statusState .m 0).cpu.csr.mstatus.toNat / 8192 % 4 ≠ 0 := by decide

/-- A core with doubles 1.5 and −2.5 in f1 and f2 and single 3.0 in f3. -/
def floatState : State :=
  let h := State.reset.cpu
  { State.reset with cpu := { h with
    f := ((h.f.set 1 0x3FF8000000000000).set 2 0xC004000000000000).set 3 0xFFFFFFFF40400000 } }

theorem witness_FpScalarCompletesWithItsFrame_memory :
    let s := setX1 { floatState with mem := memSetBytes [] 0x5000 (bytesOf 8 0x3FF8000000000000) } 6 0x5000
    s.cpu.isVc = true ∧ s.cpu.csr.mstatus.toNat / 8192 % 4 ≠ 0 ∧ s.cpu.xPoisoned 6 = false
      ∧ xlat s .load 0x5000 = .ok (identity 0x5000, s) ∧ xlat s .store 0x5000 = .ok (identity 0x5000, s)
      ∧ (0x5000 : Word).toNat + 8 ≤ (identity 0x5000).pageBase + (identity 0x5000).pageSize ∧ regionOf 0x5000 = .lpddr
      ∧ s.loadVerdict true 0x5000 8 (s.cpu.ctx .load).mode = .ok ∧ s.storeVerdict true 0x5000 8 (s.cpu.ctx .store).mode = .ok
      ∧ (bufSectors [.store 0x5000 (bytesOf 8 0) 2 false]).length ≤ 512 :=
  ⟨by decide, by decide, by decide, rfl, rfl, by decide, by decide, by decide, by decide, by decide⟩
/-- Modes and operations of the arithmetic: an addition, a division of a finite number by zero, a fused form, and the dynamic mode. -/
theorem witness_FpMovesAndSignsAreExact (p : FpFmt) :
    (∃ g bad z, fpArith (.add p 4 1 2 0) p 4 0 [1, 2] g bad z) ∧ (∃ g bad z, fpArith (.div p 4 1 2 7) p 4 7 [1, 2] g bad z)
      ∧ (∃ g bad z, fpArith (.madd p 4 1 2 3 4) p 4 4 [1, 2, 3] g bad z)
      ∧ ((if (7 : BitVec 3) = 7 then floatState.cpu.frm else 7), Rm.rne) ∈ [((0 : BitVec 3), Rm.rne)]
      ∧ floatState.cpu.isVc = true ∧ floatState.cpu.csr.mstatus.toNat / 8192 % 4 ≠ 0 := by
  refine ⟨⟨_, _, _, Or.inl ⟨1, 2, rfl, rfl, rfl, rfl, rfl⟩⟩, ⟨_, _, _, Or.inr (Or.inr (Or.inr (Or.inl ⟨1, 2, rfl, rfl, rfl, rfl, rfl⟩)))⟩,
    ⟨_, _, _, Or.inr (Or.inr (Or.inr (Or.inr (Or.inr ⟨1, 2, 3, rfl, Or.inl ⟨rfl, rfl, rfl, rfl⟩⟩))))⟩, by decide, by decide, by decide⟩
theorem test_fld :
    let s := setX1 { floatState with mem := memSetBytes [] 0x5000 (bytesOf 4 0x40490FDB) } 6 0x5000
    (nextOr s (exec (.fpScalar (.load .s 4 6 0) .w32) s)).cpu.f.getD 4 0 = 0xFFFFFFFF40490FDB := by decide
theorem test_fadd_fmul :
    (nextOr State.reset (exec (.fpScalar (.add .d 4 1 2 0) .w32) floatState)).cpu.f.getD 4 0 = 0xBFF0000000000000
      ∧ (nextOr State.reset (exec (.fpScalar (.mul .d 4 1 2 0) .w32) floatState)).cpu.f.getD 4 0 = 0xC00E000000000000 := by
  decide
theorem test_fdiv_fsgnj :
    (nextOr State.reset (exec (.fpScalar (.div .s 4 3 3 0) .w32) floatState)).cpu.f.getD 4 0 = 0xFFFFFFFF3F800000
      ∧ (nextOr State.reset (exec (.fpScalar (.sgnj .d 0 4 1 2) .w32) floatState)).cpu.f.getD 4 0 = 0xBFF8000000000000 := by
  decide

/-! ### Witnesses: vector instructions -/

/-- A vector core with configuration c, length n, and elements in registers. -/
def vecState (c n : Nat) (regs : List (Nat × List Nat)) : State :=
  onVec State.reset fun v =>
    let v := { v with vcfg := BitVec.ofNat 64 c, vl := n }
    regs.foldl (fun v r => v.setElems r.1 (r.2.mapIdx fun i x => (i, (x, false)))) v

/-- EW 32, 32 registers, two elements: 1.5 and −2.0 in v4, 2.0 and 0.5 in v5, and integers in v6 and v7. -/
def fourState : State :=
  vecState 0x40A 2 [(4, [0x3FC00000, 0xC0000000]), (5, [0x40000000, 0x3F000000]), (6, [7, 0xFFFFFFFF]), (7, [3, 1])]

theorem noSlots_replicate {h : Hart} (hs : h.vec.slots = Vector.replicate 8 none) : noSlots h := by
  intro i
  rw [hs]
  rcases Nat.lt_or_ge i 8 with h | h
  · simp [Vector.getD, h]
  · simp [Vector.getD, Nat.not_lt.mpr h]

theorem four_ready : vectorReady fourState.cpu :=
  ⟨by decide, by decide, by decide, rfl, rfl, rfl, rfl, rfl, noSlots_replicate rfl⟩

/-- Operand fields without lookahead, window, key and format. -/
def fields (vd vs1 vs2 vs3 : BitVec 6) : VOp := ⟨0, false, 0, false, 0, vs3, vs2, vs1, vd⟩

theorem witness_VectorInstructionsCheckTheirConfiguration :
    (Instr.vrow (.vfadd (fields 9 4 5 0))) = some (⟨0, 0, .A, .opt⟩, fields 9 4 5 0)
      ∧ VRow.ok ⟨0, 0, .A, .opt⟩ (fields 9 4 5 0) = true ∧ scState.cpu.isVc = false
      ∧ fourState.cpu.cpoison.contains 0x800 = false ∧ fourState.cpu.vec.vbad = false
      ∧ (vecState (2 ^ 63 + 0x40A) 2 []).cpu.vec.vbad = true
      ∧ (vecState 0x41A 2 []).cpu.vec.groupOk 9 = false ∧ (vecState 0x40A 0 []).cpu.vec.vl = 0 := by decide
theorem test_vbad_and_group :
    (nextOr State.reset (exec (.vfadd (fields 9 4 5 0)) (vecState (2 ^ 63 + 0x40A) 2 []))).cpu.csr.mcause = 24
      ∧ (nextOr State.reset (exec (.vfadd (fields 9 4 5 0)) (vecState 0x41A 2 []))).cpu.csr.mcause = 2 := by decide

theorem witness_VectorFloatElements :
    floatElem (.vfadd (fields 9 4 5 0)) (fields 9 4 5 0) [.group 4, .group 5] (fun v u xs =>
        v.fmtT.round v.rm u v.fz ((v.src (xs.getD 0 0)).add v.rm.negZero (v.src (xs.getD 1 0))))
      ∧ vectorReady fourState.cpu ∧ fitsAll fourState.cpu.vec (fields 9 4 5 0) [.group 4, .group 5]
      ∧ fourState.cpu.vec.ewB = 4 :=
  ⟨Or.inl ⟨rfl, rfl, rfl⟩, four_ready, ⟨by decide, by decide, by decide⟩, by decide⟩
/-- 1.5 + 2.0 is 3.5, −2.0 + 0.5 is −1.5; 1.5 × 2.0 + 1.5 is 4.5. -/
theorem test_vfadd_vfma :
    (let v := (nextOr State.reset (exec (.vfadd (fields 9 4 5 0)) fourState)).cpu.vec
     (v.elem 9 0, v.elem 9 1)) = (0x40600000, 0xBFC00000)
      ∧ (nextOr State.reset (exec (.vfma (fields 9 4 5 4)) fourState)).cpu.vec.elem 9 0 = 0x40900000 := by decide +kernel
theorem test_vfdiv_vfsqrt :
    (nextOr State.reset (exec (.vfdiv (fields 9 4 5 0)) fourState)).cpu.vec.elem 9 0 = 0x3F400000
      ∧ (nextOr State.reset (exec (.vfsqrt (fields 9 4 0 0)) fourState)).cpu.vec.elem 9 1 = 0x7FC00000
      ∧ (nextOr State.reset (exec (.vfexp2 (fields 9 4 0 0)) fourState)).cpu.vec.elem 9 1 = 0x3E800000 := by decide +kernel

/-- One complex bfloat16 element: 1 + 2j in v4, 3 − 1j in v5. -/
def complexState : State := vecState 0x40A 1 [(4, [0x40003F80]), (5, [0xBF804040])]

theorem complex_ready : vectorReady complexState.cpu :=
  ⟨by decide, by decide, by decide, rfl, rfl, rfl, rfl, rfl, noSlots_replicate rfl⟩
theorem witness_VectorComplexElements :
    (∃ f, complexElem (.vcadd (fields 9 4 5 0)) (fields 9 4 5 0) [.group 4, .group 5] f)
      ∧ vectorReady complexState.cpu ∧ fitsAll complexState.cpu.vec (fields 9 4 5 0) [.group 4, .group 5]
      ∧ complexState.cpu.vec.ewB = 4
      ∧ fitsAll complexState.cpu.vec (fields 10 4 5 4) [.group 4, .group 5, .group 4]
      ∧ complexState.cpu.vec.groupOk (10 + 1) = true ∧ 10 % (2 * complexState.cpu.vec.grp) = 0 :=
  ⟨⟨_, Or.inl ⟨rfl, rfl, rfl⟩⟩, complex_ready, ⟨by decide, by decide, by decide⟩, by decide,
    ⟨by decide, by decide, by decide⟩, by decide, by decide⟩
/-- (1 + 2j) × (3 − j) is 5 + 5j; with the conjugate of the second it is 1 + 7j. -/
theorem test_vcmul_vcmulj :
    (nextOr State.reset (exec (.vcmul (fields 9 4 5 0)) complexState)).cpu.vec.elem 9 0 = 0x40A040A0
      ∧ (nextOr State.reset (exec (.vcmulj (fields 9 4 5 0)) complexState)).cpu.vec.elem 9 0 = 0x40E03F80 := by
  decide +kernel

theorem witness_VectorIntegerElements :
    (∃ f, intElem (.vadd (fields 9 6 7 0)) (fields 9 6 7 0) [.group 6, .group 7] f)
      ∧ (∃ f, intElem (.vid (fields 9 0 0 0)) (fields 9 0 0 0) [] f)
      ∧ vectorReady fourState.cpu ∧ fitsAll fourState.cpu.vec (fields 9 6 7 0) [.group 6, .group 7] :=
  ⟨⟨_, Or.inr (Or.inr ⟨rfl, Or.inl ⟨rfl, rfl⟩⟩)⟩, ⟨_, Or.inl ⟨rfl, rfl, rfl⟩⟩, four_ready, ⟨by decide, by decide, by decide⟩⟩
/-- 0xFFFFFFFF + 1 wraps; −1 × 1 has high part −1; −1 is below 1; 0xFFFFFFFF − 1. -/
theorem test_vadd_vmulh_vmin :
    (nextOr State.reset (exec (.vadd (fields 9 6 7 0)) fourState)).cpu.vec.elem 9 1 = 0
      ∧ (nextOr State.reset (exec (.vmulh (fields 9 6 7 0)) fourState)).cpu.vec.elem 9 1 = 0xFFFFFFFF
      ∧ (nextOr State.reset (exec (.vmin (fields 9 6 7 0)) fourState)).cpu.vec.elem 9 1 = 0xFFFFFFFF
      ∧ (nextOr State.reset (exec (.vminu (fields 9 6 7 0)) fourState)).cpu.vec.elem 9 1 = 1 := by decide +kernel
theorem test_vsra_vsadd :
    (nextOr State.reset (exec (.vsra (fields 9 6 7 0)) fourState)).cpu.vec.elem 9 1 = 0xFFFFFFFF
      ∧ (nextOr State.reset (exec (.vsub (fields 9 7 6 0)) fourState)).cpu.vec.elem 9 0 = 0xFFFFFFFC := by decide +kernel

theorem witness_ComparisonsAndKeys :
    vectorReady fourState.cpu ∧ 1 ≤ (fields 1 6 7 0).vd.toNat ∧ (fields 1 6 7 0).vd.toNat < 8
      ∧ (∃ f, compareElem (.vclt (fields 1 6 7 0)) (fields 1 6 7 0) f)
      ∧ (∃ f, keyElem (.kand (fields 1 2 3 0)) (fields 1 2 3 0) f)
      ∧ (∀ x ∈ [srcA (fields 1 6 7 0), srcB (fields 1 6 7 0)], fourState.cpu.vec.opndOk x = true)
      ∧ fourState.cpu.vec.vl ≤ 2048 ∧ fourState.cpu.vec.vl ≠ 0 ∧ fourState.cpu.vec.keysOk 0 false = true :=
  ⟨four_ready, by decide, by decide, ⟨_, Or.inr (Or.inl ⟨rfl, rfl⟩)⟩, ⟨_, Or.inl ⟨rfl, rfl⟩⟩, by decide, by decide, by decide,
    by decide⟩
/-- 7 < 3 is false, −1 < 1 true signed and false unsigned. -/
theorem test_vclt_vcltu :
    (let v := (nextOr State.reset (exec (.vclt (fields 1 6 7 0)) fourState)).cpu.vec
     (v.keyBit 1 0, v.keyBit 1 1)) = (false, true)
      ∧ (nextOr State.reset (exec (.vcltu (fields 1 6 7 0)) fourState)).cpu.vec.keyBit 1 1 = false := by decide +kernel
theorem test_kvl_kpop :
    let s := nextOr State.reset (exec (.kvl ⟨0, false, 0, true, 0, 0, 6, 0, 1⟩) (setX1 fourState 6 1))
    (nextOr State.reset (exec (.kpop ⟨0, false, 0, false, 0, 0, 0, 1, 5⟩) s)).cpu.xr 5 = 1
      ∧ (nextOr State.reset (exec (.kffs ⟨0, false, 0, false, 0, 0, 0, 2, 5⟩) s)).cpu.xr 5 = 2 := by decide +kernel

theorem witness_PermutesMoveElements :
    (∃ src, permuteElem (.vslideup (fields 9 6 0 1)) (fields 9 6 0 1) fourState.cpu 1 [.group 6]
        ((fourState.cpu.vec.actives 0).filter (1 ≤ ·)) src)
      ∧ vectorReady fourState.cpu ∧ fitsAll fourState.cpu.vec (fields 9 6 0 1) [.group 6]
      ∧ (fourState.cpu.vec.vl = 0 ∨ fourState.cpu.vec.vl ≤ 2 ^ 1 ∧ 2 ^ 1 < 2 * fourState.cpu.vec.vl)
      ∧ fourState.cpu.vec.vl ≠ 0 ∧ fourState.cpu.vec.groupOk 6 = true ∧ fourState.cpu.vec.keysOk 0 false = true :=
  ⟨⟨_, Or.inl ⟨rfl, rfl, rfl, rfl⟩⟩, four_ready, ⟨by decide, by decide, by decide⟩, Or.inr (by decide), by decide, by decide, by decide⟩
theorem test_vslidedn_vzip :
    (let v := (nextOr State.reset (exec (.vslidedn (fields 9 6 0 1)) fourState)).cpu.vec
     (v.elem 9 0, v.elem 9 1)) = (0xFFFFFFFF, 0)
      ∧ (let v := (nextOr State.reset (exec (.vzip (fields 9 6 7 0)) fourState)).cpu.vec
         (v.elem 9 0, v.elem 9 1)) = (7, 3) := by decide +kernel
theorem test_vext :
    (nextOr State.reset (exec (.vext ⟨0, false, 0, false, 0, 1, 0, 6, 5⟩) fourState)).cpu.xr 5 = 0xFFFFFFFFFFFFFFFF := by
  decide +kernel

theorem witness_ReductionsWriteElementZero :
    vectorReady fourState.cpu ∧ fitsAll fourState.cpu.vec (fields 9 4 5 0) [srcA (fields 9 4 5 0)]
      ∧ fourState.cpu.vec.ewB ≠ 1 ∧ fourState.cpu.vec.ewB ≠ 8 ∧ fourState.cpu.vec.ewB ≠ 2
      ∧ fourState.cpu.vec.groupOk 5 = true ∧ fourState.cpu.vec.oneOk 5 = true
      ∧ fourState.cpu.vec.actives 0 = [0, 1] ∧ (vecState 0x40A 1 []).cpu.vec.actives 0 = [0]
      ∧ (vecState 0x40A 2 []).cpu.vec.actives 1 = [] :=
  ⟨four_ready, ⟨by decide, by decide, by decide⟩, by decide, by decide, by decide, by decide, by decide, by decide, by decide,
    by decide +kernel⟩
/-- 1.5 − 2.0 is −0.5; 1.5 × 2.0 − 2.0 × 0.5 is 2.0. -/
theorem test_vredsum_vdot :
    (nextOr State.reset (exec (.vredsum (fields 9 4 0 0)) fourState)).cpu.vec.elem 9 0 = 0xBF000000
      ∧ (nextOr State.reset (exec (.vdot (fields 9 4 5 0)) fourState)).cpu.vec.elem 9 0 = 0x40000000
      ∧ (nextOr State.reset (exec (.vredmax (fields 9 4 0 0)) fourState)).cpu.vec.elem 9 0 = 0x3FC00000 := by decide +kernel

theorem witness_PiecewiseScaleAndRandom :
    vectorReady fourState.cpu ∧ fitsAll fourState.cpu.vec (fields 9 4 5 0) [srcA (fields 9 4 5 0)]
      ∧ fourState.cpu.vec.oneOk 5 = true ∧ fourState.cpu.vec.ewB = 4 ∧ 48 ≤ fourState.cpu.vec.mvl
      ∧ fourState.cpu.vec.blockOk 5 = true ∧ fourState.cpu.vec.blockOk 1 = true ∧ fourState.cpu.vec.blockOk 8 = true
      ∧ fitsAll fourState.cpu.vec (fields 9 0 0 0) [] :=
  ⟨four_ready, ⟨by decide, by decide, by decide⟩, by decide, by decide, by decide, by decide, by decide, by decide,
    ⟨by decide, by decide, by decide⟩⟩
theorem test_vrnd_counts :
    (nextOr State.reset (exec (.vrnd (fields 9 0 0 0)) fourState)).cpu.rngctr = 2 := by decide +kernel

theorem witness_AccumulatorInstructions :
    vectorReady fourState.cpu ∧ fourState.cpu.vec.ewB = 4 ∧ fourState.cpu.vec.vl ≠ 0 ∧ fourState.cpu.matFaults = []
      ∧ (fourState.row 0 0).queue = [] ∧ (fourState.row 0 0).apoison = [] ∧ fourState.cpu.vec.groupOk 4 = true
      ∧ ((fourState.setRow 0 0 { Row.reset with queue := [.clear 0] }).row 0 0).queue ≠ [] :=
  ⟨four_ready, by decide, by decide, by decide, by decide, by decide, by decide, by decide⟩
theorem test_vwacc_vracc :
    let s := nextOr State.reset (exec (.vwacc (fields 1 6 0 2)) fourState)
    (nextOr State.reset (exec (.vracc (fields 9 1 0 2)) s)).cpu.vec.elem 9 1 = 0xFFFFFFFF
      ∧ (nextOr State.reset (exec (.vracc (fields 9 1 0 3)) s)).cpu.vec.elem 9 1 = 0 := by decide +kernel
theorem test_vzacc_waits :
    (nextOr State.reset (exec (.vzacc (fields 1 0 0 0)) (fourState.setRow 0 0 { Row.reset with queue := [.clear 0] }))).cpu.wait
      = some ⟨.interlock, 0, 0, true⟩ := by decide

/-! ### Witnesses: vector memory -/

/-- `fourState` with two words at 0x5000 and the base address in x6; v7 as offsets of 4 and 0 bytes in v8. -/
def loadState : State :=
  setX1 (setX1 { (vecState 0x40A 2 [(4, [0x11, 0x22]), (8, [4, 0])]) with
    mem := memSetBytes [] 0x5000 [0x78, 0x56, 0x34, 0x12, 0xEF, 0xBE, 0xAD, 0xDE] } 6 0x5000) 7 4

theorem witness_plainMem_bank : plainMem (State.reset.setBank 0 1 { Bank.reset with mode := 1 }) (bankAddr 0 1 8) :=
  Or.inr ⟨0, 1, 8, by decide, by decide, by decide⟩
theorem load_ready : vectorReady loadState.cpu :=
  ⟨by decide, by decide, by decide, rfl, rfl, by decide, rfl, rfl, noSlots_replicate rfl⟩

/-- In M-mode every address translates to itself. -/
theorem held_here {s : State} {acc : Acc} {a va : Word} (hm : ((s.cpu.ctx acc).mode == .m) = true) (ha : a = va)
    (hb : s.cpu.xlatBad acc = false := by decide) : held s acc a (identity va) := by
  intro q
  subst ha
  refine (if_pos (by rw [show ((s.asking q).cpu.ctx acc) = s.cpu.ctx acc from rfl, hm]; rfl)).trans ?_
  rw [show (s.asking q).cpu.xlatBad acc = false from hb]
  rfl

theorem load_actives : loadState.cpu.vec.actives 0 = [0, 1] := by decide

theorem witness_VectorLoadsReadTheirElements :
    let o : VOp := fields 9 6 0 0
    let pa := fun j => 0x5000 + 4 * j
    vectorReady loadState.cpu ∧ fitsAll loadState.cpu.vec o [] ∧ loadState.cpu.vec.fmtOk 0 = true
      ∧ ∀ j ∈ loadState.cpu.vec.actives 0,
          (loadState.cpu.xr 6 + BitVec.ofNat 64 (j * loadState.cpu.vec.fmtB 0)).toNat % 4096 + loadState.cpu.vec.fmtB 0 ≤ 4096
          ∧ regionOf (pa j) = .lpddr ∧ loadState.seenPoison (pa j) 4 = false
          ∧ ∃ x, held loadState .load (loadState.cpu.xr 6 + BitVec.ofNat 64 (j * loadState.cpu.vec.fmtB 0)) x ∧ x.pa = pa j := by
  refine ⟨load_ready, ⟨by decide, by decide, by decide⟩, by decide, ?_⟩
  rw [load_actives]
  intro j hj
  rcases List.mem_cons.1 hj with rfl | hj
  · exact ⟨by decide, by decide, by decide, identity 0x5000, held_here (by decide) (by decide), by decide⟩
  · rcases List.mem_singleton.1 hj with rfl
    exact ⟨by decide, by decide, by decide, identity 0x5004, held_here (by decide) (by decide), by decide⟩
theorem test_vld_vldx :
    (let v := (nextOr State.reset (exec (.vld (fields 9 6 0 0)) loadState)).cpu.vec
     (v.elem 9 0, v.elem 9 1)) = (0x12345678, 0xDEADBEEF)
      ∧ (let v := (nextOr State.reset (exec (.vldx (fields 9 6 8 0)) loadState)).cpu.vec
         (v.elem 9 0, v.elem 9 1)) = (0xDEADBEEF, 0x12345678)
      ∧ (let v := (nextOr State.reset (exec (.vld ⟨0, false, 0, false, 5, 0, 0, 6, 9⟩) loadState)).cpu.vec
         (v.elem 9 0, v.elem 9 1)) = (0x78, 0x56) := by decide +kernel

theorem witness_VectorStoresEnterTheStripBuffer :
    loadState.cpu.winDone = [] ∧ loadState.cpu.buf = []
      ∧ (∀ r0 r1, (bufSectors [.store 0x5004 (bytesOf 4 r1) 1 false, .store 0x5000 (bytesOf 4 r0) 1 false]).length ≤ 512)
      ∧ (∀ j ∈ loadState.cpu.vec.actives 0, ∃ x, held loadState .store (loadState.cpu.xr 6 + BitVec.ofNat 64 (j * 4)) x
          ∧ x.pa = 0x5000 + 4 * j) := by
  refine ⟨rfl, rfl, fun _ _ => ?_, ?_⟩
  · have h : ∀ r, (bytesOf 4 r).length = 4 := fun _ => rfl
    simp only [bufSectors, h]
    decide
  · rw [load_actives]
    intro j hj
    rcases List.mem_cons.1 hj with rfl | hj
    · exact ⟨identity 0x5000, held_here (by decide) (by decide), by decide⟩
    · rcases List.mem_singleton.1 hj with rfl
      exact ⟨identity 0x5004, held_here (by decide) (by decide), by decide⟩
theorem test_vst_buffers :
    let t := nextOr State.reset (exec (.vst (fields 4 6 0 0)) loadState)
    t.mem = loadState.mem ∧ t.cpu.buf.length = 2 ∧ t.cpu.vec.elem 4 0 = 0x11
      ∧ (nextOr State.reset (exec (.load .ld 5 6 0 .w32) t)).cpu.xr 5 = 0x0000002200000011 := by decide +kernel

theorem witness_BlockAndKeyMoves :
    vectorReady loadState.cpu ∧ fitsAll loadState.cpu.vec (fields 9 6 7 0) [] ∧ loadState.cpu.vec.blockOk 5 = true
      ∧ (fields 1 6 0 0).vd.toNat = 1 ∧ loadState.cpu.vec.vl ≤ 2048
      ∧ held loadState .load 0x5000 (identity 0x5000) ∧ held loadState .store 0x5000 (identity 0x5000) ∧ regionOf 0x5000 = .lpddr
      ∧ loadState.seenPoison 0x5000 4 = false :=
  ⟨load_ready, ⟨by decide, by decide, by decide⟩, by decide, by decide, by decide, held_here (by decide) rfl, held_here (by decide) rfl,
    by decide, by decide⟩
/-- 0x78 is 0b01111000: elements 0 and 1 have key bits 0, bits 3 and 4 are 1. -/
theorem test_vldk :
    let s : State := onVec loadState fun v => { v with vl := 5 }
    let v := (nextOr State.reset (exec (.vldk (fields 1 6 0 0)) s)).cpu.vec
    (v.keyBit 1 2, v.keyBit 1 3, v.keyBit 1 4) = (false, true, true) := by decide +kernel

theorem witness_VamoOperatesOnEachElement :
    commitsTo loadState loadState ∧ vectorReady loadState.cpu ∧ loadState.cpu.winDone = []
      ∧ loadState.cpu.vec = loadState.cpu.vec.closeStrip ∧ fitsAll loadState.cpu.vec (fields 9 6 8 0) [.group 8]
      ∧ loadState.cpu.vec.ewB ≠ 2 ∧ (loadState.cpu.vec.elem 8 0 = 4 ∧ loadState.cpu.vec.elem 8 1 = 0)
      ∧ held loadState .store 0x5004 (identity 0x5004) ∧ loadState.poisonedAt 0x5000 8 = false :=
  ⟨commits_here rfl rfl rfl rfl, load_ready, rfl, rfl, ⟨by decide, by decide, by decide⟩, by decide, by decide, held_here (by decide) rfl, by decide⟩
/-- Add of 0x11 at offset 4 and of 0x22 at offset 0. -/
theorem test_vamo_add :
    let t := nextOr State.reset (exec (.vamo (fields 4 6 8 0)) loadState)
    memRead t.mem 0x5000 8 = 0xDEADBF001234569A ∧ t.cpu.vec.elem 4 0 = 0xDEADBEEF := by decide +kernel

/-- `fourState` with window 1 in bank 2, a LATCH bank, from word 0: enabled, one word long, which two elements fill exactly. -/
def windowState : State :=
  (onVec fourState fun v => { v with nwin := v.nwin.setIfInBounds 1 (BitVec.ofNat 64 (2 ^ 63 + 1)) }).setBank 0 2
    { Bank.reset with mode := 2, winen := true }

theorem witness_WindowDestinationsFillLatchWords :
    let win := (windowState.cpu.vec.nwin.getD 1 0).toNat
    vectorReady windowState.cpu ∧ commitsTo windowState windowState ∧ windowState.cpu.vec.vl ≠ 0 ∧ 2 ≤ windowState.cpu.vec.ewB
      ∧ windowState.cpu.winDone = [] ∧ bitAt win 63 = true ∧ bitsAt win 0 16 ≠ 0
      ∧ (windowState.bank 0 (winBank 0 win)).busy = none ∧ (windowState.bank 0 (winBank 0 win)).mode = 2
      ∧ (windowState.bank 0 (winBank 0 win)).winen = true
      ∧ 2 * 4 ≤ 8 * bitsAt win 0 16 ∧ (windowState.bank 0 (winBank 0 win)).isFull 0 = false
      ∧ windowState.cpu.cpoison.contains 0x811 = false :=
  ⟨⟨by decide, by decide, by decide, rfl, rfl, rfl, rfl, rfl, noSlots_replicate rfl⟩, commits_here rfl rfl rfl rfl, by decide, by decide, rfl,
    by decide, by decide, by decide, by decide, by decide, by decide, by decide, by decide⟩
/-- 7 + 3 and 0xFFFFFFFF + 1 in the two halves of the word, which is full. -/
theorem test_window_destination :
    let t := nextOr State.reset (exec (.vadd ⟨0, true, 0, false, 0, 0, 7, 6, 1⟩) windowState)
    memRead t.mem (bankAddr 0 2 0) 8 = 10 ∧ (t.bank 0 2).isFull 0 = true ∧ t.cpu.pc = windowState.cpu.pc + 6 := by
  decide +kernel

/-! ### Witnesses: register writes and events -/

/-- The machine with registers of its MMIO region set. -/
def withMmio (s : State) (rs : List (Nat × Word)) : State := rs.foldl (fun s r => s.mmioSet r.1 0 r.2) s

/-- The machine with another link state. -/
def withPorts (f : Ports → Ports) : State := { State.reset with ports := f State.reset.ports }
/-- The machine with another power state. -/
def withPower (f : Power → Power) : State := { State.reset with power := f State.reset.power }
/-- The machine with another mailbox state. -/
def withUnwene (f : Unwene → Unwene) : State := { State.reset with unwene := f State.reset.unwene }

/-- The port down and up, a lease of every legal value, both sides of each test a register write makes. -/
theorem witness_RegisterWriteRowsTakeEffect :
    State.reset.cpu.mode = .m ∧ State.reset.cpu.isVc = true ∧ csrReadOnly 0x340 = false ∧ State.reset.csrRead 0x340 = some 0
      ∧ vcfgSupported State.reset.cpu.vec 0x40A = true ∧ (0x40A : Nat) / 4 % 4 = State.reset.cpu.vec.vcfg.toNat / 4 % 4
      ∧ ((0 : Word).truncate 32 &&& ~~~(tabGet 0 State.reset.unwene.fused 0)) = 0
      ∧ ((3 : Word).truncate 32 &&& ~~~(tabGet 0 State.reset.unwene.fused 0)) ≠ 0
      ∧ State.reset.ports.hostUp = false ∧ (withPorts fun p => { p with hostUp := true }).ports.hostUp = true
      ∧ isCounter 16 = true ∧ isCounter 31 = true ∧ isCounter 17 = false ∧ (State.reset.counter 31).locked = false
      ∧ State.reset.unwene.life ≠ .decommissioned ∧ State.reset.ports.twinUp = false
      ∧ (withPorts fun p => { p with twinUp := true, credits := 1 }).ports.credits = 1
      ∧ (withPorts fun p => { p with twinUp := true }).ports.credits = 0
      ∧ discOff 31 2 ≠ none ∧ (0xF : Word).toNat % 16 ∉ [1, 2, 3] ∧ (2 : Word).toNat % 4 = 2 := by decide
/-- R67, R71, R338: WEIGHT and quanta of zero are held at 1; an entry above 16 of EFQCFG is held at 16. -/
theorem test_register_families :
    let w (off : Nat) (v : Word) := nextOr State.reset (exec (.registerWrite (.mmio off 8) v) State.reset)
    bitsAt ((w (leaseOff 3 1) 1).lcfg 3) 16 16 = 1 ∧ (w 0 0x50000).dqAge = 5 ∧ (w 0 0x50000).dqQuant = 1
      ∧ (w (handlerOff 0 1 2 3) (BitVec.allOnes 64)).mmioGet (handlerOff 0 1 2 3) 0 = 0x1FFFFFFFF := by decide +kernel
/-- R27: the cap is held within 300 W and 600 W; R84: a new mode starts a change. -/
theorem test_pwrcap_and_bmode :
    (nextOr State.reset (exec (.pwrcapWrite 100) State.reset)).power.capFw = 300
      ∧ ((nextOr State.reset (exec (.bmodeWrite 1 2 1) State.reset)).bank 1 2).busy = some 1
      ∧ ((nextOr State.reset (exec (.bmodeWrite 1 2 1) State.reset)).bank 1 2).mode = 0 := by decide

theorem witness_BankModesAndL2 :
    State.reset.cpu.mode = .m ∧ (State.reset.bank 15 31).busy = none ∧ State.reset.ports.twinHeld = []
      ∧ ((State.reset.setBank 15 31 { Bank.reset with busy := some 2, mode := 1 }).bank 15 31).busy = some 2
      ∧ ((State.reset.setBank 15 31 { Bank.reset with busy := some 2, mode := 1 }).bank 15 31).stalled = []
      ∧ ((State.reset.setBank 15 31 { Bank.reset with busy := some 2, mode := 1 }).bank 15 31).after = []
      ∧ State.reset.l2.busy = false ∧ ({ L2.reset with busy := true } : L2).busy = true
      ∧ State.reset.l2.sliceFull 5 = false ∧ State.reset.l2.victim 5 = none := by decide
/-- A line that a core has stored to, one beyond LPDDR6, and a request that waits. -/
theorem witness_BankModesAndL2_lines :
    let s : State := { State.reset with l2 := { L2.reset with stored := [5], asked := [(5, none)], waiting := [⟨9, none, true, 0⟩] } }
    128 * 5 < 0x4000000000 ∧ (5, none) ∈ s.l2.asked ∧ (6, none) ∉ s.l2.asked ∧ 5 ∈ s.l2.stored ∧ 6 ∉ s.l2.stored ∧ ¬ 128 * 0x80000000 < 0x4000000000
      ∧ (s.l2.waiting.find? fun r => r.line == 9 && r.isWrite == true) = some ⟨9, none, true, 0⟩
      ∧ (s.l2.waiting.find? fun r => r.line == 9 && r.isWrite == false) = none
      ∧ s.cycles < 0 + 512 ∧ 0 + 512 ≤ ({ s with cycles := 512 } : State).cycles := by decide
/-- A slice all of whose entries are in use, and no tag to evict. -/
theorem witness_BankModesAndL2_full (line : Nat) :
    let l : L2 := { L2.reset with entries := List.replicate l2SliceEntries ⟨0, l2Slice line, 0, none, 2, false⟩ }
    l.sliceFull line = true ∧ l.victim line = none := by
  simp [L2.sliceFull, L2.victim, L2.reset]
/-- R84: between SCRATCH and LATCH the data stay, to FIFO they are zeroed. -/
theorem test_mode_change_complete :
    let s (m : BitVec 2) : State := ({ State.reset with mem := memSetBytes [] (bankAddr 0 1 8) [7] }).setBank 0 1
      { Bank.reset with busy := some m, mode := 1 }
    memByte (nextOr State.reset (exec (.modeChangeComplete 0 1) (s 2))).mem (bankAddr 0 1 8) = 7
      ∧ memByte (nextOr State.reset (exec (.modeChangeComplete 0 1) (s 3))).mem (bankAddr 0 1 8) = 0 := by decide

theorem witness_PlatformEvents :
    (0, 16) ∉ State.reset.beacons ∧ (0, 16) ∈ ({ State.reset with beacons := [(0, 16)] } : State).beacons
      ∧ 600 ≤ State.reset.power.capEff ∧ State.reset.power.capEff < 601
      ∧ (∀ c, c < 4 → (withPower fun p => { p with grant := Vector.replicate 4 1, pacing := Vector.replicate 4 8 }).power.grant.getD c 1 ≤ 1)
      ∧ 1 < State.reset.power.grant.getD 3 1 ∧ State.reset.power.below = false
      ∧ (withPower fun p => { p with below := true, grant := Vector.replicate 4 7 }).power.grant.getD 0 8 < 8
      ∧ State.reset.power.request = 0 ∧ (withPower fun p => { p with request := 1 }).power.request = 1
      ∧ (withPower fun p => { p with request := 2 }).power.request = 2 ∧ (withPower fun p => { p with off := true }).power.off = true
      ∧ State.reset.power.off = false ∧ (withPower fun p => { p with request := 2 }).drained = true
      ∧ (withPower fun p => { p with shutdown := true }).power.shutdown = true ∧ State.reset.power.shutdown = false
      ∧ (inTask7 (withPower fun p => { p with request := 2 }) false).drained = false := by decide
/-- The 10 ms of a shutdown at their end and one cycle before. -/
theorem witness_PlatformEvents_shutdown :
    let s (n : Nat) : State := { (withPower fun p => { p with shutdown := true, shutSince := 7 }) with cycles := n }
    (s 0).power.shutSince + 19000000 ≤ (s 19000007).cycles ∧ (s 19000006).cycles < (s 0).power.shutSince + 19000000
      ∧ (s 0).power.shutdown = true := by decide
/-- Which of a start's outcomes comes is a free value: one of them does. -/
theorem witness_PlatformEvents_start (s : State) :
    ((∃ c, earlyCode s.free = some c) ∨ earlyCode s.free = none)
      ∧ ((∃ c, s.verified = .error c) ∨ ∃ slotB, s.verified = .ok slotB) := by
  constructor
  · cases earlyCode s.free <;> simp
  · cases s.verified <;> simp
/-- The mailbox's operations, at the last one-time signature and past it. Whether a signature verifies is a free value. -/
theorem witness_PlatformEvents_mailbox :
    (withUnwene fun u => { u with pending := some 1 }).unwene.pending = some 1 ∧ State.reset.unwene.ots < 2 ^ 20
      ∧ 2 ^ 20 ≤ (withUnwene fun u => { u with ots := 2 ^ 20 }).unwene.ots
      ∧ (withUnwene fun u => { u with pending := some 2 }).unwene.pending = some 2
      ∧ (withUnwene fun u => { u with pending := some 3 }).unwene.pending = some 3
      ∧ (withUnwene fun u => { u with pending := some 9 }).unwene.pending = some 9 ∧ State.reset.unwene.pending = none
      ∧ lifeMoves .manufacture .provisioned = true ∧ lifeMoves .manufacture .manufacture = false := by decide
theorem test_power_window :
    (nextOr State.reset (exec (.powerWindow 601) State.reset)).power.grant.getD 3 0 = 7
      ∧ (nextOr State.reset (exec (.powerWindow 600) State.reset)).power.below = false
      ∧ (nextOr State.reset (exec (.powerWindow 599) State.reset)).power.below = true := by decide

/-- A submission page 0 that is valid, with 4 slots from 0x10000, the role lock set and the link up. -/
def hostState : State :=
  let s := withMmio State.reset [(spOff 0 0, 0x8000000000000000), (spOff 0 2, 0x10000), (spOff 0 3, 0x400000000)]
  { s with ports := { s.ports with hostUp := true, cxlActive := true, twinUp := true }
           power := { s.power with locked := true } }

theorem witness_HostAndTwinEvents :
    let s := hostState
    s.ports.hostUp = true ∧ s.power.locked = true ∧ bitAt (s.spcfg 0 0) 63 = true
      ∧ 3 < s.spcfg 0 3 / 2 ^ 32 % 65536 ∧ ¬ 4 < s.spcfg 0 3 / 2 ^ 32 % 65536
      ∧ regionOf (s.slotAddr 0 3) = .lpddr ∧ memByte s.mem (s.slotAddr 0 3 + 0x28) = 0 ∧ s.dqAvail ≠ 0
      ∧ State.reset.ports.hostUp = false ∧ State.reset.power.locked = false ∧ s.ports.twinUp = true ∧ State.reset.ports.twinUp = false
      ∧ s.ports.cxlActive = true := by decide
theorem witness_HostAndTwinEvents_busy_slot :
    memByte ({ hostState with mem := [(0x101A8, 2)] } : State).mem (hostState.slotAddr 0 3 + 0x28) = 2 := by decide
/-- The record of a job of one task with a deadline, for slot 3; and one whose reserved bytes are not zero. -/
def hostRecord (reserved : Nat) : List Byte :=
  bytesOf 8 2000000 ++ bytesOf 16 0 ++ bytesOf 8 (2 ^ 36) ++ bytesOf 2 3 ++ bytesOf 6 reserved ++ bytesOf 24 0
    ++ bytesOf 8 0x100 ++ bytesOf 16 0 ++ bytesOf 8 2 ++ bytesOf 32 0
theorem witness_HostAndTwinEvents_record :
    let s := hostState
    let r := s.admitRecord 0 (hostRecord 0)
    let j := { jobOf (BitVec.ofNat 64 (s.slotAddr 0 3)) (s.slotAddr 0 3) r with keep := bitAt (s.spcfg 0 0) 62 }
    (hostRecord 0).length = 128 ∧ fieldAt (hostRecord 0) 0x20 2 = 3 ∧ recordReserved (hostRecord 0) = false
      ∧ recordReserved (hostRecord 1) = true ∧ s.dquNow < j.cliffValue
      ∧ rcbInvalid (s.admitRecord 0 (List.replicate 128 0)) = true
      ∧ rcbInvalid r = false ∧ s.tenantMismatch j = false := by decide +kernel
theorem test_host_submission :
    let a := nextOr State.reset (exec (.hostSubmission 0 0 ⟨hostRecord 0, false⟩) hostState)
    let t := a.takeRecord
    let u := (nextOr State.reset (exec (.hostSubmission 0 0 ⟨hostRecord 1, false⟩) hostState)).takeRecord
    a.ports.accepting.length = 1 ∧ a.dqu.queue = [] ∧ memByte t.mem (hostState.slotAddr 0 3 + 0x28) = 2 ∧ t.dqu.queue.length = 1
      ∧ memByte u.mem (hostState.slotAddr 0 3 + 0x28) = 0x13 ∧ u.dqu.queue.length = 0 := by decide +kernel
/-- A ring with a pending record whose ITIME of 1 microsecond has passed, and one nanosecond before. -/
theorem witness_HostAndTwinEvents_ring :
    let s (c : Nat) : State := { withMmio State.reset [(ringOff 2 1, 0x100000000)] with
      ports := { State.reset.ports with ringPend := [(2, (1, 0))] }, counters := [(16, { Counter.reset with base := c * 2 ^ 32 })] }
    let at' (c : Nat) := (tabGet (0, 0) (s c).ports.ringPend 2).2 + ((s c).mmioGet (ringOff 2 1) 0).toNat / 2 ^ 32 % 2 ^ 16 * 1000
    (tabGet (0, 0) (s 0).ports.ringPend 2).1 ≠ 0 ∧ at' 1000 ≤ (s 1000).dquNow ∧ (s 999).dquNow < at' 999 := by decide
/-- A request of the twin to a bank in a mode change, and to one that does not change. -/
theorem witness_HostAndTwinEvents_waits :
    let s := (withMmio hostState [(twinBlock + 8, 0x8000000000000000)]).setBank 0 3 { Bank.reset with busy := some 1 }
    (s.mmioGet (twinBlock + 8) 0).getLsbD 63 = true ∧ s.changingAt (bankAddr 0 3 0) = true ∧ s.changingAt (bankAddr 0 4 0) = false
      ∧ s.ports.twinUp = true := by decide
/-- Ranges of 1 GiB for the host and for the twin. -/
theorem witness_HostAndTwinEvents_ranges :
    let s := withMmio hostState [(hostBlock + 0x10, 1), (twinBlock + 8, 0x10000000000)]
    (0x3FFFFFF8 + 8 ≤ (s.mmioGet (hostBlock + 0x10) 0).toNat % 256 * 2 ^ 30) ∧ s.exported 0x3FFFFFF8 8 = true
      ∧ s.exported 0x3FFFFFFC 8 = false ∧ 0x3FFFFFF8 % 8 = 0 ∧ s.atomicRegion 0x3FFFFFF8 = true := by decide
theorem test_twin_fetch_add :
    let s := withMmio hostState [(twinBlock + 8, 0x10000000000)]
    memRead (nextOr State.reset (exec (.twinRequest 0x100 (.fetchAdd 4 5 false)) s)).mem 0x100 4 = 5
      ∧ (nextOr State.reset (exec (.twinRequest 0x100 (.fetchAdd 4 5 false)) State.reset)).mem = [] := by decide

/-- Port 0 enabled, its link up, management frames to queue 2 of stream core 1 in bank 3 of cluster 0, in SCRATCH mode. -/
def portState : State :=
  let c : Nat := 2 ^ 63 + 2 ^ 53 * 3 + 2 ^ 20 * 1 + 2 ^ 16 * 2
  let s := (withMmio State.reset [(fhBlock 0, BitVec.ofNat 64 c)]).setBank 0 3 { Bank.reset with mode := 1 }
  { s with ports := { s.ports with subUp := [(0, true)] } }

theorem witness_FronthaulEvents :
    let s := portState
    s.hasSub 0 0 = true ∧ s.hasSub 0 1 = false ∧ tabGet false s.ports.subUp 0 = true ∧ tabGet false s.ports.subUp 1 = false
      ∧ s.pctl 0 / 2 ^ 28 % 16 = 0 ∧ s.pctl 0 / 2 ^ 20 % 256 = 1 ∧ s.pctl 0 / 2 ^ 16 % 16 = 2 ∧ s.pctl 0 / 2 ^ 53 % 32 = 3
      ∧ netAt (List.replicate 60 0) 12 2 ∉ [0x8100, 0xAEFE, 0x88F7] ∧ (s.getHart (scNum 0 1)).freeEntry 2 = some 0
      ∧ (s.bank 0 3).busy = none ∧ (s.bank 0 3).mode = 1 := by decide
/-- A ring with a descriptor that may start, and one without. -/
theorem witness_FronthaulEvents_launch :
    let s := withMmio portState [(txOff 0 5 0, 0x8000000000020004), (txOff 0 5 1, 1)]
    s.txReady 0 5 = some 0 ∧ (∀ q, q < 16 → q ≠ 5 → s.txReady 0 q = none) ∧ bitAt (s.pctl 0) 63 = true ∧ s.power.fatal = none
      ∧ bitAt (s.txcfg 0 5) 63 = true ∧ s.mmioGet (txOff 0 5 1) 0 ≠ s.mmioGet (txOff 0 5 2) 0
      ∧ memRead s.mem (s.txDesc 0 5 + 0x10) 8 = 0 ∧ memRead s.mem (s.txDesc 0 5 + 8) 8 / 2 ^ 16 % 4 = 0
      ∧ regionOf (s.txDesc 0 5) = .lpddr := by decide
/-- A C-plane frame of a section on an 802.1Q tag, one of an unknown message type, and a header with a wrong revision. -/
theorem witness_FronthaulEvents_frames :
    let s := portState
    let cplane : List Byte := List.replicate 12 0 ++ [0xAE, 0xFE, 0x10, 2, 0, 10] ++ List.replicate 40 0
    let bad : List Byte := List.replicate 12 0 ++ [0xAE, 0xFE, 0x20, 2, 0, 10] ++ List.replicate 40 0
    let sync : List Byte := List.replicate 12 0 ++ [0x81, 0, 0, 0, 0x88, 0xF7] ++ List.replicate 40 0
    netAt cplane 12 2 = 0xAEFE ∧ netAt (cplane.drop 14) 1 1 = 2 ∧ netAt (cplane.drop 14) 0 1 / 16 = 1
      ∧ 14 ≤ (cplane.drop 14).length ∧ s.flowFind 0 (cMatch 0 (netAt (cplane.drop 14) 4 2)) = none
      ∧ netAt (bad.drop 14) 0 1 / 16 ≠ 1 ∧ netAt sync 12 2 = 0x8100 ∧ netAt sync 16 2 = 0x88F7
      ∧ s.ports.fhLost = [] ∧ ¬ 9216 < 9200 + 16 ∧ 9216 < 9201 + 16 ∧ ¬ 192 ≤ 191 := by decide +kernel
/-- A U-plane section of one uncompressed PRB in a flow of queue 3 of cluster 0 under channel tag 7, and one of an unknown eAxC. -/
def section1 : List Byte := [0x00, 0x10, 0x00, 0x01] ++ (List.range 48).map (BitVec.ofNat 8)
def uFrame (eaxc : Nat) : UFrame := ⟨0, eaxc, 0, 9, [0, 0, 0, 0]⟩
def flowAct : Nat := 3 * 16 + 7 * 512
def sectionState : State :=
  (withMmio portState [(fhBlock 0 + 0x100000, BitVec.ofNat 64 (2 ^ 63 + 0xFFF * 2 ^ 28 + 5)),
    (fhBlock 0 + 0x100008, BitVec.ofNat 64 flowAct)]).setBank 0 3 { Bank.reset with mode := 3, chan := 7 }
theorem witness_FronthaulEvents_sections :
    let s := sectionState
    s.flowFind 0 (uMatch 0 5 0 (netAt section1 0 2 / 16)) = some flowAct ∧ 4 ≤ section1.length ∧ bitAt flowAct 28 = false
      ∧ flowAct / 2 ^ 21 % 8 = 0 ∧ netAt section1 3 1 = 1 ∧ (section1.drop 4).length = 48 ∧ (s.bank 0 3).busy = none
      ∧ (s.bank 0 3).mode = 3 ∧ (s.bank 0 3).chan.toNat = flowAct / 512 % 4096 ∧ (s.bank 0 3).level + 128 ≤ 0x40000
      ∧ flowAct % 16 = 0 ∧ flowAct / 16 % 32 = 3 := by decide +kernel
theorem witness_FronthaulEvents_no_flow :
    portState.flowFind 0 (uMatch 0 6 0 1) = none := by decide +kernel
theorem test_section_lands :
    let t := State.sections 0 (uFrame 5) false 3 section1 sectionState
    (t.bank 0 3).level = 128 ∧ memBytes t.mem (bankAddr 0 3 0) 3 = [0, 1, 2] ∧ memByte t.mem (bankAddr 0 3 47) = 47
      ∧ memByte t.mem (bankAddr 0 3 48) = 0 := by decide +kernel
/-- A frame to be sent that lies in a bank in a mode change. -/
theorem witness_FronthaulEvents_waits :
    let s := portState.setBank 0 4 { Bank.reset with busy := some 1 }
    s.changingIn (bankAddr 0 4 0) 64 = true ∧ s.changingIn (bankAddr 0 5 0) 64 = false ∧ s.changingIn (bankAddr 0 4 0) 0 = false := by
  decide
/-- A link that is down, another that is up, and the port-event queue of a ROLE 2 core. -/
theorem witness_FronthaulEvents_links :
    let s : State := { portState with power := { portState.power with port15 := some 20 } }
    tabGet false s.ports.subUp 0 = true ∧ tabGet false s.ports.subUp 1 = false ∧ s.hasSub 0 0 = true
      ∧ (s.inflight.filter fun m => m.kind == .portEvent).length < 16 := by decide
theorem test_tx_launch :
    let s := withMmio portState [(txOff 0 5 0, 0x8000000000020004), (txOff 0 5 1, 1)]
    let t := nextOr State.reset (exec (.txLaunch 0 5) s)
    t.mmioGet (txOff 0 5 2) 0 = 1 ∧ bitAt (memRead t.mem 0x20008 8) 31 = true := by decide

/-- A queued task of job 7 for stream cores. -/
def queued : QTask := ⟨3, 7, 0, ⟨0x100, 0, 2, false⟩, 0, 0, []⟩
/-- A job that may run on every cluster. -/
def runningJob : Job := { aJob with ctl := 0xFFFF000000000, state := 2 }
/-- A machine with that task, and a stream core that runs another task of the job. -/
def queueState : State :=
  let s := { scState with dqu := { Dqu.reset with jobs := [(7, some runningJob)], nextJob := 8, queue := [queued], nextTask := 4 } }
  { s with cpu := { s.cpu with run := .task { aTask false with id := 1 } }, power := { s.power with locked := true } }

/-- Where no lease is valid no row is lent, and none is reclaimed. -/
theorem calm_without_leases {s : State} (h : ∀ l ∈ List.range 256, s.leaseValid l = false) :
    ∀ r q, q ∈ s.dqu.queue → s.wantsRow r q = false := by
  intro r q _
  have hl : s.rowLeased r = false := by
    simp only [State.rowLeased, List.any_eq_false]
    intro l hm
    simp [h l hm]
  simp [State.wantsRow, State.lent, hl]
theorem witness_DeadlineQueueEvents_calm :
    ∀ l ∈ List.range 256, queueState.leaseValid l = false := by decide +kernel
theorem witness_DeadlineQueueEvents_prefetch :
    let s := queueState
    16 < hartCount ∧ isVcNum 16 = false ∧ (s.getHart 16).prefetch.length < 2 ∧ (s.getHart 16).takesTasks = true
      ∧ (s.getHart 16).free = false ∧ ((s.choose 16 fun q => q.slots.isEmpty).map fun r => r.1) = some queued
      ∧ queued.desc.kind = 2 ∧ (State.reset.getHart 17).takesTasks = false ∧ State.reset.recallables 16 = [] := by decide
/-- The same task for a free core; a ROW task for a row of cores that run tasks; a task behind which a more urgent one waits. -/
theorem witness_DeadlineQueueEvents_starts :
    let s : State := { queueState with cpu := { queueState.cpu with run := .idle } }
    (s.getHart 16).free = true ∧ (s.getHart 16).prefetch = [] ∧ s.messagesWait 16 = false ∧ s.task? 3 = some queued
      ∧ s.recallables 16 = [] ∧ ((s.choose 16 fun q => q.slots.isEmpty).map fun r => r.1) = some queued := by decide
def rowTask : QTask := ⟨3, 7, 0, ⟨0x100, 0, 1, false⟩, 0, 0, []⟩
def rowState : State :=
  let running (h : Hart) : Hart := { h with run := .task { aTask false with id := 1 } }
  let s : State := { State.reset with
    cpu := running State.reset.cpu
    parked := [1, 2, 3].map fun n => (n, some (running (State.reset.getHart n)))
    dqu := { Dqu.reset with jobs := [(7, some runningJob)], nextJob := 8, queue := [rowTask], nextTask := 4 } }
  { s with power := { s.power with locked := true } }
theorem witness_DeadlineQueueEvents_row :
    let s := rowState
    (∀ l ∈ List.range 256, s.leaseValid l = false) ∧ s.recallables 0 = [] ∧ (s.getHart 0).free = false ∧ (s.getHart 0).takesTasks = true ∧ rowTask.desc.kind = 1
      ∧ ((s.choose 0 fun q => q.slots.isEmpty).map fun r => r.1) = some rowTask ∧ s.lent (rowOfHart 0) = false
      ∧ tabGet none s.dqu.reserved (rowOfHart 0) = none ∧ (s.rowSlotted (rowOfHart 0)).all (fun b => b.desc.kind != 0) = true
      ∧ ∀ m ∈ rowHarts (rowOfHart 0), (s.getHart m).prefetch.length < 2 := by decide +kernel
theorem witness_DeadlineQueueEvents_recalls :
    let late : QTask := { queued with id := 4, seq := 1, slots := [16] }
    let s : State := { queueState with
      dqu := { queueState.dqu with queue := [queued, late] }, cpu := { queueState.cpu with prefetch := [4] } }
    s.recallables 16 = [late] ∧ s.task? 4 = some late ∧ ∀ m ∈ late.slots, (s.getHart m).free = false := by decide
/-- Row 0, which lease 1 names, is lent: core 0 runs a class-2 task and holds another; a class-0 task waits. -/
def lentState : State :=
  let s := withMmio rowState [(leaseOff 1 0, 1), (leaseOff 1 1, 0x10001)]
  { s with
    cpu := { s.cpu with run := .task { aTask false with id := 1, job := 8 }, prefetch := [4] }
    dqu := { s.dqu with
      jobs := [(7, some runningJob), (8, some { runningJob with ctl := 0xFFFF000010002 })]
      queue := [⟨3, 7, 0, ⟨0x100, 0, 0, false⟩, 0, 0, []⟩, ⟨4, 8, 0, ⟨0x100, 0, 0, false⟩, 1, 0, [0]⟩] } }
theorem witness_DeadlineQueueEvents_lent :
    let s := lentState
    (s.getHart 0).free = false ∧ (∀ m ∈ s.liveHarts, m.free = false) ∧ s.cpu ∈ s.liveHarts ∧ isVcNum s.cpu.num = true
      ∧ rowOfHart s.cpu.num = 0 ∧ (∃ q ∈ s.dqu.queue, s.wantsRow 0 q = true) ∧ (s.dqu.queue.map (·.id)).Nodup
      ∧ ∀ r, ∀ q ∈ s.dqu.queue, s.wantsRow r q = true → r = 0 := by
  refine ⟨by decide, by decide, List.mem_cons_self .., by decide, by decide, ⟨_, List.mem_cons_self .., by decide +kernel⟩, by decide, ?_⟩
  intro r q _ hw
  have hl : ∀ l ∈ List.range 256, lentState.leaseValid l = true → lentState.lrows l = 1 := by decide +kernel
  simp only [State.wantsRow, State.lent, State.rowLeased, Bool.and_eq_true, List.any_eq_true] at hw
  obtain ⟨⟨⟨-, ⟨l, hm, hv, hb⟩, -⟩, -⟩, -⟩ := hw
  rw [hl l hm hv] at hb
  rcases r with _ | r
  · rfl
  · exact absurd hb (by simp [bitAt, Nat.div_eq_of_lt (Nat.one_lt_two_pow (Nat.succ_ne_zero r))])
/-- Reclaim begins: the prefetched class-2 task goes back to the tideline. -/
theorem test_reclaim_begins :
    let t := nextOr State.reset (exec (.prefetchFill 0) lentState)
    tabGet none t.dqu.reclaim 0 = some ⟨0, 3, 1, false⟩ ∧ t.dqu.queue.map (·.slots) = [[0], []] ∧ t.cpu.prefetch = [3] := by
  decide +kernel
/-- A free core whose older slot holds a task that may start, with nothing to choose; and one whose task's job is PENDING. -/
theorem witness_DeadlineQueueEvents_older :
    let held : QTask := { queued with slots := [16] }
    let s (j : Job) : State := { queueState with
      dqu := { queueState.dqu with jobs := [(7, some j)], queue := [held] }
      cpu := { queueState.cpu with run := .idle, prefetch := [3] } }
    let may := s runningJob
    (may.choose 16 fun q => q.slots.isEmpty).isNone = true ∧ (may.getHart 16).free = true ∧ may.messagesWait 16 = false
      ∧ (may.getHart 16).prefetch = [3] ∧ may.task? 3 = some held ∧ may.job? 7 = some runningJob ∧ held.desc.kind ≠ 1
      ∧ may.startable runningJob = true ∧ may.power.locked = true ∧ may.power.shutdown = false ∧ may.power.fatal = none
      ∧ may.recallables 16 = [] ∧ (s { runningJob with state := 1 }).startable { runningJob with state := 1 } = false := by decide
/-- A message that may land and one that may not; a waiting completion message with room. -/
def someMsg : Msg := ⟨.completion, none, false, 0, 4, 3, 0, none, [1], false⟩
theorem witness_DeadlineQueueEvents_messages :
    let s : State := { State.reset with inflight := [someMsg, someMsg], dqu := { Dqu.reset with compWait := [someMsg] } }
    s.mayLand 0 = true ∧ s.mayLand 1 = false ∧ s.inflight[2]? = none ∧ s.dqu.compWait.find? s.hasRoom = some someMsg
      ∧ State.reset.dqu.compWait.find? State.reset.hasRoom = none := by decide
theorem witness_DeadlineQueueEvents_lands :
    let s : State := (withMmio { State.reset with inflight := [{ someMsg with kind := .core, src := some 0, land := some (bankAddr 0 1 0) }] } []).setBank 0 1
      { Bank.reset with mode := 1 }
    (s.landMsg { someMsg with kind := .core, src := some 0, land := some (bankAddr 0 1 0) }).isSome = true := by decide
theorem witness_DeadlineQueueEvents_places :
    let m := { someMsg with land := some (bankAddr 0 1 0) }
    let f := { someMsg with toFifo := true, dest := 1, chan := 5 }
    let s (m : Msg) (mode : BitVec 2) : State := { State.reset with inflight := [m] }.setBank 0 1 { Bank.reset with mode := mode, chan := 5 }
    (s m 1).mayLand 0 = true ∧ ((s m 1).getHart (scNum 0 4)).freeEntry 3 = some 0 ∧ (s m 1).changingAt (bankAddr 0 1 0) = false
      ∧ inScratch (s m 1) 0 (bankAddr 0 1 0) 1 = true ∧ ((s f 3).bank 0 1).busy = none ∧ ((s f 3).bank 0 1).mode = 3
      ∧ ((s f 3).bank 0 1).chan.toNat = f.chan ∧ ((s f 3).bank 0 1).level + (f.data.length + 127) / 128 * 128 ≤ 0x40000 := by decide
/-- Jobs at their release, at their cliff under both policies, with a waiting continuation, and a reclaim that is late. -/
theorem witness_DeadlineQueueEvents_jobs :
    let pending : Job := { aJob with state := 1, release := 0 }
    let cliff : Job := { aJob with deadline := 0 }
    let contJob : Job := { aJob with contDue := true, cont := some ⟨0x100, 0, 2, false⟩ }
    let s (j : Job) : State := { State.reset with dqu := { Dqu.reset with jobs := [(7, some j)] } }
    (s pending).job? 7 = some pending ∧ pending.release.toNat ≤ (s pending).dquNow ∧ pending.state = 1
      ∧ cliff.cliffValue ≤ (s cliff).dquNow ∧ cliff.defer = false ∧ ({ cliff with ctl := 4 } : Job).defer = true
      ∧ (s contJob).nextCont = some (7, ⟨0x100, 0, 2, false⟩, 0) ∧ (s contJob).dqFree ≠ 0 ∧ State.reset.nextCont = none
      ∧ aJob.cliffValue > State.reset.dquNow ∧ State.reset.job? 7 = none := by decide
theorem witness_DeadlineQueueEvents_reclaim :
    let at' (c : Nat) : State := { State.reset with
      dqu := { Dqu.reset with reclaim := [(rowKey 0 0, some ⟨0, 3, 1, false⟩)] }
      counters := [(16, { Counter.reset with base := c * 2 ^ 32 })] }
    tabGet none (at' 20200).dqu.reclaim (rowKey 0 0) = some ⟨0, 3, 1, false⟩
      ∧ ¬ 0 + (at' 20200).leaseCap 1 + 200 < (at' 20200).dquNow ∧ 0 + (at' 20201).leaseCap 1 + 200 < (at' 20201).dquNow := by
  decide
theorem test_job_cliff :
    let s (ctl : Word) : State := { State.reset with dqu := { Dqu.reset with jobs := [(7, some { aJob with deadline := 0, ctl := ctl })] } }
    ((nextOr State.reset (exec (.jobCliff 7) (s 0))).job? 7).map (·.abandonAt) = some (some 0)
      ∧ ((nextOr State.reset (exec (.jobCliff 7) (s 4))).job? 7).map (·.deferred) = some true := by decide

/-- A core in a task under signal or budget. -/
def taskState (r : TaskRun) (w : Option Wait) (budget : BitVec 32) : State :=
  let s := inTask7 State.reset false
  { s with cpu := { s.cpu with run := .task r, wait := w, tbudget := budget } }

theorem witness_CoreEvents :
    let r : TaskRun := { aTask false with graceAt := some 0 }
    let late : TaskRun := { aTask false with graceAt := some 1 }
    let b : TaskRun := { aTask false with counts := true }
    State.reset.cpu.task = none ∧ (taskState r none 5).cpu.run = .task r ∧ r.graceAt ≠ none ∧ r.trapDepth = 0
      ∧ (taskState r (some ⟨.push 1, 0, 0, false⟩) 5).cpu.wait = some ⟨.push 1, 0, 0, false⟩
      ∧ 0 ≤ (taskState r none 5).dquNow ∧ (taskState late none 5).dquNow < 1 ∧ (taskState r none 5).cpu.inMHandler = false
      ∧ (taskState { r with trapDepth := 1 } none 5).cpu.inMHandler = true
      ∧ b.counts = true ∧ (taskState b none 0).cpu.tbudget = 0 ∧ b.mcAt = 0 ∧ b.gang = false ∧ (taskState b none 0).job? 7 = some aJob := by
  decide
/-- The progress timer at its limit and one below; interrupt codes; the waits of each kind that ends. -/
theorem witness_CoreEvents_waits :
    let h : Hart := { State.reset.cpu with wait := some ⟨.tags 5 true, 0, 0, false⟩, progress := 0x100000 }
    let early : Hart := { h with progress := 0xFFFFF }
    h.timed = true ∧ h.vec.vprogtmo.toNat ≤ h.progress ∧ early.progress < early.vec.vprogtmo.toNat ∧ State.reset.cpu.timed = false
      ∧ (11 : BitVec 6).toNat ∈ [1, 3, 5, 7, 9, 11] ∧ (2 : BitVec 6).toNat ∉ [1, 3, 5, 7, 9, 11]
      ∧ ({ State.reset.cpu with csr := { State.reset.cpu.csr with mip := 0x800 } } : Hart).pendingInt ≠ some 11
      ∧ (∀ w c, ({ h with wait := some ⟨.post c, 0, 0, false⟩ } : Hart).wait = some w → w.on = .post c → w.va = 0) := by
  refine ⟨by decide, by decide, by decide, by decide, by decide, by decide, by decide, ?_⟩
  intro w c h _
  cases h
  rfl
/-- Handlers under a signal, waits that stop and waits that do not, a grace that has ended, a budget stop that has waited. -/
theorem witness_CoreEvents_stops :
    let r : TaskRun := { aTask false with graceAt := some 0 }
    let deep : State := taskState { r with trapDepth := 1 } none 5
    let waits (w : WaitOn) : State := taskState r (some ⟨w, 0, 0, false⟩) 5
    deep.cpu.mode = .m ∧ (inMode deep .s).cpu.mode ≠ .m ∧ (inMode deep .s).cpu.inMHandler = false
      ∧ (waits .hwait).cpu.wait.map (·.on) = some .hwait ∧ (waits .wfi).cpu.wait.map (·.on) = some .wfi
      ∧ (waits .chain).cpu.buf = [] ∧ (waits .chain).cpu.pops = [] ∧ (waits .chain).cpu.isVc = true
      ∧ (taskState { r with mcAt := 0, stopMc := true } none 5).cpu.task = some { r with mcAt := 0, stopMc := true }
      ∧ (taskState { r with mcAt := 1 } none 5).cpu.task.map (·.mcAt) ≠ some 0 := by decide
theorem witness_CoreEvents_still : noSlots (taskState (aTask false) none 5).cpu := noSlots_replicate rfl
/-- An interrupt that is enabled in M-mode, and one that is not. -/
theorem witness_CoreEvents_interrupts :
    let on (mie : Word) : Hart := { State.reset.cpu with csr := { State.reset.cpu.csr with mie := mie, mstatus := 8 } }
    let pending (mie : Word) : Hart := { on mie with csr := { (on mie).csr with mip := (on mie).csr.mip ||| ((1 : Word) <<< 7) } }
    (pending 0x80).pendingInt = some 7 ∧ (pending 0).pendingInt ≠ some 7 ∧ (on 0x80).runs = true ∧ (on 0x80).trap = none
      ∧ (on 0x80).buf = [] ∧ (on 0x80).pops = [] ∧ (on 0x80).vec.strip = none ∧ (on 0x80).wait = none := by decide
theorem test_wait_ends :
    let h : Hart := { State.reset.cpu with wait := some ⟨.tags 5 true, 0, 0, false⟩ }
    (nextOr State.reset (exec .tagWaitEnd { State.reset with cpu := { h with ctags := 5 } })).cpu.wait = none
      ∧ (nextOr State.reset (exec .tagWaitEnd { State.reset with cpu := { h with ctags := 4 } })).cpu.wait.isSome = true := by
  decide
theorem test_progress_timeout :
    let h : Hart := { State.reset.cpu with wait := some ⟨.tags 5 true, 0, 0, false⟩, progress := 0x100000 }
    (nextOr State.reset (exec .progressTimeout { State.reset with cpu := h })).cpu.csr.mcause = 26 := by decide

/-- An MZERO of tile 1 at the head of row 0's queue. -/
def zeroCmd : MatCmd :=
  ⟨mzeroWord, 0x4000, [.none, .none, .none, .none], [1, 1, 1, 1], 0, .m, none, none, 0, [0, 0, 0, 0], none, 0⟩
/-- Row 0 with a command and two accumulator elements. -/
def matrixState (c : MatCmd) : State :=
  State.reset.setRow 0 0 { Row.reset with queue := [.cmd c], acc := [(5, 9), (1024 + 5, 9)] }
theorem no_walk_here (u : State) (cl : Nat) (satp va : Word) :
    u.walkBad [] (engOf cl satp .m).cl (engOf cl satp .m).ctx va true = false := by simp [State.walkBad, engOf]
/-- In M-mode an engine accesses LPDDR6 by physical address. -/
theorem eng_holds_here (s : State) (cl : Nat) (satp : Word) (write : Bool) (va : Word) (n : Nat)
    (h : ∀ q ∈ engCut va n, regionOf q.1.toNat = .lpddr) : engHolds s (engOf cl satp .m) write va n BitVec.toNat :=
  fun q hq => ⟨Or.inl (h q hq), identity q.1, rfl, fun _ _ => ⟨rfl, no_walk_here _ _ _ _⟩⟩
theorem units_held_here (s : State) (cl : Nat) (satp : Word) (va : Word) (n : Nat)
    (h : ∀ k, k < n → regionOf (va + BitVec.ofNat 64 (32 * k)).toNat = .lpddr) :
    unitsHeld s (engOf cl satp .m) va n BitVec.toNat :=
  fun k hk => ⟨Or.inl (h k hk), identity _, rfl, rfl, fun _ _ => ⟨rfl, no_walk_here _ _ _ _⟩⟩

/-- An MMA and an MMAS of E4M3, an MMAW2, and an MSLIDE of BF16, all of tile 1, with A in registers and B at 0x8000; an MDRAIN to
fp32 at 0x8000. -/
def matCmd (words : Nat) (f : AForm) : MatCmd := { zeroCmd with words := words + 65536 * 1 + 2 ^ 64 * 0x8000, forms := [f, f, f, f] }
def mmaCmd : MatCmd := matCmd (1 + 2 ^ 32 * 0x11) (.vreg [] [])
def mmasCmd : MatCmd := matCmd (2 + 2 ^ 32 * 0x11 + 2 ^ 40) (.vreg [] [])
def mmaw2Cmd : MatCmd := matCmd (3 + 2 ^ 36 * 5) (.vreg [] [])
def mslideCmd : MatCmd := matCmd (4 + 2 ^ 32 * 0x44) (.vreg [] [])
def mdrainCmd : MatCmd := matCmd (6 + 2 ^ 112 * 128) .none

theorem witness_MatrixAndChainSteps_commands :
    (∀ c ∈ [mmaCmd, mmasCmd, mmaw2Cmd, mslideCmd, mdrainCmd], c.result = none ∧ c.defect = false
      ∧ ((matrixState c).row 0 0).head? = some c ∧ (matrixState c).matWaited 0 0 c = true)
      ∧ (∀ n b, (State.reset.bank n b).busy = none) := by
  refine ⟨by decide, fun n b => rfl⟩
/-- Their B operands are held, and their A operands are in registers. -/
theorem witness_MatrixAndChainSteps_operands :
    (∀ c ∈ [mmaCmd, mmasCmd, mmaw2Cmd, mslideCmd], ∀ main side, aHeld (matrixState c) (engOf 0 0 .m) BitVec.toNat c main side)
      ∧ (∀ j, engHolds (matrixState mmaCmd) (engOf 0 0 .m) false (0x8000 + BitVec.ofNat 64 (j * 0)) 32 BitVec.toNat)
      ∧ engHolds (matrixState mslideCmd) (engOf 0 0 .m) false 0x8000 ((96 + 31) * 2) BitVec.toNat := by
  refine ⟨?_, fun j => ?_, eng_holds_here _ 0 0 false 0x8000 _ (by decide)⟩
  · intro c hc main side r hr base pitch tile hf
    have hv : ∀ k, c.forms.getD k .none = .vreg [] [] ∨ c.forms.getD k .none = .none := by
      intro k
      have : c.forms = [.vreg [] [], .vreg [] [], .vreg [] [], .vreg [] []] := by
        simp only [List.mem_cons, List.mem_nil_iff, or_false] at hc
        rcases hc with rfl | rfl | rfl | rfl <;> rfl
      rw [this]
      rcases Nat.lt_or_ge k 4 with hk | hk
      · interval_cases k <;> exact Or.inl rfl
      · exact Or.inr (List.getD_eq_default _ _ (by simpa using hk))
    rcases hv (r / 8) with h | h <;> rw [h] at hf <;> cases hf
  · exact eng_holds_here _ 0 0 false _ _ (by simp only [Nat.mul_zero]; decide)
/-- The rows of the MDRAIN lie one after another. -/
theorem witness_MatrixAndChainSteps_drain :
    let ws : Writes := (List.range 32).map fun r => (0x8000 + BitVec.ofNat 64 (r * 128), List.replicate 128 0)
    (∀ w ∈ ws, ∀ q ∈ engCut w.1 w.2.length, regionOf q.1.toNat = .lpddr)
      ∧ (ws.parts BitVec.toNat).Pairwise fun p q => p.1 + p.2 ≤ q.1 ∨ q.1 + q.2 ≤ p.1 := by decide +kernel
/-- BF16 ones in a row of A and in a column of B: the element becomes 96. -/
theorem test_mat_elem :
    let one : List Byte := (List.range 96).flatMap fun _ => [0x80, 0x3F]
    matElem (1 + 2 ^ 32 * 0x44 + 2 ^ 48 * 127 + 2 ^ 56 * 127) one [] (fun _ => opndVal 4 [0x80, 0x3F] 0) 0 = 0x42C00000 := by decide +kernel

/-- Row 0 with a chain. -/
def chainState (begun : Bool) : State :=
  State.reset.setRow 0 0 { Row.reset with
    chain := some ⟨0x4000, [], false, [0, 0, 0, 0], [some 0, none, none, none], begun, 0, .m, 0, none, []⟩ }

theorem witness_MatrixAndChainSteps :
    let s := matrixState zeroCmd
    s.power.fatal = none ∧ (withPower fun p => { p with fatal := some 1 }).power.fatal ≠ none
      ∧ (s.row 0 0).head? = some zeroCmd ∧ zeroCmd.result = none ∧ zeroCmd.defect = false ∧ zeroCmd.words % 256 = 5
      ∧ s.matWaited 0 0 zeroCmd = true ∧ zeroCmd.seqs.length = 4
      ∧ ({ zeroCmd with words := 0 } : MatCmd).defect = true ∧ (State.reset.row 0 0).head? = none
      ∧ zeroCmd.reruns < 2 ∧ ¬ ({ zeroCmd with reruns := 2 } : MatCmd).reruns < 2 := by decide
theorem witness_MatrixAndChainSteps_chain :
    ((chainState false).row 0 0).chain.map (·.begun) = some false ∧ ((chainState true).row 0 0).chain.map (·.begun) = some true
      ∧ ((chainState false).row 0 0).queue = [] ∧ ((chainState false).row 0 0).repair = false
      ∧ (State.reset.row 0 0).chain = none := by decide
/-- A chain in M-mode at a block of header h, 0x4000. -/
def blockState (h : Nat) : State :=
  { State.reset.setRow 0 0 { Row.reset with
      chain := some ⟨0x4000, [], false, [0, 0, 0, 0], [none, none, none, none], true, 0, .m, 0, none, []⟩ } with
    mem := memSetBytes [] 0x4000 (bytesOf 32 h) }
/-- A WDENSE of E4M3 and K 12, a WSPARSE, a WTWO of K 48, a WLRC of rank 1 and K 6, a WACT; a WOUT of fp32 to memory and one to
window 1; a WSEL that always goes, a WCALL, a WRET and a WEND. -/
def headers : List (Nat × Nat) :=
  let tile := 768 + 2 ^ 16
  let x := 2 ^ 128 * 0x6000
  [(1, 1 + tile + 2 ^ 32 * 0x11 + 2 ^ 112 * 384 + x), (2, 2 + tile + 2 ^ 32 * 0x11 + 2 ^ 40 + 2 ^ 112 * 480 + x),
    (3, 3 + tile + 2 ^ 36 * 5 + 2 ^ 112 * 416 + x), (4, 4 + tile + 2 ^ 32 * 0x44 + 2 ^ 112 * 96 + x), (5, 5 + tile + 2 ^ 112 * 192),
    (6, 6 + tile + 2 ^ 128 * 0xA000 + 2 ^ 176 * 128), (6, 6 + tile + 2 ^ 23 + 2 ^ 128), (7, 7 + 768 + 2 ^ 43 + x), (8, 8 + 768 + x),
    (9, 9 + 768), (10, 10 + 768)]

theorem witness_MatrixAndChainSteps_headers :
    ∀ p ∈ headers, p.2 % 256 = p.1 ∧ wDefect p.2 = false ∧ wPasses p.2 = 1 ∧ (blockState p.2).poisonedAt 0x4000 32 = false
      ∧ ofBytes (unitBytes (blockState p.2).mem BitVec.toNat 0x4000 1) = p.2
      ∧ (p.1 ≤ 4 → 0 < wDepth p.2 ∧ ceilDiv (wUsed p.2) 32 ≤ 15) := by decide +kernel
theorem witness_MatrixAndChainSteps_units (h : Nat) :
    unitsHeld (blockState h) (engOf 0 0 .m) 0x4000 1 BitVec.toNat ∧ unitsHeld (blockState h) (engOf 0 0 .m) (0x4000 + 32) 15 BitVec.toNat
      ∧ engHolds (blockState h) (engOf 0 0 .m) false 0x6000 1 BitVec.toNat ∧ (wPasses h = 1 → planesHeld (blockState h) 0 h)
      ∧ ((blockState h).row 0 0).chain.map (·.begun) = some true
      ∧ ∀ n ∈ [0, 1, 2, 3], ((blockState h).getHart n).pendingInt = none := by
  refine ⟨units_held_here _ 0 0 _ _ (by decide), units_held_here _ 0 0 _ _ (by decide),
    eng_holds_here _ 0 0 false _ _ (by decide), fun hp _ hn => absurd hp hn, rfl, ?_⟩
  have hr : ∀ n ∈ [0, 1, 2, 3], (State.reset.getHart n).pendingInt = none := by decide
  exact fun n hn => (congrArg Hart.pendingInt (rfl : (blockState h).getHart n = State.reset.getHart n)).trans (hr n hn)
/-- The rows of the WOUT lie one after another, and each window word is empty. -/
theorem witness_MatrixAndChainSteps_outputs :
    let h := (headers.getD 5 (0, 0)).2
    let w := (headers.getD 6 (0, 0)).2
    let s := (blockState w).setBank 0 2 { Bank.reset with mode := 2, winen := true }
    let t := { s with cpu := { s.cpu with vec := { s.cpu.vec with nwin := s.cpu.vec.nwin.setIfInBounds 1 (BitVec.ofNat 64 (2 ^ 63 + 128)) } } }
    (∀ x ∈ outWrites (blockState h) 0 0 h, ∀ q ∈ engCut x.1 x.2.length, regionOf q.1.toNat = .lpddr)
      ∧ ((outWrites (blockState h) 0 0 h).parts BitVec.toNat).Pairwise (fun p q => p.1 + p.2 ≤ q.1 ∨ q.1 + q.2 ≤ p.1)
      ∧ wCols w = [0] ∧ t.windowVerdict 0 0 0 w none = .ok ∧ wOutLen w / 8 = 128 ∧ (t.bank 0 2).full = [] := by decide +kernel
/-- WCALL stacks a link and goes on at 0x6000; WEND ends the chain with x10 = 0; a WOUT writes an accumulator row. -/
theorem test_chain_steps :
    let s := blockState (headers.getD 8 (0, 0)).2
    let e := blockState (headers.getD 10 (0, 0)).2
    let o := blockState (headers.getD 5 (0, 0)).2
    let w := { (o.row 0 0) with acc := [(33, 0x40490FDB)] }
    ((nextOr s (exec (.wcall 0 0) s)).row 0 0).chain.map (fun c => (c.block, c.links)) = some (0x6000, [0x4020])
      ∧ ((nextOr e (exec (.wend 0 0) e)).row 0 0).chain = none ∧ (nextOr e (exec (.wend 0 0) e)).cpu.pc = e.cpu.pc + 4
      ∧ memRead (nextOr o (exec (.wout 0 0) (o.setRow 0 0 w))).mem (0xA000 + 128 + 4) 4 = 0x40490FDB := by decide +kernel
/-- The next header of a chain lies in memory, or in a bank that changes its mode; a command and a block that work on significands. -/
theorem witness_MatrixAndChainSteps_stalls :
    let ch : Chain := ⟨0x4000, [], false, [0, 0, 0, 0], [none, none, none, none], true, 0, .m, 0, none, []⟩
    let s := (blockState 0).setBank 0 3 { Bank.reset with busy := some 1 }
    s.headerStalls (engOf 0 0 .m) ch = false ∧ s.headerStalls (engOf 0 0 .m) { ch with block := BitVec.ofNat 64 (bankAddr 0 3 0) } = true
      ∧ bitsAt mmaCmd.words 32 4 ≠ 0 ∧ zeroCmd.words % 256 = 5 ∧ wDefect (headers.getD 0 (0, 0)).2 = false := by decide +kernel
/-- A mismatch at an MZERO is none: nothing computes on significands (R349). -/
theorem test_mismatch_of_mzero :
    let t := nextOr State.reset (exec (.jmaResidueMismatch 0 0 1) (matrixState zeroCmd))
    ((t.row 0 0).head?.map (·.reruns)) = some 0
      ∧ (((nextOr State.reset (exec (.jmaResidueMismatch 0 0 1) (matrixState mmaCmd))).row 0 0).head?.map (·.reruns)) = some 1 := by
  decide +kernel
/-- A window wait of column 0 at its limit and one cycle before. -/
theorem witness_MatrixAndChainSteps_late :
    let late (n : Nat) : State := { chainState true with cycles := n }
    ((late 0x100000).row 0 0).chain.map ((late 0x100000).windowLate 0 0 · 0) = some true
      ∧ ((late 0xFFFFF).row 0 0).chain.map ((late 0xFFFFF).windowLate 0 0 · 0) = some false := by decide
set_option maxRecDepth 20000 in
theorem test_mzero_clears :
    let t := nextOr State.reset (exec (.mzero 0 0) (matrixState zeroCmd))
    tabGet 0 (t.row 0 0).acc (1024 + 5) = 0 ∧ tabGet 0 (t.row 0 0).acc 5 = 9
      ∧ ((nextOr State.reset (exec (.matrixCommandComplete 0 0) t)).getHart 3).done.getD 0 0 = 1 := by decide

/-- A FILL of 64 bytes at 0x8000 with the byte 0x5A, queued at queue 0 of engine 0 of cluster 0. -/
def fillCmd : Cmd where
  hart := 0
  ctx := 1
  seq := 1
  words := 2 + 256 * 1 + 2 ^ 32 * 64 + 2 ^ 64 * 0x8000 + 2 ^ 160 * 0x5A
  addr := 0x4000
  satp := 0
  mode := .m
  job := none
  task := none
  order := 0
  cl := 0
  ce := 0
  queue := 0
  slot := 0
  state := .queued
  status := 0
  bytes := 0
  aux := 0
  misses := []
  staging := []
  stagingBad := false
  bad := false
  poisoned := false
  lost := []
  corrected := false
  owes := false
  missBad := false

/-- An RMATCH of eight bits. -/
def matchCmd : Cmd :=
  { fillCmd with
    ctx := 3
    words := 5 + 256 * 2 + 2 ^ 14 + 2 ^ 256 * (2 + 2 ^ 18 * 1 + 2 ^ 24 * 8 + 2 ^ 48 * 44 + 2 ^ 88 * 44) }

/-- A machine with one command. -/
def cmdState (c : Cmd) : State := { State.reset with cmds := [c] }

theorem witness_EngineAndIntegrityEvents_next :
    (cmdState fillCmd).nextCopy 0 0 0 = some fillCmd ∧ fillCmd.words % 256 = 2 ∧ State.reset.nextCopy 0 0 0 = none
      ∧ (cmdState { fillCmd with words := 3 + 256 }).nextCopy 0 0 0 = some { fillCmd with words := 3 + 256 }
      ∧ State.reset.isServer 0 = false ∧ State.reset.power.fatal = none
      ∧ (cmdState { fillCmd with state := .finished }).firstOfContext 0 1 = some { fillCmd with state := .finished }
      ∧ State.reset.firstOfContext 0 1 = none := by decide
theorem witness_EngineAndIntegrityEvents_held :
    let s := withMmio { State.reset with held := [(2, [List.replicate 56 0])] } [(efOff 2 1, 0x8000000000060000)]
    tabGet [] s.held 2 = [List.replicate 56 0] ∧ s.efSpace 2 = true ∧ State.reset.efSpace 2 = false ∧ tabGet [] State.reset.held 2 = [] := by
  decide
/-- A core executing an `add` and one executing a vector instruction in protected mode. -/
theorem witness_EngineAndIntegrityEvents_current :
    let s := State.reset.withFetchWord 32 0x00150513
    let v := onVec (State.reset.withFetchWord 48 0x00143106101F) fun v => { v with vcfg := 0x140A, vl := 2 }
    s.current = some 0x00150513 ∧ (s.cpu.attempts < 2 ∧ s.cpu.vec.strip = none)
      ∧ v.current = some 0x00143106101F ∧ v.cpu.vec.prot = true ∧ 0x00143106101F % 64 = 0x1F ∧ v.cpu.isVc = true
      ∧ s.residueOk 0x00150513 1 0 none = true ∧ s.residueOk 0x00150513 3 0 none = false
      ∧ v.cpu.vec.mirrored 0 16 = true ∧ v.cpu.vec.mirrored 0 1 = false ∧ v.cpu.elemOk 0x00143106101F 0 false true = true ∧ v.cpu.elemOk 0x00143106101F 2 false true = false
      ∧ decode 0x00150513 = .ok (.base (.immOp .add 10 10 1) .w32)
      ∧ decode 0x00143106101F = .ok (.row (.vfma ⟨0, false, 0, false, 0, 5, 3, 4, 6⟩)) := by
  refine ⟨by decide, by decide, by decide, by decide, by decide, by decide, by decide, by decide, by decide, by decide, by decide,
    by decide, by rfl, by rfl⟩
theorem witness_EngineAndIntegrityEvents_ecc :
    plainMem State.reset 0x1234 ∧ State.reset.cpu.isVc = true ∧ scState.cpu.isVc = false
      ∧ ({ L2.reset with tags := [⟨0x24, none, 0, false⟩] } : L2).tagOf (0x1234 / 128) ≠ none ∧ L2.reset.tagOf 0 = none
      ∧ 5 ∈ bufSectors [.store 320 [1] 2 false] ∧ 6 ∉ bufSectors [.store 320 [1] 2 false]
      ∧ ({ State.reset with cpu := { State.reset.cpu with act := none, run := .idle } } : State).current = none :=
  ⟨Or.inl (by decide), by decide, by decide, by decide, by decide, by decide, by decide, by decide⟩
/-- A command that consumes the bytes it carries and one that moves them; a codec command whose data was corrected, and its poster. -/
theorem witness_EngineAndIntegrityEvents_corrected :
    let oldest (s : State) (ctx : Nat) := s.cmds.find? fun c => c.hart == 0 && c.ctx == ctx && c.state != .finished
    let done : Cmd := { matchCmd with state := .started, corrected := true }
    oldest (cmdState matchCmd) 3 = some matchCmd ∧ oldest (cmdState fillCmd) 1 = some fillCmd ∧ transforms fillCmd.words = false
      ∧ oldest (cmdState fillCmd) 3 = none ∧ (cmdState done).firstOfContext 0 3 = some done ∧ done.job = none
      ∧ done.corrected = true ∧ ((cmdState done).getHart 0).task.map (·.id) = done.task := by decide +kernel
/-- CORR of an RMATCH reaches the core that posted it when it publishes. -/
theorem test_corrected_publish :
    let s := nextOr State.reset (exec (.eccCorrected (.command 0 3 5)) (cmdState { matchCmd with state := .started }))
    (nextOr s (exec (.commandPublish 0 3) s)).cpu.chkAll = 8 := by decide +kernel
theorem test_residue_mismatch :
    let s := State.reset.withFetchWord 32 0x00150513
    let t := nextOr State.reset (exec (.residueMismatch 1 0 none) s)
    t.cpu.attempts = 1 ∧ t.cpu.chkint = 4
      ∧ (nextOr State.reset (exec (.residueMismatch 1 0 none) { s with cpu := { s.cpu with attempts := 2 } })).cpu.csr.mcause = 48
      ∧ (nextOr State.reset (exec (.residueMismatch 3 0 none) s)).cpu.attempts = 0 := by
  decide
theorem writes_fit (ws : Writes) (s : State) (cl : Nat) (satp : Word)
    (h : ∀ w ∈ ws, ∀ q ∈ engCut w.1 w.2.length, regionOf q.1.toNat = .lpddr)
    (hp : (ws.parts BitVec.toNat).Pairwise fun p q => p.1 + p.2 ≤ q.1 ∨ q.1 + q.2 ≤ p.1) :
    ws.fit s (engOf cl satp .m) BitVec.toNat :=
  ⟨fun w hw => eng_holds_here s cl satp true w.1 _ (h w hw), hp⟩
/-- The FILL writes its 64 bytes where nothing else is, and reads nothing; a REPLAY of a command that missed its one sector. -/
theorem witness_EngineAndIntegrityEvents_copies :
    (copyWrites State.reset.mem BitVec.toNat fillCmd.words fun _ => true).fit (cmdState fillCmd) fillCmd.eng BitVec.toNat
      ∧ copyReads (cmdState fillCmd) fillCmd BitVec.toNat (fun _ => true)
      ∧ (copyWrites State.reset.mem BitVec.toNat fillCmd.words (missed [(0, 0)])).length = 1 := by
  refine ⟨writes_fit _ _ 0 0 (by decide +kernel) (by decide +kernel), ?_, by decide +kernel⟩
  intro p hp q hq
  have h : ∀ p ∈ ((copySectors (copyUnits fillCmd.words)).filter fun _ => true).flatMap Prod.snd,
      pieceSource fillCmd.words (copyUnits fillCmd.words) p = none := by decide +kernel
  rw [h p hp] at hq
  cases hq
/-- A REPLAY that hart 16, a server, has posted after its PARTIAL copy. -/
theorem witness_EngineAndIntegrityEvents_replay :
    let o : Cmd := { fillCmd with hart := 1, state := .partly, misses := [(0, 0)] }
    let c : Cmd := { fillCmd with hart := 16, words := 3 + 256 }
    let s : State := { scState with cmds := [o, c], cpu := { scState.cpu with srvrole := 1 } }
    s.nextCopy 0 0 0 = some c ∧ s.isServer 16 = true ∧ s.partialOf (c.words / 2 ^ 32 % 2 ^ 32) = some o ∧ s.poison = []
      ∧ o.lost = [] ∧ o.poisoned = false ∧ o.missBad = false ∧ c.lost = []
      ∧ ({ s with cmds := [{ o with missBad := true }, c] } : State).partialOf (c.words / 2 ^ 32 % 2 ^ 32) = some { o with missBad := true }
      ∧ (s.cmds.find? fun c => c.hart == 1 && c.ctx == 1 && c.state != .finished) = some o ∧ o.state = .partly := by decide +kernel
/-- A REPLAY of a poisoned miss list is defective (R363). -/
theorem test_replay_of_poisoned_misses :
    let o : Cmd := { fillCmd with hart := 1, state := .partly, misses := [(0, 0)], missBad := true }
    let c : Cmd := { fillCmd with hart := 16, words := 3 + 256 }
    let s : State := { scState with cmds := [o, c], cpu := { scState.cpu with srvrole := 1 } }
    (nextOr s (exec (.replay 0 0 0) s)).cmds.map (fun c => (c.state, c.status)) = [(.partly, 0), (.finished, 3)] := by decide +kernel
/-- The codec's input is at 0, its output too; a finished FILL whose completion record goes to 0x9000. -/
theorem witness_EngineAndIntegrityEvents_runs :
    (cmdState matchCmd).firstOfContext 0 3 = some matchCmd ∧ (cmdState matchCmd).codecFirst matchCmd = true
      ∧ ckOp matchCmd.words = 5 ∧ ckHc matchCmd.words = false
      ∧ engHolds (cmdState matchCmd) matchCmd.eng false (ckIn matchCmd.words) (ckInLen matchCmd.words) BitVec.toNat
      ∧ crecOf (fillCmd.words + 2 ^ 112 * 0x9000) = some 0x9000
      ∧ Writes.fit [(0x9000, recordBytes fillCmd.seq fillCmd.words 0 0 0)] (cmdState fillCmd) fillCmd.eng BitVec.toNat :=
  ⟨by decide +kernel, by decide +kernel, by decide +kernel, by decide +kernel, eng_holds_here _ 0 0 false _ _ (by decide +kernel), by decide,
    writes_fit _ _ 0 0 (by decide +kernel) (by decide +kernel)⟩
theorem test_fill_and_publish :
    let t := nextOr State.reset (exec (.fill 0 0 0) (cmdState fillCmd))
    memBytes t.mem 0x803F 2 = [0, 0] ∧ memByte t.mem 0x8038 = 0x5A
      ∧ (nextOr State.reset (exec (.commandPublish 0 1) t)).cpu.done.getD 1 0 = 1 := by decide +kernel

/-- FIPS 202: SHAKE256 of the empty message. -/
theorem test_shake256 : shake256 [] 8 = [0x46, 0xB9, 0xDD, 0x2B, 0x0B, 0xA8, 0x8D, 0x13] := by decide +kernel

/-! ### Witnesses: the machine as a whole -/

/-- A fetch in M-mode of the `addi` that stands at the pc. -/
theorem witness_StepRunsTheDecodedInstruction :
    let s := State.reset.withFetchWord 32 0x00150513
    s.due = none ∧ s.agenda = [] ∧ s.power.stopped = false ∧ s.cpu.runs = true ∧ s.cpu.trap = none ∧ s.inChain = false
      ∧ s.fetch = .bits 0x00150513 false (asked s [0])
      ∧ decode 0x00150513 = .ok (.base (.immOp .add 10 10 1) .w32) ∧ s.cpu.la = []
      ∧ s.cpu.mode = .m ∧ s.cpu.pc.toNat + 8 ≤ 0x4000000000 ∧ s.poisonedAt s.cpu.pc.toNat 8 = false
      ∧ parcelLen (memRead s.mem s.cpu.pc.toNat 2) = some 4 :=
  ⟨by decide, rfl, by decide, by decide, by decide, by decide, by rfl, by rfl, rfl, rfl, by decide, by decide, by decide⟩
theorem witness_StepRunsTheDecodedInstruction_row_and_error :
    decode 0x1E00030B = .ok (.row (.tnow 6)) ∧ opensWindow (.tnow 6) = 0 ∧ decode 0 = .error (.reservedParcel 0)
      ∧ (State.reset.withFetchWord 32 0x1E00030B).fetch = .bits 0x1E00030B false (asked (State.reset.withFetchWord 32 0x1E00030B) [0])
      ∧ State.reset.fetch = .bits 0 false (asked State.reset [0]) :=
  ⟨by rfl, by decide, by rfl, by rfl, by rfl⟩
/-- Branches that are taken and not, and a register that is poisoned. -/
theorem witness_StepRunsTheDecodedInstruction_base :
    branchTaken .ltu 1 2 ∧ ¬branchTaken .lt 1 (-1) ∧ (State.reset.cpu.poisonX 5 true).xPoisoned 5 = true
      ∧ State.reset.cpu.xPoisoned 5 = false :=
  ⟨by show (1 : Word).toNat < (2 : Word).toNat; decide, by show ¬(1 : Word).toInt < (-1 : Word).toInt; decide, by decide, by decide⟩
/-- −7 / 2 is −3; `mulhu` of all ones by 2 is 1; x0 stays zero; a taken branch jumps. -/
theorem test_base_results :
    let s := setX1 (setX1 State.reset 6 (-7)) 7 2
    (nextOr s (execBase (.regOp .div 5 6 7) .w32 0 s)).cpu.xr 5 = -3
      ∧ (nextOr s (execBase (.regOp .mulhu 5 6 7) .w32 0 s)).cpu.xr 5 = 1
      ∧ (nextOr s (execBase (.regOp .add 0 6 7) .w32 0 s)).cpu.xr 0 = 0
      ∧ (nextOr s (execBase (.branch .lt 6 7 8) .w32 0 s)).cpu.pc = s.cpu.pc + 8 := by decide
theorem test_step_addi :
    (nextOr State.reset (step (State.reset.withFetchWord 32 0x00150513))).cpu.xr 10 = 1
      ∧ (nextOr State.reset (step (State.reset.withFetchWord 16 0x0505))).cpu.pc = State.reset.cpu.pc + 2
      ∧ (nextOr State.reset (step State.reset)).cpu.csr.mcause = 2 := by decide

theorem witness_DecodeOfEncode :
    (Instr.tnow 6).wf = true ∧ encode (.tnow 6) = some (4, 0x1E00030B)
      ∧ (Instr.vfma (fields 6 4 3 5)).wf = true ∧ encode (.vfma (fields 6 4 3 5)) = some (6, 0x00143106101F) := by decide
theorem witness_EncodeOfDecode : decode 0x1273028B = .ok (.row (.jspawnn 5 6 7)) := by rfl
theorem witness_EveryStepKeepsMemoryCanonical :
    Memory.wf (State.reset.withFetchWord 32 0x00150513).mem = true ∧ isNext (step (State.reset.withFetchWord 32 0x00150513)) = true := by
  decide
/-- A full queue all of which has been popped. -/
theorem witness_EveryStepKeepsMemoryCanonical_banks :
    let s := State.reset.setBank 0 3 { Bank.reset with mode := 3, level := 0x40000, popped := 0x40000 }
    (s.bank 0 3).level ≤ 0x40000 ∧ (s.bank 0 3).popped ≤ (s.bank 0 3).level ∧ (State.reset.bank 0 4).popped ≤ (State.reset.bank 0 4).level
      ∧ (bufSectors State.reset.cpu.buf).length ≤ 512 := by decide

/-! ### Witnesses: further forms and clauses -/

/-- A core in S-mode under Sv48 with root page 0x80; PTEs at the addresses given. -/
def walkState (ptes : List (Nat × Nat)) : State :=
  { State.reset with
    mem := ptes.foldl (fun m p => memSetBytes m p.1 (bytesOf 8 p.2)) []
    cpu := { State.reset.cpu with
      mode := .s, csr := { State.reset.cpu.csr with satp := 0x9000000000000080 } } }
/-- The walk of 0x1234: pointers to pages 0x81, 0x82 and 0x83 and a leaf for page 0x1234's frame 0x99, readable, writable, A set. -/
def walkTo (leaf : Nat) : State := walkState [(0x80000, 0x81 * 1024 + 1), (0x81000, 0x82 * 1024 + 1), (0x82000, 0x83 * 1024 + 1), (0x83008, leaf)]
theorem witness_FencesAndTranslations_walk :
    let s := walkTo (0x99 * 1024 + 0x47)
    (s.cpu.ctx .load).mode ≠ .m ∧ (s.cpu.ctx .load).satp.toNat / 2 ^ 60 = 9
      ∧ (((0x1234 : Word).truncate 48 : BitVec 48).signExtend 64 = 0x1234) ∧ s.cpu.tlb = [] ∧ tabGet [] s.l2tlb s.cpu.cluster = []
      ∧ (∃ a, WalkReads s.mem 0x1234 0x80 0 a ∧ a < 0x4000000000 ∧ leafPage (memRead s.mem a 8) 0 = some 4096)
      ∧ pageAdmits (0x47 % 256) (s.cpu.ctx .load) .load ∧ ¬pageAdmits (0x47 % 256) (s.cpu.ctx .store) .store := by
  refine ⟨by decide, by decide, by decide, rfl, rfl, ⟨_, .next 0 _ (.next 1 _ (.next 2 _ .root ?_ ?_) ?_ ?_) ?_ ?_, ?_, ?_⟩, ?_, ?_⟩
  all_goals first | decide +kernel | (unfold pointerPte; decide +kernel) | (unfold pageAdmits; decide +kernel)
/-- A table outside LPDDR6, a PTE that is neither pointer nor leaf, an address that is not canonical, and a held translation. -/
theorem witness_FencesAndTranslations_faults :
    let far := { walkState [] with cpu := { (walkState []).cpu with csr := { State.reset.cpu.csr with satp := 0x9000000004000000 } } }
    let e : TlbEntry := ⟨0, false, 0x1000, 4096, 0x99000, 0x47, false, false, none, false⟩
    (∃ a, WalkReads far.mem 0x1234 0x4000000 3 a ∧ 0x4000000000 ≤ a)
      ∧ leafPage 0 3 = none ∧ ¬pointerPte 0 ∧ leafPage 5 0 = none ∧ leafPage (2 ^ 63 + 8 * 1024 + 3) 0 = some 0x10000
      ∧ leafPage (2 ^ 63 + 2 ^ 20 * 1024 + 3) 2 = some 0x200000000 ∧ leafPage 3 3 = none ∧ leafPage (512 * 1024 + 3) 1 = some 0x200000
      ∧ ((0x8000000000000000 : Word).truncate 48 : BitVec 48).signExtend 64 ≠ (0x8000000000000000 : Word)
      ∧ (e.asid = 0 ∧ e.base ≤ 0x1234 ∧ 0x1234 < e.base + e.size) ∧ State.reset.cpu.mode = .m := by
  refine ⟨⟨_, .root, by decide⟩, by decide, ?_, ?_⟩
  · unfold pointerPte; decide
  · decide +kernel
/-- The walk gives frame 0x99; a store to the page, whose D is clear, and a load of page 0 fault. -/
theorem test_walk :
    let s := walkTo (0x99 * 1024 + 0x47)
    (match xlat s .load 0x1234 with | .ok (x, u) => x.pa == 0x99234 && x.pageSize == 4096 && u.cpu.tlb.length == 1 | _ => false) = true
      ∧ (match xlat s .store 0x1234 with | .error f => f.cause == 15 | _ => false) = true
      ∧ (match xlat s .load 0x234 with | .error f => f.cause == 13 | _ => false) = true := by decide +kernel
theorem witness_HandlerWaitStartAndReturn_poison :
    (State.reset.cpu.csrMark 0x304 true).csrBad 0x304 = true ∧ State.reset.cpu.csrBad 0x344 = false ∧ State.reset.cpu.csrBad 0x300 = false
      ∧ State.reset.cpu.csrGateBad 0x180 = false := by decide
/-- Accesses that are refused: a hole, MMIO from U-mode, of one byte and misaligned, a bank in CACHE mode, a store to a FIFO bank, the
last bytes of a bank, and both ports down; and one that its region admits. -/
theorem witness_refused :
    let fifo := State.reset.setBank 0 3 { Bank.reset with mode := 3 }
    refused State.reset true .load 0x4000000000 8 .m 5 ∧ refused State.reset true .load 0x20001000000 4 .u 5
      ∧ refused State.reset true .store 0x20001000000 1 .m 7 ∧ refused State.reset true .load 0x20001000002 4 .m 4
      ∧ refused State.reset false .load 0x20001000000 4 .m 5 ∧ refused State.reset true .load (bankAddr 0 2 0) 4 .m 5
      ∧ refused fifo true .store (bankAddr 0 3 8) 8 .m 7 ∧ refused fifo true .load (bankAddr 0 3 9) 8 .m 4
      ∧ refused State.reset true .load hostBase 8 .m 50 ∧ refused State.reset false .store twinBase 4 .m 7 := by
  refine ⟨rfl, .inr ⟨by decide, rfl, by decide⟩, .inr ⟨by decide, rfl, by decide⟩, .inl ⟨by decide, rfl⟩, .inr ⟨by decide, rfl, by decide⟩,
    ⟨by decide, .inl ⟨by decide, rfl⟩⟩, ⟨by decide, .inl ⟨by decide, rfl⟩⟩, ⟨by decide, .inr ⟨by decide, rfl, by decide⟩⟩,
    .inr ⟨by decide, by decide, rfl⟩, .inr ⟨by decide, by decide, rfl⟩⟩
/-- A page that ends four bytes after 0x1FFC, a bank in a mode change, a device register and TWDOOR, and windows whose ports are up. -/
theorem witness_LoadReadsMemory_elsewhere :
    let e : TlbEntry := ⟨0, false, 0x1000, 4096, 0x99000, 0x47, false, false, none, false⟩
    let s : State := { inMode State.reset .s with cpu := { (inMode State.reset .s).cpu with
      csr := { State.reset.cpu.csr with satp := 0x9000000000000000 }, tlb := [e] } }
    let up := withPorts fun p => { p with hostUp := true, twinUp := true, hostRefuses := [1] }
    (match xlat s .load 0x1FFC with
      | .ok (x, _) => decide (x.pageBase + x.pageSize < (0x1FFC : Word).toNat + 8) && x.pa == 0x99FFC | _ => false) = true
      ∧ (match xlat s .load 0x3000 with | .error _ => true | _ => false) = true
      ∧ ((State.reset.setBank 0 3 { Bank.reset with busy := some 1 }).bank 0 3).busy ≠ none
      ∧ State.reset.loadVerdict true (mmioBase + clBlock 0) 8 .m = .ok
      ∧ (State.reset.mmioView.mmioLoad (clBlock 0) 8).isSome = true
      ∧ mmioReg (twinBlock + 0x100000) = some (.twdoor 0) ∧ State.reset.loadVerdict true (mmioBase + twinBlock + 0x100000) 8 .u = .ok
      ∧ up.loadVerdict true hostBase 8 .m = .ok ∧ up.hostAborts 0 = false ∧ up.hostAborts 4096 = true
      ∧ up.loadVerdict true twinBase 4 .m = .ok := by decide +kernel
theorem witness_StoreWritesItsBytes_elsewhere :
    let up := withPorts fun p => { p with hostUp := true, twinUp := true, credits := 0 }
    scState.storeVerdict true (mmioBase + clBlock 0) 8 .m = .ok ∧ scState.mmioReady (clBlock 0) = true
      ∧ scState.roleBad (mmioBase + clBlock 0) .m = false ∧ up.mmioReady (twinBlock + 0x100000) = false
      ∧ up.storeVerdict true hostBase 8 .m = .ok ∧ up.storeVerdict true twinBase 8 .m = .ok := by decide +kernel
/-- An element in the host's memory, one in a FIFO bank, and one in MMIO, which the region refuses. -/
theorem witness_VectorLoadsReadTheirElements_elsewhere :
    let up := withPorts fun p => { p with hostUp := true }
    let fifo := loadState.setBank 0 3 { Bank.reset with mode := 3 }
    loadable up (hostBase + 8) ∧ loadable fifo (bankAddr 0 3 8) ∧ storable up (hostBase + 8)
      ∧ refused loadState false .load mmioBase 4 (loadState.cpu.ctx .load).mode 5
      ∧ refused fifo false .store (bankAddr 0 3 8) 4 (loadState.cpu.ctx .store).mode 7
      ∧ held loadState .load (BitVec.ofNat 64 mmioBase) (identity (BitVec.ofNat 64 mmioBase)) :=
  ⟨.inr (.inr ⟨8, by decide, rfl, by decide⟩), .inr (.inl ⟨0, 3, 8, by decide, by decide, by decide⟩), .inr (.inr (.inl ⟨8, by decide, rfl⟩)),
    .inr ⟨by decide, rfl, by decide⟩, ⟨by decide, .inl ⟨by decide, rfl⟩⟩, held_here (by decide) rfl⟩
theorem test_vld_fault :
    let t := nextOr State.reset (exec (.vld (fields 9 6 0 0)) (setX1 loadState 6 (BitVec.ofNat 64 (mmioBase - 4))))
    t.cpu.csr.mcause = 5 ∧ t.cpu.csr.mtval = BitVec.ofNat 64 (mmioBase - 4) ∧ t.cpu.vec.elem 9 0 = 0 := by decide +kernel
/-- The vadd into the window computes through the shared driver, with these operands. -/
theorem witness_WindowDestinationsFillLatchWords_vadd :
    let o : VOp := ⟨0, true, 0, false, 0, 0, 7, 6, 1⟩
    ∃ f : VecFn, (∀ s, exec (.vadd o) s = instr (.vadd o) (f.exec o) s) ∧ instrLen (.vadd o) = 6
      ∧ f.fits o windowState.cpu.vec = true ∧ (f.idx windowState.cpu.vec).Nodup ∧ f.idx windowState.cpu.vec = [0, 1]
      ∧ f.srcs = [.group 6, .group 7] :=
  ⟨_, fun _ => rfl, by decide, by decide, by decide, by decide, rfl⟩
theorem witness_VectorFloatElements_forms :
    (∃ s f, floatElem (.vfma (fields 9 4 5 6)) (fields 9 4 5 6) s f) ∧ (∃ s f, floatElem (.vfdiv (fields 9 4 5 0)) (fields 9 4 5 0) s f)
      ∧ (∃ s f, floatElem (.vfsqrt (fields 9 4 0 0)) (fields 9 4 0 0) s f) ∧ (∃ s f, floatElem (.vfcvtif (fields 9 4 0 0)) (fields 9 4 0 0) s f)
      ∧ (∃ s f, floatElem (.vfcvtfi (fields 9 4 0 0)) (fields 9 4 0 0) s f) ∧ (∃ s f, floatElem (.vfclass (fields 9 4 0 0)) (fields 9 4 0 0) s f) := by
  refine ⟨?_, ?_, ?_, ?_, ?_, ?_⟩ <;> (apply Exists.intro; apply Exists.intro; repeat first | exact ⟨rfl, rfl, rfl⟩ | exact Or.inl ⟨rfl, rfl, rfl⟩ | apply Or.inr)
theorem witness_VectorComplexElements_forms :
    (∃ s f, complexElem (.vcmac (fields 9 4 5 0)) (fields 9 4 5 0) s f) ∧ (∃ s f, complexElem (.vcelim (fields 9 4 5 6)) (fields 9 4 5 6) s f)
      ∧ (∃ s f, complexElem (.vcnorm (fields 9 4 0 0)) (fields 9 4 0 0) s f) ∧ (∃ s f, complexElem (.vcrcp (fields 9 4 0 0)) (fields 9 4 0 0) s f) := by
  refine ⟨?_, ?_, ?_, ?_⟩ <;> (apply Exists.intro; apply Exists.intro; repeat first | exact ⟨rfl, rfl, rfl⟩ | exact Or.inl ⟨rfl, rfl, rfl⟩ | apply Or.inr)
theorem witness_VectorIntegerElements_forms :
    (∃ f, intElem (.vmv (fields 9 6 0 0)) (fields 9 6 0 0) [.group 6] f) ∧ (∃ f, intElem (.vsra (fields 9 6 7 0)) (fields 9 6 7 0) [.group 6, .group 7] f)
      ∧ ∃ f, intElem (.vsadd (fields 9 6 7 0)) (fields 9 6 7 0) [.group 6, .group 7] f := by
  refine ⟨⟨_, Or.inr (Or.inl ⟨rfl, rfl, rfl⟩)⟩, ?_, ?_⟩ <;>
    (apply Exists.intro; refine Or.inr (Or.inr ⟨rfl, ?_⟩); repeat first | exact ⟨rfl, rfl⟩ | exact Or.inl ⟨rfl, rfl⟩ | apply Or.inr)
theorem witness_PermutesMoveElements_forms :
    let p (i : Instr) (o : VOp) (srcs : List Opnd) := ∃ is src, permuteElem i o fourState.cpu 1 srcs is src
    p (.vrotl (fields 9 6 0 1)) (fields 9 6 0 1) [.group 6] ∧ p (.vgather (fields 9 6 7 0)) (fields 9 6 7 0) [.group 6, .group 7]
      ∧ p (.vzip (fields 9 6 7 0)) (fields 9 6 7 0) [.group 6, .group 7] ∧ p (.vunzip (fields 9 6 7 0)) (fields 9 6 7 0) [.group 6, .group 7]
      ∧ p (.vcompress (fields 9 6 0 0)) (fields 9 6 0 0) [.group 6]
      ∧ ∃ is, permuteElem (.vbrev (fields 9 6 0 0)) (fields 9 6 0 0) fourState.cpu 1 [.group 6] is fun j => (6, j % 2) := by
  refine ⟨⟨_, _, .inr (.inr (.inl ⟨rfl, rfl, rfl, rfl⟩))⟩, ⟨_, _, .inr (.inr (.inr (.inl ⟨rfl, rfl, rfl, rfl, rfl⟩)))⟩,
    ⟨_, _, .inr (.inr (.inr (.inr (.inl ⟨rfl, rfl, rfl, rfl, rfl⟩))))⟩, ⟨_, _, .inr (.inr (.inr (.inr (.inr (.inl ⟨rfl, rfl, rfl, rfl, rfl⟩)))))⟩,
    ⟨_, _, .inr (.inr (.inr (.inr (.inr (.inr (.inr ⟨rfl, rfl, rfl, rfl⟩))))))⟩, ⟨_, .inr (.inr (.inr (.inr (.inr (.inr (.inl ⟨rfl, rfl, rfl, ?_⟩))))))⟩⟩
  decide
/-- A record pending for slot 3, 64 of them, and a pending record of a lost page. -/
theorem witness_HostAndTwinEvents_pending :
    let s := hostState
    let a : Accept := ⟨0, 3, s.slotAddr 0 3, s.admitRecord 0 (hostRecord 0), false, false, false, none⟩
    let t := { s with ports := { s.ports with accepting := [a] } }
    t.ports.accepting = a :: [] ∧ a.page = 0 ∧ a.slot = 3 ∧ 64 ≤ (List.replicate 64 a).length ∧ t.power.stopped = false ∧ a.record.length = 128
      ∧ a.pa % 128 = 0 ∧ regionOf a.pa = .lpddr ∧ t.dqAvail ≠ 0 ∧ a.defect = false ∧ rcbInvalid a.record = false
      ∧ t.tenantMismatch { jobOf (BitVec.ofNat 64 a.pa) a.pa a.record a.bad with keep := a.keep } = false
      ∧ ¬ (jobOf (BitVec.ofNat 64 a.pa) a.pa a.record a.bad).cliffValue ≤ t.dquNow
      ∧ { a with lostAt := some 7 }.lostAt = some 7 := by decide +kernel
theorem test_host_lost_page :
    let s := hostState
    let a : Accept := ⟨0, 3, s.slotAddr 0 3, s.admitRecord 0 (hostRecord 0), false, false, false, some 7⟩
    let t := ({ s with ports := { s.ports with accepting := [a] } } : State).takeRecord
    (t.job? s.dqu.nextJob).map (·.abandonAt) = some (some 7) ∧ t.dqu.queue = [] := by decide +kernel
/-- A more urgent ROW task waits while another holds row 0's reservation. -/
theorem witness_DeadlineQueueEvents_holder :
    let late : QTask := { rowTask with id := 4, seq := 1, slots := [0, 1, 2, 3] }
    let s : State := { rowState with
      dqu := { rowState.dqu with queue := [rowTask, late], reserved := [(0, some 4)] }
      cpu := { rowState.cpu with prefetch := [4] }
      parked := [1, 2, 3].map fun n => (n, some { rowState.getHart n with prefetch := [4] }) }
    let t := nextOr State.reset (exec (.prefetchRecall 0) s)
    s.recallables 0 = [late] ∧ s.task? 4 = some late ∧ (∀ m ∈ late.slots, (s.getHart m).free = false) ∧ s.reservedFor 4 = [0]
      ∧ (∀ l ∈ List.range 256, s.leaseValid l = false) ∧ tabGet none t.dqu.reserved 0 = some 3 := by decide +kernel
/-- A finished command whose fault record is held, a PARTIAL one that owes its record, and a defective one with a queue that is closed. -/
theorem witness_EngineAndIntegrityEvents_records :
    let c : Cmd := { fillCmd with state := .finished }
    let bad : Cmd := { fillCmd with words := 7 + 256 }
    let s := State.cmdRecord (cmdState c) c 13 0 false false
    let o := cmdState { fillCmd with state := .partly, owes := true }
    s.recordsHeld c = true ∧ (cmdState c).recordsHeld c = false ∧ c.status ≠ 2 ∧ s.firstOfContext 0 1 = some c
      ∧ (o.firstOfContext 0 1).map (fun d => (d.state, d.owes)) = some (.partly, true) ∧ o.recordsHeld fillCmd = false
      ∧ bad.defect = true ∧ bad.state = .queued ∧ (cmdState bad).recordsHeld bad = false ∧ (cmdState bad).efSpace 0 = false
      ∧ (withMmio (cmdState bad) [(efOff 0 1, 0x8000000000060000)]).efSpace 0 = true
      ∧ (tabGet [] (cmdState bad).held 0).length < 16 ∧ 16 ≤ (List.replicate 16 ([] : List Byte)).length
      ∧ (cmdState { fillCmd with state := .partly }).firstOfContext 0 1 = some { fillCmd with state := .partly } := by decide +kernel
/-- The fault record of a defective command is held first, then the command publishes once the queue has taken it. -/
theorem test_defect_publishes_behind_its_record :
    let bad : Cmd := { fillCmd with words := 7 + 256 }
    let s := nextOr State.reset (exec (.commandPublish 0 1) (cmdState bad))
    let t := nextOr State.reset (exec (.heldFaultRecordWrite 0) (withMmio s [(efOff 0 1, 0x8000000000060000)]))
    s.cmds.length = 1 ∧ (tabGet [] s.held 0).length = 1 ∧ (nextOr State.reset (exec (.commandPublish 0 1) s)).cmds.length = 1
      ∧ (nextOr State.reset (exec (.commandPublish 0 1) t)).cmds.length = 0 := by decide +kernel
theorem witness_DecodeOfEncode_base :
    (Base.branch .geu 5 6 (-8)).ok = true ∧ (Base.branch .geu 5 6 (-8)).encode = 0xFE62FCE3
      ∧ (Base.jal 1 0x800).encode = 0x001000EF ∧ (Base.immOp .sra 10 11 63).encode = 0x43F5D513 := by decide
theorem witness_EncodeOfDecode_base :
    decode 0x40B50533 = .ok (.base (.regOp .sub 10 10 11) .w32) ∧ decode 0x8D0D = .ok (.base (.regOp .sub 10 10 11) (.c16 0x8D0D)) := ⟨by rfl, by rfl⟩

/-! ### Well-formedness: an ill-formed term for each check -/

theorem test_wf_shape_a : (Instr.vfadd (fields 1 2 3 1)).wf = false := by decide
theorem test_wf_s_column : (Instr.vfsqrt ⟨0, false, 0, true, 0, 0, 0, 2, 1⟩).wf = false ∧ (Instr.kvl (fields 1 0 5 0)).wf = false := by decide
theorem test_wf_x_field : (Instr.vfadd ⟨0, false, 0, true, 0, 0, 32, 2, 1⟩).wf = false := by decide
theorem test_wf_shape_u_z : (Instr.vfabs (fields 1 2 1 0)).wf = false ∧ (Instr.vid (fields 1 1 0 0)).wf = false := by decide
theorem test_wf_shape_v : (Instr.vmv (fields 1 2 3 0)).wf = false ∧ (Instr.vmv ⟨0, false, 0, true, 0, 0, 3, 1, 1⟩).wf = false := by decide
theorem test_wf_shape_k : (Instr.vceq (fields 0 2 3 0)).wf = false ∧ (Instr.vceq (fields 8 2 3 0)).wf = false := by decide
theorem test_wf_shape_p : (Instr.vbfly (fields 1 2 3 4)).wf = false := by decide
theorem test_wf_shape_i_e_n : (Instr.vslideup (fields 1 2 3 0)).wf = false ∧ (Instr.vext (fields 32 2 0 0)).wf = false
    ∧ (Instr.vins (fields 1 32 0 0)).wf = false := by decide
theorem test_wf_shape_b : (Instr.vbscale (fields 1 2 0 0)).wf = false ∧ (Instr.vbscale (fields 1 2 9 0)).wf = false := by decide
theorem test_wf_shape_r_w : (Instr.vracc (fields 1 4 0 0)).wf = false ∧ (Instr.vracc (fields 1 3 0 8)).wf = false
    ∧ (Instr.vwacc (fields 4 1 0 0)).wf = false ∧ (Instr.vzacc (fields 1 1 0 0)).wf = false := by decide
theorem test_wf_keys : (Instr.kand (fields 1 2 8 0)).wf = false ∧ (Instr.knot (fields 1 0 0 0)).wf = false
    ∧ (Instr.kpop (fields 5 1 1 0)).wf = false ∧ (Instr.kand ⟨0, false, 1, false, 0, 0, 3, 2, 1⟩).wf = false := by decide
theorem test_wf_loads : (Instr.vld (fields 1 32 0 0)).wf = false ∧ (Instr.vldx (fields 1 2 3 1)).wf = false
    ∧ (Instr.vldk (fields 8 2 0 0)).wf = false ∧ (Instr.vlds (fields 1 2 3 0)).wf = false
    ∧ (Instr.vamo (fields 1 2 3 9)).wf = false := by decide
theorem test_wf_format : (Instr.vld ⟨0, false, 0, false, 10, 0, 0, 2, 1⟩).wf = false
    ∧ (Instr.vfadd ⟨0, false, 0, false, 1, 0, 3, 2, 1⟩).wf = false := by decide
theorem test_wf_window : (Instr.vfadd ⟨0, true, 0, false, 0, 0, 3, 2, 8⟩).wf = false
    ∧ (Instr.vcmac ⟨0, true, 0, false, 0, 0, 3, 2, 1⟩).wf = false := by decide
theorem test_wf_scalar : (Instr.fpScalar (.add .s 1 2 3 5) .w32).wf = false ∧ (Instr.fpScalar (.cmp .d 3 1 2 3) .w32).wf = false
    ∧ (Instr.ebreak (.c16 3)).wf = false ∧ (Instr.lrSc .lr true false false 5 6 7).wf = false := by decide
theorem test_wf_base : (Base.immOp .add 1 2 0x800).ok = false ∧ (Base.immOp .sllw 1 2 32).ok = false
    ∧ (Base.regOp .zexth 1 2 3).ok = false ∧ (Base.jal 0 1).ok = false := by decide
theorem test_wf_events : (Instr.bmodeWrite 16 0 0).wf = false ∧ (Instr.modeChangeComplete 0 32).wf = false
    ∧ (Instr.tstepWrite 17 0).wf = false ∧ (Instr.mma 0 4).wf = false ∧ (Instr.fill 0 2 0).wf = false
    ∧ (Instr.prefetchFill 3328).wf = false ∧ (Instr.txLaunch 8 0).wf = false ∧ (Instr.efwakeWrite 16 0).wf = false
    ∧ (Instr.eccUncorrectable (.accElem 0 4 0)).wf = false := by decide

/-! ### Standard instructions without a row of their own -/

/-- RV64I, M, Zba, Zbb encodings from the RISC-V manual. -/
theorem test_decode_base :
    decode 0xFFF00293 = .ok (.base (.immOp .add 5 0 0xFFFFFFFFFFFFFFFF) .w32)
      ∧ decode 0x02628533 = .ok (.base (.regOp .mul 10 5 6) .w32) ∧ decode 0x20B52533 = .ok (.base (.regOp .sh1add 10 10 11) .w32)
      ∧ decode 0xFE000EE3 = .ok (.base (.branch .eq 0 0 0x1FFC) .w32) := ⟨by rfl, by rfl, by rfl, by rfl⟩

/-! ### A word of every encoding -/

/-- The row's match 0x0000000B (R154, R173) with a = 19, d = 7. -/
theorem test_decode_vconf : decodeTableWord 32 0x0009838B = some (.vconf 7 19) := by decide

/-- The row's match 0x0000100B (R154, R155) with i = 2501, d = 7. -/
theorem test_decode_vconfi : decodeTableWord 32 0x9C50138B = some (.vconfi 7 2501) := by decide

/-- The row's match 0x0200000B (R154, R52) with a = 19, d = 7. -/
theorem test_decode_vstrip : decodeTableWord 32 0x0209838B = some (.vstrip 7 19) := by decide

/-- The row's match 0x0000200B (R154, R155) with i = 2501, d = 7. -/
theorem test_decode_vstripi : decodeTableWord 32 0x9C50238B = some (.vstripi 7 2501) := by decide

/-- The row's match 0x0400000B (R154, R175) with no field. -/
theorem test_decode_vclose : decodeTableWord 32 0x0400000B = some (.vclose) := by decide

/-- The row's match 0x1000000B (R154, R43) with a = 19, d = 7. -/
theorem test_decode_jspawn : decodeTableWord 32 0x1009838B = some (.jspawn 7 19) := by decide

/-- The row's match 0x1200000B (R154, R43) with b = 26, a = 19, d = 7. -/
theorem test_decode_jspawnn : decodeTableWord 32 0x13A9838B = some (.jspawnn 7 19 26) := by decide

/-- The row's match 0x1400000B (R154, R46) with a = 19, d = 7. -/
theorem test_decode_jcont : decodeTableWord 32 0x1409838B = some (.jcont 7 19) := by decide

/-- The row's match 0x1600000B (R154, R50) with no field. -/
theorem test_decode_tend : decodeTableWord 32 0x1600000B = some (.tend) := by decide

/-- The row's match 0x1800000B (R154, R50) with a = 19. -/
theorem test_decode_tendr : decodeTableWord 32 0x1809800B = some (.tendr 19) := by decide

/-- The row's match 0x1A00000B (R154, R176) with no field. -/
theorem test_decode_jabandon : decodeTableWord 32 0x1A00000B = some (.jabandon) := by decide

/-- The row's match 0x1C00000B (R154, R176) with no field. -/
theorem test_decode_jdefer : decodeTableWord 32 0x1C00000B = some (.jdefer) := by decide

/-- The row's match 0x1E00000B (R154, R177) with d = 7. -/
theorem test_decode_tnow : decodeTableWord 32 0x1E00038B = some (.tnow 7) := by decide

/-- The row's match 0x2000000B (R154, R179) with a = 19, d = 7. -/
theorem test_decode_cpost : decodeTableWord 32 0x2009838B = some (.cpost 7 19) := by decide

/-- The row's match 0x2200000B (R154, R180) with a = 19, d = 7. -/
theorem test_decode_tlread : decodeTableWord 32 0x2209838B = some (.tlread 7 19) := by decide

/-- The row's match 0x2400000B (R154, R180) with b = 26, a = 19. -/
theorem test_decode_tlwait : decodeTableWord 32 0x25A9800B = some (.tlwait 19 26) := by decide

/-- The row's match 0x2600000B (R154, R180) with b = 26, a = 19, d = 7. -/
theorem test_decode_tlpoll : decodeTableWord 32 0x27A9838B = some (.tlpoll 7 19 26) := by decide

/-- The row's match 0x0000002B (R154, R181) with u = 1, b = 26, a = 19, d = 7. -/
theorem test_decode_mgangVreg : decodeTableWord 32 0x03A983AB = some (.mgangVreg 7 19 58) := by decide

/-- The row's match 0x0000102B (R154, R181) with c = 29, b = 26, a = 19, d = 7. -/
theorem test_decode_mgangCsram : decodeTableWord 32 0xE9A993AB = some (.mgangCsram 7 19 26 29) := by decide

/-- The row's match 0x0000202B (R154, R181) with a = 19, d = 7. -/
theorem test_decode_mgangNoOperand : decodeTableWord 32 0x0009A3AB = some (.mgangNoOperand 7 19) := by decide

/-- The row's match 0x3000000B (R154, R182) with a = 19. -/
theorem test_decode_wdrive : decodeTableWord 32 0x3009800B = some (.wdrive 19) := by decide

/-- The row's match 0x4000000B (R154, R183) with a = 19, d = 7. -/
theorem test_decode_tagwany : decodeTableWord 32 0x4009838B = some (.tagwany 7 19) := by decide

/-- The row's match 0x4200000B (R154, R183) with a = 19, d = 7. -/
theorem test_decode_tagwall : decodeTableWord 32 0x4209838B = some (.tagwall 7 19) := by decide

/-- The row's match 0x4400000B (R154, R183) with a = 19, d = 7. -/
theorem test_decode_tagffr : decodeTableWord 32 0x4409838B = some (.tagffr 7 19) := by decide

/-- The row's match 0x4600000B (R154, R183) with a = 19. -/
theorem test_decode_tagclr : decodeTableWord 32 0x4609800B = some (.tagclr 19) := by decide

/-- The row's match 0x5000000B (R154, R184) with u = 1, q = 5, a = 19, v = 11. -/
theorem test_decode_sbind : decodeTableWord 32 0x5259858B = some (.sbind 5 43 19) := by decide

/-- The row's match 0x5400000B (R154, R185) with q = 5. -/
theorem test_decode_sunbind : decodeTableWord 32 0x5450000B = some (.sunbind 5) := by decide

/-- The row's match 0x5600000B (R154, R185) with q = 5. -/
theorem test_decode_sflush : decodeTableWord 32 0x5650000B = some (.sflush 5) := by decide

/-- The row's match 0x5800000B (R154, R186) with q = 5, d = 7. -/
theorem test_decode_sstat : decodeTableWord 32 0x5850038B = some (.sstat 7 5) := by decide

/-- The row's match 0x5A00000B (R154, R185) with q = 5, a = 19. -/
theorem test_decode_sskip : decodeTableWord 32 0x5A59800B = some (.sskip 5 19) := by decide

/-- The row's match 0x6000000B (R154, R187) with a = 19, d = 7. -/
theorem test_decode_llw : decodeTableWord 32 0x6009838B = some (.llw 7 19) := by decide

/-- The row's match 0x6200000B (R154, R187) with a = 19, d = 7. -/
theorem test_decode_lld : decodeTableWord 32 0x6209838B = some (.lld 7 19) := by decide

/-- The row's match 0x6400000B (R154, R187) with a = 19, d = 7. -/
theorem test_decode_llpw : decodeTableWord 32 0x6409838B = some (.llpw 7 19) := by decide

/-- The row's match 0x6600000B (R154, R187) with a = 19, d = 7. -/
theorem test_decode_llpd : decodeTableWord 32 0x6609838B = some (.llpd 7 19) := by decide

/-- The row's match 0x6800000B (R154, R187) with b = 26, a = 19. -/
theorem test_decode_lsw : decodeTableWord 32 0x69A9800B = some (.lsw 26 19) := by decide

/-- The row's match 0x6A00000B (R154, R187) with b = 26, a = 19. -/
theorem test_decode_lsd : decodeTableWord 32 0x6BA9800B = some (.lsd 26 19) := by decide

/-- The row's match 0x6C00000B (R154, R187) with a = 19. -/
theorem test_decode_lclr : decodeTableWord 32 0x6C09800B = some (.lclr 19) := by decide

/-- The row's match 0x7000000B (R154, R114) with s = 2. -/
theorem test_decode_scfence : decodeTableWord 32 0x7020000B = some (.scfence 2) := by decide

/-- The row's match 0x7200000B (R154, R188) with d = 7. -/
theorem test_decode_chkerr : decodeTableWord 32 0x7200038B = some (.chkerr 7) := by decide

/-- The row's match 0x7400000B (R154, R189) with d = 7. -/
theorem test_decode_rnd : decodeTableWord 32 0x7400038B = some (.rnd 7) := by decide

/-- The row's match 0x8000000B (R154, R57) with no field. -/
theorem test_decode_hret : decodeTableWord 32 0x8000000B = some (.hret) := by decide

/-- The row's match 0x8200000B (R154, R57) with no field. -/
theorem test_decode_hwait : decodeTableWord 32 0x8200000B = some (.hwait) := by decide

/-- The row's match 0x8400000B (R154, R191) with b = 26, a = 19, d = 7. -/
theorem test_decode_msend : decodeTableWord 32 0x85A9838B = some (.msend 7 19 26) := by decide

/-- The row's match 0x8600000B (R154, R193) with a = 19, d = 7. -/
theorem test_decode_mpoll : decodeTableWord 32 0x8609838B = some (.mpoll 7 19) := by decide

/-- The row's match 0xF000000B (R154, R194) with a = 19. -/
theorem test_decode_ovfld : decodeTableWord 32 0xF009800B = some (.ovfld 19) := by decide

/-- The row's match 0xF200000B (R154, R194) with no field. -/
theorem test_decode_mcack : decodeTableWord 32 0xF200000B = some (.mcack) := by decide

/-- RISC-V unprivileged and privileged encodings (R16). -/
theorem test_decode_load : decodeTableWord 32 0xFF833283 = some (.load .ld 5 6 0xFF8 .w32) := by decide

/-- RISC-V unprivileged and privileged encodings (R16). -/
theorem test_decode_store : decodeTableWord 32 0x7E532223 = some (.store .sw 5 6 0x7E4 .w32) := by decide

/-- RISC-V unprivileged and privileged encodings (R16). -/
theorem test_decode_amo : decodeTableWord 32 0x047332AF = some (.amo .add true true false 5 6 7) := by decide

/-- RISC-V unprivileged and privileged encodings (R16). -/
theorem test_decode_lrSc : decodeTableWord 32 0x120322AF = some (.lrSc .lr false false true 5 6 0) := by decide

/-- RISC-V unprivileged and privileged encodings (R16). -/
theorem test_decode_fence : decodeTableWord 32 0x0C30000F = some (.fence 0 0xC 3 0 0) := by decide

/-- RISC-V unprivileged and privileged encodings (R16). -/
theorem test_decode_fenceI : decodeTableWord 32 0x0000100F = some (.fenceI 0 0 0) := by decide

/-- RISC-V unprivileged and privileged encodings (R16). -/
theorem test_decode_sfenceVma : decodeTableWord 32 0x12730073 = some (.sfenceVma 6 7) := by decide

/-- RISC-V unprivileged and privileged encodings (R16). -/
theorem test_decode_wfi : decodeTableWord 32 0x10500073 = some (.wfi) := by decide

/-- RISC-V unprivileged and privileged encodings (R16). -/
theorem test_decode_ecall : decodeTableWord 32 0x00000073 = some (.ecall) := by decide

/-- RISC-V unprivileged and privileged encodings (R16). -/
theorem test_decode_ebreak : decodeTableWord 32 0x00100073 = some (.ebreak .w32) := by decide

/-- RISC-V unprivileged and privileged encodings (R16). -/
theorem test_decode_sret : decodeTableWord 32 0x10200073 = some (.sret) := by decide

/-- RISC-V unprivileged and privileged encodings (R16). -/
theorem test_decode_mret : decodeTableWord 32 0x30200073 = some (.mret) := by decide

/-- RISC-V unprivileged and privileged encodings (R16). -/
theorem test_decode_csr : decodeTableWord 32 0x800312F3 = some (.csr .rw 5 (.reg 6) 0x800) := by decide

/-- RISC-V unprivileged and privileged encodings (R16). -/
theorem test_decode_fpScalar : decodeTableWord 32 0x027302D3 = some (.fpScalar (.add .d 5 6 7 0) .w32) := by decide

/-- R157, R159: CLASS 0, FUNCT 0, VD 12, VS1 20, VS2 34, VS3 0, KM 3, LA 9. -/
theorem test_decode_vfadd : decodeTableWord 48 0x9302250C001F = some (.vfadd ⟨9, false, 3, false, 0, 0, 34, 20, 12⟩) := by decide

/-- R157, R159: CLASS 0, FUNCT 1, VD 12, VS1 20, VS2 34, VS3 0, KM 3, LA 9. -/
theorem test_decode_vfsub : decodeTableWord 48 0x9302250C021F = some (.vfsub ⟨9, false, 3, false, 0, 0, 34, 20, 12⟩) := by decide

/-- R157, R159: CLASS 0, FUNCT 2, VD 12, VS1 20, VS2 34, VS3 0, KM 3, LA 9. -/
theorem test_decode_vfmul : decodeTableWord 48 0x9302250C041F = some (.vfmul ⟨9, false, 3, false, 0, 0, 34, 20, 12⟩) := by decide

/-- R157, R159: CLASS 0, FUNCT 3, VD 12, VS1 20, VS2 34, VS3 0, KM 3, LA 9. -/
theorem test_decode_vfmin : decodeTableWord 48 0x9302250C061F = some (.vfmin ⟨9, false, 3, false, 0, 0, 34, 20, 12⟩) := by decide

/-- R157, R159: CLASS 0, FUNCT 4, VD 12, VS1 20, VS2 34, VS3 0, KM 3, LA 9. -/
theorem test_decode_vfmax : decodeTableWord 48 0x9302250C081F = some (.vfmax ⟨9, false, 3, false, 0, 0, 34, 20, 12⟩) := by decide

/-- R157, R159: CLASS 0, FUNCT 5, VD 12, VS1 20, VS2 34, VS3 0, KM 3, LA 9. -/
theorem test_decode_vfdiv : decodeTableWord 48 0x9302250C0A1F = some (.vfdiv ⟨9, false, 3, false, 0, 0, 34, 20, 12⟩) := by decide

/-- R157, R159: CLASS 0, FUNCT 6, VD 12, VS1 20, VS2 34, VS3 0, KM 3, LA 9. -/
theorem test_decode_vfsgnj : decodeTableWord 48 0x9302250C0C1F = some (.vfsgnj ⟨9, false, 3, false, 0, 0, 34, 20, 12⟩) := by decide

/-- R157, R159: CLASS 0, FUNCT 8, VD 12, VS1 20, VS2 34, VS3 50, KM 3, LA 9. -/
theorem test_decode_vfma : decodeTableWord 48 0x93CA250C101F = some (.vfma ⟨9, false, 3, false, 0, 50, 34, 20, 12⟩) := by decide

/-- R157, R159: CLASS 0, FUNCT 9, VD 12, VS1 20, VS2 34, VS3 50, KM 3, LA 9. -/
theorem test_decode_vfms : decodeTableWord 48 0x93CA250C121F = some (.vfms ⟨9, false, 3, false, 0, 50, 34, 20, 12⟩) := by decide

/-- R157, R159: CLASS 0, FUNCT 10, VD 12, VS1 20, VS2 34, VS3 50, KM 3, LA 9. -/
theorem test_decode_vfnma : decodeTableWord 48 0x93CA250C141F = some (.vfnma ⟨9, false, 3, false, 0, 50, 34, 20, 12⟩) := by decide

/-- R157, R159: CLASS 0, FUNCT 11, VD 12, VS1 20, VS2 34, VS3 50, KM 3, LA 9. -/
theorem test_decode_vfnms : decodeTableWord 48 0x93CA250C161F = some (.vfnms ⟨9, false, 3, false, 0, 50, 34, 20, 12⟩) := by decide

/-- R157, R159: CLASS 0, FUNCT 16, VD 12, VS1 20, VS2 0, VS3 0, KM 3, LA 9. -/
theorem test_decode_vfsqrt : decodeTableWord 48 0x9300050C201F = some (.vfsqrt ⟨9, false, 3, false, 0, 0, 0, 20, 12⟩) := by decide

/-- R157, R159: CLASS 0, FUNCT 17, VD 12, VS1 20, VS2 0, VS3 0, KM 3, LA 9. -/
theorem test_decode_vfrcp : decodeTableWord 48 0x9300050C221F = some (.vfrcp ⟨9, false, 3, false, 0, 0, 0, 20, 12⟩) := by decide

/-- R157, R159: CLASS 0, FUNCT 18, VD 12, VS1 20, VS2 0, VS3 0, KM 3, LA 9. -/
theorem test_decode_vfrsqrt : decodeTableWord 48 0x9300050C241F = some (.vfrsqrt ⟨9, false, 3, false, 0, 0, 0, 20, 12⟩) := by decide

/-- R157, R159: CLASS 0, FUNCT 19, VD 12, VS1 20, VS2 0, VS3 0, KM 3, LA 9. -/
theorem test_decode_vfabs : decodeTableWord 48 0x9300050C261F = some (.vfabs ⟨9, false, 3, false, 0, 0, 0, 20, 12⟩) := by decide

/-- R157, R159: CLASS 0, FUNCT 20, VD 12, VS1 20, VS2 0, VS3 0, KM 3, LA 9. -/
theorem test_decode_vfneg : decodeTableWord 48 0x9300050C281F = some (.vfneg ⟨9, false, 3, false, 0, 0, 0, 20, 12⟩) := by decide

/-- R157, R159: CLASS 0, FUNCT 21, VD 12, VS1 20, VS2 0, VS3 0, KM 3, LA 9. -/
theorem test_decode_vfexp2 : decodeTableWord 48 0x9300050C2A1F = some (.vfexp2 ⟨9, false, 3, false, 0, 0, 0, 20, 12⟩) := by decide

/-- R157, R159: CLASS 0, FUNCT 22, VD 12, VS1 20, VS2 0, VS3 0, KM 3, LA 9. -/
theorem test_decode_vflog2 : decodeTableWord 48 0x9300050C2C1F = some (.vflog2 ⟨9, false, 3, false, 0, 0, 0, 20, 12⟩) := by decide

/-- R157, R159: CLASS 0, FUNCT 23, VD 12, VS1 20, VS2 0, VS3 0, KM 3, LA 9. -/
theorem test_decode_vfclass : decodeTableWord 48 0x9300050C2E1F = some (.vfclass ⟨9, false, 3, false, 0, 0, 0, 20, 12⟩) := by decide

/-- R157, R159: CLASS 0, FUNCT 24, VD 6, VS1 20, VS2 34, VS3 0, KM 3, LA 9. -/
theorem test_decode_vfceq : decodeTableWord 48 0x93022506301F = some (.vfceq ⟨9, false, 3, false, 0, 0, 34, 20, 6⟩) := by decide

/-- R157, R159: CLASS 0, FUNCT 25, VD 6, VS1 20, VS2 34, VS3 0, KM 3, LA 9. -/
theorem test_decode_vfclt : decodeTableWord 48 0x93022506321F = some (.vfclt ⟨9, false, 3, false, 0, 0, 34, 20, 6⟩) := by decide

/-- R157, R159: CLASS 0, FUNCT 26, VD 6, VS1 20, VS2 34, VS3 0, KM 3, LA 9. -/
theorem test_decode_vfcle : decodeTableWord 48 0x93022506341F = some (.vfcle ⟨9, false, 3, false, 0, 0, 34, 20, 6⟩) := by decide

/-- R157, R159: CLASS 1, FUNCT 0, VD 12, VS1 20, VS2 34, VS3 0, KM 3, LA 9. -/
theorem test_decode_vcadd : decodeTableWord 48 0x9302250C005F = some (.vcadd ⟨9, false, 3, false, 0, 0, 34, 20, 12⟩) := by decide

/-- R157, R159: CLASS 1, FUNCT 1, VD 12, VS1 20, VS2 34, VS3 0, KM 3, LA 9. -/
theorem test_decode_vcsub : decodeTableWord 48 0x9302250C025F = some (.vcsub ⟨9, false, 3, false, 0, 0, 34, 20, 12⟩) := by decide

/-- R157, R159: CLASS 1, FUNCT 2, VD 12, VS1 20, VS2 34, VS3 0, KM 3, LA 9. -/
theorem test_decode_vcmul : decodeTableWord 48 0x9302250C045F = some (.vcmul ⟨9, false, 3, false, 0, 0, 34, 20, 12⟩) := by decide

/-- R157, R159: CLASS 1, FUNCT 3, VD 12, VS1 20, VS2 34, VS3 0, KM 3, LA 9. -/
theorem test_decode_vcmulj : decodeTableWord 48 0x9302250C065F = some (.vcmulj ⟨9, false, 3, false, 0, 0, 34, 20, 12⟩) := by decide

/-- R157, R159: CLASS 1, FUNCT 4, VD 12, VS1 20, VS2 34, VS3 0, KM 3, LA 9. -/
theorem test_decode_vcmac : decodeTableWord 48 0x9302250C085F = some (.vcmac ⟨9, false, 3, false, 0, 0, 34, 20, 12⟩) := by decide

/-- R157, R159: CLASS 1, FUNCT 5, VD 12, VS1 20, VS2 34, VS3 0, KM 3, LA 9. -/
theorem test_decode_vcmacj : decodeTableWord 48 0x9302250C0A5F = some (.vcmacj ⟨9, false, 3, false, 0, 0, 34, 20, 12⟩) := by decide

/-- R157, R159: CLASS 1, FUNCT 6, VD 12, VS1 20, VS2 34, VS3 0, KM 3, LA 9. -/
theorem test_decode_vcmsc : decodeTableWord 48 0x9302250C0C5F = some (.vcmsc ⟨9, false, 3, false, 0, 0, 34, 20, 12⟩) := by decide

/-- R157, R159: CLASS 1, FUNCT 8, VD 12, VS1 20, VS2 34, VS3 50, KM 3, LA 9. -/
theorem test_decode_vcelim : decodeTableWord 48 0x93CA250C105F = some (.vcelim ⟨9, false, 3, false, 0, 50, 34, 20, 12⟩) := by decide

/-- R157, R159: CLASS 1, FUNCT 16, VD 12, VS1 20, VS2 0, VS3 0, KM 3, LA 9. -/
theorem test_decode_vcrcp : decodeTableWord 48 0x9300050C205F = some (.vcrcp ⟨9, false, 3, false, 0, 0, 0, 20, 12⟩) := by decide

/-- R157, R159: CLASS 1, FUNCT 17, VD 12, VS1 20, VS2 0, VS3 0, KM 3, LA 9. -/
theorem test_decode_vcnorm : decodeTableWord 48 0x9300050C225F = some (.vcnorm ⟨9, false, 3, false, 0, 0, 0, 20, 12⟩) := by decide

/-- R157, R159: CLASS 1, FUNCT 18, VD 12, VS1 20, VS2 0, VS3 0, KM 3, LA 9. -/
theorem test_decode_vcconj : decodeTableWord 48 0x9300050C245F = some (.vcconj ⟨9, false, 3, false, 0, 0, 0, 20, 12⟩) := by decide

/-- R157, R159: CLASS 1, FUNCT 19, VD 12, VS1 20, VS2 0, VS3 0, KM 3, LA 9. -/
theorem test_decode_vcrotj : decodeTableWord 48 0x9300050C265F = some (.vcrotj ⟨9, false, 3, false, 0, 0, 0, 20, 12⟩) := by decide

/-- R157, R159: CLASS 1, FUNCT 24, VD 12, VS1 20, VS2 34, VS3 50, KM 3, LA 9. -/
theorem test_decode_vbfly : decodeTableWord 48 0x93CA250C305F = some (.vbfly ⟨9, false, 3, false, 0, 50, 34, 20, 12⟩) := by decide

/-- R157, R159: CLASS 1, FUNCT 25, VD 12, VS1 20, VS2 34, VS3 50, KM 3, LA 9. -/
theorem test_decode_vbflyi : decodeTableWord 48 0x93CA250C325F = some (.vbflyi ⟨9, false, 3, false, 0, 50, 34, 20, 12⟩) := by decide

/-- R157, R159: CLASS 2, FUNCT 0, VD 12, VS1 20, VS2 34, VS3 0, KM 3, LA 9. -/
theorem test_decode_vadd : decodeTableWord 48 0x9302250C009F = some (.vadd ⟨9, false, 3, false, 0, 0, 34, 20, 12⟩) := by decide

/-- R157, R159: CLASS 2, FUNCT 1, VD 12, VS1 20, VS2 34, VS3 0, KM 3, LA 9. -/
theorem test_decode_vsub : decodeTableWord 48 0x9302250C029F = some (.vsub ⟨9, false, 3, false, 0, 0, 34, 20, 12⟩) := by decide

/-- R157, R159: CLASS 2, FUNCT 2, VD 12, VS1 20, VS2 34, VS3 0, KM 3, LA 9. -/
theorem test_decode_vmul : decodeTableWord 48 0x9302250C049F = some (.vmul ⟨9, false, 3, false, 0, 0, 34, 20, 12⟩) := by decide

/-- R157, R159: CLASS 2, FUNCT 3, VD 12, VS1 20, VS2 34, VS3 0, KM 3, LA 9. -/
theorem test_decode_vmulh : decodeTableWord 48 0x9302250C069F = some (.vmulh ⟨9, false, 3, false, 0, 0, 34, 20, 12⟩) := by decide

/-- R157, R159: CLASS 2, FUNCT 4, VD 12, VS1 20, VS2 34, VS3 0, KM 3, LA 9. -/
theorem test_decode_vand : decodeTableWord 48 0x9302250C089F = some (.vand ⟨9, false, 3, false, 0, 0, 34, 20, 12⟩) := by decide

/-- R157, R159: CLASS 2, FUNCT 5, VD 12, VS1 20, VS2 34, VS3 0, KM 3, LA 9. -/
theorem test_decode_vor : decodeTableWord 48 0x9302250C0A9F = some (.vor ⟨9, false, 3, false, 0, 0, 34, 20, 12⟩) := by decide

/-- R157, R159: CLASS 2, FUNCT 6, VD 12, VS1 20, VS2 34, VS3 0, KM 3, LA 9. -/
theorem test_decode_vxor : decodeTableWord 48 0x9302250C0C9F = some (.vxor ⟨9, false, 3, false, 0, 0, 34, 20, 12⟩) := by decide

/-- R157, R159: CLASS 2, FUNCT 7, VD 12, VS1 20, VS2 34, VS3 0, KM 3, LA 9. -/
theorem test_decode_vsll : decodeTableWord 48 0x9302250C0E9F = some (.vsll ⟨9, false, 3, false, 0, 0, 34, 20, 12⟩) := by decide

/-- R157, R159: CLASS 2, FUNCT 8, VD 12, VS1 20, VS2 34, VS3 0, KM 3, LA 9. -/
theorem test_decode_vsrl : decodeTableWord 48 0x9302250C109F = some (.vsrl ⟨9, false, 3, false, 0, 0, 34, 20, 12⟩) := by decide

/-- R157, R159: CLASS 2, FUNCT 9, VD 12, VS1 20, VS2 34, VS3 0, KM 3, LA 9. -/
theorem test_decode_vsra : decodeTableWord 48 0x9302250C129F = some (.vsra ⟨9, false, 3, false, 0, 0, 34, 20, 12⟩) := by decide

/-- R157, R159: CLASS 2, FUNCT 10, VD 12, VS1 20, VS2 34, VS3 0, KM 3, LA 9. -/
theorem test_decode_vmin : decodeTableWord 48 0x9302250C149F = some (.vmin ⟨9, false, 3, false, 0, 0, 34, 20, 12⟩) := by decide

/-- R157, R159: CLASS 2, FUNCT 11, VD 12, VS1 20, VS2 34, VS3 0, KM 3, LA 9. -/
theorem test_decode_vmax : decodeTableWord 48 0x9302250C169F = some (.vmax ⟨9, false, 3, false, 0, 0, 34, 20, 12⟩) := by decide

/-- R157, R159: CLASS 2, FUNCT 12, VD 12, VS1 20, VS2 34, VS3 0, KM 3, LA 9. -/
theorem test_decode_vminu : decodeTableWord 48 0x9302250C189F = some (.vminu ⟨9, false, 3, false, 0, 0, 34, 20, 12⟩) := by decide

/-- R157, R159: CLASS 2, FUNCT 13, VD 12, VS1 20, VS2 34, VS3 0, KM 3, LA 9. -/
theorem test_decode_vmaxu : decodeTableWord 48 0x9302250C1A9F = some (.vmaxu ⟨9, false, 3, false, 0, 0, 34, 20, 12⟩) := by decide

/-- R157, R159: CLASS 2, FUNCT 14, VD 12, VS1 20, VS2 34, VS3 0, KM 3, LA 9. -/
theorem test_decode_vsadd : decodeTableWord 48 0x9302250C1C9F = some (.vsadd ⟨9, false, 3, false, 0, 0, 34, 20, 12⟩) := by decide

/-- R157, R159: CLASS 2, FUNCT 16, VD 6, VS1 20, VS2 34, VS3 0, KM 3, LA 9. -/
theorem test_decode_vceq : decodeTableWord 48 0x93022506209F = some (.vceq ⟨9, false, 3, false, 0, 0, 34, 20, 6⟩) := by decide

/-- R157, R159: CLASS 2, FUNCT 17, VD 6, VS1 20, VS2 34, VS3 0, KM 3, LA 9. -/
theorem test_decode_vclt : decodeTableWord 48 0x93022506229F = some (.vclt ⟨9, false, 3, false, 0, 0, 34, 20, 6⟩) := by decide

/-- R157, R159: CLASS 2, FUNCT 18, VD 6, VS1 20, VS2 34, VS3 0, KM 3, LA 9. -/
theorem test_decode_vcltu : decodeTableWord 48 0x93022506249F = some (.vcltu ⟨9, false, 3, false, 0, 0, 34, 20, 6⟩) := by decide

/-- R157, R159: CLASS 2, FUNCT 24, VD 12, VS1 0, VS2 0, VS3 0, KM 3, LA 9. -/
theorem test_decode_vid : decodeTableWord 48 0x9300000C309F = some (.vid ⟨9, false, 3, false, 0, 0, 0, 0, 12⟩) := by decide

/-- R157, R159: CLASS 2, FUNCT 25, VD 12, VS1 20, VS2 0, VS3 0, KM 3, LA 9. -/
theorem test_decode_vmv : decodeTableWord 48 0x9300050C329F = some (.vmv ⟨9, false, 3, false, 0, 0, 0, 20, 12⟩) := by decide

/-- R157, R159: CLASS 3, FUNCT 0, VD 12, VS1 20, VS2 0, VS3 45, KM 3, LA 9. -/
theorem test_decode_vslideup : decodeTableWord 48 0x93B4050C00DF = some (.vslideup ⟨9, false, 3, false, 0, 45, 0, 20, 12⟩) := by decide

/-- R157, R159: CLASS 3, FUNCT 1, VD 12, VS1 20, VS2 0, VS3 45, KM 3, LA 9. -/
theorem test_decode_vslidedn : decodeTableWord 48 0x93B4050C02DF = some (.vslidedn ⟨9, false, 3, false, 0, 45, 0, 20, 12⟩) := by decide

/-- R157, R159: CLASS 3, FUNCT 2, VD 12, VS1 20, VS2 0, VS3 45, KM 3, LA 9. -/
theorem test_decode_vrotl : decodeTableWord 48 0x93B4050C04DF = some (.vrotl ⟨9, false, 3, false, 0, 45, 0, 20, 12⟩) := by decide

/-- R157, R159: CLASS 3, FUNCT 3, VD 12, VS1 20, VS2 34, VS3 0, KM 3, LA 9. -/
theorem test_decode_vgather : decodeTableWord 48 0x9302250C06DF = some (.vgather ⟨9, false, 3, false, 0, 0, 34, 20, 12⟩) := by decide

/-- R157, R159: CLASS 3, FUNCT 4, VD 12, VS1 20, VS2 34, VS3 0, KM 3, LA 9. -/
theorem test_decode_vzip : decodeTableWord 48 0x9302250C08DF = some (.vzip ⟨9, false, 3, false, 0, 0, 34, 20, 12⟩) := by decide

/-- R157, R159: CLASS 3, FUNCT 5, VD 12, VS1 20, VS2 34, VS3 0, KM 3, LA 9. -/
theorem test_decode_vunzip : decodeTableWord 48 0x9302250C0ADF = some (.vunzip ⟨9, false, 3, false, 0, 0, 34, 20, 12⟩) := by decide

/-- R157, R159: CLASS 3, FUNCT 6, VD 12, VS1 20, VS2 0, VS3 0, KM 3, LA 9. -/
theorem test_decode_vbrev : decodeTableWord 48 0x9300050C0CDF = some (.vbrev ⟨9, false, 3, false, 0, 0, 0, 20, 12⟩) := by decide

/-- R157, R159: CLASS 3, FUNCT 7, VD 12, VS1 20, VS2 0, VS3 0, KM 3, LA 9. -/
theorem test_decode_vcompress : decodeTableWord 48 0x9300050C0EDF = some (.vcompress ⟨9, false, 3, false, 0, 0, 0, 20, 12⟩) := by decide

/-- R157, R159: CLASS 3, FUNCT 16, VD 12, VS1 20, VS2 0, VS3 0, KM 3, LA 9. -/
theorem test_decode_vredsum : decodeTableWord 48 0x9300050C20DF = some (.vredsum ⟨9, false, 3, false, 0, 0, 0, 20, 12⟩) := by decide

/-- R157, R159: CLASS 3, FUNCT 17, VD 12, VS1 20, VS2 0, VS3 0, KM 3, LA 9. -/
theorem test_decode_vredmax : decodeTableWord 48 0x9300050C22DF = some (.vredmax ⟨9, false, 3, false, 0, 0, 0, 20, 12⟩) := by decide

/-- R157, R159: CLASS 3, FUNCT 18, VD 12, VS1 20, VS2 34, VS3 0, KM 3, LA 9. -/
theorem test_decode_vredbs : decodeTableWord 48 0x9302250C24DF = some (.vredbs ⟨9, false, 3, false, 0, 0, 34, 20, 12⟩) := by decide

/-- R157, R159: CLASS 3, FUNCT 19, VD 12, VS1 20, VS2 34, VS3 0, KM 3, LA 9. -/
theorem test_decode_vdot : decodeTableWord 48 0x9302250C26DF = some (.vdot ⟨9, false, 3, false, 0, 0, 34, 20, 12⟩) := by decide

/-- R157, R159: CLASS 3, FUNCT 24, VD 12, VS1 20, VS2 0, VS3 45, KM 3, LA 9. -/
theorem test_decode_vext : decodeTableWord 48 0x93B4050C30DF = some (.vext ⟨9, false, 3, false, 0, 45, 0, 20, 12⟩) := by decide

/-- R157, R159: CLASS 3, FUNCT 25, VD 12, VS1 20, VS2 0, VS3 45, KM 3, LA 9. -/
theorem test_decode_vins : decodeTableWord 48 0x93B4050C32DF = some (.vins ⟨9, false, 3, false, 0, 45, 0, 20, 12⟩) := by decide

/-- R157, R159: CLASS 6, FUNCT 0, VD 2, VS1 5, VS2 6, VS3 0, KM 0, LA 9. -/
theorem test_decode_kand : decodeTableWord 48 0x90006142019F = some (.kand ⟨9, false, 0, false, 0, 0, 6, 5, 2⟩) := by decide

/-- R157, R159: CLASS 6, FUNCT 1, VD 2, VS1 5, VS2 6, VS3 0, KM 0, LA 9. -/
theorem test_decode_kor : decodeTableWord 48 0x90006142039F = some (.kor ⟨9, false, 0, false, 0, 0, 6, 5, 2⟩) := by decide

/-- R157, R159: CLASS 6, FUNCT 2, VD 2, VS1 5, VS2 6, VS3 0, KM 0, LA 9. -/
theorem test_decode_kxor : decodeTableWord 48 0x90006142059F = some (.kxor ⟨9, false, 0, false, 0, 0, 6, 5, 2⟩) := by decide

/-- R157, R159: CLASS 6, FUNCT 3, VD 2, VS1 5, VS2 6, VS3 0, KM 0, LA 9. -/
theorem test_decode_kandn : decodeTableWord 48 0x90006142079F = some (.kandn ⟨9, false, 0, false, 0, 0, 6, 5, 2⟩) := by decide

/-- R157, R159: CLASS 6, FUNCT 4, VD 2, VS1 5, VS2 0, VS3 0, KM 0, LA 9. -/
theorem test_decode_knot : decodeTableWord 48 0x90000142099F = some (.knot ⟨9, false, 0, false, 0, 0, 0, 5, 2⟩) := by decide

/-- R157, R159: CLASS 6, FUNCT 5, VD 12, VS1 5, VS2 0, VS3 0, KM 0, LA 9. -/
theorem test_decode_kpop : decodeTableWord 48 0x9000014C0B9F = some (.kpop ⟨9, false, 0, false, 0, 0, 0, 5, 12⟩) := by decide

/-- R157, R159: CLASS 6, FUNCT 6, VD 12, VS1 5, VS2 0, VS3 0, KM 0, LA 9. -/
theorem test_decode_kffs : decodeTableWord 48 0x9000014C0D9F = some (.kffs ⟨9, false, 0, false, 0, 0, 0, 5, 12⟩) := by decide

/-- R157, R159: CLASS 6, FUNCT 71, VD 2, VS1 0, VS2 20, VS3 0, KM 0, LA 9. -/
theorem test_decode_kvl : decodeTableWord 48 0x900140028F9F = some (.kvl ⟨9, false, 0, true, 0, 0, 20, 0, 2⟩) := by decide

/-- R157, R159: CLASS 7, FUNCT 0, VD 12, VS1 20, VS2 0, VS3 0, KM 3, LA 9. -/
theorem test_decode_vfcvtif : decodeTableWord 48 0x9300050C01DF = some (.vfcvtif ⟨9, false, 3, false, 0, 0, 0, 20, 12⟩) := by decide

/-- R157, R159: CLASS 7, FUNCT 1, VD 12, VS1 20, VS2 0, VS3 0, KM 3, LA 9. -/
theorem test_decode_vfcvtfi : decodeTableWord 48 0x9300050C03DF = some (.vfcvtfi ⟨9, false, 3, false, 0, 0, 0, 20, 12⟩) := by decide

/-- R157, R159: CLASS 7, FUNCT 2, VD 12, VS1 20, VS2 34, VS3 0, KM 3, LA 9. -/
theorem test_decode_vpwl : decodeTableWord 48 0x9302250C05DF = some (.vpwl ⟨9, false, 3, false, 0, 0, 34, 20, 12⟩) := by decide

/-- R157, R159: CLASS 7, FUNCT 8, VD 12, VS1 20, VS2 7, VS3 50, KM 3, LA 9. -/
theorem test_decode_vbscale : decodeTableWord 48 0x93C8750C11DF = some (.vbscale ⟨9, false, 3, false, 0, 50, 7, 20, 12⟩) := by decide

/-- R157, R159: CLASS 7, FUNCT 16, VD 12, VS1 0, VS2 0, VS3 0, KM 3, LA 9. -/
theorem test_decode_vrnd : decodeTableWord 48 0x9300000C21DF = some (.vrnd ⟨9, false, 3, false, 0, 0, 0, 0, 12⟩) := by decide

/-- R157, R159: CLASS 7, FUNCT 24, VD 12, VS1 3, VS2 0, VS3 5, KM 0, LA 9. -/
theorem test_decode_vracc : decodeTableWord 48 0x901400CC31DF = some (.vracc ⟨9, false, 0, false, 0, 5, 0, 3, 12⟩) := by decide

/-- R157, R159: CLASS 7, FUNCT 25, VD 3, VS1 20, VS2 0, VS3 5, KM 0, LA 9. -/
theorem test_decode_vwacc : decodeTableWord 48 0x9014050333DF = some (.vwacc ⟨9, false, 0, false, 0, 5, 0, 20, 3⟩) := by decide

/-- R157, R159: CLASS 7, FUNCT 26, VD 3, VS1 0, VS2 0, VS3 0, KM 0, LA 9. -/
theorem test_decode_vzacc : decodeTableWord 48 0x9000000335DF = some (.vzacc ⟨9, false, 0, false, 0, 0, 0, 0, 3⟩) := by decide

/-- R157, R159: CLASS 4, FUNCT 6, VD 12, VS1 20, VS2 0, VS3 0, KM 3, LA 9. -/
theorem test_decode_vld : decodeTableWord 48 0x9300050C0D1F = some (.vld ⟨9, false, 3, false, 6, 0, 0, 20, 12⟩) := by decide

/-- R157, R159: CLASS 4, FUNCT 70, VD 12, VS1 20, VS2 9, VS3 0, KM 3, LA 9. -/
theorem test_decode_vlds : decodeTableWord 48 0x9300950C8D1F = some (.vlds ⟨9, false, 3, true, 6, 0, 9, 20, 12⟩) := by decide

/-- R157, R159: CLASS 4, FUNCT 22, VD 12, VS1 20, VS2 34, VS3 0, KM 3, LA 9. -/
theorem test_decode_vldx : decodeTableWord 48 0x9302250C2D1F = some (.vldx ⟨9, false, 3, false, 6, 0, 34, 20, 12⟩) := by decide

/-- R157, R159: CLASS 4, FUNCT 102, VD 12, VS1 20, VS2 9, VS3 50, KM 3, LA 9. -/
theorem test_decode_vldbs : decodeTableWord 48 0x93C8950CCD1F = some (.vldbs ⟨9, false, 3, true, 6, 50, 9, 20, 12⟩) := by decide

/-- R157, R159: CLASS 4, FUNCT 48, VD 5, VS1 20, VS2 0, VS3 0, KM 3, LA 9. -/
theorem test_decode_vldk : decodeTableWord 48 0x93000505611F = some (.vldk ⟨9, false, 3, false, 0, 0, 0, 20, 5⟩) := by decide

/-- R157, R159: CLASS 5, FUNCT 6, VD 12, VS1 20, VS2 0, VS3 0, KM 3, LA 9. -/
theorem test_decode_vst : decodeTableWord 48 0x9300050C0D5F = some (.vst ⟨9, false, 3, false, 6, 0, 0, 20, 12⟩) := by decide

/-- R157, R159: CLASS 5, FUNCT 70, VD 12, VS1 20, VS2 9, VS3 0, KM 3, LA 9. -/
theorem test_decode_vsts : decodeTableWord 48 0x9300950C8D5F = some (.vsts ⟨9, false, 3, true, 6, 0, 9, 20, 12⟩) := by decide

/-- R157, R159: CLASS 5, FUNCT 22, VD 12, VS1 20, VS2 34, VS3 0, KM 3, LA 9. -/
theorem test_decode_vstx : decodeTableWord 48 0x9302250C2D5F = some (.vstx ⟨9, false, 3, false, 6, 0, 34, 20, 12⟩) := by decide

/-- R157, R159: CLASS 5, FUNCT 102, VD 12, VS1 20, VS2 9, VS3 50, KM 3, LA 9. -/
theorem test_decode_vstbs : decodeTableWord 48 0x93C8950CCD5F = some (.vstbs ⟨9, false, 3, true, 6, 50, 9, 20, 12⟩) := by decide

/-- R157, R159: CLASS 5, FUNCT 48, VD 5, VS1 20, VS2 0, VS3 0, KM 3, LA 9. -/
theorem test_decode_vstk : decodeTableWord 48 0x93000505615F = some (.vstk ⟨9, false, 3, false, 0, 0, 0, 20, 5⟩) := by decide

/-- R157, R159: CLASS 5, FUNCT 32, VD 12, VS1 20, VS2 34, VS3 7, KM 3, LA 9. -/
theorem test_decode_vamo : decodeTableWord 48 0x931E250C415F = some (.vamo ⟨9, false, 3, false, 0, 7, 34, 20, 12⟩) := by decide

end Sys2Proof.Tests
end

section
namespace Sys2Proof.Machine

/-! The three invariants of a step, and the relation that every operation of the device keeps them by. -/

/-- Every bank's queue holds at most 0x40000 bytes, and no more of them are popped (R87). -/
def BanksFit (banks : Tab Bank) : Prop :=
  ∀ k, (tabGet Bank.reset banks k).level ≤ 0x40000 ∧ (tabGet Bank.reset banks k).popped ≤ (tabGet Bank.reset banks k).level

/-- The strip buffer of hart n as the table of waiting harts has it. -/
def bufAt (parked : Tab (Option Hart)) (n : Nat) : List BufEntry := ((tabGet none parked n).map Hart.buf).getD []

/-- A machine with these parts has what s has of the invariants, with the same hart to move, and no strip buffer of it holds
an entry that the buffer in s does not hold. -/
structure KeepsParts (s : State) (num : Nat) (buf : List BufEntry) (parked : Tab (Option Hart)) (mem : Memory)
    (banks : Tab Bank) : Prop where
  mem_wf : Memory.wf s.mem = true → Memory.wf mem = true
  banks_fit : BanksFit s.banks → BanksFit banks
  num_eq : num = s.cpu.num
  buf_sub : buf.Sublist s.cpu.buf
  parked_sub : ∀ n, n ≠ num → (bufAt parked n).Sublist (bufAt s.parked n)

/-- What an operation that adds nothing to a strip buffer makes of s. -/
def Keeps (s t : State) : Prop := KeepsParts s t.cpu.num t.cpu.buf t.parked t.mem t.banks

/-- The three invariants go over from s to t: the canonical form of memory, the limits of the queues and those of the strip
buffers. -/
structure Preserves (s t : State) : Prop where
  mem_wf : Memory.wf s.mem = true → Memory.wf t.mem = true
  banks_fit : BanksFit s.banks → BanksFit t.banks
  bufs_fit : (∀ n, (bufSectors (s.getHart n).buf).length ≤ 512) → ∀ n, (bufSectors (t.getHart n).buf).length ≤ 512

@[simp] theorem keepsParts_self {s t : State} : KeepsParts s t.cpu.num t.cpu.buf t.parked t.mem t.banks ↔ Keeps s t := Iff.rfl

@[simp] theorem keeps_mk {s : State} {cpu entry parked mem banks rows l2tlb mmio cmds order inflight held dqu counters beacons
    cycles l2 power unwene ports poison agenda round free} :
    Keeps s ⟨cpu, entry, parked, mem, banks, rows, l2tlb, mmio, cmds, order, inflight, held, dqu, counters, beacons, cycles, l2,
      power, unwene, ports, poison, agenda, round, free⟩ ↔ KeepsParts s cpu.num cpu.buf parked mem banks := Iff.rfl

@[simp] theorem Keeps.refl (s : State) : Keeps s s := ⟨id, id, rfl, .refl _, fun _ _ => .refl _⟩

theorem Keeps.trans {s t u : State} (h : Keeps s t) (k : Keeps t u) : Keeps s u :=
  ⟨k.mem_wf ∘ h.mem_wf, k.banks_fit ∘ h.banks_fit, k.num_eq.trans h.num_eq, k.buf_sub.trans h.buf_sub,
    fun n hn => (k.parked_sub n hn).trans (h.parked_sub n (k.num_eq ▸ hn))⟩

theorem Keeps.of_parts {s t : State} {num buf parked mem banks} (h : Keeps s t)
   (k : KeepsParts t num buf parked mem banks) : KeepsParts s num buf parked mem banks :=
  ⟨k.mem_wf ∘ h.mem_wf, k.banks_fit ∘ h.banks_fit, k.num_eq.trans h.num_eq, k.buf_sub.trans h.buf_sub,
    fun n hn => (k.parked_sub n hn).trans (h.parked_sub n (k.num_eq ▸ hn))⟩

@[simp] theorem keepsParts_setBytes {s : State} {num buf parked mem banks} {a : Nat} {l : List Byte}
    (h : KeepsParts s num buf parked mem banks) : KeepsParts s num buf parked (memSetBytes mem a l) banks :=
  ⟨fun hm => memSetBytes_wf _ _ _ (h.mem_wf hm), h.banks_fit, h.num_eq, h.buf_sub, h.parked_sub⟩

@[simp] theorem keepsParts_zero {s : State} {num buf parked mem banks} {lo hi : Nat}
    (h : KeepsParts s num buf parked mem banks) : KeepsParts s num buf parked (memZero mem lo hi) banks :=
  ⟨fun hm => memZero_wf _ _ _ (h.mem_wf hm), h.banks_fit, h.num_eq, h.buf_sub, h.parked_sub⟩

@[simp] theorem keeps_ite {s t u : State} {c : Prop} [Decidable c] :
    Keeps s (if c then t else u) ↔ (c → Keeps s t) ∧ (¬c → Keeps s u) := by
  split <;> simp [*]

@[simp] theorem keeps_foldl {α : Type} {s t : State} {f : State → α → State} {l : List α} (hf : ∀ t a, Keeps t (f t a))
    (h : Keeps s t) : Keeps s (l.foldl f t) := by
  induction l generalizing t with
  | nil => exact h
  | cons a r ih => exact ih (h.trans (hf t a))

@[simp] theorem keeps_foldr {α : Type} {s t : State} {f : α → State → State} {l : List α} (hf : ∀ t a, Keeps t (f a t))
    (h : Keeps s t) : Keeps s (l.foldr f t) := by
  induction l with
  | nil => exact h
  | cons a r ih => exact ih.trans (hf _ a)

theorem bufAt_insert (parked : Tab (Option Hart)) (k n : Nat) (h : Hart) :
    bufAt (tabInsert parked k (some h)) n = if n = k then h.buf else bufAt parked n := by
  unfold bufAt
  rw [tabGet_insert]
  split <;> rfl

theorem bufAt_erase (parked : Tab (Option Hart)) (k n : Nat) :
    bufAt (tabErase parked k) n = if n = k then [] else bufAt parked n := by
  unfold bufAt
  rw [tabGet_erase]
  split <;> rfl

theorem tabGet_map {α β : Type} (f : α → β) (d : α) (t : Tab α) (n : Nat) :
    tabGet (f d) (t.map fun p => (p.1, f p.2)) n = f (tabGet d t n) := by
  induction t with
  | nil => rfl
  | cons p r ih =>
    simp only [List.map_cons, tabGet]
    split
    · rfl
    · exact ih

theorem getHart_buf (s : State) (n : Nat) : (s.getHart n).buf = if n = s.cpu.num then s.cpu.buf else bufAt s.parked n := by
  unfold State.getHart bufAt
  split
  · rfl
  · cases tabGet none s.parked n <;> rfl

theorem keeps_setHart_of {s t : State} {h : Hart} (hk : Keeps s t) (hb : h.buf.Sublist (t.getHart h.num).buf) :
    Keeps s (t.setHart h) := by
  rw [getHart_buf] at hb
  unfold State.setHart
  split
  next e =>
    rw [if_pos e] at hb
    exact hk.of_parts ⟨id, id, e, hb, fun _ _ => .refl _⟩
  next e =>
    rw [if_neg e] at hb
    refine hk.of_parts ⟨id, id, rfl, .refl _, fun n _ => ?_⟩
    rw [bufAt_insert]
    split
    · simp_all
    · exact .refl _

@[simp] theorem keeps_modHart {s t : State} {n : Nat} {f : Hart → Hart} (hf : ∀ h, (f h).buf.Sublist h.buf) (h : Keeps s t) :
    Keeps s (t.modHart n f) := keeps_setHart_of h (hf _)

@[simp] theorem keeps_mapHarts {s t : State} {f : Hart → Hart} (hn : ∀ h, (f h).num = h.num)
    (hb : ∀ h, (f h).buf.Sublist h.buf) (h : Keeps s t) : Keeps s (t.mapHarts f) := by
  refine h.of_parts ⟨id, id, hn _, hb _, fun n _ => ?_⟩
  show (bufAt (t.parked.map fun p => (p.1, p.2.map f)) n).Sublist _
  have e := tabGet_map (Option.map f) none t.parked n
  rw [Option.map_none] at e
  unfold bufAt
  rw [e]
  cases tabGet none t.parked n with
  | none => exact .refl _
  | some g => exact hb g

theorem BanksFit.set {banks : Tab Bank} (h : BanksFit banks) {k : Nat} {b : Bank}
    (hb : b.level ≤ 0x40000 ∧ b.popped ≤ b.level) : BanksFit (tabSet Bank.reset banks k b) := by
  intro j
  rw [tabGet_set]
  split
  · exact hb
  · exact h j

/-- A bank whose queue keeps its limits replaces the old one. -/
@[simp] theorem keeps_setBank {s t : State} {c b : Nat} {k : Bank} (h : Keeps s t)
    (hk : (t.bank c b).level ≤ 0x40000 ∧ (t.bank c b).popped ≤ (t.bank c b).level → k.level ≤ 0x40000 ∧ k.popped ≤ k.level) :
    Keeps s (t.setBank c b k) :=
  h.of_parts ⟨id, fun hb => hb.set (hk (hb _)), rfl, .refl _, fun _ _ => .refl _⟩

@[simp] theorem keeps_setRow {s t : State} {c r : Nat} {w : Row} : Keeps s (t.setRow c r w) ↔ Keeps s t := Iff.rfl
@[simp] theorem keeps_setCounter {s t : State} {n : Nat} {c : Counter} : Keeps s (t.setCounter n c) ↔ Keeps s t := Iff.rfl
@[simp] theorem keeps_mmioSet {s t : State} {o : Nat} {r v : Word} : Keeps s (t.mmioSet o r v) ↔ Keeps s t := Iff.rfl
@[simp] theorem keeps_send {s t : State} {m : Msg} : Keeps s (t.send m) ↔ Keeps s t := Iff.rfl
@[simp] theorem keeps_forget {s t : State} {p} : Keeps s (t.forget p) ↔ Keeps s t := Iff.rfl

@[simp] theorem keeps_eats {s t : State} {p : Bool} : Keeps s (t.eats p) ↔ Keeps s t := by
  cases p <;> exact Iff.rfl

end Sys2Proof.Machine
end

section
namespace Sys2Proof.Machine

/-! What an update of a hart leaves of its number and of its strip buffer. -/

@[simp] theorem Hart.acquire_keeps (h : Hart) (p : ChkPend → Bool) :
    (Hart.acquire h p).num = h.num ∧ (Hart.acquire h p).buf = h.buf := ⟨rfl, rfl⟩

@[simp] theorem Hart.csrClean_keeps (h : Hart) (n : Nat) :
    (Hart.csrClean h n).num = h.num ∧ (Hart.csrClean h n).buf = h.buf := ⟨rfl, rfl⟩

@[simp] theorem Hart.csrSpoil_keeps (h : Hart) (n : Nat) (bad : Bool) :
    (Hart.csrSpoil h n bad).num = h.num ∧ (Hart.csrSpoil h n bad).buf = h.buf := by
  unfold Hart.csrSpoil
  split <;> exact ⟨rfl, rfl⟩

@[simp] theorem Hart.loseResv_keeps (h : Hart) (who : Option Nat) (pa : Nat) (n : Nat) :
    (Hart.loseResv h who pa n).num = h.num ∧ (Hart.loseResv h who pa n).buf = h.buf := by
  unfold Hart.loseResv
  split
  · split <;> exact ⟨rfl, rfl⟩
  · exact ⟨rfl, rfl⟩

@[simp] theorem Hart.pushEntry_keeps (h : Hart) (q : Nat) (e : QEntry) :
    (Hart.pushEntry h q e).num = h.num ∧ (Hart.pushEntry h q e).buf = h.buf := ⟨rfl, rfl⟩

@[simp] theorem Hart.startTask_keeps (h : Hart) (j : Job) (t : QTask) (budget : BitVec 32) (counts : Bool) (cycle : Nat) :
    (Hart.startTask h j t budget counts cycle).num = h.num ∧ (Hart.startTask h j t budget counts cycle).buf = [] := ⟨rfl, rfl⟩

@[simp] theorem Hart.countFell_keeps (id : Nat) (h : Hart) :
    (Hart.countFell id h).num = h.num ∧ (Hart.countFell id h).buf = h.buf := by
  unfold Hart.countFell
  split
  · split <;> exact ⟨rfl, rfl⟩
  · exact ⟨rfl, rfl⟩

@[simp] theorem Hart.gangEnded_keeps (n : Nat) (bad : Bool) (h : Hart) :
    (Hart.gangEnded n bad h).num = h.num ∧ (Hart.gangEnded n bad h).buf = h.buf := by
  unfold Hart.gangEnded
  split <;> exact ⟨rfl, rfl⟩

@[simp] theorem Hart.restore_keeps (h : Hart) (j : Journal) :
    (Hart.restore h j).num = h.num ∧ (Hart.restore h j).buf = [] := ⟨rfl, rfl⟩

@[simp] theorem Hart.entered_keeps (h : Hart) (interrupt : Bool) (code : Nat) (tval : Word) (epc : Word) :
    (Hart.entered h interrupt code tval epc).num = h.num ∧ (Hart.entered h interrupt code tval epc).buf = h.buf := by
  simp only [Hart.entered]
  (repeat' split) <;> exact ⟨rfl, rfl⟩

@[simp] theorem Hart.enterTrap_keeps (h : Hart) (interrupt : Bool) (code : Nat) (tval : Word) (epc : Word) :
    (Hart.enterTrap h interrupt code tval epc).num = h.num ∧ (Hart.enterTrap h interrupt code tval epc).buf = h.buf := by
  simp [Hart.enterTrap]

@[simp] theorem Hart.writeRecords_keeps (h : Hart) (cause : Nat) (elem : Nat) (bits : Nat) (i : McInfo) :
    (Hart.writeRecords h cause elem bits i).num = h.num ∧ (Hart.writeRecords h cause elem bits i).buf = h.buf := ⟨rfl, rfl⟩

@[simp] theorem Hart.leaveTrap_keeps (h : Hart) :
    (Hart.leaveTrap h).num = h.num ∧ (Hart.leaveTrap h).buf = h.buf := ⟨rfl, rfl⟩

@[simp] theorem Hart.returnTo_keeps (h : Hart) (pc : Word) :
    (Hart.returnTo h pc).num = h.num ∧ (Hart.returnTo h pc).buf = h.buf := ⟨rfl, rfl⟩

@[simp] theorem Hart.mret_keeps (h : Hart) :
    (Hart.mret h).num = h.num ∧ (Hart.mret h).buf = h.buf := ⟨rfl, rfl⟩

@[simp] theorem Hart.sret_keeps (h : Hart) :
    (Hart.sret h).num = h.num ∧ (Hart.sret h).buf = h.buf := ⟨rfl, rfl⟩

@[simp] theorem Hart.jumped_keeps (h : Hart) (pc : Word) :
    (Hart.jumped h pc).num = h.num ∧ (Hart.jumped h pc).buf = h.buf := ⟨rfl, rfl⟩

@[simp] theorem Hart.pass_keeps (h : Hart) (n : Nat) :
    (Hart.pass h n).num = h.num ∧ (Hart.pass h n).buf = h.buf := by
  simp only [Hart.pass]
  (repeat' split) <;> exact ⟨rfl, rfl⟩

@[simp] theorem Hart.chkClear_keeps (h : Hart) (b : BitVec 4) :
    (Hart.chkClear h b).num = h.num ∧ (Hart.chkClear h b).buf = h.buf := ⟨rfl, rfl⟩

@[simp] theorem Hart.clearTags_keeps (h : Hart) (m : Word) :
    (Hart.clearTags h m).num = h.num ∧ (Hart.clearTags h m).buf = h.buf := ⟨rfl, rfl⟩

@[simp] theorem Hart.clearDone_keeps (h : Hart) :
    (Hart.clearDone h).num = h.num ∧ (Hart.clearDone h).buf = h.buf := ⟨rfl, rfl⟩

@[simp] theorem Hart.setDone_keeps (h : Hart) (n : Nat) :
    (Hart.setDone h n).num = h.num ∧ (Hart.setDone h n).buf = h.buf := ⟨rfl, rfl⟩

@[simp] theorem Hart.setWinDone_keeps (h : Hart) (n : Nat) (nw : Word) (gen : Nat) :
    (Hart.setWinDone h n nw gen).num = h.num ∧ (Hart.setWinDone h n nw gen).buf = h.buf := ⟨rfl, rfl⟩

@[simp] theorem Hart.pastGroups_keeps (h : Hart) (n : Nat) :
    (Hart.pastGroups h n).num = h.num ∧ (Hart.pastGroups h n).buf = h.buf := by
  unfold Hart.pastGroups
  split <;> exact ⟨rfl, rfl⟩

@[simp] theorem Hart.matDone_keeps (h : Hart) (c : MatCmd) (r : MatResult) (seq : Nat) :
    (Hart.matDone h c r seq).num = h.num ∧ (Hart.matDone h c r seq).buf = h.buf := by
  simp only [Hart.matDone]
  (repeat' split) <;> exact ⟨rfl, rfl⟩

@[simp] theorem Hart.chainEnd_keeps (h : Hart) (x10 : Word) (wd : Word) :
    (Hart.chainEnd h x10 wd).num = h.num ∧ (Hart.chainEnd h x10 wd).buf = h.buf := ⟨rfl, rfl⟩

@[simp] theorem Hart.published_keeps (h : Hart) (c : Cmd) :
    (Hart.published h c).num = h.num ∧ (Hart.published h c).buf = h.buf := by
  unfold Hart.published
  (repeat' split) <;> exact ⟨rfl, rfl⟩

@[simp] theorem Hart.signalled_keeps (h : Hart) :
    (Hart.signalled h).num = h.num ∧ (Hart.signalled h).buf = h.buf := by
  unfold Hart.signalled
  split <;> exact ⟨rfl, rfl⟩

@[simp] theorem Hart.stopLater_keeps (h : Hart) :
    (Hart.stopLater h).num = h.num ∧ (Hart.stopLater h).buf = h.buf := by
  unfold Hart.stopLater
  split <;> exact ⟨rfl, rfl⟩

@[simp] theorem Hart.uncount_keeps (h : Hart) :
    (Hart.uncount h).num = h.num ∧ (Hart.uncount h).buf = h.buf := ⟨rfl, rfl⟩

end Sys2Proof.Machine
end

section
namespace Sys2Proof.Machine

/-! What each operation of the state keeps: the L2, the ports, the deadline queue unit, jobs and their ends. -/

@[simp] theorem keeps_l2Wait {s₀ s : State} {line : Nat} {dom : Option (BitVec 12)} {isWrite : Bool} (hk : Keeps s₀ s) :
    Keeps s₀ (State.l2Wait s line dom isWrite) := by
  simp [State.l2Wait, hk]

@[simp] theorem keeps_l2Touch {s₀ s : State} {line : Nat} {dom : Option (BitVec 12)} {dirty : Bool} (hk : Keeps s₀ s) :
    Keeps s₀ (State.l2Touch s line dom dirty) := by
  simp only [State.l2Touch]
  repeat' split
  all_goals simp [hk]

@[simp] theorem keeps_l2Ask {s₀ s : State} {pa n : Nat} {dom : Option (BitVec 12)} (hk : Keeps s₀ s) :
    Keeps s₀ (State.l2Ask s pa n dom) := by
  simp [State.l2Ask, hk]

@[simp] theorem keeps_l2Fill {s₀ s : State} {pa n : Nat} {dom : Option (BitVec 12)} (hk : Keeps s₀ s) :
    Keeps s₀ (State.l2Fill s pa n dom) := by
  simp [State.l2Fill, hk]

@[simp] theorem keeps_l2Wrote {s₀ s : State} {pa n : Nat} {dom : Option (BitVec 12)} (hk : Keeps s₀ s) :
    Keeps s₀ (State.l2Wrote s pa n dom) := by
  simp [State.l2Wrote, hk]

@[simp] theorem keeps_l2Stored {s₀ s : State} {pa n : Nat} (hk : Keeps s₀ s) :
    Keeps s₀ (State.l2Stored s pa n) := by
  simp [State.l2Stored, hk]

@[simp] theorem keeps_l2Timeout {s₀ s : State} {line : Nat} {isWrite : Bool} (hk : Keeps s₀ s) :
    Keeps s₀ (State.l2Timeout s line isWrite) := by
  unfold State.l2Timeout
  split <;> simp [hk]

@[simp] theorem keeps_missed {s₀ s : State} {l1 : List TlbEntry} {cl : Nat} {satp va : Word} (hk : Keeps s₀ s) :
    Keeps s₀ (State.missed s l1 cl satp va) := by
  simp [State.missed, hk]

@[simp] theorem keeps_fillL2Tlb {s₀ s : State} {cl : Nat} {satp va : Word} {e : TlbEntry} (hk : Keeps s₀ s) :
    Keeps s₀ (State.fillL2Tlb s cl satp va e) := by
  have hf (l : List Nat) (t : State) (h : Keeps s₀ t) : Keeps s₀ (l.foldl (fun t a => t.l2Fill a 2 none) t) :=
    keeps_foldl (fun _ _ => keeps_l2Fill (.refl _)) h
  exact hf _ _ hk

@[simp] theorem keeps_xlatMissed {s₀ s : State} {acc : Acc} {va : Word} (hk : Keeps s₀ s) :
    Keeps s₀ (State.xlatMissed s acc va) := by
  simp [State.xlatMissed, hk]

@[simp] theorem keeps_rawWrite {s₀ s : State} {who : Option Nat} {pa : Nat} {data : List Byte} {bad : Bool} (hk : Keeps s₀ s) :
    Keeps s₀ (State.rawWrite s who pa data bad) := by
  simp [State.rawWrite, hk]

@[simp] theorem keeps_visWriteIn {s₀ s : State} {who : Option Nat} {dom : Option (BitVec 12)} {pa : Nat} {data : List Byte} {bad : Bool}
    (hk : Keeps s₀ s) : Keeps s₀ (State.visWriteIn s who dom pa data bad) := by
  simp [State.visWriteIn, hk]

@[simp] theorem keeps_visWrite {s₀ s : State} {who : Option Nat} {pa : Nat} {data : List Byte} {bad : Bool} (hk : Keeps s₀ s) :
    Keeps s₀ (State.visWrite s who pa data bad) := by
  simp [State.visWrite, hk]

@[simp] theorem keeps_visWriteN {s₀ s : State} {who : Option Nat} {pa n v : Nat} (hk : Keeps s₀ s) :
    Keeps s₀ (State.visWriteN s who pa n v) := by
  simp [State.visWriteN, hk]

@[simp] theorem keeps_hostWrite {s₀ s : State} {a : Nat} {data : List Byte} (hk : Keeps s₀ s) :
    Keeps s₀ (State.hostWrite s a data) := by
  simp [State.hostWrite, hk]

@[simp] theorem keeps_hostAnswers {s₀ s : State} {page : Nat} {refuse : Bool} (hk : Keeps s₀ s) :
    Keeps s₀ (State.hostAnswers s page refuse) := by
  simp [State.hostAnswers, hk]

@[simp] theorem keeps_bumpSat {s₀ s : State} {off w : Nat} (hk : Keeps s₀ s) :
    Keeps s₀ (State.bumpSat s off w) := by
  simp [State.bumpSat, hk]

@[simp] theorem keeps_bumpWrap {s₀ s : State} {off n : Nat} (hk : Keeps s₀ s) :
    Keeps s₀ (State.bumpWrap s off n) := by
  simp [State.bumpWrap, hk]

@[simp] theorem keeps_sendCapped {s₀ s : State} {k : MsgKind} {cap c n q : Nat} {data : List Byte} (hk : Keeps s₀ s) :
    Keeps s₀ (State.sendCapped s k cap c n q data) := by
  simp [State.sendCapped, hk]

@[simp] theorem keeps_portEvent {s₀ s : State} {code unit : Nat} (hk : Keeps s₀ s) :
    Keeps s₀ (State.portEvent s code unit) := by
  unfold State.portEvent
  split <;> simp [hk]

@[simp] theorem keeps_dropMsg {s₀ s : State} {m : Msg} (hk : Keeps s₀ s) :
    Keeps s₀ (State.dropMsg s m) := by
  simp [State.dropMsg, hk]

@[simp] theorem keeps_ringWrite {s₀ s : State} {cl b o : Nat} {data : List Byte} {bad : Bool} (hk : Keeps s₀ s) :
    Keeps s₀ (State.ringWrite s cl b o data bad) := by
  simp [State.ringWrite, hk]

@[simp] theorem keeps_restartWaits {s₀ s : State} {p : Hart → WaitOn → Bool} (hk : Keeps s₀ s) :
    Keeps s₀ (State.restartWaits s p) := by
  refine keeps_mapHarts (fun h => ?_) (fun h => ?_) hk <;> (repeat' split) <;> simp

@[simp] theorem keeps_bankDrop {s₀ s : State} {cl b : Nat} (hk : Keeps s₀ s) :
    Keeps s₀ (State.bankDrop s cl b) := by
  simp [State.bankDrop, hk]

@[simp] theorem keeps_devWrite {s₀ s : State} {pa : Nat} {data : List Byte} {bad : Bool} (hk : Keeps s₀ s) :
    Keeps s₀ (State.devWrite s pa data bad) := by
  unfold State.devWrite
  split <;> simp [hk]

@[simp] theorem keeps_putJob {s₀ s : State} {id : Nat} {j : Job} (hk : Keeps s₀ s) :
    Keeps s₀ (State.putJob s id j) := by
  simp [State.putJob, hk]

@[simp] theorem keeps_modJob {s₀ s : State} {id : Nat} {f : Job → Job} (hk : Keeps s₀ s) :
    Keeps s₀ (State.modJob s id f) := by
  unfold State.modJob
  split <;> simp [hk]

@[simp] theorem keeps_setCont {s₀ s : State} {id : Nat} {c : Option Desc} {bytes : List Byte} {bad : Bool} (hk : Keeps s₀ s) :
    Keeps s₀ (State.setCont s id c bytes bad) := by
  unfold State.setCont
  split <;> simp [hk]

@[simp] theorem keeps_emptyCont {s₀ s : State} {id : Nat} (hk : Keeps s₀ s) :
    Keeps s₀ (State.emptyCont s id) := by
  simp [State.emptyCont, hk]

@[simp] theorem keeps_enqueue {s₀ s : State} {job tidx : Nat} {d : Desc} {seq : Nat} (hk : Keeps s₀ s) :
    Keeps s₀ (State.enqueue s job tidx d seq) := by
  simp [State.enqueue, hk]

@[simp] theorem keeps_nextSeq {s₀ s : State}  (hk : Keeps s₀ s) :
    Keeps s₀ (State.nextSeq s) := by
  simp [State.nextSeq, hk]

/-- The choice among leases keeps the invariants. -/
theorem keeps_drr {s u : State} {ts : List QTask} {q : QTask} (h : s.drr ts = some (q, u)) : Keeps s u := by
  simp only [State.drr] at h
  split at h
  · simp only [Option.map_eq_some_iff, Prod.mk.injEq] at h
    obtain ⟨_, _, _, rfl⟩ := h
    exact .refl s
  · split at h
    · cases h
    · simp only [Option.map_eq_some_iff, Prod.mk.injEq] at h
      obtain ⟨_, _, _, rfl⟩ := h
      exact .refl s

theorem keeps_choose {s u : State} {n : Nat} {ok : QTask → Bool} {q : QTask} (h : s.choose n ok = some (q, u)) :
    Keeps s u := by
  simp only [State.choose] at h
  repeat' split at h
  · cases h; exact .refl s
  · cases h; exact .refl s
  · cases h; exact keeps_drr ‹_›
  · simp only [Option.map_eq_some_iff, Prod.mk.injEq] at h
    obtain ⟨_, _, _, rfl⟩ := h
    exact .refl s

@[simp] theorem keeps_putTask {s₀ s : State} {t : QTask} (hk : Keeps s₀ s) :
    Keeps s₀ (State.putTask s t) := by
  simp [State.putTask, hk]

@[simp] theorem keeps_recall {s₀ s : State} {id : Nat} (hk : Keeps s₀ s) :
    Keeps s₀ (State.recall s id) := by
  unfold State.recall
  split
  · exact hk
  · exact keeps_putTask (keeps_foldl (fun _ _ => by simp) hk)

@[simp] theorem keeps_recallAll {s₀ s : State} {ts : List QTask} (hk : Keeps s₀ s) :
    Keeps s₀ (State.recallAll s ts) := by
  simp [State.recallAll, hk]

@[simp] theorem keeps_place {s₀ s : State} {id : Nat} {ns : List Nat} (hk : Keeps s₀ s) :
    Keeps s₀ (State.place s id ns) := by
  unfold State.place
  split
  · exact hk
  · exact keeps_putTask (keeps_foldl (fun _ _ => by simp) hk)

@[simp] theorem keeps_dropTask {s₀ s : State} {id : Nat} (hk : Keeps s₀ s) :
    Keeps s₀ (State.dropTask s id) := by
  simp [State.dropTask, hk]

@[simp] theorem keeps_trimDeficits {s₀ s : State}  (hk : Keeps s₀ s) :
    Keeps s₀ (State.trimDeficits s) := by
  simp [State.trimDeficits, hk]

@[simp] theorem keeps_reserve {s₀ s : State} {k : Nat} {t : QTask} (hk : Keeps s₀ s) :
    Keeps s₀ (State.reserve s k t) := by
  simp [State.reserve, hk]

@[simp] theorem keeps_reserveNext {s₀ s : State} {k : Nat} (hk : Keeps s₀ s) :
    Keeps s₀ (State.reserveNext s k) := by
  unfold State.reserveNext
  split <;> simp [hk]

@[simp] theorem keeps_sendBack {s₀ s : State} {id : Nat} (hk : Keeps s₀ s) :
    Keeps s₀ (State.sendBack s id) := by
  simp [State.sendBack, hk]

@[simp] theorem keeps_sendBackAll {s₀ s : State} {ts : List QTask} (hk : Keeps s₀ s) :
    Keeps s₀ (State.sendBackAll s ts) := by
  simp [State.sendBackAll, hk]

@[simp] theorem keeps_passOn {s₀ s : State} {b : QTask} {k : Nat} (hk : Keeps s₀ s) :
    Keeps s₀ (State.passOn s b k) := by
  unfold State.passOn
  split <;> simp [hk]

@[simp] theorem keeps_startOn {s₀ s : State} {t : QTask} {j : Job} {n : Nat} (hk : Keeps s₀ s) :
    Keeps s₀ (State.startOn s t j n) := by
  simp [State.startOn, hk]

@[simp] theorem keeps_startNext {s₀ s : State} {n : Nat} (hk : Keeps s₀ s) :
    Keeps s₀ (State.startNext s n) := by
  simp only [State.startNext]
  repeat' split
  any_goals exact hk
  · exact keeps_trimDeficits (keeps_reserveNext (keeps_foldl (fun _ _ => by simp) (keeps_dropTask hk)))
  · exact keeps_trimDeficits (keeps_startOn (keeps_dropTask hk))

@[simp] theorem keeps_beginReclaim {s₀ s : State} {k id : Nat} (hk : Keeps s₀ s) :
    Keeps s₀ (State.beginReclaim s k id) := by
  simp [State.beginReclaim, hk]

@[simp] theorem keeps_reclaimRow {s₀ s : State} {k : Nat} (hk : Keeps s₀ s) :
    Keeps s₀ (State.reclaimRow s k) := by
  unfold State.reclaimRow
  split <;> simp [hk]

@[simp] theorem keeps_reclaims {s₀ s : State}  (hk : Keeps s₀ s) :
    Keeps s₀ (State.reclaims s) := by
  simp [State.reclaims, hk]

@[simp] theorem keeps_recallOne {s₀ s : State} {t : QTask} (hk : Keeps s₀ s) :
    Keeps s₀ (State.recallOne s t) :=
  keeps_foldl (fun _ _ => by simp) (keeps_sendBack (keeps_foldl (fun _ _ => by simp) hk))

@[simp] theorem keeps_prefetchFill {s₀ s : State} {n : Nat} (hk : Keeps s₀ s) :
    Keeps s₀ (State.prefetchFill s n) := by
  have hr : Keeps s₀ ((s.reclaims.recallables n).foldl State.recallOne s.reclaims) :=
    keeps_foldl (fun _ _ => by simp) (keeps_reclaims hk)
  simp only [State.prefetchFill]
  repeat' split
  · exact keeps_startNext hr
  · exact keeps_startNext hr
  all_goals have hc := hr.trans (keeps_choose ‹_›)
  · exact keeps_startNext (keeps_place (keeps_reserve hc))
  · exact keeps_reserve hc
  · exact keeps_startNext (keeps_place hc)

@[simp] theorem keeps_charge {s₀ s : State} {d field : Nat} {rcb : Word} (hk : Keeps s₀ s) :
    Keeps s₀ (State.charge s d field rcb) := by
  simp [State.charge, hk]

@[simp] theorem keeps_ringRecord {s₀ s : State} {h : Nat} {record : List Byte} (hk : Keeps s₀ s) :
    Keeps s₀ (State.ringRecord s h record) := by
  simp [State.ringRecord, hk]

@[simp] theorem keeps_sendCompletion {s₀ s : State} {j : Job} {doneTime : Nat} (hk : Keeps s₀ s) :
    Keeps s₀ (State.sendCompletion s j doneTime) := by
  simp only [State.sendCompletion]
  repeat' split
  all_goals simp [hk]

@[simp] theorem keeps_completeJob {s₀ s : State} {id : Nat} {j : Job} {doneTime : Nat} (hk : Keeps s₀ s) :
    Keeps s₀ (State.completeJob s id j doneTime) := by
  unfold State.completeJob
  split <;> simp [hk]

@[simp] theorem keeps_finalize {s₀ s : State} {id : Nat} {st : BitVec 8} {doneTime : Nat} (hk : Keeps s₀ s) :
    Keeps s₀ (State.finalize s id st doneTime) := by
  unfold State.finalize
  split
  · exact hk
  · exact keeps_completeJob (keeps_devWrite (keeps_devWrite (keeps_putJob hk)))

@[simp] theorem keeps_settle {s₀ s : State} {fuel id : Nat} (hk : Keeps s₀ s) : Keeps s₀ (State.settle fuel s id) := by
  induction fuel generalizing s id with
  | zero => exact hk
  | succ fuel ih =>
    simp only [State.settle]
    have up (t : State) (p : Nat) (f : Job → Job) (ht : Keeps s₀ t) :
        Keeps s₀ (State.settle fuel ((t.mapHarts (Hart.countFell p)).modJob p f) p) :=
      ih (keeps_modJob (keeps_mapHarts (by simp) (by simp) ht))
    repeat' split
    any_goals exact hk
    any_goals exact keeps_finalize hk
    any_goals exact up _ _ _ (keeps_finalize hk)
    · exact keeps_nextSeq (keeps_putJob hk)
    · exact keeps_emptyCont (keeps_enqueue (keeps_nextSeq (keeps_putJob hk)))

@[simp] theorem keeps_countDown {s₀ s : State} {id n : Nat} (hk : Keeps s₀ s) :
    Keeps s₀ (State.countDown s id n) := by
  unfold State.countDown
  split
  · exact hk
  · exact keeps_settle (keeps_putJob (keeps_mapHarts (by simp) (by simp) hk))

@[simp] theorem keeps_markAbandoned {s₀ s : State} {t : Nat} {lost : Bool} {id : Nat} (hk : Keeps s₀ s) :
    Keeps s₀ (State.markAbandoned s t lost id) := by
  simp [State.markAbandoned, hk]

@[simp] theorem keeps_withdraw {s₀ s : State} {grace : Nat} {p : Nat × Bool} (hk : Keeps s₀ s) :
    Keeps s₀ (State.withdraw s grace p) := by
  refine keeps_countDown (keeps_mapHarts (fun h => ?_) (fun h => ?_) ?_)
  · (repeat' split) <;> rfl
  · (repeat' split) <;> exact .refl _
  · exact keeps_foldl (fun _ _ => by simp) (keeps_foldl (fun _ _ => by simp) hk)

@[simp] theorem keeps_abandon {s₀ s : State} {id t grace : Nat} {lost : Bool} (hk : Keeps s₀ s) :
    Keeps s₀ (State.abandon s id t grace lost) :=
  keeps_trimDeficits (keeps_foldl (fun _ _ => by simp) (keeps_foldl (fun _ _ => by simp) hk))

@[simp] theorem keeps_deferJob {s₀ s : State} {id : Nat} (hk : Keeps s₀ s) :
    Keeps s₀ (State.deferJob s id) :=
  keeps_trimDeficits (keeps_sendBackAll (keeps_foldl (fun _ _ => by simp) hk))

@[simp] theorem keeps_passCliff {s₀ s : State} {id grace : Nat} (hk : Keeps s₀ s) :
    Keeps s₀ (State.passCliff s id grace) := by
  unfold State.passCliff
  split <;> simp [hk]

@[simp] theorem keeps_release {s₀ s : State} {id : Nat} (hk : Keeps s₀ s) :
    Keeps s₀ (State.release s id) := by
  simp [State.release, hk]

@[simp] theorem keeps_finishTask {s₀ s : State} {n : Nat} {result : Option (Word × Bool)} (hk : Keeps s₀ s) :
    Keeps s₀ (State.finishTask s n result) := by
  simp only [State.finishTask]
  split
  · exact hk
  generalize eu : s.modHart n _ = u
  have hu : Keeps s₀ u := eu ▸ keeps_modHart (by simp) hk
  generalize ev : ite (isVcNum n = true) _ u = v
  have hv : Keeps s₀ v := by subst v; split <;> simp [hu]
  generalize ew : ite (List.isEmpty _ = true) _ (List.foldl _ v _) = w
  have hw : Keeps s₀ w := by subst w; (repeat' split) <;> simp [hv]
  refine keeps_startNext (keeps_trimDeficits ?_)
  (repeat' split) <;> simp [hw]

@[simp] theorem keeps_commitPops {s₀ s : State} {n : Nat} (hk : Keeps s₀ s) :
    Keeps s₀ (State.commitPops s n) := by
  refine keeps_modHart (fun _ => .refl _) (keeps_foldl (fun t p => ?_) hk)
  dsimp only
  split
  · exact keeps_setBank (.refl _) fun h => by simp only; omega
  · exact .refl _

@[simp] theorem keeps_returnPops {s₀ s : State} {n : Nat} (hk : Keeps s₀ s) :
    Keeps s₀ (State.returnPops s n) := by
  refine keeps_modHart (fun _ => .refl _) (keeps_foldl (fun t p => ?_) hk)
  dsimp only
  split
  · exact keeps_setBank (.refl _) fun h => by simp only; omega
  · exact .refl _

@[simp] theorem keeps_dropChain {s₀ s : State} {k : Nat} (hk : Keeps s₀ s) :
    Keeps s₀ (State.dropChain s k) := by
  simp [State.dropChain, hk]

@[simp] theorem keeps_forcedStop {s₀ s : State} {n : Nat} (hk : Keeps s₀ s) :
    Keeps s₀ (State.forcedStop s n) := by
  unfold State.forcedStop
  dsimp only
  split
  · exact keeps_finishTask (keeps_dropChain (keeps_commitPops hk))
  · exact keeps_finishTask (keeps_commitPops hk)

end Sys2Proof.Machine
end

section
namespace Sys2Proof.Machine

/-! What each operation of the state keeps: banks, counters, power, the MMIO registers, commits and traps, CSRs. -/

@[simp] theorem keeps_bmodeWrite {s₀ s : State} {cl b : Nat} {v : Word} (hk : Keeps s₀ s) :
    Keeps s₀ (State.bmodeWrite s cl b v) := by
  simp [State.bmodeWrite, hk]

@[simp] theorem keeps_modeChangeDone {s₀ s : State} {c b : Nat} (hk : Keeps s₀ s) :
    Keeps s₀ (State.modeChangeDone s c b) := by
  simp only [State.modeChangeDone]
  split
  · exact hk
  refine keeps_foldl (fun _ _ => by split <;> simp) (keeps_foldl (fun _ _ => by simp) (keeps_setBank ?_ (by simp)))
  split <;> simp [hk]

@[simp] theorem keeps_fqReset {s₀ s : State} {cl b : Nat} (hk : Keeps s₀ s) :
    Keeps s₀ (State.fqReset s cl b) := by
  simp [State.fqReset, hk]

@[simp] theorem keeps_setWord {s₀ s : State} {c b w : Nat} {f : Bool} (hk : Keeps s₀ s) :
    Keeps s₀ (State.setWord s c b w f) :=
  keeps_restartWaits (keeps_setBank hk id)

@[simp] theorem keeps_l2FlushAll {s₀ s : State}  (hk : Keeps s₀ s) :
    Keeps s₀ (State.l2FlushAll s) := by
  simp [State.l2FlushAll, hk]

@[simp] theorem keeps_l2DomClr {s₀ s : State} {dom : BitVec 12} (hk : Keeps s₀ s) :
    Keeps s₀ (State.l2DomClr s dom) := by
  simp [State.l2DomClr, hk]

@[simp] theorem keeps_l2ClrCnt {s₀ s : State}  (hk : Keeps s₀ s) :
    Keeps s₀ (State.l2ClrCnt s) := by
  simp [State.l2ClrCnt, hk]

@[simp] theorem keeps_l2Cmd {s₀ s : State} {v : Word} (hk : Keeps s₀ s) :
    Keeps s₀ (State.l2Cmd s v) := by
  unfold State.l2Cmd
  split <;> simp [hk]

@[simp] theorem keeps_setTinc {s₀ s : State} {n v : Nat} (hk : Keeps s₀ s) :
    Keeps s₀ (State.setTinc s n v) := by
  simp [State.setTinc, hk]

@[simp] theorem keeps_fireSkipped {s₀ s : State}  (hk : Keeps s₀ s) :
    Keeps s₀ (State.fireSkipped s) :=
  keeps_foldl (fun _ _ => by (repeat' split) <;> simp) hk

@[simp] theorem keeps_tstep {s₀ s : State} {n : Nat} {v : Word} (hk : Keeps s₀ s) :
    Keeps s₀ (State.tstep s n v) := by
  simp [State.tstep, hk]

@[simp] theorem keeps_beacon {s₀ s : State} {n target : Nat} (hk : Keeps s₀ s) :
    Keeps s₀ (State.beacon s n target) := by
  simp [State.beacon, hk]

@[simp] theorem keeps_beaconArrive {s₀ s : State} {ctr src : Nat} (hk : Keeps s₀ s) :
    Keeps s₀ (State.beaconArrive s ctr src) := by
  simp [State.beaconArrive, hk]

@[simp] theorem keeps_powerAverage {s₀ s : State} {watts : Nat} (hk : Keeps s₀ s) :
    Keeps s₀ (State.powerAverage s watts) := by
  simp only [State.powerAverage]
  repeat' split
  all_goals simp [hk]

@[simp] theorem keeps_raiseGrants {s₀ s : State}  (hk : Keeps s₀ s) :
    Keeps s₀ (State.raiseGrants s) := by
  simp only [State.raiseGrants]
  repeat' split
  all_goals simp [hk]

@[simp] theorem startHart_buf (entry : Word) (retired : Tab (BitVec 32)) (n : Nat) : (startHart entry retired n).buf = [] := rfl

/-- A hart that a start has not run yet has nothing buffered. -/
theorem bufAt_retiredHarts (entry : Word) (r : Tab (BitVec 32)) (skip n : Nat) : bufAt (retiredHarts entry r skip) n = [] := by
  have hf (t : Tab (Option Hart)) (ht : ∀ p ∈ t, ∀ h, p.2 = some h → h.buf = []) : bufAt t n = [] := by
    unfold bufAt
    induction t with
    | nil => rfl
    | cons p t ih =>
      obtain ⟨k, o⟩ := p
      simp only [tabGet]
      split
      · cases o with
        | none => rfl
        | some h => exact ht _ (.head _) h rfl
      · exact ih fun p hp => ht p (.tail _ hp)
  refine hf _ fun p hp h e => ?_
  simp only [retiredHarts, List.mem_filterMap, Option.ite_none_left_eq_some, Option.some.injEq] at hp
  obtain ⟨q, _, _, rfl⟩ := hp
  cases e
  rfl

theorem keeps_started {s₀ s : State} {mem : Memory} {poison : List Nat} {retired : Tab (BitVec 32)} {early : Option Nat}
    {kind : Nat} {wiped : Bool} (hk : Keeps s₀ s) (hm : Memory.wf s₀.mem = true → Memory.wf mem = true) :
    Keeps s₀ (s.started mem poison retired early kind wiped) where
  mem_wf h := by
    have hw (c : Prop) [Decidable c] (l : List Byte) : Memory.wf (if c then memSetBytes mem 0 l else mem) = true := by
      split
      · exact memSetBytes_wf _ _ _ (hm h)
      · exact hm h
    exact hw _ _
  banks_fit _ k := by simp [State.started, State.reset, tabGet, Bank.reset]
  num_eq := hk.num_eq
  buf_sub := List.nil_sublist _
  parked_sub n _ := by simp [State.started, bufAt_retiredHarts]

@[simp] theorem keeps_coldStart {s₀ s : State}  (hk : Keeps s₀ s) :
    Keeps s₀ (State.coldStart s) := by
  unfold State.coldStart
  dsimp only
  split
  · exact keeps_started hk hk.mem_wf
  · exact keeps_started hk fun _ => rfl

@[simp] theorem keeps_warmStart {s₀ s : State}  (hk : Keeps s₀ s) :
    Keeps s₀ (State.warmStart s) := by
  unfold State.warmStart
  split
  · split
    · exact keeps_started hk hk.mem_wf
    · exact keeps_started hk fun h => tabWf_filter _ _ _ _ (hk.mem_wf h)
  · exact keeps_coldStart hk

@[simp] theorem keeps_finishShutdown {s₀ s : State}  (hk : Keeps s₀ s) :
    Keeps s₀ (State.finishShutdown s) := by
  simp [State.finishShutdown, hk]

@[simp] theorem keeps_warmRequest {s₀ s : State}  (hk : Keeps s₀ s) :
    Keeps s₀ (State.warmRequest s) := by
  simp [State.warmRequest, hk]

@[simp] theorem keeps_stopAll {s₀ s : State}  (hk : Keeps s₀ s) :
    Keeps s₀ (State.stopAll s) := by
  simp [State.stopAll, hk]

@[simp] theorem keeps_rstReq {s₀ s : State} {v : Word} (hk : Keeps s₀ s) :
    Keeps s₀ (State.rstReq s v) := by
  unfold State.rstReq
  split <;> simp [hk]

@[simp] theorem keeps_roleLock {s₀ s : State} {v : Word} (hk : Keeps s₀ s) :
    Keeps s₀ (State.roleLock s v) := by
  simp [State.roleLock, hk]

@[simp] theorem keeps_mailWrite {s₀ s : State} {data : List Byte} (hk : Keeps s₀ s) :
    Keeps s₀ (State.mailWrite s data) := by
  simp [State.mailWrite, hk]

@[simp] theorem keeps_mailDone {s₀ s : State} {r : BitVec 8} (hk : Keeps s₀ s) :
    Keeps s₀ (State.mailDone s r) := by
  simp [State.mailDone, hk]

@[simp] theorem keeps_attest {s₀ s : State}  (hk : Keeps s₀ s) :
    Keeps s₀ (State.attest s) := by
  simp [State.attest, hk]

@[simp] theorem keeps_svnset {s₀ s : State}  (hk : Keeps s₀ s) :
    Keeps s₀ (State.svnset s) := by
  simp [State.svnset, hk]

@[simp] theorem keeps_lcset {s₀ s : State}  (hk : Keeps s₀ s) :
    Keeps s₀ (State.lcset s) := by
  simp only [State.lcset]
  repeat' split
  all_goals simp [hk]

@[simp] theorem keeps_mbCmd {s₀ s : State} {v : Word} (hk : Keeps s₀ s) :
    Keeps s₀ (State.mbCmd s v) := by
  simp [State.mbCmd, hk]

@[simp] theorem keeps_fatal {s₀ s : State} {src : BitVec 8} (hk : Keeps s₀ s) :
    Keeps s₀ (State.fatal s src) := by
  simp [State.fatal, hk]

@[simp] theorem keeps_efwake {s₀ s : State} {c rows : Nat} (hk : Keeps s₀ s) :
    Keeps s₀ (State.efwake s c rows) := by
  simp [State.efwake, hk]

@[simp] theorem keeps_twdoor {s₀ s : State}  (hk : Keeps s₀ s) :
    Keeps s₀ (State.twdoor s) := by
  simp [State.twdoor, hk]

@[simp] theorem keeps_mmioPut {s₀ s : State} {off : Nat} {r : MmioReg} {v mask : Nat} (hk : Keeps s₀ s) :
    Keeps s₀ (State.mmioPut s off r v mask) := by
  unfold State.mmioPut
  split <;> simp [hk]

@[simp] theorem keeps_mmioStore {s₀ s : State} {off size v : Nat} (hk : Keeps s₀ s) :
    Keeps s₀ (State.mmioStore s off size v) := by
  unfold State.mmioStore
  split <;> simp [hk]

@[simp] theorem keeps_bar0Store {s₀ s : State} {o size v : Nat} (hk : Keeps s₀ s) :
    Keeps s₀ (State.bar0Store s o size v) := by
  simp only [State.bar0Store]
  repeat' split
  all_goals simp [hk]

@[simp] theorem keeps_performStore {s₀ s : State} {who pa : Nat} {data : List Byte} {bad : Bool} (hk : Keeps s₀ s) :
    Keeps s₀ (State.performStore s who pa data bad) := by
  unfold State.performStore
  split <;> simp [hk]

@[simp] theorem keeps_performEntry {s₀ s : State} {who : Nat} {e : BufEntry} (hk : Keeps s₀ s) :
    Keeps s₀ (State.performEntry s who e) := by
  unfold State.performEntry
  split <;> simp [hk]

@[simp] theorem keeps_unmark {s₀ s : State} {l : List BufEntry} (hk : Keeps s₀ s) :
    Keeps s₀ (State.unmark s l) := by
  simp [State.unmark, hk]

@[simp] theorem keeps_performAll {s₀ s : State} {who : Nat} {l : List BufEntry} (hk : Keeps s₀ s) :
    Keeps s₀ (State.performAll who s l).1 := by
  induction l generalizing s with
  | nil => exact hk
  | cons e r ih =>
    unfold State.performAll
    split
    · exact hk
    · exact ih (keeps_performEntry hk)

/-- What is left of the entries are the newest of them. -/
theorem performAll_suffix (s : State) (who : Nat) (l : List BufEntry) : (State.performAll who s l).2.1 <:+ l := by
  induction l generalizing s with
  | nil => exact List.suffix_refl _
  | cons e r ih =>
    unfold State.performAll
    split
    · exact List.suffix_refl _
    · exact (ih _).trans (List.suffix_cons e r)

/-- The machine whose core has given its buffer to a commit. -/
abbrev State.emptied (s : State) : State := { s with cpu := { s.cpu with buf := [], vec := s.cpu.vec.closeStrip } }

theorem keeps_emptied (s : State) : Keeps s s.emptied := ⟨id, id, rfl, List.nil_sublist _, fun _ _ => .refl _⟩

@[simp] theorem keeps_commit {s₀ s : State} (hk : Keeps s₀ s) : Keeps s₀ s.commit.1 := by
  refine hk.trans ?_
  have hp (m : List BufEntry) : Keeps s ((State.performAll s.cpu.num s.emptied s.cpu.buf.reverse).1.unmark m) :=
    (keeps_emptied s).trans (keeps_unmark (keeps_performAll (.refl _)))
  unfold State.commit
  dsimp only
  split
  · have hp := hp (s.cpu.buf.drop (State.performAll s.cpu.num s.emptied s.cpu.buf.reverse).2.1.length)
    refine ⟨hp.mem_wf, hp.banks_fit, hp.num_eq, ?_, hp.parked_sub⟩
    simpa using (performAll_suffix s.emptied s.cpu.num s.cpu.buf.reverse).sublist.reverse
  · exact keeps_commitPops (hp _)

/-- A commit that has performed everything leaves the buffer of its core empty. -/
theorem commit_buf {s : State} (h : s.commit.2 = none) : s.commit.1.cpu.buf = [] := by
  have hp (m : List BufEntry) : Keeps s.emptied
      (((State.performAll s.cpu.num s.emptied s.cpu.buf.reverse).1.unmark m).commitPops s.cpu.num) :=
    keeps_commitPops (keeps_unmark (keeps_performAll (.refl _)))
  unfold State.commit at h ⊢
  dsimp only at h ⊢
  split at h
  · cases h
  next hw =>
    exact List.sublist_nil.1 (hp _).buf_sub

@[simp] theorem keeps_rewind {s₀ s : State}  (hk : Keeps s₀ s) :
    Keeps s₀ (State.rewind s) := by
  unfold State.rewind
  split
  · exact hk
  · exact (keeps_returnPops hk).of_parts ⟨id, id, rfl, List.nil_sublist _, fun _ _ => .refl _⟩

@[simp] theorem keeps_rewindFor {s₀ s : State} {k : Rewind} {elem cause : Nat} (hk : Keeps s₀ s) :
    Keeps s₀ (State.rewindFor s k elem cause) := by
  unfold State.rewindFor
  split
  · exact hk
  · exact keeps_rewind hk

@[simp] theorem keeps_fence {s₀ s : State}  (hk : Keeps s₀ s) :
    Keeps s₀ (State.fence s) := by
  have fenced (t : State) (h : Keeps s₀ t) : Keeps s₀ { t with cpu := { t.cpu with run := .fenced, wait := none, trap := none } } := h
  have stopped (t : State) (n : Nat) (h : Keeps s₀ t) : Keeps s₀ (if t.cpu.task.isSome then t.forcedStop n else t) := by
    split <;> simp [h]
  exact fenced _ (stopped _ _ (keeps_foldl (fun _ _ => by simp) (keeps_charge hk)))

@[simp] theorem keeps_keepTrap {s₀ s : State} {e : Exc} {bits : Nat} {w : WaitOn} (hk : Keeps s₀ s) :
    Keeps s₀ (State.keepTrap s e bits w) := by
  simp [State.keepTrap, hk]

@[simp] theorem keeps_machineCheck {s₀ s : State} {e : Exc} {i : McInfo} {bits : Nat} (hk : Keeps s₀ s) :
    Keeps s₀ (State.machineCheck s e i bits) := by
  unfold State.machineCheck
  dsimp only
  split
  · exact keeps_fence hk
  generalize er : ite ((_ && _ : Bool) = true) (_, none) s.commit = r
  have hr : Keeps s₀ r.1 := by subst r; split <;> simp [hk]
  split
  · exact keeps_keepTrap hr
  · simp [hr]

@[simp] theorem keeps_leaveHinge {s₀ s : State}  (hk : Keeps s₀ s) :
    Keeps s₀ (State.leaveHinge s) := by
  unfold State.leaveHinge
  split <;> simp [hk]

@[simp] theorem keeps_takeTrap {s₀ s : State} {e : Exc} {bits : Nat} (hk : Keeps s₀ s) :
    Keeps s₀ (State.takeTrap s e bits) := by
  have hl : Keeps s₀ s.leaveHinge := keeps_leaveHinge hk
  simp only [State.takeTrap]
  split
  · exact keeps_machineCheck hl
  split
  · simp [hl]
  split
  · exact keeps_keepTrap (keeps_commit hl)
  · simp [hl]

@[simp] theorem keeps_takeInterrupt {s₀ s : State} {code : Nat} (hk : Keeps s₀ s) :
    Keeps s₀ (State.takeInterrupt s code) := by
  have hl : Keeps s₀ s.leaveHinge := keeps_leaveHinge hk
  simp only [State.takeInterrupt]
  split
  · simp [hl]
  split <;> simp [hl]

@[simp] theorem keeps_overflowed {s₀ s : State} {elem : Nat} {va : Word} (hk : Keeps s₀ s) :
    Keeps s₀ (State.overflowed s elem va) := by
  unfold State.overflowed
  split <;> simp [hk]

@[simp] theorem keeps_engWritePhys {s₀ s : State} {pa : Nat} {data : List Byte} {bad : Bool} {dom : Option (BitVec 12)} (hk : Keeps s₀ s) :
    Keeps s₀ (State.engWritePhys s pa data bad dom) := by
  unfold State.engWritePhys
  split <;> simp [hk]

@[simp] theorem keeps_efPut {s₀ s : State} {c : Nat} {bs : List Byte} (hk : Keeps s₀ s) :
    Keeps s₀ (State.efPut s c bs) := by
  simp [State.efPut, hk]

@[simp] theorem keeps_faultRecord {s₀ s : State} {c : Nat} {f : FaultRec} (hk : Keeps s₀ s) :
    Keeps s₀ (State.faultRecord s c f) := by
  simp [State.faultRecord, hk]

@[simp] theorem keeps_heldWrite {s₀ s : State} {c : Nat} (hk : Keeps s₀ s) :
    Keeps s₀ (State.heldWrite s c) := by
  unfold State.heldWrite
  split <;> simp [hk]

@[simp] theorem keeps_defectRecord {s₀ s : State} {a : Word} (hk : Keeps s₀ s) :
    Keeps s₀ (State.defectRecord s a) := by
  simp [State.defectRecord, hk]

@[simp] theorem keeps_passTime {s₀ s : State} {n : Nat} (hk : Keeps s₀ s) :
    Keeps s₀ (State.passTime s n) := by
  simp [State.passTime, hk]

@[simp] theorem keeps_evictTlb {s₀ s : State} {n va : Nat} (hk : Keeps s₀ s) :
    Keeps s₀ (State.evictTlb s n va) := by
  simp [State.evictTlb, hk]

@[simp] theorem keeps_evictLine {s₀ s : State} {line : Nat} (hk : Keeps s₀ s) :
    Keeps s₀ (State.evictLine s line) := by
  simp [State.evictLine, hk]

@[simp] theorem keeps_lanemapWrite {s₀ s : State} {v : Word} (hk : Keeps s₀ s) :
    Keeps s₀ (State.lanemapWrite s v) := by
  simp [State.lanemapWrite, hk]

@[simp] theorem keeps_srvroleWrite {s₀ s : State} {v : Word} (hk : Keeps s₀ s) :
    Keeps s₀ (State.srvroleWrite s v) := by
  simp [State.srvroleWrite, hk]

@[simp] theorem keeps_csrStd {s₀ s : State} {n : Nat} {v : Word} (hk : Keeps s₀ s) :
    Keeps s₀ (State.csrStd s n v) := by
  unfold State.csrStd
  split <;> simp [hk]

@[simp] theorem keeps_csrDev {s₀ s : State} {n : Nat} {v : Word} (hk : Keeps s₀ s) :
    Keeps s₀ (State.csrDev s n v) := by
  unfold State.csrDev
  split
  · simp [hk]
  · split <;> simp [hk]

end Sys2Proof.Machine
end

section
namespace Sys2Proof.Machine

/-! Computations of engines and chains. -/

/-- Whatever an access comes to, it keeps what s has, from every state that has it. -/
def AccKeeps {ε α : Type} (s : State) (m : AccM ε α) : Prop := ∀ t b, Keeps s t → Keeps s ((m.run.run t).run b).1.2

theorem keeps_runAcc {ε α : Type} {s t : State} {m : AccM ε α} (hm : AccKeeps s m) (h : Keeps s t) : Keeps s (runAcc m t).2.1 :=
  hm t false h

theorem keeps_of_runAcc {ε α : Type} {s t u : State} {m : AccM ε α} {a : Except ε α} {b : Bool} (h : runAcc m t = (a, u, b))
    (hm : AccKeeps s m) (hk : Keeps s t) : Keeps s u := by
  have hr := keeps_runAcc hm hk
  rw [h] at hr
  exact hr

section
variable {ε α β : Type} {s : State}

@[simp] theorem accKeeps_pure (a : α) : AccKeeps s (pure a : AccM ε α) := fun _ _ h => h
@[simp] theorem accKeeps_throw (e : ε) : AccKeeps s (throw e : AccM ε α) := fun _ _ h => h
@[simp] theorem accKeeps_eats (p : Bool) : AccKeeps s (accEats p : AccM ε Unit) := fun _ _ h => h
@[simp] theorem accKeeps_ate : AccKeeps s (accAte : AccM ε Bool) := fun _ _ h => h
@[simp] theorem accKeeps_get : AccKeeps s (get : AccM ε State) := fun _ _ h => h
theorem accKeeps_set {u : State} (h : Keeps s u) : AccKeeps s (set u : AccM ε PUnit) := fun _ _ _ => h
@[simp] theorem accKeeps_modify {f : State → State} (hf : ∀ t, Keeps t (f t)) : AccKeeps s (modify f : AccM ε PUnit) :=
  fun t _ h => h.trans (hf t)

theorem accKeeps_bind {m : AccM ε α} {f : α → AccM ε β} (hm : AccKeeps s m) (hf : ∀ a, AccKeeps s (f a)) :
    AccKeeps s (m >>= f) := by
  intro t b h
  have h1 := hm t b h
  show Keeps s (((ExceptT.bind m f).run.run t).run b).1.2
  unfold ExceptT.bind
  show Keeps s ((StateT.run (StateT.run (m.run >>= ExceptT.bindCont f) t) b)).1.2
  rw [StateT.run_bind, StateT.run_bind]
  generalize StateT.run (StateT.run m.run t) b = r at h1
  obtain ⟨⟨a, u⟩, c⟩ := r
  cases a with
  | ok a => exact hf a u c h1
  | error e => exact h1

theorem accKeeps_get_bind {f : State → AccM ε β} (hf : ∀ t, Keeps s t → AccKeeps s (f t)) : AccKeeps s (get >>= f) :=
  fun t b h => hf t h t b h

end

theorem accKeeps_engTry {s₀ : State} {α : Type} {m : EngM α} (hm : AccKeeps s₀ m) : AccKeeps s₀ (engTry m) := by
  unfold engTry
  refine accKeeps_get_bind fun t ht => accKeeps_bind (by simp) fun _ => ?_
  split
  · exact accKeeps_bind (accKeeps_set (keeps_runAcc hm ht)) fun _ => by simp
  · exact accKeeps_bind (accKeeps_set (keeps_runAcc hm ht)) fun _ => by simp
  · simp

theorem accKeeps_ofEng {s₀ : State} {α : Type} {m : EngM α} (hm : AccKeeps s₀ m) : AccKeeps s₀ (ofEng m) := by
  unfold ofEng
  refine accKeeps_get_bind fun t ht => accKeeps_bind (by simp) fun _ => ?_
  split
  · exact accKeeps_bind (accKeeps_set (keeps_runAcc hm ht)) fun _ => by simp
  · exact accKeeps_bind (accKeeps_set (keeps_runAcc hm ht)) fun _ => by simp
  · simp

/-- How such a computation is taken apart: by its sequences and its branches, until only steps with a lemma of their own are left. -/
theorem accKeeps_parts {ε α : Type} {s : State} {m : AccM ε α} (h : AccKeeps s m := by
    repeat' first
      | with_reducible refine accKeeps_get_bind fun _ _ => ?_
      | with_reducible refine accKeeps_bind ?_ fun _ => ?_
      | with_reducible refine accKeeps_ofEng ?_
      | with_reducible refine accKeeps_engTry ?_
      | split
    all_goals simp [*]) : AccKeeps s m := h

end Sys2Proof.Machine
end

section
/- The proofs given as default arguments are elaborated one after another: many at once take a stack each. -/
set_option Elab.async false

namespace Sys2Proof.Machine

/-! Engines' accesses to memory. -/

@[simp] theorem accKeeps_engFault {s₀ : State} {α : Type} {cause : Nat} {va : Word} {write hostfile : Bool} :
    AccKeeps s₀ (engFault cause va write hostfile : EngM α) := accKeeps_throw _

/-- An engine's translation fills the cluster's TLB at most. -/
theorem keeps_engineXlat {s t : State} {cl : Nat} {c : Ctx} {acc : Acc} {va : Word} {x : Xlat}
    (h : engineXlat s cl c acc va = .ok (x, t)) : Keeps s t := by
  unfold engineXlat at h
  repeat' split at h
  all_goals cases h
  all_goals simp

@[simp] theorem accKeeps_engCheck {s₀ : State} {e : Eng} {write : Bool} {va : Word} : AccKeeps s₀ (engCheck e write va) := by
  unfold engCheck
  refine accKeeps_get_bind fun t ht => ?_
  split
  · exact accKeeps_bind (by simp) fun _ => accKeeps_bind (accKeeps_set (keeps_missed ht)) fun _ => by simp
  next x u hx =>
    refine accKeeps_bind (by simp) fun _ => accKeeps_bind (accKeeps_set (ht.trans (keeps_engineXlat hx))) fun _ => ?_
    split <;> simp

@[simp] theorem accKeeps_twinBytes {s₀ : State} {va : Word} {n : Nat} {hostfile : Bool} :
    AccKeeps s₀ (twinBytes va n hostfile) := by
  unfold twinBytes
  refine accKeeps_get_bind fun t ht => accKeeps_bind (accKeeps_set ht) fun _ => ?_
  split <;> simp

@[simp] theorem accKeeps_engReadPhys {s₀ : State} {x : Xlat} {va : Word} {n : Nat} :
    AccKeeps s₀ (engReadPhys x va n) := by
  unfold engReadPhys
  dsimp only
  split
  · refine accKeeps_get_bind fun t ht => ?_
    split <;> simp
  · simp
  · exact accKeeps_get_bind fun t ht => accKeeps_bind (accKeeps_set (keeps_l2Fill ht)) fun _ => by simp

@[simp] theorem accKeeps_engReadParts {s₀ : State} {e : Eng} {reads : Bool} {a0 : List (Word × Nat)} :
    AccKeeps s₀ (engReadParts e reads a0) := by
  induction a0 with
  | nil => simp [engReadParts]
  | cons _ _ ih =>
    simp only [engReadParts]
    exact accKeeps_parts

@[simp] theorem accKeeps_engRead {s₀ : State} {e : Eng} {va : Word} {n : Nat} : AccKeeps s₀ (engRead e va n) := by
  unfold engRead
  exact accKeeps_parts

@[simp] theorem accKeeps_engWriteParts {s₀ : State} {e : Eng} {bad : Bool} {a0 : List (Word × Nat)} {a1 : List Byte} :
    AccKeeps s₀ (engWriteParts e bad a0 a1) := by
  induction a0 generalizing a1 with
  | nil => simp [engWriteParts]
  | cons _ _ ih =>
    simp only [engWriteParts]
    exact accKeeps_parts

@[simp] theorem accKeeps_engWrite {s₀ : State} {e : Eng} {va : Word} {data : List Byte} {bad : Bool} :
    AccKeeps s₀ (engWrite e va data bad) := by
  unfold engWrite
  exact accKeeps_parts

theorem keeps_unitXlat {e : Eng} {s t : State} {va : Word} {u : UnitXlat} (h : unitXlat e s va = .ok (u, t)) : Keeps s t := by
  unfold unitXlat at h
  repeat' split at h
  all_goals cases h
  all_goals simp

end Sys2Proof.Machine
end

section
namespace Sys2Proof.Machine

/-! The hart to move may change: what such an operation preserves. -/

theorem addSorted_pairwise {l : List Nat} (k : Nat) (h : l.Pairwise (· < ·)) : (addSorted k l).Pairwise (· < ·) := by
  induction l with
  | nil => simp [addSorted]
  | cons a r ih =>
    rw [List.pairwise_cons] at h
    unfold addSorted
    split
    next hk => exact .cons (fun x hx => by rcases List.mem_cons.mp hx with rfl | hx; exacts [hk, hk.trans (h.1 x hx)]) (.cons h.1 h.2)
    next hk =>
      split
      · exact .cons h.1 h.2
      next ha =>
        refine .cons (fun x hx => ?_) (ih h.2)
        rcases (mem_addSorted k x r).mp hx with rfl | hx
        · omega
        · exact h.1 x hx

theorem bufSectors_pairwise (l : List BufEntry) : (bufSectors l).Pairwise (· < ·) := by
  induction l with
  | nil => exact .nil
  | cons e r ih =>
    cases e with
    | store a d _ _ =>
      have step (is m : List Nat) (hm : m.Pairwise (· < ·)) :
          (is.foldl (fun l i => addSorted (sectorOf a + i) l) m).Pairwise (· < ·) := by
        induction is generalizing m with
        | nil => exact hm
        | cons i is ih => exact ih _ (addSorted_pairwise _ hm)
      exact step _ _ ih
    | msg m => exact ih
    | mark k => exact ih

/-- The sectors that one entry counts. -/
def BufEntry.sectors : BufEntry → List Nat
  | .store a d _ _ => (List.range (if d.length = 0 then 0 else sectorOf (a + d.length - 1) - sectorOf a + 1)).map (sectorOf a + ·)
  | .msg _ | .mark _ => []

theorem mem_bufSectors {l : List BufEntry} {k : Nat} : k ∈ bufSectors l ↔ ∃ e ∈ l, k ∈ e.sectors := by
  induction l with
  | nil => simp [bufSectors]
  | cons e r ih =>
    rw [List.exists_mem_cons_iff, ← ih]
    cases e with
    | store a d _ _ =>
      rw [bufSectors, ← List.foldl_map (f := (sectorOf a + ·)) (g := fun l k => addSorted k l), mem_foldl_addSorted]
      rfl
    | msg m => simp [bufSectors, BufEntry.sectors]
    | mark k => simp [bufSectors, BufEntry.sectors]

theorem bufSectors_length_le {l m : List BufEntry} (h : l.Sublist m) : (bufSectors l).length ≤ (bufSectors m).length := by
  have nodup : (bufSectors l).Nodup := (bufSectors_pairwise l).imp fun h => ne_of_lt h
  refine (nodup.subperm fun k hk => ?_).length_le
  obtain ⟨e, he, hk⟩ := mem_bufSectors.mp hk
  exact mem_bufSectors.mpr ⟨e, h.subset he, hk⟩

theorem Keeps.preserves {s t : State} (h : Keeps s t) : Preserves s t := by
  refine ⟨h.mem_wf, h.banks_fit, fun hb n => ?_⟩
  refine le_trans ?_ (hb n)
  have sub : (t.getHart n).buf.Sublist (s.getHart n).buf := by
    rw [getHart_buf, getHart_buf, h.num_eq]
    split
    · exact h.buf_sub
    next hn => exact h.parked_sub n (h.num_eq ▸ hn)
  exact bufSectors_length_le sub

theorem Preserves.refl (s : State) : Preserves s s := ⟨id, id, id⟩

theorem Preserves.trans {s t u : State} (h : Preserves s t) (k : Preserves t u) : Preserves s u :=
  ⟨k.mem_wf ∘ h.mem_wf, k.banks_fit ∘ h.banks_fit, k.bufs_fit ∘ h.bufs_fit⟩

theorem Preserves.step {s t u : State} (h : Preserves s t) (k : Keeps t u) : Preserves s u := h.trans k.preserves

@[simp] theorem preserves_ite {s t u : State} {c : Prop} [Decidable c] :
    Preserves s (if c then t else u) ↔ (c → Preserves s t) ∧ (¬c → Preserves s u) := by
  split <;> simp [*]

theorem preserves_foldl {α : Type} {s t : State} {f : State → α → State} {l : List α} (hf : ∀ t a, Preserves t (f t a))
    (h : Preserves s t) : Preserves s (l.foldl f t) := by
  induction l generalizing t with
  | nil => exact h
  | cons a r ih => exact ih (h.trans (hf t a))

/-- Another hart may take the turn: it leaves the table of waiting harts, and the one that had the turn enters it. -/
theorem preserves_turnTo {s t : State} {n : Nat} (h : Preserves s t) : Preserves s (t.turnTo n) := by
  refine h.trans ?_
  unfold State.turnTo
  split
  · exact .refl _
  next hn =>
    refine ⟨id, id, fun hb k => ?_⟩
    rw [getHart_buf]
    split
    · exact hb n
    · show (bufSectors (bufAt (tabErase (tabInsert t.parked t.cpu.num (some t.cpu)) n) k)).length ≤ 512
      rw [bufAt_erase, bufAt_insert]
      have hk := hb k
      rw [getHart_buf] at hk
      split
      · exact Nat.zero_le _
      · simpa only [apply_ite, eq_comm] using hk

end Sys2Proof.Machine
end

section
/- The proofs given as default arguments are elaborated one after another: many at once take a stack each. -/
set_option Elab.async false

namespace Sys2Proof.Machine

/-! Posted commands, stream pops, the matrix engine and weight chains. -/

@[simp] theorem keeps_enqueueMany {s₀ s : State} {job : Nat} {d : Desc} {seq n : Nat} (hk : Keeps s₀ s) :
    Keeps s₀ (State.enqueueMany s job d seq n) := by
  induction n with
  | zero => exact hk
  | succ n ih => exact keeps_enqueue ih

@[simp] theorem keeps_acceptJob {s₀ s : State} {j : Job} {parent : Word} {n : Nat} (hk : Keeps s₀ s) :
    Keeps s₀ (State.acceptJob s j parent n) :=
  keeps_nextSeq (keeps_enqueueMany (keeps_devWrite (keeps_putJob (keeps_devWrite (keeps_devWrite hk)))))

@[simp] theorem keeps_post {s₀ s : State} {c words : Nat} {a : Word} (hk : Keeps s₀ s) :
    Keeps s₀ (State.post s c words a) := by
  simp only [State.post]
  repeat' split
  all_goals simp [hk]

@[simp] theorem keeps_popTake {s₀ s : State} {p : Popped} (hk : Keeps s₀ s) :
    Keeps s₀ (State.popTake s p) := by
  have f (t : State) (ps : List Pop) (h : Keeps s₀ t) : Keeps s₀ { t with cpu := { t.cpu with pops := ps } } := h
  simp only [State.popTake]
  have hv (v : Vec) : Keeps s₀ { s with cpu := { s.cpu.eats p.bad with vec := v } } := by simpa using hk
  repeat' split
  any_goals exact hv _
  all_goals
    refine f _ _ (keeps_setBank (hv _) fun h => ?_)
    simp only at h ⊢
    omega

@[simp] theorem preserves_hingeOthers {s₀ s : State} {js : List Join} (hk : Keeps s₀ s) :
    Preserves s₀ (State.hingeOthers s js) := by
  refine preserves_foldl (fun t j => ?_) hk.preserves
  split
  · exact .refl t
  · exact preserves_turnTo ((preserves_turnTo (.refl t)).step (keeps_takeTrap (.refl _)))

@[simp] theorem keeps_restartRow {s₀ s : State} {cl row : Nat} (hk : Keeps s₀ s) :
    Keeps s₀ (State.restartRow s cl row) := by
  refine keeps_foldl (fun t n => keeps_modHart (fun h => ?_) (.refl t)) hk
  split
  · exact .refl _
  · split <;> exact .refl _

@[simp] theorem keeps_issueMatrix {s₀ s : State} {js : List Join} (hk : Keeps s₀ s) :
    Keeps s₀ (State.issueMatrix s js) := by
  unfold State.issueMatrix
  have hf (t : State) (l : List Join) (f : Join → Hart → Hart) (n : Join → Nat) (hf : ∀ j h, (f j h).buf = h.buf) (h : Keeps s₀ t) :
      Keeps s₀ (l.foldl (fun t j => t.modHart (n j) (f j)) t) :=
    keeps_foldl (fun _ j => keeps_modHart (fun g => hf j g ▸ .refl _) (.refl _)) h
  dsimp only
  split
  · refine keeps_modJob (hf _ _ _ _ (fun j g => ?_) (keeps_setRow.2 hk))
    split <;> simp
  · refine hf _ _ _ _ (fun j g => ?_) (keeps_setRow.2 hk)
    split <;> simp

@[simp] theorem keeps_startDrive {s₀ s : State} {addr : Word} (hk : Keeps s₀ s) :
    Keeps s₀ (State.startDrive s addr) := by
  simp [State.startDrive, hk]

@[simp] theorem accKeeps_aRow {s₀ : State} {e : Eng} {f : AForm} {r main side : Nat} : AccKeeps s₀ (aRow e f r main side) := by
  unfold aRow
  exact accKeeps_parts

@[simp] theorem accKeeps_aRows {s₀ : State} {e : Eng} {c : MatCmd} {main side : Nat} {a0 : List Nat} :
    AccKeeps s₀ (aRows e c main side a0) := by
  induction a0 with
  | nil => simp [aRows]
  | cons _ _ ih =>
    simp only [aRows]
    exact accKeeps_parts

@[simp] theorem accKeeps_bRows {s₀ : State} {e : Eng} {base : Word} {pitch len : Nat} {a0 : List Nat} :
    AccKeeps s₀ (bRows e base pitch len a0) := by
  induction a0 with
  | nil => simp [bRows]
  | cons _ _ ih =>
    simp only [bRows]
    exact accKeeps_parts

@[simp] theorem accKeeps_matArith {s₀ : State} {cl : Nat} {w : Row} {c : MatCmd} : AccKeeps s₀ (matArith cl w c) := by
  unfold matArith
  exact accKeeps_parts

@[simp] theorem accKeeps_drainRows {s₀ : State} {e : Eng} {w : Row} {tile fmt ovf : Nat} {base : Word} {pitch : Nat} {a0 : List Nat} :
    AccKeeps s₀ (drainRows e w tile fmt ovf base pitch a0) := by
  induction a0 with
  | nil => simp [drainRows]
  | cons _ _ ih =>
    simp only [drainRows]
    exact accKeeps_parts

@[simp] theorem accKeeps_matRun {s₀ : State} {cl row : Nat} {c : MatCmd} : AccKeeps s₀ (matRun cl row c) := by
  unfold matRun
  exact accKeeps_parts

@[simp] theorem keeps_runMatrix {s₀ s : State} {op cl row : Nat} (hk : Keeps s₀ s) :
    Keeps s₀ (State.runMatrix op cl row s) := by
  unfold State.runMatrix
  split
  · exact hk
  next c _ =>
    split
    · exact hk
    · have hr := keeps_runAcc (accKeeps_matRun (cl := cl) (row := row) (c := c)) hk
      split
      next heq => rw [heq] at hr; exact hr
      next heq => rw [heq] at hr; exact hr
      next => exact hk

@[simp] theorem keeps_matRecord {s₀ s : State} {cl : Nat} {c : MatCmd} {r : MatResult} (hk : Keeps s₀ s) :
    Keeps s₀ (State.matRecord s cl c r) := by
  simp [State.matRecord, hk]

theorem keeps_badRecord {s₀ s t : State} {cl : Nat} {c : MatCmd} {b : Bool} (hk : Keeps s₀ s)
    (h : s.badRecord cl c = some (t, b)) : Keeps s₀ t := by
  unfold State.badRecord at h
  split at h
  · cases h; exact hk
  next a _ =>
    have hr := keeps_runAcc (accKeeps_engWrite (e := engOf cl c.satp c.mode) (va := a)
      (data := recordBytes (c.seqs.getD 0 0) c.words 3 0 0) (bad := false)) hk
    dsimp only at h
    split at h
    next heq => cases h; rw [heq] at hr; exact hr
    next heq => cases h; rw [heq] at hr; exact keeps_faultRecord hr
    next => cases h

theorem keeps_matRecords {s₀ s t : State} {cl : Nat} {c : MatCmd} {r : MatResult} {b : Bool} (hk : Keeps s₀ s)
    (h : s.matRecords cl c r = some (t, b)) : Keeps s₀ t := by
  unfold State.matRecords at h
  dsimp only at h
  split at h
  · exact keeps_badRecord (keeps_matRecord hk) h
  · cases h; exact keeps_matRecord hk

@[simp] theorem keeps_completeMatrix {s₀ s : State} {cl row : Nat} {c : MatCmd} {r : MatResult} (hk : Keeps s₀ s) :
    Keeps s₀ (State.completeMatrix s cl row c r) := by
  unfold State.completeMatrix
  split
  · exact hk
  next t ate heq =>
    have ht := keeps_matRecords hk heq
    have hf (seqs : List (Nat × Nat)) (r : MatResult) (u : State) (hu : Keeps s₀ u) :
        Keeps s₀ (seqs.foldl (fun s p => s.modHart (vcNum cl (4 * row + p.1)) fun h => h.matDone c r p.2) u) :=
      keeps_foldl (fun _ _ => by simp) hu
    dsimp only
    split
    · exact keeps_countDown (hf _ _ _ (keeps_setRow.2 ht))
    · exact hf _ _ _ (keeps_setRow.2 ht)

@[simp] theorem keeps_matrixComplete {s₀ s : State} {cl row : Nat} (hk : Keeps s₀ s) :
    Keeps s₀ (State.matrixComplete s cl row) := by
  unfold State.matrixComplete
  split
  · simp [hk]
  · split <;> simp [hk]

@[simp] theorem accKeeps_chainUnit {s₀ : State} {e : Eng} {va : Word} : AccKeeps s₀ (chainUnit e va) := by
  unfold chainUnit
  refine accKeeps_get_bind fun t ht => ?_
  split
  · exact accKeeps_bind (by simp) fun _ => accKeeps_bind (accKeeps_set (keeps_missed ht)) fun _ => by simp
  next u t' hx =>
    refine accKeeps_bind (by simp) fun _ => accKeeps_bind (accKeeps_set (ht.trans (keeps_unitXlat hx))) fun _ => ?_
    split
    · simp
    · simp
    · split
      · exact accKeeps_bind (accKeeps_ofEng (by simp)) fun _ => accKeeps_bind (by simp) fun _ => by simp
      · simp

@[simp] theorem keeps_poisonRow {s₀ s : State} {cl row : Nat} {b : Bool} (hk : Keeps s₀ s) :
    Keeps s₀ (State.poisonRow s cl row b) := by
  simp [State.poisonRow, hk]

@[simp] theorem accKeeps_chainUnits {s₀ : State} {e : Eng} {a0 : Nat} {a1 : Word} : AccKeeps s₀ (chainUnits e a0 a1) := by
  induction a0 generalizing a1 with
  | zero => simp [chainUnits]
  | succ _ ih =>
    simp only [chainUnits]
    exact accKeeps_parts

@[simp] theorem keeps_blockOpc {s₀ s : State} {cl row : Nat} {ch : Chain} (hk : Keeps s₀ s) :
    Keeps s₀ (s.blockOpc cl row ch).2 := by
  unfold State.blockOpc
  dsimp only
  split
  · exact hk
  · split
    · exact keeps_poisonRow (keeps_missed hk)
    next u t heq =>
      have ht := hk.trans (keeps_unitXlat heq)
      split
      · have hr := keeps_runAcc (accKeeps_engReadPhys (x := u.x) (va := ch.block) (n := 32))
          (keeps_poisonRow (cl := cl) (row := row) (b := s.walkBad [] (ch.eng cl).cl (ch.eng cl).ctx ch.block true) ht)
        split
        next heq => rw [heq] at hr; exact keeps_poisonRow hr
        next heq => rw [heq] at hr; exact hr
      · exact keeps_poisonRow ht

@[simp] theorem keeps_mergePlanes {s₀ s : State} {base fuel : Nat} {els : List (Nat × El)} (hk : Keeps s₀ s) :
    Keeps s₀ (State.mergePlanes base fuel els s) := by
  induction fuel generalizing els s with
  | zero => exact hk
  | succ f ih =>
    unfold State.mergePlanes
    split
    · exact hk
    · exact ih (keeps_visWrite hk)

@[simp] theorem keeps_mergeEls {s₀ s : State} {cl row h : Nat} {els : List (Nat × El)} (hk : Keeps s₀ s) :
    Keeps s₀ (State.mergeEls s cl row h els) := by
  simp [State.mergeEls, hk]

@[simp] theorem accKeeps_planeCheck {s₀ : State} {cl h : Nat} : AccKeeps s₀ (planeCheck cl h) := by
  simp only [planeCheck]
  exact accKeeps_parts

@[simp] theorem accKeeps_actRow {s₀ : State} {e : Eng} {ws a0 : Nat} {a1 : Word} : AccKeeps s₀ (actRow e ws a0 a1) := by
  induction a0 generalizing a1 with
  | zero => simp [actRow]
  | succ _ ih =>
    simp only [actRow]
    exact accKeeps_parts

@[simp] theorem accKeeps_actRows {s₀ : State} {e : Eng} {h p : Nat} {a0 : List Nat} : AccKeeps s₀ (actRows e h p a0) := by
  induction a0 with
  | nil => simp [actRows]
  | cons _ _ ih =>
    simp only [actRows]
    exact accKeeps_parts

@[simp] theorem accKeeps_actPasses {s₀ : State} {e : Eng} {h : Nat} {a0 : List Nat} : AccKeeps s₀ (actPasses e h a0) := by
  induction a0 with
  | nil => simp [actPasses]
  | cons _ _ ih =>
    simp only [actPasses]
    exact accKeeps_parts

@[simp] theorem accKeeps_wCompute {s₀ : State} {e : Eng} {cl row : Nat} {ch : Chain} {h : Nat} {pay : Payload} :
    AccKeeps s₀ (wCompute e cl row ch h pay) := by
  unfold wCompute
  exact accKeeps_parts

@[simp] theorem accKeeps_wAct {s₀ : State} {cl row : Nat} {ch : Chain} {h : Nat} {pay : Payload} :
    AccKeeps s₀ (wAct cl row ch h pay) := by
  unfold wAct
  exact accKeeps_parts

@[simp] theorem accKeeps_outRows {s₀ : State} {e : Eng} {cl row h : Nat} {a0 : List Nat} : AccKeeps s₀ (outRows e cl row h a0) := by
  induction a0 with
  | nil => simp [outRows]
  | cons _ _ ih =>
    simp only [outRows]
    exact accKeeps_parts

@[simp] theorem keeps_windowWords {s₀ s : State} {cl row bank base done : Nat} {l : List (List Byte × Bool)} (hk : Keeps s₀ s) :
    Keeps s₀ (State.windowWords cl row bank base s done l).1 := by
  induction l generalizing s done with
  | nil => exact hk
  | cons w r ih =>
    simp only [State.windowWords]
    split
    · exact hk
    · exact ih (keeps_poisonRow (keeps_setWord (keeps_visWrite hk)))

@[simp] theorem keeps_windowSlice {s₀ s : State} {cl row col h done : Nat} (hk : Keeps s₀ s) :
    Keeps s₀ (s.windowSlice cl row col h done).1 := keeps_windowWords hk

@[simp] theorem keeps_windowAttempt {s₀ s : State} {cl row h : Nat} {stalls : Nat → Bool} {ch : Chain} (hk : Keeps s₀ s) :
    Keeps s₀ (s.windowAttempt cl row h stalls ch).1 := by
  unfold State.windowAttempt
  have hf (l : List Nat) (f : State × Chain × Bool → Nat → State × Chain × Bool) (hf : ∀ a c, Keeps a.1 (f a c).1)
      (a : State × Chain × Bool) (ha : Keeps s₀ a.1) : Keeps s₀ (l.foldl f a).1 := by
    induction l generalizing a with
    | nil => exact ha
    | cons c r ih => exact ih _ (ha.trans (hf a c))
  refine hf _ _ (fun a c => ?_) _ hk
  dsimp only
  split
  · exact .refl _
  · exact keeps_windowSlice (.refl _)

@[simp] theorem keeps_chainRecord {s₀ s : State} {cl row : Nat} {ch : Chain} {cause : Nat} {va : Word} {write hostfile : Bool} (hk : Keeps s₀ s) :
    Keeps s₀ (State.chainRecord s cl row ch cause va write hostfile) := by
  simp [State.chainRecord, hk]

@[simp] theorem keeps_endChain {s₀ s : State} {cl row : Nat} {ch : Chain} {status opc : Nat} {repair : Bool} (hk : Keeps s₀ s) :
    Keeps s₀ (State.endChain s cl row ch status opc repair) := by
  simp [State.endChain, hk]

@[simp] theorem preserves_trapRow {s₀ s : State} {cl row : Nat} {e : Exc} (hk : Keeps s₀ s) :
    Preserves s₀ (State.trapRow s cl row e) :=
  preserves_foldl (fun t _ => preserves_turnTo ((preserves_turnTo (.refl t)).step (keeps_takeTrap (.refl _)))) hk.preserves

@[simp] theorem keeps_chainIntr {s₀ s : State} {cl row : Nat} (hk : Keeps s₀ s) :
    Keeps s₀ (State.chainIntr s cl row) := by
  unfold State.chainIntr
  split
  · exact hk
  · split
    · exact hk
    · exact keeps_endChain (keeps_blockOpc hk)

@[simp] theorem preserves_chainStop {s₀ s : State} {cl row : Nat} {ch : Chain} {opc : Nat} {st : ChainStop} (hk : Keeps s₀ s) :
    Preserves s₀ (State.chainStop s cl row ch opc st) := by
  unfold State.chainStop
  cases st with
  | fault f => exact (keeps_endChain (keeps_chainRecord hk)).preserves
  | wx va hostfile => exact preserves_trapRow (keeps_endChain (keeps_chainRecord hk))
  | ends st => exact (keeps_endChain hk).preserves
  | stall => exact hk.preserves

@[simp] theorem keeps_blockEnd {s₀ s : State} {cl row h : Nat} {ch : Chain} {o : BlockOut} (hk : Keeps s₀ s) :
    Keeps s₀ (State.blockEnd s cl row h ch o) := by
  simp [State.blockEnd, hk]

@[simp] theorem accKeeps_transfer {s₀ : State} {next : Word} {links : List Word} {sat poisoned : Bool} :
    AccKeeps s₀ (transfer next links sat poisoned) := by
  unfold transfer
  exact accKeeps_parts

@[simp] theorem accKeeps_wSel {s₀ : State} {cl row : Nat} {ch : Chain} {h : Nat} : AccKeeps s₀ (wSel cl row ch h) := by
  unfold wSel
  exact accKeeps_parts

@[simp] theorem accKeeps_wCall {s₀ : State} {ch : Chain} {h : Nat} : AccKeeps s₀ (wCall ch h) := by
  unfold wCall
  exact accKeeps_parts

@[simp] theorem accKeeps_wRet {s₀ : State} {ch : Chain} : AccKeeps s₀ (wRet ch) := by
  unfold wRet
  exact accKeeps_parts

@[simp] theorem accKeeps_wOutMem {s₀ : State} {e : Eng} {cl row : Nat} {ch : Chain} {h : Nat} :
    AccKeeps s₀ (wOutMem e cl row ch h) := by
  unfold wOutMem
  exact accKeeps_parts

@[simp] theorem accKeeps_runBlock {s₀ : State} {cl row : Nat} {ch : Chain} {h : Nat} : AccKeeps s₀ (runBlock cl row ch h) := by
  unfold runBlock
  exact accKeeps_parts

@[simp] theorem preserves_runWindow {s₀ s : State} {cl row : Nat} {ch : Chain} {h : Nat} (hk : Keeps s₀ s) :
    Preserves s₀ (State.runWindow s cl row ch h) := by
  unfold State.runWindow
  have hr := keeps_runAcc (accKeeps_planeCheck (cl := cl) (h := h)) hk
  dsimp only
  split
  next heq => rw [heq] at hr; exact preserves_chainStop hr
  next =>
    refine preserves_ite.2 ⟨fun _ => (keeps_endChain hk).preserves, fun _ => preserves_ite.2 ⟨fun _ => (keeps_setRow.2 hk).preserves,
      fun _ => preserves_ite.2 ⟨fun _ => (keeps_blockEnd (keeps_windowAttempt hk)).preserves,
        fun _ => (keeps_setRow.2 (keeps_windowAttempt hk)).preserves⟩⟩⟩

@[simp] theorem preserves_runHeader {s₀ s : State} {cl row : Nat} {ch : Chain} {h : Nat} (hk : Keeps s₀ s) :
    Preserves s₀ (State.runHeader s cl row ch h) := by
  unfold State.runHeader
  split
  · exact preserves_runWindow hk
  · have hr := keeps_runAcc (accKeeps_runBlock (cl := cl) (row := row) (ch := ch) (h := h)) hk
    split
    next heq => rw [heq] at hr; exact (keeps_blockEnd (keeps_poisonRow hr)).preserves
    next heq => rw [heq] at hr; exact preserves_chainStop (keeps_poisonRow hr)

@[simp] theorem preserves_chainBlock {s₀ s : State} {op cl row : Nat} (hk : Keeps s₀ s) :
    Preserves s₀ (State.chainBlock op cl row s) := by
  unfold State.chainBlock
  split
  · exact hk.preserves
  next ch _ =>
    split
    · exact hk.preserves
    · split
      · exact (keeps_chainIntr hk).preserves
      · split
        · split
          · exact hk.preserves
          · exact preserves_runHeader hk
        · have hr := keeps_runAcc (accKeeps_chainUnit (e := ch.eng cl) (va := ch.block)) hk
          split
          next heq => rw [heq] at hr; exact preserves_chainStop (keeps_blockOpc (keeps_poisonRow hr))
          next heq => rw [heq] at hr; exact preserves_chainStop (keeps_poisonRow hr)
          next heq =>
            rw [heq] at hr
            dsimp only
            split
            · exact (keeps_endChain (keeps_chainRecord (keeps_poisonRow hr))).preserves
            · split
              · exact hk.preserves
              · exact preserves_runHeader (keeps_poisonRow hr)

@[simp] theorem preserves_chainMismatch {s₀ s : State} {cl row col h : Nat} {ch : Chain} (hk : Keeps s₀ s) :
    Preserves s₀ (State.chainMismatch s cl row col h ch) := by
  unfold State.chainMismatch
  dsimp only
  split
  · exact (keeps_charge (keeps_setRow.2 hk)).preserves
  · exact preserves_trapRow (keeps_endChain hk)

end Sys2Proof.Machine
end

section
/- The proofs given as default arguments are elaborated one after another: many at once take a stack each. -/
set_option Elab.async false

namespace Sys2Proof.Machine

/-! Copy engines, codecs, published commands and frames. -/

@[simp] theorem keeps_cmdRecord {s₀ s : State} {c : Cmd} {cause : Nat} {va : Word} {write hostfile : Bool} (hk : Keeps s₀ s) :
    Keeps s₀ (State.cmdRecord s c cause va write hostfile) := by
  simp [State.cmdRecord, hk]

@[simp] theorem accKeeps_readSource {s₀ : State} {e : Eng} {a0 : List (Word × Nat)} : AccKeeps s₀ (readSource e a0) := by
  induction a0 with
  | nil => simp [readSource]
  | cons _ _ ih =>
    simp only [readSource]
    exact accKeeps_parts

@[simp] theorem accKeeps_unitDataRead {s₀ : State} {c : Cmd} {a : Word} {n u : Nat} : AccKeeps s₀ (unitData.read c a n u) := by
  unfold unitData.read
  exact accKeeps_bind accKeeps_readSource fun _ => accKeeps_pure _

@[simp] theorem accKeeps_unitData {s₀ : State} {c : Cmd} {a : Word} {n u : Nat} {cache : Option CpData} :
    AccKeeps s₀ (unitData c a n u cache) := by
  unfold unitData
  split
  · split
    · exact accKeeps_pure _
    · exact accKeeps_unitDataRead
  · exact accKeeps_unitDataRead

@[simp] theorem accKeeps_pieceData {s₀ : State} {c : Cmd} {us : List CpUnit} {p : CpPiece} {cache : Option CpData} :
    AccKeeps s₀ (pieceData c us p cache) := by
  unfold pieceData
  exact accKeeps_parts

@[simp] theorem accKeeps_sectorData {s₀ : State} {c : Cmd} {us : List CpUnit} {a0 : List CpPiece} {a1 : Option CpData} :
    AccKeeps s₀ (sectorData c us a0 a1) := by
  induction a0 generalizing a1 with
  | nil => simp [sectorData]
  | cons _ _ ih =>
    simp only [sectorData]
    exact accKeeps_parts

@[simp] theorem accKeeps_writePieces {s₀ : State} {c : Cmd} {a0 : List (CpPiece × CpData)} : AccKeeps s₀ (writePieces c a0) := by
  induction a0 with
  | nil => simp [writePieces]
  | cons _ _ ih =>
    simp only [writePieces]
    exact accKeeps_parts

@[simp] theorem accKeeps_writeSector {s₀ : State} {c : Cmd} {pa : Nat} {ps : List (CpPiece × CpData)} :
    AccKeeps s₀ (writeSector c pa ps) := by
  unfold writeSector
  exact accKeeps_parts

@[simp] theorem accKeeps_pageRecords {s₀ : State} {c : Cmd} {a0 : List EngFault} {a1 : List Word} :
    AccKeeps s₀ (pageRecords c a0 a1) := by
  induction a0 generalizing a1 with
  | nil => simp [pageRecords]
  | cons _ _ ih =>
    simp only [pageRecords]
    exact accKeeps_parts

@[simp] theorem accKeeps_copySector {s₀ : State} {c : Cmd} {us : List CpUnit} {last : Nat} {k : Nat × List CpPiece} {r : CpRun} :
    AccKeeps s₀ (copySector c us last k r) := by
  unfold copySector
  exact accKeeps_parts

@[simp] theorem accKeeps_copyRun {s₀ : State} {c : Cmd} {us : List CpUnit} {last : Nat} {a0 : List (Nat × List CpPiece)} {a1 : CpRun} :
    AccKeeps s₀ (copyRun c us last a0 a1) := by
  induction a0 generalizing a1 with
  | nil => simp [copyRun]
  | cons _ _ ih =>
    simp only [copyRun]
    exact accKeeps_parts

@[simp] theorem accKeeps_writeRecord {s₀ : State} {c : Cmd} {status bytes aux : Nat} :
    AccKeeps s₀ (writeRecord c status bytes aux) := by
  unfold writeRecord
  exact accKeeps_parts

@[simp] theorem accKeeps_partialRecord {s₀ : State} {c : Cmd} : AccKeeps s₀ (partialRecord c) := by
  unfold partialRecord
  exact accKeeps_parts

@[simp] theorem accKeeps_copySettle {s₀ : State} {c : Cmd} {r : CpRun} : AccKeeps s₀ (copySettle c r) := by
  unfold copySettle
  exact accKeeps_parts

@[simp] theorem accKeeps_copyExec {s₀ : State} {c : Cmd} {again : Bool} : AccKeeps s₀ (copyExec c again) := by
  unfold copyExec
  exact accKeeps_parts

@[simp] theorem keeps_putCmd {s₀ s : State} {c : Cmd} (hk : Keeps s₀ s) :
    Keeps s₀ (State.putCmd s c) := by
  simp [State.putCmd, hk]

@[simp] theorem keeps_startCopy {s₀ s : State} {op cl ce q : Nat} (hk : Keeps s₀ s) :
    Keeps s₀ (State.startCopy op cl ce q s) := by
  unfold State.startCopy
  split
  · exact hk
  · split
    · exact hk
    · split
      next heq => exact keeps_putCmd (keeps_of_runAcc heq accKeeps_copyExec hk)
      · exact hk

@[simp] theorem keeps_badReplay {s₀ s : State} {c : Cmd} (hk : Keeps s₀ s) :
    Keeps s₀ (State.badReplay s c) := by
  simp [State.badReplay, hk]

@[simp] theorem keeps_startReplay {s₀ s : State} {cl ce q : Nat} (hk : Keeps s₀ s) :
    Keeps s₀ (State.startReplay cl ce q s) := by
  unfold State.startReplay
  split
  · exact hk
  · split
    · exact hk
    · split
      · split
        · exact keeps_badReplay hk
        · split
          next heq => exact keeps_putCmd (keeps_putCmd (keeps_of_runAcc heq accKeeps_copyExec hk))
          · exact hk
      · exact keeps_badReplay hk

@[simp] theorem accKeeps_codecExec {s₀ : State} {c : Cmd} : AccKeeps s₀ (codecExec c) := by
  unfold codecExec
  refine accKeeps_bind accKeeps_engRead fun inp => ?_
  extract_lets tail
  have htail (harq) : AccKeeps s₀ (tail harq) := by
    refine accKeeps_get_bind fun t ht => accKeeps_bind (accKeeps_set ht) fun _ => accKeeps_bind (accKeeps_eats _) fun _ =>
      accKeeps_bind (accKeeps_engTry accKeeps_engWrite) fun r => ?_
    split
    · exact accKeeps_bind accKeeps_ate fun _ => accKeeps_pure _
    · exact accKeeps_bind (by simp) fun _ => accKeeps_bind accKeeps_ate fun _ => accKeeps_pure _
  split
  · exact accKeeps_bind accKeeps_engRead htail
  · exact accKeeps_bind (accKeeps_pure _) htail

@[simp] theorem keeps_startCodec {s₀ s : State} {op n : Nat} (hk : Keeps s₀ s) :
    Keeps s₀ (State.startCodec op n s) := by
  unfold State.startCodec
  split
  · exact hk
  · split
    · exact hk
    · split
      next heq => exact keeps_putCmd (keeps_of_runAcc heq accKeeps_codecExec hk)
      next heq => exact keeps_putCmd (keeps_cmdRecord (keeps_of_runAcc heq accKeeps_codecExec hk))
      · exact hk

@[simp] theorem accKeeps_harqBack {s₀ : State} {c : Cmd} : AccKeeps s₀ (harqBack c) := by
  unfold harqBack
  exact accKeeps_parts

@[simp] theorem accKeeps_publishCmd {s₀ : State} {c : Cmd} : AccKeeps s₀ (publishCmd c) := by
  simp only [publishCmd]
  exact accKeeps_parts

@[simp] theorem keeps_publishOne {s₀ s : State} {c : Cmd} (hk : Keeps s₀ s) :
    Keeps s₀ (State.publishOne s c) := by
  unfold State.publishOne
  split
  · exact hk
  next d t ate heq =>
    have ht := keeps_of_runAcc heq accKeeps_publishCmd hk
    have hp (d : Cmd) : Keeps s₀ ((({ t with cmds := t.cmds.filter fun (c : Cmd) => !c.same d }).restartWaits (publishWakes d)).modHart
        d.hart (·.published d)) := keeps_modHart (by simp) (keeps_restartWaits ht)
    dsimp only
    split
    · exact keeps_countDown (hp { d with poisoned := d.poisoned || ate })
    · exact hp { d with poisoned := d.poisoned || ate }

@[simp] theorem keeps_publish {s₀ s : State} {n ctx : Nat} (hk : Keeps s₀ s) :
    Keeps s₀ (State.publish s n ctx) := by
  unfold State.publish
  split
  · exact hk
  next c _ =>
    split
    · exact hk
    · split
      · exact keeps_publishOne hk
      · exact keeps_publishOne hk
      · split
        · exact hk
        · have ht := fun d => keeps_putCmd (c := d) (keeps_cmdRecord (c := c) (cause := 2) (va := 0) (write := false) (hostfile := false) hk)
          dsimp only
          split
          · exact ht _
          · exact keeps_publishOne (ht _)
      · split
        · exact hk
        · split
          next heq => exact keeps_putCmd (keeps_of_runAcc heq accKeeps_partialRecord hk)
          · exact hk

@[simp] theorem keeps_portCount {s₀ s : State} {p i : Nat} (hk : Keeps s₀ s) :
    Keeps s₀ (State.portCount s p i) := by
  simp [State.portCount, hk]

@[simp] theorem keeps_landFrame {s₀ s : State} {p c n q : Nat} {frame : List Byte} {lost : Bool} (hk : Keeps s₀ s) :
    Keeps s₀ (State.landFrame s p c n q frame lost) := by
  unfold State.landFrame
  dsimp only
  split
  · exact keeps_portCount hk
  · split
    · exact keeps_portCount hk
    · split
      · exact keeps_portCount hk
      · split
        · exact keeps_bumpSat hk
        · exact keeps_modHart (by simp) (keeps_visWrite (keeps_visWrite hk))

/-- As `keeps_setBank`, from the limits that held at the start. -/
theorem keeps_setBank_of {s t : State} {c b : Nat} {k : Bank} (h : Keeps s t)
    (hk : BanksFit s.banks → k.level ≤ 0x40000 ∧ k.popped ≤ k.level) : Keeps s (t.setBank c b k) :=
  ⟨h.mem_wf, fun hb => (h.banks_fit hb).set (hk hb), h.num_eq, h.buf_sub, h.parked_sub⟩

theorem keeps_arrived {s t : State} {cl b chan : Nat} {data : List Byte} {bad : Bool}
    (h : s.arrive cl b chan data bad = .landed t ∨ s.arrive cl b chan data bad = .dropped t) : Keeps s t := by
  unfold State.arrive at h
  dsimp only at h
  split at h
  · simp at h
  · split at h
    · simp at h
    · split at h
      · simp only [reduceCtorEq, false_or, Arrival.dropped.injEq] at h
        exact h ▸ keeps_setBank (.refl s) id
      · split at h
        next hl =>
          simp only [reduceCtorEq, or_false, Arrival.landed.injEq] at h
          exact h ▸ keeps_restartWaits (keeps_setBank_of (keeps_ringWrite (.refl s)) fun hb =>
            ⟨hl, (hb (cl * 32 + b)).2.trans (Nat.le_add_right _ _)⟩)
        · simp at h

@[simp] theorem keeps_landSection {s₀ s : State} {p act : Nat} {data : List Byte} {bad : Bool} (hk : Keeps s₀ s) :
    Keeps s₀ (s.landSection p act data bad) := by
  unfold State.landSection
  dsimp only
  split
  next heq => exact hk.trans (keeps_arrived (.inl heq))
  next heq => exact keeps_portCount (hk.trans (keeps_arrived (.inr heq)))
  · exact keeps_portCount (keeps_bankDrop hk)
  · exact keeps_portCount hk
  · exact keeps_portCount hk

set_option maxRecDepth 20000 in
/-- One section of a frame and those after it. -/
theorem sections_succ {p fuel : Nat} {u : UFrame} {lost : Bool} {bs : List Byte} {s : State} :
    State.sections p u lost (fuel + 1) bs s =
      if bs.length < 4 then s
      else
        match s.flowFind p (uMatch u.sub u.eaxc u.dir (netAt bs 0 2 / 16)) with
        | none => s.portCount p 0
        | some act =>
          let comp := if bitAt act 28 then netAt bs 4 1 else 0
          let rest := bs.drop (if bitAt act 28 then 6 else 4)
          match sectionXf act (if bitAt act 28 then some comp else none) with
          | none => s.portCount p 2
          | some x =>
            let len := netAt bs 3 1 * prbBytes x.1 x.2
            if netAt bs 3 1 = 0 || rest.length < len then s.portCount p 2
            else
              let body := xfAll x.1 x.2 (if x.1 = 5 then swapPairs (rest.take len) else rest.take len)
              let hdr := if bitAt act 24 then
                sectionHeader (s.portNow p) u (netAt bs 0 2 / 16) (netAt bs 1 2 % 1024) (netAt bs 3 1) comp else []
              State.sections p u lost fuel (rest.drop len) (s.landSection p act (hdr ++ body) lost) := rfl

@[simp] theorem keeps_sections {s₀ s : State} {p fuel : Nat} {u : UFrame} {lost : Bool} {bs : List Byte} (hk : Keeps s₀ s) :
    Keeps s₀ (State.sections p u lost fuel bs s) := by
  induction fuel generalizing bs s with
  | zero => exact hk
  | succ fuel ih =>
    rw [sections_succ]
    refine keeps_ite.2 ⟨fun _ => hk, fun _ => ?_⟩
    split
    · exact keeps_portCount hk
    · dsimp only
      split
      · exact keeps_portCount hk
      · exact keeps_ite.2 ⟨fun _ => keeps_portCount hk, fun _ => ih (keeps_landSection hk)⟩

@[simp] theorem keeps_ecpri {s₀ s : State} {p sub : Nat} {frame bs : List Byte} {lost : Bool} (hk : Keeps s₀ s) :
    Keeps s₀ (State.ecpri s p sub frame bs lost) := by
  simp only [State.ecpri]
  repeat' split
  all_goals simp [hk]

@[simp] theorem keeps_takeLost {s₀ s : State} {k : Nat} (hk : Keeps s₀ s) :
    Keeps s₀ (State.takeLost s k) := by
  simp [State.takeLost, hk]

@[simp] theorem keeps_receive {s₀ s : State} {p sub : Nat} {fcsOk : Bool} {frame : List Byte} (hk : Keeps s₀ s) :
    Keeps s₀ (State.receive s p sub fcsOk frame) := by
  simp [State.receive, hk]

@[simp] theorem keeps_txDone {s₀ s : State} {p r : Nat} {late : Bool} (hk : Keeps s₀ s) :
    Keeps s₀ (State.txDone s p r late) := by
  simp only [State.txDone, keeps_mmioSet]
  have hw (a : Nat) (bs : List Byte) : Keeps s₀ (s.devWrite a bs) := keeps_devWrite hk
  repeat' split
  all_goals simp [hw]

@[simp] theorem keeps_txStart {s₀ s : State} {p r : Nat} (hk : Keeps s₀ s) :
    Keeps s₀ (State.txStart s p r) := by
  unfold State.txStart
  split
  · exact hk
  · refine keeps_ite.2 ⟨fun _ => hk, fun _ => keeps_ite.2 ⟨fun _ => keeps_txDone (keeps_l2Fill hk), fun _ =>
      keeps_ite.2 ⟨fun _ => keeps_l2Fill hk, fun _ => keeps_txDone ?_⟩⟩⟩
    exact keeps_ite.2 ⟨fun _ => keeps_portCount (keeps_takeLost (keeps_l2Fill (keeps_l2Fill hk))),
      fun _ => keeps_takeLost (keeps_l2Fill (keeps_l2Fill hk))⟩

end Sys2Proof.Machine
end

section
namespace Sys2Proof.Machine

/-! Messages, host submissions, the twin port, checked results, ECC, and the ends of waits. -/

@[simp] theorem keeps_activate {s₀ s : State} {q : Nat} (hk : Keeps s₀ s) :
    Keeps s₀ (State.activate s q) := by
  simp only [State.activate]
  repeat' split
  all_goals simp [hk]

@[simp] theorem keeps_retry {s₀ s : State} {p : Nat} (hk : Keeps s₀ s) :
    Keeps s₀ (State.retry s p) := by
  simp [State.retry, hk]

@[simp] theorem keeps_rejectRoot {s₀ s : State} {j : Job} {bs : List Byte} (hk : Keeps s₀ s) :
    Keeps s₀ (State.rejectRoot s j bs) := by
  have hw := keeps_devWrite (pa := j.pa + 0x60) (data := bytesOf 8 0) (bad := false)
    (keeps_devWrite (pa := j.pa + 0x28) (data := bytesOf 8 stRejected.toNat ++ bytesOf 8 s.dquNow) (bad := false) hk)
  unfold State.rejectRoot
  dsimp only
  split
  · exact keeps_sendCompletion hw
  · exact hw

@[simp] theorem keeps_acceptRoot {s₀ s : State} {p slot pa : Nat} {bs : List Byte} {bad : Bool} (hk : Keeps s₀ s) :
    Keeps s₀ (State.acceptRoot s p slot pa bs bad) := by
  simp [State.acceptRoot, hk]

@[simp] theorem keeps_takeRecord {s₀ s : State}  (hk : Keeps s₀ s) :
    Keeps s₀ (State.takeRecord s) := by
  simp only [State.takeRecord]
  repeat' split
  all_goals simp [hk]

@[simp] theorem keeps_submit {s₀ s : State} {p off : Nat} {bs : List Byte} {bad : Bool} (hk : Keeps s₀ s) :
    Keeps s₀ (State.submit s p off bs bad) := by
  simp [State.submit, hk]

@[simp] theorem keeps_portReset {s₀ s : State}  (hk : Keeps s₀ s) :
    Keeps s₀ (State.portReset s) := by
  have hf (l : List Nat) (now : Nat) (t : State) (h : Keeps s₀ t) :
      Keeps s₀ (l.foldl (fun s id => s.abandon id now (now + 2000) true) t) := keeps_foldl (fun _ _ => by simp) h
  exact keeps_portEvent (hf _ _ _ hk)

@[simp] theorem keeps_outsideWrite {s₀ s : State} {pa : Nat} {data : List Byte} {bad : Bool} (hk : Keeps s₀ s) :
    Keeps s₀ (State.outsideWrite s pa data bad) := by
  simp [State.outsideWrite, hk]

@[simp] theorem keeps_twinAtomic {s₀ s : State} {pa n : Nat} {bad : Bool} {f : Nat → Nat} (hk : Keeps s₀ s) :
    Keeps s₀ (State.twinAtomic s pa n bad f) := by
  simp [State.twinAtomic, hk]

@[simp] theorem keeps_twinServe {s₀ s : State} {pa : Nat} {op : TwinOp} (hk : Keeps s₀ s) :
    Keeps s₀ (State.twinServe s pa op) := by
  simp only [State.twinServe]
  repeat' split
  all_goals simp [hk]

@[simp] theorem keeps_twinResume {s₀ s : State}  (hk : Keeps s₀ s) :
    Keeps s₀ (State.twinResume s) := by
  simp [State.twinResume, hk]

@[simp] theorem keeps_spoil {s₀ s : State} {n : Nat} (hk : Keeps s₀ s) :
    Keeps s₀ (State.spoil s n) := by
  simp [State.spoil, hk]

@[simp] theorem keeps_lookahead {s₀ pre s : State} {n opens : Nat} {use : RegUse} {closes : Bool} (hk : Keeps s₀ s) :
    Keeps s₀ (lookahead n use closes opens pre s) := by
  have hl (t : State) (l : List LaWin) (h : Keeps s₀ t) : Keeps s₀ { t with cpu := { t.cpu with la := l } } := h
  have hs (l : List Nat) : Keeps s₀ (l.foldl State.spoil s) := keeps_foldl (fun _ _ => by simp) hk
  simp only [lookahead]
  repeat' split
  all_goals first | exact hk | exact hl _ _ hk | exact hl _ _ (hs _)

@[simp] theorem keeps_noteReplay {s₀ s : State}  (hk : Keeps s₀ s) :
    Keeps s₀ (State.noteReplay s) := by
  simp [State.noteReplay, hk]

@[simp] theorem keeps_mismatch {s₀ s : State} {w cause elem dclass : Nat} {lane : Option Nat} {mlane : Nat} (hk : Keeps s₀ s) :
    Keeps s₀ (State.mismatch s w cause elem dclass lane mlane) := by
  simp [State.mismatch, hk]

@[simp] theorem keeps_corrected {s₀ s : State}  (hk : Keeps s₀ s) :
    Keeps s₀ (State.corrected s) := by
  simp [State.corrected, hk]

@[simp] theorem keeps_laneCorrected {s₀ s : State} {lane reg byte : Nat} (hk : Keeps s₀ s) :
    Keeps s₀ (State.laneCorrected s lane reg byte) := by
  simp [State.laneCorrected, hk]

@[simp] theorem keeps_commandCorrected {s₀ s : State} {n ctx : Nat} (hk : Keeps s₀ s) :
    Keeps s₀ (State.commandCorrected s n ctx) := by
  unfold State.commandCorrected
  split <;> simp [hk]

@[simp] theorem keeps_poisonSector {s₀ s : State} {k : Nat} (hk : Keeps s₀ s) :
    Keeps s₀ (State.poisonSector s k) := by
  simp [State.poisonSector, hk]

@[simp] theorem keeps_poisonEntry {s₀ s : State} {pa : Nat} (hk : Keeps s₀ s) :
    Keeps s₀ (State.poisonEntry s pa) := by
  unfold State.poisonEntry
  split <;> simp [hk]

@[simp] theorem keeps_laneLost {s₀ s : State} {lane reg byte : Nat} (hk : Keeps s₀ s) :
    Keeps s₀ (State.laneLost s lane reg byte) := by
  simp [State.laneLost, hk]

@[simp] theorem preserves_poisonBuffered {s₀ s : State} {k : Nat} (hk : Keeps s₀ s) :
    Preserves s₀ (State.poisonBuffered s k) := by
  unfold State.poisonBuffered
  split
  · refine hk.preserves.trans ⟨id, id, fun hb n => ?_⟩
    have hn := hb n
    rw [getHart_buf] at hn ⊢
    split
    next e => rwa [if_pos e] at hn
    next e => rwa [if_neg e] at hn
  · exact hk.preserves

@[simp] theorem keeps_commandLost {s₀ s : State} {n ctx byte : Nat} (hk : Keeps s₀ s) :
    Keeps s₀ (State.commandLost s n ctx byte) := by
  unfold State.commandLost
  split <;> simp [hk]

@[simp] theorem keeps_lineToL2 {s₀ s : State} {line : Nat} {dom : Option (BitVec 12)} {dirty : Bool} (hk : Keeps s₀ s) :
    Keeps s₀ (State.lineToL2 s line dom dirty) := by
  simp [State.lineToL2, hk]

theorem keeps_landQueue {s t : State} {m : Msg} (h : s.landQueue m = some t) : Keeps s t := by
  unfold State.landQueue at h
  dsimp only at h
  repeat' split at h
  all_goals cases h
  all_goals first | exact keeps_dropMsg (.refl s) | exact keeps_modHart (by simp) (keeps_visWrite (.refl s))

theorem keeps_landMsg {s t : State} {m : Msg} (h : s.landMsg m = some t) : Keeps s t := by
  unfold State.landMsg at h
  split at h
  · split at h
    next heq => cases h; exact keeps_arrived (.inl heq)
    next heq => cases h; exact keeps_arrived (.inr heq)
    next => cases h; simp
    next => cases h
    next => cases h
  · exact keeps_landQueue h

@[simp] theorem keeps_landIdx {s₀ s : State} {i : Nat} (hk : Keeps s₀ s) : Keeps s₀ (s.landIdx i) := by
  unfold State.landIdx
  split
  · exact hk
  · split
    · exact hk
    · split
      · exact hk
      next t heq =>
        have ht : Keeps s₀ t := hk.trans (keeps_landMsg heq)
        dsimp only
        split
        · exact keeps_restartWaits ht
        · exact ht

@[simp] theorem keeps_reclaimLate {s₀ s : State} {cl row : Nat} (hk : Keeps s₀ s) :
    Keeps s₀ (State.reclaimLate s cl row) := by
  unfold State.reclaimLate
  dsimp only
  split
  · exact hk
  · have f (t : State) (d : Dqu) (h : Keeps s₀ t) : Keeps s₀ { t with dqu := d } := h
    exact keeps_ite.2 ⟨fun _ => hk, fun _ => keeps_sendBack (f _ _ (keeps_mmioSet.2 hk))⟩

@[simp] theorem keeps_budgetStop {s₀ s : State} {t : TaskRun} (hk : Keeps s₀ s) :
    Keeps s₀ (State.budgetStop s t) := by
  refine keeps_foldl (fun u n => ?_) (keeps_modJob (keeps_faultRecord hk))
  split
  · split
    · exact keeps_forcedStop (.refl u)
    · exact keeps_modHart (by simp) (.refl u)
  · exact .refl u

@[simp] theorem keeps_interruptAt {s₀ s : State} {code : Nat} (hk : Keeps s₀ s) :
    Keeps s₀ (State.interruptAt s code) := by
  simp only [State.interruptAt]
  repeat' split
  all_goals simp [hk]

@[simp] theorem keeps_endWait {s₀ s : State} {p : WaitOn → Bool} (hk : Keeps s₀ s) :
    Keeps s₀ (State.endWait s p) := by
  unfold State.endWait
  split <;> simp [hk]

end Sys2Proof.Machine
end

section
namespace Sys2Proof.Machine

/-! Bodies of meanings. -/

/-- The hart whose turn it is may enter into its buffer what leaves it within its limit. -/
theorem preserves_cpu {t : State} {h : Hart} (hn : h.num = t.cpu.num)
    (hb : (bufSectors t.cpu.buf).length ≤ 512 → (bufSectors h.buf).length ≤ 512) : Preserves t { t with cpu := h } := by
  refine ⟨id, id, fun hs n => ?_⟩
  have ht := hs n
  rw [getHart_buf] at ht ⊢
  split
  next e => rw [if_pos (e.trans hn)] at ht; exact hb ht
  next e => rwa [if_neg fun c => e (c.trans hn.symm)] at ht

section
variable {α β γ : Type} {s : State}

/-- Whatever a body comes to, it preserves what s has, from every state that has it. -/
def Preserving (s : State) (m : M α) : Prop := ∀ t, Preserves s t → Preserves s (runM m t).2

@[simp] theorem preserving_pure (a : α) : Preserving s (pure a : M α) := fun _ h => h
@[simp] theorem preserving_throw (e : Stop) : Preserving s (throw e : M α) := fun _ h => h
@[simp] theorem preserving_get : Preserving s (get : M State) := fun _ h => h
@[simp] theorem preserving_cpu : Preserving s cpu := fun _ h => h

theorem preserving_set {u : State} (h : Preserves s u) : Preserving s (set u : M PUnit) := fun _ _ => h

@[simp] theorem preserving_modify {f : State → State} (hf : ∀ t, Keeps t (f t)) : Preserving s (modify f : M PUnit) :=
  fun t h => h.step (hf t)

/-- A change of the hart whose turn it is that keeps its number and adds nothing to its buffer. -/
@[simp] theorem preserving_modCpu {f : Hart → Hart} (hf : ∀ h, (f h).num = h.num ∧ (f h).buf.Sublist h.buf) :
    Preserving s (modCpu f) :=
  fun _ h => h.step ⟨id, id, (hf _).1, (hf _).2, fun _ _ => .refl _⟩

@[simp] theorem preserving_modVec {f : Vec → Vec} : Preserving s (modVec f) := preserving_modCpu fun _ => ⟨rfl, .refl _⟩
@[simp] theorem preserving_modCsr {f : Csrs → Csrs} : Preserving s (modCsr f) := preserving_modCpu fun _ => ⟨rfl, .refl _⟩

theorem preserving_bind {m : M α} {f : α → M β} (hm : Preserving s m) (hf : ∀ a, Preserving s (f a)) : Preserving s (m >>= f) := by
  intro t h
  have h1 := hm t h
  rw [runM_bind]
  generalize runM m t = r at h1
  obtain ⟨a | a, u⟩ := r
  · exact h1
  · exact hf a u h1

theorem preserving_get_bind {f : State → M β} (hf : ∀ t, Preserves s t → Preserving s (f t)) : Preserving s (get >>= f) :=
  fun t h => hf t h t h

/-- A sequence whose first part gives results with a property. -/
theorem preserving_bind_of {p : α → Prop} {m : M α} {f : α → M β} (hm : Preserving s m)
    (hp : ∀ t a u, runM m t = (.ok a, u) → p a) (hf : ∀ a, p a → Preserving s (f a)) : Preserving s (m >>= f) := by
  intro t h
  have h1 := hm t h
  have h2 := hp t
  rw [runM_bind]
  generalize runM m t = r at h1 h2
  obtain ⟨a | a, u⟩ := r
  · exact h1
  · exact hf a (h2 a u rfl) u h1

/-- What a handler makes of a body's outcome. -/
theorem runM_tryCatch (m : M α) (f : Stop → M α) (s : State) :
    runM (tryCatch m f) s = match runM m s with | (.ok a, t) => (.ok a, t) | (.error e, t) => runM (f e) t := by
  show StateT.run (ExceptT.tryCatch m f).run s = _
  unfold ExceptT.tryCatch
  rw [ExceptT.run_mk, StateT.run_bind]
  cases h : StateT.run m s with
  | mk r t =>
    rw [show runM m s = (r, t) from h]
    cases r <;> rfl

theorem preserving_tryCatch {m : M α} {f : Stop → M α} (hm : Preserving s m) (hf : ∀ e, Preserving s (f e)) :
    Preserving s (tryCatch m f) := by
  intro t h
  have h1 := hm t h
  rw [runM_tryCatch]
  generalize runM m t = r at h1
  obtain ⟨a | a, u⟩ := r
  · exact hf a u h1
  · exact h1

theorem preserving_mapM {f : α → M β} {l : List α} (hf : ∀ a, Preserving s (f a)) : Preserving s (l.mapM f) := by
  induction l with
  | nil => exact preserving_pure _
  | cons a r ih =>
    rw [List.mapM_cons]
    exact preserving_bind (hf a) fun _ => preserving_bind ih fun _ => preserving_pure _

theorem preserving_forM {f : α → M PUnit} {l : List α} (hf : ∀ a, Preserving s (f a)) : Preserving s (l.forM f) := by
  induction l with
  | nil => exact preserving_pure _
  | cons a r ih => exact preserving_bind (hf a) fun _ => ih

theorem preserving_forIn {f : α → β → M (ForInStep β)} {l : List α} {b : β} (hf : ∀ a b, Preserving s (f a b)) :
    Preserving s (forIn l b f) := by
  induction l generalizing b with
  | nil => exact preserving_pure _
  | cons a r ih =>
    rw [List.forIn_cons]
    refine preserving_bind (hf a b) fun x => ?_
    cases x with
    | done b => exact preserving_pure _
    | yield b => exact ih

@[simp] theorem preserving_checked {ctr : Word} {m : M α} (hm : Preserving s m) : Preserving s (checked ctr m) :=
  preserving_tryCatch hm fun _ => preserving_bind (preserving_modCpu fun _ => ⟨rfl, .refl _⟩) fun _ => preserving_throw _

@[simp] theorem preserving_asSlot {q elem : Nat} {sink : Bool} {va : Word} {m : M α} (hm : Preserving s m) :
    Preserving s (asSlot q sink va elem m) :=
  preserving_tryCatch hm fun e => by cases e <;> exact preserving_throw _

@[simp] theorem preserving_atElem {i : Nat} {m : M α} (hm : Preserving s m) : Preserving s (atElem i m) :=
  preserving_tryCatch hm fun e => by cases e <;> exact preserving_throw _

/-- How a body is taken apart: by its sequences, its branches and its loops, until only steps with a lemma of their own are left. -/
theorem preserving_parts {m : M α} (h : Preserving s m := by
    repeat' first
      | with_reducible refine preserving_get_bind fun _ _ => ?_
      | with_reducible refine preserving_bind ?_ fun _ => ?_
      | with_reducible refine preserving_checked ?_
      | with_reducible refine preserving_asSlot ?_
      | with_reducible refine preserving_atElem ?_
      | with_reducible refine preserving_tryCatch ?_ fun _ => ?_
      | with_reducible refine preserving_mapM fun _ => ?_
      | with_reducible refine preserving_forM fun _ => ?_
      | with_reducible refine preserving_forIn fun _ _ => ?_
      | split
      | dsimp only
    all_goals first
      | simp; done
      | exact preserving_set (.step ‹Preserves _ _› (by simp))
      | exact preserving_modify fun _ => by simp
      | simp [*]) : Preserving s m := h

end

/-- A body that keeps more: it does what a device may do to the hart. -/
def Keeping {α : Type} (m : M α) : Prop := ∀ t, Keeps t (runM m t).2

theorem Keeping.preserving {α : Type} {s : State} {m : M α} (h : Keeping m) : Preserving s m := fun t ht => ht.step (h t)

theorem keeping_bind {α β : Type} {m : M α} {f : α → M β} (hm : Keeping m) (hf : ∀ a, Keeping (f a)) : Keeping (m >>= f) := by
  intro t
  have h1 := hm t
  rw [runM_bind]
  generalize runM m t = r at h1
  obtain ⟨a | a, u⟩ := r
  · exact h1
  · exact h1.trans (hf a u)

end Sys2Proof.Machine
end

section
/- The proofs given as default arguments are elaborated one after another: many at once take a stack each. -/
set_option Elab.async false

namespace Sys2Proof.Machine

/-! Bodies that raise, translate, commit, load, store and unbind, and those of the standard integer instructions. -/

@[simp] theorem preserving_raise {s : State} {α : Type} {cause : Nat} {tval : Word} :
    Preserving s (raise cause tval : M α) := by
  unfold raise
  exact preserving_parts

@[simp] theorem preserving_raiseAt {s : State} {α : Type} {cause : Nat} {tval : Word} {elem : Option Nat} :
    Preserving s (raiseAt cause tval elem : M α) := by
  unfold raiseAt
  exact preserving_parts

@[simp] theorem preserving_illegal {s : State} {α : Type} :
    Preserving s (illegal  : M α) := by
  unfold illegal
  exact preserving_parts

@[simp] theorem preserving_need {s : State} {b : Bool} :
    Preserving s (need b : M Unit) := by
  unfold need
  exact preserving_parts

@[simp] theorem preserving_waitFor {s : State} {α : Type} {on : WaitOn} {va : Word} {elem : Nat} :
    Preserving s (waitFor on va elem : M α) := by
  unfold waitFor
  exact preserving_parts

@[simp] theorem preserving_waitTimed {s : State} {α : Type} {on : WaitOn} {va : Word} {elem : Nat} :
    Preserving s (waitTimed on va elem : M α) := by
  unfold waitTimed
  exact preserving_parts

@[simp] theorem preserving_getX {s : State} {r : Reg} :
    Preserving s (getX r : M Word) := by
  unfold getX
  exact preserving_parts

@[simp] theorem preserving_putX {s : State} {r : Reg} {v : Word} :
    Preserving s (putX r v : M Unit) := by
  unfold putX
  exact preserving_parts

@[simp] theorem preserving_putXp {s : State} {r : Reg} {v : Word} {p : Bool} :
    Preserving s (putXp r v p : M Unit) := by
  unfold putXp
  exact preserving_parts

@[simp] theorem preserving_consume {s : State} {p : Bool} :
    Preserving s (consume p : M Unit) := by
  unfold consume
  exact preserving_parts

@[simp] theorem preserving_raisePsn {s : State} {α : Type} :
    Preserving s (raisePsn  : M α) := by
  unfold raisePsn
  exact preserving_parts

@[simp] theorem preserving_useX {s : State} {r : Reg} :
    Preserving s (useX r : M Word) := by
  unfold useX
  exact preserving_parts

@[simp] theorem preserving_dataX {s : State} {r : Reg} :
    Preserving s (dataX r : M (Word × Bool)) := by
  unfold dataX
  exact preserving_parts

@[simp] theorem preserving_freshWord {s : State}  :
    Preserving s (freshWord  : M Word) := by
  unfold freshWord
  exact preserving_parts

@[simp] theorem preserving_onVc {s : State}  :
    Preserving s (onVc  : M Unit) := by
  unfold onVc
  exact preserving_parts

@[simp] theorem preserving_onSc {s : State}  :
    Preserving s (onSc  : M Unit) := by
  unfold onSc
  exact preserving_parts

@[simp] theorem preserving_inTask {s : State}  :
    Preserving s (inTask  : M TaskRun) := by
  unfold inTask
  exact preserving_parts

@[simp] theorem preserving_advance {s : State} {n : Nat} :
    Preserving s (advance n : M Unit) := by
  unfold advance
  exact preserving_parts

/-- A translation fills the TLBs at most. -/
theorem keeps_xlat {s t : State} {acc : Acc} {va : Word} {x : Xlat} (h : xlat s acc va = .ok (x, t)) : Keeps s t := by
  unfold xlat at h
  dsimp only at h
  split at h
  · cases h; simp
  · split at h
    · cases h
    · split at h
      · cases h
      · split at h
        · cases h
          have f (u : State) (l : List TlbEntry) (hu : Keeps s u) : Keeps s { u with cpu := { u.cpu with tlb := l } } := hu
          refine keeps_eats.2 (keeps_ite.2 ⟨fun _ => f _ _ ?_, fun _ => ?_⟩) <;> simp
        · cases h

@[simp] theorem preserving_translate {s : State} {acc : Acc} {va : Word} {elem : Option Nat} :
    Preserving s (translate acc va elem) := by
  unfold translate
  refine preserving_get_bind fun t ht => ?_
  split
  · exact preserving_parts
  next heq => exact preserving_bind (preserving_set (ht.step (keeps_xlat heq))) fun _ => preserving_pure _

@[simp] theorem preserving_commit {s : State} : Preserving s commit := by
  unfold commit
  exact preserving_parts

/-- A commit that completes leaves the strip buffer empty. -/
theorem runM_commit_buf {t u : State} (h : runM commit t = (.ok (), u)) : u.cpu.buf = [] := by
  unfold commit at h
  rw [runM_bind_ok (runM_get t), runM_bind_ok (runM_set _ t)] at h
  split at h
  · split at h
    · cases h
    next hc => cases h; exact commit_buf hc
  · cases h

@[simp] theorem preserving_sendNow {s : State} {m : Msg} :
    Preserving s (sendNow m : M Unit) := by
  unfold sendNow
  exact preserving_parts

@[simp] theorem preserving_drainSlot {s : State} {i : Nat} :
    Preserving s (drainSlot i : M Unit) := by
  unfold drainSlot
  exact preserving_parts

@[simp] theorem preserving_drainSinks {s : State}  :
    Preserving s (drainSinks  : M Unit) := by
  unfold drainSinks
  exact preserving_parts

@[simp] theorem preserving_endTask {s : State} {result : Option (Word × Bool)} :
    Preserving s (endTask result : M Unit) := by
  unfold endTask
  exact preserving_parts

@[simp] theorem preserving_commitPoint {s : State}  :
    Preserving s (commitPoint  : M Unit) := by
  unfold commitPoint
  exact preserving_parts

@[simp] theorem preserving_obey {s : State} {v : Verdict} {va : Word} {elem : Option Nat} :
    Preserving s (obey v va elem : M Unit) := by
  unfold obey
  exact preserving_parts

@[simp] theorem preserving_twinRead {s : State} {n : Nat} {va : Word} {elem : Option Nat} :
    Preserving s (twinRead n va elem : M (Nat × Bool)) := by
  unfold twinRead
  exact preserving_parts

@[simp] theorem preserving_hostRead {s : State} {bus n : Nat} {va : Word} {elem : Option Nat} :
    Preserving s (hostRead bus n va elem : M (Nat × Bool)) := by
  unfold hostRead
  exact preserving_parts

/-- An MMIO load changes what its register says of itself at most. -/
theorem keeps_mmioLoad {s t : State} {off n v : Nat} (h : s.mmioLoad off n = some (v, t)) : Keeps s t := by
  unfold State.mmioLoad at h
  split at h
  · cases h
  · cases h
    split <;> exact .refl s

theorem keeping_twinRead {n : Nat} {va : Word} {elem : Option Nat} : Keeping (twinRead n va elem) := by
  intro t
  unfold twinRead
  rw [runM_bind_ok (runM_get t), runM_bind_ok (runM_set _ t)]
  split <;> exact .refl t

theorem keeping_hostRead {bus n : Nat} {va : Word} {elem : Option Nat} : Keeping (hostRead bus n va elem) := by
  intro t
  unfold hostRead
  rw [runM_bind_ok (runM_get t)]
  split <;> exact .refl t

theorem keeping_readPhys {pa n : Nat} {va : Word} {elem : Option Nat} : Keeping (readPhys pa n va elem) := by
  intro t
  unfold readPhys
  rw [runM_bind_ok (runM_get t)]
  split
  · split
    next heq => exact keeps_mmioLoad heq
    next => exact .refl t
  · exact keeping_bind keeping_hostRead (fun _ _ => .refl _) t
  · exact keeping_bind keeping_twinRead (fun _ _ => .refl _) t
  · exact .refl t

@[simp] theorem preserving_readPhys {s : State} {pa n : Nat} {va : Word} {elem : Option Nat} :
    Preserving s (readPhys pa n va elem) := keeping_readPhys.preserving

@[simp] theorem preserving_asks {s : State} {x : Xlat} {n : Nat} :
    Preserving s (asks x n : M Unit) := by
  unfold asks
  exact preserving_parts

@[simp] theorem preserving_scalarLoad {s : State} {va : Word} {n : Nat} :
    Preserving s (scalarLoad va n : M (Nat × Bool)) := by
  unfold scalarLoad
  exact preserving_parts

/-- A store of few bytes alone is within the limit of a strip buffer. -/
theorem bufSectors_single {a : Nat} {d : List Byte} {sc : BitVec 2} {p : Bool} (hd : d.length ≤ 8192) :
    (bufSectors [.store a d sc p]).length ≤ 512 := by
  have nodup : (bufSectors [.store a d sc p]).Nodup := (bufSectors_pairwise _).imp fun h => ne_of_lt h
  refine (nodup.subperm (l₂ := (BufEntry.store a d sc p).sectors) fun k hk => ?_).length_le.trans ?_
  · obtain ⟨e, he, hk⟩ := mem_bufSectors.mp hk
    rwa [List.mem_singleton.mp he] at hk
  · unfold BufEntry.sectors sectorOf
    rw [List.length_map, List.length_range]
    split <;> omega

/-- A store of few bytes enters the strip buffer within its limit: a full buffer commits first. -/
@[simp] theorem preserving_putStore {s : State} {pa : Nat} {data : List Byte} {scope : BitVec 2} {bad : Bool} {va : Word} {elem : Nat}
    (hd : data.length ≤ 8192) : Preserving s (putStore pa data scope bad va elem) := by
  intro t ht
  unfold putStore
  rw [runM_bind_ok (runM_get t)]
  dsimp only
  split
  · split
    next hfit => exact ht.trans (preserves_cpu rfl fun _ => hfit)
    next =>
      split
      · exact ht
      · have hc := preserving_commit t ht
        rw [runM_bind]
        cases hr : runM commit t with
        | mk r u =>
          rw [hr] at hc
          cases r with
          | error e => exact hc
          | ok a =>
            refine hc.trans (preserves_cpu rfl fun _ => ?_)
            show (bufSectors (_ :: u.cpu.buf)).length ≤ 512
            rw [runM_commit_buf hr]
            exact bufSectors_single hd
  · split
    · exact ht
    · exact ht.step (keeps_performEntry (.refl t))

@[simp] theorem preserving_scalarStore {s : State} {va : Word} {n v : Nat} {bad : Bool} (hn : n ≤ 8192) :
    Preserving s (scalarStore va n v bad) := by
  have hp (x : Xlat) : Preserving s (putStore x.pa (bytesOf n v) scopeDevice bad va 0) :=
    preserving_putStore (by rwa [bytesOf_length])
  unfold scalarStore
  exact preserving_parts

@[simp] theorem preserving_checkParts {s : State} {acc : Acc} {strict : Bool} {elem : Option Nat} {l : List (Word × Nat)} :
    Preserving s (checkParts acc strict elem l) := by
  induction l with
  | nil => exact preserving_pure _
  | cons p r ih =>
    unfold checkParts
    exact preserving_parts

theorem runM_bind_eq_ok {α β : Type} {m : M α} {f : α → M β} {s u : State} {b : β} (h : runM (m >>= f) s = (.ok b, u)) :
    ∃ a t, runM m s = (.ok a, t) ∧ runM (f a) t = (.ok b, u) := by
  rw [runM_bind] at h
  generalize runM m s = r at h
  obtain ⟨a | a, t⟩ := r
  · cases h
  · exact ⟨a, t, rfl, h⟩

/-- Checked pieces are as long as the parts they come from. -/
theorem checkParts_length {acc : Acc} {strict : Bool} {elem : Option Nat} {l : List (Word × Nat)} {n : Nat} (hl : ∀ p ∈ l, p.2 ≤ n)
    {s u : State} {ps : List (Nat × Nat × Word)} (h : runM (checkParts acc strict elem l) s = (.ok ps, u)) : ∀ p ∈ ps, p.2.1 ≤ n := by
  induction l generalizing s ps with
  | nil => cases h; simp
  | cons p r ih =>
    unfold checkParts at h
    obtain ⟨x, s1, _, h⟩ := runM_bind_eq_ok h
    obtain ⟨_, s2, _, h⟩ := runM_bind_eq_ok h
    obtain ⟨_, s3, _, h⟩ := runM_bind_eq_ok h
    obtain ⟨_, s4, _, h⟩ := runM_bind_eq_ok h
    obtain ⟨rest, s5, hr, h⟩ := runM_bind_eq_ok h
    cases h
    exact List.forall_mem_cons.2 ⟨hl p List.mem_cons_self, ih (fun q hq => hl q (List.mem_cons_of_mem _ hq)) hr⟩

theorem parts_length {va : Word} {n : Nat} : ∀ p ∈ parts va n, p.2 ≤ n := by
  unfold parts
  dsimp only
  split
  · simp
  · simp only [List.forall_mem_cons, List.not_mem_nil, false_implies, implies_true, and_true]
    omega

@[simp] theorem preserving_readPieces {s : State} {elem : Option Nat} {a0 : List (Nat × Nat × Word)} :
    Preserving s (readPieces elem a0 : M (Nat × Bool)) := by
  induction a0 with
  | nil => exact preserving_pure _
  | cons _ _ ih =>
    unfold readPieces
    exact preserving_parts

theorem keeping_readElem {elem : Option Nat} {ps : List (Nat × Nat × Word)} : Keeping (readElem elem ps) := by
  have h (l : List (Nat × Nat × Word)) : Keeping (readPieces elem l) := by
    induction l with
    | nil => exact fun t => .refl t
    | cons p r ih => exact keeping_bind keeping_readPhys fun _ => keeping_bind ih fun _ t => .refl t
  exact h _

@[simp] theorem preserving_readElem {s : State} {elem : Option Nat} {ps : List (Nat × Nat × Word)} :
    Preserving s (readElem elem ps) := keeping_readElem.preserving

@[simp] theorem preserving_readPieceBytes {s : State}  {a0 : List (Nat × Nat × Word)} :
    Preserving s (readPieceBytes  a0 : M (List Byte × Bool)) := by
  induction a0 with
  | nil => exact preserving_pure _
  | cons _ _ ih =>
    unfold readPieceBytes
    exact preserving_parts

@[simp] theorem preserving_readRecord {s : State} {va : Word} {n : Nat} :
    Preserving s (readRecord va n : M (List Byte × Bool)) := by
  unfold readRecord
  exact preserving_parts

@[simp] theorem preserving_baseBody {s : State} {n : Nat} {b : Base} :
    Preserving s (baseBody n b : M Unit) := by
  unfold baseBody
  exact preserving_parts

/-- A message counts as no sector. -/
@[simp] theorem preserving_pushMsg {s : State} {m : Hart → Msg} :
    Preserving s (modCpu fun h => { h with buf := .msg (m h) :: h.buf }) :=
  fun _ h => h.trans (preserves_cpu rfl id)

@[simp] theorem preserving_holdMsg {s : State} {m : Msg} {elem : Nat} : Preserving s (holdMsg m elem) := by
  unfold holdMsg
  exact preserving_parts

@[simp] theorem preserving_closeMsg {s : State} {i : Nat} :
    Preserving s (closeMsg i : M Unit) := by
  unfold closeMsg
  exact preserving_parts

@[simp] theorem preserving_unbind {s : State} {i : Nat} :
    Preserving s (unbind i : M Unit) := by
  unfold unbind
  exact preserving_parts

@[simp] theorem preserving_unbindAll {s : State}  :
    Preserving s (unbindAll  : M Unit) := by
  unfold unbindAll
  exact preserving_parts

@[simp] theorem preserving_setVcfg {s : State} {req : Nat} {bad : Bool} :
    Preserving s (setVcfg req bad : M Nat) := by
  unfold setVcfg
  exact preserving_parts

end Sys2Proof.Machine
end

section
/- The proofs given as default arguments are elaborated one after another: many at once take a stack each. -/
set_option Elab.async false

namespace Sys2Proof.Machine

/-! Bodies of CSR accesses, spawns, commands, tags, vector operands and destinations, and scalar floating point. -/

@[simp] theorem preserving_csrPut {s : State} {n : Nat} {v : Word} {bad : Bool} :
    Preserving s (csrPut n v bad : M Unit) := by
  unfold csrPut
  exact preserving_parts

@[simp] theorem preserving_csrAccess {s : State} {n : Nat} {write : Bool} {f : Word → Word} {bad : Bool} :
    Preserving s (csrAccess n write f bad : M Word) := by
  unfold csrAccess
  exact preserving_parts

@[simp] theorem preserving_jobOfTask {s : State} {t : TaskRun} :
    Preserving s (jobOfTask t : M Job) := by
  unfold jobOfTask
  exact preserving_parts

@[simp] theorem preserving_jobPoint {s : State} {t : TaskRun} :
    Preserving s (jobPoint t : M Job) := by
  unfold jobPoint
  exact preserving_parts

@[simp] theorem preserving_spawn {s : State} {t : TaskRun} {va : Word} {n : Nat} :
    Preserving s (spawn t va n : M Nat) := by
  unfold spawn
  exact preserving_parts

@[simp] theorem preserving_takeMatFault {s : State} {covers : MatFault → Bool} :
    Preserving s (takeMatFault covers : M Unit) := by
  unfold takeMatFault
  exact preserving_parts

@[simp] theorem preserving_readCommand {s : State} {a : Word} :
    Preserving s (readCommand a : M Nat) := by
  unfold readCommand
  exact preserving_parts

@[simp] theorem preserving_commandOnce {s : State} {a : Word} :
    Preserving s (commandOnce a : M Nat) := by
  unfold commandOnce
  exact preserving_parts

@[simp] theorem preserving_acquireUpTo {s : State} {c n : Nat} :
    Preserving s (acquireUpTo c n : M Unit) := by
  unfold acquireUpTo
  exact preserving_parts

@[simp] theorem preserving_acquireTags {s : State} {m : Word} :
    Preserving s (acquireTags m : M Unit) := by
  unfold acquireTags
  exact preserving_parts

@[simp] theorem preserving_drawing {s : State} {α : Type} {d : Draw α} :
    Preserving s (drawing d : M α) := by
  unfold drawing
  exact preserving_parts

@[simp] theorem preserving_raiseStream {s : State} {α : Type} {slot reason : Nat} :
    Preserving s (raiseStream slot reason : M α) := by
  unfold raiseStream
  exact preserving_parts

/-- What a read that keeps the buffer leaves of it is put back. -/
theorem preserving_pastBuffer {α : Type} {s : State} {m : M α} (hm : Keeping m) : Preserving s (pastBuffer m) := by
  intro t ht
  refine ht.trans ?_
  have h1 := hm { t with cpu := { t.cpu with buf := [] } }
  unfold pastBuffer
  rw [runM_bind_ok (runM_cpu t)]
  dsimp only
  rw [runM_bind_ok (runM_modCpu _ t), runM_bind, runM_tryCatch]
  generalize runM m { t with cpu := { t.cpu with buf := [] } } = r at h1
  obtain ⟨a | a, u⟩ := r
  all_goals exact Keeps.preserves ⟨h1.mem_wf, h1.banks_fit, h1.num_eq, .refl _, h1.parked_sub⟩

@[simp] theorem preserving_readMem {s : State} {va : Word} {n elem : Nat} : Preserving s (readMem va n elem) := by
  unfold readMem
  exact preserving_bind preserving_checkParts fun _ => preserving_pastBuffer keeping_readElem

theorem ewB_le (v : Vec) : v.ewB ≤ 8 := by
  have h : bitsAt v.vcfg.toNat 0 2 ≤ 3 := by unfold bitsAt; omega
  exact Nat.pow_le_pow_right (by decide) h

theorem fmtB_le (v : Vec) (code : Nat) : v.fmtB code ≤ 8 := by
  unfold Vec.fmtB
  split
  · exact ewB_le v
  all_goals decide

@[simp] theorem preserving_popRead {s : State} {q : Nat} {sl : Slot} {act : Nat → Bool} {seen : List Popped} :
    Preserving s (popRead q sl act seen : M Popped) := by
  unfold popRead
  exact preserving_parts

@[simp] theorem preserving_readOpnd {s : State} {act : Nat → Bool} {o : Opnd} {seen : List Popped} :
    Preserving s (readOpnd act o seen : M Gotten) := by
  unfold readOpnd
  exact preserving_parts

@[simp] theorem preserving_readOpnds {s : State} {act : Nat → Nat → Bool} {k : Nat} {l : List Opnd} {seen : List Popped} :
    Preserving s (readOpnds act k l seen) := by
  induction l generalizing k seen with
  | nil => exact preserving_pure _
  | cons o r ih => exact preserving_bind preserving_readOpnd fun _ => preserving_bind ih fun _ => preserving_pure _

@[simp] theorem preserving_raiseLatch {s : State} {α : Type} {w reason : Nat} :
    Preserving s (raiseLatch w reason : M α) := by
  unfold raiseLatch
  exact preserving_parts

@[simp] theorem preserving_winCheck {s : State} {w : Nat} {idx : List Nat} :
    Preserving s (winCheck w idx : M Unit) := by
  unfold winCheck
  exact preserving_parts

@[simp] theorem preserving_winPut {s : State} {w : Nat} {ctr : Word} {a0 : List (Nat × List (Nat × El))} {a1 : Nat} :
    Preserving s (winPut w ctr a0 a1 : M Unit) := by
  induction a0 generalizing a1 with
  | nil => exact preserving_pure _
  | cons _ _ ih =>
    unfold winPut
    exact preserving_parts

@[simp] theorem preserving_winWrite {s : State} {w : Nat} {ctr : Word} {es : List (Nat × El)} :
    Preserving s (winWrite w ctr es : M Unit) := by
  unfold winWrite
  exact preserving_parts

@[simp] theorem preserving_destUse {s : State} {reg : Nat} :
    Preserving s (destUse reg : M Unit) := by
  unfold destUse
  exact preserving_parts

@[simp] theorem preserving_destCheck {s : State} {reg : Nat} {idx : List Nat} {before : Nat} :
    Preserving s (destCheck reg idx before : M Unit) := by
  unfold destCheck
  exact preserving_parts

@[simp] theorem preserving_destChecks {s : State} {idx : List Nat} {a0 : Nat} {a1 : List Nat} :
    Preserving s (destChecks idx a0 a1 : M Unit) := by
  induction a1 generalizing a0 with
  | nil => exact preserving_pure _
  | cons _ _ ih =>
    unfold destChecks
    exact preserving_parts

theorem preserving_storeMemGo {s : State} {sc : BitVec 2} {bad : Bool} {elem : Nat} {ps : List (Nat × Nat × Word)} {v : Nat}
    (h : ∀ p ∈ ps, p.2.1 ≤ 8192) : Preserving s (storeMem.go bad elem sc ps v) := by
  induction ps generalizing v with
  | nil => exact preserving_pure _
  | cons p r ih =>
    exact preserving_bind (preserving_putStore (by rw [bytesOf_length]; exact h p List.mem_cons_self)) fun _ =>
      ih fun q hq => h q (List.mem_cons_of_mem _ hq)

@[simp] theorem preserving_storeMem {s : State} {va : Word} {n val : Nat} {bad : Bool} {elem : Nat} (hn : n ≤ 8192) :
    Preserving s (storeMem va n val bad elem) := by
  unfold storeMem
  refine preserving_bind_of preserving_checkParts (fun _ _ _ h => checkParts_length parts_length h) fun ps hps => ?_
  exact preserving_bind preserving_cpu fun _ => preserving_storeMemGo fun p hp => (hps p hp).trans hn

@[simp] theorem preserving_storeEach {s : State} {ctr : Word} {first : Nat} {f : Nat → M Unit} {a0 : List Nat} (hf : ∀ x0, Preserving s (f x0)) :
    Preserving s (storeEach ctr first f a0 : M Unit) := by
  induction a0 with
  | nil => exact preserving_pure _
  | cons _ _ ih =>
    unfold storeEach
    exact preserving_parts

@[simp] theorem preserving_storeAll {s : State} {ctr : Word} {f : Nat → M Unit} {is : List Nat} (hf : ∀ x0, Preserving s (f x0)) :
    Preserving s (storeAll ctr f is : M Unit) := by
  unfold storeAll
  exact preserving_parts

@[simp] theorem preserving_closeOne {s : State} {q : Nat} {sl : Slot} {d l : Word} :
    Preserving s (closeOne q sl d l : M Unit) := by
  unfold closeOne
  exact preserving_parts

@[simp] theorem preserving_closeFull {s : State} {reg fuel : Nat} : Preserving s (closeFull reg fuel) := by
  induction fuel with
  | zero => exact preserving_modCpu fun _ => ⟨rfl, .refl _⟩
  | succ k ih =>
    unfold closeFull
    exact preserving_parts

@[simp] theorem preserving_destForm {s : State} {reg : Nat} {es : List (Nat × El)} :
    Preserving s (destForm reg es : M (List (Nat × El))) := by
  unfold destForm
  exact preserving_parts

@[simp] theorem preserving_destStores {s : State} {ctr : Word} {k reg : Nat} {raw : List (Nat × El)} :
    Preserving s (destStores ctr k reg raw) := by
  unfold destStores
  refine preserving_bind preserving_cpu fun h => ?_
  dsimp only
  split
  · split
    · exact preserving_pure _
    · refine preserving_storeEach fun i => ?_
      split
      · exact preserving_asSlot (preserving_storeMem ((fmtB_le _ _).trans (by decide)))
      · exact preserving_pure _
  · exact preserving_pure _

@[simp] theorem preserving_destLand {s : State} {reg : Nat} {raw : List (Nat × El)} :
    Preserving s (destLand reg raw : M Unit) := by
  unfold destLand
  exact preserving_parts

@[simp] theorem preserving_writeDests {s : State} {ctr : Word} {ds : List (Nat × List (Nat × El))} :
    Preserving s (writeDests ctr ds : M Unit) := by
  unfold writeDests
  exact preserving_parts

@[simp] theorem preserving_vbadCheck {s : State}  :
    Preserving s (vbadCheck  : M Unit) := by
  unfold vbadCheck
  exact preserving_parts

@[simp] theorem preserving_vecFnExec {s : State} {f : VecFn} {o : VOp} :
    Preserving s (VecFn.exec f o : M Unit) := by
  unfold VecFn.exec
  exact preserving_parts

@[simp] theorem preserving_keyExec {s : State} {o : VOp} {cfg : Vec → Bool} {srcs : List Opnd}
    {comp : Vec → List (List El) → List Nat → List Bool} :
    Preserving s (keyExec o cfg srcs comp : M Unit) := by
  unfold keyExec
  exact preserving_parts

@[simp] theorem preserving_scalarExec {s : State} {o : VOp} {psn : Bool} {cfg : Vec → Bool} {srcs : List Opnd} {one : Nat}
    {comp : Vec → List (List El) → El} :
    Preserving s (scalarExec o psn cfg srcs one comp : M Unit) := by
  unfold scalarExec
  exact preserving_parts

@[simp] theorem preserving_elementwise {s : State} {o : VOp} {cfg : Vec → Bool} {srcs : List Opnd} {f : Vec → List Nat → Draw Nat} :
    Preserving s (elementwise o cfg srcs f : M Unit) := by
  unfold elementwise
  exact preserving_parts

@[simp] theorem preserving_joinHinge {s : State} {j : Join} : Preserving s (joinHinge j) := by
  unfold joinHinge
  refine preserving_get_bind fun t ht => ?_
  extract_lets h w js w' u u' ordered
  have hu : Keeps t u' := keeps_ite.2 ⟨fun _ => .refl t, fun _ => keeps_restartRow (.refl t)⟩
  split
  · exact preserving_bind (preserving_set (ht.step hu)) fun _ => preserving_waitFor
  · split
    · split
      · exact preserving_bind (preserving_set (ht.step (keeps_startDrive (keeps_eats.2 hu)))) fun _ => preserving_waitFor
      · exact preserving_set (ht.step (keeps_issueMatrix (keeps_eats.2 hu)))
    · exact preserving_bind (preserving_set (ht.trans (preserves_hingeOthers (keeps_setRow.2 hu)))) fun _ => preserving_throw _

@[simp] theorem preserving_rowTask {s : State} {a : Word} :
    Preserving s (rowTask a : M Unit) := by
  unfold rowTask
  exact preserving_parts

@[simp] theorem preserving_waitingJoin {s : State} {isDrive : Bool} :
    Preserving s (waitingJoin isDrive : M (Option Join)) := by
  unfold waitingJoin
  exact preserving_parts

@[simp] theorem preserving_mgangBody {s : State} {rd rs1 : Reg} {cfg : Vec → Bool} {form : Nat → M AForm}
    (hform : ∀ x0, Preserving s (form x0)) :
    Preserving s (mgangBody rd rs1 cfg form : M Unit) := by
  unfold mgangBody
  exact preserving_parts

@[simp] theorem preserving_cxExec {s : State} {o : VOp} {srcs : List Opnd} {f : (Nat → Cx) → List FV × List FV} :
    Preserving s (cxExec o srcs f : M Unit) := by
  unfold cxExec
  exact preserving_parts

@[simp] theorem preserving_bflyExec {s : State} {o : VOp} {tw : Cx → Cx} :
    Preserving s (bflyExec o tw : M Unit) := by
  unfold bflyExec
  exact preserving_parts

@[simp] theorem preserving_fpExact {s : State} {o : VOp} {srcs : List Opnd} {f : Rm → List FV → FV} :
    Preserving s (fpExact o srcs f : M Unit) := by
  unfold fpExact
  exact preserving_parts

@[simp] theorem preserving_fpRounded {s : State} {o : VOp} {f : Vec → Nat → FV → FV → RR} :
    Preserving s (fpRounded o f : M Unit) := by
  unfold fpRounded
  exact preserving_parts

@[simp] theorem preserving_fpUnary {s : State} {o : VOp} {f : Vec → Nat → FV → RR} :
    Preserving s (fpUnary o f : M Unit) := by
  unfold fpUnary
  exact preserving_parts

@[simp] theorem preserving_fpCompare {s : State} {o : VOp} {f : FV → FV → Bool} :
    Preserving s (fpCompare o f : M Unit) := by
  unfold fpCompare
  exact preserving_parts

@[simp] theorem preserving_accExec {s : State} {o : VOp} {cfg : Vec → Bool} {body : Hart → Row → M Unit}
    (hbody : ∀ x0 x1, Preserving s (body x0 x1)) :
    Preserving s (accExec o cfg body : M Unit) := by
  unfold accExec
  exact preserving_parts

@[simp] theorem preserving_readF {s : State} {f : FpFmt} {r : Reg} :
    Preserving s (readF f r : M (Nat × Bool)) := by
  unfold readF
  exact preserving_parts

@[simp] theorem preserving_accrue {s : State} {fl : BitVec 5} {bad : Bool} :
    Preserving s (accrue fl bad : M Unit) := by
  unfold accrue
  exact preserving_parts

@[simp] theorem preserving_putF {s : State} {f : FpFmt} {rd : Reg} {r : FpRes} {bad : Bool} :
    Preserving s (putF f rd r bad : M Unit) := by
  unfold putF
  exact preserving_parts

@[simp] theorem preserving_putXf {s : State} {rd : Reg} {v : Word} {fl : BitVec 5} {bad : Bool} :
    Preserving s (putXf rd v fl bad : M Unit) := by
  unfold putXf
  exact preserving_parts

@[simp] theorem preserving_roundingOf {s : State} {rm : BitVec 3} :
    Preserving s (roundingOf rm : M (Rm × Bool)) := by
  unfold roundingOf
  exact preserving_parts

@[simp] theorem preserving_fpBody {s : State} {op : FpOp} :
    Preserving s (fpBody op : M Unit) := by
  unfold fpBody
  exact preserving_parts

end Sys2Proof.Machine
end

section
/- The proofs given as default arguments are elaborated one after another: many at once take a stack each. -/
set_option Elab.async false

namespace Sys2Proof.Machine

/-! Bodies of vector loads and stores: what they check are pieces of at most 8192 bytes, so that the sectors
of one element fit in an empty buffer. -/

/-- What a body's results have in common, when it completes. -/
def Gives {α : Type} (m : M α) (p : α → Prop) : Prop := ∀ t a u, runM m t = (.ok a, u) → p a

theorem gives_pure {α : Type} {p : α → Prop} {a : α} (h : p a) : Gives (pure a : M α) p := fun _ _ _ e => by cases e; exact h

theorem gives_raisePsn {α : Type} {p : α → Prop} : Gives (raisePsn : M α) p := fun _ _ _ h => by cases h

theorem gives_bind {α β : Type} {q : α → Prop} {p : β → Prop} {m : M α} {f : α → M β} (hm : Gives m q)
    (hf : ∀ a, q a → Gives (f a) p) :
    Gives (m >>= f) p := fun _ _ _ h => by
  obtain ⟨a, t, h1, h2⟩ := runM_bind_eq_ok h
  exact hf a (hm _ _ _ h1) _ _ _ h2

theorem gives_any {α : Type} {m : M α} : Gives m fun _ => True := fun _ _ _ _ => trivial

theorem gives_checked {α : Type} {p : α → Prop} {ctr : Word} {m : M α} (hm : Gives m p) : Gives (checked ctr m) p := by
  intro t a u h
  unfold checked at h
  rw [runM_tryCatch] at h
  have h1 := hm t
  generalize runM m t = r at h h1
  obtain ⟨b | b, v⟩ := r
  · obtain ⟨_, _, _, h⟩ := runM_bind_eq_ok h
    cases h
  · cases h
    exact h1 _ _ rfl

theorem gives_drawing {α : Type} {p : α → Prop} {d : Draw α} (h : ∀ g, p (d.run g).1) : Gives (drawing d) p := by
  intro t a u e
  cases e
  exact h _

/-- What is drawn for the elements of a list is drawn for no other. -/
theorem draw_mapM_mem {α β : Type} {f : α → Draw β} {l : List α} (g : Rng) :
    ∀ e ∈ ((l.mapM fun p => do return (p, ← f p) : Draw (List (α × β))).run g).1, e.1 ∈ l := by
  induction l generalizing g with
  | nil => exact fun _ he => nomatch he
  | cons a r ih =>
    intro e he
    rw [List.mapM_cons] at he
    have he : e ∈ (a, ((f a).run g).1) :: ((r.mapM fun p => do return (p, ← f p) : Draw (List (α × β))).run ((f a).run g).2).1 := he
    rcases List.mem_cons.1 he with rfl | he
    · exact List.mem_cons_self
    · exact List.mem_cons_of_mem _ (ih _ e he)

/-- Pieces that a store may enter into the strip buffer. -/
def SmallPieces (ps : Pieces) : Prop := ∀ p ∈ ps, p.2.1 ≤ 8192

theorem checkParts_small {acc : Acc} {elem : Option Nat} {va : Word} {n : Nat} (hn : n ≤ 8192) :
    Gives (checkParts acc false elem (parts va n)) SmallPieces :=
  fun _ _ _ h p hp => (checkParts_length parts_length h p hp).trans hn

@[simp] theorem preserving_checkElems {s : State} {acc : Acc} {b : Nat} {l : List (Nat × Word)} :
    Preserving s (checkElems acc b l) := by
  induction l with
  | nil => exact preserving_pure _
  | cons p r ih => exact preserving_bind preserving_checkParts fun _ => preserving_bind ih fun _ => preserving_pure _

theorem checkElems_small {acc : Acc} {b : Nat} (hb : b ≤ 8192) {l : List (Nat × Word)} :
    Gives (checkElems acc b l) fun r => ∀ p ∈ r, SmallPieces p.2 := by
  induction l with
  | nil => exact gives_pure (by simp)
  | cons p r ih =>
    exact gives_bind (checkParts_small hb) fun ps hps => gives_bind ih fun rest hr => gives_pure (List.forall_mem_cons.2 ⟨hps, hr⟩)

@[simp] theorem preserving_readElems {s : State}  {a0 : List (Nat × Pieces)} :
    Preserving s (readElems  a0 : M (List (Nat × El))) := by
  induction a0 with
  | nil => exact preserving_pure _
  | cons _ _ ih =>
    unfold readElems
    exact preserving_parts

theorem preserving_storePieces {s : State} {val : Nat} {bad : Bool} {elem : Nat} {ps : Pieces} (h : SmallPieces ps) :
    Preserving s (storePieces val bad elem ps) := by
  induction ps generalizing val with
  | nil => exact preserving_pure _
  | cons p r ih =>
    have hp := h p List.mem_cons_self
    exact preserving_bind preserving_cpu fun _ => preserving_bind (preserving_putStore (by rwa [bytesOf_length])) fun _ =>
      ih fun q hq => h q (List.mem_cons_of_mem _ hq)

@[simp] theorem preserving_memVec {s : State} {o : VOp} {cfg : Vec → Bool} {body : Hart → M Unit} (hbody : ∀ x0, Preserving s (body x0)) :
    Preserving s (memVec o cfg body : M Unit) := by
  unfold memVec
  exact preserving_parts

@[simp] theorem preserving_loadDest {s : State} {ctr : Word} {reg : Nat} {es : List (Nat × El)} {got : List Gotten} :
    Preserving s (loadDest ctr reg es got : M Unit) := by
  unfold loadDest
  exact preserving_parts

@[simp] theorem preserving_loadVec {s : State} {o : VOp} {f : AddrForm} : Preserving s (loadVec o f) := by
  unfold loadVec
  refine preserving_memVec fun h => ?_
  exact preserving_parts

theorem preserving_popTakes {s : State} {l : List Popped} : Preserving s (modify fun t => l.foldl State.popTake t) :=
  preserving_modify fun _ => keeps_foldl (fun _ _ => keeps_popTake (.refl _)) (.refl _)

@[simp] theorem preserving_storeVec {s : State} {o : VOp} {f : AddrForm} : Preserving s (storeVec o f) := by
  unfold storeVec
  refine preserving_memVec fun h => ?_
  extract_lets v idx act b
  refine preserving_bind_of (p := fun r => ∀ p ∈ r.2.2, SmallPieces p.2) preserving_parts (gives_checked ?_) fun r hr => ?_
  · refine gives_bind gives_any fun got _ => gives_bind gives_any fun ops _ => ?_
    split
    · exact gives_raisePsn
    · exact gives_bind (checkElems_small ((fmtB_le _ _).trans (by decide))) fun ps hps => gives_pure hps
  · refine preserving_bind preserving_consume fun _ => ?_
    refine preserving_bind_of (p := fun raw => ∀ e ∈ raw, e.1 ∈ r.2.2) preserving_drawing (gives_drawing draw_mapM_mem) fun raw hraw => ?_
    refine preserving_bind (preserving_storeAll fun i => ?_) fun _ => preserving_popTakes
    split
    next e he => exact preserving_storePieces (hr _ (hraw _ (List.mem_of_find?_eq_some he)))
    · exact preserving_pure _

@[simp] theorem preserving_checkBlocks {s : State} {acc : Acc} {o : VOp} {h : Hart} {b len : Nat} {last : Option Nat} {l : List Nat} :
    Preserving s (checkBlocks acc o h b len last l) := by
  induction l generalizing last with
  | nil => exact preserving_pure _
  | cons i r ih =>
    unfold checkBlocks
    exact preserving_parts

theorem checkBlocks_small {acc : Acc} {o : VOp} {h : Hart} {b len : Nat} {last : Option Nat} (hb : b ≤ 8192) {l : List Nat} :
    Gives (checkBlocks acc o h b len last l) fun r => ∀ p ∈ r, (∀ q, p.2.1 = some q → SmallPieces q) ∧ SmallPieces p.2.2 := by
  induction l generalizing last with
  | nil => exact gives_pure (by simp)
  | cons i r ih =>
    have rest (sc : Option Pieces) (hsc : ∀ q, sc = some q → SmallPieces q) (hd : Word) :
        Gives (do
          let ps ← checkParts acc false (some i) (parts hd b)
          let rest ← checkBlocks acc o h b len (some (i / len)) r
          return (i, sc, ps) :: rest) fun r => ∀ p ∈ r, (∀ q, p.2.1 = some q → SmallPieces q) ∧ SmallPieces p.2.2 :=
      gives_bind (checkParts_small hb) fun ps hps => gives_bind ih fun rest hr => gives_pure (List.forall_mem_cons.2 ⟨⟨hsc, hps⟩, hr⟩)
    unfold checkBlocks
    dsimp only
    split
    · exact gives_bind (gives_pure (p := fun x => x = none) rfl) fun sc hsc => rest sc (by simp [hsc]) _
    · exact gives_bind (checkParts_small (by decide)) fun ps hps => gives_bind
        (gives_pure (p := fun x => ∀ q, x = some q → SmallPieces q) fun q hq => by cases hq; exact hps) fun sc hsc => rest sc hsc _

@[simp] theorem preserving_readBlocks {s : State} {scale : El} {l : List (Nat × Option Pieces × Pieces)} :
    Preserving s (readBlocks scale l) := by
  induction l generalizing scale with
  | nil => exact preserving_pure _
  | cons p r ih =>
    unfold readBlocks
    exact preserving_parts

@[simp] theorem preserving_checkKey {s : State} {acc : Acc} {o : VOp} {h : Hart} {l : List (Nat × Nat)} :
    Preserving s (checkKey acc o h l) := by
  induction l with
  | nil => exact preserving_pure _
  | cons p r ih => exact preserving_bind preserving_checkParts fun _ => preserving_bind ih fun _ => preserving_pure _

theorem checkKey_small {acc : Acc} {o : VOp} {h : Hart} {l : List (Nat × Nat)} :
    Gives (checkKey acc o h l) fun r => ∀ p ∈ r, SmallPieces p.2.2 := by
  induction l with
  | nil => exact gives_pure (by simp)
  | cons p r ih =>
    exact gives_bind (checkParts_small (by decide)) fun ps hps => gives_bind ih fun rest hr =>
      gives_pure (List.forall_mem_cons.2 ⟨hps, hr⟩)

@[simp] theorem preserving_readKey {s : State}  {a0 : List (Nat × Nat × Pieces)} :
    Preserving s (readKey  a0 : M (List (Nat × El))) := by
  induction a0 with
  | nil => exact preserving_pure _
  | cons _ _ ih =>
    unfold readKey
    exact preserving_parts

@[simp] theorem preserving_vamoCheck {s : State} {i b : Nat} {a : Word} :
    Preserving s (vamoCheck i b a : M Nat) := by
  unfold vamoCheck
  exact preserving_parts

@[simp] theorem preserving_vamoChecks {s : State} {b : Nat} {a0 : List (Nat × Word)} :
    Preserving s (vamoChecks b a0 : M (List (Nat × Nat))) := by
  induction a0 with
  | nil => exact preserving_pure _
  | cons _ _ ih =>
    unfold vamoChecks
    exact preserving_parts

@[simp] theorem preserving_vamoBody {s : State} {o : VOp} {stop : Option VamoStop} :
    Preserving s (vamoBody o stop : M Unit) := by
  unfold vamoBody
  exact preserving_parts

@[simp] theorem preserving_latchTarget {s : State} {va : Word} {n : Nat} {load : Bool} :
    Preserving s (latchTarget va n load : M (Nat × Nat × Nat)) := by
  unfold latchTarget
  exact preserving_parts

@[simp] theorem preserving_latchLoad {s : State} {rd rs1 : Reg} {n : Nat} {consuming : Bool} :
    Preserving s (latchLoad rd rs1 n consuming : M Unit) := by
  unfold latchLoad
  exact preserving_parts

@[simp] theorem preserving_latchStore {s : State} {rs2 rs1 : Reg} {n : Nat} :
    Preserving s (latchStore rs2 rs1 n : M Unit) := by
  unfold latchStore
  exact preserving_parts

@[simp] theorem preserving_mmioWriteBody {s : State} {off size v : Nat} :
    Preserving s (mmioWriteBody off size v : M Unit) := by
  unfold mmioWriteBody
  exact preserving_parts

@[simp] theorem preserving_stopHere {s : State}  :
    Preserving s (stopHere  : M Unit) := by
  unfold stopHere
  exact preserving_parts

@[simp] theorem preserving_amoPlace {s : State} {pa cause : Nat} {mapped : Bool} {va : Word} {elem : Option Nat} :
    Preserving s (amoPlace pa cause mapped va elem : M AmoPlace) := by
  unfold amoPlace
  exact preserving_parts

@[simp] theorem preserving_twinAtomicOld {s : State} {n : Nat} {va : Word} :
    Preserving s (twinAtomicOld n va : M Nat) := by
  unfold twinAtomicOld
  exact preserving_parts

@[simp] theorem preserving_stopBelowM {s : State}  :
    Preserving s (stopBelowM  : M Unit) := by
  unfold stopBelowM
  exact preserving_parts

@[simp] theorem preserving_useEpc {s : State} {csr : Nat} :
    Preserving s (useEpc csr : M Unit) := by
  unfold useEpc
  exact preserving_parts

@[simp] theorem preserving_outsideStrip {s : State}  :
    Preserving s (outsideStrip  : M Unit) := by
  unfold outsideStrip
  exact preserving_parts

@[simp] theorem preserving_confBody {s : State} {rd : Reg} {req : Nat} :
    Preserving s (confBody rd req : M Unit) := by
  unfold confBody
  exact preserving_parts

@[simp] theorem preserving_stripBody {s : State} {rd : Reg} {req : Nat} :
    Preserving s (stripBody rd req : M Unit) := by
  unfold stripBody
  exact preserving_parts

@[simp] theorem preserving_intExec {s : State} {o : VOp} {f : Nat → Nat → Nat → Nat} :
    Preserving s (intExec o f : M Unit) := by
  unfold intExec
  exact preserving_parts

@[simp] theorem preserving_signedExec {s : State} {o : VOp} {f : Nat → Int → Int → Int} :
    Preserving s (signedExec o f : M Unit) := by
  unfold signedExec
  exact preserving_parts

@[simp] theorem preserving_intCompare {s : State} {o : VOp} {f : Nat → Nat → Nat → Bool} :
    Preserving s (intCompare o f : M Unit) := by
  unfold intCompare
  exact preserving_parts

@[simp] theorem preserving_keyOp {s : State} {o : VOp} {srcs : List (BitVec 6)} {bad : Hart → Bool} {f : Hart → Nat → Bool} :
    Preserving s (keyOp o srcs bad f : M Unit) := by
  unfold keyOp
  exact preserving_parts

@[simp] theorem preserving_keyOp2 {s : State} {o : VOp} {f : Bool → Bool → Bool} :
    Preserving s (keyOp2 o f : M Unit) := by
  unfold keyOp2
  exact preserving_parts

@[simp] theorem preserving_permute {s : State} {o : VOp} {srcs : List Opnd} {whole : Nat → Bool} {idx : Vec → List Nat}
    {pick : Vec → List (List El) → Nat → Nat × Nat} {psn : Vec → List (List El) → Bool} {deps : Vec → Nat → List Nat} {bad : Bool} :
    Preserving s (permute o srcs whole idx pick psn deps bad : M Unit) := by
  unfold permute
  exact preserving_parts

@[simp] theorem preserving_slide {s : State} {o : VOp} {writes : Nat → Nat → Bool} {src : Vec → Nat → Nat → Nat} :
    Preserving s (slide o writes src : M Unit) := by
  unfold slide
  exact preserving_parts

@[simp] theorem preserving_reduce {s : State} {o : VOp} {cfg : Vec → Bool} {srcs : List Opnd} {whole : Nat → Bool}
    {op : Vec → Node → Node → Draw Node}
    {leaf : Vec → List (List El) → Nat → Node} {fin : Vec → List (List El) → Nat → Node → Draw Node}
    {empty : Vec → Nat} :
    Preserving s (reduce o cfg srcs whole op leaf fin empty : M Unit) := by
  unfold reduce
  exact preserving_parts

end Sys2Proof.Machine
end

section
/- The proofs given as default arguments are elaborated one after another: many at once take a stack each. -/
set_option Elab.async false

namespace Sys2Proof.Machine

/-! Meanings. -/

/-- What a meaning makes of s, if it gives a next state, preserves what s has. -/
def NextPreserves (s : State) (r : Host.Outcome State Fault Refusal) : Prop := ∀ t, r = .next t → Preserves s t

section
variable {s : State}

theorem nextPreserves_next {t : State} (h : Preserves s t) : NextPreserves s (.next t) := fun _ e => by cases e; exact h
@[simp] theorem nextPreserves_self : NextPreserves s (.next s) := nextPreserves_next (.refl s)
@[simp] theorem nextPreserves_refused {r : Refusal} : NextPreserves s (.refused r) := fun _ e => by cases e

theorem nextPreserves_finish {bits : Word} {r : Except Stop Unit × State} (h : Preserves s r.2) : NextPreserves s (finish bits r) := by
  unfold finish
  split
  · exact nextPreserves_next h
  · exact nextPreserves_next (h.step (keeps_takeTrap (.refl _)))
  · exact nextPreserves_next (h.step (keeps_takeTrap (.refl _)))
  · exact nextPreserves_next (h.step (.refl r.2))
  · exact nextPreserves_next (h.step (keeps_overflowed (.refl _)))
  · exact nextPreserves_next h

theorem nextPreserves_run {bits : Word} {m : M Unit} (hm : Preserving s m) : NextPreserves s (run bits m s) :=
  nextPreserves_finish (hm s (.refl s))

theorem nextPreserves_instr {i : Instr} {m : M Unit} (hm : Preserving s m) : NextPreserves s (instr i m s) :=
  nextPreserves_run (preserving_bind hm fun _ => preserving_advance)

theorem nextPreserves_instrJump {i : Instr} {m : M Unit} (hm : Preserving s m) : NextPreserves s (instrJump i m s) :=
  nextPreserves_run hm

/-- A step of the device, taken apart by its branches. -/
theorem nextPreserves_happens {f : State → State} (h : Preserves s (f s) := by
    repeat' first | split | dsimp only
    all_goals exact Keeps.preserves (by simp)) : NextPreserves s (happens f s) := nextPreserves_next h

theorem nextPreserves_engineStep {f : State → State} (h : Preserves s (f s) := by
    repeat' first | split | dsimp only
    all_goals exact Keeps.preserves (by simp)) : NextPreserves s (engineStep f s) :=
  nextPreserves_next (preserves_ite.2 ⟨fun _ => .refl s, fun _ => h⟩)

@[simp] theorem nextPreserves_withLookahead {n opens : Nat} {use : RegUse} {closes : Bool} {r : Host.Outcome State Fault Refusal}
    {pre : State} (h : NextPreserves s r) : NextPreserves s (withLookahead n use closes opens pre r) := by
  intro t e
  unfold withLookahead at e
  split at e
  · cases e
    exact (h _ rfl).step (keeps_lookahead (.refl _))
  · exact h t e

end

/-! What takes the turn, or stops a task, in the name of the device. -/

theorem preserves_does {s₀ s : State} {m : M Unit} (hm : Preserving s m) (h : Preserves s₀ s) : Preserves s₀ (s.does m) := by
  unfold State.does
  split
  next heq => exact h.trans (nextPreserves_run hm _ heq)
  · exact h

theorem preserves_onHart {s₀ s : State} {n : Nat} {f : State → State} (hf : ∀ t, Preserves t (f t)) (h : Preserves s₀ s) :
    Preserves s₀ (s.onHart n f) := preserves_turnTo ((preserves_turnTo h).trans (hf _))

theorem preserves_stopChain {s₀ s : State} (h : Preserves s₀ s) : Preserves s₀ s.stopChain := by
  have hf (l : List Nat) (t : State) (ht : Keeps s t) : Keeps s (l.foldl (fun u m => u.modHart m Hart.signalled) t) :=
    keeps_foldl (fun _ _ => keeps_modHart (by simp) (.refl _)) ht
  have hg (l : List Nat) (t : State) (ht : Preserves s₀ t) :
      Preserves s₀ (l.foldl (fun u m => u.onHart m fun v => v.does stopHere) t) :=
    preserves_foldl (fun u _ => preserves_onHart (fun v => preserves_does preserving_stopHere (.refl v)) (.refl u)) ht
  have hd := hf (s.gangOf s.cpu.num) _ (keeps_dropChain (k := rowOfHart s.cpu.num) (.refl s))
  exact hg _ _ (h.step hd)

theorem preserves_signalStop {s₀ s : State} {t : TaskRun} (h : Preserves s₀ s) : Preserves s₀ (s.signalStop t) := by
  unfold State.signalStop
  have hs : Keeps s { s with cpu := s.cpu.signalled } := ⟨id, id, by simp, by simp, fun _ _ => .refl _⟩
  dsimp only
  have hu := h.step hs
  have hf := h.step (keeps_forcedStop (n := s.cpu.num) hs)
  have hd := preserves_does preserving_stopHere hu
  split
  · exact preserves_ite.2 ⟨fun _ => hu, fun _ => hf⟩
  · generalize s.cpu.signalled.wait.map Wait.on = on
    obtain _ | on := on
    · exact hu
    · cases on with
      | pop | push | skip | slotStall => exact hf
      | latch | window | timeline | tags | post | hwait => exact hd
      | hinge => exact preserves_does preserving_stopHere (h.step (keeps_leaveHinge hs))
      | chain => exact preserves_stopChain hu
      | interlock | wfi | messages | modeChange | credit => exact hu

theorem preserves_partVamo {s : State} {w : Nat} {k : VamoStop} {next : State → State} (hn : ∀ t, Preserves t (next t)) :
    Preserves s (s.partVamo w k next) := by
  unfold State.partVamo
  split
  next o _ =>
    have hv := preserving_vamoBody (s := s) (o := o) (stop := some k) s (.refl s)
    dsimp only
    split
    · exact preserves_ite.2 ⟨fun _ => hv.trans (hn _), fun _ => hv⟩
    · exact hn s
    · split
      next heq => exact nextPreserves_finish hv _ heq
      · exact .refl s
  · exact hn s

end Sys2Proof.Machine
end

section
/- The proofs given as default arguments are elaborated one after another: many at once take a stack each. -/
set_option Elab.async false

namespace Sys2Proof.Machine

/-! The arms of the opcode table: jobs, tags, streams, vector arithmetic and reductions. -/

@[simp] theorem nextPreserves_execJspawn {rd rs1 : Reg} {s : State} :
    NextPreserves s (execJspawn rd rs1 s) := nextPreserves_instr preserving_parts

@[simp] theorem nextPreserves_execJspawnn {rd rs1 rs2 : Reg} {s : State} :
    NextPreserves s (execJspawnn rd rs1 rs2 s) := nextPreserves_instr preserving_parts

@[simp] theorem nextPreserves_execJcont {rd rs1 : Reg} {s : State} :
    NextPreserves s (execJcont rd rs1 s) := nextPreserves_instr preserving_parts

@[simp] theorem nextPreserves_execTend {s : State} :
    NextPreserves s (execTend s) := nextPreserves_instrJump preserving_parts

@[simp] theorem nextPreserves_execTendr {rs1 : Reg} {s : State} :
    NextPreserves s (execTendr rs1 s) := nextPreserves_instrJump preserving_parts

@[simp] theorem nextPreserves_execJabandon {s : State} :
    NextPreserves s (execJabandon s) := nextPreserves_instrJump preserving_parts

@[simp] theorem nextPreserves_execJdefer {s : State} :
    NextPreserves s (execJdefer s) := nextPreserves_instr preserving_parts

@[simp] theorem nextPreserves_execTnow {rd : Reg} {s : State} :
    NextPreserves s (execTnow rd s) := nextPreserves_instr preserving_parts

@[simp] theorem nextPreserves_execCpost {rd rs1 : Reg} {s : State} :
    NextPreserves s (execCpost rd rs1 s) := nextPreserves_instr preserving_parts

@[simp] theorem nextPreserves_execTlread {rd rs1 : Reg} {s : State} :
    NextPreserves s (execTlread rd rs1 s) := nextPreserves_instr preserving_parts

@[simp] theorem nextPreserves_execTlwait {rs1 rs2 : Reg} {s : State} :
    NextPreserves s (execTlwait rs1 rs2 s) := nextPreserves_instr preserving_parts

@[simp] theorem nextPreserves_execTlpoll {rd rs1 rs2 : Reg} {s : State} :
    NextPreserves s (execTlpoll rd rs1 rs2 s) := nextPreserves_instr preserving_parts

@[simp] theorem nextPreserves_execTagwany {rd rs1 : Reg} {s : State} :
    NextPreserves s (execTagwany rd rs1 s) := nextPreserves_instr preserving_parts

@[simp] theorem nextPreserves_execTagwall {rd rs1 : Reg} {s : State} :
    NextPreserves s (execTagwall rd rs1 s) := nextPreserves_instr preserving_parts

@[simp] theorem nextPreserves_execTagffr {rd rs1 : Reg} {s : State} :
    NextPreserves s (execTagffr rd rs1 s) := nextPreserves_instr preserving_parts

@[simp] theorem nextPreserves_execTagclr {rs1 : Reg} {s : State} :
    NextPreserves s (execTagclr rs1 s) := nextPreserves_instr preserving_parts

@[simp] theorem nextPreserves_execMgangVreg {rd rs1 : Reg} {v : BitVec 6} {s : State} :
    NextPreserves s (execMgangVreg rd rs1 v s) := nextPreserves_instr (preserving_mgangBody fun _ => preserving_parts)

@[simp] theorem nextPreserves_execMgangCsram {rd rs1 rs2 rs3 : Reg} {s : State} :
    NextPreserves s (execMgangCsram rd rs1 rs2 rs3 s) := nextPreserves_instr (preserving_mgangBody fun _ => preserving_parts)

@[simp] theorem nextPreserves_execMgangNoOperand {rd rs1 : Reg} {s : State} :
    NextPreserves s (execMgangNoOperand rd rs1 s) := nextPreserves_instr preserving_parts

@[simp] theorem nextPreserves_execWdrive {rs1 : Reg} {s : State} :
    NextPreserves s (execWdrive rs1 s) := nextPreserves_instrJump preserving_parts

@[simp] theorem nextPreserves_execVcadd {o : VOp} {s : State} :
    NextPreserves s (execVcadd o s) := nextPreserves_instr preserving_parts

@[simp] theorem nextPreserves_execVcsub {o : VOp} {s : State} :
    NextPreserves s (execVcsub o s) := nextPreserves_instr preserving_parts

@[simp] theorem nextPreserves_execVcmul {o : VOp} {s : State} :
    NextPreserves s (execVcmul o s) := nextPreserves_instr preserving_parts

@[simp] theorem nextPreserves_execVcmulj {o : VOp} {s : State} :
    NextPreserves s (execVcmulj o s) := nextPreserves_instr preserving_parts

@[simp] theorem nextPreserves_execVcmac {o : VOp} {s : State} :
    NextPreserves s (execVcmac o s) := nextPreserves_instr preserving_parts

@[simp] theorem nextPreserves_execVcmacj {o : VOp} {s : State} :
    NextPreserves s (execVcmacj o s) := nextPreserves_instr preserving_parts

@[simp] theorem nextPreserves_execVcmsc {o : VOp} {s : State} :
    NextPreserves s (execVcmsc o s) := nextPreserves_instr preserving_parts

@[simp] theorem nextPreserves_execVcelim {o : VOp} {s : State} :
    NextPreserves s (execVcelim o s) := nextPreserves_instr preserving_parts

@[simp] theorem nextPreserves_execVcrcp {o : VOp} {s : State} :
    NextPreserves s (execVcrcp o s) := nextPreserves_instr preserving_parts

@[simp] theorem nextPreserves_execVcnorm {o : VOp} {s : State} :
    NextPreserves s (execVcnorm o s) := nextPreserves_instr preserving_parts

@[simp] theorem nextPreserves_execVcconj {o : VOp} {s : State} :
    NextPreserves s (execVcconj o s) := nextPreserves_instr preserving_parts

@[simp] theorem nextPreserves_execVcrotj {o : VOp} {s : State} :
    NextPreserves s (execVcrotj o s) := nextPreserves_instr preserving_parts

@[simp] theorem nextPreserves_execVbfly {o : VOp} {s : State} :
    NextPreserves s (execVbfly o s) := nextPreserves_instr preserving_parts

@[simp] theorem nextPreserves_execVbflyi {o : VOp} {s : State} :
    NextPreserves s (execVbflyi o s) := nextPreserves_instr preserving_parts

@[simp] theorem nextPreserves_execVfadd {o : VOp} {s : State} :
    NextPreserves s (execVfadd o s) := nextPreserves_instr preserving_parts

@[simp] theorem nextPreserves_execVfsub {o : VOp} {s : State} :
    NextPreserves s (execVfsub o s) := nextPreserves_instr preserving_parts

@[simp] theorem nextPreserves_execVfmul {o : VOp} {s : State} :
    NextPreserves s (execVfmul o s) := nextPreserves_instr preserving_parts

@[simp] theorem nextPreserves_execVfmin {o : VOp} {s : State} :
    NextPreserves s (execVfmin o s) := nextPreserves_instr preserving_parts

@[simp] theorem nextPreserves_execVfmax {o : VOp} {s : State} :
    NextPreserves s (execVfmax o s) := nextPreserves_instr preserving_parts

@[simp] theorem nextPreserves_execVfdiv {o : VOp} {s : State} :
    NextPreserves s (execVfdiv o s) := nextPreserves_instr preserving_parts

@[simp] theorem nextPreserves_execVfsgnj {o : VOp} {s : State} :
    NextPreserves s (execVfsgnj o s) := nextPreserves_instr preserving_parts

@[simp] theorem nextPreserves_execVfma {o : VOp} {s : State} :
    NextPreserves s (execVfma o s) := nextPreserves_instr preserving_parts

@[simp] theorem nextPreserves_execVfms {o : VOp} {s : State} :
    NextPreserves s (execVfms o s) := nextPreserves_instr preserving_parts

@[simp] theorem nextPreserves_execVfnma {o : VOp} {s : State} :
    NextPreserves s (execVfnma o s) := nextPreserves_instr preserving_parts

@[simp] theorem nextPreserves_execVfnms {o : VOp} {s : State} :
    NextPreserves s (execVfnms o s) := nextPreserves_instr preserving_parts

@[simp] theorem nextPreserves_execVfsqrt {o : VOp} {s : State} :
    NextPreserves s (execVfsqrt o s) := nextPreserves_instr preserving_parts

@[simp] theorem nextPreserves_execVfrcp {o : VOp} {s : State} :
    NextPreserves s (execVfrcp o s) := nextPreserves_instr preserving_parts

@[simp] theorem nextPreserves_execVfrsqrt {o : VOp} {s : State} :
    NextPreserves s (execVfrsqrt o s) := nextPreserves_instr preserving_parts

@[simp] theorem nextPreserves_execVfabs {o : VOp} {s : State} :
    NextPreserves s (execVfabs o s) := nextPreserves_instr preserving_parts

@[simp] theorem nextPreserves_execVfneg {o : VOp} {s : State} :
    NextPreserves s (execVfneg o s) := nextPreserves_instr preserving_parts

@[simp] theorem nextPreserves_execVfexp2 {o : VOp} {s : State} :
    NextPreserves s (execVfexp2 o s) := nextPreserves_instr preserving_parts

@[simp] theorem nextPreserves_execVflog2 {o : VOp} {s : State} :
    NextPreserves s (execVflog2 o s) := nextPreserves_instr preserving_parts

@[simp] theorem nextPreserves_execVfclass {o : VOp} {s : State} :
    NextPreserves s (execVfclass o s) := nextPreserves_instr preserving_parts

@[simp] theorem nextPreserves_execVfceq {o : VOp} {s : State} :
    NextPreserves s (execVfceq o s) := nextPreserves_instr preserving_parts

@[simp] theorem nextPreserves_execVfclt {o : VOp} {s : State} :
    NextPreserves s (execVfclt o s) := nextPreserves_instr preserving_parts

@[simp] theorem nextPreserves_execVfcle {o : VOp} {s : State} :
    NextPreserves s (execVfcle o s) := nextPreserves_instr preserving_parts

@[simp] theorem nextPreserves_execVfcvtif {o : VOp} {s : State} :
    NextPreserves s (execVfcvtif o s) := nextPreserves_instr preserving_parts

@[simp] theorem nextPreserves_execVfcvtfi {o : VOp} {s : State} :
    NextPreserves s (execVfcvtfi o s) := nextPreserves_instr preserving_parts

@[simp] theorem nextPreserves_execVpwl {o : VOp} {s : State} :
    NextPreserves s (execVpwl o s) := nextPreserves_instr preserving_parts

@[simp] theorem nextPreserves_execVbscale {o : VOp} {s : State} :
    NextPreserves s (execVbscale o s) := nextPreserves_instr preserving_parts

@[simp] theorem nextPreserves_execVrnd {o : VOp} {s : State} :
    NextPreserves s (execVrnd o s) := nextPreserves_instr preserving_parts

@[simp] theorem nextPreserves_execVracc {o : VOp} {s : State} :
    NextPreserves s (execVracc o s) := nextPreserves_instr preserving_parts

@[simp] theorem nextPreserves_execVwacc {o : VOp} {s : State} : NextPreserves s (execVwacc o s) :=
  nextPreserves_instr (preserving_accExec fun _ _ => preserving_parts)

@[simp] theorem nextPreserves_execVzacc {o : VOp} {s : State} :
    NextPreserves s (execVzacc o s) := nextPreserves_instr preserving_parts

@[simp] theorem nextPreserves_execMma {cl row : Nat} {s : State} :
    NextPreserves s (execMma cl row s) := nextPreserves_engineStep

@[simp] theorem nextPreserves_execMmas {cl row : Nat} {s : State} :
    NextPreserves s (execMmas cl row s) := nextPreserves_engineStep

@[simp] theorem nextPreserves_execMmaw2 {cl row : Nat} {s : State} :
    NextPreserves s (execMmaw2 cl row s) := nextPreserves_engineStep

@[simp] theorem nextPreserves_execMslide {cl row : Nat} {s : State} :
    NextPreserves s (execMslide cl row s) := nextPreserves_engineStep

@[simp] theorem nextPreserves_execMzero {cl row : Nat} {s : State} :
    NextPreserves s (execMzero cl row s) := nextPreserves_engineStep

@[simp] theorem nextPreserves_execMdrain {cl row : Nat} {s : State} :
    NextPreserves s (execMdrain cl row s) := nextPreserves_engineStep

@[simp] theorem nextPreserves_execMatrixCommandComplete {cl row : Nat} {s : State} :
    NextPreserves s (execMatrixCommandComplete cl row s) := nextPreserves_engineStep

@[simp] theorem nextPreserves_execChainStart {cl row : Nat} {s : State} :
    NextPreserves s (execChainStart cl row s) := nextPreserves_engineStep

@[simp] theorem nextPreserves_execWdense {cl row : Nat} {s : State} : NextPreserves s (execWdense cl row s) :=
  nextPreserves_engineStep (preserves_chainBlock (.refl s))

@[simp] theorem nextPreserves_execWsparse {cl row : Nat} {s : State} : NextPreserves s (execWsparse cl row s) :=
  nextPreserves_engineStep (preserves_chainBlock (.refl s))

@[simp] theorem nextPreserves_execWtwo {cl row : Nat} {s : State} : NextPreserves s (execWtwo cl row s) :=
  nextPreserves_engineStep (preserves_chainBlock (.refl s))

@[simp] theorem nextPreserves_execWlrc {cl row : Nat} {s : State} : NextPreserves s (execWlrc cl row s) :=
  nextPreserves_engineStep (preserves_chainBlock (.refl s))

@[simp] theorem nextPreserves_execWact {cl row : Nat} {s : State} : NextPreserves s (execWact cl row s) :=
  nextPreserves_engineStep (preserves_chainBlock (.refl s))

@[simp] theorem nextPreserves_execWout {cl row : Nat} {s : State} : NextPreserves s (execWout cl row s) :=
  nextPreserves_engineStep (preserves_chainBlock (.refl s))

@[simp] theorem nextPreserves_execWsel {cl row : Nat} {s : State} : NextPreserves s (execWsel cl row s) :=
  nextPreserves_engineStep (preserves_chainBlock (.refl s))

@[simp] theorem nextPreserves_execWcall {cl row : Nat} {s : State} : NextPreserves s (execWcall cl row s) :=
  nextPreserves_engineStep (preserves_chainBlock (.refl s))

@[simp] theorem nextPreserves_execWret {cl row : Nat} {s : State} : NextPreserves s (execWret cl row s) :=
  nextPreserves_engineStep (preserves_chainBlock (.refl s))

@[simp] theorem nextPreserves_execWend {cl row : Nat} {s : State} : NextPreserves s (execWend cl row s) :=
  nextPreserves_engineStep (preserves_chainBlock (.refl s))

@[simp] theorem nextPreserves_execWoutWindowTimeout {cl row col : Nat} {s : State} :
    NextPreserves s (execWoutWindowTimeout cl row col s) := nextPreserves_engineStep

@[simp] theorem nextPreserves_execJmaResidueMismatch {cl row col : Nat} {s : State} :
    NextPreserves s (execJmaResidueMismatch cl row col s) := by
  refine nextPreserves_engineStep ?_
  repeat' first | split | dsimp only
  any_goals exact preserves_chainMismatch (.refl s)
  all_goals exact Keeps.preserves (by simp)

@[simp] theorem nextPreserves_execCopynd {cl ce queue : Nat} {s : State} :
    NextPreserves s (execCopynd cl ce queue s) := nextPreserves_engineStep

@[simp] theorem nextPreserves_execFill {cl ce queue : Nat} {s : State} :
    NextPreserves s (execFill cl ce queue s) := nextPreserves_engineStep

@[simp] theorem nextPreserves_execReplay {cl ce queue : Nat} {s : State} :
    NextPreserves s (execReplay cl ce queue s) := nextPreserves_engineStep

@[simp] theorem nextPreserves_execLdpcdec {hart : Nat} {s : State} :
    NextPreserves s (execLdpcdec hart s) := nextPreserves_engineStep

@[simp] theorem nextPreserves_execLdpcenc {hart : Nat} {s : State} :
    NextPreserves s (execLdpcenc hart s) := nextPreserves_engineStep

@[simp] theorem nextPreserves_execPoldec {hart : Nat} {s : State} :
    NextPreserves s (execPoldec hart s) := nextPreserves_engineStep

@[simp] theorem nextPreserves_execPolenc {hart : Nat} {s : State} :
    NextPreserves s (execPolenc hart s) := nextPreserves_engineStep

@[simp] theorem nextPreserves_execRmatch {hart : Nat} {s : State} :
    NextPreserves s (execRmatch hart s) := nextPreserves_engineStep

@[simp] theorem nextPreserves_execDematch {hart : Nat} {s : State} :
    NextPreserves s (execDematch hart s) := nextPreserves_engineStep

@[simp] theorem nextPreserves_execCommandPublish {hart ctx : Nat} {s : State} :
    NextPreserves s (execCommandPublish hart ctx s) := nextPreserves_engineStep

@[simp] theorem nextPreserves_execHeldFaultRecordWrite {cl : Nat} {s : State} :
    NextPreserves s (execHeldFaultRecordWrite cl s) := nextPreserves_engineStep

@[simp] theorem nextPreserves_execFpScalar {op : FpOp} {form : Form} {s : State} :
    NextPreserves s (execFpScalar op form s) := nextPreserves_instr preserving_parts

@[simp] theorem nextPreserves_execFrameReceive {port sub : Nat} {fcsOk : Bool} {frame : List Byte} {s : State} :
    NextPreserves s (execFrameReceive port sub fcsOk frame s) := nextPreserves_happens

@[simp] theorem nextPreserves_execTxLaunch {port ring : Nat} {s : State} :
    NextPreserves s (execTxLaunch port ring s) := nextPreserves_engineStep

@[simp] theorem nextPreserves_execSubportLinkLost {port sub : Nat} {s : State} :
    NextPreserves s (execSubportLinkLost port sub s) := nextPreserves_happens

@[simp] theorem nextPreserves_execSubportLinkUp {port sub : Nat} {s : State} :
    NextPreserves s (execSubportLinkUp port sub s) := nextPreserves_happens

@[simp] theorem nextPreserves_execScfence {scope : BitVec 2} {s : State} :
    NextPreserves s (execScfence scope s) := nextPreserves_instr preserving_parts

@[simp] theorem nextPreserves_execChkerr {rd : Reg} {s : State} :
    NextPreserves s (execChkerr rd s) := nextPreserves_instr preserving_parts

@[simp] theorem nextPreserves_execRnd {rd : Reg} {s : State} :
    NextPreserves s (execRnd rd s) := nextPreserves_instr preserving_parts

@[simp] theorem nextPreserves_execOvfld {rs1 : Reg} {s : State} :
    NextPreserves s (execOvfld rs1 s) := nextPreserves_instr preserving_parts

@[simp] theorem nextPreserves_execMcack {s : State} :
    NextPreserves s (execMcack s) := nextPreserves_instr preserving_parts

@[simp] theorem nextPreserves_execMsend {rd rs1 rs2 : Reg} {s : State} :
    NextPreserves s (execMsend rd rs1 rs2 s) := nextPreserves_instr preserving_parts

@[simp] theorem nextPreserves_execMpoll {rd rs1 : Reg} {s : State} :
    NextPreserves s (execMpoll rd rs1 s) := nextPreserves_instr preserving_parts

@[simp] theorem nextPreserves_execHwait {s : State} :
    NextPreserves s (execHwait s) := nextPreserves_instrJump preserving_parts

@[simp] theorem nextPreserves_execHret {s : State} :
    NextPreserves s (execHret s) := nextPreserves_instrJump preserving_parts

@[simp] theorem nextPreserves_execHandlerActivation {s : State} : NextPreserves s (execHandlerActivation s) :=
  nextPreserves_happens

@[simp] theorem nextPreserves_execHostSubmission {page off : Nat} {record : Tlp} {s : State} :
    NextPreserves s (execHostSubmission page off record s) := nextPreserves_happens

@[simp] theorem nextPreserves_execSubmissionPageOtherAccess {_page : Nat} {_isRead : Bool} {s : State} :
    NextPreserves s (execSubmissionPageOtherAccess _page _isRead s) := nextPreserves_happens

@[simp] theorem nextPreserves_execHostPortReset {s : State} :
    NextPreserves s (execHostPortReset s) := nextPreserves_happens

@[simp] theorem nextPreserves_execHostLinkUp {s : State} :
    NextPreserves s (execHostLinkUp s) := nextPreserves_happens

@[simp] theorem nextPreserves_execHostRingItime {ring : Nat} {s : State} :
    NextPreserves s (execHostRingItime ring s) := nextPreserves_happens

@[simp] theorem nextPreserves_execCxlMemAccess {off len : Nat} {data : Option (List Byte)} {poisoned : Bool} {s : State} :
    NextPreserves s (execCxlMemAccess off len data poisoned s) := nextPreserves_happens

@[simp] theorem nextPreserves_execTwinRequest {pa : Nat} {op : TwinOp} {s : State} :
    NextPreserves s (execTwinRequest pa op s) := nextPreserves_happens

@[simp] theorem nextPreserves_execTwinHeartbeatSend {s : State} :
    NextPreserves s (execTwinHeartbeatSend s) := nextPreserves_engineStep

@[simp] theorem nextPreserves_execTwinHeartbeatReceive {s : State} :
    NextPreserves s (execTwinHeartbeatReceive s) := nextPreserves_happens

@[simp] theorem nextPreserves_execTwinHeartbeatTimeout {s : State} :
    NextPreserves s (execTwinHeartbeatTimeout s) := nextPreserves_happens

@[simp] theorem nextPreserves_execMilzinCredit {s : State} :
    NextPreserves s (execMilzinCredit s) := nextPreserves_happens

end Sys2Proof.Machine
end

section
/- The proofs given as default arguments are elaborated one after another: many at once take a stack each. -/
set_option Elab.async false

namespace Sys2Proof.Machine

/-! The arms of the opcode table: vector memory, faults, latches, events of the device, and register writes. -/

@[simp] theorem nextPreserves_execVld {o : VOp} {s : State} :
    NextPreserves s (execVld o s) := nextPreserves_instr preserving_parts

@[simp] theorem nextPreserves_execVlds {o : VOp} {s : State} :
    NextPreserves s (execVlds o s) := nextPreserves_instr preserving_parts

@[simp] theorem nextPreserves_execVldx {o : VOp} {s : State} :
    NextPreserves s (execVldx o s) := nextPreserves_instr preserving_parts

@[simp] theorem nextPreserves_execVst {o : VOp} {s : State} :
    NextPreserves s (execVst o s) := nextPreserves_instr preserving_parts

@[simp] theorem nextPreserves_execVsts {o : VOp} {s : State} :
    NextPreserves s (execVsts o s) := nextPreserves_instr preserving_parts

@[simp] theorem nextPreserves_execVstx {o : VOp} {s : State} :
    NextPreserves s (execVstx o s) := nextPreserves_instr preserving_parts

@[simp] theorem nextPreserves_execVldbs {o : VOp} {s : State} : NextPreserves s (execVldbs o s) :=
  nextPreserves_instr (preserving_memVec fun _ => preserving_parts)

@[simp] theorem nextPreserves_execVstbs {o : VOp} {s : State} : NextPreserves s (execVstbs o s) := by
  refine nextPreserves_instr (preserving_memVec fun h => ?_)
  extract_lets v idx act code b len
  refine preserving_bind_of (p := fun r => ∀ p ∈ r.2.2, (∀ q, p.2.1 = some q → SmallPieces q) ∧ SmallPieces p.2.2)
    preserving_parts (gives_checked ?_) fun r hr => ?_
  · refine gives_bind gives_any fun got _ => gives_bind gives_any fun ops _ => ?_
    split
    · exact gives_raisePsn
    · exact gives_bind (checkBlocks_small ((fmtB_le _ _).trans (by decide))) fun ps hps => gives_pure hps
  · refine preserving_bind preserving_consume fun _ => ?_
    refine preserving_bind_of (p := fun raw => ∀ e ∈ raw, e.1 ∈ r.2.2) preserving_drawing (gives_drawing draw_mapM_mem) fun raw hraw => ?_
    refine preserving_bind (preserving_storeAll fun i => ?_) fun _ => preserving_popTakes
    split
    next e he =>
      have hs := hr _ (hraw _ (List.mem_of_find?_eq_some he))
      extract_lets last
      have hlast (u) : Preserving s (last u) := preserving_storePieces hs.2
      split
      next q hq => exact preserving_bind (preserving_storePieces (hs.1 q hq)) hlast
      · exact hlast ()
    · exact preserving_pure _

@[simp] theorem nextPreserves_execVldk {o : VOp} {s : State} : NextPreserves s (execVldk o s) :=
  nextPreserves_instr (preserving_memVec fun _ => preserving_parts)

@[simp] theorem nextPreserves_execVstk {o : VOp} {s : State} : NextPreserves s (execVstk o s) := by
  refine nextPreserves_instr (preserving_memVec fun h => ?_)
  extract_lets v bad tail
  have htail (u) : Preserving s (tail u) := by
    refine preserving_bind_of preserving_checkKey checkKey_small fun ps hps => preserving_bind preserving_consume fun _ => ?_
    refine preserving_storeAll fun i => ?_
    split
    next p hp => exact preserving_storePieces (hps _ (List.mem_of_find?_eq_some hp))
    · exact preserving_pure _
  split
  · exact preserving_bind preserving_raisePsn htail
  · exact htail ()

@[simp] theorem nextPreserves_execVamo {o : VOp} {s : State} :
    NextPreserves s (execVamo o s) := nextPreserves_instr preserving_parts

@[simp] theorem nextPreserves_execResidueMismatch {dclass : BitVec 2} {elem : BitVec 16} {lane : Option (BitVec 5)} {s : State} :
    NextPreserves s (execResidueMismatch dclass elem lane s) := by
  refine nextPreserves_happens ?_
  split
  · exact .refl s
  · exact preserves_ite.2 ⟨fun _ => preserves_partVamo fun t => (keeps_mismatch (.refl t)).preserves, fun _ => .refl s⟩

@[simp] theorem nextPreserves_execMirrorMismatch {elem : BitVec 16} {lane mlane : BitVec 5} {s : State} :
    NextPreserves s (execMirrorMismatch elem lane mlane s) := by
  refine nextPreserves_happens ?_
  split
  · exact .refl s
  · exact preserves_ite.2 ⟨fun _ => preserves_partVamo fun t => (keeps_mismatch (.refl t)).preserves, fun _ => .refl s⟩

@[simp] theorem nextPreserves_execEccCorrected {loc : EccLoc} {s : State} :
    NextPreserves s (execEccCorrected loc s) := nextPreserves_happens

@[simp] theorem nextPreserves_execEccUncorrectable {loc : EccLoc} {s : State} : NextPreserves s (execEccUncorrectable loc s) := by
  refine nextPreserves_happens ?_
  cases loc with
  | buffered k => exact preserves_poisonBuffered (.refl s)
  | _ =>
    dsimp only
    exact Keeps.preserves (by (repeat' split) <;> simp)

@[simp] theorem nextPreserves_execPatrolScrub {s : State} :
    NextPreserves s (execPatrolScrub s) := nextPreserves_happens

@[simp] theorem nextPreserves_execLlw {rd rs1 : Reg} {s : State} :
    NextPreserves s (execLlw rd rs1 s) := nextPreserves_instr preserving_parts

@[simp] theorem nextPreserves_execLld {rd rs1 : Reg} {s : State} :
    NextPreserves s (execLld rd rs1 s) := nextPreserves_instr preserving_parts

@[simp] theorem nextPreserves_execLlpw {rd rs1 : Reg} {s : State} :
    NextPreserves s (execLlpw rd rs1 s) := nextPreserves_instr preserving_parts

@[simp] theorem nextPreserves_execLlpd {rd rs1 : Reg} {s : State} :
    NextPreserves s (execLlpd rd rs1 s) := nextPreserves_instr preserving_parts

@[simp] theorem nextPreserves_execLsw {rs2 rs1 : Reg} {s : State} :
    NextPreserves s (execLsw rs2 rs1 s) := nextPreserves_instr preserving_parts

@[simp] theorem nextPreserves_execLsd {rs2 rs1 : Reg} {s : State} :
    NextPreserves s (execLsd rs2 rs1 s) := nextPreserves_instr preserving_parts

@[simp] theorem nextPreserves_execLclr {rs1 : Reg} {s : State} :
    NextPreserves s (execLclr rs1 s) := nextPreserves_instr preserving_parts

@[simp] theorem nextPreserves_execModeChangeComplete {cl bank : Nat} {s : State} :
    NextPreserves s (execModeChangeComplete cl bank s) := nextPreserves_happens

@[simp] theorem nextPreserves_execL2CommandComplete {s : State} :
    NextPreserves s (execL2CommandComplete s) := nextPreserves_happens

@[simp] theorem nextPreserves_execL2Writeback {line : Nat} {dom : Option (BitVec 12)} {dirty : Bool} {s : State} :
    NextPreserves s (execL2Writeback line dom dirty s) := nextPreserves_happens

@[simp] theorem nextPreserves_execL2AllocationTimeout {line : Nat} {isWrite : Bool} {s : State} :
    NextPreserves s (execL2AllocationTimeout line isWrite s) := nextPreserves_happens

@[simp] theorem nextPreserves_execBeaconReceive {ctr src : Nat} {s : State} :
    NextPreserves s (execBeaconReceive ctr src s) := nextPreserves_happens

@[simp] theorem nextPreserves_execI3cPowerCapWrite {v : Word} {s : State} :
    NextPreserves s (execI3cPowerCapWrite v s) := nextPreserves_happens

@[simp] theorem nextPreserves_execPowerCapApply {s : State} :
    NextPreserves s (execPowerCapApply s) := nextPreserves_happens

@[simp] theorem nextPreserves_execPowerWindow {watts : Nat} {s : State} :
    NextPreserves s (execPowerWindow watts s) := nextPreserves_happens

@[simp] theorem nextPreserves_execGrantRaise {s : State} :
    NextPreserves s (execGrantRaise s) := nextPreserves_happens

@[simp] theorem nextPreserves_execColdStartRequest {s : State} :
    NextPreserves s (execColdStartRequest s) := nextPreserves_happens

@[simp] theorem nextPreserves_execWarmStartRequest {s : State} :
    NextPreserves s (execWarmStartRequest s) := nextPreserves_happens

@[simp] theorem nextPreserves_execShutdownDrainTimeout {s : State} :
    NextPreserves s (execShutdownDrainTimeout s) := nextPreserves_happens

@[simp] theorem nextPreserves_execAttest {s : State} :
    NextPreserves s (execAttest s) := nextPreserves_happens

@[simp] theorem nextPreserves_execLcset {s : State} :
    NextPreserves s (execLcset s) := nextPreserves_happens

@[simp] theorem nextPreserves_execSvnset {s : State} :
    NextPreserves s (execSvnset s) := nextPreserves_happens

@[simp] theorem nextPreserves_execMailboxBadop {s : State} :
    NextPreserves s (execMailboxBadop s) := nextPreserves_happens

@[simp] theorem nextPreserves_execPowerOn {s : State} :
    NextPreserves s (execPowerOn s) := nextPreserves_happens

@[simp] theorem nextPreserves_execI3cColdRequest {s : State} :
    NextPreserves s (execI3cColdRequest s) := nextPreserves_happens

@[simp] theorem nextPreserves_execFreeze {s : State} :
    NextPreserves s (execFreeze s) := nextPreserves_happens

@[simp] theorem nextPreserves_execPowerLoss {s : State} :
    NextPreserves s (execPowerLoss s) := nextPreserves_happens

@[simp] theorem nextPreserves_csrWrite {n : Nat} {v : Word} {s : State} :
    NextPreserves s (csrWrite n v s) := nextPreserves_run preserving_parts

@[simp] theorem nextPreserves_mmioWrite {off size v : Nat} {s : State} :
    NextPreserves s (mmioWrite off size v s) := nextPreserves_run preserving_parts

@[simp] theorem nextPreserves_discWrite {ctr f v : Nat} {s : State} :
    NextPreserves s (discWrite ctr f v s) := by
  unfold discWrite
  split <;> simp

@[simp] theorem nextPreserves_execVcfgWrite {v : Word} {s : State} : NextPreserves s (execVcfgWrite v s) := nextPreserves_csrWrite

@[simp] theorem nextPreserves_execLanemapWrite {v : Word} {s : State} :
    NextPreserves s (execLanemapWrite v s) := nextPreserves_csrWrite

@[simp] theorem nextPreserves_execSrvroleWrite {v : Word} {s : State} :
    NextPreserves s (execSrvroleWrite v s) := nextPreserves_csrWrite

@[simp] theorem nextPreserves_execRegisterWrite {t : RegTarget} {v : Word} {s : State} :
    NextPreserves s (execRegisterWrite t v s) := by
  cases t with
  | csr n => exact nextPreserves_csrWrite
  | mmio off size => exact nextPreserves_mmioWrite
  | bar0 off size =>
    exact nextPreserves_next (preserves_ite.2 ⟨fun _ => (keeps_bar0Store (.refl s)).preserves, fun _ => .refl s⟩)
  | atomicEnable => exact nextPreserves_next (Keeps.preserves (.refl s))

@[simp] theorem nextPreserves_execBmodeWrite {cl bank : Nat} {v : Word} {s : State} :
    NextPreserves s (execBmodeWrite cl bank v s) := nextPreserves_mmioWrite

@[simp] theorem nextPreserves_execFqlevelReset {cl bank : Nat} {s : State} :
    NextPreserves s (execFqlevelReset cl bank s) := nextPreserves_mmioWrite

@[simp] theorem nextPreserves_execFlushall {s : State} : NextPreserves s (execFlushall s) := nextPreserves_mmioWrite

@[simp] theorem nextPreserves_execDomclr {dom : BitVec 12} {s : State} : NextPreserves s (execDomclr dom s) := nextPreserves_mmioWrite

@[simp] theorem nextPreserves_execClrcnt {s : State} : NextPreserves s (execClrcnt s) := nextPreserves_mmioWrite

@[simp] theorem nextPreserves_execEfwakeWrite {cl : Nat} {rows : BitVec 4} {s : State} :
    NextPreserves s (execEfwakeWrite cl rows s) := nextPreserves_mmioWrite

@[simp] theorem nextPreserves_execTstepWrite {ctr : Nat} {v : Word} {s : State} : NextPreserves s (execTstepWrite ctr v s) :=
  nextPreserves_discWrite

@[simp] theorem nextPreserves_execTbeacon {ctr target : Nat} {s : State} : NextPreserves s (execTbeacon ctr target s) :=
  nextPreserves_discWrite

@[simp] theorem nextPreserves_execTxprodWrite {port ring : Nat} {v : Word} {s : State} :
    NextPreserves s (execTxprodWrite port ring v s) := nextPreserves_mmioWrite

@[simp] theorem nextPreserves_execPwrcapWrite {v : Word} {s : State} : NextPreserves s (execPwrcapWrite v s) := nextPreserves_mmioWrite

@[simp] theorem nextPreserves_execRolelockWrite {v : Word} {s : State} :
    NextPreserves s (execRolelockWrite v s) := nextPreserves_mmioWrite

@[simp] theorem nextPreserves_execTwdoorStore {idx : Nat} {v : Word} {s : State} :
    NextPreserves s (execTwdoorStore idx v s) := nextPreserves_mmioWrite

@[simp] theorem nextPreserves_execMessageLand {idx : Nat} {s : State} :
    NextPreserves s (execMessageLand idx s) := nextPreserves_happens

@[simp] theorem nextPreserves_execCompletionMessageSend {s : State} :
    NextPreserves s (execCompletionMessageSend s) := nextPreserves_happens

@[simp] theorem nextPreserves_execPrefetchFill {hart : Nat} {s : State} :
    NextPreserves s (execPrefetchFill hart s) := nextPreserves_happens

@[simp] theorem nextPreserves_execPrefetchRecall {hart : Nat} {s : State} :
    NextPreserves s (execPrefetchRecall hart s) := nextPreserves_happens

@[simp] theorem nextPreserves_execWaitingContinuationEnqueue {s : State} : NextPreserves s (execWaitingContinuationEnqueue s) := by
  refine nextPreserves_happens (Keeps.preserves ?_)
  split
  · exact keeps_ite.2 ⟨fun _ => .refl s, fun _ => keeps_emptyCont (keeps_enqueue (keeps_modJob (.refl s)))⟩
  · exact .refl s

@[simp] theorem nextPreserves_execReclaimLate {cl row : Nat} {s : State} :
    NextPreserves s (execReclaimLate cl row s) := nextPreserves_happens

@[simp] theorem nextPreserves_execJobRelease {job : Nat} {s : State} :
    NextPreserves s (execJobRelease job s) := nextPreserves_happens

@[simp] theorem nextPreserves_execJobCliff {job : Nat} {s : State} :
    NextPreserves s (execJobCliff job s) := nextPreserves_happens

@[simp] theorem nextPreserves_execAbandonSignal {s : State} : NextPreserves s (execAbandonSignal s) := by
  refine nextPreserves_happens ?_
  split
  · exact preserves_ite.2 ⟨fun _ => preserves_signalStop (.refl s), fun _ => .refl s⟩
  · exact .refl s

@[simp] theorem nextPreserves_execAbandonGraceExpiry {s : State} :
    NextPreserves s (execAbandonGraceExpiry s) := nextPreserves_happens

@[simp] theorem nextPreserves_execBudgetExpiry {s : State} :
    NextPreserves s (execBudgetExpiry s) := nextPreserves_happens

@[simp] theorem nextPreserves_execProgressTimeout {s : State} :
    NextPreserves s (execProgressTimeout s) := nextPreserves_happens

@[simp] theorem nextPreserves_execInterrupt {code : BitVec 6} {s : State} :
    NextPreserves s (execInterrupt code s) := nextPreserves_happens

@[simp] theorem nextPreserves_execLatchWaitEnd {s : State} :
    NextPreserves s (execLatchWaitEnd s) := nextPreserves_happens

@[simp] theorem nextPreserves_execTimelineWaitEnd {s : State} :
    NextPreserves s (execTimelineWaitEnd s) := nextPreserves_happens

@[simp] theorem nextPreserves_execTagWaitEnd {s : State} :
    NextPreserves s (execTagWaitEnd s) := nextPreserves_happens

@[simp] theorem nextPreserves_execStreamWaitEnd {s : State} :
    NextPreserves s (execStreamWaitEnd s) := nextPreserves_happens

@[simp] theorem nextPreserves_execPostStallEnd {s : State} :
    NextPreserves s (execPostStallEnd s) := nextPreserves_happens

@[simp] theorem nextPreserves_execLoad {k : LoadKind} {rd rs1 : Reg} {imm : BitVec 12} {form : Form} {s : State} :
    NextPreserves s (execLoad k rd rs1 imm form s) := nextPreserves_instr preserving_parts

@[simp] theorem nextPreserves_execStore {k : StoreKind} {rs2 rs1 : Reg} {imm : BitVec 12} {form : Form} {s : State} :
    NextPreserves s (execStore k rs2 rs1 imm form s) := by
  have hk : storeBytes k ≤ 8192 := by cases k <;> decide
  exact nextPreserves_instr (preserving_bind preserving_useX fun _ => preserving_bind preserving_cpu fun _ =>
    preserving_bind (preserving_scalarStore hk) fun _ => preserving_consume)

@[simp] theorem nextPreserves_execAmo {op : AmoOp} {dbl aq rl : Bool} {rd rs1 rs2 : Reg} {s : State} :
    NextPreserves s (execAmo op dbl aq rl rd rs1 rs2 s) := nextPreserves_instr preserving_parts

@[simp] theorem nextPreserves_execLrSc {op : LrScOp} {dbl aq rl : Bool} {rd rs1 rs2 : Reg} {s : State} :
    NextPreserves s (execLrSc op dbl aq rl rd rs1 rs2 s) := nextPreserves_instr preserving_parts

@[simp] theorem nextPreserves_execFence {fm pred succ : BitVec 4} {rd rs1 : Reg} {s : State} :
    NextPreserves s (execFence fm pred succ rd rs1 s) := nextPreserves_instr preserving_parts

@[simp] theorem nextPreserves_execFenceI {imm : BitVec 12} {rd rs1 : Reg} {s : State} :
    NextPreserves s (execFenceI imm rd rs1 s) := nextPreserves_instr preserving_parts

@[simp] theorem nextPreserves_execSfenceVma {rs1 rs2 : Reg} {s : State} :
    NextPreserves s (execSfenceVma rs1 rs2 s) := nextPreserves_instr preserving_parts

@[simp] theorem nextPreserves_execWfi {s : State} :
    NextPreserves s (execWfi s) := nextPreserves_instr preserving_parts

@[simp] theorem nextPreserves_execEcall {s : State} :
    NextPreserves s (execEcall s) := nextPreserves_instrJump preserving_parts

@[simp] theorem nextPreserves_execEbreak {form : Form} {s : State} :
    NextPreserves s (execEbreak form s) := nextPreserves_instrJump preserving_parts

@[simp] theorem nextPreserves_execSret {s : State} :
    NextPreserves s (execSret s) := nextPreserves_instrJump preserving_parts

@[simp] theorem nextPreserves_execMret {s : State} :
    NextPreserves s (execMret s) := nextPreserves_instrJump preserving_parts

@[simp] theorem nextPreserves_execCsr {op : CsrOp} {rd : Reg} {src : CsrSrc} {csr : BitVec 12} {s : State} :
    NextPreserves s (execCsr op rd src csr s) := nextPreserves_instr preserving_parts

@[simp] theorem nextPreserves_execSbind {q : BitVec 3} {v : BitVec 6} {rs1 : Reg} {s : State} :
    NextPreserves s (execSbind q v rs1 s) := nextPreserves_instr preserving_parts

@[simp] theorem nextPreserves_execSunbind {q : BitVec 3} {s : State} :
    NextPreserves s (execSunbind q s) := nextPreserves_instr preserving_parts

@[simp] theorem nextPreserves_execSflush {q : BitVec 3} {s : State} :
    NextPreserves s (execSflush q s) := nextPreserves_instr preserving_parts

@[simp] theorem nextPreserves_execSstat {rd : Reg} {q : BitVec 3} {s : State} :
    NextPreserves s (execSstat rd q s) := nextPreserves_instr preserving_parts

@[simp] theorem nextPreserves_execSskip {q : BitVec 3} {rs1 : Reg} {s : State} : NextPreserves s (execSskip q rs1 s) := by
  refine nextPreserves_instr (preserving_bind preserving_onVc fun _ => preserving_bind preserving_useX fun count =>
    preserving_get_bind fun t ht => ?_)
  dsimp only
  split
  · exact preserving_raiseStream
  · split
    · exact preserving_modVec
    next b _ =>
      split
      · exact fun _ h => h
      · split
        · exact fun _ h => h
        · split
          · exact fun _ h => h
          next hl =>
            have f (u : State) (l : List Pop) (hu : Keeps t u) : Keeps t { u with cpu := { u.cpu with pops := l } } := hu
            exact preserving_set (ht.step (f _ _ (keeps_setBank (.refl t) fun hb => ⟨hb.1, Nat.le_of_not_lt hl⟩)))
    · exact preserving_raiseStream

@[simp] theorem nextPreserves_execVconf {rd rs1 : Reg} {s : State} :
    NextPreserves s (execVconf rd rs1 s) := nextPreserves_instr preserving_parts

@[simp] theorem nextPreserves_execVconfi {rd : Reg} {imm : BitVec 12} {s : State} :
    NextPreserves s (execVconfi rd imm s) := nextPreserves_instr preserving_parts

@[simp] theorem nextPreserves_execVstrip {rd rs1 : Reg} {s : State} :
    NextPreserves s (execVstrip rd rs1 s) := nextPreserves_instr preserving_parts

@[simp] theorem nextPreserves_execVstripi {rd : Reg} {imm : BitVec 12} {s : State} :
    NextPreserves s (execVstripi rd imm s) := nextPreserves_instr preserving_parts

@[simp] theorem nextPreserves_execVclose {s : State} :
    NextPreserves s (execVclose s) := nextPreserves_instr preserving_parts

@[simp] theorem nextPreserves_execVadd {o : VOp} {s : State} :
    NextPreserves s (execVadd o s) := nextPreserves_instr preserving_parts

@[simp] theorem nextPreserves_execVsub {o : VOp} {s : State} :
    NextPreserves s (execVsub o s) := nextPreserves_instr preserving_parts

@[simp] theorem nextPreserves_execVmul {o : VOp} {s : State} :
    NextPreserves s (execVmul o s) := nextPreserves_instr preserving_parts

@[simp] theorem nextPreserves_execVmulh {o : VOp} {s : State} :
    NextPreserves s (execVmulh o s) := nextPreserves_instr preserving_parts

@[simp] theorem nextPreserves_execVand {o : VOp} {s : State} :
    NextPreserves s (execVand o s) := nextPreserves_instr preserving_parts

@[simp] theorem nextPreserves_execVor {o : VOp} {s : State} :
    NextPreserves s (execVor o s) := nextPreserves_instr preserving_parts

@[simp] theorem nextPreserves_execVxor {o : VOp} {s : State} :
    NextPreserves s (execVxor o s) := nextPreserves_instr preserving_parts

@[simp] theorem nextPreserves_execVsll {o : VOp} {s : State} :
    NextPreserves s (execVsll o s) := nextPreserves_instr preserving_parts

@[simp] theorem nextPreserves_execVsrl {o : VOp} {s : State} :
    NextPreserves s (execVsrl o s) := nextPreserves_instr preserving_parts

@[simp] theorem nextPreserves_execVsra {o : VOp} {s : State} :
    NextPreserves s (execVsra o s) := nextPreserves_instr preserving_parts

@[simp] theorem nextPreserves_execVmin {o : VOp} {s : State} :
    NextPreserves s (execVmin o s) := nextPreserves_instr preserving_parts

@[simp] theorem nextPreserves_execVmax {o : VOp} {s : State} :
    NextPreserves s (execVmax o s) := nextPreserves_instr preserving_parts

@[simp] theorem nextPreserves_execVminu {o : VOp} {s : State} :
    NextPreserves s (execVminu o s) := nextPreserves_instr preserving_parts

@[simp] theorem nextPreserves_execVmaxu {o : VOp} {s : State} :
    NextPreserves s (execVmaxu o s) := nextPreserves_instr preserving_parts

@[simp] theorem nextPreserves_execVsadd {o : VOp} {s : State} :
    NextPreserves s (execVsadd o s) := nextPreserves_instr preserving_parts

@[simp] theorem nextPreserves_execVceq {o : VOp} {s : State} :
    NextPreserves s (execVceq o s) := nextPreserves_instr preserving_parts

@[simp] theorem nextPreserves_execVclt {o : VOp} {s : State} :
    NextPreserves s (execVclt o s) := nextPreserves_instr preserving_parts

@[simp] theorem nextPreserves_execVcltu {o : VOp} {s : State} :
    NextPreserves s (execVcltu o s) := nextPreserves_instr preserving_parts

@[simp] theorem nextPreserves_execVid {o : VOp} {s : State} :
    NextPreserves s (execVid o s) := nextPreserves_instr preserving_parts

@[simp] theorem nextPreserves_execVmv {o : VOp} {s : State} :
    NextPreserves s (execVmv o s) := nextPreserves_instr preserving_parts

@[simp] theorem nextPreserves_execKand {o : VOp} {s : State} :
    NextPreserves s (execKand o s) := nextPreserves_instr preserving_parts

@[simp] theorem nextPreserves_execKor {o : VOp} {s : State} :
    NextPreserves s (execKor o s) := nextPreserves_instr preserving_parts

@[simp] theorem nextPreserves_execKxor {o : VOp} {s : State} :
    NextPreserves s (execKxor o s) := nextPreserves_instr preserving_parts

@[simp] theorem nextPreserves_execKandn {o : VOp} {s : State} :
    NextPreserves s (execKandn o s) := nextPreserves_instr preserving_parts

@[simp] theorem nextPreserves_execKnot {o : VOp} {s : State} :
    NextPreserves s (execKnot o s) := nextPreserves_instr preserving_parts

@[simp] theorem nextPreserves_execKpop {o : VOp} {s : State} :
    NextPreserves s (execKpop o s) := nextPreserves_instr preserving_parts

@[simp] theorem nextPreserves_execKffs {o : VOp} {s : State} :
    NextPreserves s (execKffs o s) := nextPreserves_instr preserving_parts

@[simp] theorem nextPreserves_execKvl {o : VOp} {s : State} :
    NextPreserves s (execKvl o s) := nextPreserves_instr preserving_parts

@[simp] theorem nextPreserves_execVslideup {o : VOp} {s : State} :
    NextPreserves s (execVslideup o s) := nextPreserves_instr preserving_parts

@[simp] theorem nextPreserves_execVslidedn {o : VOp} {s : State} :
    NextPreserves s (execVslidedn o s) := nextPreserves_instr preserving_parts

@[simp] theorem nextPreserves_execVrotl {o : VOp} {s : State} :
    NextPreserves s (execVrotl o s) := nextPreserves_instr preserving_parts

@[simp] theorem nextPreserves_execVgather {o : VOp} {s : State} :
    NextPreserves s (execVgather o s) := nextPreserves_instr preserving_parts

@[simp] theorem nextPreserves_execVzip {o : VOp} {s : State} :
    NextPreserves s (execVzip o s) := nextPreserves_instr preserving_parts

@[simp] theorem nextPreserves_execVunzip {o : VOp} {s : State} :
    NextPreserves s (execVunzip o s) := nextPreserves_instr preserving_parts

@[simp] theorem nextPreserves_execVbrev {o : VOp} {s : State} :
    NextPreserves s (execVbrev o s) := nextPreserves_instr preserving_parts

@[simp] theorem nextPreserves_execVcompress {o : VOp} {s : State} :
    NextPreserves s (execVcompress o s) := nextPreserves_instr preserving_parts

@[simp] theorem nextPreserves_execVext {o : VOp} {s : State} :
    NextPreserves s (execVext o s) := nextPreserves_instr preserving_parts

@[simp] theorem nextPreserves_execVins {o : VOp} {s : State} :
    NextPreserves s (execVins o s) := nextPreserves_instr preserving_parts

@[simp] theorem nextPreserves_execVredsum {o : VOp} {s : State} :
    NextPreserves s (execVredsum o s) := nextPreserves_instr preserving_parts

@[simp] theorem nextPreserves_execVredmax {o : VOp} {s : State} :
    NextPreserves s (execVredmax o s) := nextPreserves_instr preserving_parts

@[simp] theorem nextPreserves_execVdot {o : VOp} {s : State} :
    NextPreserves s (execVdot o s) := nextPreserves_instr preserving_parts

@[simp] theorem nextPreserves_execVredbs {o : VOp} {s : State} :
    NextPreserves s (execVredbs o s) := nextPreserves_instr preserving_parts

end Sys2Proof.Machine
end

section
/- The proofs given as default arguments are elaborated one after another: many at once take a stack each. -/
set_option Elab.async false

namespace Sys2Proof.Machine

/-! The step of the module: the opcode table's arms, the fetch, and the turns of the agenda. -/

section
variable {s : State}

@[simp] theorem nextPreserves_execBase {b : Base} {form : Form} {bits : Nat} : NextPreserves s (execBase b form bits s) :=
  nextPreserves_run preserving_baseBody

/-- One arm for each row of the table, each by the rule of its meaning. -/
@[simp] theorem nextPreserves_exec (i : Instr) : NextPreserves s (exec i s) := by
  cases i <;> simp [exec]

theorem NextPreserves.of_preserves {t : State} {r : Host.Outcome State Fault Refusal} (h : Preserves s t)
    (hr : NextPreserves t r) : NextPreserves s r := fun u hu => h.trans (hr u hu)

theorem nextPreserves_execOn {n : Nat} {i : Instr} : NextPreserves s (execOn n i s) := by
  unfold execOn
  split
  next t heq => exact nextPreserves_next (preserves_turnTo ((preserves_turnTo (.refl s)).trans (nextPreserves_exec i t heq)))
  next r hr => exact fun t ht => absurd ht (hr t)

theorem nextPreserves_execDecoded {w : Nat} {d : Except DecodeError Decoded} : NextPreserves s (execDecoded w d s) := by
  unfold execDecoded
  split
  · exact nextPreserves_withLookahead (nextPreserves_exec _)
  · exact nextPreserves_withLookahead nextPreserves_execBase
  · exact nextPreserves_next (keeps_takeTrap (.refl s)).preserves

/-- What a fetch leaves, if it does not stall, keeps what s has. -/
def Fetched.KeepsFrom (s : State) : Fetched → Prop
  | .bits _ _ t | .trap _ t => Keeps s t
  | .stall => True

theorem keepsFrom_fetchParcel {va : Word} : (s.fetchParcel va).KeepsFrom s := by
  unfold State.fetchParcel
  split
  · exact keeps_xlatMissed (.refl s)
  next x t heq =>
    split
    · exact keeps_xlat heq
    · trivial
    · exact keeps_l2Ask (keeps_xlat heq)

theorem Fetched.KeepsFrom.trans {t : State} {f : Fetched} (h : Keeps s t) (hf : f.KeepsFrom t) : f.KeepsFrom s := by
  cases f with
  | bits => exact h.trans hf
  | trap => exact h.trans hf
  | stall => trivial

theorem keepsFrom_fetchParcels {va : Word} {n : Nat} : (s.fetchParcels va n).KeepsFrom s := by
  induction n generalizing s va with
  | zero => exact .refl s
  | succ n ih =>
    unfold State.fetchParcels
    have hp := keepsFrom_fetchParcel (s := s) (va := va)
    split
    next p b t heq =>
      rw [heq] at hp
      have hq := Fetched.KeepsFrom.trans hp (ih (va := va + 2))
      split
      next hq' => rwa [hq'] at hq
      · exact hq
    · exact hp

theorem keepsFrom_fetch : s.fetch.KeepsFrom s := by
  unfold State.fetch
  have hp := keepsFrom_fetchParcel (s := s) (va := s.cpu.pc)
  split
  next p b t heq =>
    rw [heq] at hp
    have hq := Fetched.KeepsFrom.trans hp (keepsFrom_fetchParcels (va := t.cpu.pc + 2) (n := moreParcels p))
    split
    next hq' => rwa [hq'] at hq
    · exact hq
  · exact hp

theorem nextPreserves_stepHart : NextPreserves s (stepHart s) := by
  unfold stepHart
  split
  · exact nextPreserves_self
  · split
    · exact nextPreserves_next (keeps_takeTrap (.refl s)).preserves
    · have hf := keepsFrom_fetch (s := s)
      split
      next => exact nextPreserves_self
      next heq =>
        rw [heq] at hf
        exact nextPreserves_next (keeps_takeTrap hf).preserves
      next heq =>
        rw [heq] at hf
        split
        · exact nextPreserves_next (keeps_takeTrap hf).preserves
        · exact .of_preserves hf.preserves nextPreserves_execDecoded

theorem nextPreserves_stepTurn {t : Turn} : NextPreserves s (stepTurn t s) := by
  cases t with
  | hart n =>
    dsimp only [stepTurn]
    split
    · exact nextPreserves_next (preserves_turnTo (.refl s))
    · exact fun _ e => by cases e
  | run => exact nextPreserves_stepHart
  | ticks n => exact nextPreserves_next (keeps_passTime (.refl s)).preserves
  | event i =>
    dsimp only [stepTurn]
    split
    · exact nextPreserves_exec i
    · exact nextPreserves_self
  | evict n va =>
    dsimp only [stepTurn]
    split
    · exact nextPreserves_next (preserves_ite.2 ⟨fun _ => .refl s, fun _ => (keeps_evictTlb (.refl s)).preserves⟩)
    · exact fun _ e => by cases e
  | evictL2 line => exact nextPreserves_next (preserves_ite.2 ⟨fun _ => .refl s, fun _ => (keeps_evictLine (.refl s)).preserves⟩)
  | record => exact nextPreserves_next (preserves_ite.2 ⟨fun _ => .refl s, fun _ => (keeps_takeRecord (.refl s)).preserves⟩)
  | hostWrites bus data => exact nextPreserves_next (keeps_hostWrite (.refl s)).preserves
  | hostRefuses page on => exact nextPreserves_next (keeps_hostAnswers (.refl s)).preserves

theorem nextPreserves_refill {r : Host.Outcome State Fault Refusal} (h : NextPreserves s r) : NextPreserves s (refill r) := by
  cases r with
  | next t => exact nextPreserves_next ((h t rfl).step (.refl t))
  | _ => exact fun _ e => by cases e

/-- Every step of the module preserves the three invariants. -/
theorem nextPreserves_step : NextPreserves s (step s) := by
  unfold step
  split
  · split
    · exact nextPreserves_execOn
    · exact nextPreserves_refill nextPreserves_stepHart
  next t r _ =>
    have hs : Preserves s { s with agenda := r } := Keeps.preserves (.refl s)
    split
    · exact .of_preserves hs nextPreserves_stepTurn
    · split
      · exact nextPreserves_execOn
      · exact .of_preserves hs nextPreserves_stepTurn

end

theorem banksFit_iff {s : State} :
    BanksFit s.banks ↔ ∀ c b, (s.bank c b).level ≤ 0x40000 ∧ (s.bank c b).popped ≤ (s.bank c b).level := by
  refine ⟨fun h c b => h (c * 32 + b), fun h k => ?_⟩
  have hk := h (k / 32) (k % 32)
  rwa [State.bank, Nat.div_add_mod'] at hk

/-- Settles O60: every operation of the device keeps the three invariants (`Keeps`), a change of turn moves one strip buffer between
the hart to move and the table of the others, and a strip buffer takes a new store only where its sectors stay at 512 or fewer. -/
theorem everyStepKeepsMemoryCanonical : Obligations.EveryStepKeepsMemoryCanonical := by
  unfold Obligations.EveryStepKeepsMemoryCanonical
  intro s t h
  obtain ⟨hmem, hbanks, hbufs⟩ := nextPreserves_step t h
  exact ⟨hmem, fun hb => banksFit_iff.mp (hbanks (banksFit_iff.mpr hb)), hbufs⟩

end Sys2Proof.Machine
end

section
namespace Sys2Proof.Machine

/-! The CSR instructions: the body of each, from its operand, and what it does when no poisoned register decides the access. -/

/-- The body of a CSR instruction, from whether it writes and from the computation of its operand. -/
def csrBody (op : CsrOp) (rd : Reg) (n : BitVec 12) (write : Bool) (operand : M Word) : M Unit := do
  consume ((← cpu).csrGateBad n.toNat)
  need ((← get).csrLegal n.toNat write)
  let v ← operand
  let bad := (← cpu).csrReadBad n.toNat
  let whole := (← get).csrReplaces n.toNat v
  let old ← csrAccess n.toNat write (fun old => csrNew op old v) (op != .rw && bad)
  consume bad
  if write && op == .rw && whole then modCpu (·.csrClean n.toNat)
  if write && bad && csrMasked n.toNat then modCpu (·.csrSpoil n.toNat true)
  if write && n == 0xB02 then modCpu (·.uncount)
  putXp rd old bad

theorem exec_csr_reg {op : CsrOp} {rd r : Reg} {n : BitVec 12} {s : State} :
    exec (.csr op rd (.reg r) n) s = instr (.csr op rd (.reg r) n) (csrBody op rd n (op == .rw || r != 0) (useX r)) s := rfl

theorem exec_csr_imm {op : CsrOp} {rd : Reg} {z : BitVec 5} {n : BitVec 12} {s : State} :
    exec (.csr op rd (.imm z) n) s
      = instr (.csr op rd (.imm z) n) (csrBody op rd n (op == .rw || z != 0) (pure (z.zeroExtend 64))) s := rfl

@[simp] theorem Hart.setXp_false (h : Hart) (r : Reg) (v : Word) : h.setXp r v false = h.setX r v := rfl

@[simp] theorem State.csrStd_cpoison (s : State) (n : Nat) (v : Word) : (s.csrStd n v).cpu.cpoison = s.cpu.cpoison := by
  unfold State.csrStd
  split <;> rfl

@[simp] theorem State.lanemapWrite_cpoison (s : State) (v : Word) : (s.lanemapWrite v).cpu.cpoison = s.cpu.cpoison := by
  unfold State.lanemapWrite
  dsimp only
  split <;> rfl

@[simp] theorem State.srvroleWrite_cpoison (s : State) (v : Word) : (s.srvroleWrite v).cpu.cpoison = s.cpu.cpoison := by
  unfold State.srvroleWrite
  split <;> rfl

@[simp] theorem State.csrDev_cpoison (s : State) (n : Nat) (v : Word) : (s.csrDev n v).cpu.cpoison = s.cpu.cpoison := by
  unfold State.csrDev
  dsimp only
  split
  · rfl
  · split <;> first | rfl | simp

/-- A register without a mark has none to take away. -/
theorem Hart.csrClean_of_not_csrBad {h : Hart} {n : Nat} (hn : h.csrBad n = false) : h.csrClean n = h := by
  have hf : h.cpoison.filter (fun k => !(csrHome n).contains k) = h.cpoison := by
    rw [List.filter_eq_self]
    intro k hk
    simp only [Hart.csrBad, List.any_eq_false, List.contains_iff_mem] at hn
    simpa using fun hm => hn k hm hk
  show { h with cpoison := h.cpoison.filter _ } = h
  rw [hf]

theorem Hart.csrReach_iff {h : Hart} {n : Nat} : h.csrReach n = true ↔ n / 256 % 4 ≤ h.mode.rank ∧ n / 256 % 4 ≠ 2 := by
  simp only [Hart.csrReach, Bool.and_eq_true, decide_eq_true_eq, bne_iff_ne]
  rfl

theorem State.csrLegal_of {s : State} {n : Nat} {w : Bool} {old : Word} (hr : n / 256 % 4 ≤ s.cpu.mode.rank ∧ n / 256 % 4 ≠ 2)
    (ho : s.csrRead n = some old) (hw : w = true → csrReadOnly n = false) : s.csrLegal n w = true := by
  rw [State.csrLegal, Hart.csrReach_iff.mpr hr, ho]
  cases w with
  | false => rfl
  | true => rw [hw rfl]; rfl

theorem State.csrLegal_eq_false {s : State} {n : Nat} {w : Bool} (h : ¬(n / 256 % 4 ≤ s.cpu.mode.rank ∧ n / 256 % 4 ≠ 2)
    ∨ s.csrRead n = none ∨ w = true ∧ csrReadOnly n = true) : s.csrLegal n w = false := by
  rw [← Hart.csrReach_iff, Bool.not_eq_true] at h
  rcases h with h | h | ⟨hw, h⟩ <;> simp [State.csrLegal, *]

section
variable {s : State} {op : CsrOp} {rd : Reg} {n : BitVec 12} {write : Bool} {operand : M Word} {v old : Word}

theorem runM_csrBody_illegal (hg : s.cpu.csrGateBad n.toNat = false) (hl : s.csrLegal n.toNat write = false) :
    runM (csrBody op rd n write operand) s = (.error (.excBits 2), s) := by
  simp [csrBody, runM_bind, hg, hl]

theorem runM_csrAccess_read {f : Word → Word} {bad : Bool} {n : Nat} (hl : s.csrLegal n false = true) (ho : s.csrRead n = some old) :
    runM (csrAccess n false f bad) s = (.ok old, s) := by
  unfold csrAccess
  rw [runM_bind_ok (runM_get s), hl, runM_bind_ok (runM_need_true s)]
  simp only [ho, Bool.false_eq_true, if_false]
  rfl

theorem runM_csrAccess_write {f : Word → Word} {bad : Bool} {n : Nat} (hl : s.csrLegal n true = true) (ho : s.csrRead n = some old)
    (hn : n ≠ 0x800) : runM (csrAccess n true f bad) s = (.ok old, (s.csrStd n (f old)).csrDev n (f old)) := by
  unfold csrAccess
  rw [runM_bind_ok (runM_get s), hl, runM_bind_ok (runM_need_true s)]
  simp only [ho, if_true, csrPut, if_neg hn]
  rfl

variable (hg : s.cpu.csrGateBad n.toNat = false) (hv : runM operand s = (.ok v, s)) (hb : s.cpu.csrReadBad n.toNat = false)
  (ho : s.csrRead n.toNat = some old)
include hg hv hb ho

theorem runM_csrBody_read (hl : s.csrLegal n.toNat false = true) :
    runM (csrBody op rd n false operand) s = (.ok (), { s with cpu := s.cpu.setX rd old }) := by
  simp [csrBody, runM_bind, hg, hl, hv, hb, runM_csrAccess_read hl ho]

/-- A write leaves the written state with rd set; the count of the instruction that writes `minstret` is taken back. -/
theorem runM_csrBody_write (hl : s.csrLegal n.toNat true = true) (hn : n.toNat ≠ 0x800) :
    let t := (s.csrStd n.toNat (csrNew op old v)).csrDev n.toNat (csrNew op old v)
    runM (csrBody op rd n true operand) s = (.ok (), { t with cpu := (if n == 0xB02 then t.cpu.uncount else t.cpu).setX rd old }) := by
  have hs : s.cpu.csrBad n.toNat = false := by
    simp only [Hart.csrReadBad, Bool.or_eq_false_iff] at hb
    exact hb.1.1
  have hclean : let t := (s.csrStd n.toNat (csrNew op old v)).csrDev n.toNat (csrNew op old v); t.cpu.csrClean n.toNat = t.cpu :=
    Hart.csrClean_of_not_csrBad (by simpa [Hart.csrBad] using hs)
  have ha (bad : Bool) := runM_csrAccess_write (f := fun old => csrNew op old v) (bad := bad) hl ho hn
  dsimp only at ha hclean ⊢
  generalize (s.csrStd n.toNat (csrNew op old v)).csrDev n.toNat (csrNew op old v) = t at ha hclean ⊢
  simp only [csrBody, runM_bind, runM_cpu, runM_get, runM_consume, hg, hl, runM_need_true, hv, hb, ha, Hart.eats_false,
    Bool.true_and, Bool.and_false, Bool.false_and, Bool.false_eq_true, if_false]
  by_cases hw : (op == .rw && s.csrReplaces n.toNat v) = true
  · rw [if_pos hw, runM_bind_ok (runM_modCpu _ _), hclean]
    split <;> rfl
  · rw [if_neg hw]
    split <;> rfl

end

/-! What a CSR instruction comes to, of either kind of operand. -/

theorem State.retired_setX_uncount (t : State) (r : Reg) (v : Word) (k : Nat) :
    t.retired (t.cpu.uncount.setX r v) k = (t.retired (t.cpu.setX r v) k).counting t.cpu.csr.minstret := by
  have hc : t.cpu.csr.minstret - 1 + 1 = t.cpu.csr.minstret := sub_add_cancel _ _
  unfold State.retired State.counting Hart.setX
  split <;> simp only [Hart.advance, Hart.uncount, hc]

section
variable {s : State} {op : CsrOp} {rd : Reg} {n : BitVec 12} {w : Bool} {operand : M Word} {i : Instr} {v old : Word}
  (hg : s.cpu.csrGateBad n.toNat = false)
include hg

theorem instr_csrBody_illegal (h : ¬(n.toNat / 256 % 4 ≤ s.cpu.mode.rank ∧ n.toNat / 256 % 4 ≠ 2) ∨ s.csrRead n.toNat = none
    ∨ w = true ∧ csrReadOnly n.toNat = true) : instr i (csrBody op rd n w operand) s = .next (s.illegalAt i) :=
  instr_illegalAt (runM_csrBody_illegal hg (State.csrLegal_eq_false h))

variable (hn : instrLen i = 4) (hv : runM operand s = (.ok v, s)) (hb : s.cpu.csrReadBad n.toNat = false)
  (hr : n.toNat / 256 % 4 ≤ s.cpu.mode.rank ∧ n.toNat / 256 % 4 ≠ 2) (ho : s.csrRead n.toNat = some old)
include hn hv hb hr ho

theorem instr_csrBody_read (hw : w = false) : instr i (csrBody op rd n w operand) s = .next (s.retired (s.cpu.setX rd old) 4) := by
  subst hw
  exact instr_retired (runM_csrBody_read hg hv hb ho (State.csrLegal_of hr ho (by simp))) hn

theorem instr_csrBody_write (hw : w = true) (hro : csrReadOnly n.toNat = false) (h8 : n.toNat ≠ 0x800) (hm : n.toNat ≠ 0xB02) :
    let t := (s.csrStd n.toNat (csrNew op old v)).csrDev n.toNat (csrNew op old v)
    instr i (csrBody op rd n w operand) s = .next (t.retired (t.cpu.setX rd old) 4) := by
  subst hw
  have hne : (n == 0xB02) = false := by simpa [BitVec.toNat_eq] using hm
  have h := runM_csrBody_write (op := op) (rd := rd) hg hv hb ho (State.csrLegal_of hr ho fun _ => hro) h8
  dsimp only at h ⊢
  rw [hne] at h
  exact instr_retired h hn

/-- The count of the instruction that writes `minstret` is undone before it is done. -/
theorem instr_csrBody_minstret (hw : w = true) (hm : n.toNat = 0xB02) :
    let t := (s.csrStd n.toNat (csrNew op old v)).csrDev n.toNat (csrNew op old v)
    instr i (csrBody op rd n w operand) s = .next ((t.retired (t.cpu.setX rd old) 4).counting (csrNew op old v)) := by
  subst hw
  obtain rfl : n = 0xB02 := BitVec.eq_of_toNat_eq hm
  have h := runM_csrBody_write (op := op) (rd := rd) hg hv hb ho (State.csrLegal_of hr ho fun _ => rfl) (by decide)
  rw [instr_retired h hn]
  exact congrArg Host.Outcome.next (State.retired_setX_uncount _ rd old 4)

end

/-- Settles O28: a CSR instruction by its outcomes, an access that is not legal, a read, a write, and a write of `minstret`. -/
theorem csrInstructionReadsAndWrites : Obligations.CsrInstructionReadsAndWrites := by
  unfold Obligations.CsrInstructionReadsAndWrites
  intro s op rd src n h c v writes reach i hg
  cases src with
  | reg r =>
    have hw : writes ↔ (op == .rw || r != 0) = true := by simp [writes]
    rw [show exec i s = _ from exec_csr_reg, hw, Bool.not_eq_true]
    refine ⟨fun hp hb old hr ho => ?_, instr_csrBody_illegal hg⟩
    have hv := runM_useX r s (hp r rfl)
    exact ⟨instr_csrBody_read hg rfl hv hb hr ho, instr_csrBody_write hg rfl hv hb hr ho, instr_csrBody_minstret hg rfl hv hb hr ho⟩
  | imm z =>
    have hw : writes ↔ (op == .rw || z != 0) = true := by simp [writes]
    rw [show exec i s = _ from exec_csr_imm, hw, Bool.not_eq_true]
    refine ⟨fun _ hb old hr ho => ?_, instr_csrBody_illegal hg⟩
    have hv := runM_pure (z.zeroExtend 64) s
    exact ⟨instr_csrBody_read hg rfl hv hb hr ho, instr_csrBody_write hg rfl hv hb hr ho, instr_csrBody_minstret hg rfl hv hb hr ho⟩
end Sys2Proof.Machine
end

section
namespace Sys2Proof.Machine

/-! Bit fields of numbers: each bit of a field read, and of a number with a field replaced. -/

theorem bitAt_eq_testBit (v i : Nat) : bitAt v i = v.testBit i := by
  rw [Nat.testBit_eq_decide_div_mod_eq, bitAt, beq_eq_decide]

theorem testBit_bitsAt (v lo n b : Nat) : (bitsAt v lo n).testBit b = (decide (b < n) && v.testBit (lo + b)) := by
  rw [bitsAt, Nat.testBit_mod_two_pow, Nat.testBit_div_two_pow, Nat.add_comm]

/-- A number with a field replaced, as the bits above it, the field, and the bits below it. -/
theorem putBits_eq (v lo n f : Nat) : putBits v lo n f = 2 ^ lo * (2 ^ n * (v / 2 ^ lo / 2 ^ n) + f % 2 ^ n) + v % 2 ^ lo := by
  have hv : v = 2 ^ lo * (2 ^ n * (v / 2 ^ lo / 2 ^ n)) + v % 2 ^ lo + v / 2 ^ lo % 2 ^ n * 2 ^ lo := by
    conv_lhs => rw [← Nat.div_add_mod v (2 ^ lo), ← Nat.div_add_mod (v / 2 ^ lo) (2 ^ n)]
    ring
  have hs : v - v / 2 ^ lo % 2 ^ n * 2 ^ lo = 2 ^ lo * (2 ^ n * (v / 2 ^ lo / 2 ^ n)) + v % 2 ^ lo := Nat.sub_eq_of_eq_add hv
  rw [putBits, bitsAt, hs]
  ring

theorem testBit_putBits (v lo n f b : Nat) :
    (putBits v lo n f).testBit b = if lo ≤ b ∧ b < lo + n then f.testBit (b - lo) else v.testBit b := by
  rw [putBits_eq, Nat.testBit_two_pow_mul_add _ (Nat.mod_lt _ (by positivity)), Nat.testBit_two_pow_mul_add _ (Nat.mod_lt _ (by positivity)),
    Nat.testBit_div_two_pow, Nat.testBit_div_two_pow, Nat.testBit_mod_two_pow, Nat.testBit_mod_two_pow]
  by_cases h₁ : b < lo
  · simp [h₁, Nat.not_le.mpr h₁]
  · by_cases h₂ : b < lo + n
    · have h₃ : b - lo < n := by omega
      simp [h₁, h₂, h₃, Nat.not_lt.mp h₁]
    · have h₃ : ¬b - lo < n := by omega
      have h₄ : b - lo - n + n + lo = b := by omega
      simp [h₁, h₂, h₃, h₄]

theorem bitsAt_two (v lo : Nat) : bitsAt v lo 2 = (v.testBit lo).toNat + 2 * (v.testBit (lo + 1)).toNat := by
  have h : v / 2 ^ (lo + 1) = v / 2 ^ lo / 2 := by rw [Nat.div_div_eq_div_mul, pow_succ]
  rw [bitsAt, Nat.toNat_testBit, Nat.toNat_testBit, h]
  omega

theorem putBits_lt {v lo n f m : Nat} (hv : v < 2 ^ m) (hn : lo + n ≤ m) : putBits v lo n f < 2 ^ m := by
  refine Nat.lt_pow_two_of_testBit _ fun b hb => ?_
  rw [testBit_putBits, if_neg (by omega), Nat.testBit_lt_two_pow (hv.trans_le (Nat.pow_le_pow_right (by decide) hb))]

/-! The registers that hold a part of what is written. -/

theorem getLsbD_mergeBits (old v mask : Word) {b : Nat} (hb : b < 64) :
    (mergeBits old v mask).getLsbD b = if mask.getLsbD b then v.getLsbD b else old.getLsbD b := by
  rw [mergeBits, BitVec.getLsbD_or, BitVec.getLsbD_and, BitVec.getLsbD_and, BitVec.getLsbD_not]
  cases mask.getLsbD b <;> simp [hb]

/-- MPP of a written `mstatus`: 2, an absent mode, becomes 0. -/
theorem testBit_mpp (n b : Nat) : (if bitsAt n 11 2 = 2 then putBits n 11 2 0 else n).testBit b =
    if b = 12 then n.testBit 11 && n.testBit 12 else n.testBit b := by
  rw [bitsAt_two]
  cases h₁ : n.testBit 11 <;> cases h₂ : n.testBit 12 <;> (simp [testBit_putBits]; grind)

/-- FS of a written `mstatus`: off or dirty. -/
theorem testBit_fs (n b : Nat) : (putBits n 13 2 (if bitsAt n 13 2 = 0 then 0 else 3)).testBit b =
    if b = 13 ∨ b = 14 then n.testBit 13 || n.testBit 14 else n.testBit b := by
  have hf : (13 ≤ b ∧ b < 13 + 2) ↔ b = 13 ∨ b = 14 := by omega
  rw [testBit_putBits, bitsAt_two]
  simp only [hf]
  split
  next h => rcases h with rfl | rfl <;> cases n.testBit 13 <;> cases n.testBit 14 <;> rfl
  · rfl

/-- The stored `mstatus`: MPP 2 becomes 0, FS is off or dirty, MPP and FS apart the writable bits are taken, and UXL and SXL are 2. -/
theorem getLsbD_mstatusStored (v : Word) {b : Nat} (hb : b < 64) :
    (mstatusStored v).getLsbD b =
      if b = 11 then v.getLsbD 11 else if b = 12 then v.getLsbD 11 && v.getLsbD 12
      else if b = 13 ∨ b = 14 then v.getLsbD 13 || v.getLsbD 14
      else if b ∈ [1, 3, 5, 7, 8, 17, 18, 19, 20, 21, 22] then v.getLsbD b else b == 33 || b == 35 := by
  have hw (i : Nat) : (v &&& 0x7E79AA).toNat.testBit i = (v.getLsbD i && (0x7E79AA : Word).getLsbD i) := by
    rw [BitVec.testBit_toNat, BitVec.getLsbD_and]
  have hlt : (v &&& 0x7E79AA).toNat < 2 ^ 23 := by
    refine (Nat.and_le_right (n := v.toNat) (m := 0x7E79AA)).trans_lt ?_
    decide
  have hmask : ∀ i < 64, (0x7E79AA : Word).getLsbD i
      = decide (i = 11 ∨ i = 12 ∨ i = 13 ∨ i = 14 ∨ i ∈ [1, 3, 5, 7, 8, 17, 18, 19, 20, 21, 22]) := by decide
  have hxl : ∀ i < 64, 23 ≤ i → Nat.testBit 0x1400 (i - 23) = (i == 33 || i == 35) := by decide
  unfold mstatusStored
  generalize (v &&& 0x7E79AA).toNat = m at hw hlt ⊢
  have hm : (if bitsAt m 11 2 = 2 then putBits m 11 2 0 else m) < 2 ^ 23 := by
    split
    · exact putBits_lt hlt (by decide)
    · exact hlt
  dsimp only
  rw [BitVec.getLsbD_ofNat, show 0xA00000000 = 2 ^ 23 * 0x1400 from rfl, Nat.testBit_two_pow_mul_add _ (putBits_lt hm (by decide)),
    testBit_fs, testBit_mpp, testBit_mpp, testBit_mpp]
  rw [hw, hw, hw, hw, hw, hmask b hb, hmask 11 (by decide), hmask 12 (by decide), hmask 13 (by decide), hmask 14 (by decide)]
  by_cases hlo : b < 23
  · have hx : (b == 33 || b == 35) = false := by grind
    rw [if_pos hlo, hx]
    grind
  · rw [if_neg hlo, hxl b hb (by omega), if_neg (by omega), if_neg (by omega), if_neg (by omega), if_neg (by simp; omega)]
    simp [hb]

/-- `mstatus` as read after a write: FS and SD only on a vector core. -/
theorem getLsbD_mstatusRead {h : Hart} {v : Word} (hm : h.csr.mstatus = mstatusStored v) {b : Nat} (hb : b < 64) :
    h.mstatusRead.getLsbD b = if b = 13 ∨ b = 14 ∨ b = 63 then h.isVc && (v.getLsbD 13 || v.getLsbD 14) else (mstatusStored v).getLsbD b := by
  have h13 := getLsbD_mstatusStored v (b := 13) (by decide)
  have h14 := getLsbD_mstatusStored v (b := 14) (by decide)
  have h63 := getLsbD_mstatusStored v (b := 63) (by decide)
  simp only [Nat.reduceEqDiff, if_false, or_false, or_true, if_true] at h13 h14
  replace h63 : (mstatusStored v).getLsbD 63 = false := h63
  have hsd : ∀ i < 64, (0x8000000000000000 : Word).getLsbD i = decide (i = 63) := by decide
  have hfs : ∀ i < 64, (0x6000 : Word).getLsbD i = decide (i = 13 ∨ i = 14) := by decide
  have h3 : bitsAt (mstatusStored v).toNat 13 2 = 3 ↔ (v.getLsbD 13 || v.getLsbD 14) = true := by
    rw [bitsAt_two, BitVec.testBit_toNat, BitVec.testBit_toNat, h13, h14]
    cases v.getLsbD 13 || v.getLsbD 14 <;> simp
  unfold Hart.mstatusRead
  rw [hm]
  dsimp only
  cases h.isVc with
  | true =>
    simp only [h3, if_true, Bool.true_and]
    split
    · rw [BitVec.getLsbD_or, hsd b hb]
      grind
    · grind
  | false =>
    simp only [Bool.false_eq_true, if_false, Bool.false_and, BitVec.getLsbD_and, BitVec.getLsbD_not, hfs b hb]
    grind

theorem getLsbD_normSatp (v : Word) {b : Nat} (hb : b < 64) :
    (normSatp v).getLsbD b = if b < 60 then v.getLsbD b else b == 60 || b == 63 := by
  rw [normSatp, BitVec.getLsbD_ofNat, testBit_putBits, BitVec.testBit_toNat]
  have h9 : ∀ i < 4, Nat.testBit 9 i = (i + 60 == 60 || i + 60 == 63) := by decide
  by_cases h : b < 60
  · simp [hb, h, Nat.not_le.mpr h]
  · have := h9 (b - 60) (by omega)
    rw [Nat.sub_add_cancel (by omega)] at this
    simp [hb, h, Nat.not_lt.mp h, this]

theorem getLsbD_satpStored (mode : Mode) (v : Word) {b : Nat} (hb : b < 64) :
    (satpStored mode v).getLsbD b =
      if b < 60 ∨ mode = .m ∧ v.toNat / 2 ^ 60 = 0 then v.getLsbD b else b == 60 || b == 63 := by
  have hq : bitsAt v.toNat 60 4 = v.toNat / 2 ^ 60 := by rw [bitsAt]; omega
  unfold satpStored
  rw [hq]
  by_cases hm : mode = .m ∧ v.toNat / 2 ^ 60 = 0
  · rw [if_pos (by simpa [and_comm] using hm), if_pos (.inr hm)]
  · rw [if_neg (by simpa [and_comm] using hm), getLsbD_normSatp v hb]
    simp only [hm, or_false]

/-- A write of ones takes the same bits from what a hart shows as from what each published command shows. -/
theorem Hart.chkAll_chkClear (h : Hart) (b : BitVec 4) : (h.chkClear b).chkAll = h.chkAll &&& ~~~b := by
  have step (l : List ChkPend) (a : BitVec 4) :
      ((l.map fun p => { p with bits := p.bits &&& ~~~b }).filter fun p => p.bits != 0).foldl (fun b p => b ||| p.bits) (a &&& ~~~b)
        = l.foldl (fun b p => b ||| p.bits) a &&& ~~~b := by
    induction l generalizing a with
    | nil => rfl
    | cons p r ih =>
      have hor : (a ||| p.bits) &&& ~~~b = (a &&& ~~~b) ||| (p.bits &&& ~~~b) := by
        ext i; simp [Bool.and_or_distrib_right]
      rw [List.map_cons, List.foldl_cons, ← ih, hor, List.filter_cons]
      split
      · rfl
      next hz =>
        have hz : p.bits &&& ~~~b = 0#4 := by simpa using hz
        rw [hz, BitVec.or_zero]
  exact step _ _

/-- The interrupts that a register holds, as the bits of its mask. -/
theorem getLsbD_sInts : ∀ b < 64, sInts.getLsbD b = decide (b ∈ [1, 5, 9]) := by decide
theorem getLsbD_allInts : ∀ b < 64, allInts.getLsbD b = decide (b ∈ [1, 3, 5, 7, 9, 11]) := by decide
theorem getLsbD_medelegMask : ∀ b < 64, medelegMask.getLsbD b
    = decide (b ∈ [1, 2, 3, 4, 5, 6, 7, 8, 9, 12, 13, 15, 24, 25, 26, 28, 29, 30, 31, 50]) := by decide
theorem getLsbD_sstatusMask : ∀ b < 64, sstatusMask.getLsbD b
    = decide (b = 13 ∨ b = 14 ∨ b = 63 ∨ b ∈ [1, 5, 8, 18, 19] ∨ b = 32 ∨ b = 33) := by decide

/-- Settles O29, register by register, each by the rule of what it stores. -/
theorem csrWritesStoreTheLegalValue : Obligations.CsrWritesStoreTheLegalValue := by
  unfold Obligations.CsrWritesStoreTheLegalValue
  intro s v w
  refine ⟨rfl, rfl, rfl, rfl, rfl, rfl, rfl, rfl, rfl, rfl, fun hv => ⟨if_pos hv, if_pos hv⟩, ?_, ?_, ?_⟩
  · show some (BitVec.ofNat 64 ((s.cpu.chkClear (BitVec.ofNat 4 v.toNat)).chkAll).toNat) = _
    rw [Hart.chkAll_chkClear, BitVec.ofNat_toNat, BitVec.ofNat_toNat]
  · simp only [List.forall_mem_cons]
    exact ⟨rfl, rfl, rfl, rfl, rfl, rfl, by simp⟩
  · intro c stands merged fs status
    refine ⟨⟨_, rfl, fun b hb => ?_⟩, ⟨_, rfl, fun b hb => ?_⟩, ⟨_, rfl, fun b hb => ?_⟩, ⟨_, rfl, fun b hb => ?_⟩,
      ⟨_, rfl, fun b hb => ?_⟩, ⟨_, rfl, fun b hb => ?_⟩, fun hs => ⟨satpStored s.cpu.mode v, ?_, fun b hb => ?_⟩,
      ⟨_, rfl, fun b hb => ?_⟩, ⟨_, rfl, fun b hb => ?_⟩⟩
    · exact (BitVec.getLsbD_and ..).trans (by rw [getLsbD_medelegMask b hb, Bool.and_comm])
    · exact (BitVec.getLsbD_and ..).trans (by rw [getLsbD_sInts b hb, Bool.and_comm])
    · exact (BitVec.getLsbD_and ..).trans (by rw [getLsbD_allInts b hb, Bool.and_comm])
    · exact getLsbD_mergeBits _ _ _ hb
    · exact (BitVec.getLsbD_and ..).trans ((congrArg (· && _) (getLsbD_mergeBits _ _ _ hb)).trans (Bool.and_comm _ _))
    · exact (BitVec.getLsbD_and ..).trans ((congrArg (· && _) (getLsbD_mergeBits _ _ _ hb)).trans (Bool.and_comm _ _))
    · refine if_neg ?_
      intro h
      rw [Bool.and_eq_true, bitAt_eq_testBit, BitVec.testBit_toNat, beq_iff_eq] at h
      obtain ⟨hm, hb⟩ := h
      exact absurd (hb.symm.trans (hs hm)) (by decide)
    · exact getLsbD_satpStored _ _ hb
    · refine (getLsbD_mstatusRead rfl hb).trans ?_
      rw [getLsbD_mstatusStored v hb]
      show (if _ then fs else _) = _
      rcases eq_or_ne b 35 with rfl | h35
      · rfl
      · simp only [status, beq_eq_false_iff_ne.mpr h35, Bool.or_false, if_neg h35]
        grind
    · refine (BitVec.getLsbD_and ..).trans ?_
      rw [getLsbD_mstatusRead rfl hb, getLsbD_mstatusStored _ hb]
      have hm (i : Nat) (hi : i < 64) := getLsbD_mergeBits s.cpu.csr.mstatus v sstatusMask hi
      have hmask := getLsbD_sstatusMask b hb
      show ((if _ then s.cpu.isVc && _ else _) && _) = _
      by_cases hf : b = 13 ∨ b = 14 ∨ b = 63
      · have ht : sstatusMask.getLsbD b = true := by grind
        rw [if_pos hf, ht, hm 13 (by decide), hm 14 (by decide), Bool.and_true]
        exact (if_pos hf).symm
      · by_cases ho : b ∈ [1, 5, 8, 18, 19]
        · have ht : sstatusMask.getLsbD b = true := by grind
          have hl : b ∈ [1, 3, 5, 7, 8, 17, 18, 19, 20, 21, 22] := by grind
          rw [hm b hb, ht, if_neg hf]
          simp only [status, if_neg hf, if_pos ho, if_pos hl]
          grind
        · have ht : sstatusMask.getLsbD b = (b == 32 || b == 33) := by grind
          simp only [status, if_neg hf, if_neg ho, ht]
          grind
end Sys2Proof.Machine
end

section
namespace Sys2Proof.Machine

/-! Where the registers of the MMIO region stand. -/

/-- Register r stands at an offset that is a multiple of 8. -/
def MmioAt (off : Nat) (r : MmioReg) : Prop := mmioReg off = some r ∧ off % 8 = 0

theorem mmioAt_dqu {off : Nat} (h : off < 0x01000000) (ha : off % 8 = 0) {r : MmioReg} (hr : dquReg off = some r) : MmioAt off r :=
  ⟨(if_pos h).trans hr, ha⟩

theorem mmioAt_cluster {c o : Nat} (hc : c < 16) (ho : o < 0x100000) (ha : o % 8 = 0) {r : MmioReg} (hr : clusterReg c o = some r) :
    MmioAt (clBlock c + o) r := by
  refine ⟨?_, by rw [clBlock]; omega⟩
  have hd : (clBlock c + o - 0x01000000) / 0x100000 = c := by rw [clBlock]; omega
  have hm : (clBlock c + o) % 0x100000 = o := by rw [clBlock]; omega
  unfold clBlock at *
  simp (disch := omega) only [mmioReg, if_pos, if_neg, hd, hm, hr]

theorem mmioAt_port {p o : Nat} (hp : p < 8) (ho : o < 0x200000) (ha : o % 8 = 0) {r : MmioReg} (hr : portReg p o = some r) :
    MmioAt (fhBlock p + o) r := by
  refine ⟨?_, by rw [fhBlock]; omega⟩
  have hd : (fhBlock p + o - 0x04000000) / 0x200000 = p := by rw [fhBlock]; omega
  have hm : (fhBlock p + o) % 0x200000 = o := by rw [fhBlock]; omega
  unfold fhBlock at *
  simp (disch := omega) only [mmioReg, if_pos, if_neg, hd, hm, hr]

theorem mmioAt_host {o : Nat} (ho : o < 0x01000000) (ha : o % 8 = 0) {r : MmioReg} (hr : hostReg o = some r) :
    MmioAt (hostBlock + o) r := by
  have hb : hostBlock = 0x05000000 := rfl
  refine ⟨?_, by omega⟩
  have hm : hostBlock + o - 0x05000000 = o := by omega
  rw [mmioReg, if_neg (by omega), if_neg (by omega), if_neg (by omega), if_neg (by omega), if_neg (by omega), if_pos (by omega), hm, hr]

theorem mmioAt_power {o : Nat} (ho : o < 0x01000000) (ha : o % 8 = 0) {r : MmioReg} (hr : powerReg o = some r) :
    MmioAt (powerBlock + o) r := by
  have hb : powerBlock = 0x07000000 := rfl
  refine ⟨?_, by omega⟩
  have hm : powerBlock + o - 0x07000000 = o := by omega
  rw [mmioReg, if_neg (by omega), if_neg (by omega), if_neg (by omega), if_neg (by omega), if_neg (by omega), if_neg (by omega),
    if_neg (by omega), if_pos (by omega), hm, hr]

theorem mmioAt_lease {l f : Nat} (hl : l < 256) (hf : f < 4) : MmioAt (leaseOff l f) (.lease l f) := by
  unfold leaseOff
  refine mmioAt_dqu (by omega) (by omega) ?_
  simp (disch := omega) only [dquReg, if_pos, if_neg]
  congr <;> omega

theorem mmioAt_efq {c f : Nat} (hc : c < 16) (hf : f < 6) : MmioAt (efOff c f) (.efq c f) := by
  unfold efOff
  refine mmioAt_dqu (by omega) (by omega) ?_
  simp (disch := omega) only [dquReg, if_pos, if_neg]
  congr <;> omega

theorem mmioAt_fdstat {d : Nat} (hd : d < 4096) : MmioAt (fdstatOff d) (.fdstat d) := by
  unfold fdstatOff
  refine mmioAt_dqu (by omega) (by omega) ?_
  simp (disch := omega) only [dquReg, if_pos, if_neg]
  congr
  omega

theorem mmioAt_mdrop {c : Nat} (hc : c < 16) : MmioAt (clBlock c + 0x600) (.mdrop c) :=
  mmioAt_cluster hc (by decide) (by decide) rfl

theorem mmioAt_handler {c n q f : Nat} (hc : c < 16) (hn : n < 192) (hq : q < 16) (hf : f < 4) :
    MmioAt (handlerOff c n q f) (.handler c n q f) := by
  rw [show handlerOff c n q f = clBlock c + (0x80000 + n * 0x200 + q * 0x20 + f * 8) by unfold handlerOff; omega]
  refine mmioAt_cluster hc (by omega) (by omega) ?_
  simp (disch := omega) only [clusterReg, if_pos, if_neg]
  congr <;> omega

theorem mmioAt_spcfg {p f : Nat} (hp : p < 4096) (hf : f < 4) : MmioAt (spOff p f) (.spcfg p f) := by
  rw [show spOff p f = hostBlock + (0x80000 + p * 0x20 + f * 8) by unfold spOff; omega]
  refine mmioAt_host (by omega) (by omega) ?_
  simp (disch := omega) only [hostReg, if_pos, if_neg]
  congr <;> omega

theorem mmioAt_lhcnt {k : Nat} (hk : k < 256) : MmioAt (powerBlock + 0x1008 + 0x10 * k) (.lhcnt k) := by
  rw [Nat.add_assoc]
  refine mmioAt_power (by omega) (by omega) ?_
  have hk' : (0x1008 + 0x10 * k - 0x1000) / 0x10 = k := by omega
  unfold powerReg
  split
  case h_7 => simp (disch := omega) only [if_pos, if_neg, hk']
  all_goals omega

theorem mmioAt_txprod {p r : Nat} (hp : p < 8) (hr : r < 16) : MmioAt (fhBlock p + 0x3000 + r * 0x20 + 8) (.txprod p r) := by
  rw [Nat.add_assoc, Nat.add_assoc, ← Nat.add_assoc 0x3000]
  refine mmioAt_port hp (by omega) (by omega) ?_
  have hf : (0x3000 + r * 0x20 + 8) % 0x20 / 8 = 1 := by omega
  have hd : (0x3000 + r * 0x20 + 8 - 0x3000) / 0x20 = r := by omega
  simp (disch := omega) only [portReg, if_pos, if_neg, hf, hd]

theorem mmioAt_twdoor {d : Nat} (hd : d < 49152) : MmioAt (twinBlock + 0x100000 + 8 * d) (.twdoor d) := by
  have hb : twinBlock = 0x06000000 := rfl
  refine ⟨?_, by omega⟩
  have hm : (twinBlock + 0x100000 + 8 * d - 0x06000000 - 0x100000) / 8 = d := by omega
  rw [mmioReg, if_neg (by omega), if_neg (by omega), if_neg (by omega), if_neg (by omega), if_neg (by omega), if_neg (by omega),
    if_pos (by omega)]
  dsimp only
  rw [if_neg (by omega), if_neg (by omega), if_pos (by omega), hm]

theorem mmioAt_disc {n f off : Nat} (hf : f < 8) (h : discOff n f = some off) : MmioAt off (.disc n f) := by
  unfold discOff at h
  split at h
  next hn =>
    cases h
    rw [Nat.add_assoc]
    refine mmioAt_cluster hn (by omega) (by omega) ?_
    simp (disch := omega) only [clusterReg, if_pos, if_neg]
    congr
    omega
  · split at h
    next hn =>
      cases h
      subst hn
      refine mmioAt_dqu (by omega) (by omega) ?_
      simp (disch := omega) only [dquReg, if_pos, if_neg]
      congr
      omega
    · split at h
      next hn =>
        cases h
        rw [Nat.add_assoc]
        refine mmioAt_port (by omega) (by omega) (by omega) ?_
        simp (disch := omega) only [portReg, if_pos, if_neg]
        congr <;> omega
      · cases h

/-- No register stands at or beyond the end of the mailbox block. -/
theorem MmioAt.lt {off : Nat} {r : MmioReg} (h : MmioAt off r) : off < 0x09000000 := by
  obtain ⟨h, -⟩ := h
  by_contra hn
  rw [mmioReg, if_neg (by omega), if_neg (by omega), if_neg (by omega), if_neg (by omega), if_neg (by omega), if_neg (by omega),
    if_neg (by omega), if_neg (by omega), if_neg (by omega)] at h
  cases h

end Sys2Proof.Machine
end

section
namespace Sys2Proof.Machine

/-! A store of 8 bytes to a register by a hart in M-mode, and what it leaves in a register without a rule of its own. -/

theorem regionOf_mmio {off : Nat} (h : off < 0x100000000) : regionOf (mmioBase + off) = .mmio off := by
  have hb : mmioBase = 0x20000000000 := rfl
  have hc : csramBase = 0x10000000000 := rfl
  rw [regionOf, if_neg (by omega), if_neg (by omega), if_pos (by omega), Nat.add_sub_cancel_left]

section
variable {s : State} {off : Nat} {r : MmioReg}

theorem mmioReg_at (hat : MmioAt off r) : mmioReg (off - off % 8) = some r := by
  obtain ⟨hr, ha⟩ := hat
  rw [ha]
  exact hr

theorem mmioStore_at (hat : MmioAt off r) {v : Nat} (hv : v < 2 ^ 64) : s.mmioStore off 8 v = s.mmioPut off r v (2 ^ 64 - 1) := by
  rw [State.mmioStore, mmioReg_at hat]
  simp only [hat.2, Nat.mod_eq_of_lt hv, Nat.mul_zero, Nat.pow_zero, Nat.mul_one, Nat.sub_zero]
  rfl

variable (hm : s.cpu.mode = .m) (hat : MmioAt off r) (hok : r.storeOk s.cpu .m 8 = true)
include hm hat hok

/-- A hart in M-mode gets as far as whether the store may be performed now. -/
theorem runM_mmioWriteBody (v : Nat) : runM (mmioWriteBody off 8 v) s
    = if s.mmioReady off then (.ok (), s.mmioStore off 8 v) else (.error (.wait ⟨.credit, BitVec.ofNat 64 (mmioBase + off), 0, false⟩), s) := by
  have hpa := regionOf_mmio (off := off) (hat.lt.trans (by decide))
  have hrole : s.roleBad (mmioBase + off) s.cpu.mode = false := by rw [hm]; simp [State.roleBad]
  have hal : (mmioBase + off) % 8 = 0 := by have := hat.2; rw [mmioBase]; omega
  have hverdict : s.storeVerdict true (mmioBase + off) 8 s.cpu.mode = .ok := by
    rw [State.storeVerdict, hpa]
    simp [mmioReg_at hat, hal, hm, hok]
  unfold mmioWriteBody
  simp only [runM_bind, runM_get, runM_consume, hrole, hverdict, runM_obey_ok, Hart.eats_false]
  split <;> rfl

theorem mmioWrite_ready (hr : s.mmioReady off = true) {v : Nat} (hv : v < 2 ^ 64) :
    mmioWrite off 8 v s = .next (s.mmioPut off r v (2 ^ 64 - 1)) := by
  refine run_ok ?_
  rw [runM_mmioWriteBody hm hat hok, if_pos hr, mmioStore_at hat hv]

end

/-- A register a hart in M-mode may store to, and never a doorbell, whose store may have to wait. -/
def MmioReg.Open (r : MmioReg) : Prop := (∀ h, r.storeOk h .m 8 = true) ∧ ∀ i, r ≠ .twdoor i

theorem mmioReady_open {s : State} {off : Nat} {r : MmioReg} (hat : MmioAt off r) (ho : r.Open) : s.mmioReady off = true := by
  unfold State.mmioReady
  rw [mmioReg_at hat]
  split
  next i h => exact absurd (Option.some.inj h) (ho.2 i)
  · rfl

theorem mmioWrite_open {s : State} {off : Nat} {r : MmioReg} (hm : s.cpu.mode = .m) (hat : MmioAt off r) (ho : r.Open) {v : Nat}
    (hv : v < 2 ^ 64) : mmioWrite off 8 v s = .next (s.mmioPut off r v (2 ^ 64 - 1)) :=
  mmioWrite_ready hm hat (ho.1 _) (mmioReady_open hat ho) hv

/-- What the fields of a stored register become, before their legal values: those that are RW are written, the others stay. -/
def State.mmioMix (s : State) (off : Nat) (r : MmioReg) (v mask : Nat) : Nat :=
  let old := (s.mmioValue off r).toNat
  let merged := (v &&& mask) ||| (old &&& (2 ^ 64 - 1 - mask))
  (merged &&& r.rw) ||| (old &&& (2 ^ 64 - 1 - r.rw) &&& (2 ^ 64 - 1 - (r.w1c &&& v &&& mask)))

/-- The store to a register by its fields alone. -/
def State.mmioPlain (s : State) (off : Nat) (r : MmioReg) (v mask : Nat) : State :=
  s.mmioSet off r.reset (BitVec.ofNat 64 (r.norm s (s.mmioValue off r).toNat (s.mmioMix off r v mask)))

theorem testBit_mmioMix {s : State} {off : Nat} {r : MmioReg} {v b : Nat} (hw : r.w1c = 0) (hr : r.rw < 2 ^ 64) (hb : b < 64) :
    (s.mmioMix off r v (2 ^ 64 - 1)).testBit b = if r.rw.testBit b then v.testBit b else (s.mmioValue off r).getLsbD b := by
  have hn : (2 ^ 64 - 1 - r.rw).testBit b = !r.rw.testBit b := by
    rw [Nat.sub_sub, Nat.add_comm 1, Nat.testBit_two_pow_sub_succ hr, decide_eq_true hb, Bool.true_and]
  simp only [State.mmioMix, hw, Nat.sub_self, Nat.and_zero, Nat.zero_and, Nat.or_zero, Nat.sub_zero, Nat.testBit_or, Nat.testBit_and,
    Nat.testBit_two_pow_sub_one, hn, hb, BitVec.testBit_toNat]
  cases r.rw.testBit b <;> simp

@[simp] theorem mmioGet_mmioSet_same (s : State) (off : Nat) (d v : Word) : (s.mmioSet off d v).mmioGet off d = v := by
  unfold State.mmioGet
  rw [State.mmioSet_mmio]
  split
  next h => rw [tabGet_erase, if_pos rfl, h]; rfl
  · rw [tabGet_insert, if_pos rfl]; rfl

theorem mmioGet_mmioSet_ne (s : State) {off off' : Nat} (d d' v : Word) (h : off' ≠ off) :
    (s.mmioSet off d v).mmioGet off' d' = s.mmioGet off' d' := by
  unfold State.mmioGet
  rw [State.mmioSet_mmio]
  split
  · rw [tabGet_erase, if_neg h]
  · rw [tabGet_insert, if_neg h]

/-- A register of fields that are RW or RO, the RW ones at the bits of `rw`, which is stored as written. -/
structure MmioReg.Fields (r : MmioReg) (rw : Nat) : Prop where
  isOpen : r.Open := by exact ⟨fun _ => rfl, nofun⟩
  reset : r.reset = 0 := by rfl
  rw_eq : r.rw = rw := by rfl
  rw_lt : rw < 2 ^ 64 := by decide
  w1c : r.w1c = 0 := by rfl
  stored (s : State) : r.computed s = none := by intros; rfl
  norm (s : State) (old v : Nat) : r.norm s old v = v := by intros; rfl
  put (s : State) (off v mask : Nat) : s.mmioPut off r v mask = s.mmioPlain off r v mask := by intros; rfl

/-- Each bit that a store leaves in such a register. -/
theorem MmioReg.Fields.getLsbD_mmioGet {s : State} {off rw : Nat} {r : MmioReg} (h : r.Fields rw) (v : Word) {b : Nat} (hb : b < 64) :
    ((s.mmioPlain off r v.toNat (2 ^ 64 - 1)).mmioGet off 0).getLsbD b = if rw.testBit b then v.getLsbD b else (s.mmioGet off 0).getLsbD b := by
  have hval : s.mmioValue off r = s.mmioGet off 0 := by rw [State.mmioValue, h.stored, h.reset]; rfl
  rw [State.mmioPlain, h.reset, h.norm, mmioGet_mmioSet_same, BitVec.getLsbD_ofNat, testBit_mmioMix h.w1c (h.rw_eq ▸ h.rw_lt) hb, h.rw_eq,
    hval, decide_eq_true hb, Bool.true_and, BitVec.testBit_toNat]

/-- A register that is RW as a whole takes the value written. -/
theorem MmioReg.Fields.mmioGet_whole {s : State} {off : Nat} {r : MmioReg} (h : r.Fields (ones 0 64)) (v : Word) :
    (s.mmioPlain off r v.toNat (2 ^ 64 - 1)).mmioGet off 0 = v := by
  refine BitVec.eq_of_getLsbD_eq fun b hb => ?_
  have hbits : ∀ b < 64, (ones 0 64).testBit b = true := by decide
  rw [h.getLsbD_mmioGet v hb, if_pos (hbits b hb)]

theorem MmioReg.Fields.write_next {s : State} {off rw : Nat} {r : MmioReg} (h : r.Fields rw) (hm : s.cpu.mode = .m) (hat : MmioAt off r)
    (v : Word) : mmioWrite off 8 v.toNat s = .next (s.mmioPlain off r v.toNat (2 ^ 64 - 1)) :=
  (mmioWrite_open hm hat h.isOpen v.isLt).trans (by rw [h.put])

/-- A store by a hart in M-mode to such a register writes the RW fields and leaves the others. -/
theorem MmioReg.Fields.write {s : State} {off rw : Nat} {r : MmioReg} {fs : List (Nat × Nat)} (h : r.Fields rw) (hm : s.cpu.mode = .m)
    (hat : MmioAt off r) (v : Word) (hfs : ∀ b < 64, rw.testBit b = fs.any fun f => decide (f.1 ≤ b ∧ b < f.1 + f.2)) :
    ∃ t, exec (.registerWrite (.mmio off 8) v) s = .next t ∧ t.cpu = s.cpu ∧ t.mem = s.mem ∧ ∀ b, b < 64 → (t.mmioGet off 0).getLsbD b =
      if fs.any fun f => decide (f.1 ≤ b ∧ b < f.1 + f.2) then v.getLsbD b else (s.mmioGet off 0).getLsbD b := by
  refine ⟨_, h.write_next hm hat v, rfl, rfl, fun b hb => ?_⟩
  rw [h.getLsbD_mmioGet v hb, hfs b hb]

end Sys2Proof.Machine
end

section
namespace Sys2Proof.Machine

/-! Fields of a number after a field of it is replaced. -/

theorem bitsAt_lt (v lo n : Nat) : bitsAt v lo n < 2 ^ n := Nat.mod_lt _ (by positivity)

theorem bitsAt_congr {v w lo n : Nat} (h : ∀ b, lo ≤ b → b < lo + n → v.testBit b = w.testBit b) : bitsAt v lo n = bitsAt w lo n := by
  refine Nat.eq_of_testBit_eq fun b => ?_
  rw [testBit_bitsAt, testBit_bitsAt]
  by_cases hb : b < n
  · rw [h (lo + b) (by omega) (by omega)]
  · simp [hb]

theorem bitsAt_putBits_same (v lo n f : Nat) : bitsAt (putBits v lo n f) lo n = f % 2 ^ n := by
  refine Nat.eq_of_testBit_eq fun b => ?_
  rw [testBit_bitsAt, testBit_putBits, Nat.testBit_mod_two_pow]
  by_cases hb : b < n
  · simp [hb]
  · simp [hb]

theorem bitsAt_putBits_ne {v lo n f lo' n' : Nat} (h : lo' + n' ≤ lo ∨ lo + n ≤ lo') :
    bitsAt (putBits v lo n f) lo' n' = bitsAt v lo' n' :=
  bitsAt_congr fun b _ _ => by rw [testBit_putBits, if_neg (by omega)]

theorem bitsAt_warl_same {v lo n : Nat} {f : Nat → Nat} (h : f (bitsAt v lo n) < 2 ^ n) :
    bitsAt (warl v lo n f) lo n = f (bitsAt v lo n) := by
  rw [warl, bitsAt_putBits_same, Nat.mod_eq_of_lt h]

theorem bitsAt_warl_ne {v lo n lo' n' : Nat} {f : Nat → Nat} (h : lo' + n' ≤ lo ∨ lo + n ≤ lo') :
    bitsAt (warl v lo n f) lo' n' = bitsAt v lo' n' := bitsAt_putBits_ne h

theorem bitAt_warl_ne {v lo n i : Nat} {f : Nat → Nat} (h : i < lo ∨ lo + n ≤ i) : bitAt (warl v lo n f) i = bitAt v i := by
  rw [bitAt_eq_testBit, bitAt_eq_testBit, warl, testBit_putBits, if_neg (by omega)]

theorem bitsAt_ofNat {x lo n : Nat} (h : lo + n ≤ 64) : bitsAt (BitVec.ofNat 64 x).toNat lo n = bitsAt x lo n :=
  bitsAt_congr fun b _ hb => by rw [BitVec.toNat_ofNat, Nat.testBit_mod_two_pow, decide_eq_true (by omega), Bool.true_and]

theorem bitAt_ofNat {x i : Nat} (h : i < 64) : bitAt (BitVec.ofNat 64 x).toNat i = bitAt x i := by
  rw [bitAt_eq_testBit, bitAt_eq_testBit, BitVec.toNat_ofNat, Nat.testBit_mod_two_pow, decide_eq_true h, Bool.true_and]

section
variable {s : State} {off : Nat} {r : MmioReg} {v : Nat}

/-- A field that is RW takes what is written. -/
theorem bitsAt_mmioMix {lo n : Nat} (hw : r.w1c = 0) (hr : r.rw < 2 ^ 64) (hn : lo + n ≤ 64)
    (hf : ∀ b < 64, lo ≤ b ∧ b < lo + n → r.rw.testBit b = true) : bitsAt (s.mmioMix off r v (2 ^ 64 - 1)) lo n = bitsAt v lo n :=
  bitsAt_congr fun b hl hb => by rw [testBit_mmioMix hw hr (by omega), if_pos (hf b (by omega) ⟨hl, hb⟩)]

theorem bitAt_mmioMix {i : Nat} (hw : r.w1c = 0) (hr : r.rw < 2 ^ 64) (hi : i < 64) (hf : r.rw.testBit i = true) :
    bitAt (s.mmioMix off r v (2 ^ 64 - 1)) i = bitAt v i := by
  rw [bitAt_eq_testBit, bitAt_eq_testBit, testBit_mmioMix hw hr hi, if_pos hf]

/-- A store of all 8 bytes writes all that is written. -/
theorem and_fullMask {v : Nat} (hv : v < 2 ^ 64) : v &&& (2 ^ 64 - 1) = v := by
  rw [Nat.and_two_pow_sub_one_eq_mod, Nat.mod_eq_of_lt hv]

end
end Sys2Proof.Machine
end

section
/- The proofs given as default arguments are elaborated one after another: many at once take a stack each. -/
set_option Elab.async false

namespace Sys2Proof.Machine

/-! The registers, each by what a store of a hart in M-mode does to it. -/

section
variable {l c d n q p k : Nat}

theorem fields_leaseRows : (MmioReg.lease (l + 1) 0).Fields (ones 0 64) := {}
theorem fields_leaseReserve : (MmioReg.lease (l + 1) 2).Fields (ones 0 32) := {}
theorem fields_rclate : MmioReg.rclate.Fields (ones 0 32) := {}
theorem fields_crdrop : MmioReg.crdrop.Fields (ones 0 32) := {}
theorem fields_efBase : (MmioReg.efq c 0).Fields (ones 12 40) := {}
theorem fields_efHead : (MmioReg.efq c 3).Fields (ones 0 64) := {}
theorem fields_mdrop : (MmioReg.mdrop c).Fields (ones 0 32) := {}
theorem fields_fdstat : (MmioReg.fdstat d).Fields (ones 63 1 + ones 0 48) := {}
theorem fields_handlerLast : (MmioReg.handler c n q 3).Fields (ones 0 33) := {}
theorem fields_ddtbase : MmioReg.ddtbase.Fields (ones 17 35 + 1) := {}
theorem fields_domsel : MmioReg.domsel.Fields (ones 0 12) := {}
theorem fields_spcfgLast : (MmioReg.spcfg p 3).Fields 0xFFFF00000000 := {}
theorem fields_lhcnt : (MmioReg.lhcnt k).Fields (ones 0 32) := {}
theorem fields_txprod : (MmioReg.txprod p k).Fields (ones 0 64) := {}
theorem fields_spcfgKey : (MmioReg.spcfg p 1).Fields (ones 0 64) := {}
theorem fields_handler {f : Nat} (hf : f < 3) : (MmioReg.handler c n q f).Fields (ones 0 64) := by
  interval_cases f <;> exact {}

end

section
variable {s : State} {off : Nat} {v : Word}

/-- A hart in M-mode performs its store to a register that is no doorbell at once. -/
theorem exec_mmio {r : MmioReg} (hm : s.cpu.mode = .m) (hat : MmioAt off r) (ho : r.Open) (v : Word) :
    exec (.registerWrite (.mmio off 8) v) s = .next (s.mmioPut off r v.toNat (2 ^ 64 - 1)) := mmioWrite_open hm hat ho v.isLt

theorem merged_full (v : Word) (old : Nat) : (v.toNat &&& (2 ^ 64 - 1)) ||| (old &&& (2 ^ 64 - 1 - (2 ^ 64 - 1))) = v.toNat := by
  rw [and_fullMask v.isLt, Nat.sub_self, Nat.and_zero, Nat.or_zero]

theorem storedWord_full (v : Word) : BitVec.ofNat 64 (v.toNat &&& (2 ^ 64 - 1)) = v := by
  rw [and_fullMask v.isLt, BitVec.ofNat_toNat, BitVec.setWidth_eq]

theorem mmioPut_readOnly {r : MmioReg} (hr : r ∈ [.dqfree, .dqtime, .dqseq, .l2stat, .bootst]) {v mask : Nat} :
    s.mmioPut off r v mask = s := by
  simp only [List.mem_cons, List.not_mem_nil, or_false] at hr
  rcases hr with rfl | rfl | rfl | rfl | rfl <;> rfl

theorem mmioPut_l2cmd (h : v.toNat % 16 ∉ [1, 2, 3]) : s.mmioPut off .l2cmd v.toNat (2 ^ 64 - 1) = s := by
  simp only [List.mem_cons, List.not_mem_nil, or_false, not_or] at h
  obtain ⟨h1, h2, h3⟩ := h
  show s.l2Cmd (BitVec.ofNat 64 _) = s
  rw [storedWord_full, State.l2Cmd]
  have hb : bitsAt v.toNat 0 4 = v.toNat % 16 := by simp [bitsAt]
  rw [hb]
  split
  · contradiction
  · contradiction
  · contradiction
  · rfl

theorem mmioPut_rstreq : s.mmioPut off .rstreq v.toNat (2 ^ 64 - 1) = if v.toNat % 4 = 1 ∨ v.toNat % 4 = 2 then
    { s with power := { s.power with request := if v.toNat % 4 = 1 then 1 else 2 } } else s := by
  show s.rstReq (BitVec.ofNat 64 _) = _
  rw [storedWord_full, State.rstReq]
  have hb : bitsAt v.toNat 0 2 = v.toNat % 4 := by simp [bitsAt]
  rw [hb]
  split
  next h => simp [h]
  next h => simp [h]
  next h1 h2 => rw [if_neg (not_or.mpr ⟨h1, h2⟩)]

theorem mmioPut_pwrstat : s.mmioPut off .pwrstat v.toNat (2 ^ 64 - 1)
    = if v.getLsbD 0 then { s with power := { s.power with excursion := false } } else s := by
  show (if bitAt (BitVec.ofNat 64 _).toNat 0 then _ else _) = _
  rw [storedWord_full, bitAt_eq_testBit, BitVec.testBit_toNat]

theorem mmioPut_pwrcap : s.mmioPut off .pwrcap v.toNat (2 ^ 64 - 1)
    = { s with power := { s.power with capFw := max 300 (min 600 (v.toNat % 1024)) } } := by
  show { s with power := { s.power with capFw := capClamp (_ % 1024) } } = _
  rw [merged_full]
  rfl

theorem mmioPut_rolelock : s.mmioPut off .rolelock v.toNat (2 ^ 64 - 1) = s.roleLock v := by
  show s.roleLock (BitVec.ofNat 64 _) = _
  rw [storedWord_full]

theorem mmioPut_twdoor {d v mask : Nat} : s.mmioPut off (.twdoor d) v mask = s.twdoor := rfl

theorem mmioPut_efwake {c v : Nat} (hv : v < 2 ^ 64) : s.mmioPut off (.efq c 4) v (2 ^ 64 - 1) = s.efwake c v := by
  show s.efwake c (BitVec.ofNat 64 _).toNat = _
  rw [and_fullMask hv, BitVec.toNat_ofNat, Nat.mod_eq_of_lt hv]

theorem mmioPut_tinc {n : Nat} : s.mmioPut off (.disc n 2) v.toNat (2 ^ 64 - 1) = s.setTinc n (v.toNat % 2 ^ 40) := by
  show s.setTinc n (_ % 2 ^ 40) = _
  rw [merged_full]

theorem mmioPut_tstep {n : Nat} : s.mmioPut off (.disc n 3) v.toNat (2 ^ 64 - 1) = s.tstep n v := by
  show s.tstep n (BitVec.ofNat 64 _) = _
  rw [storedWord_full]

theorem mmioPut_beacon {n m : Nat} (hm : m < 64) : s.mmioPut off (.disc n 5) m (2 ^ 64 - 1) = s.beacon n m := by
  show s.beacon n ((BitVec.ofNat 64 _).toNat % 64) = _
  rw [and_fullMask (by omega), BitVec.toNat_ofNat]
  congr
  omega

/-- The store to a lease's LCFG sets, beside the register, the time from which a lease is valid. -/
theorem mmioPut_lcfg {l : Nat} (hl : 1 ≤ l) {v mask : Nat} : ∃ d : Dqu, s.mmioPut off (.lease l 1) v mask
    = { s.mmioPlain off (.lease l 1) v mask with dqu := d } := by
  obtain ⟨k, rfl⟩ := Nat.exists_eq_add_of_le' hl
  simp only [State.mmioPut]
  split <;> exact ⟨_, rfl⟩

/-- The store to a fault queue's configuration may, beside it, reset the queue's tail. -/
theorem mmioPut_efcfg {c v mask : Nat} : s.mmioPut off (.efq c 1) v mask = s.mmioPlain off (.efq c 1) v mask
    ∨ s.mmioPut off (.efq c 1) v mask = (s.mmioPlain off (.efq c 1) v mask).mmioSet (efOff c 2) 0 0 := by
  simp only [State.mmioPut]
  split
  · exact .inr rfl
  · exact .inl rfl

/-- LCFG after a store: VALID and the window count as written, the weight at least 1. -/
theorem lcfg_mmioPlain {l : Nat} (hoff : off = leaseOff l 1) :
    let t := s.mmioPlain off (.lease l 1) v.toNat (2 ^ 64 - 1)
    bitAt (t.lcfg l) 0 = v.getLsbD 0 ∧ bitsAt (t.lcfg l) 16 16 = max 1 (bitsAt v.toNat 16 16) ∧ bitsAt (t.lcfg l) 40 8 = bitsAt v.toNat 40 8 := by
  subst hoff
  intro t
  have ht : t.lcfg l = (BitVec.ofNat 64 (warl (s.mmioMix (leaseOff l 1) (.lease l 1) v.toNat (2 ^ 64 - 1)) 16 16 (max 1))).toNat := by
    rw [State.lcfg, show t.mmioGet (leaseOff l 1) 0x10000 = _ from mmioGet_mmioSet_same ..]
    rfl
  have hr : (MmioReg.lease l 1).rw = ones 40 8 + ones 16 16 + 1 := rfl
  have hrw : (MmioReg.lease l 1).rw < 2 ^ 64 := by rw [hr]; decide
  have hw : (MmioReg.lease l 1).w1c = 0 := rfl
  rw [ht, bitAt_ofNat (by decide), bitsAt_ofNat (by decide), bitsAt_ofNat (by decide)]
  refine ⟨?_, ?_, ?_⟩
  · rw [bitAt_warl_ne (by decide), bitAt_mmioMix hw hrw (by decide) (by rw [hr]; decide), bitAt_eq_testBit, BitVec.testBit_toNat]
  · have hm : bitsAt (s.mmioMix (leaseOff l 1) (.lease l 1) v.toNat (2 ^ 64 - 1)) 16 16 = bitsAt v.toNat 16 16 :=
      bitsAt_mmioMix hw hrw (by decide) (by rw [hr]; decide)
    have hlt := bitsAt_lt v.toNat 16 16
    rw [bitsAt_warl_same (by rw [hm]; omega), hm]
  · rw [bitsAt_warl_ne (by decide), bitsAt_mmioMix hw hrw (by decide) (by rw [hr]; decide)]

/-- DQCTL after a store: the age and the quantum at least 1. -/
theorem dqctl_mmioPlain : let t := s.mmioPlain 0 .dqctl v.toNat (2 ^ 64 - 1)
    t.dqAge = max 1 (bitsAt v.toNat 16 16) ∧ t.dqQuant = max 1 (bitsAt v.toNat 0 16) := by
  intro t
  have ht : t.mmioGet 0 0x640010
      = BitVec.ofNat 64 (warl (warl (s.mmioMix 0 .dqctl v.toNat (2 ^ 64 - 1)) 16 16 (max 1)) 0 16 (max 1)) := mmioGet_mmioSet_same ..
  have hm (lo : Nat) (hl : lo + 16 ≤ 32) : bitsAt (s.mmioMix 0 .dqctl v.toNat (2 ^ 64 - 1)) lo 16 = bitsAt v.toNat lo 16 :=
    bitsAt_mmioMix rfl (by decide) (by omega) fun b _ hb => by
      have : ∀ b < 32, MmioReg.dqctl.rw.testBit b = true := by decide
      exact this b (by omega)
  have h0 := bitsAt_lt v.toNat 0 16
  have h16 := bitsAt_lt v.toNat 16 16
  rw [State.dqAge, State.dqQuant, ht, bitsAt_ofNat (by decide), bitsAt_ofNat (by decide), bitsAt_warl_ne (by decide),
    bitsAt_warl_same (by rw [hm 16 (by decide)]; omega), bitsAt_warl_same (by rw [bitsAt_warl_ne (by decide), hm 0 (by decide)]; omega),
    bitsAt_warl_ne (by decide), hm 16 (by decide), hm 0 (by decide)]
  exact ⟨rfl, rfl⟩

/-- The size of a fault queue after a store to its configuration is from 6 to 16. -/
theorem efcfg_mmioPlain {c : Nat} : bitsAt ((s.mmioPlain (efOff c 1) (.efq c 1) v.toNat (2 ^ 64 - 1)).mmioGet (efOff c 1) 0x60000).toNat 16 5
    = max 6 (min 16 (bitsAt v.toNat 16 5)) := by
  have hr : (MmioReg.efq c 1).rw = ones 62 2 + ones 16 5 + ones 4 12 := rfl
  have hm : bitsAt (s.mmioMix (efOff c 1) (.efq c 1) v.toNat (2 ^ 64 - 1)) 16 5 = bitsAt v.toNat 16 5 :=
    bitsAt_mmioMix rfl (by rw [hr]; decide) (by decide) (by rw [hr]; decide)
  rw [show (s.mmioPlain (efOff c 1) (.efq c 1) v.toNat (2 ^ 64 - 1)).mmioGet (efOff c 1) 0x60000 = _ from mmioGet_mmioSet_same ..,
    bitsAt_ofNat (by decide)]
  have hn (old x : Nat) : (MmioReg.efq c 1).norm s old x
      = warl (warl x 16 5 fun x => max 6 (min 16 x)) 4 8 fun x => if x ≤ 191 then x else 0 := rfl
  rw [hn, bitsAt_warl_ne (by decide), bitsAt_warl_same (by omega), hm]

end
end Sys2Proof.Machine
end

section
namespace Sys2Proof.Machine

/-! The rows that write a CSR, by a hart in M-mode. -/

section
variable {s : State} {v : Word} (hm : s.cpu.mode = .m)
include hm

theorem csrLegal_m {n : Nat} {old : Word} (hro : csrReadOnly n = false) (h2 : n / 256 % 4 ≠ 2) (hr : s.csrRead n = some old) :
    s.csrLegal n true = true :=
  State.csrLegal_of ⟨by rw [hm]; exact Nat.le_of_lt_succ (Nat.mod_lt _ (by decide)), h2⟩ hr fun _ => hro

/-- A CSR but `vcfg` takes the value, and loses its mark where the write replaces it. -/
theorem csrWrite_m {n : Nat} {old : Word} (hro : csrReadOnly n = false) (h8 : n ≠ 0x800) (h2 : n / 256 % 4 ≠ 2)
    (hr : s.csrRead n = some old) : csrWrite n v s = .next (if s.csrReplaces n v then
      { (s.csrStd n v).csrDev n v with cpu := ((s.csrStd n v).csrDev n v).cpu.csrClean n } else (s.csrStd n v).csrDev n v) := by
  refine run_ok ?_
  rw [runM_bind_ok (runM_csrAccess_write (csrLegal_m hm hro h2 hr) hr h8)]
  split <;> rfl

/-- `vcfg` becomes what `vconf` makes of it; its mark is its own affair. -/
theorem csrWrite_vcfg {m : Nat} {t : State} (hv : s.cpu.isVc = true) (h : runM (setVcfg v.toNat) s = (.ok m, t)) :
    csrWrite 0x800 v s = .next t := by
  have hr : s.csrRead 0x800 = some s.cpu.vec.vcfg := if_pos hv
  refine run_ok ?_
  have ha : runM (csrAccess 0x800 true fun _ => v) s = (.ok s.cpu.vec.vcfg, t) := by
    unfold csrAccess
    rw [runM_bind_ok (runM_get s), csrLegal_m hm rfl (by decide) hr, runM_bind_ok (runM_need_true s)]
    simp only [hr, if_true, csrPut]
    rw [bind_assoc, runM_bind_ok h]
    rfl
  rw [runM_bind_ok ha]
  rfl

end

/-- An unsupported configuration only sets VBAD. -/
theorem runM_setVcfg_unsupported {s : State} {req : Nat} (hs : s.cpu.vec.strip = none) (h : vcfgSupported s.cpu.vec (req % 8192) = false) :
    runM (setVcfg req) s = (.ok 0, { s with cpu := { s.cpu with vec := { s.cpu.vec with vcfg := s.cpu.vec.vcfg ||| 0x8000000000000000 } } }) := by
  unfold setVcfg
  rw [runM_bind_ok (runM_cpu s)]
  have hb : s.cpu.vec.strip.isSome = false := by rw [hs]; rfl
  simp only [hb, h, Bool.false_and, Bool.false_eq_true, if_false, Bool.not_false, if_true]
  rfl

/-- A supported configuration that keeps NREG is stored, and neither x registers, pc nor memory change. -/
theorem runM_setVcfg_sameNreg {s : State} {req : Nat} (h : vcfgSupported s.cpu.vec (req % 8192) = true)
    (hn : bitsAt (req % 8192) 2 2 = bitsAt s.cpu.vec.vcfg.toNat 2 2) : ∃ m t, runM (setVcfg req) s = (.ok m, t)
      ∧ t.cpu.vec.vcfg = BitVec.ofNat 64 (vcfgStored (req % 8192)) ∧ t.cpu.x = s.cpu.x ∧ t.cpu.pc = s.cpu.pc ∧ t.mem = s.mem := by
  unfold setVcfg
  rw [runM_bind_ok (runM_cpu s)]
  simp only [hn, h, bne_self_eq_false, Bool.and_false, Bool.false_eq_true, if_false, Bool.not_true]
  rw [runM_bind_ok (runM_get s), runM_bind_ok (runM_modCpu _ _)]
  split <;> split <;> exact ⟨_, _, rfl, rfl, rfl, rfl, rfl⟩

/-! Stores beside the plain registers. -/

theorem row_setRow (s : State) (c r r' : Nat) (w : Row) : (s.setRow c r w).row c r' = if r' = r then w else s.row c r' := by
  have hk : rowKey c r' = rowKey c r ↔ r' = r := by simp only [rowKey, Nat.add_left_cancel_iff]
  simp only [← hk]
  exact tabGet_set ..

/-- One row of those that are repaired, if it is named. -/
def State.repairRow (s : State) (c rows k : Nat) : State :=
  if bitAt rows k then s.setRow c k { s.row c k with repair := false } else s

theorem repairRow_cpu_mem (s : State) (c rows k : Nat) : (s.repairRow c rows k).cpu = s.cpu ∧ (s.repairRow c rows k).mem = s.mem := by
  unfold State.repairRow
  split <;> exact ⟨rfl, rfl⟩

theorem row_repairRow (s : State) (c rows k r : Nat) :
    (s.repairRow c rows k).row c r = if r = k ∧ bitAt rows r then { s.row c r with repair := false } else s.row c r := by
  unfold State.repairRow
  split
  next hb =>
    rw [row_setRow]
    split
    next hr => rw [if_pos ⟨hr, hr ▸ hb⟩, hr]
    next hr => rw [if_neg fun ⟨hk, _⟩ => hr hk]
  next hb => rw [if_neg fun ⟨hk, hr⟩ => hb (hk ▸ hr)]

theorem foldl_repairRow (c rows : Nat) (l : List Nat) (s : State) : let t := l.foldl (fun s k => s.repairRow c rows k) s
    t.cpu = s.cpu ∧ t.mem = s.mem ∧ ∀ r, t.row c r = if r ∈ l ∧ bitAt rows r then { s.row c r with repair := false } else s.row c r := by
  induction l generalizing s with
  | nil => simp
  | cons k l ih =>
    obtain ⟨hcpu, hmem, hrow⟩ := ih (s.repairRow c rows k)
    obtain ⟨hc, hm⟩ := repairRow_cpu_mem s c rows k
    refine ⟨hcpu.trans hc, hmem.trans hm, fun r => ?_⟩
    rw [List.foldl_cons, hrow, row_repairRow]
    by_cases hb : bitAt rows r = true
    · by_cases hk : r = k
      · simp [hk, hk ▸ hb]
      · simp [hk, hb]
    · simp [hb]

/-- Every named row's chains are repaired, and no other row changes. -/
theorem efwake_rows (s : State) (c : Nat) (rows : BitVec 4) : (s.efwake c rows.toNat).cpu = s.cpu ∧ (s.efwake c rows.toNat).mem = s.mem
    ∧ ∀ r, r < 4 → (s.efwake c rows.toNat).row c r = if rows.getLsbD r then { s.row c r with repair := false } else s.row c r := by
  obtain ⟨hc, hm, hrow⟩ := foldl_repairRow c rows.toNat (List.range 4) s
  refine ⟨hc, hm, fun r hr => (hrow r).trans ?_⟩
  rw [bitAt_eq_testBit, BitVec.testBit_toNat]
  simp only [List.mem_range, hr, true_and]

/-- What the step of a time counter but that of the DQU sets. -/
theorem tstep_of_ne {s : State} {n : Nat} {v : Word} (hl : (s.counter n).locked = false) (h0 : v ≠ 0) (h63 : v.getLsbD 63 = false)
    (hn : n ≠ 16) : s.tstep n v = s.setCounter n { s.counter n with base := ((s.counter n).base + v.toNat * 2 ^ 32) % 2 ^ 96 } := by
  simp only [State.tstep, bitAt_eq_testBit, BitVec.testBit_toNat, hl, h63, Bool.false_or, Bool.or_false, decide_eq_true_eq, if_neg h0, if_neg hn]

theorem tstep_ignored {s : State} {n : Nat} {v : Word} (h : (s.counter n).locked = true ∨ v = 0 ∨ v.getLsbD 63 = true) : s.tstep n v = s := by
  refine if_pos ?_
  rw [bitAt_eq_testBit, BitVec.testBit_toNat]
  simpa [or_assoc] using h

end Sys2Proof.Machine
end

section
namespace Sys2Proof.Machine

/-! Registers that a store of M-mode reaches at once. -/

theorem open_lease {l f : Nat} : (MmioReg.lease l f).Open := ⟨fun _ => rfl, nofun⟩
theorem open_efq {c f : Nat} : (MmioReg.efq c f).Open := ⟨fun _ => rfl, nofun⟩
theorem open_disc {n f : Nat} : (MmioReg.disc n f).Open := ⟨fun _ => rfl, nofun⟩
theorem open_dqctl : MmioReg.dqctl.Open := ⟨fun _ => rfl, nofun⟩
theorem open_l2cmd : MmioReg.l2cmd.Open := ⟨fun _ => rfl, nofun⟩
theorem open_rstreq : MmioReg.rstreq.Open := ⟨fun _ => rfl, nofun⟩
theorem open_pwrstat : MmioReg.pwrstat.Open := ⟨fun _ => rfl, nofun⟩
theorem open_pwrcap : MmioReg.pwrcap.Open := ⟨fun _ => rfl, nofun⟩
theorem open_rolelock : MmioReg.rolelock.Open := ⟨fun _ => rfl, nofun⟩

theorem open_readOnly {r : MmioReg} (hr : r ∈ [.dqfree, .dqtime, .dqseq, .l2stat, .bootst]) : r.Open := by
  simp only [List.mem_cons, List.not_mem_nil, or_false] at hr
  rcases hr with rfl | rfl | rfl | rfl | rfl <;> exact ⟨fun _ => rfl, nofun⟩

/-! `lanemap` and `srvrole`. -/

theorem lanemapWrite_of_eq_zero {s : State} {v : Word} (h : v.truncate 32 &&& ~~~(tabGet 0 s.unwene.fused s.cpu.num) = 0) :
    s.lanemapWrite v = s := by
  replace h : BitVec.ofNat 32 v.toNat &&& ~~~(tabGet 0 s.unwene.fused s.cpu.num) = 0 := by rw [BitVec.ofNat_toNat]; exact h
  exact if_pos (by rw [h, decide_eq_true rfl, Bool.or_true])

theorem lanemapWrite_of_ne_zero {s : State} {v : Word} {lanes : BitVec 32} (hv : s.cpu.isVc = true)
    (hl : v.truncate 32 &&& ~~~(tabGet 0 s.unwene.fused s.cpu.num) = lanes) (h : lanes ≠ 0) :
    (s.lanemapWrite v).cpu = { s.cpu with vec := { s.cpu.vec with lanemap := lanes } }
    ∧ tabGet 0 (s.lanemapWrite v).unwene.retired s.cpu.num
        = tabGet 0 s.unwene.retired s.cpu.num ||| (s.cpu.vec.lanemap &&& ~~~lanes) := by
  replace hl : BitVec.ofNat 32 v.toNat &&& ~~~(tabGet 0 s.unwene.fused s.cpu.num) = lanes := by rw [BitVec.ofNat_toNat]; exact hl
  unfold State.lanemapWrite
  dsimp only
  rw [hl, if_neg (by simpa [hv] using h)]
  exact ⟨rfl, (tabGet_set ..).trans (if_pos rfl)⟩

theorem srvroleWrite_eq (s : State) (v : Word) : s.srvroleWrite v = if s.power.locked || s.cpu.isVc then s
    else { s with cpu := { s.cpu with srvrole := if v.toNat % 16 ≤ 5 then v.truncate 4 else 0 } } := by
  have hb : bitsAt v.toNat 0 4 = v.toNat % 16 := by simp [bitsAt]
  have ht : BitVec.ofNat 4 (v.toNat % 16) = v.truncate 4 := by
    apply BitVec.eq_of_toNat_eq
    simp
  unfold State.srvroleWrite
  simp only [hb, ht]

section
variable {s : State} {v : Word} (hm : s.cpu.mode = .m)
include hm

theorem lanemapWrite_m (hv : s.cpu.isVc = true) :
    let lanes := v.truncate 32 &&& ~~~(tabGet 0 s.unwene.fused s.cpu.num)
    (lanes = 0 → exec (.lanemapWrite v) s = .next s)
    ∧ (lanes ≠ 0 → ∃ t, exec (.lanemapWrite v) s = .next t
        ∧ t.cpu = Hart.csrClean { s.cpu with vec := { s.cpu.vec with lanemap := lanes } } 0x7C0
        ∧ tabGet 0 t.unwene.retired s.cpu.num = tabGet 0 s.unwene.retired s.cpu.num ||| (s.cpu.vec.lanemap &&& ~~~lanes)) := by
  intro lanes
  have hw : exec (.lanemapWrite v) s = .next (if s.csrReplaces 0x7C0 v then
      { s.lanemapWrite v with cpu := (s.lanemapWrite v).cpu.csrClean 0x7C0 } else s.lanemapWrite v) :=
    csrWrite_m hm (n := 0x7C0) rfl (by decide) (by decide) (if_pos hv)
  have hrep : s.csrReplaces 0x7C0 v = (lanes != 0) := by
    show (s.cpu.isVc && BitVec.ofNat 32 v.toNat &&& _ != 0) = _
    rw [hv, Bool.true_and, BitVec.ofNat_toNat]
  rw [hw, hrep]
  refine ⟨fun h => ?_, fun h => ?_⟩
  · rw [if_neg (by simp [h]), lanemapWrite_of_eq_zero h]
  · obtain ⟨hcpu, hret⟩ := lanemapWrite_of_ne_zero hv (lanes := lanes) rfl h
    exact ⟨_, congrArg _ (if_pos (bne_iff_ne.mpr h)), congrArg (Hart.csrClean · 0x7C0) hcpu, hret⟩

theorem vcfgWrite_m (hv : s.cpu.isVc = true) :
    (v.toNat % 4 = 0 → s.cpu.vec.strip = none → exec (.vcfgWrite v) s = .next
      { s with cpu := { s.cpu with vec := { s.cpu.vec with vcfg := s.cpu.vec.vcfg ||| 0x8000000000000000 } } })
    ∧ (vcfgSupported s.cpu.vec (v.toNat % 8192) = true → v.toNat / 4 % 4 = s.cpu.vec.vcfg.toNat / 4 % 4 →
        ∃ t, exec (.vcfgWrite v) s = .next t ∧ t.cpu.vec.vcfg = BitVec.ofNat 64 (vcfgStored (v.toNat % 8192))
          ∧ t.cpu.x = s.cpu.x ∧ t.cpu.pc = s.cpu.pc ∧ t.mem = s.mem) := by
  refine ⟨fun h4 hs => ?_, fun hsup hn => ?_⟩
  · refine csrWrite_vcfg hm hv (runM_setVcfg_unsupported hs ?_)
    have h0 : bitsAt (v.toNat % 8192) 0 2 = 0 := by rw [bitsAt]; omega
    simp [vcfgSupported, h0]
  · obtain ⟨m, t, hrun, ht⟩ := runM_setVcfg_sameNreg hsup (by rw [bitsAt, bitsAt]; omega)
    exact ⟨t, csrWrite_vcfg hm hv hrun, ht⟩

theorem srvroleWrite_m : exec (.srvroleWrite v) s = .next (if s.power.locked || s.cpu.isVc then s
    else { s with cpu := Hart.csrClean { s.cpu with srvrole := if v.toNat % 16 ≤ 5 then v.truncate 4 else 0 } 0x7C1 }) := by
  have hw : exec (.srvroleWrite v) s = .next (if !s.power.locked && !s.cpu.isVc then
      { s.srvroleWrite v with cpu := (s.srvroleWrite v).cpu.csrClean 0x7C1 } else s.srvroleWrite v) :=
    csrWrite_m hm (n := 0x7C1) rfl (by decide) (by decide) rfl
  rw [hw, srvroleWrite_eq]
  cases s.power.locked <;> cases s.cpu.isVc <;> rfl

theorem lcfg_m {l : Nat} (hl : 1 ≤ l) (hl' : l < 256) : ∃ t, exec (.registerWrite (.mmio (leaseOff l 1) 8) v) s = .next t ∧ t.cpu = s.cpu
    ∧ t.mem = s.mem ∧ bitAt (t.lcfg l) 0 = v.getLsbD 0 ∧ bitsAt (t.lcfg l) 16 16 = max 1 (bitsAt v.toNat 16 16)
    ∧ bitsAt (t.lcfg l) 40 8 = bitsAt v.toNat 40 8 := by
  have hw := exec_mmio (s := s) hm (mmioAt_lease hl' (f := 1) (by decide)) open_lease v
  obtain ⟨d, hd⟩ := mmioPut_lcfg (s := s) (off := leaseOff l 1) hl (v := v.toNat) (mask := 2 ^ 64 - 1)
  have hcfg := lcfg_mmioPlain (s := s) (v := v) (off := leaseOff l 1) (l := l) rfl
  have hcpu : (s.mmioPlain (leaseOff l 1) (.lease l 1) v.toNat (2 ^ 64 - 1)).cpu = s.cpu := rfl
  have hmem : (s.mmioPlain (leaseOff l 1) (.lease l 1) v.toNat (2 ^ 64 - 1)).mem = s.mem := rfl
  rw [hd] at hw
  dsimp only at hcfg
  generalize s.mmioPlain (leaseOff l 1) (.lease l 1) v.toNat (2 ^ 64 - 1) = t at hw hcfg hcpu hmem
  exact ⟨_, hw, hcpu, hmem, hcfg⟩

theorem efcfg_m {c : Nat} (hc : c < 16) : ∃ t, exec (.registerWrite (.mmio (efOff c 1) 8) v) s = .next t ∧ t.cpu = s.cpu ∧ t.mem = s.mem
    ∧ bitsAt (t.mmioGet (efOff c 1) 0x60000).toNat 16 5 = max 6 (min 16 (bitsAt v.toNat 16 5)) := by
  have hw := exec_mmio (s := s) hm (mmioAt_efq hc (f := 1) (by decide)) open_efq v
  rcases mmioPut_efcfg (s := s) (off := efOff c 1) (c := c) (v := v.toNat) (mask := 2 ^ 64 - 1) with h | h
  · exact ⟨_, hw.trans (congrArg _ h), rfl, rfl, efcfg_mmioPlain⟩
  · refine ⟨_, hw.trans (congrArg _ h), rfl, rfl, ?_⟩
    rw [mmioGet_mmioSet_ne _ _ _ _ (by rw [efOff, efOff]; omega)]
    exact efcfg_mmioPlain

theorem tinc_m {n off : Nat} (hoff : discOff n 2 = some off) : ∃ t, exec (.registerWrite (.mmio off 8) v) s = .next t ∧ t.cpu = s.cpu
    ∧ t.mem = s.mem ∧ t = s.setCounter n { s.counter n with
        base := (s.counter n).value s.cycles, since := s.cycles
        inc := max (tincReset - tincReset / 1000) (min (tincReset + tincReset / 1000) (v.toNat / 2 ^ 0 % 2 ^ 40)) } := by
  refine ⟨_, (exec_mmio hm (mmioAt_disc (by decide) hoff) open_disc v).trans (congrArg _ mmioPut_tinc), rfl, rfl, ?_⟩
  rw [Nat.pow_zero, Nat.div_one]
  rfl

theorem counterWrites_m {n : Nat} (hn : isCounter n = true) :
    ((s.counter n).locked = true ∨ v = 0 ∨ v.getLsbD 63 = true → exec (.tstepWrite n v) s = .next s)
    ∧ ((s.counter n).locked = false → v ≠ 0 → v.getLsbD 63 = false → ∃ t, exec (.tstepWrite n v) s = .next t
        ∧ (n ≠ 16 → t = s.setCounter n { s.counter n with base := ((s.counter n).base + v.toNat * 2 ^ 32) % 2 ^ 96 }))
    ∧ ∀ m, m < 64 → exec (.tbeacon n m) s = .next (if isCounter m then { s with beacons := s.beacons ++ [(n, m)] } else s) := by
  have hoff (f : Nat) : ∃ off, discOff n f = some off := by
    simp only [isCounter, Bool.or_eq_true, Bool.and_eq_true, decide_eq_true_eq] at hn
    unfold discOff
    split
    · exact ⟨_, rfl⟩
    · split
      · exact ⟨_, rfl⟩
      · rw [if_pos (by omega)]
        exact ⟨_, rfl⟩
  have hdisc (f v : Nat) (hf : f < 8) (hv : v < 2 ^ 64) : ∃ off, discWrite n f v s = .next (s.mmioPut off (.disc n f) v (2 ^ 64 - 1)) := by
    obtain ⟨off, h⟩ := hoff f
    refine ⟨off, ?_⟩
    rw [discWrite, h]
    exact mmioWrite_open hm (mmioAt_disc hf h) open_disc hv
  obtain ⟨o3, h3⟩ := hdisc 3 v.toNat (by decide) v.isLt
  have hstep : exec (.tstepWrite n v) s = .next (s.tstep n v) := h3.trans (congrArg _ mmioPut_tstep)
  refine ⟨fun h => hstep.trans (congrArg _ (tstep_ignored h)), fun hl h0 h63 => ⟨_, hstep, tstep_of_ne hl h0 h63⟩, fun m hm64 => ?_⟩
  obtain ⟨o5, h5⟩ := hdisc 5 m (by decide) (by omega)
  exact h5.trans (congrArg _ (mmioPut_beacon hm64))

theorem twdoor_m {d : Nat} (hd : d < 49152) :
    (s.ports.twinUp = false → exec (.twdoorStore d v) s = .next s)
    ∧ (s.ports.twinUp = true → 0 < s.ports.credits →
        exec (.twdoorStore d v) s = .next { s with ports := { s.ports with credits := s.ports.credits - 1 } })
    ∧ (s.ports.twinUp = true → s.ports.credits = 0 → exec (.twdoorStore d v) s = .next
        (s.waiting s.cpu ⟨.credit, BitVec.ofNat 64 (mmioBase + twinBlock + 0x100000 + 8 * d), 0, false⟩)) := by
  have hat := mmioAt_twdoor hd
  have hr : s.mmioReady (twinBlock + 0x100000 + 8 * d) = (!s.ports.twinUp || decide (0 < s.ports.credits)) := by
    rw [State.mmioReady, mmioReg_at hat]
  have hgo (h : s.mmioReady (twinBlock + 0x100000 + 8 * d) = true) : exec (.twdoorStore d v) s = .next s.twdoor :=
    (mmioWrite_ready hm hat rfl h v.isLt).trans (congrArg _ mmioPut_twdoor)
  refine ⟨fun hu => (hgo (by rw [hr, hu]; rfl)).trans (congrArg _ (if_neg (by rw [hu]; decide))),
    fun hu hc => (hgo (by rw [hr, hu, decide_eq_true hc]; rfl)).trans (congrArg _ (if_pos hu)), fun hu hc => ?_⟩
  have hn : s.mmioReady (twinBlock + 0x100000 + 8 * d) = false := by rw [hr, hu, hc]; rfl
  have hw := runM_mmioWriteBody hm hat rfl v.toNat
  rw [hn, if_neg (by decide)] at hw
  refine (run_wait hw).trans ?_
  rw [← Nat.add_assoc, ← Nat.add_assoc]
  rfl

end

theorem spcfgKey_bar0 {s : State} {v : Word} {p : Nat} (hp : p < 4096) (hu : s.ports.hostUp = true) :
    ∃ t, exec (.registerWrite (.bar0 (0x80000 + p * 0x20 + 8) 8) v) s = .next t ∧ t.spcfg p 1 = v.toNat ∧ t.cpu = s.cpu ∧ t.mem = s.mem := by
  have hat := mmioAt_spcfg (f := 1) hp (by decide)
  have hoff : hostBlock + (0x80000 + p * 0x20 + 8) % 0x1000000 = spOff p 1 := by unfold spOff; omega
  have hst : s.bar0Store (0x80000 + p * 0x20 + 8) 8 v.toNat = s.mmioPlain (spOff p 1) (.spcfg p 1) v.toNat (2 ^ 64 - 1) := by
    have hal : (0x80000 + p * 0x20 + 8) % 8 = 0 := by omega
    unfold State.bar0Store
    simp only [hoff, hal, mmioReg_at hat, mmioStore_at hat v.isLt]
    rfl
  exact ⟨_, congrArg Host.Outcome.next ((if_pos hu).trans hst), congrArg BitVec.toNat (fields_spcfgKey.mmioGet_whole v), rfl, rfl⟩

section
variable {s : State} {v : Word} (hm : s.cpu.mode = .m)
include hm

theorem dqctl_m : ∃ t, exec (.registerWrite (.mmio 0 8) v) s = .next t ∧ t.cpu = s.cpu ∧ t.mem = s.mem
    ∧ t.dqAge = max 1 (bitsAt v.toNat 16 16) ∧ t.dqQuant = max 1 (bitsAt v.toNat 0 16) :=
  ⟨_, exec_mmio hm ⟨rfl, rfl⟩ open_dqctl v, rfl, rfl, dqctl_mmioPlain⟩

theorem readOnly_m {off : Nat} (h : off ∈ [8, 0x10, 0x18, l2Block + 8, powerBlock]) : exec (.registerWrite (.mmio off 8) v) s = .next s := by
  have go {r : MmioReg} (hat : MmioAt off r) (hr : r ∈ [.dqfree, .dqtime, .dqseq, .l2stat, .bootst]) :
      exec (.registerWrite (.mmio off 8) v) s = .next s :=
    (exec_mmio hm hat (open_readOnly hr) v).trans (congrArg _ (mmioPut_readOnly hr))
  simp only [List.mem_cons, List.not_mem_nil, or_false] at h
  rcases h with rfl | rfl | rfl | rfl | rfl
  · exact go (r := .dqfree) ⟨rfl, rfl⟩ (by simp)
  · exact go (r := .dqtime) ⟨rfl, rfl⟩ (by simp)
  · exact go (r := .dqseq) ⟨rfl, rfl⟩ (by simp)
  · exact go (r := .l2stat) ⟨rfl, rfl⟩ (by simp)
  · exact go (r := .bootst) ⟨rfl, rfl⟩ (by simp)

theorem handler_m {c n q f : Nat} (hc : c < 16) (hn : n < 192) (hq : q < 16) (hf : f < 3) :
    ∃ t, exec (.registerWrite (.mmio (clBlock c + 0x80000 + n * 0x200 + q * 0x20 + f * 8) 8) v) s = .next t
      ∧ t.handler c n q f = v ∧ t.cpu = s.cpu ∧ t.mem = s.mem :=
  ⟨_, (fields_handler hf).write_next hm (mmioAt_handler hc hn hq (by omega)) v, (fields_handler hf).mmioGet_whole v, rfl, rfl⟩

theorem efwakeWrite_m {c : Nat} (rows : BitVec 4) (hc : c < 16) : ∃ t, exec (.efwakeWrite c rows) s = .next t ∧ t.cpu = s.cpu ∧ t.mem = s.mem
    ∧ ∀ r, r < 4 → t.row c r = if rows.getLsbD r then { s.row c r with repair := false } else s.row c r := by
  have hv : rows.toNat < 2 ^ 64 := rows.isLt.trans (by decide)
  exact ⟨_, (mmioWrite_open hm (mmioAt_efq hc (f := 4) (by decide)) open_efq hv).trans (congrArg _ (mmioPut_efwake hv)), efwake_rows s c rows⟩

theorem txprodWrite_m {p r : Nat} (hp : p < 8) (hr : r < 16) : ∃ t, exec (.txprodWrite p r v) s = .next t
    ∧ t.mmioGet (fhBlock p + 0x3000 + r * 0x20 + 8) 0 = v ∧ t.cpu = s.cpu ∧ t.mem = s.mem :=
  ⟨_, fields_txprod.write_next hm (mmioAt_txprod hp hr) v, fields_txprod.mmioGet_whole v, rfl, rfl⟩

theorem l2cmd_m (h : v.toNat % 16 ∉ [1, 2, 3]) : exec (.registerWrite (.mmio l2Block 8) v) s = .next s :=
  (exec_mmio hm ⟨rfl, rfl⟩ open_l2cmd v).trans (congrArg _ (mmioPut_l2cmd h))

theorem rstreq_m : exec (.registerWrite (.mmio (powerBlock + 8) 8) v) s = .next (if v.toNat % 4 = 1 ∨ v.toNat % 4 = 2 then
    { s with power := { s.power with request := if v.toNat % 4 = 1 then 1 else 2 } } else s) :=
  (exec_mmio hm ⟨rfl, rfl⟩ open_rstreq v).trans (congrArg _ mmioPut_rstreq)

theorem pwrstat_m : exec (.registerWrite (.mmio (powerBlock + 0x20) 8) v) s
    = .next (if v.getLsbD 0 then { s with power := { s.power with excursion := false } } else s) :=
  (exec_mmio hm ⟨rfl, rfl⟩ open_pwrstat v).trans (congrArg _ mmioPut_pwrstat)

theorem pwrcapWrite_m : exec (.pwrcapWrite v) s
    = .next { s with power := { s.power with capFw := max 300 (min 600 (v.toNat % 1024)) } } :=
  (mmioWrite_open hm ⟨rfl, rfl⟩ open_pwrcap v.isLt).trans (congrArg _ mmioPut_pwrcap)

theorem rolelockWrite_m : exec (.rolelockWrite v) s = .next (s.roleLock v) :=
  (mmioWrite_open hm ⟨rfl, rfl⟩ open_rolelock v.isLt).trans (congrArg _ mmioPut_rolelock)

end

theorem roleLock_locks {s : State} {v : Word} (hv : v.getLsbD 0 = true) (hl : s.unwene.life ≠ .decommissioned) :
    (s.roleLock v).power.locked = true ∧ (s.roleLock v).cpu = s.cpu ∧ (s.roleLock v).mem = s.mem := by
  unfold State.roleLock
  split
  next h =>
    rw [bitAt_eq_testBit, BitVec.testBit_toNat, hv] at h
    exact ⟨by simpa [hl] using h, rfl, rfl⟩
  · exact ⟨rfl, rfl, rfl⟩

theorem roleLock_ignored {s : State} {v : Word} (h : v.getLsbD 0 = false ∨ s.unwene.life = .decommissioned) : s.roleLock v = s := by
  refine if_pos ?_
  rw [bitAt_eq_testBit, BitVec.testBit_toNat]
  rcases h with h | h
  · rw [h, Bool.not_false, Bool.true_or, Bool.true_or]
  · rw [h, beq_self_eq_true, Bool.or_true]

/-- Settles O46: the CSR rows by what `csrrw` does, the stores of fields by `MmioReg.Fields`, and each register with an effect of its own
by the rule of that effect. -/
theorem registerWriteRowsTakeEffect : Obligations.RegisterWriteRowsTakeEffect := by
  unfold Obligations.RegisterWriteRowsTakeEffect
  intro s v hm h gives lanes clean put fields part
  have hrole := rolelockWrite_m hm (v := v)
  refine ⟨fun n old hro h8 h2 hr => csrWrite_m hm hro (fun e => h8 (BitVec.eq_of_toNat_eq e)) h2 hr,
    ?leases,
    fun f hf => exec_mmio hm (mmioAt_lease (by decide) hf) open_lease v,
    dqctl_m hm,
    fun off h => readOnly_m hm h,
    fields_rclate.write hm ⟨rfl, rfl⟩ v (by decide),
    fields_crdrop.write hm ⟨rfl, rfl⟩ v (by decide),
    ?clusters,
    fun d hd => fields_fdstat.write hm (mmioAt_fdstat hd) v (by decide),
    fun c n q hc hn hq => fields_handlerLast.write hm (mmioAt_handler hc hn hq (by decide)) v (by decide),
    fields_ddtbase.write hm ⟨rfl, rfl⟩ v (by decide),
    fields_domsel.write hm ⟨rfl, rfl⟩ v (by decide),
    l2cmd_m hm,
    fun p hp => fields_spcfgLast.write hm (mmioAt_spcfg hp (by decide)) v (by decide),
    fun k hk => fields_lhcnt.write hm (mmioAt_lhcnt hk) v (by decide),
    rstreq_m hm,
    pwrstat_m hm,
    fun n off hoff => tinc_m hm hoff,
    ?vector,
    srvroleWrite_m hm,
    ?atomics,
    fun o n hu => congrArg Host.Outcome.next (if_neg (by rw [hu]; decide)),
    fun p hp hu => spcfgKey_bar0 hp hu,
    fun c n q f hc hn hq hf => handler_m hm hc hn hq hf,
    fun c rows hc => efwakeWrite_m hm rows hc,
    fun n hn => counterWrites_m hm hn,
    fun p r hp hr => txprodWrite_m hm hp hr,
    pwrcapWrite_m hm,
    fun hv hl => ⟨_, hrole, roleLock_locks hv hl⟩,
    fun hi => hrole.trans (congrArg _ (roleLock_ignored hi)),
    fun d hd => twdoor_m hm hd⟩
  case leases =>
    intro l hl hl'
    obtain ⟨k, rfl⟩ := Nat.exists_eq_add_of_le' hl
    exact ⟨fields_leaseRows.write hm (mmioAt_lease hl' (by decide)) v (by decide),
      fields_leaseReserve.write hm (mmioAt_lease hl' (by decide)) v (by decide), lcfg_m hm hl hl'⟩
  case clusters =>
    intro c hc
    exact ⟨fields_efBase.write hm (mmioAt_efq hc (by decide)) v (by decide),
      fields_efHead.write hm (mmioAt_efq hc (by decide)) v (by decide), fields_mdrop.write hm (mmioAt_mdrop hc) v (by decide), efcfg_m hm hc⟩
  case vector =>
    intro hv
    obtain ⟨hbad, hgood⟩ := vcfgWrite_m hm hv (v := v)
    obtain ⟨hzero, hset⟩ := lanemapWrite_m hm hv (v := v)
    exact ⟨hbad, hgood, hzero, hset⟩
  case atomics =>
    rw [← BitVec.testBit_toNat, ← bitAt_eq_testBit]
    rfl

end Sys2Proof.Machine
end

section
namespace Sys2Proof.Machine

/-! Beacons and power: what each event makes of the machine (R27 to R29, R310). -/

theorem State.counter_setCounter (s : State) (n : Nat) (c : Counter) : (s.setCounter n c).counter n = c :=
  (tabGet_set _ _ n n _).trans (if_pos rfl)

/-- A free value, centred: within 1 ns either way in steps of 2^-16 ns. -/
def beaconError (w : Word) : Int := ((w.toNat % (2 ^ 17 + 1) : Nat) : Int) - 2 ^ 16

theorem beaconError_bounds (w : Word) : -65536 ≤ beaconError w ∧ beaconError w ≤ 65536 := by
  unfold beaconError
  omega

section
variable {s : State} {n src : Nat}

theorem State.beaconArrive_of_not_mem (h : (src, n) ∉ s.beacons) : s.beaconArrive n src = s := if_neg (by simpa using h)

theorem State.beaconArrive_of_mem (h : (src, n) ∈ s.beacons) :
    s.beaconArrive n src = { s with free := s.free + 1, beacons := s.beacons.erase (src, n) }.setCounter n { s.counter n with
      diff := BitVec.ofInt 64 ((((s.counter src).value s.cycles : Int) - ((s.counter n).value s.cycles : Int)) / 2 ^ 16
        + beaconError (Config.freeWord s.free))
      fresh := true, src := src } := if_pos (by simpa using h)

end

/-- Whether the 1 ms average can still throttle a class: by its grant or by its pacing (R28). -/
def Power.throttles (p : Power) (c : Nat) : Bool := decide (1 < p.grant.getD c 1) || decide (p.pacing.getD c 8 < 8)

theorem Power.throttles_iff {p : Power} {c : Nat} : p.throttles c = true ↔ ¬(p.grant.getD c 1 ≤ 1 ∧ 8 ≤ p.pacing.getD c 8) := by
  simp [throttles]
  omega

/-- The power controller once class c has been throttled by an eighth. -/
def Power.throttled (p : Power) (c : Nat) : Power :=
  { p with grant := p.grant.setIfInBounds c (max 1 (p.grant.getD c 1 - 1))
           pacing := p.pacing.setIfInBounds c (min 8 (p.pacing.getD c 8 + 1)), below := false }

/-- Whether a class can have an eighth back, of its grant or of its pacing (R29). -/
def Power.raises (p : Power) (c : Nat) : Bool := decide (p.grant.getD c 8 < 8) || decide (0 < p.pacing.getD c 0)

theorem Power.raises_of_lt {p : Power} {c : Nat} (h : p.grant.getD c 8 < 8) : p.raises c = true := by simp [raises, h]

/-- The power controller once class c has its eighth back. -/
def Power.raised (p : Power) (c : Nat) : Power :=
  { p with grant := p.grant.setIfInBounds c (min 8 (p.grant.getD c 8 + 1))
           pacing := p.pacing.setIfInBounds c (p.pacing.getD c 0 - 1) }

theorem Power.throttled_grant {p : Power} (h : 1 < p.grant.getD 3 1) :
    (p.throttled 3).grant.getD 3 1 = p.grant.getD 3 1 - 1 ∧ ∀ c, c < 3 → (p.throttled 3).grant.getD c 1 = p.grant.getD c 1 := by
  constructor
  · simp only [throttled, Vector.getD] at h ⊢
    simp at h ⊢
    omega
  · intro c hc
    simp [throttled, Vector.getD, Array.getElem?_setIfInBounds_ne (Nat.ne_of_gt hc)]

theorem Power.raised_grant {p : Power} (h : p.grant.getD 0 8 < 8) : (p.raised 0).grant.getD 0 8 = p.grant.getD 0 8 + 1 := by
  simp only [raised, Vector.getD] at h ⊢
  simp at h ⊢
  omega

section
variable {s : State} {w : Nat}

theorem State.powerAverage_within (h : w ≤ s.power.capEff) :
    s.powerAverage w = { s with power := { s.power with below := decide (w < s.power.capEff) } } := if_pos h

/-- Above the cap: the highest class number that can be throttled loses an eighth. -/
theorem State.powerAverage_throttles {c : Nat} (h : s.power.capEff < w) (hf : [3, 2, 1, 0].find? s.power.throttles = some c) :
    s.powerAverage w = { s with power := s.power.throttled c } := by
  unfold Power.throttles at hf
  simp only [State.powerAverage, if_neg (Nat.not_le.mpr h), hf]
  rfl

/-- Above the cap with nothing left to throttle, the excursion flag sets. -/
theorem State.powerAverage_excursion (h : s.power.capEff < w) (hf : [3, 2, 1, 0].find? s.power.throttles = none) :
    s.powerAverage w = { s with power := { s.power with excursion := true, below := false } } := by
  unfold Power.throttles at hf
  simp only [State.powerAverage, if_neg (Nat.not_le.mpr h), hf]

theorem State.powerAverage_power (w : Nat) : ∃ q : Power, s.powerAverage w = { s with power := q }
    ∧ (w ≤ s.power.capEff → q = { s.power with below := decide (w < s.power.capEff) })
    ∧ (s.power.capEff < w → q.below = false
        ∧ ((∀ c, c < 4 → s.power.grant.getD c 1 ≤ 1 ∧ 8 ≤ s.power.pacing.getD c 8) → q.excursion = true)
        ∧ (1 < s.power.grant.getD 3 1 → q.grant.getD 3 1 = s.power.grant.getD 3 1 - 1
            ∧ ∀ c, c < 3 → q.grant.getD c 1 = s.power.grant.getD c 1)) := by
  rcases Nat.lt_or_ge s.power.capEff w with h | h
  · cases hf : [3, 2, 1, 0].find? s.power.throttles with
    | none =>
      refine ⟨_, State.powerAverage_excursion h hf, fun hw => absurd hw (Nat.not_le.mpr h),
        fun _ => ⟨rfl, fun _ => rfl, fun h3 => ?_⟩⟩
      have hno := List.find?_eq_none.mp hf 3 (by decide)
      exact absurd (Power.throttles_iff.mpr fun c => Nat.not_lt.mpr c.1 h3) hno
    | some c =>
      refine ⟨_, State.powerAverage_throttles h hf, fun hw => absurd hw (Nat.not_le.mpr h),
        fun _ => ⟨rfl, fun hall => ?_, fun h3 => ?_⟩⟩
      · have hc : c < 4 := by
          have := List.mem_of_find?_eq_some hf
          fin_cases this <;> decide
        exact absurd (hall c hc) (Power.throttles_iff.mp (List.find?_some hf))
      · have : [3, 2, 1, 0].find? s.power.throttles = some 3 :=
          List.find?_cons_of_pos (Power.throttles_iff.mpr fun c => Nat.not_lt.mpr c.1 h3)
        obtain rfl : 3 = c := Option.some.inj (this.symm.trans hf)
        exact Power.throttled_grant h3
  · exact ⟨_, State.powerAverage_within h, fun _ => rfl, fun hw => absurd hw (Nat.not_lt.mpr h)⟩

theorem State.raiseGrants_of_not_below (h : s.power.below = false) : s.raiseGrants = s := if_pos (by simp [h])

/-- Below the cap the lowest class number that can have an eighth back has it (R29). -/
theorem State.raiseGrants_raises {c : Nat} (h : s.power.below = true) (hf : [0, 1, 2, 3].find? s.power.raises = some c) :
    s.raiseGrants = { s with power := s.power.raised c } := by
  have hb : ¬(!s.power.below) = true := by simp [h]
  unfold Power.raises at hf
  simp only [State.raiseGrants, if_neg hb, hf]
  rfl

theorem State.raiseGrants_of_full (hf : [0, 1, 2, 3].find? s.power.raises = none) : s.raiseGrants = s := by
  unfold Power.raises at hf
  simp [State.raiseGrants, hf]

theorem State.raiseGrants_power (h : s.power.below = true) : ∃ q : Power, s.raiseGrants = { s with power := q }
    ∧ (s.power.grant.getD 0 8 < 8 → q.grant.getD 0 8 = s.power.grant.getD 0 8 + 1) := by
  cases hf : [0, 1, 2, 3].find? s.power.raises with
  | none =>
    refine ⟨s.power, State.raiseGrants_of_full hf, fun h0 => ?_⟩
    exact absurd (Power.raises_of_lt h0) (List.find?_eq_none.mp hf 0 (by decide))
  | some c =>
    refine ⟨s.power.raised c, State.raiseGrants_raises h hf, fun h0 => ?_⟩
    have : [0, 1, 2, 3].find? s.power.raises = some 0 := List.find?_cons_of_pos (Power.raises_of_lt h0)
    obtain rfl : 0 = c := Option.some.inj (this.symm.trans hf)
    exact Power.raised_grant h0

end
end Sys2Proof.Machine
end

section
namespace Sys2Proof.Machine

/-! Starts, shutdown and the mailbox (R311 to R320, R391). -/

theorem tryCode_ne_zero {n i : Nat} : tryCode n i ≠ some 0 := by
  unfold tryCode
  split_ifs <;> decide

theorem earlyCode_ne_zero {n c : Nat} (h : earlyCode n = some c) : c ≠ 0 := by
  rintro rfl
  unfold earlyCode at h
  split_ifs at h <;> exact tryCode_ne_zero h

theorem State.verified_error_ne_zero {s : State} {c : Nat} (h : s.verified = .error c) : c ≠ 0 := by
  unfold State.verified at h
  dsimp only at h
  split_ifs at h <;> cases h <;> decide

/-- The image of a boot slot as it is copied to memory (R312, R316). -/
def bootBytes (slotB : Bool) : List Byte :=
  let img := Config.bootImage slotB
  img.head ++ img.sig ++ img.code

section
variable {s : State} {mem : Memory} {poison : List Nat} {retired : Tab (BitVec 32)} {c kind : Nat} {wiped : Bool} {early : Option Nat}

/-- What a cold start makes of the module, whatever it comes to. -/
theorem State.started_cold :
    let t := s.started mem poison retired early 1 wiped
    t.power.bootKind = 1 ∧ t.power.request = 0 ∧ t.power.fatal = none ∧ t.power.off = false ∧ t.unwene.life = s.unwene.life
      ∧ t.unwene.svnMin = s.unwene.svnMin ∧ (s.unwene.pending ≠ some 1 → t.unwene.ots = s.unwene.ots) ∧ t.cpu.mode = .m :=
  ⟨rfl, rfl, rfl, rfl, rfl, rfl, fun h => if_neg (by simp [h]), rfl⟩

/-- A start that fails before step 4 leaves memory and holds the cores. -/
theorem State.started_early (hc : c ≠ 0) :
    let t := s.started mem poison retired (some c) kind wiped
    t.mem = mem ∧ t.poison = poison ∧ t.power.wiped = wiped ∧ t.power.held = true ∧ t.power.bootCode = BitVec.ofNat 8 c
      ∧ t.unwene.wipe = (s.unwene.wipe && !wiped) :=
  ⟨if_neg hc, if_neg hc, rfl, bne_iff_ne.mpr hc, rfl, rfl⟩

/-- A start that finds no image that passes holds the cores over the memory it has left. -/
theorem State.started_unverified (hv : s.verified = .error c) :
    let t := s.started mem poison retired none kind wiped
    t.mem = mem ∧ t.poison = poison ∧ t.power.wiped = wiped ∧ t.power.held = true ∧ t.power.bootCode = BitVec.ofNat 8 c
      ∧ t.unwene.wipe = (s.unwene.wipe && !wiped) := by
  have hc := State.verified_error_ne_zero hv
  simp [State.started, Unwene.started, hv, hc]

/-- A start that verifies an image holds it in memory from address 0 and begins at its entry point. -/
theorem State.started_verified {slotB : Bool} (hv : s.verified = .ok slotB) :
    let t := s.started mem poison retired none kind wiped
    t.mem = memSetBytes mem 0 (bootBytes slotB) ∧ t.poison = poisonAfter poison 0 (bootBytes slotB).length false
      ∧ t.power.wiped = wiped ∧ t.power.held = false ∧ t.power.bootCode = 0 ∧ t.power.bootSlot = slotB
      ∧ t.unwene.wipe = (s.unwene.wipe && !wiped) ∧ t.cpu.pc = BitVec.ofNat 64 (Config.bootImage slotB).entry := by
  simp [State.started, Unwene.started, startHart, bootBytes, hv]

end

section
variable {s : State}

theorem State.coldStart_of_early {c : Nat} (h : earlyCode s.free = some c) :
    ∃ retired, s.coldStart = s.started s.mem s.poison retired (some c) 1 false := by
  unfold State.coldStart
  dsimp only
  rw [h]
  exact ⟨_, rfl⟩

theorem State.coldStart_of_late (h : earlyCode s.free = none) : ∃ retired, s.coldStart = s.started [] [] retired none 1 true := by
  unfold State.coldStart
  dsimp only
  rw [h]
  exact ⟨_, rfl⟩

theorem State.coldStart_eq_started : ∃ mem poison retired early wiped, s.coldStart = s.started mem poison retired early 1 wiped := by
  cases h : earlyCode s.free with
  | none => exact ⟨_, _, _, _, _, (State.coldStart_of_late h).choose_spec⟩
  | some c => exact ⟨_, _, _, _, _, (State.coldStart_of_early h).choose_spec⟩

theorem State.warmStart_eq_started :
    ∃ mem poison retired early kind wiped, s.warmStart = s.started mem poison retired early kind wiped := by
  unfold State.warmStart
  split_ifs
  · exact ⟨_, _, _, _, _, _, rfl⟩
  · exact ⟨_, _, _, _, _, _, rfl⟩
  · obtain ⟨mem, poison, retired, early, wiped, h⟩ := State.coldStart_eq_started (s := s)
    exact ⟨mem, poison, retired, early, 1, wiped, h⟩

/-- The start that ends an orderly shutdown leaves no shutdown, no request, no ORDERLY record and no command. -/
theorem State.finishShutdown_ended :
    let t := s.finishShutdown
    t.power.shutdown = false ∧ t.power.request = 0 ∧ t.unwene.life = s.unwene.life ∧ t.unwene.orderly = none ∧ t.cmds = [] := by
  intro t
  obtain ⟨mem, poison, retired, early, kind, wiped, h⟩ := State.warmStart_eq_started
    (s := { s with l2 := s.l2.flushed, unwene := { s.unwene with orderly := some s.unwene.life } })
  have ht : t = _ := h
  rw [ht]
  exact ⟨rfl, rfl, rfl, rfl, rfl⟩

theorem State.warmRequest_of_busy (h : s.drained = false) :
    s.warmRequest = { s with power := { s.power with shutdown := true, shutSince := s.cycles, request := 0 } } :=
  if_neg (Bool.eq_false_iff.mp (show State.drained _ = false from h))

theorem State.warmRequest_of_drained (h : s.drained = true) : s.warmRequest
    = { s with power := { s.power with shutdown := true, shutSince := s.cycles, request := 0 } }.finishShutdown :=
  if_pos (show State.drained _ = true from h)

/-! The mailbox. -/

theorem State.mailWrite_frame (d : List Byte) :
    (s.mailWrite d).mem = s.mem ∧ (s.mailWrite d).cpu = s.cpu ∧ (s.mailWrite d).unwene = s.unwene := by
  have h (f : State → Nat → Nat × Word × Word) (l : List Nat) (t : State) :
      let u := l.foldl (fun t w => t.mmioSet (f t w).1 (f t w).2.1 (f t w).2.2) t
      u.mem = t.mem ∧ u.cpu = t.cpu ∧ u.unwene = t.unwene := by
    induction l generalizing t with
    | nil => exact ⟨rfl, rfl, rfl⟩
    | cons w r ih => exact ih _
  exact h (fun t w => (_, _, _)) _ s

theorem State.attest_signs (h : s.unwene.ots < 2 ^ 20) :
    s.attest.mem = s.mem ∧ s.attest.cpu = s.cpu ∧ s.attest.unwene.pending = none ∧ s.attest.unwene.result = 0
      ∧ s.attest.unwene.ots = s.unwene.ots + 1 := by
  have he : s.attest = _ := if_neg (Nat.not_le.mpr h)
  rw [he]
  obtain ⟨hm, hc, hu⟩ := State.mailWrite_frame (s := { s with unwene := { s.unwene with ots := s.unwene.ots + 1 } })
    (let r := Config.report (s.mailBytes 0 32) (measurement s.power.bootSlot) s.unwene.life.num s.unwene.svnMin.toNat s.power.bootSlot
      s.unwene.ots
     r ++ idSign s.unwene.ots r)
  exact ⟨hm, hc, rfl, rfl, congrArg Unwene.ots hu⟩

theorem State.attest_exhausted (h : 2 ^ 20 ≤ s.unwene.ots) : s.attest = s.mailDone 3 := if_pos h

theorem State.lcset_unsigned (h : s.lcSigned (Config.lcRequest (s.mailBytes 0 0x4000)) = false) : s.lcset = s.mailDone 2 :=
  if_pos (by rw [h]; rfl)

section
variable (hs : s.lcSigned (Config.lcRequest (s.mailBytes 0 0x4000)) = true)
include hs

theorem State.lcset_refused (h : ∀ n, (Config.lcRequest (s.mailBytes 0 0x4000)).target = some n →
    lifeMoves s.unwene.life (lifeOf n) = false) : s.lcset = s.mailDone 4 := by
  have he : s.lcset = _ := if_neg (by rw [hs]; decide)
  rw [he]
  cases ht : (Config.lcRequest (s.mailBytes 0 0x4000)).target with
  | none => rfl
  | some n => exact if_neg (by simp [h n ht])

theorem State.lcset_moves {n : Fin 4} (ht : (Config.lcRequest (s.mailBytes 0 0x4000)).target = some n)
    (hm : lifeMoves s.unwene.life (lifeOf n) = true) :
    s.lcset = { s with unwene := { s.unwene with life := lifeOf n, wipe := true, result := 0, pending := none }
                       power := { s.power with request := 1 } } := by
  have he : s.lcset = _ := if_neg (by rw [hs]; decide)
  rw [he, ht]
  exact if_pos hm

end

theorem ofBytes_lt (l : List Byte) : ofBytes l < 256 ^ l.length := by
  induction l with
  | nil => exact Nat.one_pos
  | cons b r ih =>
    have hb : b.toNat < 256 := b.isLt
    rw [ofBytes, List.length_cons, Nat.pow_succ]
    omega

/-- SVNSET raises the minimum and never lowers it. -/
theorem State.svnset_minimum : s.svnset.unwene.svnMin.toNat = max s.unwene.svnMin.toNat (ofBytes (s.mailBytes 0 4)) := by
  have hlt : ofBytes (s.mailBytes 0 4) < 2 ^ 32 := by
    have h := ofBytes_lt (s.mailBytes 0 4)
    rwa [show (s.mailBytes 0 4).length = 4 by simp [State.mailBytes]] at h
  have he : s.svnset.unwene.svnMin = if s.unwene.svnMin < BitVec.ofNat 32 (ofBytes (s.mailBytes 0 4)) then
    BitVec.ofNat 32 (ofBytes (s.mailBytes 0 4)) else s.unwene.svnMin := rfl
  have hn : (BitVec.ofNat 32 (ofBytes (s.mailBytes 0 4))).toNat = ofBytes (s.mailBytes 0 4) := Nat.mod_eq_of_lt hlt
  rw [he]
  split
  next h => rw [BitVec.lt_def, hn] at h; rw [hn]; omega
  next h => rw [BitVec.lt_def, hn] at h; omega

theorem exec_mailboxBadop {op : Nat} (h : s.unwene.pending = some op) :
    exec .mailboxBadop s = .next (if op = 1 ∨ op = 2 ∨ op = 3 then s else s.mailDone 1) := by
  show execMailboxBadop s = _
  simp only [execMailboxBadop, happens, h]

end
end Sys2Proof.Machine
end

section
namespace Sys2Proof.Machine

/-! The rows of the platform, each by the rule of what it does to the machine. -/

section
variable {s : State}

/-- The three ways to a cold start: a request, power, and the sideband (R311, R314, R321). -/
theorem exec_coldStarts {i : Instr} (h : i = .coldStartRequest ∧ s.power.request = 1 ∨ i = .powerOn ∧ s.power.off = true
    ∨ i = .i3cColdRequest ∧ s.power.off = false) : exec i s = .next s.coldStart := by
  rcases h with ⟨rfl, h⟩ | ⟨rfl, h⟩ | ⟨rfl, h⟩
  · exact congrArg Host.Outcome.next (if_pos h)
  · exact congrArg Host.Outcome.next (if_pos h)
  · exact congrArg Host.Outcome.next (if_neg (by simp [h]))

theorem exec_warmStartRequest_requested (h : s.power.request = 2) : exec .warmStartRequest s = .next s.warmRequest :=
  congrArg Host.Outcome.next (if_pos h)

theorem exec_warmStartRequest_unrequested (h : s.power.request ≠ 2) :
    exec .warmStartRequest s = .next (if s.power.shutdown && s.drained then s.finishShutdown else s) :=
  congrArg Host.Outcome.next (if_neg h)

/-- An orderly shutdown with nothing left to end completes (R313). -/
theorem exec_warmStartRequest_completes (h : s.power.request = 2 ∨ s.power.shutdown = true) (hd : s.drained = true) :
    ∃ t, exec .warmStartRequest s = .next t ∧ t.power.shutdown = false ∧ t.power.request = 0 ∧ t.unwene.life = s.unwene.life
      ∧ t.unwene.orderly = none := by
  by_cases hr : s.power.request = 2
  · obtain ⟨hsd, hreq, hlife, hord, -⟩ := State.finishShutdown_ended
      (s := { s with power := { s.power with shutdown := true, shutSince := s.cycles, request := 0 } })
    exact ⟨_, (exec_warmStartRequest_requested hr).trans (congrArg _ (State.warmRequest_of_drained hd)), hsd, hreq, hlife, hord⟩
  · obtain ⟨hsd, hreq, hlife, hord, -⟩ := State.finishShutdown_ended (s := s)
    refine ⟨_, (exec_warmStartRequest_unrequested hr).trans (congrArg _ (if_pos ?_)), hsd, hreq, hlife, hord⟩
    rw [h.resolve_left hr, hd]; rfl

theorem exec_mailbox_idle {i : Instr} (h : i = .attest ∧ s.unwene.pending ≠ some 1 ∨ i = .lcset ∧ s.unwene.pending ≠ some 2
    ∨ i = .svnset ∧ s.unwene.pending ≠ some 3) : exec i s = .next s := by
  rcases h with ⟨rfl, h⟩ | ⟨rfl, h⟩ | ⟨rfl, h⟩ <;> exact congrArg Host.Outcome.next (if_neg (by simpa [State.mailRuns] using h))

theorem exec_attest (h : s.unwene.pending = some 1) : exec .attest s = .next s.attest :=
  congrArg Host.Outcome.next (if_pos (by simp [State.mailRuns, h]))

theorem exec_lcset (h : s.unwene.pending = some 2) : exec .lcset s = .next s.lcset :=
  congrArg Host.Outcome.next (if_pos (by simp [State.mailRuns, h]))

theorem exec_svnset (h : s.unwene.pending = some 3) : exec .svnset s = .next s.svnset :=
  congrArg Host.Outcome.next (if_pos (by simp [State.mailRuns, h]))

end

/-- Settles O48: each row by the rule of its event; a start by whether an early step fails and whether an image passes. -/
theorem platformEvents : Obligations.PlatformEvents := by
  unfold Obligations.PlatformEvents
  intro s p u gives mail
  refine ⟨fun n src h => congrArg _ (State.beaconArrive_of_not_mem h), ?beacon, fun v => rfl, rfl,
    fun w => ?window, fun h => congrArg _ (State.raiseGrants_of_not_below h), ?raise, fun h => congrArg _ (if_neg h),
    ?starts, ?noWarm, ?warmBegins, exec_warmStartRequest_completes, ?notLate, ?late,
    fun h => congrArg _ (if_neg (Bool.eq_false_iff.mp h)), fun h => congrArg _ (if_pos h), rfl, rfl,
    fun i => exec_mailbox_idle, ?attest, ?lcset, ?svnset, ?badop⟩
  case beacon =>
    intro n src h
    obtain ⟨hlo, hhi⟩ := beaconError_bounds (Config.freeWord s.free)
    refine ⟨_, congrArg Host.Outcome.next (State.beaconArrive_of_mem h), rfl, ?_, ?_, _, hlo, hhi, ?_⟩ <;> rw [State.counter_setCounter]
    rfl
  case window =>
    obtain ⟨q, he, hq⟩ := State.powerAverage_power (s := s) w
    exact ⟨q, congrArg _ he, hq⟩
  case raise =>
    intro h
    obtain ⟨q, he, hq⟩ := State.raiseGrants_power h
    exact ⟨q, congrArg _ he, hq⟩
  case starts =>
    intro i hi starts
    have hstarts {mem poison retired early wiped} (he : s.coldStart = s.started mem poison retired early 1 wiped) :
        starts (s.started mem poison retired early 1 wiped) := ⟨he ▸ exec_coldStarts hi, State.started_cold⟩
    refine ⟨fun c hc => ?_, fun hc => ⟨fun c hv => ?_, fun slotB hv => ?_⟩⟩
    · obtain ⟨retired, he⟩ := State.coldStart_of_early hc
      obtain ⟨hmem, hpoison, hwiped, hheld, hcode, hwipe⟩ := State.started_early (earlyCode_ne_zero hc)
      exact ⟨_, hstarts he, hmem, hpoison, hwiped, hheld, hcode, hwipe.trans (by simp [u])⟩
    · obtain ⟨retired, he⟩ := State.coldStart_of_late hc
      obtain ⟨hmem, hpoison, hwiped, hheld, hcode, hwipe⟩ := State.started_unverified hv
      exact ⟨_, hstarts he, hmem, hpoison, hwiped, hheld, hcode, hwipe.trans (by simp)⟩
    · obtain ⟨retired, he⟩ := State.coldStart_of_late hc
      obtain ⟨hmem, hpoison, hwiped, hheld, hcode, hslot, hwipe, hpc⟩ := State.started_verified hv
      refine ⟨_, hstarts he, ?_, fun a ha => ?_, ?_, hwiped, hheld, hcode, hslot, hwipe.trans (by simp), hpc⟩
      · rw [hmem]; exact memBytes_setBytes _ _ _
      · rw [hmem, memByte_setBytes_outside _ _ _ _ (.inr (by rw [Nat.zero_add]; exact ha))]; rfl
      · rw [hpoison]; simp [poisonAfter]
  case noWarm =>
    intro hr h
    refine (exec_warmStartRequest_unrequested hr).trans (congrArg _ (if_neg ?_))
    rcases h with h | h
    · rw [show s.power.shutdown = false from h, Bool.false_and]; decide
    · rw [h, Bool.and_false]; decide
  case warmBegins =>
    exact fun hr hd => (exec_warmStartRequest_requested hr).trans (congrArg _ (State.warmRequest_of_busy hd))
  case notLate =>
    intro h
    refine congrArg _ (if_neg ?_)
    rcases h with h | h
    · simp [State.drainLate, show s.power.shutdown = false from h]
    · simp [State.drainLate, show s.cycles < s.power.shutSince + 19000000 from h]
  case late =>
    intro hs hl
    obtain ⟨hsd, -, -, -, hcmds⟩ := State.finishShutdown_ended (s := s.stopAll)
    have hlate : s.drainLate = true := Bool.and_eq_true_iff.mpr ⟨hs, decide_eq_true hl⟩
    exact ⟨_, congrArg Host.Outcome.next (if_pos hlate), hsd, hcmds⟩
  case attest =>
    intro h
    refine ⟨_, exec_attest h, ?_⟩
    by_cases ho : s.unwene.ots < 2 ^ 20
    · obtain ⟨hm, hc, hp, hr, hots⟩ := State.attest_signs ho
      exact ⟨hm, hc, fun _ => ⟨⟨hp, hr⟩, hots⟩, fun h => absurd h (Nat.not_le.mpr ho)⟩
    · rw [State.attest_exhausted (Nat.not_lt.mp ho)]
      exact ⟨rfl, rfl, fun h => absurd h ho, fun _ => ⟨⟨rfl, rfl⟩, rfl⟩⟩
  case lcset =>
    intro h q
    exact ⟨fun hs => (exec_lcset h).trans (congrArg _ (State.lcset_unsigned hs)),
      fun hs ht => (exec_lcset h).trans (congrArg _ (State.lcset_refused hs ht)),
      fun hs n ht hm => (exec_lcset h).trans (congrArg _ (State.lcset_moves hs ht hm))⟩
  case svnset => exact fun h => ⟨_, exec_svnset h, ⟨rfl, rfl⟩, State.svnset_minimum⟩
  case badop =>
    intro op h
    exact ⟨_, exec_mailboxBadop h, fun ho => if_pos ho, fun ho => by rw [if_neg ho]; exact ⟨rfl, rfl⟩⟩

end Sys2Proof.Machine
end

section
namespace Sys2Proof.Machine

/-! Scalar accesses: what the region says of them, the lines they ask for, and the bodies that make them (R32, R34, R80, R81). -/

/-- An address outside LPDDR6 lies above it (R30). -/
theorem lpddr_le_of_regionOf_ne {pa : Nat} (h : regionOf pa ≠ .lpddr) : 0x4000000000 ≤ pa :=
  Nat.le_of_not_lt fun hlt => h (if_pos hlt)

theorem lpddrLines_of_le {pa n : Nat} (h : 0x4000000000 ≤ pa) : lpddrLines pa n = [] := by
  unfold lpddrLines
  split
  · rfl
  · rw [List.filter_eq_nil_iff]
    intro k hk
    obtain ⟨j, -, rfl⟩ := List.mem_map.mp hk
    simp only [decide_eq_true_eq]
    omega

/-- Only lines of LPDDR6 are asked for. -/
theorem State.l2Ask_of_ne_lpddr (s : State) {pa : Nat} (n : Nat) (dom : Option (BitVec 12)) (h : regionOf pa ≠ .lpddr) :
    s.l2Ask pa n dom = s := by
  unfold State.l2Ask
  rw [lpddrLines_of_le (lpddr_le_of_regionOf_ne h)]
  rfl

/-- Asking for lines changes what has been asked for and nothing else (R92). -/
theorem State.l2Ask_eq_asking (s : State) (pa n : Nat) (dom : Option (BitVec 12)) : ∃ q, s.l2Ask pa n dom = s.asking q := by
  unfold State.l2Ask
  dsimp only
  split
  · exact ⟨s.l2.asked, rfl⟩
  · exact ⟨_, rfl⟩

/-- What the rules of a region say of a load or a store. -/
def State.verdict (s : State) (acc : Acc) (strict : Bool) (pa n : Nat) (mode : Mode) : Verdict :=
  match acc with
  | .store => s.storeVerdict strict pa n mode
  | _ => s.loadVerdict strict pa n mode

/-- Whether the MMIO register at an offset admits the access (R34, R398). -/
def State.mmioAdmits (s : State) (acc : Acc) (off n : Nat) (mode : Mode) : Bool :=
  match acc with
  | .store => (mmioReg (off - off % 8)).any fun r => r.storeOk s.cpu mode n
  | _ => mmioLoadOk off mode

/-- An offset that a hart may load from holds a register. -/
theorem mmioReg_of_mmioLoadOk {off : Nat} {mode : Mode} (h : mmioLoadOk off mode = true) : ∃ r, mmioReg (off - off % 8) = some r := by
  cases hr : mmioReg (off - off % 8) with
  | none => simp [mmioLoadOk, hr] at h
  | some r => exact ⟨r, rfl⟩

section
variable {s : State} {acc : Acc} {pa n cause : Nat} {mode : Mode} (hacc : acc = .load ∨ acc = .store)
include hacc

/-! The verdict of a scalar access, region by region. -/

theorem State.verdict_lpddr (hr : regionOf pa = .lpddr) :
    s.verdict acc true pa n mode = if 0x4000000000 < pa + n then .fault acc.misCause else .ok := by
  rcases hacc with rfl | rfl <;> simp [State.verdict, State.loadVerdict, State.storeVerdict, hr, pastLpddr, Acc.misCause]

theorem State.verdict_csram {c b off : Nat} (hr : regionOf pa = .csram c b off) (hb : (s.bank c b).busy = none) :
    s.verdict acc true pa n mode =
      if (s.bank c b).mode = modeCache ∨ (s.bank c b).mode = modeFifo ∧ acc = .store then .fault acc.accessCause
      else if 0x40000 < off + n ∨ (s.bank c b).mode ≠ modeScratch ∧ pa % n ≠ 0 then .fault acc.misCause
      else .ok := by
  rcases hacc with rfl | rfl <;>
    simp [State.verdict, State.loadVerdict, State.storeVerdict, hr, hb, Acc.accessCause, Acc.misCause]

theorem State.verdict_busy {c b off : Nat} (hr : regionOf pa = .csram c b off) (hb : (s.bank c b).busy ≠ none) :
    s.verdict acc true pa n mode = .wait (.modeChange (c * 32 + b)) := by
  rcases hacc with rfl | rfl <;>
    simp [State.verdict, State.loadVerdict, State.storeVerdict, hr, Option.isSome_iff_ne_none.mpr hb]

theorem State.verdict_mmio {off : Nat} (hr : regionOf pa = .mmio off) : s.verdict acc true pa n mode =
    if pa % n ≠ 0 then .fault acc.misCause
    else if (n = 4 ∨ n = 8) ∧ s.mmioAdmits acc off n mode = true then .ok else .fault acc.accessCause := by
  by_cases hn : n = 4 ∨ n = 8
  · have hn' : (n == 4 || n == 8) = true := by simpa using hn
    rcases hacc with rfl | rfl
    · cases hm : mmioLoadOk off mode <;>
        simp [State.verdict, State.loadVerdict, State.mmioAdmits, hr, hm, hn, hn', Acc.accessCause, Acc.misCause]
    · cases hm : mmioReg (off - off % 8) <;>
        simp [State.verdict, State.storeVerdict, State.mmioAdmits, hr, hm, hn, hn', Acc.accessCause, Acc.misCause]
  · have hn' : (n == 4 || n == 8) = false := by simpa using hn
    rcases hacc with rfl | rfl <;>
      simp [State.verdict, State.loadVerdict, State.storeVerdict, hr, hn, hn', Acc.accessCause, Acc.misCause]

theorem State.verdict_host {bus : Nat} (hr : regionOf pa = .host bus) : s.verdict acc true pa n mode =
    if pa % n ≠ 0 then .fault acc.misCause else if s.ports.hostUp = true then .ok else .fault 50 := by
  rcases hacc with rfl | rfl <;> simp [State.verdict, State.loadVerdict, State.storeVerdict, hr, Acc.misCause]

theorem State.verdict_twin {b : Nat} (hr : regionOf pa = .twin b) : s.verdict acc true pa n mode =
    if pa % n ≠ 0 then .fault acc.misCause else if s.ports.twinUp = true then .ok else .fault acc.accessCause := by
  rcases hacc with rfl | rfl <;> simp [State.verdict, State.loadVerdict, State.storeVerdict, hr, Acc.misCause, Acc.accessCause]

theorem State.verdict_hole (hr : regionOf pa = .hole) : s.verdict acc true pa n mode = .fault acc.accessCause := by
  rcases hacc with rfl | rfl <;> simp [State.verdict, State.loadVerdict, State.storeVerdict, hr, Acc.accessCause]

/-- What refuses a scalar access is what its verdict says. -/
theorem State.verdict_of_refused (h : refused s true acc pa n mode cause) : s.verdict acc true pa n mode = .fault cause := by
  unfold refused at h
  cases hr : regionOf pa with
  | lpddr =>
    simp only [hr, true_and] at h
    obtain ⟨hlt, rfl⟩ := h
    exact (State.verdict_lpddr hacc hr).trans (if_pos hlt)
  | csram c b off =>
    simp only [hr, true_and] at h
    obtain ⟨hb, ⟨hclosed, rfl⟩ | ⟨hopen, rfl, hodd⟩⟩ := h
    · exact (State.verdict_csram hacc hr hb).trans (if_pos hclosed)
    · exact (State.verdict_csram hacc hr hb).trans ((if_neg hopen).trans (if_pos (hodd.symm.imp id And.symm)))
  | mmio off =>
    simp only [hr, true_and] at h
    obtain ⟨hodd, rfl⟩ | ⟨heven, rfl, hno⟩ := h
    · exact (State.verdict_mmio hacc hr).trans (if_pos hodd)
    · refine (State.verdict_mmio hacc hr).trans ((if_neg heven).trans (if_neg fun ⟨hn, hadm⟩ => hno ⟨hn, ?_⟩))
      rcases hacc with rfl | rfl
      · obtain ⟨r, hreg⟩ := mmioReg_of_mmioLoadOk hadm
        exact ⟨r, hreg, hadm⟩
      · exact (Option.any_eq_true _ _).mp hadm
  | host bus =>
    simp only [hr, true_and] at h
    obtain ⟨hodd, rfl⟩ | ⟨heven, hdown, rfl⟩ := h
    · exact (State.verdict_host hacc hr).trans (if_pos hodd)
    · exact (State.verdict_host hacc hr).trans ((if_neg heven).trans (if_neg (by simp [hdown])))
  | twin b =>
    simp only [hr, true_and] at h
    obtain ⟨hodd, rfl⟩ | ⟨heven, hdown, rfl⟩ := h
    · exact (State.verdict_twin hacc hr).trans (if_pos hodd)
    · exact (State.verdict_twin hacc hr).trans ((if_neg heven).trans (if_neg (by simp [hdown])))
  | hole =>
    simp only [hr] at h
    rw [State.verdict_hole hacc hr, h]

end
end Sys2Proof.Machine
end

section
namespace Sys2Proof.Machine

/-! The bodies of scalar loads and stores: translation, checks, and the access itself. -/

/-- A number's low bits sign-extended are the bits of the word (R4). -/
theorem sextWord_eq_signExtend {n : Nat} (hn : 0 < n) (v : Nat) : sextWord n v = (BitVec.ofNat n v).signExtend 64 := by
  obtain ⟨k, rfl⟩ := Nat.exists_eq_succ_of_ne_zero hn.ne'
  have hs : signedOf (k + 1) v = (BitVec.ofNat (k + 1) v).toInt := by
    rw [BitVec.toInt_eq_toNat_cond, BitVec.toNat_ofNat]
    unfold signedOf
    have hp : 2 ^ (k + 1) = 2 * 2 ^ k := Nat.pow_succ'
    simp only [Nat.add_sub_cancel]
    by_cases hv : v % 2 ^ (k + 1) < 2 ^ k
    · rw [if_pos hv, if_pos (by omega)]
    · rw [if_neg hv, if_neg (by omega)]
  exact congrArg (BitVec.ofInt 64) hs

section
variable {s u : State} {acc : Acc} {va : Word} {x : Xlat}

theorem runM_translate_ok {e : Option Nat} (h : xlat s acc va = .ok (x, u)) : runM (translate acc va e) s = (.ok x, u) := by
  unfold translate
  rw [runM_bind_ok (runM_get s), h]
  rfl

theorem runM_translate_error {f : AccFault} (h : xlat s acc va = .error f) :
    runM (translate acc va none) s = (.error (.exc (.plain f.cause va)), s.xlatMissed acc va) := by
  unfold translate
  rw [runM_bind_ok (runM_get s), h]
  rfl

variable {n : Nat}

theorem runM_scalarLoad_missed {f : AccFault} (h : xlat s .load va = .error f) :
    runM (scalarLoad va n) s = (.error (.exc (.plain f.cause va)), s.xlatMissed .load va) :=
  runM_bind_error (runM_translate_error h)

theorem runM_scalarStore_missed {v : Nat} {bad : Bool} {f : AccFault} (h : xlat s .store va = .error f) :
    runM (scalarStore va n v bad) s = (.error (.exc (.plain f.cause va)), s.xlatMissed .store va) :=
  runM_bind_error (runM_translate_error h)

section
variable (hx : xlat s .load va = .ok (x, u))
include hx

theorem runM_scalarLoad_crosses (hc : x.crosses va n = true) : runM (scalarLoad va n) s = (.error (.exc (.plain 4 va)), u) := by
  unfold scalarLoad
  rw [runM_bind_ok (runM_translate_ok hx), hc]
  rfl

variable (hc : x.crosses va n = false)
include hc

theorem runM_scalarLoad_translated : runM (scalarLoad va n) s =
    runM (obey (u.loadVerdict true x.pa n (u.cpu.ctx .load).mode) va none >>= fun _ => asks x n >>= fun _ =>
      readPhys x.pa n va none) u := by
  unfold scalarLoad
  rw [runM_bind_ok (runM_translate_ok hx), hc]
  rfl

theorem runM_scalarLoad_refused {c : Nat} (hv : u.loadVerdict true x.pa n (u.cpu.ctx .load).mode = .fault c) :
    runM (scalarLoad va n) s = (.error (.exc (.plain c va)), u) := by
  rw [runM_scalarLoad_translated hx hc, hv]
  rfl

theorem runM_scalarLoad_waits {w : WaitOn} (hv : u.loadVerdict true x.pa n (u.cpu.ctx .load).mode = .wait w) :
    runM (scalarLoad va n) s = (.error (.wait ⟨w, va, 0, false⟩), u) := by
  rw [runM_scalarLoad_translated hx hc, hv]
  rfl

theorem runM_scalarLoad_admitted (hv : u.loadVerdict true x.pa n (u.cpu.ctx .load).mode = .ok) :
    runM (scalarLoad va n) s = runM (readPhys x.pa n va none) (u.l2Ask x.pa n x.dom) := by
  rw [runM_scalarLoad_translated hx hc, hv]
  rfl

end
section
variable {v : Nat} {bad : Bool} (hx : xlat s .store va = .ok (x, u))
include hx

theorem runM_scalarStore_crosses (hc : x.crosses va n = true) :
    runM (scalarStore va n v bad) s = (.error (.exc (.plain 6 va)), u) := by
  unfold scalarStore
  rw [runM_bind_ok (runM_translate_ok hx), hc]
  rfl

variable (hc : x.crosses va n = false) (hrole : u.roleBad x.pa (u.cpu.ctx .store).mode = false)
include hc hrole

theorem runM_scalarStore_translated : runM (scalarStore va n v bad) s =
    runM (obey (u.storeVerdict true x.pa n (u.cpu.ctx .store).mode) va none >>= fun _ => asks x n >>= fun _ =>
      putStore x.pa (bytesOf n v) scopeDevice bad va 0) u := by
  unfold scalarStore
  rw [runM_bind_ok (runM_translate_ok hx), hc]
  simp only [Bool.false_eq_true, if_false]
  rw [runM_bind_ok (runM_get u), hrole]
  rfl

theorem runM_scalarStore_refused {c : Nat} (hv : u.storeVerdict true x.pa n (u.cpu.ctx .store).mode = .fault c) :
    runM (scalarStore va n v bad) s = (.error (.exc (.plain c va)), u) := by
  rw [runM_scalarStore_translated hx hc hrole, hv]
  rfl

theorem runM_scalarStore_waits {w : WaitOn} (hv : u.storeVerdict true x.pa n (u.cpu.ctx .store).mode = .wait w) :
    runM (scalarStore va n v bad) s = (.error (.wait ⟨w, va, 0, false⟩), u) := by
  rw [runM_scalarStore_translated hx hc hrole, hv]
  rfl

theorem runM_scalarStore_admitted (hv : u.storeVerdict true x.pa n (u.cpu.ctx .store).mode = .ok) :
    runM (scalarStore va n v bad) s = runM (putStore x.pa (bytesOf n v) scopeDevice bad va 0) (u.l2Ask x.pa n x.dom) := by
  rw [runM_scalarStore_translated hx hc hrole, hv]
  rfl

end
end

/-! Admitted reads, by the region. -/

section
variable {s : State} {pa n : Nat} {va : Word}

/-- LPDDR6 and the banks answer with the bytes as the core sees them. -/
theorem runM_readPhys_memory (hr : regionOf pa = .lpddr ∨ ∃ c b off, regionOf pa = .csram c b off) :
    runM (readPhys pa n va none) s = (.ok (ofBytes (s.seenBytes pa n), s.seenPoison pa n), s) := by
  unfold readPhys
  rw [runM_bind_ok (runM_get s)]
  rcases hr with hr | ⟨c, b, off, hr⟩ <;> rw [hr] <;> rfl

theorem runM_readPhys_mmio {off v : Nat} {t r : State} {w : Nat} (hr : regionOf pa = .mmio off)
    (hv : s.mmioView.mmioLoad off n = some (v, t)) (hs : s.mmioLoad off n = some (w, r)) :
    runM (readPhys pa n va none) s = (.ok (v, false), r) := by
  unfold readPhys
  rw [runM_bind_ok (runM_get s)]
  simp only [hr, hv, hs]
  rfl

theorem runM_readPhys_host {bus : Nat} (hr : regionOf pa = .host bus) : runM (readPhys pa n va none) s =
    if s.hostAborts bus = true then (.error (.exc (.plain 5 va)), s)
    else (.ok (s.forward pa n (ofBytes (s.hostBytes bus n), false)), s) := by
  unfold readPhys
  rw [runM_bind_ok (runM_get s), hr]
  simp only [hostRead, runM_bind, runM_get]
  cases s.hostAborts bus <;> rfl

theorem runM_readPhys_twin {b : Nat} (hr : regionOf pa = .twin b) : runM (readPhys pa n va none) s =
    let t := { s with free := s.free + 1 }
    if Config.completerAborts s.free = true then (.error (.exc (.plain 5 va)), t)
    else (.ok (s.forward pa n ((Config.twinData s.free).toNat % 2 ^ (8 * n), false)), t) := by
  unfold readPhys
  rw [runM_bind_ok (runM_get s), hr]
  simp only [twinRead, runM_bind, runM_get, runM_set]
  cases Config.completerAborts s.free <;> rfl

/-- An assigned register answers, and reading it changes neither memory nor the core. -/
theorem State.mmioLoad_of_assigned {off size : Nat} {r : MmioReg} (h : mmioReg (off - off % 8) = some r) :
    ∃ t, s.mmioLoad off size = some (bitsAt (s.mmioValue (off - off % 8) r).toNat (8 * (off % 8)) (8 * size), t)
      ∧ t.mem = s.mem ∧ t.cpu = s.cpu := by
  unfold State.mmioLoad
  rw [h]
  refine ⟨_, rfl, ?_⟩
  split <;> exact ⟨rfl, rfl⟩

theorem State.assigned_of_mmioLoad {off size : Nat} {p : Nat × State} (h : s.mmioLoad off size = some p) :
    ∃ r, mmioReg (off - off % 8) = some r := by
  unfold State.mmioLoad at h
  cases hr : mmioReg (off - off % 8) with
  | none => rw [hr] at h; cases h
  | some r => exact ⟨r, rfl⟩

/-- A doorbell reads zero (R304). -/
theorem State.mmioLoad_twdoor {off size d v : Nat} {t : State} (hd : mmioReg (off - off % 8) = some (.twdoor d))
    (h : s.mmioLoad off size = some (v, t)) : v = 0 := by
  obtain ⟨u, hu, -⟩ := State.mmioLoad_of_assigned (s := s) (size := size) hd
  have hv : bitsAt (0 : Word).toNat (8 * (off % 8)) (8 * size) = v := congrArg Prod.fst (Option.some.inj (hu.symm.trans h))
  simpa [bitsAt] using hv.symm

end
end Sys2Proof.Machine
end

section
namespace Sys2Proof.Machine

/-! What a scalar load comes to, from what its access answers (R80, R81). -/

section
variable (s : State) (pa n : Nat) (dom : Option (BitVec 12))

@[simp] theorem State.l2Ask_cpu : (s.l2Ask pa n dom).cpu = s.cpu := by
  obtain ⟨q, h⟩ := s.l2Ask_eq_asking pa n dom; rw [h]

@[simp] theorem State.l2Ask_mem : (s.l2Ask pa n dom).mem = s.mem := by
  obtain ⟨q, h⟩ := s.l2Ask_eq_asking pa n dom; rw [h]

@[simp] theorem State.l2Ask_banks : (s.l2Ask pa n dom).banks = s.banks := by
  obtain ⟨q, h⟩ := s.l2Ask_eq_asking pa n dom; rw [h]

@[simp] theorem State.l2Ask_seenBytes (a k : Nat) : (s.l2Ask pa n dom).seenBytes a k = s.seenBytes a k := by
  obtain ⟨q, h⟩ := s.l2Ask_eq_asking pa n dom; rw [h]; rfl

@[simp] theorem State.l2Ask_seenPoison (a k : Nat) : (s.l2Ask pa n dom).seenPoison a k = s.seenPoison a k := by
  obtain ⟨q, h⟩ := s.l2Ask_eq_asking pa n dom; rw [h]; rfl

end

/-- The register value of a load from the bytes it has read (R80). -/
def loadWord (k : LoadKind) (w : Nat) : Word :=
  match k with
  | .lb => (BitVec.ofNat 8 w).signExtend 64
  | .lh => (BitVec.ofNat 16 w).signExtend 64
  | .lw => (BitVec.ofNat 32 w).signExtend 64
  | .ld | .lbu | .lhu | .lwu => BitVec.ofNat 64 w

theorem extend_eq_loadWord (k : LoadKind) (w : Nat) : extend (loadSigned k) (loadBytes k) w = loadWord k w := by
  cases k with
  | lb => exact sextWord_eq_signExtend (n := 8) (by decide) w
  | lh => exact sextWord_eq_signExtend (n := 16) (by decide) w
  | lw => exact sextWord_eq_signExtend (n := 32) (by decide) w
  | ld => exact (sextWord_eq_signExtend (n := 64) (by decide) w).trans (BitVec.signExtend_eq _)
  | lbu | lhu | lwu => rfl

theorem sextWord_imm (imm : BitVec 12) : sextWord 12 imm.toNat = imm.signExtend 64 := by
  rw [sextWord_eq_signExtend (by decide), BitVec.ofNat_toNat, BitVec.setWidth_eq]

theorem Form.pack_fst (form : Form) (w : Nat) : (form.pack w).1 = form.len := by cases form <;> rfl

/-- Bodies that run alike from a state mean alike there. -/
theorem instr_congr {i : Instr} {m m' : M Unit} {s : State} (h : runM m s = runM m' s) : instr i m s = instr i m' s := by
  show finish _ (runM (m >>= fun _ => advance (instrLen i)) s) = finish _ (runM (m' >>= fun _ => advance (instrLen i)) s)
  rw [runM_bind, runM_bind, h]

section
variable {s t : State} {k : LoadKind} {rd rs1 : Reg} {imm : BitVec 12} {form : Form} (hp : s.cpu.xPoisoned rs1 = false)
include hp

theorem exec_load_eq : exec (.load k rd rs1 imm form) s = instr (.load k rd rs1 imm form) (do
    let r ← scalarLoad (s.cpu.xr rs1 + imm.signExtend 64) (loadBytes k)
    consume r.2
    putXp rd (loadWord k r.1) r.2) s := by
  simp only [← extend_eq_loadWord, ← sextWord_imm]
  exact instr_congr (runM_bind_ok (runM_useX rs1 s hp))

theorem exec_load_ok {w : Nat} {p : Bool} {h : Hart}
    (hr : runM (scalarLoad (s.cpu.xr rs1 + imm.signExtend 64) (loadBytes k)) s = (.ok (w, p), t)) (hc : t.cpu = h) :
    exec (.load k rd rs1 imm form) s = .next (t.retired ((h.eats p).setXp rd (loadWord k w) p) form.len) := by
  rw [exec_load_eq hp, ← hc]
  exact instr_retired (runM_bind_ok hr) (Form.pack_fst form _)

theorem exec_load_exc {e : Exc} (hr : runM (scalarLoad (s.cpu.xr rs1 + imm.signExtend 64) (loadBytes k)) s = (.error (.exc e), t)) :
    exec (.load k rd rs1 imm form) s = .next (t.takeTrap e (instrBits (.load k rd rs1 imm form)).toNat) := by
  rw [exec_load_eq hp]
  exact instr_exc (runM_bind_error hr)

theorem exec_load_wait {w : Wait} (hr : runM (scalarLoad (s.cpu.xr rs1 + imm.signExtend 64) (loadBytes k)) s = (.error (.wait w), t)) :
    exec (.load k rd rs1 imm form) s
      = .next (t.waiting t.cpu (w.timedBy (instrBits (.load k rd rs1 imm form)).toNat)) := by
  rw [exec_load_eq hp]
  exact instr_wait (runM_bind_error hr)

end

theorem Wait.timedBy_on (w : Wait) (bits : Nat) : (w.timedBy bits).on = w.on := by unfold Wait.timedBy; split <;> rfl
theorem Wait.timedBy_va (w : Wait) (bits : Nat) : (w.timedBy bits).va = w.va := by unfold Wait.timedBy; split <;> rfl

theorem pow_bytes (n : Nat) : 2 ^ (8 * n) = 256 ^ n := Nat.pow_mul 2 8 n

/-- Settles O21: translation, the page, the region's verdict, then what the region answers. -/
theorem loadReadsMemory : Obligations.LoadReadsMemory := by
  unfold Obligations.LoadReadsMemory
  intro s k rd rs1 imm form a n i traps answers hp
  have hok {t : State} {h : Hart} {w : Nat} {p : Bool} (hr : runM (scalarLoad a n) s = (.ok (w, p), t)) (hc : t.cpu = h) :
      answers t h w p := exec_load_ok hp hr hc
  have htrap {t : State} {c : Nat} (hr : runM (scalarLoad a n) s = (.error (.exc (.plain c a)), t)) : traps t c :=
    exec_load_exc hp hr
  refine ⟨fun f hf => htrap (runM_scalarLoad_missed hf), fun x u hx => ?_⟩
  intro pa asked mode
  refine ⟨fun hc => htrap (runM_scalarLoad_crosses hx (decide_eq_true hc)), fun hc => ?_⟩
  replace hc : x.crosses a n = false := decide_eq_false (Nat.not_lt.mpr hc)
  refine ⟨fun cause h => htrap (runM_scalarLoad_refused hx hc (State.verdict_of_refused (.inl rfl) h)),
    fun c b off hr hb => ?busy, fun hv => ?admitted⟩
  case busy =>
    have hw := exec_load_wait (rd := rd) (form := form) hp
      (runM_scalarLoad_waits hx hc (State.verdict_busy (.inl rfl) hr hb))
    exact ⟨_, hw, Wait.timedBy_on _ _, Wait.timedBy_va _ _⟩
  case admitted =>
    have hread := runM_scalarLoad_admitted hx hc hv
    have hask (hne : regionOf pa ≠ .lpddr) : u.l2Ask pa n x.dom = u := u.l2Ask_of_ne_lpddr n x.dom hne
    refine ⟨fun hr => ?memory, fun off hr v t hl => ?mmio, fun bus hr => ?host, fun b hr => ?twin⟩
    case memory =>
      have h := hread.trans (runM_readPhys_memory hr)
      rw [State.l2Ask_seenBytes, State.l2Ask_seenPoison] at h
      exact hok h (State.l2Ask_cpu ..)
    case mmio =>
      rw [hask (by rw [hr]; nofun)] at hread
      obtain ⟨r, hreg⟩ := State.assigned_of_mmioLoad hl
      obtain ⟨t', ht', hmem, hcpu⟩ := State.mmioLoad_of_assigned (s := u) (size := n) hreg
      exact ⟨fun ⟨d, hd⟩ => State.mmioLoad_twdoor hd hl, t', hok (hread.trans (runM_readPhys_mmio hr hl ht')) hcpu, hmem⟩
    case host =>
      rw [show asked = u from hask (by rw [hr]; nofun)]
      rw [hask (by rw [hr]; nofun), runM_readPhys_host hr] at hread
      exact ⟨fun h => htrap (hread.trans (if_pos h)), fun h => hok (hread.trans (if_neg (by simp [h]))) rfl⟩
    case twin =>
      rw [show asked = u from hask (by rw [hr]; nofun)]
      rw [hask (by rw [hr]; nofun), runM_readPhys_twin hr, pow_bytes] at hread
      exact ⟨fun h => htrap (hread.trans (if_pos h)), fun h => hok (hread.trans (if_neg (by simp [h]))) rfl⟩

end Sys2Proof.Machine
end

section
namespace Sys2Proof.Machine

/-! What a scalar store comes to, from where its bytes go (R51, R80, R81, R336). -/

section
variable (s : State) (who pa : Nat) (data : List Byte) (bad : Bool)

@[simp] theorem State.visWrite_core_mem : (s.visWrite (some who) pa data bad).mem = memSetBytes s.mem pa data := by
  show (s.rawWrite (some who) pa data bad).mem = _
  unfold State.rawWrite
  dsimp only
  split <;> rfl

@[simp] theorem State.visWrite_core_banks : (s.visWrite (some who) pa data bad).banks = s.banks := by
  show (s.rawWrite (some who) pa data bad).banks = _
  unfold State.rawWrite
  dsimp only
  split <;> rfl

theorem Hart.loseResv_regs (h : Hart) (w : Option Nat) (a n : Nat) : (h.loseResv w a n).x = h.x ∧ (h.loseResv w a n).pc = h.pc := by
  unfold Hart.loseResv
  split
  · split <;> exact ⟨rfl, rfl⟩
  · exact ⟨rfl, rfl⟩

/-- A write takes away reservations and no register of the core. -/
theorem State.visWrite_core_regs :
    (s.visWrite (some who) pa data bad).cpu.x = s.cpu.x ∧ (s.visWrite (some who) pa data bad).cpu.pc = s.cpu.pc := by
  show (s.rawWrite (some who) pa data bad).cpu.x = _ ∧ (s.rawWrite (some who) pa data bad).cpu.pc = _
  unfold State.rawWrite
  dsimp only
  split
  · exact Hart.loseResv_regs _ _ _ _
  · exact ⟨rfl, rfl⟩

end

section
variable {s t : State} {k : StoreKind} {rs1 rs2 : Reg} {imm : BitVec 12} {form : Form} (hp : s.cpu.xPoisoned rs1 = false)
include hp

theorem exec_store_eq : exec (.store k rs2 rs1 imm form) s = instr (.store k rs2 rs1 imm form) (do
    scalarStore (s.cpu.xr rs1 + imm.signExtend 64) (storeBytes k) (s.cpu.xr rs2).toNat (s.cpu.xPoisoned rs2)
    consume (s.cpu.xPoisoned rs2)) s := by
  simp only [← sextWord_imm]
  exact instr_congr ((runM_bind_ok (runM_useX rs1 s hp)).trans (runM_bind_ok (runM_cpu s)))

theorem exec_store_ok (hr : runM (scalarStore (s.cpu.xr rs1 + imm.signExtend 64) (storeBytes k) (s.cpu.xr rs2).toNat
    (s.cpu.xPoisoned rs2)) s = (.ok (), t)) :
    exec (.store k rs2 rs1 imm form) s = .next (t.retired (t.cpu.eats (s.cpu.xPoisoned rs2)) form.len) := by
  rw [exec_store_eq hp]
  exact instr_retired (runM_bind_ok hr) (Form.pack_fst form _)

theorem exec_store_exc {e : Exc} (hr : runM (scalarStore (s.cpu.xr rs1 + imm.signExtend 64) (storeBytes k) (s.cpu.xr rs2).toNat
    (s.cpu.xPoisoned rs2)) s = (.error (.exc e), t)) :
    exec (.store k rs2 rs1 imm form) s = .next (t.takeTrap e (instrBits (.store k rs2 rs1 imm form)).toNat) := by
  rw [exec_store_eq hp]
  exact instr_exc (runM_bind_error hr)

theorem exec_store_wait {w : Wait} (hr : runM (scalarStore (s.cpu.xr rs1 + imm.signExtend 64) (storeBytes k) (s.cpu.xr rs2).toNat
    (s.cpu.xPoisoned rs2)) s = (.error (.wait w), t)) :
    exec (.store k rs2 rs1 imm form) s = .next (t.waiting t.cpu (w.timedBy (instrBits (.store k rs2 rs1 imm form)).toNat)) := by
  rw [exec_store_eq hp]
  exact instr_wait (runM_bind_error hr)

end

section
variable {s : State} {pa n : Nat} {data : List Byte} {scope : BitVec 2} {bad : Bool} {va : Word} {mode : Mode}

/-- A vector core's store enters its strip buffer (R51, R336). -/
theorem runM_putStore_buffered (hv : s.cpu.isVc = true)
    (hl : (bufSectors (.store pa data scope bad :: s.cpu.buf)).length ≤ stripEntries) :
    runM (putStore pa data scope bad va 0) s =
      (.ok (), { s with cpu := { s.cpu with buf := .store pa data scope bad :: s.cpu.buf } }) := by
  unfold putStore
  rw [runM_bind_ok (runM_get s)]
  dsimp only
  rw [if_pos hv, if_pos hl]
  rfl

/-- A stream core's store that nothing delays is performed at once (R83). -/
theorem runM_putStore_performed (hv : s.cpu.isVc = false) (hw : s.entryWaits (.store pa data scope bad) = none) :
    runM (putStore pa data scope bad va 0) s = (.ok (), s.performStore s.cpu.num pa data bad) := by
  unfold putStore
  rw [runM_bind_ok (runM_get s)]
  simp only [hv, Bool.false_eq_true, if_false, hw]
  rfl

theorem runM_putStore_waits {w : WaitOn} (hv : s.cpu.isVc = false) (hw : s.entryWaits (.store pa data scope bad) = some w) :
    runM (putStore pa data scope bad va 0) s = (.error (.wait ⟨w, va, 0, false⟩), s) := by
  unfold putStore
  rw [runM_bind_ok (runM_get s)]
  simp only [hv, Bool.false_eq_true, if_false, hw]
  rfl

/-! Where a performed store goes, by the region. -/

@[simp] theorem State.l2Ask_storeVerdict (s : State) (pa n : Nat) (dom : Option (BitVec 12)) (strict : Bool) (a k : Nat) (mode : Mode) :
    (s.l2Ask pa n dom).storeVerdict strict a k mode = s.storeVerdict strict a k mode := by
  obtain ⟨q, h⟩ := s.l2Ask_eq_asking pa n dom; rw [h]; rfl

theorem plainMode_of_open {m : BitVec 2} (h : ¬(m = modeCache ∨ m = modeFifo)) : (m == modeScratch || m == modeLatch) = true := by
  revert m
  decide

/-- A bank that admits a store changes no mode and is one for plain data (R84). -/
theorem State.bank_of_admitted {c b off : Nat} (hr : regionOf pa = .csram c b off) (ho : s.storeVerdict true pa n mode = .ok) :
    (s.bank c b).busy = none ∧ ((s.bank c b).mode == modeScratch || (s.bank c b).mode == modeLatch) = true := by
  have hb : (s.bank c b).busy = none := by
    by_contra hb
    exact nomatch (State.verdict_busy (acc := .store) (.inr rfl) hr hb).symm.trans ho
  refine ⟨hb, plainMode_of_open fun hm => ?_⟩
  exact nomatch ((State.verdict_csram (acc := .store) (.inr rfl) hr hb).trans (if_pos (hm.imp_right (⟨·, rfl⟩)))).symm.trans ho

/-- A store that its region admits to memory is performed there (R396). -/
theorem State.performStore_memory (hr : regionOf pa = .lpddr ∨ ∃ c b off, regionOf pa = .csram c b off)
    (ho : s.storeVerdict true pa n mode = .ok) (who : Nat) :
    s.entryWaits (.store pa data scope bad) = none ∧ s.performStore who pa data bad = s.visWrite (some who) pa data bad := by
  rcases hr with hr | ⟨c, b, off, hr⟩
  · simp [State.entryWaits, State.performStore, hr]
  · obtain ⟨hb, hm⟩ := State.bank_of_admitted hr ho
    simp only [State.entryWaits, State.performStore, hr, hb, hm]
    exact ⟨rfl, rfl⟩

theorem State.entryWaits_mmio {off : Nat} (hr : regionOf pa = .mmio off) :
    s.entryWaits (.store pa data scope bad) = if s.mmioReady off = true then none else some .credit := by
  simp only [State.entryWaits, hr]

theorem State.performStore_mmio {off : Nat} (hr : regionOf pa = .mmio off) (who : Nat) :
    s.performStore who pa data bad = s.mmioStore off data.length (ofBytes data) := by
  simp only [State.performStore, hr]

theorem State.performStore_host {bus : Nat} (hr : regionOf pa = .host bus) (ho : s.storeVerdict true pa n mode = .ok) (who : Nat) :
    s.entryWaits (.store pa data scope bad) = none ∧ s.performStore who pa data bad = s.hostWrite bus data := by
  have hup : s.ports.hostUp = true := by
    by_contra hup
    have hv := (State.verdict_host (acc := .store) (.inr rfl) hr).symm.trans ho
    rw [if_neg hup] at hv
    split at hv <;> cases hv
  simp [State.entryWaits, State.performStore, hr, hup]

theorem State.performStore_twin {b : Nat} (hr : regionOf pa = .twin b) (who : Nat) :
    s.entryWaits (.store pa data scope bad) = none ∧ s.performStore who pa data bad = s := by
  simp [State.entryWaits, State.performStore, hr]

end

/-- Settles O22: translation, the page, the region's verdict, then the strip buffer of a vector core or the place a stream core's
bytes go to. -/
theorem storeWritesItsBytes : Obligations.StoreWritesItsBytes := by
  unfold Obligations.StoreWritesItsBytes
  intro s k rs1 rs2 imm form a n p num data i traps waits leaves hp
  have hok {t : State} (hr : runM (scalarStore a n (s.cpu.xr rs2).toNat p) s = (.ok (), t)) : leaves t := exec_store_ok hp hr
  have htrap {t : State} {c : Nat} (hr : runM (scalarStore a n (s.cpu.xr rs2).toNat p) s = (.error (.exc (.plain c a)), t)) :
      traps t c := exec_store_exc hp hr
  have hwait {t : State} {on : WaitOn} (hr : runM (scalarStore a n (s.cpu.xr rs2).toNat p) s = (.error (.wait ⟨on, a, 0, false⟩), t)) :
      waits t on := ⟨_, exec_store_wait hp hr, Wait.timedBy_on _ _, Wait.timedBy_va _ _⟩
  refine ⟨fun f hf => htrap (runM_scalarStore_missed hf), fun x u hx => ?_⟩
  intro pa e asked mode
  refine ⟨fun hc => htrap (runM_scalarStore_crosses hx (decide_eq_true hc)), fun hc hrole => ?_⟩
  replace hc : x.crosses a n = false := decide_eq_false (Nat.not_lt.mpr hc)
  refine ⟨fun cause h => htrap (runM_scalarStore_refused hx hc hrole (State.verdict_of_refused (.inr rfl) h)),
    fun c b off hr hb => hwait (runM_scalarStore_waits hx hc hrole (State.verdict_busy (acc := .store) (.inr rfl) hr hb)), fun hv => ?_⟩
  have hput : runM (scalarStore a n (s.cpu.xr rs2).toNat p) s = runM (putStore pa data scopeDevice p a 0) asked :=
    runM_scalarStore_admitted hx hc hrole hv
  have hcpu : asked.cpu = u.cpu := State.l2Ask_cpu ..
  refine ⟨fun hvc hl => ?vector, fun hsc => ?stream⟩
  case vector =>
    have h := hok (hput.trans (runM_putStore_buffered (by rw [hcpu]; exact hvc) (by rw [hcpu]; exact hl)))
    simp only [leaves, hcpu] at h
    exact h
  case stream =>
    have hsc' : asked.cpu.isVc = false := by rw [hcpu]; exact hsc
    have hask (hne : regionOf pa ≠ .lpddr) : asked = u := u.l2Ask_of_ne_lpddr n x.dom hne
    have hv' : asked.storeVerdict true pa n mode = .ok := (State.l2Ask_storeVerdict ..).trans hv
    have hperform {t : State} (h : asked.entryWaits (.store pa data scopeDevice p) = none
        ∧ asked.performStore asked.cpu.num pa data p = t) : leaves t :=
      hok (hput.trans ((runM_putStore_performed hsc' h.1).trans (by rw [h.2])))
    refine ⟨fun hr => ?memory, fun off hr => ?mmio, fun bus hr => ?host, fun b hr => ?twin⟩
    case memory =>
      obtain ⟨hregs, hpc⟩ := asked.visWrite_core_regs asked.cpu.num pa data p
      refine ⟨_, hperform (State.performStore_memory hr hv' _), ?_, fun b hb => ?_, ?_, ?_, ?_⟩ <;>
        simp only [State.visWrite_core_mem, State.visWrite_core_banks, Hart.advance_x, Hart.advance_pc, Hart.eats_x, Hart.eats_pc]
      · exact memRead_write _ _ _ _
      · exact (memByte_write_outside _ _ _ _ _ hb).trans (by rw [State.l2Ask_mem])
      · rw [hregs, hcpu]
      · rw [hpc, hcpu]
      · exact State.l2Ask_banks ..
    case mmio =>
      have hready : asked.mmioReady off = u.mmioReady off := by rw [hask (by rw [hr]; nofun)]
      have hwaits := State.entryWaits_mmio (s := asked) (data := data) (scope := scopeDevice) (bad := p) hr
      rw [hready] at hwaits
      refine ⟨fun h => hperform ⟨hwaits.trans (if_pos h), ?_⟩, fun h => ?_⟩
      · rw [State.performStore_mmio hr, bytesOf_length, ofBytes_bytesOf]
      · exact hwait (hput.trans (runM_putStore_waits hsc' (hwaits.trans (if_neg (by simp [h])))))
    case host => exact hperform (State.performStore_host hr hv' _)
    case twin => exact hperform (State.performStore_twin hr _)

end Sys2Proof.Machine
end

section
namespace Sys2Proof.Machine

/-! Elements of vector storage: where they lie, and what a write of some leaves (R201, R206). -/

theorem vecKey_add (r b n : Nat) : vecKey r (b + n) = vecKey r b + n := (Nat.add_assoc ..).symm

section
variable (v : Vec) (reg : Nat)

/-- The key of an element's first byte. -/
def Vec.elemKey (i : Nat) : Nat := vecKey (v.elemReg reg i) (v.elemByte i)

theorem Vec.byte_setByte (r b : Nat) (x : Byte) (q c : Nat) :
    (v.setByte r b x).byte q c = if vecKey q c = vecKey r b then x else v.byte q c := by
  unfold Vec.setByte Vec.byte Vec.blank
  dsimp only
  by_cases he : v.epoch = 0
  · simp only [if_pos he]
    exact tabGet_set 0 v.store _ _ x
  · simp only [if_neg he]
    exact tabGet_insert _ v.store _ _ x

/-- Bytes written to an image change storage alone. -/
theorem Vec.setBytes_eq (r b : Nat) (l : List Byte) : v.setBytes r b l = { v with store := (v.setBytes r b l).store } := by
  induction l generalizing v b with
  | nil => rfl
  | cons x l ih => exact ih (v.setByte r b x) (b + 1)

theorem Vec.byte_setBytes_outside {r b : Nat} {l : List Byte} {q c : Nat}
    (h : vecKey q c < vecKey r b ∨ vecKey r b + l.length ≤ vecKey q c) : (v.setBytes r b l).byte q c = v.byte q c := by
  induction l generalizing v b with
  | nil => rfl
  | cons x l ih =>
    rw [List.length_cons] at h
    rw [Vec.setBytes, ih _ (by rw [vecKey_add]; omega), Vec.byte_setByte, if_neg (by omega)]

theorem Vec.bytes_setBytes (r b : Nat) (l : List Byte) : (v.setBytes r b l).bytes r b l.length = l := by
  induction l generalizing v b with
  | nil => rfl
  | cons x l ih =>
    have hhead : (v.setBytes r b (x :: l)).byte r b = x := by
      rw [Vec.setBytes, Vec.byte_setBytes_outside _ (by rw [vecKey_add]; omega), Vec.byte_setByte, if_pos rfl]
    have htail := ih (v.setByte r b x) (b + 1)
    unfold Vec.bytes at htail ⊢
    rw [List.length_cons, List.range_succ_eq_map, List.map_cons, List.map_map]
    refine congrArg₂ _ hhead ?_
    refine Eq.trans (List.map_congr_left fun i _ => ?_) htail
    show Vec.byte _ r (b + (i + 1)) = Vec.byte _ r (b + 1 + i)
    rw [Nat.add_assoc, Nat.add_comm 1 i]
    rfl

theorem popLanes_le (l : BitVec 32) : popLanes l ≤ 32 :=
  (List.length_filter_le _ _).trans_eq List.length_range

/-- The image of a register holds at most 4,096 bytes (R201). -/
theorem Vec.imageB_le : v.imageB ≤ 4096 := by
  have hl : v.laneCount ≤ 32 := by
    have h := popLanes_le v.lanes
    unfold Vec.laneCount
    dsimp only
    split <;> omega
  have hr : 1024 / v.nreg ≤ 128 := by
    have : 8 ≤ v.nreg := Nat.le_mul_of_pos_right 8 (Nat.two_pow_pos _)
    exact (Nat.div_le_div_left this (by decide)).trans (by decide)
  exact (Nat.mul_le_mul hl hr).trans (by decide)

/-- Elements of an operand lie apart, in their order. -/
theorem Vec.elemKey_apart {i j : Nat} (h : i < j) : v.elemKey reg i + v.ewB ≤ v.elemKey reg j := by
  have hstep {a b : Nat} (hab : a < b) : a * v.ewB + v.ewB ≤ b * v.ewB := by
    rw [← Nat.succ_mul]; exact Nat.mul_le_mul_right _ hab
  unfold Vec.elemKey Vec.elemReg Vec.elemByte vecKey
  rcases Nat.eq_zero_or_pos v.mvl with h0 | hpos
  · rw [h0, Nat.div_zero, Nat.div_zero, Nat.mod_zero, Nat.mod_zero]
    have := hstep h
    omega
  · have hq : i / v.mvl ≤ j / v.mvl := Nat.div_le_div_right h.le
    rcases Nat.lt_or_eq_of_le hq with hq | hq
    · have hfit : i % v.mvl * v.ewB + v.ewB ≤ 4096 :=
        (hstep (Nat.mod_lt i hpos)).trans ((Nat.div_mul_le_self ..).trans v.imageB_le)
      omega
    · have hi := Nat.div_add_mod i v.mvl
      have hj := Nat.div_add_mod j v.mvl
      rw [hq] at hi ⊢
      have := hstep (show i % v.mvl < j % v.mvl by omega)
      omega

/-- A number written to an element, where no mark stands. -/
theorem Vec.setElem_clean (hp : v.vpoison = []) (i x : Nat) :
    v.setElem reg i (x, false) = v.setBytes (v.elemReg reg i) (v.elemByte i) (bytesOf v.ewB x) := if_pos (by rw [hp]; rfl)

/-- An element of another storage that agrees on its bytes. -/
theorem Vec.elem_congr {st : Tab Byte} {i : Nat}
    (h : ∀ q c, v.elemKey reg i ≤ vecKey q c → vecKey q c < v.elemKey reg i + v.ewB →
      Vec.byte { v with store := st } q c = v.byte q c) : Vec.elem { v with store := st } reg i = v.elem reg i := by
  refine congrArg ofBytes (List.map_congr_left fun b hb => h (v.elemReg reg i) (v.elemByte i + b) ?_ ?_)
  all_goals
    have hb : b < v.ewB := List.mem_range.mp hb
    rw [vecKey_add, Vec.elemKey]
    omega

variable {v reg} {w x : Vec} {i : Nat} {r : List Nat} {val : Nat → Nat}

/-- One element written. -/
theorem placed_setElem (hp : v.vpoison = []) (i : Nat) : placed v (v.setElem reg i (val i, false)) reg [i] val := by
  rw [Vec.setElem_clean v reg hp]
  refine ⟨Vec.setBytes_eq .., fun j hj => ?_, fun q c h => Vec.byte_setBytes_outside _ (by simpa using h)⟩
  obtain rfl := List.mem_singleton.mp hj
  have hb := v.bytes_setBytes (v.elemReg reg j) (v.elemByte j) (bytesOf v.ewB (val j))
  rw [bytesOf_length] at hb
  rw [Vec.setBytes_eq] at hb ⊢
  refine (congrArg ofBytes hb).trans ?_
  rw [ofBytes_bytesOf, ← pow_bytes, Vec.ew]

/-- Further elements written. -/
theorem placed_cons (h : placed v w reg [i] val) (hx : placed w x reg r val) (hi : i ∉ r) : placed v x reg (i :: r) val := by
  obtain ⟨hw, helem, hout⟩ := h
  obtain ⟨hx, helems, houts⟩ := hx
  rw [hw] at hx helem helems hout houts
  refine ⟨hx, fun j hj => ?_, fun q c hq => ?_⟩
  · rcases List.mem_cons.mp hj with rfl | hj
    · rw [hx] at houts ⊢
      refine (Vec.elem_congr { v with store := w.store } reg fun q c hlo hhi => houts q c fun k hk => ?_).trans
        (helem j List.mem_cons_self)
      rcases Nat.lt_or_gt_of_ne (fun e => hi (e ▸ hk) : j ≠ k) with hjk | hkj
      · exact .inl (hhi.trans_le (v.elemKey_apart reg hjk))
      · exact .inr ((v.elemKey_apart reg hkj).trans hlo)
    · exact helems j hj
  · exact (houts q c fun k hk => hq k (List.mem_cons_of_mem _ hk)).trans
      (hout q c fun k hk => hq k (List.mem_singleton.mp hk ▸ List.mem_cons_self))

/-- Unmarked numbers written to elements of an unmarked vector unit. -/
theorem placed_setElems (hp : v.vpoison = []) (is : List Nat) (hs : is.Nodup) (val : Nat → Nat) :
    placed v (v.setElems reg (is.map fun i => (i, val i, false))) reg is val := by
  induction is generalizing v with
  | nil => exact ⟨rfl, nofun, fun _ _ _ => rfl⟩
  | cons i r ih =>
    obtain ⟨hi, hr⟩ := List.nodup_cons.mp hs
    have h := placed_setElem (val := val) (reg := reg) hp i
    exact placed_cons h (ih (by rw [h.1]; exact hp) hr) hi

end
end Sys2Proof.Machine
end

section
namespace Sys2Proof.Machine

/-! Vector instructions on a core that is ready: no stream slot bound, nothing poisoned, nothing partly done (R151, R205, R222). -/

theorem runM_drawing_of {α : Type} {d : Draw α} {a : α} {c : Word} {s : State} (hb : s.cpu.rngBad = false)
    (hd : d.run s.cpu.rng = (a, { s.cpu.rng with ctr := c })) :
    runM (drawing d) s = (.ok a, { s with cpu := { s.cpu with rngctr := c } }) := by
  unfold drawing
  rw [runM_bind_ok (runM_cpu s)]
  simp only [hd, runM_bind, runM_modCpu, hb, Bool.false_and]
  rfl

theorem runM_forM_singleton {α : Type} {f : α → M PUnit} {a : α} {s t : State} (h : runM (f a) s = (.ok (), t)) :
    runM ([a].forM f) s = (.ok (), t) := by
  show runM (f a >>= fun _ => pure ()) s = _
  rw [runM_bind_ok h]
  rfl

theorem runM_checked_ok {α : Type} {ctr : Word} {m : M α} {s t : State} {a : α} (h : runM m s = (.ok a, t)) :
    runM (checked ctr m) s = (.ok a, t) := by
  unfold checked
  rw [runM_tryCatch, h]

/-- Operands of registers alone are widened as they are. -/
theorem widenAll_plain (v : Vec) (w : Reach) (ops : List (List El)) (k : Nat) (g : Rng) :
    (widenAll v w k (ops.map .plain) []).run g = (ops, g) := by
  induction ops generalizing k with
  | nil => rfl
  | cons es r ih =>
    show ((fun l => (es :: l.1, l.2)) ((widenAll v w (k + 1) (r.map .plain) []).run g)) = _
    rw [ih]

theorem gottenPops_plain (ops : List (List El)) : gottenPops (ops.map .plain) = [] := by
  induction ops with
  | nil => rfl
  | cons es r ih => exact ih

theorem Hart.clearDone_of_nil {h : Hart} (hw : h.winDone = []) : h.clearDone = h := by
  show { h with winDone := h.winDone.filter _ } = h
  rw [hw, List.filter_nil, ← hw]

theorem Vec.slotList_of_unbound {v : Vec} (h : ∀ q, v.slots.getD q none = none) : v.slotList = [] := by
  unfold Vec.slotList
  rw [List.filterMap_eq_nil_iff]
  intro q _
  rw [h]
  rfl

section
variable {s : State} {reg : Nat} (hn : noSlots s.cpu)
include hn

theorem boundAt_of_noSlots : s.cpu.vec.boundAt reg = none := by rw [Vec.boundAt, Vec.slotList_of_unbound hn, List.find?_nil]

theorem boundIn_of_noSlots (n : Nat) : s.cpu.vec.boundIn reg n = none := by
  rw [Vec.boundIn, Vec.slotList_of_unbound hn, List.find?_nil]

theorem runM_destUse_plain : runM (destUse reg) s = (.ok (), s) := by
  unfold destUse
  rw [runM_bind_ok (runM_cpu s)]
  simp only [boundIn_of_noSlots hn, boundAt_of_noSlots hn]
  rfl

theorem runM_destChecks_plain (idx : List Nat) (k : Nat) : runM (destChecks idx k [reg]) s = (.ok (), s) := by
  have hc : runM (destCheck reg idx k) s = (.ok (), s) := by
    unfold destCheck
    rw [runM_bind_ok (runM_destUse_plain hn), runM_bind_ok (runM_get s)]
    simp only [boundAt_of_noSlots hn]
    rfl
  unfold destChecks
  rw [runM_bind_ok hc]
  rfl

theorem runM_closeFull_plain (hw : s.cpu.winDone = []) (fuel : Nat) : runM (closeFull reg fuel) s = (.ok (), s) := by
  cases fuel with
  | zero =>
    unfold closeFull
    rw [runM_modCpu, Hart.clearDone_of_nil hw]
  | succ k =>
    unfold closeFull
    rw [runM_bind_ok (runM_get s)]
    simp only [boundAt_of_noSlots hn]
    rfl

/-- An operand of registers alone is read as it stands. -/
theorem runM_readOpnd_group (act : Nat → Bool) (seen : List Popped) :
    runM (readOpnd act (.group reg) seen) s = (.ok (.plain ((List.range s.cpu.vec.vl).map (s.cpu.vec.el reg))), s) := by
  unfold readOpnd
  rw [runM_bind_ok (runM_cpu s)]
  simp only [boundIn_of_noSlots hn, boundAt_of_noSlots hn]
  rfl

theorem runM_writeDests_plain (hw : s.cpu.winDone = []) (ctr : Word) (es : List (Nat × El)) :
    runM (writeDests ctr [(reg, es)]) s =
      (.ok (), { s with cpu := { s.cpu with vec := s.cpu.vec.setElems reg es } }) := by
  have hform : runM (destForm reg es) s = (.ok es, s) := by
    unfold destForm
    rw [runM_bind_ok (runM_cpu s)]
    simp only [boundAt_of_noSlots hn]
    rfl
  have hstores : runM (destStores ctr 0 reg es) s = (.ok (), s) := by
    unfold destStores
    rw [runM_bind_ok (runM_cpu s)]
    simp only [boundAt_of_noSlots hn]
    rfl
  have hland : runM (destLand reg es) s = (.ok (), { s with cpu := { s.cpu with vec := s.cpu.vec.setElems reg es } }) := by
    unfold destLand
    rw [runM_modVec]
    simp only [boundAt_of_noSlots hn]
  have hraw : runM ([(reg, es)].mapM fun d => do return (d.1, ← destForm d.1 d.2)) s = (.ok [(reg, es)], s) := by
    rw [List.mapM_cons, List.mapM_nil]
    simp only [runM_bind, hform, runM_pure]
  unfold writeDests
  rw [runM_bind_ok hraw]
  refine (runM_bind_ok (runM_forM_singleton hstores)).trans ?_
  refine (runM_bind_ok (t := s) (by rw [runM_modCpu, Hart.clearDone_of_nil hw])).trans ?_
  exact runM_forM_singleton hland

end
end Sys2Proof.Machine
end

section
namespace Sys2Proof.Machine

/-! The driver of the vector instructions, on a ready core and a register destination (R151, R205, R222). -/

theorem allPushed_ne_zero : (0 == allPushed) = false := by decide

theorem VecFn.keyMarks_clean {v : Vec} (hk : v.kpoison = []) (f : VecFn) (km : BitVec 3) (res : List (List El)) :
    f.keyMarks v km res = res := if_pos (by simp [Vec.keyBad, hk])

theorem Vec.keyBadAny_clean {v : Vec} (hk : v.kpoison = []) (km : BitVec 3) : v.keyBadAny km = false := by
  simp [Vec.keyBadAny, Vec.keyBadAt, hk]

theorem Vec.setBytes_slots (v : Vec) (r b : Nat) (l : List Byte) : (v.setBytes r b l).slots = v.slots := by rw [Vec.setBytes_eq]

theorem Vec.setElems_slots (v : Vec) (reg : Nat) (es : List (Nat × El)) : (v.setElems reg es).slots = v.slots := by
  induction es generalizing v with
  | nil => rfl
  | cons e r ih =>
    refine (ih _).trans ?_
    unfold Vec.setElem
    dsimp only
    split
    · exact Vec.setBytes_slots ..
    · exact Vec.setBytes_slots ..

/-- The last of a vector instruction: its results are written, and no message of a sink has to close. -/
theorem runM_vecFn_finish {s : State} {d : Nat} (hn : noSlots s.cpu) (hw : s.cpu.winDone = []) (ctr : Word) (es : List (Nat × El))
    (fuel : Nat) : runM (writeDests ctr [(d, es)] >>= fun _ => modify (fun s => s) >>= fun _ => [d].forM fun d => closeFull d fuel) s =
      (.ok (), { s with cpu := { s.cpu with vec := s.cpu.vec.setElems d es } }) := by
  refine (runM_bind_ok (runM_writeDests_plain hn hw _ _)).trans ((runM_bind_ok (runM_modify _ _)).trans ?_)
  have hn' : noSlots { s.cpu with vec := s.cpu.vec.setElems d es } := fun q => (Vec.setElems_slots ..).symm ▸ hn q
  exact runM_forM_singleton (runM_closeFull_plain (s := { s with cpu := { s.cpu with vec := s.cpu.vec.setElems d es } }) hn' hw _)

section
variable {s : State} (hr : vectorReady s.cpu)
include hr

theorem runM_vectorChecks {α : Type} (m : M α) : runM (onVc >>= fun _ => vbadCheck >>= fun _ => m) s = runM m s := by
  obtain ⟨hvc, hcsr, hvbad, -⟩ := hr
  have hv : runM vbadCheck s = (.ok (), s) := by
    unfold vbadCheck
    rw [runM_bind_ok (runM_cpu s), hcsr 0x800 (by decide), hcsr 0x801 (by decide), hvbad]
    rfl
  exact (runM_bind_ok (by rw [runM_onVc, if_pos hvc])).trans (runM_bind_ok hv)

theorem vpoison_of_ready : s.cpu.vec.vpoison = [] := by
  obtain ⟨-, -, -, hvp, -⟩ := hr
  exact hvp

theorem rngBad_of_ready : s.cpu.rngBad = false := by
  obtain ⟨-, hcsr, -⟩ := hr
  have h5 := hcsr 0x805 (by decide)
  have h6 := hcsr 0x806 (by decide)
  simp only [Hart.csrBad, csrHome, List.any_cons, List.any_nil, Bool.or_false] at h5 h6
  rw [Hart.rngBad, h5, h6]
  rfl

theorem runM_vecFn_exec {f : VecFn} {o : VOp} {d : Nat} {ops : List (List El)} {res : List El} {c : Word} (hdk : o.dk = false)
    (hfit : f.fits o s.cpu.vec = true) (hvl : s.cpu.vec.vl ≠ 0) (hd : f.dests = [d])
    (hops : ∀ act, runM (readOpnds act 0 f.srcs []) s = (.ok (ops.map .plain), s)) (hpsn : f.psn s.cpu.vec ops = false)
    (hcomp : (f.comp s.cpu.vec ops).run s.cpu.rng = ([res], { s.cpu.rng with ctr := c }))
    (hclean : ∀ act, f.poisoned s.cpu.vec act (ops.map .plain) ops [res] = false) :
    runM (f.exec o) s = (.ok (), { s with cpu := { s.cpu with
      rngctr := c, vec := s.cpu.vec.setElems d ((f.idx s.cpu.vec).zip res) } }) := by
  have hb := rngBad_of_ready hr
  refine (runM_vectorChecks hr _).trans ?_
  obtain ⟨-, -, -, -, hkp, -, -, hw, hn⟩ := hr
  refine (runM_bind_ok (runM_cpu s)).trans ((runM_bind_ok (by rw [runM_need, if_pos hfit])).trans ?_)
  have hdone : s.cpu.doneTo = 0 := by rw [Hart.doneTo, hw]; rfl
  rw [if_neg hvl]
  simp only [hdk, hd]
  refine (runM_bind_ok (runM_cpu s)).trans ?_
  simp only [hdone, allPushed_ne_zero]
  refine (runM_bind_ok (runM_forM_singleton (runM_destUse_plain hn))).trans ?_
  refine (runM_bind_ok (runM_get s)).trans ((runM_bind_ok (runM_cpu s)).trans ?_)
  refine (runM_bind_ok (a := (ops.map .plain, ops)) (t := s) (runM_checked_ok ?_)).trans ?_
  · refine (runM_bind_ok (hops _)).trans ((runM_bind_ok (runM_destChecks_plain hn _ _)).trans ?_)
    refine (runM_bind_ok (runM_drawing_of hb (widenAll_plain _ _ ops 0 _))).trans ?_
    rw [hpsn]
    rfl
  · simp only [gottenPops_plain]
    refine (runM_bind_ok (runM_drawing_of hb hcomp)).trans ?_
    rw [VecFn.keyMarks_clean hkp, hclean, Vec.keyBadAny_clean hkp]
    refine (runM_bind_ok (runM_consume _ _)).trans ?_
    exact runM_vecFn_finish (s := { s with cpu := { s.cpu with rngctr := c } }) hn hw _ _ closeFuel

end
end Sys2Proof.Machine
end

section
namespace Sys2Proof.Machine

/-! Accumulators: positions of a core's slice, and what a write of some leaves (R21, R122, R239). -/

theorem Row.tabGet_setAcc (l : List (Nat × El)) (hl : (l.map Prod.fst).Nodup) (w : Row) (k : Nat) :
    tabGet 0 (w.setAcc l).acc k = ((l.find? (·.1 == k)).map fun p => BitVec.ofNat 32 p.2.1).getD (tabGet 0 w.acc k) := by
  induction l generalizing w with
  | nil => rfl
  | cons p r ih =>
    obtain ⟨hp, hr⟩ := List.nodup_cons.mp hl
    rw [Row.setAcc, ih hr, List.find?_cons]
    by_cases hk : p.1 = k
    · have hnone : r.find? (·.1 == k) = none := by
        rw [List.find?_eq_none]
        intro q hq hqk
        exact hp (List.mem_map.mpr ⟨q, hq, (eq_of_beq hqk).trans hk.symm⟩)
      rw [hnone, hk, beq_self_eq_true]
      exact (tabGet_set ..).trans (if_pos rfl)
    · rw [beq_eq_false_iff_ne.mpr hk]
      exact congrArg _ ((tabGet_set ..).trans (if_neg (Ne.symm hk)))

theorem State.row_setRow (s : State) (c r c' r' : Nat) (w : Row) :
    (s.setRow c r w).row c' r' = if rowKey c' r' = rowKey c r then w else s.row c' r' := tabGet_set ..

theorem accKey_eq_add (tile r i : Nat) : accKey tile (r + i / 32) (i % 32) = accKey tile r 0 + i := by
  unfold accKey
  omega

theorem Hart.sliceKey_eq_some {h : Hart} {tile imm i k : Nat} (hk : h.sliceKey tile imm i = some k) :
    accKey tile (8 * h.col + imm) 0 + i = k := by
  unfold Hart.sliceKey at hk
  split at hk
  · rw [← Option.some.inj hk, accKey_eq_add]
  · cases hk

theorem Vec.actives_unkeyed (v : Vec) : v.actives 0 = List.range v.vl :=
  List.filter_eq_self.mpr fun i hi => by simp [Vec.active, List.mem_range.mp hi]

/-! The three bodies. -/

section
variable {s : State} (hr : vectorReady s.cpu) (hw : s.cpu.vec.ewB = 4) (hl : s.cpu.vec.vl ≠ 0) (hm : s.cpu.matFaults = [])
  {o : VOp} (hdk : o.dk = false) {cfg : Vec → Bool} (hcfg : cfg s.cpu.vec = true) {body : Hart → Row → M Unit}
include hr hw hl hm hdk hcfg

theorem runM_accExec : runM (accExec o cfg body) s =
    if (s.row s.cpu.cluster s.cpu.row).queue = [] then runM (body s.cpu (s.row s.cpu.cluster s.cpu.row)) s
    else (.error (.wait ⟨.interlock, 0, 0, false⟩), s) := by
  refine (runM_vectorChecks hr _).trans ((runM_bind_ok (runM_cpu s)).trans ?_)
  refine (runM_bind_ok (t := s) (a := ()) (by rw [runM_need, hw, hcfg]; rfl)).trans ?_
  rw [if_neg hl]
  simp only [hdk, Bool.false_eq_true, if_false]
  have hfault : runM (takeMatFault fun _ => true) s = (.ok (), s) := by
    unfold takeMatFault
    rw [runM_bind_ok (runM_cpu s), hm]
    rfl
  refine (runM_bind_ok hfault).trans ((runM_bind_ok (runM_get s)).trans ?_)
  cases (s.row s.cpu.cluster s.cpu.row).queue <;> rfl

end

theorem vectorBits {i : Instr} {r : VRow} {o : VOp} (h : i.vrow = some (r, o)) : (instrBits i).toNat % 64 = 0x1F := by
  have hb : instrBits i = BitVec.ofNat 64 (r.encode o) := by
    unfold instrBits encode
    rw [h]
  rw [hb, BitVec.toNat_ofNat]
  unfold VRow.encode vPack
  omega

/-- A vector instruction that waits is timed (R344). -/
theorem instr_vector_wait {i : Instr} {r : VRow} {o : VOp} (hi : i.vrow = some (r, o)) {m : M Unit} {s : State} {w : Wait}
    (h : runM m s = (.error (.wait w), s)) : instr i m s = .next (s.waiting s.cpu { w with timed := true }) := by
  rw [instr_wait h, Wait.timedBy, vectorBits hi]
  rfl

/-- The accumulator element that `vracc` reads for element i, +0 off the slice (R239). -/
def Hart.sliceEl (h : Hart) (w : Row) (tile imm i : Nat) : El :=
  match h.sliceKey tile imm i with
  | some k => w.accEl k
  | none => (0, false)

/-- The number that `vracc` writes to element i. -/
def Hart.sliceVal (h : Hart) (w : Row) (tile imm i : Nat) : Nat :=
  if imm + i / 32 < 8 then (tabGet 0 w.acc (accKey tile (8 * h.col + imm + i / 32) (i % 32))).toNat else 0

theorem Hart.sliceEl_clean {w : Row} (hp : w.apoison = []) (h : Hart) (tile imm i : Nat) :
    h.sliceEl w tile imm i = (h.sliceVal w tile imm i, false) := by
  unfold Hart.sliceEl Hart.sliceVal Hart.sliceKey
  split
  next k hk =>
    split at hk
    · obtain rfl := Option.some.inj hk
      simp [Row.accEl, *]
    · cases hk
  next hk =>
    split at hk
    · cases hk
    · simp [*]

theorem anyBad_clean {ops : List (List El)} (h : ∀ es ∈ ops, ∀ e ∈ es, e.2 = false) (act : Nat → Nat → Bool) :
    anyBad act ops = false := by
  unfold anyBad
  rw [List.any_eq_false]
  rintro ⟨k, es⟩ hes
  rw [Bool.not_eq_true, List.any_eq_false]
  rintro ⟨i, e⟩ he
  simp [h es (List.of_mem_zip hes).2 e (List.of_mem_zip he).2]

/-- What `vracc` computes. -/
def vraccFn (o : VOp) (h : Hart) (w : Row) : VecFn where
  cfg := fun _ => true
  srcs := []
  dests := [o.vd.toNat]
  idx := fun v => v.actives 0
  comp := fun v _ => return [(v.actives 0).map fun i => h.sliceEl w o.vs1.toNat o.vs3.toNat i]

section
variable {s : State} {o : VOp} (hr : vectorReady s.cpu)
include hr

/-- `vracc` writes each element with its accumulator element. -/
theorem runM_vraccFn {w : Row} (hdk : o.dk = false) (hl : s.cpu.vec.vl ≠ 0) (hg : s.cpu.vec.groupOk o.vd.toNat = true) (hkm : o.km = 0)
    (hp : w.apoison = []) : runM ((vraccFn o s.cpu w).exec o) s = (.ok (), { s with cpu := { s.cpu with
      vec := s.cpu.vec.setElems o.vd.toNat ((List.range s.cpu.vec.vl).map fun i =>
        (i, s.cpu.sliceVal w o.vs1.toNat o.vs3.toNat i, false)) } }) := by
  have hfit : (vraccFn o s.cpu w).fits o s.cpu.vec = true := by
    simp [VecFn.fits, vraccFn, hdk, hg, Vec.keysOk, hkm]
  have hclean (act : Nat → Nat → Bool) : (vraccFn o s.cpu w).poisoned s.cpu.vec act [] []
      [(s.cpu.vec.actives 0).map fun i => s.cpu.sliceEl w o.vs1.toNat o.vs3.toNat i] = false := by
    simp [VecFn.poisoned, anyBad, Hart.sliceEl_clean hp]
  refine (runM_vecFn_exec hr (ops := []) (c := s.cpu.rngctr) hdk hfit hl rfl (fun _ => rfl) rfl rfl hclean).trans ?_
  have hz : ((vraccFn o s.cpu w).idx s.cpu.vec).zip ((s.cpu.vec.actives 0).map fun i => s.cpu.sliceEl w o.vs1.toNat o.vs3.toNat i)
      = (List.range s.cpu.vec.vl).map fun i => (i, s.cpu.sliceVal w o.vs1.toNat o.vs3.toNat i, false) := by
    simp only [vraccFn, Vec.actives_unkeyed, Hart.sliceEl_clean hp]
    simpa only [List.map_id, id] using List.zip_map' (l := List.range s.cpu.vec.vl) (f := id)
      (g := fun i => (s.cpu.sliceVal w o.vs1.toNat o.vs3.toNat i, false))
  rw [hz]

theorem runM_readOpnds_group (act : Nat → Nat → Bool) (reg : Nat) : runM (readOpnds act 0 [.group reg] []) s =
    (.ok ([(List.range s.cpu.vec.vl).map (s.cpu.vec.el reg)].map .plain), s) := by
  obtain ⟨-, -, -, -, -, -, -, -, hn⟩ := hr
  unfold readOpnds
  rw [runM_bind_ok (runM_readOpnd_group hn (act 0) [])]
  rfl

theorem Vec.el_of_ready (reg i : Nat) : s.cpu.vec.el reg i = (s.cpu.vec.elem reg i, false) := by
  simp [Vec.el, Vec.elemBad, vpoison_of_ready hr]

/-- The positions of the slice that `vwacc` writes, with what it writes to them. -/
def Hart.sliceWrites (h : Hart) (o : VOp) : List (Nat × El) :=
  (List.range h.vec.vl).filterMap fun i => (h.sliceKey o.vd.toNat o.vs3.toNat i).map fun k => (k, h.vec.elem o.vs1.toNat i, false)

variable (hdk : o.dk = false) (hw : s.cpu.vec.ewB = 4) (hl : s.cpu.vec.vl ≠ 0) (hm : s.cpu.matFaults = [])
  (hq : (s.row s.cpu.cluster s.cpu.row).queue = [])
include hdk hw hl hm hq

theorem exec_vracc (hp : (s.row s.cpu.cluster s.cpu.row).apoison = []) (hg : s.cpu.vec.groupOk o.vd.toNat = true) (hkm : o.km = 0) :
    exec (.vracc o) s = .next (s.vecDone (s.cpu.vec.setElems o.vd.toNat ((List.range s.cpu.vec.vl).map fun i =>
      (i, s.cpu.sliceVal (s.row s.cpu.cluster s.cpu.row) o.vs1.toNat o.vs3.toNat i, false))) s.cpu.rngctr) := by
  refine instr_retired (i := .vracc o) ((runM_accExec hr hw hl hm hdk (by simpa [hdk] using hg)).trans ((if_pos hq).trans ?_))
  exact runM_vraccFn hr hdk hl hg hkm hp

theorem exec_vwacc (hg : s.cpu.vec.groupOk o.vs1.toNat = true) : exec (.vwacc o) s = .next ((s.setRow s.cpu.cluster s.cpu.row
    ((s.row s.cpu.cluster s.cpu.row).setAcc (s.cpu.sliceWrites o))).retired s.cpu 6) := by
  refine instr_retired (i := .vwacc o) ((runM_accExec hr hw hl hm hdk hg).trans ((if_pos hq).trans ?_))
  refine (runM_bind_ok (runM_checked_ok (runM_readOpnds_group hr _ _))).trans ?_
  refine (runM_bind_ok (runM_drawing_of (rngBad_of_ready hr) (widenAll_plain _ _ _ 0 _))).trans ?_
  have hbad (act : Nat → Nat → Bool) : anyBad act [(List.range s.cpu.vec.vl).map (s.cpu.vec.el o.vs1.toNat)] = false :=
    anyBad_clean (by simp [Vec.el_of_ready hr]) act
  have hels : ((s.cpu.vec.actives 0).filterMap fun i => (s.cpu.sliceKey o.vd.toNat o.vs3.toNat i).map fun k =>
      (k, opAt [(List.range s.cpu.vec.vl).map (s.cpu.vec.el o.vs1.toNat)] 0 i)) = s.cpu.sliceWrites o := by
    rw [Vec.actives_unkeyed]
    refine List.filterMap_congr fun i hi => ?_
    simp [opAt, List.mem_range.mp hi, Vec.el_of_ready hr]
  rw [hbad, hels]
  rfl

theorem exec_vzacc : exec (.vzacc o) s = .next ((s.setRow s.cpu.cluster s.cpu.row
    ((s.row s.cpu.cluster s.cpu.row).setAcc ((List.range 256).map fun i =>
      (accKey o.vd.toNat (8 * s.cpu.col + i / 32) (i % 32), (0, false))))).retired s.cpu 6) :=
  instr_retired (i := .vzacc o) ((runM_accExec hr hw hl hm hdk rfl).trans ((if_pos hq).trans rfl))

end
end Sys2Proof.Machine
end

section
namespace Sys2Proof.Machine

/-! What the writes of accumulator instructions come to, position by position (R239). -/

theorem Hart.sliceWrites_nodup (h : Hart) (o : VOp) : ((h.sliceWrites o).map Prod.fst).Nodup := by
  have he : (h.sliceWrites o).map Prod.fst = (List.range h.vec.vl).filterMap (h.sliceKey o.vd.toNat o.vs3.toNat) := by
    rw [Hart.sliceWrites, List.map_filterMap]
    refine List.filterMap_congr fun i _ => ?_
    cases h.sliceKey o.vd.toNat o.vs3.toNat i <;> rfl
  rw [he]
  refine List.nodup_range.filterMap fun i j k hi hj => ?_
  have := (Hart.sliceKey_eq_some hi).trans (Hart.sliceKey_eq_some hj).symm
  omega

/-- The write of a position is that of the element that lies there. -/
theorem Hart.sliceWrites_find (h : Hart) (o : VOp) (k : Nat) :
    ((h.sliceWrites o).find? (·.1 == k)).map (fun p => BitVec.ofNat 32 p.2.1) =
      ((List.range h.vec.vl).find? fun j => decide (o.vs3.toNat + j / 32 < 8)
        && accKey o.vd.toNat (8 * h.col + o.vs3.toNat + j / 32) (j % 32) == k).map fun j => BitVec.ofNat 32 (h.vec.elem o.vs1.toNat j) := by
  have hkey (j : Nat) : ((h.sliceKey o.vd.toNat o.vs3.toNat j).map fun k => (k, h.vec.elem o.vs1.toNat j, false)).any (·.1 == k) =
      (decide (o.vs3.toNat + j / 32 < 8) && accKey o.vd.toNat (8 * h.col + o.vs3.toNat + j / 32) (j % 32) == k) := by
    unfold Hart.sliceKey
    split <;> simp [*]
  rw [Hart.sliceWrites, List.find?_filterMap]
  simp only [hkey]
  cases hf : (List.range h.vec.vl).find? _ with
  | none => rfl
  | some j =>
    have hj := List.find?_some hf
    rw [Bool.and_eq_true, decide_eq_true_eq] at hj
    simp [Hart.sliceKey, hj.1]

/-- The positions that `vzacc` clears: the slice of a core (R21). -/
def sliceClears (tile col : Nat) : List (Nat × El) :=
  (List.range 256).map fun i => (accKey tile (8 * col + i / 32) (i % 32), (0, false))

theorem sliceClears_nodup (tile col : Nat) : ((sliceClears tile col).map Prod.fst).Nodup := by
  rw [sliceClears, List.map_map]
  refine List.nodup_range.map fun i j hij => ?_
  have hij : accKey tile (8 * col + i / 32) (i % 32) = accKey tile (8 * col + j / 32) (j % 32) := hij
  rw [accKey_eq_add, accKey_eq_add] at hij
  omega

theorem mem_sliceClears {tile col : Nat} {p : Nat × El} :
    p ∈ sliceClears tile col ↔ ∃ i, i < 256 ∧ p = (accKey tile (8 * col) 0 + i, (0, false)) := by
  simp only [sliceClears, List.mem_map, List.mem_range, accKey_eq_add, eq_comm]

theorem sliceClears_find (tile col k : Nat) : ((sliceClears tile col).find? (·.1 == k)).map (fun p => BitVec.ofNat 32 p.2.1) =
    if accKey tile (8 * col) 0 ≤ k ∧ k < accKey tile (8 * col) 0 + 256 then some 0 else none := by
  cases hf : (sliceClears tile col).find? (·.1 == k) with
  | none =>
    refine (if_neg fun ⟨hlo, hhi⟩ => ?_).symm
    refine List.find?_eq_none.mp hf _ (mem_sliceClears.mpr ⟨k - accKey tile (8 * col) 0, by omega, rfl⟩) (beq_iff_eq.mpr ?_)
    show accKey tile (8 * col) 0 + (k - accKey tile (8 * col) 0) = k
    omega
  | some p =>
    obtain ⟨i, hi, rfl⟩ := mem_sliceClears.mp (List.mem_of_find?_eq_some hf)
    have hk := List.find?_some hf
    rw [beq_iff_eq] at hk
    exact (if_pos (by omega)).symm

section
variable {s : State} {c r n : Nat} {h : Hart} {l : List (Nat × El)} {val : Nat → Option (BitVec 32)}

/-- Accumulator elements of one row written, and what that leaves. -/
theorem State.acc_written (hl : (l.map Prod.fst).Nodup)
    (hval : ∀ k, (l.find? (·.1 == k)).map (fun p => BitVec.ofNat 32 p.2.1) = val k) :
    let t := (s.setRow c r ((s.row c r).setAcc l)).retired h n
    t.cpu = h.advance n ∧ t.mem = s.mem ∧ (∀ k, tabGet 0 (t.row c r).acc k = (val k).getD (tabGet 0 (s.row c r).acc k))
      ∧ ∀ c' r', rowKey c' r' ≠ rowKey c r → t.row c' r' = s.row c' r' := by
  refine ⟨rfl, rfl, fun k => ?_, fun c' r' hne => (State.row_setRow ..).trans (if_neg hne)⟩
  rw [← hval k, ← Row.tabGet_setAcc l hl]
  exact congrArg (fun w : Row => tabGet 0 w.acc k) ((State.row_setRow ..).trans (if_pos rfl))

end

/-- Settles O40: each of the three by its body where the row's queue is empty, and by the wait of the interlock where it is not. -/
theorem accumulatorInstructions : Obligations.AccumulatorInstructions := by
  unfold Obligations.AccumulatorInstructions
  intro s o h v row imm key wrote hr hdk hw hl hm
  refine ⟨fun hq => ⟨fun hp hg hkm => ?read, fun hg => ?write, ?clear⟩, fun hq i hi => ?waits⟩
  case read =>
    exact ⟨_, exec_vracc hr hdk hw hl hm hq hp hg hkm, placed_setElems (vpoison_of_ready hr) _ List.nodup_range _⟩
  case write => exact ⟨_, exec_vwacc hr hdk hw hl hm hq hg, State.acc_written (h.sliceWrites_nodup o) (h.sliceWrites_find o)⟩
  case clear =>
    exact ⟨_, exec_vzacc hr hdk hw hl hm hq, State.acc_written (sliceClears_nodup o.vd.toNat h.col) (sliceClears_find o.vd.toNat h.col)⟩
  case waits =>
    rcases hi with ⟨rfl, hg⟩ | ⟨rfl, hg⟩ | rfl
    · exact instr_vector_wait rfl ((runM_accExec hr hw hl hm hdk (by simpa [hdk] using hg)).trans (if_neg hq))
    · exact instr_vector_wait rfl ((runM_accExec hr hw hl hm hdk hg).trans (if_neg hq))
    · exact instr_vector_wait rfl ((runM_accExec hr hw hl hm hdk rfl).trans (if_neg hq))

end Sys2Proof.Machine
end

section
namespace Sys2Proof.Machine

/-! Two clauses on the deadline queue unit that fail: what abandonment leaves of a PARTIAL command whose record is owed, and what the
deferral of one job leaves of the prefetched tasks of another (R64, R75, R393). -/

/-- A RUNNING job of count 1, of class 0, whose RCB lies in no region. -/
def runningJob : Job := { jobOf 0 0x4000000000 [] with state := stRunning, count := 1 }

/-- A PARTIAL command of job 0 whose PARTIAL record waits for its fault records (R393). -/
def owingCommand : Cmd :=
  ⟨0, 0, 0, 0, 0, 0, .m, some 0, none, 0, 0, 0, 0, 0, .partly, 0, 0, 0, [], [], false, false, false, [], false, true, false⟩

/-- The module at reset, but that the DQU holds job 0 and its PARTIAL command is posted. -/
def owingState : State :=
  { State.reset with dqu := { Dqu.reset with jobs := [(0, some runningJob)] }, cmds := [owingCommand] }

/-- Abandonment publishes the command, which then owes no record. -/
theorem owingState_abandon_cmds : (owingState.abandon 0 0 0 false).cmds = [owingCommand.abandon] := by decide

theorem owingState_inFamily : owingState.inFamily 0 0 := ⟨0, Nat.zero_le _, rfl⟩

/-- A prefetched task of a job, of a kind (0 VC, 1 ROW), in the slots of these cores. -/
def slottedTask (id job : Nat) (kind : BitVec 2) (slots : List Nat) : QTask := ⟨id, job, 0, ⟨0, 0, kind, false⟩, 0, 0, slots⟩

/-- The module at reset, but that the DQU holds jobs 0 and 1. Row 0 of CL0 is reserved for the ROW task of job 0; its cores have also the
ROW task of job 1 in their slots, and core 0 has the VC task of job 1. -/
def reservedState : State :=
  { State.reset with dqu := { Dqu.reset with
      jobs := [(0, some runningJob), (1, some runningJob)]
      queue := [slottedTask 0 0 1 [0, 1, 2, 3], slottedTask 1 1 1 [0, 1, 2, 3], slottedTask 2 1 0 [0]]
      reserved := [(0, some 0)] } }

/-- Deferring job 0 recalls its ROW task; the row is then reserved for that of job 1, and the VC task of job 1 is recalled too. -/
theorem reservedState_deferJob_queue : (reservedState.deferJob 0).dqu.queue =
    [slottedTask 0 0 1 [], slottedTask 1 1 1 [0, 1, 2, 3], slottedTask 2 1 0 []] := by decide

theorem reservedState_not_inFamily : ¬reservedState.inFamily 0 1 := by
  rintro ⟨n, -, hb⟩
  cases n with
  | zero => exact absurd (show 1 = 0 from hb) (by decide)
  | succ n =>
    obtain ⟨j, q, hj, hq, -⟩ := hb
    obtain rfl : runningJob = j := Option.some.inj hj
    exact nomatch hq

/-- Refutes O10: the deferral of a job recalls a VC task of another, once the row of the job's own ROW task is reserved for the next. -/
theorem not_continuationAndDeferral : ¬Obligations.ContinuationAndDeferral := by
  unfold Obligations.ContinuationAndDeferral
  rintro ⟨-, -, h⟩
  obtain ⟨-, -, -, hq, -⟩ := h reservedState 0 (by decide) (by decide)
  have hm := (hq (slottedTask 2 1 0 [0]) (by decide)).1 reservedState_not_inFamily
  rw [reservedState_deferJob_queue] at hm
  exact absurd hm (by decide)

/-- Refutes O11: the PARTIAL command of an abandoned job is published and owes its record no longer, where the statement keeps what it
owes. -/
theorem not_taskEndsAndAbandonment : ¬Obligations.TaskEndsAndAbandonment := by
  unfold Obligations.TaskEndsAndAbandonment
  rintro ⟨-, -, h⟩
  have hp : ∀ d j p, owingState.job? d = some j → j.parent = some p → p < d := by
    intro d j p hj hp
    obtain ⟨-, rfl⟩ : 0 = d ∧ runningJob = j := by
      unfold State.job? owingState tabGet at hj
      split at hj
      · exact ⟨‹_›, Option.some.inj hj⟩
      · exact nomatch hj
    exact nomatch hp
  obtain ⟨-, -, -, -, -, hc⟩ := h owingState 0 0 0 false (by decide) (by decide) hp
  obtain ⟨m, hm, -, hmine, -⟩ := hc 0 owingCommand rfl
  have he : m = { owingCommand with state := .finished, status := 2, misses := [] } :=
    hmine ⟨0, rfl, owingState_inFamily, runningJob, rfl, rfl, rfl⟩ rfl
  rw [owingState_abandon_cmds, he] at hm
  exact absurd hm (by decide)

end Sys2Proof.Machine
end

section
namespace Sys2Proof.Machine

/-! Taking an exception outside an opened strip, and the CSRs that a trap's entry leaves (R54, R331, R332). -/

/-- A hart that does not wait in the hinge has no join to withdraw. -/
theorem State.leaveHinge_of_no_wait {s : State} (h : s.cpu.wait = none) : s.leaveHinge = s := by
  unfold State.leaveHinge; rw [h]

/-- A synchronous exception that names no element and rewinds nothing commits the older stores, and its handler is entered at the
instruction (R54). -/
theorem takeTrap_closing {s t : State} {e : Exc} {bits : Nat} (hw : s.cpu.wait = none) (hm : e.mc = none) (hr : e.rewinds = false)
    (he : e.elem = none) (hc : s.commit = (t, none)) :
    s.takeTrap e bits = { t with cpu := t.cpu.enterTrap false e.cause e.tval t.cpu.pc } := by
  simp [State.takeTrap, State.leaveHinge_of_no_wait hw, hm, hr, hc, Vec.noteTrap, he]

section
variable {h : Hart} {i : Bool} {c : Nat} {v e : Word}

/-- The CSRs at the entry of an S-mode handler. -/
theorem enterTrap_csr_s (hd : h.delegates i c = true) : (h.enterTrap i c v e).csr = { h.csr with
    scause := causeWord i c, stval := v, sepc := e
    mstatus := BitVec.ofNat 64 (putBits (putBits (putBits h.csr.mstatus.toNat 5 1 (bitsAt h.csr.mstatus.toNat 1 1)) 1 1 0) 8 1
      (b2n (h.mode == .s))) } := by
  rw [Hart.enterTrap, Hart.eats_csr]
  exact congrArg Hart.csr (if_pos hd)

/-- The CSRs at the entry of an M-mode handler. -/
theorem enterTrap_csr_m (hd : h.delegates i c = false) : (h.enterTrap i c v e).csr = { h.csr with
    mcause := causeWord i c, mtval := v, mepc := e
    mstatus := BitVec.ofNat 64 (putBits (putBits (putBits h.csr.mstatus.toNat 7 1 (bitsAt h.csr.mstatus.toNat 3 1)) 3 1 0) 11 2
      h.mode.num) } := by
  rw [Hart.enterTrap, Hart.eats_csr]
  exact congrArg Hart.csr (if_neg (Bool.eq_false_iff.mp hd))

/-- Each bit of `mstatus` at the entry of an S-mode handler. -/
theorem getLsbD_enterTrap_s (hd : h.delegates i c = true) {b : Nat} (hb : b < 64) :
    (h.enterTrap i c v e).csr.mstatus.getLsbD b = (if b = 1 then false else if b = 5 then h.csr.mstatus.getLsbD 1
      else if b = 8 then decide (h.mode = .s) else h.csr.mstatus.getLsbD b) := by
  have hm : (b2n (h.mode == .s)).testBit 0 = decide (h.mode = .s) := by cases h.mode <;> decide
  rw [enterTrap_csr_s hd, BitVec.getLsbD_ofNat]
  have hone : ∀ k, (k ≤ b ∧ b < k + 1) ↔ b = k := by omega
  simp only [hb, decide_true, Bool.true_and, testBit_putBits, hone, testBit_bitsAt, BitVec.testBit_toNat]
  by_cases h1 : b = 1
  · simp [h1]
  by_cases h5 : b = 5
  · simp [h5]
  by_cases h8 : b = 8
  · simp [h8, hm]
  · simp [h1, h5, h8]

/-- Each bit of `mstatus` at the entry of an M-mode handler. -/
theorem getLsbD_enterTrap_m (hd : h.delegates i c = false) {b : Nat} (hb : b < 64) :
    (h.enterTrap i c v e).csr.mstatus.getLsbD b = (if b = 3 then false else if b = 7 then h.csr.mstatus.getLsbD 3
      else if b = 11 then decide (h.mode ≠ .u) else if b = 12 then decide (h.mode = .m) else h.csr.mstatus.getLsbD b) := by
  have hlow : h.mode.num.testBit 0 = decide (h.mode ≠ .u) := by cases h.mode <;> decide
  have hhigh : h.mode.num.testBit 1 = decide (h.mode = .m) := by cases h.mode <;> decide
  rw [enterTrap_csr_m hd, BitVec.getLsbD_ofNat]
  have hone : ∀ k, (k ≤ b ∧ b < k + 1) ↔ b = k := by omega
  have htwo : (11 ≤ b ∧ b < 11 + 2) ↔ (b = 11 ∨ b = 12) := by omega
  simp only [hb, decide_true, Bool.true_and, testBit_putBits, hone, htwo, testBit_bitsAt, BitVec.testBit_toNat]
  by_cases h3 : b = 3
  · simp [h3]
  by_cases h7 : b = 7
  · simp [h7]
  by_cases h11 : b = 11
  · simp [h11, hlow]
  by_cases h12 : b = 12
  · simp [h12, hhigh]
  · simp [h3, h7, h11, h12]

end

/-- Delegation of an exception (R332). -/
theorem Hart.delegates_exception {h : Hart} {c : Nat} (hc : delegableCause c = true) :
    h.delegates false c = true ↔ h.mode ≠ .m ∧ h.csr.medeleg.getLsbD c = true := by
  simp [Hart.delegates, hc]

/-- What a synchronous exception outside an opened strip leaves, taken to S-mode or to M-mode (R54, R332). -/
theorem enterTrap_exception (h : Hart) (c : Nat) (tv : Word) (hc : delegableCause c = true ∨ h.mode = .m) :
    let g := h.enterTrap false c tv h.pc
    let ms := h.csr.mstatus
    let down := h.mode ≠ .m ∧ h.csr.medeleg.getLsbD c = true
    (down → g.mode = .s ∧ g.pc = h.csr.stvec &&& ~~~(3 : Word) ∧ g.csr.sepc = h.pc
        ∧ g.csr.scause = BitVec.ofNat 64 c ∧ g.csr.stval = tv ∧ g.csr.mepc = h.csr.mepc
        ∧ ∀ b, b < 64 → g.csr.mstatus.getLsbD b = (if b = 1 then false else if b = 5 then ms.getLsbD 1
            else if b = 8 then decide (h.mode = .s) else ms.getLsbD b))
      ∧ (¬down → g.mode = .m ∧ g.pc = h.csr.mtvec &&& ~~~(3 : Word) ∧ g.csr.mepc = h.pc
        ∧ g.csr.mcause = BitVec.ofNat 64 c ∧ g.csr.mtval = tv ∧ g.csr.sepc = h.csr.sepc
        ∧ ∀ b, b < 64 → g.csr.mstatus.getLsbD b = (if b = 3 then false else if b = 7 then ms.getLsbD 3
            else if b = 11 then decide (h.mode ≠ .u) else if b = 12 then decide (h.mode = .m) else ms.getLsbD b)) := by
  have hword : causeWord false c = BitVec.ofNat 64 c := by simp [causeWord, b2n]
  have htv : ∀ t, tvecTarget t false c = t &&& ~~~(3 : Word) := fun t => by simp [tvecTarget]
  have hdown : h.delegates false c = true ↔ h.mode ≠ .m ∧ h.csr.medeleg.getLsbD c = true := by
    rcases hc with hc | hm
    · exact Hart.delegates_exception hc
    · simp [Hart.delegates, hm]
  constructor
  · intro hd
    rw [← hdown] at hd
    obtain ⟨hmode, hepc, hcause, htval, hpc⟩ := enterTrap_s h false c tv h.pc hd
    exact ⟨hmode, hpc.trans (htv _), hepc, hcause.trans hword, htval, by rw [enterTrap_csr_s hd], fun b hb => getLsbD_enterTrap_s hd hb⟩
  · intro hd
    rw [← hdown, Bool.not_eq_true] at hd
    obtain ⟨hmode, hepc, hcause, htval, hpc⟩ := enterTrap_m h false c tv h.pc hd
    exact ⟨hmode, hpc.trans (htv _), hepc, hcause.trans hword, htval, by rw [enterTrap_csr_m hd], fun b hb => getLsbD_enterTrap_m hd hb⟩

/-- An instruction that raises a plain closing exception, on a hart whose commit point completes. -/
theorem instrJump_closing {i : Instr} {m : M Unit} {s t : State} {c : Nat} {tv : Word} (hw : s.cpu.wait = none)
    (hc : s.commit = (t, none)) (hm : runM m s = (.error (.exc (Exc.plain c tv)), s)) (hr : (Exc.plain c tv).rewinds = false) :
    instrJump i m s = .next { t with cpu := t.cpu.enterTrap false c tv t.cpu.pc } := by
  rw [instrJump_exc hm, takeTrap_closing hw rfl hr rfl hc]
  rfl

/-- Settles O25: each of the two raises a plain exception that rewinds nothing. -/
theorem environmentCallsTrap : Obligations.EnvironmentCallsTrap := by
  unfold Obligations.EnvironmentCallsTrap
  intro s t i form cause tv hi hw hc hmode
  have hecall {c : Nat} (h : (match s.cpu.mode with | .u => 8 | .s => 9 | .m => 11) = c) :
      runM (do let h ← cpu; raise (match h.mode with | .u => 8 | .s => 9 | .m => 11) 0 : M Unit) s
        = (.error (.exc (Exc.plain c 0)), s) := by
    rw [runM_bind_ok (runM_cpu s), runM_raise, h]
  have hexec : exec i s = .next { t with cpu := t.cpu.enterTrap false cause tv t.cpu.pc } := by
    rcases hi with ⟨rfl, rfl, ⟨hm, rfl⟩ | ⟨hm, rfl⟩ | ⟨hm, rfl⟩⟩ | ⟨rfl, rfl, rfl⟩
    · exact instrJump_closing (i := .ecall) hw hc (hecall (by rw [hm])) rfl
    · exact instrJump_closing (i := .ecall) hw hc (hecall (by rw [hm])) rfl
    · exact instrJump_closing (i := .ecall) hw hc (hecall (by rw [hm])) rfl
    · exact instrJump_closing (i := .ebreak form) (m := do raise 3 (← cpu).pc) hw hc (runM_bind_ok (runM_cpu s)) rfl
  have hcause : delegableCause cause = true ∨ t.cpu.mode = .m := by
    rcases hi with ⟨-, -, ⟨-, rfl⟩ | ⟨-, rfl⟩ | ⟨hm, rfl⟩⟩ | ⟨-, rfl, -⟩
    · exact .inl rfl
    · exact .inl rfl
    · exact .inr (hmode.trans hm)
    · exact .inl rfl
  obtain ⟨hx, hf, hvec, -, -⟩ := enterTrap_frame t.cpu false cause tv t.cpu.pc
  exact ⟨_, hexec, rfl, hx, hf, hvec, enterTrap_exception t.cpu cause tv hcause⟩

end Sys2Proof.Machine
end

section
namespace Sys2Proof.Machine

/-! Waiting for a message, the activation that one starts, and the return from it (R56, R57, R138). -/

theorem State.eats_eq (s : State) (p : Bool) : s.eats p = { s with cpu := s.cpu.eats p } := by cases p <;> rfl

@[simp] theorem Hart.eats_task (h : Hart) (p : Bool) : (h.eats p).task = h.task := by simp [Hart.task]

@[simp] theorem Hart.eats_wakes (h : Hart) (p : Bool) : (h.eats p).wakes = h.wakes := by simp [Hart.wakes]

/-- The queue that a core would serve: the lowest-numbered one that is enabled and holds a message (R56). -/
theorem State.readyQueue_eq_some {s : State} {n q : Nat} :
    s.readyQueue n = some q ↔ q < 16 ∧ ((s.getHart n).queueOf q ≠ [] ∧ s.handler (clusterOf n) (n % 208 - 16) q 0 ≠ 0)
      ∧ ∀ p, p < q → ¬((s.getHart n).queueOf p ≠ [] ∧ s.handler (clusterOf n) (n % 208 - 16) p 0 ≠ 0) := by
  simp only [State.readyQueue, List.find?_range_eq_some, List.mem_range, Bool.and_eq_true, Bool.not_eq_true', List.isEmpty_eq_false_iff, bne_iff_ne]
  grind

theorem State.readyQueue_eq_none {s : State} {n : Nat} :
    s.readyQueue n = none ↔ ∀ q, q < 16 → ¬((s.getHart n).queueOf q ≠ [] ∧ s.handler (clusterOf n) (n % 208 - 16) q 0 ≠ 0) := by
  simp [State.readyQueue, List.find?_eq_none]

/-- Eating poison neither enables a queue nor empties one. -/
@[simp] theorem State.eats_readyQueue (s : State) (p : Bool) : (s.eats p).readyQueue s.cpu.num = s.readyQueue s.cpu.num := by
  have h : (s.eats p).getHart s.cpu.num = s.cpu.eats p := by
    have := getHart_self (s.eats p)
    simpa using this
  have hh : (s.eats p).handler = s.handler := by cases p <;> rfl
  simp [State.readyQueue, h, hh, Hart.queueOf]

/-- `hwait` looks at the interrupts outside an activation, which consumes the poison of `mip` and `mie` (R57, R362). -/
theorem runM_hwait_looks {s : State} (hv : s.cpu.isVc = false) (ha : s.cpu.act = none) (k : State → M Unit) :
    runM (do
      onSc
      let h ← cpu
      need h.act.isNone
      consume (h.csrBad 0x344 || h.csrBad 0x304)
      let s ← get
      k s) s = runM (k (s.eats (s.cpu.csrBad 0x344 || s.cpu.csrBad 0x304))) (s.eats (s.cpu.csrBad 0x344 || s.cpu.csrBad 0x304)) := by
  have hon : runM onSc s = (.ok (), s) := by simp [runM_onSc, hv]
  rw [runM_bind_ok hon, runM_bind_ok (runM_cpu s), ha, Option.isNone_none, runM_bind_ok (runM_need_true s),
    runM_bind_ok (runM_consume _ s), ← State.eats_eq, runM_bind_ok (runM_get _)]

/-- Whether an enabled interrupt is pending. -/
theorem Hart.wakes_iff {h : Hart} : h.wakes = true ↔ h.csr.mip &&& h.csr.mie ≠ 0 := by simp [Hart.wakes]

section
variable {s : State} (hv : s.cpu.isVc = false) (ha : s.cpu.act = none)
include hv ha

theorem exec_hwait_interrupted (hw : s.cpu.wakes = true) :
    exec .hwait s = .next ((s.eats (s.cpu.csrBad 0x344 || s.cpu.csrBad 0x304)).retired
      (s.eats (s.cpu.csrBad 0x344 || s.cpu.csrBad 0x304)).cpu 4) := by
  refine instrJump_ok ((runM_hwait_looks hv ha _).trans ?_)
  simp [hw]

theorem exec_hwait_activates {q : Nat} (hw : s.cpu.wakes = false) (ht : s.cpu.task = none)
    (hq : s.readyQueue s.cpu.num = some q) :
    exec .hwait s = .next ((s.eats (s.cpu.csrBad 0x344 || s.cpu.csrBad 0x304)).activate q) := by
  refine instrJump_ok ((runM_hwait_looks hv ha _).trans ?_)
  simp [hw, ht, hq]

theorem exec_hwait_waits (hw : s.cpu.wakes = false) (hq : s.cpu.task ≠ none ∨ s.readyQueue s.cpu.num = none) :
    exec .hwait s = .next ((s.eats (s.cpu.csrBad 0x344 || s.cpu.csrBad 0x304)).waiting
      (s.eats (s.cpu.csrBad 0x344 || s.cpu.csrBad 0x304)).cpu ⟨.hwait, 0, 0, false⟩) := by
  have hnone : (if s.cpu.task.isSome then none else s.readyQueue s.cpu.num) = none := by
    rcases hq with ht | hq
    · simp [Option.isSome_iff_ne_none.mpr ht]
    · simp [hq]
  refine run_wait (w := ⟨.hwait, 0, 0, false⟩) ((runM_hwait_looks hv ha _).trans ?_)
  simp [hw, hnone]

end

/-- What an activation leaves in the hart: the handler bank and the message of its queue (R57, R138). -/
theorem State.activate_cons {s : State} {q : Nat} {e : QEntry} {rest : List QEntry} (he : s.cpu.queueOf q = e :: rest) :
    let f := fun i => s.handler s.cpu.cluster s.cpu.scIdx q i
    let t := s.activate q
    t.cpu.pc = f 0 ∧ t.cpu.mode = (if (f 3).getLsbD 32 then .s else .u)
      ∧ (∀ r : Reg, t.cpu.xr r = (if r = 10 then e.addr else if r = 11 then BitVec.ofNat 64 e.len
          else if r = 12 then BitVec.ofNat 64 q else if r = 13 then f 1 else if r = 14 then f 2 else 0))
      ∧ t.cpu.act = some ⟨q, e.entry, s.cpu.mode, s.cpu.pc, s.cpu.xpoison⟩
      ∧ t.cpu.rngkey = f 0 ^^^ BitVec.ofNat 64 (q * 2 ^ 48) ∧ t.cpu.rngctr = 0
      ∧ t.cpu.xAlt = s.cpu.x ∧ t.cpu.queueOf q = rest ∧ t.cpu.csr.satp = s.cpu.csr.satp ∧ t.mem = s.mem := by
  intro f t
  simp only [t, f, State.activate, he]
  refine ⟨trivial, trivial, fun r => ?_, trivial, rfl, trivial, trivial, ?_, trivial, trivial⟩
  · have hreg : ∀ k : Nat, k < 32 → (k = r.toNat ↔ r = BitVec.ofNat 5 k) := fun k hk => by bv_omega
    simp only [Hart.xr, Vector.getElem_set, Vector.getElem_replicate, hreg 10 (by omega), hreg 11 (by omega), hreg 12 (by omega),
      hreg 13 (by omega), hreg 14 (by omega)]
    by_cases h0 : r = 0
    · simp [h0]
    · simp only [h0, if_false]
      split_ifs <;> simp_all
  · simp [Hart.queueOf, tabGet_set]

theorem exec_handlerActivation {s : State} {q : Nat} {w : Wait} (hv : s.cpu.isVc = false) (ha : s.cpu.act = none)
    (hr : s.cpu.run = .program) (hw : s.cpu.wait = some w) (ho : w.on = .hwait) (hq : s.readyQueue s.cpu.num = some q) :
    exec .handlerActivation s = .next (s.activate q) := by
  show execHandlerActivation s = _
  unfold execHandlerActivation happens
  simp [hv, ha, hr, hw, ho, hq]

theorem State.startNext_of_no_prefetch {s : State} {n : Nat} (h : (s.getHart n).prefetch = []) : s.startNext n = s := by
  simp [State.startNext, h]

theorem exec_hret {s : State} {a : Activation} (hv : s.cpu.isVc = false) (ha : s.cpu.act = some a) (hp : s.cpu.prefetch = []) :
    exec .hret s = .next { s with cpu := { s.cpu.advance 0 with
      act := none, x := s.cpu.xAlt, xpoison := a.xpoison, pc := a.pc, mode := a.mode, resv := none } } := by
  have hon : runM onSc s = (.ok (), s) := by simp [runM_onSc, hv]
  refine instrJump_ok ?_
  rw [runM_bind_ok hon, runM_bind_ok (runM_cpu s), ha]
  show runM (modCpu _ >>= _) s = _
  rw [runM_bind_ok (runM_modCpu _ s), runM_modify, State.startNext_of_no_prefetch (by rw [getHart_self]; exact hp)]

theorem exec_hret_illegal {s : State} (h : s.cpu.isVc = true ∨ s.cpu.act = none) : exec .hret s = .next (s.illegalAt .hret) := by
  refine run_illegal (c := 2) ?_
  cases hv : s.cpu.isVc
  · have ha : s.cpu.act = none := h.resolve_left (by simp [hv])
    have hon : runM onSc s = (.ok (), s) := by simp [runM_onSc, hv]
    rw [runM_bind_ok hon, runM_bind_ok (runM_cpu s), ha]
    rfl
  · exact runM_bind_error (by simp [runM_onSc, hv])

/-- Settles O20: `hwait` completes, activates or waits, and an activation begins and returns as R57 says. -/
theorem handlerWaitStartAndReturn : Obligations.HandlerWaitStartAndReturn := by
  unfold Obligations.HandlerWaitStartAndReturn
  refine ⟨fun s hv ha => ?_, fun s n => ⟨fun q => State.readyQueue_eq_some, State.readyQueue_eq_none⟩, ?_,
    fun s => ⟨fun a hv ha hp => exec_hret hv ha hp, exec_hret_illegal⟩⟩
  · simp only [← Hart.wakes_iff, Bool.not_eq_true]
    exact ⟨exec_hwait_interrupted hv ha, fun q hw ht hq => exec_hwait_activates hv ha hw ht hq, exec_hwait_waits hv ha⟩
  · intro s q e rest w hv ha hr hw ho hq _ he
    exact ⟨_, exec_handlerActivation hv ha hr hw ho hq, rfl, State.activate_cons he⟩

end Sys2Proof.Machine
end

section
namespace Sys2Proof.Machine

/-! Atomic memory operations (R51, R80, R81, R152). -/

/-- The value of n bytes taken as a signed number. -/
theorem signedOf_bytes {n k : Nat} (hn : 0 < n) (hk : k < 256 ^ n) :
    signedOf (8 * n) k = if k < 256 ^ n / 2 then (k : Int) else (k : Int) - 256 ^ n := by
  have hhalf : 2 ^ (8 * n - 1) = 256 ^ n / 2 := by
    rw [← pow_bytes, show 8 * n = (8 * n - 1) + 1 by omega, pow_succ]
    simp
  unfold signedOf
  rw [hhalf, pow_bytes, Nat.mod_eq_of_lt hk]
  push_cast
  rfl

/-- Of two operands of n bytes an AMO makes n bytes. -/
theorem amoResult_lt (op : AmoOp) {n old v : Nat} (ho : old < 256 ^ n) (hv : v < 256 ^ n) : amoResult op (8 * n) old v < 256 ^ n := by
  rw [← pow_bytes] at *
  cases op with
  | swap => exact hv
  | add => exact Nat.mod_lt _ (by positivity)
  | xor => exact Nat.xor_lt_two_pow ho hv
  | and => exact Nat.and_lt_two_pow _ hv
  | or => exact Nat.or_lt_two_pow ho hv
  | min => dsimp only [amoResult]; split <;> assumption
  | max => dsimp only [amoResult]; split <;> assumption
  | minu => exact lt_of_le_of_lt (Nat.min_le_left _ _) ho
  | maxu => exact max_lt ho hv

/-- The region of an atomic access to memory proper: LPDDR6, or a SCRATCH bank outside a mode change (R80). -/
def State.atomicMemory (u : State) (pa : Nat) : Prop :=
  regionOf pa = .lpddr ∨ ∃ c b off, regionOf pa = .csram c b off ∧ (u.bank c b).busy = none ∧ (u.bank c b).mode = 1

theorem runM_amoPlace_memory {u : State} {pa cause : Nat} {mapped : Bool} {va : Word} {e : Option Nat} (h : u.atomicMemory pa) :
    runM (amoPlace pa cause mapped va e) u = (.ok .memory, u) := by
  unfold amoPlace
  rw [runM_bind_ok (runM_get u)]
  rcases h with h | ⟨c, b, off, h, hb, hm⟩
  · simp [h]
  · simp [h, hb, hm, modeScratch]

@[simp] theorem runM_asks (x : Xlat) (n : Nat) (s : State) : runM (asks x n) s = (.ok (), s.l2Ask x.pa n x.dom) := rfl

theorem length_memBytes (m : Memory) (a n : Nat) : (memBytes m a n).length = n := by
  induction n generalizing a with
  | zero => rfl
  | succ n ih => simp [memBytes, ih]

theorem memRead_lt (m : Memory) (a n : Nat) : memRead m a n < 256 ^ n := by
  have := ofBytes_lt (memBytes m a n)
  rwa [length_memBytes] at this

section
variable {s : State} {op : AmoOp} {dbl aq rl : Bool} {rd rs1 rs2 : Reg} (hp : s.cpu.xPoisoned rs1 = false)
include hp

/-- A misaligned AMO traps before its commit point. -/
theorem exec_amo_misaligned (ha : (s.cpu.xr rs1).toNat % amoBytes dbl ≠ 0) :
    exec (.amo op dbl aq rl rd rs1 rs2) s
      = .next (s.takeTrap (.plain 6 (s.cpu.xr rs1)) (instrBits (.amo op dbl aq rl rd rs1 rs2)).toNat) := by
  refine instr_exc ?_
  rw [runM_bind_ok (runM_useX rs1 s hp)]
  dsimp only
  rw [if_pos ha]
  exact runM_bind_error (runM_raise 6 _ s)

/-- An aligned AMO on memory: the machine it leaves (R80). -/
theorem exec_amo_memory {t u : State} {x : Xlat} (ha : (s.cpu.xr rs1).toNat % amoBytes dbl = 0) (hc : commitsTo s t)
    (hx : xlat t .store (s.cpu.xr rs1) = .ok (x, u)) (hm : u.atomicMemory x.pa) :
    let n := amoBytes dbl
    let old := memRead u.mem x.pa n
    let v := (u.cpu.xr rs2).toNat % 256 ^ n
    ∃ (w : State) (b : Bool), exec (.amo op dbl aq rl rd rs1 rs2) s = .next (w.retired (w.cpu.setXp rd (sextWord (8 * n) old) b) 4)
      ∧ w.mem = memWrite u.mem x.pa n (amoResult op (8 * n) old v) ∧ w.cpu.x = u.cpu.x ∧ w.cpu.pc = u.cpu.pc := by
  intro n old v
  let asked := u.l2Ask x.pa n x.dom
  let bad := asked.poisonedAt x.pa n
  let eaten : State := { asked with cpu := asked.cpu.eats (bad || asked.cpu.xPoisoned rs2) }
  refine ⟨eaten.visWrite (some u.cpu.num) x.pa (bytesOf n (amoResult op (8 * n) old v)) ((bad && op != .swap) || asked.cpu.xPoisoned rs2),
    bad, ?_, ?_, ?_, ?_⟩
  · refine instr_retired ?_
    rw [runM_bind_ok (runM_useX rs1 s hp)]
    dsimp only
    rw [if_neg (by simpa using ha), runM_bind_ok (runM_commitPoint_ok hc), runM_bind_ok (runM_translate_ok hx),
      runM_bind_ok (runM_amoPlace_memory hm), runM_bind_ok (runM_asks x _ u), runM_bind_ok (runM_cpu _)]
    show runM (get >>= _) asked = _
    rw [runM_bind_ok (runM_get asked), runM_bind_ok (runM_consume _ asked), runM_bind_ok (runM_modify _ _), runM_putXp]
    simp only [n, old, v, eaten, bad, asked, State.l2Ask_mem, State.l2Ask_cpu, pow_bytes]
  · rw [State.visWrite_core_mem]
    simp [eaten, asked, memWrite]
  · rw [(State.visWrite_core_regs ..).1]
    simp [eaten, asked]
  · rw [(State.visWrite_core_regs ..).2]
    simp [eaten, asked]

end

/-- Settles O23: the bytes written are the operation's result on the bytes read. -/
theorem amoReadsModifiesWrites : Obligations.AmoReadsModifiesWrites := by
  unfold Obligations.AmoReadsModifiesWrites
  intro s t u op dbl aq rl rd rs1 rs2 x a n i old v so new hp
  refine ⟨exec_amo_misaligned hp, fun ha hc hx hm => ?_⟩
  obtain ⟨w, b, hexec, hmem, hregs, hpc⟩ := exec_amo_memory (op := op) (aq := aq) (rl := rl) (rd := rd) (rs2 := rs2) hp ha hc hx hm
  have hn : 0 < n := by unfold n; split <;> omega
  have hold : old < 256 ^ n := memRead_lt _ _ _
  have hv : v < 256 ^ n := Nat.mod_lt _ (by positivity)
  have hnew : amoResult op (8 * n) old v = new := by
    have hso : signedOf (8 * n) old = so old := signedOf_bytes hn hold
    have hsv : signedOf (8 * n) v = so v := signedOf_bytes hn hv
    cases op <;> simp only [amoResult, new, pow_bytes, hso, hsv]
  have hmem' : w.mem = memWrite u.mem x.pa n new := hnew ▸ hmem
  have hlt : new < 256 ^ n := hnew ▸ amoResult_lt op hold hv
  refine ⟨_, hexec, ?_, ?_, ?_, fun c hc => ?_⟩
  · simp only [Hart.advance_x, Hart.setXp_x]
    unfold Hart.setX
    split
    · exact hregs
    · exact congrArg (fun y : Vector Word 32 => y.set rd.toNat _) hregs
  · simp [hpc]
  · exact (congrArg (memRead · x.pa n) hmem').trans ((memRead_write _ _ _ _).trans (Nat.mod_eq_of_lt hlt))
  · exact (congrArg (memByte · c) hmem').trans (memByte_write_outside _ _ _ _ _ hc)

end Sys2Proof.Machine
end

section
namespace Sys2Proof.Machine

/-! Opening a strip: the hart that its commit point leaves, the grant, and the journal (R52, R174, R334, R335). -/

/-- Whether a `vstrip` at the pc is the replay of the strip that was rewound (R334). -/
def Hart.replaysStrip (h : Hart) : Bool := h.vec.replayPc == some h.pc

/-- Whether the grant is computed from a poisoned value (R361). -/
def Hart.grantBad (h : Hart) : Bool := h.csrBad 0x800 || h.csrBad 0x7C0 || (h.replaysStrip && h.csrBad 0x5C0)

/-- A `vstrip` that is no replay clears the lineage, and with it its poison. -/
def Hart.lineageReady (h : Hart) : Hart := if h.replaysStrip then h else { h.csrClean 0x5C0 with vec := h.vec.clearLineage }

/-- A mask of more than eight vector registers sets VBAD. -/
def Vec.maskChecked (v : Vec) : Vec := if 8 < popWord v.vckmask then { v with vcfg := v.vcfg ||| 0x8000000000000000 } else v

/-- The hart before its journal is written. -/
def Hart.stripReady (h : Hart) : Hart := { h.lineageReady with vec := h.lineageReady.vec.maskChecked }

/-- The length of the strip that a hart opens. -/
def State.stripLength (s : State) (req : Nat) (replay : Bool) : Nat := if s.cpu.vec.vbad then 0 else s.grantVl req replay

/-- The hart once the journal of a strip of length vl is written. -/
def Hart.openStrip (h : Hart) (vl : Nat) (psn replay : Bool) : Hart :=
  { h.csrMark 0x801 psn with vec := { h.vec with
      strip := some (h.journal vl), vl := vl, attempt := if replay && h.vec.resReplay then h.vec.attempt else 1 } }

/-- What the body of `vstrip` and `vstripi` leaves once its commit point completes. -/
theorem runM_stripBody_ok {s t : State} {rd : Reg} {req : Nat} (hx : s.cpu.csrBad 0x802 = false) (hv : s.cpu.csrBad 0x803 = false)
    (hc : commitsTo s t) :
    let r : State := { t with cpu := t.cpu.stripReady }
    let vl := r.stripLength req t.cpu.replaysStrip
    runM (stripBody rd req) s = (.ok (), { t with cpu :=
      ((r.cpu.eats t.cpu.grantBad).openStrip vl t.cpu.grantBad t.cpu.replaysStrip).setXp rd (BitVec.ofNat 64 vl) t.cpu.grantBad }) := by
  intro r vl
  unfold stripBody
  rw [runM_bind_ok (runM_cpu s)]
  dsimp only
  rw [hx, hv, Bool.or_false, if_neg (by simp), runM_bind_ok (runM_commitPoint_ok hc), runM_bind_ok (runM_cpu t), runM_bind_ok (runM_modCpu _ t),
    runM_bind_ok (runM_modVec _ _), runM_bind_ok (runM_get _), runM_bind_ok (runM_consume _ _), runM_bind_ok (runM_modCpu _ _), runM_putXp]
  rfl

/-- What the journal takes from the hart stands as it did. -/
theorem Hart.stripReady_keeps (h : Hart) :
    h.stripReady.pc = h.pc ∧ h.stripReady.x = h.x ∧ h.stripReady.f = h.f ∧ h.stripReady.frm = h.frm ∧ h.stripReady.fflags = h.fflags
      ∧ h.stripReady.rngctr = h.rngctr ∧ h.stripReady.task = h.task := by
  unfold Hart.stripReady Hart.lineageReady
  split <;> exact ⟨rfl, rfl, rfl, rfl, rfl, rfl, rfl⟩

/-- The lineage holds neither registers nor masks nor the configuration. -/
theorem Hart.lineageReady_vec (h : Hart) :
    let v := h.lineageReady.vec
    v.keys = h.vec.keys ∧ v.slots = h.vec.slots ∧ v.xckmask = h.vec.xckmask ∧ v.vckmask = h.vec.vckmask ∧ v.vcfg = h.vec.vcfg
      ∧ v.bytes = h.vec.bytes := by
  unfold Hart.lineageReady
  split <;> exact ⟨rfl, rfl, rfl, rfl, rfl, rfl⟩

theorem Hart.lineageReady_sizes (h : Hart) :
    let v := h.lineageReady.vec
    v.mvl = h.vec.mvl ∧ v.imageB = h.vec.imageB ∧ v.nreg = h.vec.nreg := by
  unfold Hart.lineageReady
  split <;> exact ⟨rfl, rfl, rfl⟩

theorem Vec.maskChecked_keeps (v : Vec) :
    v.maskChecked.keys = v.keys ∧ v.maskChecked.slots = v.slots ∧ v.maskChecked.xckmask = v.xckmask ∧ v.maskChecked.vckmask = v.vckmask := by
  unfold Vec.maskChecked
  split <;> exact ⟨rfl, rfl, rfl, rfl⟩

theorem Vec.maskChecked_vcfg (v : Vec) :
    v.maskChecked.vcfg = if 8 < popWord v.vckmask then v.vcfg ||| 0x8000000000000000 else v.vcfg := by
  unfold Vec.maskChecked
  split <;> rfl

theorem Vec.maskChecked_of_few {v : Vec} (h : ¬8 < popWord v.vckmask) : v.maskChecked = v := if_neg h

/-- VBAD before the journal is written: it was set, or the mask has more than eight registers (R174). -/
theorem Vec.maskChecked_vbad (v : Vec) : v.maskChecked.vbad = true ↔ v.vbad = true ∨ 8 < popWord v.vckmask := by
  unfold Vec.vbad
  rw [Vec.maskChecked_vcfg, bitAt_eq_testBit, bitAt_eq_testBit, BitVec.testBit_toNat, BitVec.testBit_toNat]
  split <;> simp_all

/-- The length of the strip that opens (R174, R335). -/
theorem State.stripLength_stripReady (t : State) (req : Nat) :
    let v := t.cpu.vec
    let many := 8 < popWord v.vckmask
    let free := min req (t.vlgrant t.cpu * v.grp)
    ({ t with cpu := t.cpu.stripReady } : State).stripLength req t.cpu.replaysStrip
      = if v.vbad ∨ many then 0 else if v.replayPc = some t.cpu.pc ∧ v.vlimit ≠ 0 then min free v.vlimit else free := by
  intro v many free
  obtain ⟨-, -, -, hmask, hcfg, -⟩ := t.cpu.lineageReady_vec
  have hvbad : t.cpu.stripReady.vec.vbad = true ↔ v.vbad = true ∨ many := by
    have h := t.cpu.lineageReady.vec.maskChecked_vbad
    rwa [hmask, show t.cpu.lineageReady.vec.vbad = v.vbad from congrArg (fun c : Word => bitAt c.toNat 63) hcfg] at h
  unfold State.stripLength
  by_cases hb : v.vbad ∨ many
  · rw [if_pos (hvbad.mpr hb), if_pos hb]
  rw [if_neg (fun h => hb (hvbad.mp h)), if_neg hb]
  have hvec : t.cpu.stripReady.vec = t.cpu.lineageReady.vec :=
    Vec.maskChecked_of_few (by rw [hmask]; exact fun h => hb (.inr h))
  have hready : ({ t with cpu := t.cpu.stripReady } : State).vlgrant t.cpu.stripReady = t.vlgrant t.cpu := by
    obtain ⟨-, -, -, -, -, -, htask⟩ := t.cpu.stripReady_keeps
    obtain ⟨hmvl, -, -⟩ := t.cpu.lineageReady_sizes
    unfold State.vlgrant State.grantLevel
    rw [htask, hvec, hmvl]
    rfl
  simp only [State.grantVl, hready, hvec]
  by_cases hr : t.cpu.replaysStrip = true
  · have : v.replayPc = some t.cpu.pc := by simpa [Hart.replaysStrip] using hr
    simp [Hart.lineageReady, hr, this, v, free]
  · have : v.replayPc ≠ some t.cpu.pc := by simpa [Hart.replaysStrip] using hr
    simp [Hart.lineageReady, hr, this, v, free, Vec.clearLineage, Vec.grp]

theorem mem_maskBits {m : Word} {r : Nat} : r ∈ maskBits m ↔ r < 64 ∧ m.getLsbD r = true := by simp [maskBits]

/-- The x registers of a journal (R52). -/
theorem Hart.mem_journal_x {h : Hart} {vl r : Nat} {w : Word} :
    (r, w) ∈ (h.journal vl).x ↔ r ≠ 0 ∧ r < 32 ∧ h.vec.xckmask.getLsbD r = true ∧ w = h.x.getD r 0 := by
  simp only [Hart.journal, List.mem_map, List.mem_filter, mem_maskBits, Prod.mk.injEq, bne_iff_ne, Bool.and_eq_true, decide_eq_true_eq]
  constructor
  · rintro ⟨_, ⟨⟨_, hb⟩, h0, hl⟩, rfl, rfl⟩
    exact ⟨h0, hl, hb, rfl⟩
  · rintro ⟨h0, hl, hb, rfl⟩
    exact ⟨r, ⟨⟨by omega, hb⟩, h0, hl⟩, rfl, rfl⟩

/-- A vector unit has at most 64 registers. -/
theorem Vec.nreg_le (v : Vec) : v.nreg ≤ 64 := by
  have h : bitsAt v.vcfg.toNat 2 2 < 4 := Nat.mod_lt _ (by norm_num)
  calc v.nreg ≤ 8 * 2 ^ 3 := Nat.mul_le_mul_left 8 (Nat.pow_le_pow_right (by norm_num) (by omega))
    _ = 64 := rfl

/-- The vector registers of a journal: none under a mask of more than eight (R52, R174). -/
theorem Hart.mem_journal_vregs {h : Hart} {vl r : Nat} {w : List Byte} :
    (r, w) ∈ (h.journal vl).vregs ↔ ¬8 < popWord h.vec.vckmask ∧ r < h.vec.nreg ∧ h.vec.vckmask.getLsbD r = true
      ∧ w = h.vec.bytes r 0 h.vec.imageB := by
  have hn := h.vec.nreg_le
  simp only [Hart.journal]
  by_cases hm : 8 < popWord h.vec.vckmask
  · simp [hm]
  · simp only [hm, if_false, List.mem_map, List.mem_filter, mem_maskBits, Prod.mk.injEq, decide_eq_true_eq, not_false_eq_true, true_and]
    constructor
    · rintro ⟨_, ⟨⟨_, hb⟩, hl⟩, rfl, rfl⟩
      exact ⟨hl, hb, rfl⟩
    · rintro ⟨hl, hb, rfl⟩
      exact ⟨r, ⟨⟨by omega, hb⟩, hl⟩, rfl, rfl⟩

/-- The masks of the hart before its journal is written are those it had. -/
theorem Hart.stripReady_masks (h : Hart) : h.stripReady.vec.xckmask = h.vec.xckmask ∧ h.stripReady.vec.vckmask = h.vec.vckmask := by
  obtain ⟨-, -, hx, hv, -, -⟩ := h.lineageReady_vec
  obtain ⟨-, -, hx', hv'⟩ := h.lineageReady.vec.maskChecked_keeps
  exact ⟨hx'.trans hx, hv'.trans hv⟩

theorem Hart.mem_stripReady_vregs {h : Hart} {p : Bool} {vl r : Nat} {w : List Byte} :
    (r, w) ∈ ((h.stripReady.eats p).journal vl).vregs ↔ ¬8 < popWord h.vec.vckmask ∧ r < h.vec.nreg
      ∧ h.vec.vckmask.getLsbD r = true ∧ w = h.vec.bytes r 0 h.vec.imageB := by
  obtain ⟨-, hmask⟩ := h.stripReady_masks
  rw [Hart.mem_journal_vregs, Hart.eats_vec, hmask]
  refine and_congr_right fun hm => ?_
  obtain ⟨-, -, -, hlm, -, hbytes⟩ := h.lineageReady_vec
  obtain ⟨-, himage, hnreg⟩ := h.lineageReady_sizes
  have hvec : h.stripReady.vec = h.lineageReady.vec := Vec.maskChecked_of_few (by rwa [hlm])
  rw [hvec, himage, hnreg, hbytes]

theorem Hart.mem_stripReady_x {h : Hart} {p : Bool} {vl r : Nat} {w : Word} :
    (r, w) ∈ ((h.stripReady.eats p).journal vl).x ↔ r ≠ 0 ∧ r < 32 ∧ h.vec.xckmask.getLsbD r = true ∧ w = h.x.getD r 0 := by
  obtain ⟨hmask, -⟩ := h.stripReady_masks
  obtain ⟨-, hx, -⟩ := h.stripReady_keeps
  rw [Hart.mem_journal_x, Hart.eats_vec, Hart.eats_x, hmask, hx]

theorem Hart.grantBad_iff {h : Hart} :
    h.grantBad = true ↔ h.csrBad 0x800 = true ∨ h.csrBad 0x7C0 = true ∨ h.vec.replayPc = some h.pc ∧ h.csrBad 0x5C0 = true := by
  simp [Hart.grantBad, Hart.replaysStrip, or_assoc]

/-- Settles O6. -/
theorem vstripOpensAJournalledStrip : Obligations.VstripOpensAJournalledStrip := by
  unfold Obligations.VstripOpensAJournalledStrip
  intro s t i rd rs1 imm req hi hv hx hk _ hc h v replay many free grant
  let r : State := { t with cpu := h.stripReady }
  let g := r.cpu.eats h.grantBad
  have hvl : r.stripLength req h.replaysStrip = grant := State.stripLength_stripReady t req
  have hbody := runM_stripBody_ok (rd := rd) (req := req) hx hk hc
  dsimp only at hbody
  rw [hvl] at hbody
  have hexec : exec i s = .next (t.retired ((g.openStrip grant h.grantBad h.replaysStrip).setXp rd (BitVec.ofNat 64 grant) h.grantBad) 4) := by
    have hon : runM onVc s = (.ok (), s) := by simp [runM_onVc, hv]
    rcases hi with ⟨rfl, hp, rfl⟩ | ⟨rfl, rfl⟩
    · exact instr_retired ((runM_bind_ok hon).trans ((runM_bind_ok (runM_useX rs1 s hp)).trans hbody))
    · exact instr_retired ((runM_bind_ok hon).trans hbody)
  obtain ⟨hpc, hxs, hf, hfrm, hflags, hctr, -⟩ := h.stripReady_keeps
  obtain ⟨hkeys, hslots, -, hmask, hcfg, -⟩ := h.lineageReady_vec
  obtain ⟨hkeys', hslots', -, -⟩ := h.lineageReady.vec.maskChecked_keeps
  have hvcfg : g.vec.vcfg = if many then v.vcfg ||| 0x8000000000000000 else v.vcfg := by
    unfold g r
    rw [Hart.eats_vec]
    exact (Vec.maskChecked_vcfg _).trans (by rw [hmask, hcfg])
  refine ⟨_, g.journal grant, hexec, by simp [Hart.openStrip], by simp [Hart.openStrip], ?_, ?_, rfl, ?_, ?_, rfl, ?_, ?_, ?_, ?_, ?_, ?_, ?_,
    fun _ _ => Hart.mem_stripReady_x, fun _ _ => Hart.mem_stripReady_vregs, ?_⟩
  · simp only [Hart.advance_x, Hart.setXp_x]
    unfold Hart.setX
    split <;> simp [Hart.openStrip, g, r, hxs]
  · simp [Hart.openStrip, g, r, hpc]
  · simpa [Hart.openStrip] using hvcfg
  · simp [Hart.journal, g, r, hpc]
  · simp [Hart.journal, g, r, hf]
  · simp [Hart.journal, g, r, hfrm]
  · simp [Hart.journal, g, r, hflags]
  · simp [Hart.journal, g, r, Hart.stripReady, hkeys', hkeys, v]
  · simp [Hart.journal, g, r, hctr]
  · simp [Hart.journal, g, r, Hart.stripReady, hslots', hslots, v]
  · simp [Hart.journal, Hart.openStrip]
  · refine ⟨?_, fun hrd => ?_⟩
    · have hbad : (((g.openStrip grant h.grantBad h.replaysStrip).setXp rd (BitVec.ofNat 64 grant) h.grantBad).advance 4).csrBad 0x801
          = (g.csrMark 0x801 h.grantBad).csrBad 0x801 := by
        simp only [Hart.csrBad, Hart.advance_cpoison, Hart.setXp_cpoison, Hart.openStrip]
      rw [hbad, Hart.csrBad_csrMark, Hart.grantBad_iff]
    · have hbad : (((g.openStrip grant h.grantBad h.replaysStrip).setXp rd (BitVec.ofNat 64 grant) h.grantBad).advance 4).xPoisoned rd
          = h.grantBad := Hart.xPoisoned_setXp _ _ _ _ hrd
      rw [hbad, Hart.grantBad_iff]

end Sys2Proof.Machine
end

section
namespace Sys2Proof.Machine

/-! Fences, the invalidation of translations, and what a translation answers (R51, R101 to R106, R114). -/

theorem exec_commits {i : Instr} {s t : State} (h : exec i s = instr i commitPoint s) (hl : instrLen i = 4 := by rfl) (hc : commitsTo s t) :
    exec i s = .next (t.retired t.cpu 4) := by
  rw [h]
  exact instr_retired (runM_commitPoint_ok hc) hl

theorem exec_scfence_vc {s t : State} {scope : BitVec 2} (hv : s.cpu.isVc = true) (hc : commitsTo s t) :
    exec (.scfence scope) s = .next (t.retired t.cpu 4) := by
  refine instr_retired ?_
  rw [runM_bind_ok (runM_cpu s), hv]
  exact runM_commitPoint_ok hc

theorem exec_scfence_sc {s : State} {scope : BitVec 2} (hv : s.cpu.isVc = false) :
    exec (.scfence scope) s = .next (s.retired s.cpu 4) := by
  refine instr_retired ?_
  rw [runM_bind_ok (runM_cpu s), hv]
  rfl

/-- The entries that `sfence.vma` removes (R106). -/
theorem TlbEntry.fenced_iff {e : TlbEntry} {va asid : Word} {rs1 rs2 : Reg} :
    e.fenced (if rs1 = 0 then none else some va) (if rs2 = 0 then none else some asid) = true ↔
      (rs1 = 0 ∨ e.base ≤ va.toNat ∧ va.toNat < e.base + e.size) ∧ (rs2 = 0 ∨ e.glob = false ∧ e.asid = asid.toNat % 65536) := by
  unfold TlbEntry.fenced
  have h1 : rs1 = 0 ∨ rs1 ≠ 0 := em _
  have h2 : rs2 = 0 ∨ rs2 ≠ 0 := em _
  rcases h1 with h1 | h1 <;> rcases h2 with h2 | h2 <;> simp only [if_pos, if_neg, h1, h2, not_false_eq_true] <;> simp

/-- The machine without the translations that `sfence.vma` removes, its own and its cluster's. -/
def State.sfenced (t : State) (a b : Option Word) : State :=
  State.forget { t with
    cpu := { t.cpu with tlb := t.cpu.tlb.filter fun e => !e.fenced a b }
    l2tlb := tabSet [] t.l2tlb t.cpu.cluster ((tabGet [] t.l2tlb t.cpu.cluster).filter fun e => !e.fenced a b) } fun q => q.2.isSome

theorem State.mem_sfenced_tlb {t : State} {a b : Option Word} {e : TlbEntry} :
    e ∈ (t.sfenced a b).cpu.tlb ↔ e ∈ t.cpu.tlb ∧ ¬e.fenced a b = true := by
  simp [State.sfenced, State.forget]

theorem State.mem_sfenced_l2tlb {t : State} {a b : Option Word} {e : TlbEntry} :
    e ∈ tabGet [] (t.sfenced a b).l2tlb t.cpu.cluster ↔ e ∈ tabGet [] t.l2tlb t.cpu.cluster ∧ ¬e.fenced a b = true := by
  simp [State.sfenced, State.forget, tabGet_set]

section
variable {s : State} {rs1 rs2 : Reg} (hb : s.cpu.csrBad 0x300 = false)
include hb

theorem exec_sfenceVma_illegal (hm : ¬(s.cpu.mode = .m ∨ s.cpu.mode = .s ∧ s.cpu.csr.mstatus.getLsbD 20 = false)) :
    exec (.sfenceVma rs1 rs2) s = .next (s.illegalAt (.sfenceVma rs1 rs2)) := by
  refine instr_illegalAt ?_
  rw [runM_bind_ok (runM_cpu s), hb, Bool.and_false, runM_bind_ok (runM_consume false s)]
  refine runM_bind_error ?_
  have : (s.cpu.mode == .m || (s.cpu.mode == .s && !bitAt s.cpu.csr.mstatus.toNat 20)) = false := by
    rw [bitAt_eq_testBit, BitVec.testBit_toNat]
    grind
  rw [this]
  rfl

theorem exec_sfenceVma {t : State} (hm : s.cpu.mode = .m ∨ s.cpu.mode = .s ∧ s.cpu.csr.mstatus.getLsbD 20 = false)
    (h1 : s.cpu.xPoisoned rs1 = false) (h2 : s.cpu.xPoisoned rs2 = false) (hc : commitsTo s t) :
    let u := t.sfenced (if rs1 = 0 then none else some (s.cpu.xr rs1)) (if rs2 = 0 then none else some (s.cpu.xr rs2))
    exec (.sfenceVma rs1 rs2) s = .next (u.retired u.cpu 4) := by
  intro u
  refine instr_retired ?_
  have : (s.cpu.mode == .m || (s.cpu.mode == .s && !bitAt s.cpu.csr.mstatus.toNat 20)) = true := by
    rw [bitAt_eq_testBit, BitVec.testBit_toNat]
    grind
  rw [runM_bind_ok (runM_cpu s), hb, Bool.and_false, runM_bind_ok (runM_consume false s), this, runM_bind_ok (runM_need_true _)]
  show runM (useX rs1 >>= _) s = _
  rw [runM_bind_ok (runM_useX rs1 s h1), runM_bind_ok (runM_useX rs2 s h2), runM_bind_ok (runM_commitPoint_ok hc)]
  rfl

end

/-! ### Fills change the L2 and nothing else (R92) -/

/-- The machine with another state of the L2. -/
abbrev State.withL2 (s : State) (l : L2) : State := { s with l2 := l }

theorem State.l2Wait_eq (s : State) (line : Nat) (dom : Option (BitVec 12)) (w : Bool) : ∃ l, s.l2Wait line dom w = s.withL2 l := by
  unfold State.l2Wait
  split
  · exact ⟨s.l2, rfl⟩
  · exact ⟨_, rfl⟩

theorem State.l2Touch_eq (s : State) (line : Nat) (dom : Option (BitVec 12)) (dirty : Bool) :
    ∃ l, s.l2Touch line dom dirty = s.withL2 l := by
  unfold State.l2Touch
  dsimp only
  split
  · split
    · exact s.l2Wait_eq _ _ _
    · exact ⟨_, rfl⟩
  · split
    · exact ⟨s.l2, rfl⟩
    · split
      · exact ⟨s.l2, rfl⟩
      · split
        · exact ⟨_, rfl⟩
        · split
          · exact s.l2Wait_eq _ _ _
          · exact ⟨_, rfl⟩

theorem State.foldl_withL2 {α : Type} {f : State → α → State} (hf : ∀ s a, ∃ l, f s a = s.withL2 l) (xs : List α) (s : State) :
    ∃ l, xs.foldl f s = s.withL2 l := by
  induction xs generalizing s with
  | nil => exact ⟨s.l2, rfl⟩
  | cons a r ih =>
    obtain ⟨l, hl⟩ := hf s a
    obtain ⟨l', hl'⟩ := ih (f s a)
    exact ⟨l', by rw [List.foldl_cons, hl', hl]⟩

theorem State.l2Fill_eq (s : State) (pa n : Nat) (dom : Option (BitVec 12)) : ∃ l, s.l2Fill pa n dom = s.withL2 l :=
  State.foldl_withL2 (fun s k => s.l2Touch_eq k dom false) _ s

/-- A fill of a cluster's L2 TLB changes that TLB and the L2. -/
theorem State.fillL2Tlb_eq (s : State) (cl : Nat) (satp va : Word) (e : TlbEntry) :
    ∃ l, s.fillL2Tlb cl satp va e
      = { s with l2 := l, l2tlb := tabSet [] s.l2tlb cl ((e :: tabGet [] s.l2tlb cl).take l2TlbSize) } := by
  obtain ⟨l, hl⟩ := State.foldl_withL2 (fun s a => s.l2Fill_eq a 2 none)
    (walkReads s.mem va.toNat 4 (satpRoot satp)
      ++ (domainEntry s (satpAsid satp) (memRead s.mem ((walkReads s.mem va.toNat 4 (satpRoot satp)).getLast?.getD 0) 8)).toList) s
  refine ⟨l, ?_⟩
  unfold State.fillL2Tlb
  dsimp only
  rw [hl]

/-! ### The conditions of a translation -/

theorem satpOn_iff {w : Word} : satpOn w = true ↔ w.toNat / 2 ^ 60 = 9 := by
  have := w.isLt
  simp only [satpOn, bitsAt, beq_iff_eq]
  omega

theorem canonical_iff {va : Word} : canonical va = true ↔ (va.truncate 48 : BitVec 48).signExtend 64 = va := by
  rw [canonical, sextWord_eq_signExtend (by norm_num), BitVec.ofNat_toNat, beq_iff_eq]

theorem bitAt_iff {v k : Nat} : bitAt v k = true ↔ v / 2 ^ k % 2 = 1 := by simp [bitAt]

/-- The permissions of an entry admit an access as those of its page do (R102, R103). -/
theorem permOk_iff {p : BitVec 8} {c : Ctx} {acc : Acc} : permOk p c acc = true ↔ pageAdmits p.toNat c acc := by
  have hbit : ∀ k, p.getLsbD k = true ↔ p.toNat / 2 ^ k % 2 = 1 := fun k => by
    rw [← bitAt_iff, bitAt_eq_testBit, BitVec.testBit_toNat]
  have hpriv : (match c.mode with | .u => p.getLsbD 4 | _ => !p.getLsbD 4 || (c.sum && acc != .fetch)) = true
      ↔ if c.mode = .u then p.toNat / 2 ^ 4 % 2 = 1 else p.toNat / 2 ^ 4 % 2 = 1 → c.sum = true ∧ acc ≠ .fetch := by
    rw [← hbit]
    cases c.mode <;> simp [imp_iff_not_or]
  have hsplit (kind priv : Bool) : (kind && priv && p.getLsbD 6) = true ↔ p.toNat / 2 ^ 6 % 2 = 1 ∧ kind = true ∧ priv = true := by
    rw [← hbit]
    simp [and_comm]
  unfold pageAdmits
  refine (hsplit _ _).trans (and_congr_right fun _ => and_congr ?_ hpriv)
  cases acc <;> simp only [Bool.or_eq_true, Bool.and_eq_true, hbit]

/-! ### The walk and its leaves -/

/-- The pointers of a table that the walk follows (R102, R103). -/
theorem pointerOk_iff {m : Memory} {a : Nat} :
    let pte := memRead m a 8
    pointerPte pte ↔ bitAt pte 0 = true ∧ bitAt pte 1 = false ∧ bitAt pte 2 = false ∧ bitAt pte 3 = false ∧ pointerOk pte = true := by
  intro pte
  have hlt : pte < 2 ^ 64 := memRead_lt m a 8
  simp only [pointerPte, pointerOk, pteReservedOk, bitAt, bitsAt, Bool.and_eq_true, beq_iff_eq, beq_eq_false_iff_ne, Bool.not_eq_true']
  omega

/-- The low bits of a PTE that is neither a pointer nor of a reserved kind. -/
theorem leafKind_iff {pte : Nat} : pte % 16 ∈ [3, 7, 9, 11, 15] ↔
    bitAt pte 0 = true ∧ ¬(bitAt pte 2 = true ∧ bitAt pte 1 = false) ∧ (bitAt pte 1 = true ∨ bitAt pte 3 = true) := by
  simp only [List.mem_cons, List.not_mem_nil, or_false, bitAt_iff, ← Bool.not_eq_true]
  omega

theorem pteReservedOk_iff {pte : Nat} : pteReservedOk pte = true ↔ pte / 2 ^ 54 % 16 = 0 ∧ pte / 2 ^ 61 % 4 = 0 := by
  simp only [pteReservedOk, bitsAt, Bool.and_eq_true, beq_iff_eq]
  omega

/-- Whether the page number of a leaf is aligned to the size that its N bit and its level name (R104). -/
def leafAligned (pte level : Nat) : Bool :=
  let ppn := bitsAt pte 10 44
  if bitAt pte 63 then (level == 0 && ppn % 16 == 8) || (level == 2 && (ppn / 2 ^ 18) % 8 == 4 && ppn % 2 ^ 18 == 0)
  else ppn % 2 ^ (9 * level) == 0

theorem leafOk_eq {pte level : Nat} (hw : ¬(bitAt pte 2 = true ∧ bitAt pte 1 = false)) :
    leafOk pte level = (pteReservedOk pte && level != 3 && leafAligned pte level) := by
  have : (!(bitAt pte 2 && !bitAt pte 1)) = true := by simpa [imp_iff_not_or] using hw
  simp only [leafOk, leafAligned, this, Bool.and_true]

theorem leafAligned_iff_napot {pte level : Nat} (hn : bitAt pte 63 = true) : leafAligned pte level = true ↔
    level = 0 ∧ pte / 2 ^ 10 % 2 ^ 44 % 16 = 8 ∨ level = 2 ∧ pte / 2 ^ 10 % 2 ^ 44 % 2 ^ 21 = 2 ^ 20 := by
  simp only [leafAligned, hn, if_true, bitsAt, Bool.or_eq_true, Bool.and_eq_true, beq_iff_eq]
  omega

theorem leafAligned_iff_plain {pte level : Nat} (hn : bitAt pte 63 = false) :
    leafAligned pte level = true ↔ pte / 2 ^ 10 % 2 ^ 44 % 512 ^ level = 0 := by
  have hpow : 2 ^ (9 * level) = 512 ^ level := by rw [pow_mul]; norm_num
  simp [leafAligned, hn, bitsAt, hpow]

/-- A PTE of a leaf's kind maps a page where its leaf rules hold (R103, R104). -/
theorem leafPage_eq {pte level : Nat} (hl : level ≤ 3) :
    leafPage pte level = if pte % 16 ∈ [3, 7, 9, 11, 15] ∧ leafOk pte level = true then some (leafSize ⟨pte, level⟩) else none := by
  by_cases hk : pte % 16 ∈ [3, 7, 9, 11, 15]
  swap
  · simp [leafPage, hk]
  obtain ⟨-, hw, -⟩ := leafKind_iff.mp hk
  have hlevel : 2 < level ↔ level = 3 := by omega
  by_cases hr : pteReservedOk pte = true ∧ level ≠ 3
  swap
  · have hno : ¬leafOk pte level = true := by
      rw [leafOk_eq hw]
      simp_all
    rw [if_neg (fun h => hno h.2), leafPage, if_pos]
    rw [pteReservedOk_iff] at hr
    omega
  obtain ⟨hr, h3⟩ := hr
  obtain ⟨hr1, hr2⟩ := pteReservedOk_iff.mp hr
  have hok : leafOk pte level = leafAligned pte level := by simp [leafOk_eq hw, hr, h3]
  rw [hok, leafPage, if_neg (by simp only [hk, hr1, hr2, hlevel, h3]; simp)]
  cases hn : bitAt pte 63
  · have h0 : pte / 2 ^ 63 % 2 = 0 := by simpa [bitAt] using hn
    have hsize : leafSize ⟨pte, level⟩ = 4096 * 512 ^ level := by
      simp [leafSize, hn, pow_add, pow_mul]
    simp only [h0, if_true, hk, leafAligned_iff_plain hn, hsize, true_and]
  · have h1 : pte / 2 ^ 63 % 2 = 1 := bitAt_iff.mp hn
    simp only [h1, one_ne_zero, if_false, hk, leafAligned_iff_napot hn, true_and, leafSize, hn, if_true]
    by_cases hlow : level = 0 ∧ pte / 2 ^ 10 % 2 ^ 44 % 16 = 8
    · rw [if_pos hlow, if_pos (.inl hlow), hlow.1]
      rfl
    by_cases hhigh : level = 2 ∧ pte / 2 ^ 10 % 2 ^ 44 % 2 ^ 21 = 2 ^ 20
    · rw [if_neg hlow, if_pos hhigh, if_pos (.inr hhigh), hhigh.1]
      rfl
    · rw [if_neg hlow, if_neg hhigh, if_neg (not_or.mpr ⟨hlow, hhigh⟩)]

theorem leafSize_of_leafPage {pte level size : Nat} (hl : level ≤ 3) (h : leafPage pte level = some size) :
    pte % 16 ∈ [3, 7, 9, 11, 15] ∧ leafOk pte level = true ∧ leafSize ⟨pte, level⟩ = size := by
  rw [leafPage_eq hl] at h
  split at h
  next hc => exact ⟨hc.1, hc.2, Option.some.inj h⟩
  next => exact absurd h (by simp)

theorem leafSize_pos (l : Leaf) : 0 < leafSize l := by
  unfold leafSize
  split_ifs <;> positivity

section
variable {m : Memory} {va level table a : Nat} (ha : a = table * 4096 + 8 * bitsAt va (12 + 9 * level) 9)
include ha

/-- A PTE outside LPDDR6 ends the walk (R101). -/
theorem walk_outside (h : 0x4000000000 ≤ a) : walk m va (level + 1) table = .access := by
  rw [walk, ← ha]
  have hr : regionOf a ≠ .lpddr := by
    unfold regionOf
    rw [if_neg (by omega)]
    dsimp only
    split_ifs <;> simp
  split
  · contradiction
  · rfl

/-- A sound leaf ends the walk. -/
theorem walk_leaf (h : a < 0x4000000000) (hl : level ≤ 3) {size : Nat} (hp : leafPage (memRead m a 8) level = some size) :
    walk m va (level + 1) table = .leaf ⟨memRead m a 8, level⟩ := by
  obtain ⟨hk, hok, -⟩ := leafSize_of_leafPage hl hp
  obtain ⟨hv, hw, hrx⟩ := leafKind_iff.mp hk
  rw [walk, ← ha]
  simp_all [regionOf]

/-- A PTE that is neither a sound leaf nor a pointer above level 0 is a page fault. -/
theorem walk_page (h : a < 0x4000000000) (hl : level ≤ 3) (hp : leafPage (memRead m a 8) level = none)
    (hn : ¬pointerPte (memRead m a 8) ∨ level = 0) : ∃ pte, walk m va (level + 1) table = .page pte := by
  rw [leafPage_eq hl] at hp
  rw [walk, ← ha, regionOf, if_pos h]
  dsimp only
  split
  · exact ⟨_, rfl⟩
  next hv =>
    have hv : bitAt (memRead m a 8) 0 = true ∧ ¬(bitAt (memRead m a 8) 2 = true ∧ bitAt (memRead m a 8) 1 = false) := by
      simpa [imp_iff_not_or] using hv
    split
    next hrx =>
      have hk : memRead m a 8 % 16 ∈ [3, 7, 9, 11, 15] := leafKind_iff.mpr ⟨hv.1, hv.2, by simpa using hrx⟩
      split
      next hok => simp [hk, hok] at hp
      next => exact ⟨_, rfl⟩
    next hrx =>
      split
      next hok =>
        have hlow : bitAt (memRead m a 8) 1 = false ∧ bitAt (memRead m a 8) 3 = false := by simpa using hrx
        have hw : bitAt (memRead m a 8) 2 = false := by
          by_contra h2
          exact hv.2 ⟨by simpa using h2, hlow.1⟩
        have hpt : pointerPte (memRead m a 8) := pointerOk_iff.mpr ⟨hv.1, hlow.1, hw, hlow.2, hok⟩
        obtain rfl := hn.resolve_left (not_not.mpr hpt)
        exact ⟨0, rfl⟩
      next => exact ⟨_, rfl⟩

/-- A pointer has the walk read the next table. -/
theorem walk_pointer (h : a < 0x4000000000) (hp : pointerPte (memRead m a 8)) :
    walk m va (level + 1) table = walk m va level (memRead m a 8 / 2 ^ 10 % 2 ^ 44) := by
  obtain ⟨h0, h1, h2, h3, hok⟩ := pointerOk_iff.mp hp
  rw [walk, ← ha, regionOf, if_pos h]
  simp [h0, h1, h2, h3, hok, bitsAt]

end

/-- The walk comes to each PTE that the rules of R102 have it read. -/
theorem walk_of_walkReads {m : Memory} {va root level a : Nat} (h : WalkReads m va root level a) :
    level ≤ 3 ∧ ∃ table, a = table * 4096 + 8 * bitsAt va (12 + 9 * level) 9 ∧ walk m va 4 root = walk m va (level + 1) table := by
  induction h with
  | root => exact ⟨le_refl 3, root, rfl, rfl⟩
  | next level a _ hlt hp ih =>
    obtain ⟨hl, table, ha, hw⟩ := ih
    exact ⟨by omega, _, rfl, hw.trans (walk_pointer ha hlt hp)⟩

/-! ### Entries held and entries found -/

theorem TlbEntry.hits_iff {e : TlbEntry} {asid va : Nat} :
    e.hits asid va = true ↔ (e.glob = true ∨ e.asid = asid) ∧ e.base ≤ va ∧ va < e.base + e.size := by
  simp [TlbEntry.hits, and_assoc]

/-- The only entry of a list that has a property is the one found. -/
theorem find?_of_unique {l : List TlbEntry} {p : TlbEntry → Bool} {e : TlbEntry} (he : e ∈ l) (hp : p e = true)
    (hu : ∀ d ∈ l, p d = true → d = e) : l.find? p = some e := by
  cases h : l.find? p with
  | none => exact absurd hp (by simpa using List.find?_eq_none.mp h e he)
  | some d => rw [hu d (List.mem_of_find?_eq_some h) (List.find?_some h)]

section
variable {s : State} {l1 : List TlbEntry} {cl : Nat} {satp va : Word} {e : TlbEntry}

theorem lookup_l1 (he : e ∈ l1) (hp : e.hits (satpAsid satp) va.toNat = true)
    (hu : ∀ d ∈ l1, d.hits (satpAsid satp) va.toNat = true → d = e) : lookup s l1 cl satp va = .ok (e, false, false) := by
  simp only [lookup, find?_of_unique he hp hu]

theorem lookup_l2 (hm : ∀ d ∈ l1, ¬d.hits (satpAsid satp) va.toNat = true) (he : e ∈ tabGet [] s.l2tlb cl)
    (hp : e.hits (satpAsid satp) va.toNat = true) (hu : ∀ d ∈ tabGet [] s.l2tlb cl, d.hits (satpAsid satp) va.toNat = true → d = e) :
    lookup s l1 cl satp va = .ok (e, true, false) := by
  simp only [lookup, List.find?_eq_none.mpr hm, find?_of_unique he hp hu]

section
variable (hm : ∀ d ∈ l1, ¬d.hits (satpAsid satp) va.toNat = true)
  (hm2 : ∀ d ∈ tabGet [] s.l2tlb cl, ¬d.hits (satpAsid satp) va.toNat = true)
include hm hm2

/-- An address that neither TLB holds is walked (R102). -/
theorem lookup_leaf {l : Leaf} (hw : walk s.mem va.toNat 4 (satpRoot satp) = .leaf l) :
    lookup s l1 cl satp va = .ok (mkTlb s (satpAsid satp) va.toNat l, true, true) := by
  simp only [lookup, List.find?_eq_none.mpr hm, List.find?_eq_none.mpr hm2, hw]

theorem lookup_access (hw : walk s.mem va.toNat 4 (satpRoot satp) = .access) : lookup s l1 cl satp va = .error .access := by
  simp only [lookup, List.find?_eq_none.mpr hm, List.find?_eq_none.mpr hm2, hw]

theorem lookup_page {pte : Nat} (hw : walk s.mem va.toNat 4 (satpRoot satp) = .page pte) :
    lookup s l1 cl satp va = .error (.page pte) := by
  simp only [lookup, List.find?_eq_none.mpr hm, List.find?_eq_none.mpr hm2, hw]

end

end

/-- The machine once the TLBs that lack an entry hold it (R105). -/
def State.tlbsFilled (s : State) (satp va : Word) (e : TlbEntry) (f1 f2 : Bool) : State :=
  let t := if f2 then s.fillL2Tlb s.cpu.cluster satp va e else s
  if f1 then { t with cpu := { t.cpu with tlb := (e :: t.cpu.tlb).take l1TlbSize } } else t

section
variable (s : State) (satp va : Word) (e : TlbEntry) (f1 p : Bool)

theorem State.tlbsFilled_keeps (f2 : Bool) :
    let t := (s.tlbsFilled satp va e f1 f2).eats p
    t.mem = s.mem ∧ t.cpu.x = s.cpu.x ∧ t.cpu.pc = s.cpu.pc := by
  obtain ⟨l, hfill⟩ := s.fillL2Tlb_eq s.cpu.cluster satp va e
  unfold State.tlbsFilled
  rw [hfill]
  cases f1 <;> cases f2 <;> cases p <;> exact ⟨rfl, rfl, rfl⟩

theorem State.tlbsFilled_tlb (f2 : Bool) :
    ((s.tlbsFilled satp va e f1 f2).eats p).cpu.tlb = if f1 then (e :: s.cpu.tlb).take l1TlbSize else s.cpu.tlb := by
  obtain ⟨l, hfill⟩ := s.fillL2Tlb_eq s.cpu.cluster satp va e
  unfold State.tlbsFilled
  rw [hfill]
  cases f1 <;> cases f2 <;> cases p <;> rfl

theorem State.mem_tlbsFilled_tlb (f2 : Bool) (h : f1 = false → e ∈ s.cpu.tlb) :
    e ∈ ((s.tlbsFilled satp va e f1 f2).eats p).cpu.tlb := by
  rw [State.tlbsFilled_tlb]
  cases f1
  · exact h rfl
  · exact List.mem_cons_self

theorem State.mem_tlbsFilled_l2tlb : e ∈ tabGet [] ((s.tlbsFilled satp va e f1 true).eats p).l2tlb s.cpu.cluster := by
  obtain ⟨l, hfill⟩ := s.fillL2Tlb_eq s.cpu.cluster satp va e
  have h : ((s.tlbsFilled satp va e f1 true).eats p).l2tlb
      = tabSet [] s.l2tlb s.cpu.cluster ((e :: tabGet [] s.l2tlb s.cpu.cluster).take l2TlbSize) := by
    unfold State.tlbsFilled
    rw [hfill]
    cases f1 <;> cases p <;> rfl
  rw [h, tabGet_set, if_pos rfl]
  exact List.mem_cons_self

end

section
variable {s : State} {acc : Acc} {va : Word}

/-- Whether an access of the hart is translated: below M-mode, under Sv48 (R102). -/
def Hart.translates (h : Hart) (acc : Acc) : Prop := (h.ctx acc).mode ≠ .m ∧ satpOn (h.ctx acc).satp = true

theorem xlat_identity (ho : ¬s.cpu.translates acc) : xlat s acc va = .ok (identity va, s.eats (s.cpu.xlatBad acc)) := by
  unfold xlat
  dsimp only
  rw [if_pos]
  simp only [Hart.translates, not_and_or, not_not, Bool.not_eq_true] at ho
  simpa using ho

section
variable (ho : s.cpu.translates acc)
include ho

theorem xlat_noncanonical (hc : canonical va = false) : xlat s acc va = .error ⟨acc.pageCause, false⟩ := by
  obtain ⟨hm, hs⟩ := ho
  unfold xlat
  dsimp only
  rw [if_neg (by simp [hm, hs]), hc]
  rfl

variable (hc : canonical va = true)
include hc

theorem xlat_missed {w : WalkEnd} (hl : lookup s s.cpu.tlb s.cpu.cluster (s.cpu.ctx acc).satp va = .error w) :
    xlat s acc va = .error (w.fault acc) := by
  obtain ⟨hm, hs⟩ := ho
  unfold xlat
  dsimp only
  rw [if_neg (by simp [hm, hs]), hc, hl]
  rfl

variable {e : TlbEntry} {f1 f2 : Bool} (hl : lookup s s.cpu.tlb s.cpu.cluster (s.cpu.ctx acc).satp va = .ok (e, f1, f2))
include hl

theorem xlat_denied (hp : permOk e.perms (s.cpu.ctx acc) acc = false) : xlat s acc va = .error ⟨acc.pageCause, e.hostfile⟩ := by
  obtain ⟨hm, hs⟩ := ho
  unfold xlat
  dsimp only
  rw [if_neg (by simp [hm, hs]), hc, hl]
  simp [hp]

/-- An admitted access takes its entry's translation, and the TLBs that lacked the entry are filled (R105). -/
theorem xlat_admitted (hp : permOk e.perms (s.cpu.ctx acc) acc = true) :
    ∃ p, xlat s acc va = .ok (⟨e.pa + (va.toNat - e.base), e.base, e.size, e.wx, e.dom, e.hostfile⟩,
      (s.tlbsFilled (s.cpu.ctx acc).satp va e f1 f2).eats p) := by
  obtain ⟨hm, hs⟩ := ho
  unfold xlat
  dsimp only
  rw [if_neg (by simp [hm, hs]), hc, hl]
  simp only [Bool.not_true, Bool.false_eq_true, if_false, hp, if_true]
  exact ⟨_, rfl⟩

end

end

/-- The page of a leaf: its entry translates the address by the page's offset (R104, R105). -/
theorem mkTlb_page (s : State) (asid va : Nat) (l : Leaf) :
    let e := mkTlb s asid va l
    e.hits asid va = true ∧ e.pa + (va - e.base) = l.pte / 2 ^ 10 % 2 ^ 44 * 4096 / leafSize l * leafSize l + va % leafSize l := by
  have hpos := leafSize_pos l
  have hmod := Nat.mod_lt va hpos
  have hle := Nat.mod_le va (leafSize l)
  constructor
  · rw [TlbEntry.hits_iff]
    exact ⟨.inr rfl, Nat.sub_le _ _, by simp only [mkTlb]; omega⟩
  · have hpa (n : Nat) : n - n % leafSize l = n / leafSize l * leafSize l := by
      have := Nat.div_add_mod' n (leafSize l)
      omega
    simp only [mkTlb, leafBase, bitsAt, hpa]
    have := hpa va
    omega

/-- Settles O8. -/
theorem fencesAndTranslations : Obligations.FencesAndTranslations := by
  unfold Obligations.FencesAndTranslations
  refine ⟨fun s t i fm pred succ imm rd rs1 scope => ⟨?_, exec_scfence_sc⟩, ?_, ?_⟩
  · rintro (rfl | rfl | ⟨rfl, hv⟩) hc
    · exact exec_commits rfl rfl hc
    · exact exec_commits rfl rfl hc
    · exact exec_scfence_vc hv hc
  · intro s t rs1 rs2 tvm may va asid gone hb
    refine ⟨exec_sfenceVma_illegal hb, fun hm h1 h2 hc => ⟨_, exec_sfenceVma hb hm h1 h2 hc, fun e => ?_, fun e => ?_, rfl, rfl, rfl⟩⟩
    · exact State.mem_sfenced_tlb.trans (and_congr_right fun _ => not_congr TlbEntry.fenced_iff)
    · exact State.mem_sfenced_l2tlb.trans (and_congr_right fun _ => not_congr TlbEntry.fenced_iff)
  · intro s acc va h c n asid on canonical' fails pageFault accessFault gives hits l2 missed
    have hhits (e : TlbEntry) : hits e ↔ e.hits (satpAsid c.satp) n = true := TlbEntry.hits_iff.symm
    have hon (ho : on) : h.translates acc := ⟨ho.1, satpOn_iff.mpr ho.2⟩
    have hpage {m : Bool} (hx : xlat s acc va = .error ⟨acc.pageCause, m⟩) : pageFault := ⟨m, hx.trans (by cases acc <;> rfl)⟩
    have haccess (hx : xlat s acc va = .error ⟨acc.accessCause, false⟩) : accessFault := ⟨false, hx.trans (by cases acc <;> rfl)⟩
    refine ⟨fun ho => ?_, fun ho hc => ?_, fun ho hc e he => ?_, fun ho hc hm hm2 level a hw => ?_⟩
    · refine ⟨_, _, xlat_identity (fun ht => ho ⟨ht.1, satpOn_iff.mp ht.2⟩), rfl, ?_⟩
      simp [State.eats_eq, h]
    · exact hpage (xlat_noncanonical (hon ho) (Bool.eq_false_iff.mpr fun hcan => hc (canonical_iff.mp hcan)))
    · have hcan := canonical_iff.mpr hc
      obtain ⟨f1, hl, hheld⟩ : ∃ f1, lookup s h.tlb h.cluster c.satp va = .ok (e, f1, false) ∧ (f1 = false → e ∈ h.tlb) := by
        simp only [hhits, missed] at he
        rcases he with ⟨hm, hp, hu⟩ | ⟨hm, hm2, hp, hu⟩
        · exact ⟨false, lookup_l1 hm hp hu, fun _ => hm⟩
        · exact ⟨true, lookup_l2 hm hm2 hp hu, fun h => absurd h (by simp)⟩
      refine ⟨fun hp => ?_, fun hp => hpage (xlat_denied (hon ho) hcan hl (Bool.eq_false_iff.mpr fun h => hp (permOk_iff.mp h)))⟩
      obtain ⟨p, hx⟩ := xlat_admitted (hon ho) hcan hl (permOk_iff.mpr hp)
      exact ⟨_, _, hx, rfl, ⟨s.mem_tlbsFilled_tlb c.satp va e f1 p false hheld, rfl, rfl, rfl, rfl⟩, s.tlbsFilled_keeps c.satp va e f1 p false⟩
    · have hcan := canonical_iff.mpr hc
      simp only [hhits, missed] at hm hm2
      obtain ⟨hl, table, ha, hroot⟩ := walk_of_walkReads hw
      rw [show c.satp.toNat % 2 ^ 44 = satpRoot c.satp by simp [satpRoot, bitsAt]] at hroot
      refine ⟨fun hout => ?_, fun hin => ⟨fun hnone hptr => ?_, fun size hsome => ?_⟩⟩
      · exact haccess (xlat_missed (hon ho) hcan (lookup_access hm hm2 (hroot.trans (walk_outside ha hout))))
      · obtain ⟨pte, hpte⟩ := walk_page ha hin hl hnone hptr
        exact hpage (xlat_missed (hon ho) hcan (lookup_page hm hm2 (hroot.trans hpte)))
      · obtain ⟨-, -, hsize⟩ := leafSize_of_leafPage hl hsome
        have hfound := lookup_leaf hm hm2 (hroot.trans (walk_leaf ha hin hl hsome))
        have hperm : (mkTlb s (satpAsid c.satp) n ⟨memRead s.mem a 8, level⟩).perms.toNat = memRead s.mem a 8 % 256 := by
          simp [mkTlb]
        refine ⟨fun hp => ?_, fun hp => ?_⟩
        · exact hpage (xlat_denied (hon ho) hcan hfound (Bool.eq_false_iff.mpr fun h => hp (hperm ▸ permOk_iff.mp h)))
        · obtain ⟨p, hx⟩ := xlat_admitted (hon ho) hcan hfound (permOk_iff.mpr (hperm.symm ▸ hp))
          obtain ⟨hhit, hpa⟩ := mkTlb_page s (satpAsid c.satp) n ⟨memRead s.mem a 8, level⟩
          rw [hsize] at hpa
          refine ⟨_, _, hx, hpa, ⟨rfl, ?_, ?_, hsize, _, (hhits _).mpr hhit, s.mem_tlbsFilled_tlb c.satp va _ true p true (by simp),
            s.mem_tlbsFilled_l2tlb c.satp va _ true p⟩, s.tlbsFilled_keeps c.satp va _ true p true⟩
          · exact beq_eq_decide (memRead s.mem a 8 / 2 ^ 8 % 4) 1
          · simp only [mkTlb, hsize, n]

end Sys2Proof.Machine
end

section
namespace Sys2Proof.Machine

/-! What a write of the device leaves alone (R80, R84). -/

theorem State.l2Wrote_eq (s : State) (pa n : Nat) (dom : Option (BitVec 12)) : ∃ l, s.l2Wrote pa n dom = s.withL2 l :=
  State.foldl_withL2 (fun s k => s.l2Touch_eq k dom true) _ s

/-- Two machines with the same jobs and commands, registers and clocks: they may differ in harts, memory, banks, the L2 and the
ports. -/
structure State.SameBooks (s t : State) : Prop where
  dqu : t.dqu = s.dqu
  mmio : t.mmio = s.mmio
  counters : t.counters = s.counters
  cycles : t.cycles = s.cycles
  cmds : t.cmds = s.cmds
  order : t.order = s.order
  rows : t.rows = s.rows
  power : t.power = s.power

theorem State.SameBooks.refl (s : State) : s.SameBooks s := ⟨rfl, rfl, rfl, rfl, rfl, rfl, rfl, rfl⟩

theorem State.SameBooks.trans {s t u : State} (h : s.SameBooks t) (g : t.SameBooks u) : s.SameBooks u :=
  ⟨g.dqu.trans h.dqu, g.mmio.trans h.mmio, g.counters.trans h.counters, g.cycles.trans h.cycles, g.cmds.trans h.cmds,
    g.order.trans h.order, g.rows.trans h.rows, g.power.trans h.power⟩

theorem State.visWrite_sameBooks (s : State) (pa : Nat) (data : List Byte) (bad : Bool) : s.SameBooks (s.visWrite none pa data bad) := by
  obtain ⟨l, hl⟩ := (s.rawWrite none pa data bad).l2Wrote_eq pa data.length none
  have hraw : s.SameBooks (s.rawWrite none pa data bad) := by
    unfold State.rawWrite
    dsimp only
    split <;> exact ⟨rfl, rfl, rfl, rfl, rfl, rfl, rfl, rfl⟩
  refine hraw.trans ?_
  show State.SameBooks _ ((s.rawWrite none pa data bad).l2Wrote pa data.length none)
  rw [hl]
  exact ⟨rfl, rfl, rfl, rfl, rfl, rfl, rfl, rfl⟩

theorem State.devWrite_sameBooks (s : State) (pa : Nat) (data : List Byte) (bad : Bool) : s.SameBooks (s.devWrite pa data bad) := by
  unfold State.devWrite
  split
  · exact s.visWrite_sameBooks _ _ _
  · dsimp only
    split
    · exact ⟨rfl, rfl, rfl, rfl, rfl, rfl, rfl, rfl⟩
    · split
      · exact s.visWrite_sameBooks _ _ _
      · exact .refl s
  · split
    · exact ⟨rfl, rfl, rfl, rfl, rfl, rfl, rfl, rfl⟩
    · exact .refl s
  · exact .refl s

@[simp] theorem State.devWrite_dqu (s : State) (pa : Nat) (data : List Byte) (bad : Bool) : (s.devWrite pa data bad).dqu = s.dqu :=
  (s.devWrite_sameBooks pa data bad).dqu

theorem State.SameBooks.dquNow {s t : State} (h : s.SameBooks t) : t.dquNow = s.dquNow := by
  simp only [State.dquNow, State.ctrNs, State.counter, h.counters, h.cycles]

@[simp] theorem State.devWrite_dquNow (s : State) (pa : Nat) (data : List Byte) (bad : Bool) :
    (s.devWrite pa data bad).dquNow = s.dquNow := (s.devWrite_sameBooks pa data bad).dquNow

/-! Storing a job (R36, R38). -/

theorem State.putJob_dqu (s : State) (id : Nat) (j : Job) :
    (s.putJob id j).dqu = { s.dqu with jobs := tabInsert s.dqu.jobs id (some j) } := by
  simp [State.putJob]

theorem State.putJob_dquNow (s : State) (id : Nat) (j : Job) : (s.putJob id j).dquNow = s.dquNow := by
  rw [State.putJob, State.devWrite_dquNow]
  rfl

/-- A change of a job leaves the queue and the numbers that the DQU gives. -/
theorem State.modJob_keeps (s : State) (id : Nat) (f : Job → Job) :
    let t := s.modJob id f
    t.dqu.nextJob = s.dqu.nextJob ∧ t.dqu.queue = s.dqu.queue ∧ t.dqu.seq = s.dqu.seq ∧ t.dqu.nextTask = s.dqu.nextTask
      ∧ t.dquNow = s.dquNow := by
  unfold State.modJob
  split
  · split
    · exact ⟨rfl, rfl, rfl, rfl, rfl⟩
    · dsimp only
      rw [State.putJob_dquNow, State.putJob_dqu]
      exact ⟨rfl, rfl, rfl, rfl, rfl⟩
  · exact ⟨rfl, rfl, rfl, rfl, rfl⟩

/-! Acceptance (R43, R58). -/

/-- Enqueueing adds tasks of one job and one sequence number at the end of the queue, and changes no job. -/
theorem State.enqueueMany_dqu (s : State) (job : Nat) (d : Desc) (seq n : Nat) :
    let t := s.enqueueMany job d seq n
    t.dqu.jobs = s.dqu.jobs ∧ ∃ new : List QTask, t.dqu.queue = s.dqu.queue ++ new ∧ new.length = n
      ∧ ∀ q ∈ new, q.job = job ∧ q.seq = seq := by
  induction n with
  | zero => exact ⟨rfl, [], by simp [State.enqueueMany]⟩
  | succ n ih =>
    obtain ⟨hjobs, new, hq, hlen, hall⟩ := ih
    let u := s.enqueueMany job d seq n
    refine ⟨hjobs, new ++ [⟨u.dqu.nextTask, job, n, d, seq, u.dquNow, []⟩], ?_, by simp [hlen], ?_⟩
    · show (s.enqueueMany job d seq n).dqu.queue ++ _ = _
      rw [hq, List.append_assoc]
    · intro q hm
      rcases List.mem_append.mp hm with hm | hm
      · exact hall q hm
      · rw [List.mem_singleton.mp hm]
        exact ⟨rfl, rfl⟩

/-- An accepted job as the DQU holds it: PENDING before its release time, else RUNNING (R58). -/
def Job.accepted (j : Job) (now n : Nat) : Job :=
  { j with count := n, cont := none, state := if now < j.release.toNat then 1 else 2, runningAt := if now < j.release.toNat then 0 else now }

/-- The jobs that stay once a job's RCB takes the place of a final one's. -/
def State.jobsBeside (s : State) (pa : Nat) : Tab (Option Job) :=
  s.dqu.jobs.filter fun p => match p.2 with | some o => !(o.final && o.pa == pa) | none => false

/-- The machine once an accepted job stands under its number and its RCB holds the copy, before its tasks are enqueued. -/
def State.jobFiled (s : State) (j : Job) (parent : Word) (n : Nat) : State :=
  let t := { s with dqu := { s.dqu with nextJob := s.dqu.nextJob + 1, jobs := s.jobsBeside j.pa } }
  let t := t.devWrite j.pa (bytesOf 8 j.deadline.toNat ++ bytesOf 8 j.release.toNat ++ bytesOf 4 j.slack.toNat
    ++ bytesOf 4 j.budget.toNat ++ bytesOf 8 j.ctl.toNat ++ bytesOf 8 parent.toNat)
  let t := t.devWrite (j.pa + 0x70) (bytesOf 8 j.satp.toNat ++ bytesOf 8 (b2n j.priv))
  (t.putJob s.dqu.nextJob (j.accepted s.dquNow n)).devWrite (j.pa + 0x40) (bytesOf 32 0)

theorem State.jobFiled_dqu (s : State) (j : Job) (parent : Word) (n : Nat) :
    (s.jobFiled j parent n).dqu = { s.dqu with
      nextJob := s.dqu.nextJob + 1, jobs := tabInsert (s.jobsBeside j.pa) s.dqu.nextJob (some (j.accepted s.dquNow n)) } := by
  simp only [State.jobFiled, State.devWrite_dqu, State.putJob_dqu]

theorem State.acceptJob_eq (s : State) (j : Job) (parent : Word) (n : Nat) :
    s.acceptJob j parent n
      = ((s.jobFiled j parent n).enqueueMany s.dqu.nextJob (j.cont.getD ⟨0, 0, 0, false⟩) s.dqu.seq n).nextSeq := by
  have hseq : (s.jobFiled j parent n).dqu.seq = s.dqu.seq := by rw [State.jobFiled_dqu]
  have haccepted : j.accepted s.dquNow n = { j with
      count := n, cont := none, state := if decide (s.dquNow < j.release.toNat) then stPending else stRunning,
      runningAt := if decide (s.dquNow < j.release.toNat) then 0 else s.dquNow } := by
    simp only [Job.accepted, decide_eq_true_eq, stPending, stRunning]
  rw [← hseq]
  unfold State.jobFiled
  rw [haccepted]
  rfl

/-- The job that the DQU holds once it is accepted, and the tasks that are queued for it. -/
theorem State.acceptJob_dqu (s : State) (j : Job) (parent : Word) (n : Nat) :
    let t := s.acceptJob j parent n
    t.job? s.dqu.nextJob = some (j.accepted s.dquNow n)
      ∧ t.dqu.queue.length = s.dqu.queue.length + n
      ∧ ∀ q ∈ t.dqu.queue.drop s.dqu.queue.length, q.job = s.dqu.nextJob ∧ q.seq = s.dqu.seq := by
  have hdqu := s.jobFiled_dqu j parent n
  obtain ⟨hjobs, new, hq, hlen, hall⟩ := (s.jobFiled j parent n).enqueueMany_dqu s.dqu.nextJob (j.cont.getD ⟨0, 0, 0, false⟩) s.dqu.seq n
  rw [State.acceptJob_eq]
  refine ⟨?_, ?_, ?_⟩
  · show tabGet none ((s.jobFiled j parent n).enqueueMany _ _ _ n).dqu.jobs s.dqu.nextJob = _
    rw [hjobs, hdqu, tabGet_insert, if_pos rfl]
  · show ((s.jobFiled j parent n).enqueueMany _ _ _ n).dqu.queue.length = _
    rw [hq, hdqu, List.length_append, hlen]
  · show ∀ q ∈ ((s.jobFiled j parent n).enqueueMany _ _ _ n).dqu.queue.drop _, _
    rw [hq, hdqu, List.drop_left]
    exact hall

/-! The body of a spawn (R43). -/

theorem runM_jobPoint_ok {s t : State} {r : TaskRun} {j : Job} (hc : commitsTo s t) (hj : t.job? r.job = some j) (ha : j.abandonAt = none) :
    runM (jobPoint r) s = (.ok j, t) := by
  have hjob : runM (jobOfTask r) t = (.ok j, t) := by
    unfold jobOfTask
    rw [runM_bind_ok (runM_get t), hj]
    rfl
  unfold jobPoint
  rw [runM_bind_ok (runM_commitPoint_ok hc), runM_bind_ok hjob, ha]
  rfl

section
variable {s t u v : State} {r : TaskRun} {parent : Job} {a : Word} {n : Nat} {bs : List Byte} {x : Xlat}
  (hc : commitsTo s t) (hj : t.job? r.job = some parent) (hna : parent.abandonAt = none)
include hc hj hna

theorem runM_spawn_misaligned (ha : a.toNat % 128 ≠ 0) : runM (spawn r a n) s = (.ok 4, t) := by
  unfold spawn
  rw [runM_bind_ok (runM_jobPoint_ok hc hj hna)]
  simp [ha]

variable (ha : a.toNat % 128 = 0) (hread : answers (readRecord a 128) t (bs, false) v) (hx : answers (translate .load a none) v x u)
include ha hread hx

/-- The codes that come before inheritance. -/
theorem runM_spawn_code (hcode : spawnCode u parent bs n x.pa ≠ 0) :
    runM (spawn r a n) s = (.ok (spawnCode u parent bs n x.pa), u) := by
  unfold spawn
  rw [runM_bind_ok (runM_jobPoint_ok hc hj hna), if_neg (by simpa using ha), runM_bind_ok hread, runM_bind_ok (runM_consume false v)]
  show runM (translate .load a none >>= _) v = _
  rw [runM_bind_ok hx, runM_bind_ok (runM_get u)]
  dsimp only
  rw [if_pos hcode]
  rfl

/-- The job that a spawn makes of the image at its RCB (R43, R45). -/
def State.spawned (u : State) (a : Word) (pa : Nat) (bs : List Byte) (parent : Job) : Job :=
  (jobOf a pa bs (u.seenPoison (pa + 0x40) 64)).inherit parent (u.cpu.mode == .u)

variable (hcode : spawnCode u parent bs n x.pa = 0)
include hcode

/-- A spawn that meets no obstacle before inheritance looks at the child's tenant and cliff. -/
theorem runM_spawn_inherits : runM (spawn r a n) s = runM (do
    let j := u.spawned a x.pa bs parent
    if u.tenantMismatch j then return 4
    else if !j.deferred && decide (j.cliffValue ≤ u.dquNow) then do
      modify fun s => (s.devWrite (x.pa + 0x28) [0x13]).devWrite (x.pa + 0x30) (bytesOf 8 s.dquNow)
      return 3
    else do
      modify fun s => s.modJob r.job fun p => { p with count := p.count + 1 }
      modify fun s => s.acceptJob { j with parent := some r.job } parent.addr n
      return 0) u := by
  unfold spawn
  rw [runM_bind_ok (runM_jobPoint_ok hc hj hna), if_neg (by simpa using ha), runM_bind_ok hread, runM_bind_ok (runM_consume false v)]
  show runM (translate .load a none >>= _) v = _
  rw [runM_bind_ok hx, runM_bind_ok (runM_get u)]
  dsimp only
  rw [if_neg (by simpa using hcode)]
  rfl

theorem runM_spawn_tenant (hm : u.tenantMismatch (u.spawned a x.pa bs parent) = true) : runM (spawn r a n) s = (.ok 4, u) := by
  rw [runM_spawn_inherits hc hj hna ha hread hx hcode]
  simp [hm]

variable (hm : u.tenantMismatch (u.spawned a x.pa bs parent) = false)
include hm

theorem runM_spawn_late (hl : (u.spawned a x.pa bs parent).deferred = false ∧ (u.spawned a x.pa bs parent).cliffValue ≤ u.dquNow) :
    runM (spawn r a n) s = (.ok 3, (u.devWrite (x.pa + 0x28) [0x13]).devWrite (x.pa + 0x30) (bytesOf 8 u.dquNow)) := by
  rw [runM_spawn_inherits hc hj hna ha hread hx hcode]
  dsimp only
  rw [hm, hl.1, decide_eq_true hl.2]
  show runM (modify _ >>= _) u = _
  rw [runM_bind_ok (runM_modify _ u), runM_pure]

theorem runM_spawn_accepted (hl : ¬((u.spawned a x.pa bs parent).deferred = false ∧ (u.spawned a x.pa bs parent).cliffValue ≤ u.dquNow)) :
    runM (spawn r a n) s = (.ok 0, (u.modJob r.job fun p => { p with count := p.count + 1 }).acceptJob
      { u.spawned a x.pa bs parent with parent := some r.job } parent.addr n) := by
  rw [runM_spawn_inherits hc hj hna ha hread hx hcode]
  dsimp only
  rw [hm, if_neg (by simp), if_neg (by simpa using hl), runM_bind_ok (runM_modify _ u), runM_bind_ok (runM_modify _ _), runM_pure]

end

/-- Both spawning instructions run the body on the address and the number of tasks, and answer its code. -/
theorem exec_spawn {s t : State} {i : Instr} {rd rs1 rs2 : Reg} {n code : Nat} {r : TaskRun}
    (hi : i = .jspawn rd rs1 ∧ n = 1 ∨ i = .jspawnn rd rs1 rs2 ∧ n = (s.cpu.xr rs2).toNat % 65536)
    (ht : inTaskOf s r) (h1 : s.cpu.xPoisoned rs1 = false) (h2 : s.cpu.xPoisoned rs2 = false)
    (hr : runM (spawn r (s.cpu.xr rs1) n) s = (.ok code, t)) :
    exec i s = .next (t.retired (t.cpu.setX rd (BitVec.ofNat 64 code)) 4) := by
  have hin := runM_inTask_ok s r ht.1 ht.2
  rcases hi with ⟨rfl, rfl⟩ | ⟨rfl, rfl⟩
  · refine instr_retired ?_
    rw [runM_bind_ok hin, runM_bind_ok (runM_useX rs1 s h1), runM_bind_ok hr, runM_putX]
  · refine instr_retired ?_
    rw [runM_bind_ok hin, runM_bind_ok (runM_useX rs1 s h1), runM_bind_ok (runM_useX rs2 s h2), runM_bind_ok hr, runM_putX]

/-- The codes of R43 in their order. -/
theorem spawnCode_eq (s : State) (parent : Job) (bs : List Byte) (n pa : Nat) : spawnCode s parent bs n pa =
    if s.abandonedAt pa = true then 5
    else if n = 0 ∨ rcbInvalid bs = true then 4
    else if bitsAt (fieldAt bs 0x28 8) 0 8 ≠ 0 then 5
    else if parent.depth = 15 then 2
    else if s.dqAvail < n ∨ parent.count = 65535 then 1
    else 0 := by
  simp [spawnCode]

/-- Settles O9. -/
theorem spawnAcceptsOrRefuses : Obligations.SpawnAcceptsOrRefuses := by
  unfold Obligations.SpawnAcceptsOrRefuses
  constructor
  · intro s t u v i rd rs1 rs2 n r parent bs x hi ht h1 h2 hc hj hna a busy code
    have hcode : spawnCode u parent bs n x.pa = code := spawnCode_eq u parent bs n x.pa
    refine ⟨fun ha => exec_spawn hi ht h1 h2 (runM_spawn_misaligned hc hj hna ha), fun ha hread hx hne => ?_⟩
    exact hcode ▸ exec_spawn hi ht h1 h2 (runM_spawn_code hc hj hna ha hread hx (hcode ▸ hne))
  · intro s t u v i rd rs1 rs2 n r parent bs x hi ht h1 h2 hc hj hna a ha hread hx hcode child late counted taken marked
    refine ⟨fun hm => exec_spawn hi ht h1 h2 (runM_spawn_tenant hc hj hna ha hread hx hcode hm),
      fun hm hl => exec_spawn hi ht h1 h2 (runM_spawn_late hc hj hna ha hread hx hcode hm hl),
      fun hm hl => ⟨exec_spawn hi ht h1 h2 (runM_spawn_accepted hc hj hna ha hread hx hcode hm hl), ?_⟩⟩
    obtain ⟨hnext, hqueue, hseq, -, hnow⟩ := u.modJob_keeps r.job fun p => { p with count := p.count + 1 }
    have h := counted.acceptJob_dqu child parent.addr n
    rw [hnext, hqueue, hseq, hnow] at h
    exact h

end Sys2Proof.Machine
end

section
namespace Sys2Proof.Machine

/-! Rewinding: what a journal restores, the lineage after it, and the trap that follows (R52, R53, R332 to R337). -/

/-! ### The registers of a journal -/

theorem restoreX_outside {x : Vector Word 32} {xs : List (Nat × Word)} {r : Nat} (h : r ∉ xs.map Prod.fst) :
    (restoreX x xs).getD r 0 = x.getD r 0 := by
  induction xs generalizing x with
  | nil => rfl
  | cons p xs ih =>
    rw [List.map_cons, List.mem_cons, not_or] at h
    rw [restoreX, ih h.2]
    simp [Vector.getD, Ne.symm h.1]

theorem restoreX_inside {x : Vector Word 32} {xs : List (Nat × Word)} {r : Nat} {w : Word} (hn : (xs.map Prod.fst).Nodup)
    (h : (r, w) ∈ xs) (hr : r < 32) : (restoreX x xs).getD r 0 = w := by
  induction xs generalizing x with
  | nil => exact absurd h (by simp)
  | cons p xs ih =>
    rw [List.map_cons, List.nodup_cons] at hn
    rcases List.mem_cons.mp h with rfl | h
    · rw [restoreX, restoreX_outside hn.1]
      simp [Vector.getD, hr]
    · exact ih hn.2 h

/-- The mask of a journal's x registers. -/
theorem getLsbD_journalMask {xs : List (Nat × Word)} {r : Nat} (hr : r < 32) :
    (journalMask xs).getLsbD r = decide (r ∈ xs.map Prod.fst) := by
  have hfold (m : BitVec 32) : (xs.foldl (fun m p => m ||| ((1 : BitVec 32) <<< p.1)) m).getLsbD r
      = (m.getLsbD r || decide (r ∈ xs.map Prod.fst)) := by
    induction xs generalizing m with
    | nil => simp
    | cons p xs ih =>
      rw [List.foldl_cons, ih]
      have hone : ((1 : BitVec 32) <<< p.1).getLsbD r = decide (r = p.1) := by
        rw [Bool.eq_iff_iff]
        simp [hr]
        omega
      rw [BitVec.getLsbD_or, hone]
      simp [Bool.or_assoc]
  rw [journalMask, hfold]
  simp

theorem Vec.restoreRegs_eq (v : Vec) (rs : List (Nat × List Byte)) : v.restoreRegs rs = { v with store := (v.restoreRegs rs).store } := by
  induction rs generalizing v with
  | nil => rfl
  | cons p rs ih => 
    rw [Vec.restoreRegs, ih, Vec.setBytes_eq]

/-- A byte that no register of a journal covers. -/
theorem Vec.byte_restoreRegs_outside {v : Vec} {rs : List (Nat × List Byte)} {r b : Nat} (hb : b < 4096)
    (hl : ∀ p ∈ rs, p.2.length ≤ 4096) (h : ∀ bs, (r, bs) ∈ rs → bs.length ≤ b) : (v.restoreRegs rs).byte r b = v.byte r b := by
  induction rs generalizing v with
  | nil => rfl
  | cons p rs ih =>
    rw [Vec.restoreRegs, ih (fun q hq => hl q (List.mem_cons_of_mem _ hq)) (fun bs hbs => h bs (List.mem_cons_of_mem _ hbs))]
    refine Vec.byte_setBytes_outside _ ?_
    have hp := hl p List.mem_cons_self
    by_cases hr : p.1 = r
    · have := h p.2 (hr ▸ List.mem_cons_self)
      unfold vecKey
      omega
    · unfold vecKey
      omega

/-- A register of a journal holds the bytes it had. -/
theorem Vec.bytes_restoreRegs {v : Vec} {rs : List (Nat × List Byte)} {r : Nat} {bs : List Byte} (hn : (rs.map Prod.fst).Nodup)
    (hl : ∀ p ∈ rs, p.2.length ≤ 4096) (h : (r, bs) ∈ rs) : (v.restoreRegs rs).bytes r 0 bs.length = bs := by
  induction rs generalizing v with
  | nil => exact absurd h (by simp)
  | cons p rs ih =>
    rw [List.map_cons, List.nodup_cons] at hn
    have hl' : ∀ q ∈ rs, q.2.length ≤ 4096 := fun q hq => hl q (List.mem_cons_of_mem _ hq)
    rcases List.mem_cons.mp h with rfl | h
    · have hlen := hl _ List.mem_cons_self
      rw [Vec.restoreRegs]
      refine Eq.trans ?_ (Vec.bytes_setBytes v r 0 bs)
      refine List.map_congr_left fun i hi => Vec.byte_restoreRegs_outside ?_ hl' fun cs hcs => ?_
      · have := List.mem_range.mp hi
        dsimp only at hlen
        omega
      · exact absurd (List.mem_map_of_mem (f := Prod.fst) hcs) hn.1
    · exact ih hn.2 hl' h

/-! ### The hart that a rewind leaves -/

theorem mem_foldl_addSorted_iff {l m : List Nat} {c : Nat} : c ∈ m.foldl (fun l k => addSorted k l) l ↔ c ∈ m ∨ c ∈ l := by
  induction m generalizing l with
  | nil => simp
  | cons k m ih =>
    rw [List.foldl_cons, ih, mem_addSorted, List.mem_cons]
    tauto

section
variable {h : Hart} {j : Journal}

/-- A journalled CSR has the mark it had (R361). -/
theorem Hart.mem_restore_cpoison {c : Nat} (hc : journalled c = true) : c ∈ (h.restore j).cpoison ↔ c ∈ j.cpoison := by
  unfold Hart.restore
  rw [mem_foldl_addSorted_iff]
  simp [hc]

theorem Hart.restore_x_inside {r : Nat} {w : Word} (hn : (j.x.map Prod.fst).Nodup) (hm : (r, w) ∈ j.x) (hr : r < 32) :
    (h.restore j).x.getD r 0 = w ∧ (h.restore j).xpoison.getLsbD r = j.xpoison.getLsbD r := by
  have hin : r ∈ j.x.map Prod.fst := List.mem_map_of_mem (f := Prod.fst) hm
  refine ⟨restoreX_inside hn hm hr, ?_⟩
  simp only [Hart.restore, BitVec.getLsbD_or, BitVec.getLsbD_and, BitVec.getLsbD_not, getLsbD_journalMask hr, hin]
  simp

theorem Hart.restore_x_outside {r : Nat} (hr : r < 32) (ho : r ∉ j.x.map Prod.fst) :
    (h.restore j).x.getD r 0 = h.x.getD r 0 ∧ (h.restore j).xpoison.getLsbD r = h.xpoison.getLsbD r := by
  refine ⟨restoreX_outside ho, ?_⟩
  simp only [Hart.restore, BitVec.getLsbD_or, BitVec.getLsbD_and, BitVec.getLsbD_not, getLsbD_journalMask hr, ho]
  simp [hr]

/-- The lineage of the hart and its vector bytes are not the journal's. -/
theorem Hart.restore_vec : (h.restore j).vec = { h.vec.restoreRegs j.vregs with
    vcfg := j.vcfg, keys := j.keys, slots := j.slots, kpoison := j.kpoison, strip := none, vpoison := (h.restore j).vec.vpoison } := rfl

theorem Hart.restore_lineage : (h.restore j).vec.pageKept = h.vec.pageKept ∧ (h.restore j).vec.replays = h.vec.replays
    ∧ (h.restore j).vec.vlimit = h.vec.vlimit := by
  rw [Hart.restore_vec, Vec.restoreRegs_eq]
  exact ⟨rfl, rfl, rfl⟩

end

theorem bumpReplays_toNat (r : BitVec 4) : (bumpReplays r).toNat = min 15 (r.toNat + 1) := by
  revert r
  decide

theorem page_of_address (v : Word) : v &&& ~~~(0xFFF : Word) = v - BitVec.ofNat 64 (v.toNat % 4096) := by
  have hlow : v &&& (0xFFF : Word) = BitVec.ofNat 64 (v.toNat % 4096) := by
    apply BitVec.eq_of_toNat_eq
    rw [BitVec.toNat_and, BitVec.toNat_ofNat, Nat.mod_eq_of_lt (by omega)]
    exact Nat.and_two_pow_sub_one_eq_mod v.toNat 12
  have hsplit : (v &&& ~~~(0xFFF : Word)) + (v &&& (0xFFF : Word)) = v := by
    rw [BitVec.add_eq_or_of_and_eq_zero, ← BitVec.and_or_distrib_left]
    · rw [show (~~~(0xFFF : Word) ||| 0xFFF) = BitVec.allOnes 64 by decide, BitVec.and_allOnes]
    · rw [BitVec.and_comm v (0xFFF : Word), ← BitVec.and_assoc, BitVec.and_assoc v, show (~~~(0xFFF : Word) &&& 0xFFF) = 0 by decide]
      simp
  rw [← hlow, eq_comm, BitVec.sub_eq_iff_eq_add, hsplit]

/-! ### The trap -/

/-- The hart of a rewinding exception, as its trap is entered (R334, R335). -/
def Hart.rewound (h : Hart) (j : Journal) (e : Exc) (n : Nat) : Hart :=
  { h.restore j with vec := (h.restore j).vec.noteRewind (rewindOf e.cause e.tval) j.vl j.pc n e.cause h.nest }

theorem foldl_setBank {α : Type} {f : State → α → State} (hf : ∀ s a, ∃ b, f s a = { s with banks := b }) (xs : List α) (s : State) :
    ∃ b, xs.foldl f s = { s with banks := b } := by
  induction xs generalizing s with
  | nil => exact ⟨s.banks, rfl⟩
  | cons a r ih =>
    obtain ⟨b, hb⟩ := hf s a
    obtain ⟨b', hb'⟩ := ih (f s a)
    exact ⟨b', by rw [List.foldl_cons, hb', hb]⟩

/-- Returning the pops of the hart whose turn it is changes banks and empties its list. -/
theorem State.returnPops_self (s : State) :
    ∃ b, s.returnPops s.cpu.num = { s with banks := b, cpu := { s.cpu with pops := [] } } := by
  obtain ⟨b, hb⟩ := foldl_setBank (f := fun t p =>
    let cl := clusterOf s.cpu.num
    let k := t.bank cl p.bank
    if k.gen = p.gen then t.setBank cl p.bank { k with popped := k.popped - p.bytes } else t) (fun t p => by
      dsimp only
      split
      · exact ⟨_, rfl⟩
      · exact ⟨t.banks, rfl⟩) (s.cpu.pops : List Pop) s
  refine ⟨b, ?_⟩
  unfold State.returnPops
  rw [getHart_self]
  dsimp only at hb ⊢
  rw [hb]
  exact modHart_self { s with banks := b } _

theorem takeTrap_rewinding {s : State} {j : Journal} {e : Exc} {bits n : Nat} (hs : s.cpu.vec.strip = some j) (hr : e.rewinds = true)
    (hm : e.mc = none) (he : e.elem = some n) (hw : s.cpu.wait = none) :
    ∃ b, s.takeTrap e bits = { s with
      banks := b, cpu := (({ s.cpu with pops := [] } : Hart).rewound j e n).enterTrap false e.cause e.tval j.pc } := by
  obtain ⟨b, hb⟩ := s.returnPops_self
  refine ⟨b, ?_⟩
  simp only [State.takeTrap, State.leaveHinge_of_no_wait hw, hm, hs, hr, he, State.rewindFor, State.rewind, hb]
  rfl

/-- What a trap's entry leaves of the restored registers. -/
theorem Hart.enterTrap_restored (h : Hart) (i : Bool) (c : Nat) (v e : Word) :
    let g := h.enterTrap i c v e
    g.frm = h.frm ∧ g.fflags = h.fflags ∧ g.rngctr = h.rngctr ∧ g.xpoison = h.xpoison ∧ g.buf = h.buf ∧ g.pops = h.pops := by
  have hd : ∀ r, Hart.delegates { h with run := r, wait := none, trap := none, posting := none, progress := 0, attempts := 0, nest := h.nest + 1, la := [] } i c = h.delegates i c :=
    fun _ => rfl
  unfold Hart.enterTrap Hart.entered
  simp only [hd, Hart.eats_frm, Hart.eats_fflags, Hart.eats_rngctr, Hart.eats_xpoison, Hart.eats_buf, Hart.eats_pops]
  cases h.delegates i c <;> simp

/-- A trap's entry takes away the marks of the CSRs it writes and no journalled one's (R361). -/
theorem Hart.mem_enterTrap_cpoison {h : Hart} {i : Bool} {c : Nat} {v e : Word} {k : Nat} (hk : journalled k = true) :
    k ∈ (h.enterTrap i c v e).cpoison ↔ k ∈ h.cpoison := by
  have hsaved (first : Nat) (hf : first = 0x141 ∨ first = 0x341) :
      k ∈ h.cpoison.filter (fun n => decide (n < first) || decide (first + 2 < n)) ↔ k ∈ h.cpoison := by
    simp only [journalled, List.contains_iff_mem, List.mem_cons, List.not_mem_nil, or_false] at hk
    simp only [List.mem_filter, Bool.or_eq_true, decide_eq_true_eq, and_iff_left_iff_imp]
    omega
  rw [Hart.enterTrap, Hart.eats_cpoison]
  cases hd : h.delegates i c
  · have : (h.entered i c v e).cpoison = h.savedClean 0x341 := congrArg Hart.cpoison (if_neg (Bool.eq_false_iff.mp hd))
    rw [this]
    exact hsaved _ (.inr rfl)
  · have : (h.entered i c v e).cpoison = h.savedClean 0x141 := congrArg Hart.cpoison (if_pos hd)
    rw [this]
    exact hsaved _ (.inl rfl)

/-- Where a rewinding exception goes, and what it saves (R332). -/
theorem Hart.rewound_trap (h : Hart) (j : Journal) (e : Exc) (n : Nat) :
    let g := (h.rewound j e n).enterTrap false e.cause e.tval j.pc
    let down := h.mode ≠ .m ∧ delegableCause e.cause = true ∧ h.csr.medeleg.getLsbD e.cause = true
    (down → g.csr.sepc = j.pc ∧ g.csr.scause = BitVec.ofNat 64 e.cause ∧ g.csr.stval = e.tval
        ∧ g.mode = .s ∧ g.pc = h.csr.stvec &&& ~~~(3 : Word) ∧ g.csr.mepc = h.csr.mepc)
      ∧ (¬down → g.csr.mepc = j.pc ∧ g.csr.mcause = BitVec.ofNat 64 e.cause ∧ g.csr.mtval = e.tval
        ∧ g.mode = .m ∧ g.pc = h.csr.mtvec &&& ~~~(3 : Word) ∧ g.csr.sepc = h.csr.sepc) := by
  intro g down
  have hword : causeWord false e.cause = BitVec.ofNat 64 e.cause := by simp [causeWord, b2n]
  have htv : ∀ t, tvecTarget t false e.cause = t &&& ~~~(3 : Word) := fun t => by simp [tvecTarget]
  have hdown : (h.rewound j e n).delegates false e.cause = true ↔ down := by
    simp [Hart.delegates, Hart.rewound, Hart.restore, down]
  refine ⟨fun hd => ?_, fun hd => ?_⟩
  · obtain ⟨hmode, hepc, hcause, htval, hpc⟩ := enterTrap_s (h.rewound j e n) false e.cause e.tval j.pc (hdown.mpr hd)
    exact ⟨hepc, hcause.trans hword, htval, hmode, hpc.trans (htv _), by unfold g; rw [enterTrap_csr_s (hdown.mpr hd)]; rfl⟩
  · have hd' : (h.rewound j e n).delegates false e.cause = false := Bool.eq_false_iff.mpr fun h => hd (hdown.mp h)
    obtain ⟨hmode, hepc, hcause, htval, hpc⟩ := enterTrap_m (h.rewound j e n) false e.cause e.tval j.pc hd'
    exact ⟨hepc, hcause.trans hword, htval, hmode, hpc.trans (htv _), by unfold g; rw [enterTrap_csr_m hd']; rfl⟩

/-- The lineage after a rewinding exception (R335). -/
theorem Hart.rewound_lineage (h : Hart) (j : Journal) (e : Exc) (n : Nat) :
    let v := (h.rewound j e n).vec
    let page := e.tval - BitVec.ofNat 64 (e.tval.toNat % 4096)
    let more := min 15 (h.vec.replays.toNat + 1)
    (e.cause ∈ [1, 5, 7, 12, 13, 15, 50] → v.pageKept = some page ∧ v.replays.toNat = more
        ∧ v.vlimit = (if h.vec.pageKept = none ∨ h.vec.pageKept = some page then j.vl else max 1 (j.vl / 2)))
      ∧ (e.cause = 26 → v.pageKept = h.vec.pageKept ∧ v.replays.toNat = more
        ∧ v.vlimit = (if h.vec.vlimit = 0 then j.vl else h.vec.vlimit)) := by
  intro v page more
  obtain ⟨hpage, hreplays, hlimit⟩ := Hart.restore_lineage (h := h) (j := j)
  have hmore : (bumpReplays (h.restore j).vec.replays).toNat = more := by rw [bumpReplays_toNat, hreplays]
  refine ⟨fun hc => ?_, fun hc => ?_⟩
  · have hk : rewindOf e.cause e.tval = .fault page := by
      rw [rewindOf, if_pos (by simpa [memCause] using hc), page_of_address]
    have hv : v = (h.restore j).vec.noteRewind (.fault page) j.vl j.pc n e.cause h.nest :=
      congrArg (fun k => (h.restore j).vec.noteRewind k j.vl j.pc n e.cause h.nest) hk
    have hkept : v.vlimit = match h.vec.pageKept with | some q => if page = q then j.vl else max 1 (j.vl / 2) | none => j.vl := by
      rw [hv, ← hpage]
      rfl
    refine ⟨by rw [hv]; rfl, by rw [hv]; exact hmore, hkept.trans ?_⟩
    cases h.vec.pageKept with
    | none => rw [if_pos (.inl rfl)]
    | some q => simp [eq_comm]
  · have hk : rewindOf e.cause e.tval = .progress := by rw [hc]; rfl
    have hv : v = (h.restore j).vec.noteRewind .progress j.vl j.pc n e.cause h.nest :=
      congrArg (fun k => (h.restore j).vec.noteRewind k j.vl j.pc n e.cause h.nest) hk
    rw [hv, ← hpage, ← hlimit]
    exact ⟨rfl, hmore, rfl⟩

/-- Settles O26. -/
theorem rewindRestoresTheJournal : Obligations.RewindRestoresTheJournal := by
  unfold Obligations.RewindRestoresTheJournal
  intro s j e bits n hs hr hm he hn hcause hw hx hv hlen h t v down
  obtain ⟨b, ht⟩ := takeTrap_rewinding (bits := bits) hs hr hm he hw
  let h' : Hart := { h with pops := [] }
  obtain ⟨htx, htf, htv, -, -⟩ := enterTrap_frame (h'.rewound j e n) false e.cause e.tval j.pc
  obtain ⟨hfrm, hflags, hctr, hxp, hbuf, hpops⟩ := (h'.rewound j e n).enterTrap_restored false e.cause e.tval j.pc
  obtain ⟨hs', hm'⟩ := h'.rewound_trap j e n
  have htc : t.cpu = (h'.rewound j e n).enterTrap false e.cause e.tval j.pc := congrArg State.cpu ht
  have hvec : v = (h'.rewound j e n).vec := (congrArg Hart.vec htc).trans htv
  have hbyte (r b : Nat) : v.byte r b = (h.vec.restoreRegs j.vregs).byte r b := by rw [hvec]; rfl
  refine ⟨(congrArg State.mem ht).trans rfl, (congrArg Hart.buf htc).trans hbuf, (congrArg Hart.pops htc).trans hpops,
    (congrArg Vec.strip hvec).trans rfl, ?_, ?_, (congrArg Hart.f htc).trans htf, (congrArg Hart.frm htc).trans hfrm,
    (congrArg Hart.fflags htc).trans hflags, (congrArg Hart.rngctr htc).trans hctr, (congrArg Vec.keys hvec).trans rfl,
    (congrArg Vec.slots hvec).trans rfl, (congrArg Vec.vcfg hvec).trans rfl, ?_, ?_, fun r w hrw hr => ?_, fun r hr ho => ?_,
    fun r bs hrb => ?_, fun r b hb ho => ?_, fun c hc => ?_, (congrArg Vec.replayPc hvec).trans rfl, ?_⟩
  · rw [htc]
    exact hs'
  · rw [htc]
    exact hm'
  · rw [hvec]
    exact (BitVec.toNat_ofNat ..).trans (Nat.mod_eq_of_lt hn)
  · rw [hvec]
    exact (BitVec.toNat_ofNat ..).trans (Nat.mod_eq_of_lt hcause)
  · rw [htc, htx, hxp]
    exact Hart.restore_x_inside (h := h') hx hrw hr
  · rw [htc, htx, hxp]
    exact Hart.restore_x_outside (h := h') hr ho
  · refine Eq.trans ?_ (Vec.bytes_restoreRegs (v := h.vec) hv hlen hrb)
    simp only [Vec.bytes, hbyte]
  · rw [hbyte]
    exact Vec.byte_restoreRegs_outside hb hlen ho
  · have hj : journalled c = true := by simpa [journalled] using hc
    rw [htc, Hart.mem_enterTrap_cpoison hj]
    exact Hart.mem_restore_cpoison hj
  · rw [hvec]
    exact h'.rewound_lineage j e n

end Sys2Proof.Machine
end

section
namespace Sys2Proof.Machine

/-! Draws: a computation that rounds components one after another takes its numbers in order (R136 to R138). -/

theorem rounded_append (u : Nat → Nat) (k : Nat) (fs gs : List (Nat → RR)) :
    rounded u k (fs ++ gs) = ((rounded u k fs).1 ++ (rounded u (rounded u k fs).2 gs).1, (rounded u (rounded u k fs).2 gs).2) := by
  induction fs generalizing k with
  | nil => rfl
  | cons f fs ih => simp only [List.cons_append, rounded, ih]

theorem length_rounded (u : Nat → Nat) (k : Nat) (fs : List (Nat → RR)) : (rounded u k fs).1.length = fs.length := by
  induction fs generalizing k with
  | nil => rfl
  | cons f fs ih => simp [rounded, ih]

/-- Roundings of which none draws use up no number. -/
theorem rounded_undrawn {u : Nat → Nat} {k : Nat} {fs : List (Nat → RR)} (h : ∀ f ∈ fs, ∀ n, (f n).drew = false) :
    (rounded u k fs).2 = k := by
  induction fs generalizing k with
  | nil => rfl
  | cons f fs ih =>
    simp only [rounded, h f List.mem_cons_self]
    exact ih fun g hg => h g (List.mem_cons_of_mem _ hg)

/-- The generator of a hart after k draws. -/
def Hart.rngAt (h : Hart) (k : Nat) : Rng := { h.rng with ctr := h.rngctr + BitVec.ofNat 64 k }

theorem Hart.rngAt_zero (h : Hart) : h.rngAt 0 = h.rng := by simp [Hart.rngAt, Hart.rng]

theorem Draw.run_bind {α β : Type} (m : Draw α) (k : α → Draw β) (g : Rng) : (m >>= k).run g = (k (m.run g).1).run (m.run g).2 := rfl

/-- A rounding with a given number, drawn from a generator. -/
def roundWith (f : Nat → RR) (g : Rng) (u : Nat) : Draw Nat := do
  if (f u).drew then set { g with ctr := g.ctr + 1 }
  return (f u).bits

theorem roundD_eq (f : Nat → RR) : roundD f = (get >>= fun g => roundWith f g (g.value.toNat % 2 ^ 32)) := rfl

theorem run_roundWith (f : Nat → RR) (g : Rng) (u : Nat) :
    (roundWith f g u).run g = ((f u).bits, if (f u).drew then { g with ctr := g.ctr + 1 } else g) := by
  unfold roundWith
  split <;> rfl

section
variable (h : Hart)

/-- One rounding: its number is used up where it draws. -/
theorem run_roundD (f : Nat → RR) (k : Nat) :
    (roundD f).run (h.rngAt k) = ((f (drawOf h k)).bits, h.rngAt (if (f (drawOf h k)).drew then k + 1 else k)) := by
  have hu : (h.rngAt k).value.toNat % 2 ^ 32 = drawOf h k := by simp only [drawOf, Hart.rngAt]
  have hstep : ({ h.rngAt k with ctr := (h.rngAt k).ctr + 1 } : Rng) = h.rngAt (k + 1) := by
    simp only [Hart.rngAt, Rng.mk.injEq, true_and, and_true]
    rw [BitVec.ofNat_add, BitVec.add_assoc]
    rfl
  rw [roundD_eq, Draw.run_bind, show (get : Draw Rng).run (h.rngAt k) = (h.rngAt k, h.rngAt k) from rfl, run_roundWith, hu, hstep]
  split <;> rfl

/-- Roundings in order. -/
theorem run_roundAll (fs : List (Nat → RR)) (k : Nat) :
    (fs.mapM roundD).run (h.rngAt k) = ((rounded (drawOf h) k fs).1, h.rngAt (rounded (drawOf h) k fs).2) := by
  induction fs generalizing k with
  | nil => rfl
  | cons f fs ih =>
    rw [List.mapM_cons, Draw.run_bind, run_roundD, Draw.run_bind, ih]
    rfl

/-- An element that a generator without poison draws is not poisoned (R361). -/
theorem run_drawn_clean {d : Draw Nat} {g g' : Rng} {x : Nat} (hg : g.bad = false) (hd : d.run g = (x, g')) :
    (drawn d false).run g = ((x, false), g') := by
  have ht : (tainted d).run g = ((x, false), g') := by
    unfold tainted
    rw [Draw.run_bind, show (get : Draw Rng).run g = (g, g) from rfl, Draw.run_bind, hd]
    show ((x, g.bad && _), g') = _
    rw [hg, Bool.false_and]
  unfold drawn
  rw [Draw.run_bind, ht]
  rfl

/-- Elements that are each made of roundings of their components, one element after another: which numbers each is made of. -/
theorem run_roundParts {α : Type} (hb : h.rngBad = false) {is : List Nat} (hn : is.Nodup) (place : Nat → α) (parts : Nat → List (Nat → RR)) {d : Nat → Draw Nat} {w : Nat}
    (hd : ∀ j, d j = joined w <$> (parts j).mapM roundD) (k : Nat) :
    ∃ bits : Nat → List Nat, is.flatMap bits = (rounded (drawOf h) k (is.flatMap parts)).1
      ∧ (∀ j ∈ is, (bits j).length = (parts j).length)
      ∧ (is.mapM fun j => do return (place j, ← drawn (d j) false)).run (h.rngAt k)
        = (is.map fun j => (place j, joined w (bits j), false), h.rngAt (rounded (drawOf h) k (is.flatMap parts)).2) := by
  induction is generalizing k with
  | nil => exact ⟨fun _ => [], rfl, nofun, rfl⟩
  | cons i is ih =>
    obtain ⟨hi, hn⟩ := List.nodup_cons.mp hn
    obtain ⟨bits, hbits, hlen, hrun⟩ := ih hn (rounded (drawOf h) k (parts i)).2
    have hother : ∀ j ∈ is, Function.update bits i (rounded (drawOf h) k (parts i)).1 j = bits j := fun j hj =>
      Function.update_of_ne (fun hji => hi (by rwa [hji] at hj)) _ _
    have hself : Function.update bits i (rounded (drawOf h) k (parts i)).1 i = (rounded (drawOf h) k (parts i)).1 :=
      Function.update_self ..
    refine ⟨Function.update bits i (rounded (drawOf h) k (parts i)).1, ?_, ?_, ?_⟩
    · rw [List.flatMap_cons, List.flatMap_cons, rounded_append, hself, ← hbits]
      exact congrArg _ (List.flatMap_congr fun j hj => hother j hj)
    · intro j hj
      rcases List.mem_cons.mp hj with rfl | hj
      · rw [hself, length_rounded]
      · rw [hother j hj, hlen j hj]
    · have hfirst : (do return (place i, ← drawn (d i) false) : Draw (α × El)).run (h.rngAt k)
          = ((place i, joined w (rounded (drawOf h) k (parts i)).1, false), h.rngAt (rounded (drawOf h) k (parts i)).2) := by
        have hd' : (d i).run (h.rngAt k)
            = (joined w (rounded (drawOf h) k (parts i)).1, h.rngAt (rounded (drawOf h) k (parts i)).2) := by
          rw [hd, StateT.run_map, run_roundAll]
          rfl
        rw [Draw.run_bind, run_drawn_clean hb hd']
        rfl
      rw [List.mapM_cons, Draw.run_bind, hfirst, Draw.run_bind, hrun, List.flatMap_cons, rounded_append, List.map_cons, hself]
      have hmap : (is.map fun j => (place j, joined w (Function.update bits i (rounded (drawOf h) k (parts i)).1 j), false))
          = is.map fun j => (place j, joined w (bits j), false) := List.map_congr_left fun j hj => by rw [hother j hj]
      rw [hmap]
      rfl

end

theorem mapM_map_congr {α β γ : Type} {l : List α} {P : α → β} {F : β → Draw γ} {G : α → Draw γ} (h : ∀ a ∈ l, F (P a) = G a) :
    (l.map P).mapM F = l.mapM G := by
  induction l with
  | nil => rfl
  | cons a l ih =>
    rw [List.map_cons, List.mapM_cons, List.mapM_cons, h a List.mem_cons_self, ih fun a ha => h a (List.mem_cons_of_mem _ ha)]

/-- A component that needs no rounding draws nothing. -/
theorem roundD_exactly (n : Nat) : roundD (exactly n) = pure n := rfl

theorem narrowVal_eq (v : Vec) (ovf : BitVec 32) (code : Nat) (x : FV) : narrowVal v ovf code x = roundD (narrowPart v ovf code x) := by
  unfold narrowVal narrowPart
  cases fmtCode code <;> rfl

theorem joined_one (w a : Nat) : joined w [a] = a := by simp [joined]

theorem joined_two (w a b : Nat) : joined w [a, b] = a + b * 2 ^ w := by simp [joined]

/-- One component makes an element as it is. -/
theorem joined_roundAll_one (w : Nat) (f : Nat → RR) : joined w <$> [f].mapM roundD = roundD f := by
  simp [joined_one]

theorem joined_roundAll_two (w : Nat) (f g : Nat → RR) :
    joined w <$> [f, g].mapM roundD = (do let re ← roundD f; let im ← roundD g; return re + im * 2 ^ w) := by
  simp [joined_two]

/-- A narrowed element is made of its components, each rounded (R217). -/
theorem Vec.narrowStore_eq (v : Vec) (ovf : BitVec 32) (code bits : Nat) :
    v.narrowStore ovf code bits = joined (partWidth code) <$> (narrowParts v ovf code bits).mapM roundD := by
  unfold Vec.narrowStore
  split
  · rw [narrowParts, joined_roundAll_one, roundD_exactly]
  · rw [narrowParts, joined_roundAll_one, roundD_exactly]
  · rw [narrowParts, joined_roundAll_one, roundD_exactly]
  · rw [narrowParts, joined_roundAll_two, narrowVal_eq, narrowVal_eq]
    rfl
  · rw [narrowParts, joined_roundAll_two, narrowVal_eq, narrowVal_eq]
    rfl
  · exact (joined_roundAll_one _ _).symm
  · rw [narrowParts, joined_roundAll_one, narrowVal_eq]
    all_goals assumption

section
variable {m : Rm} (hm : (m == .sr) = false)
include hm

theorem Fmt.narrow_undrawn (f : Fmt) (u : Nat) (fz : Bool) (o : Ovf) (x : FV) : (f.narrow m u fz o x).drew = false := by
  cases x with
  | nan => rfl
  | inf neg => rfl
  | fin neg n e =>
    simp only [Fmt.narrow, hm, Bool.and_false]
    split_ifs <;> rfl

theorem narrowInt_undrawn (n u : Nat) (x : FV) : (narrowInt n m u x).2 = false := by
  cases x with
  | nan => rfl
  | inf neg => rfl
  | fin neg k e => simp only [narrowInt, hm, Bool.and_false]

theorem toE8m0_undrawn (u : Nat) (x : FV) : (toE8m0 m u x).2 = false := by
  cases x with
  | nan => rfl
  | inf neg => rfl
  | fin neg k e =>
    simp only [toE8m0, hm, Bool.and_false]
    split_ifs <;> rfl

end

/-- Outside SR no narrowing draws (R136). -/
theorem narrowParts_undrawn {v : Vec} (hm : v.rm ≠ .sr) (ovf : BitVec 32) (code bits : Nat) :
    ∀ f ∈ narrowParts v ovf code bits, ∀ u, (f u).drew = false := by
  have hsr : (v.rm == .sr) = false := beq_eq_false_iff_ne.mpr hm
  have hpart (x : FV) (u : Nat) : (narrowPart v ovf code x u).drew = false := by
    unfold narrowPart
    split
    · exact Fmt.narrow_undrawn hsr ..
    · exact narrowInt_undrawn hsr ..
  unfold narrowParts
  split <;> simp only [List.mem_cons, List.not_mem_nil, or_false, forall_eq_or_imp, forall_eq]
  · exact fun _ => rfl
  · exact fun _ => rfl
  · exact fun _ => rfl
  · exact ⟨hpart _, hpart _⟩
  · exact ⟨hpart _, hpart _⟩
  · exact fun u => toE8m0_undrawn hsr u _
  · exact hpart _

/-! ### The checks of a vector store's elements (R216) -/

theorem runM_checked_error {α : Type} {ctr : Word} {m : M α} {s t : State} {e : Stop} (h : runM m s = (.error e, t)) :
    runM (checked ctr m) s = (.error e, { t with cpu := { t.cpu with rngctr := ctr } }) := by
  unfold checked
  rw [runM_tryCatch, h]
  rfl

/-- A failed translation for an element. -/
theorem runM_translate_elem_error {s : State} {acc : Acc} {a : Word} {f : AccFault} {e : Option Nat} (h : xlat s acc a = .error f) :
    runM (translate acc a e) s = (.error (.exc { Exc.plain f.cause a with elem := e }), s.xlatMissed acc a) := by
  unfold translate
  rw [runM_bind_ok (runM_get s), h]
  rfl

theorem parts_one {a : Word} {n : Nat} (h : a.toNat % 4096 + n ≤ 4096) : parts a n = [(a, n)] := if_pos (by omega)

section
variable {s : State} {a : Word} {n : Nat} {e : Option Nat}

theorem runM_checkParts_missed {f : AccFault} (h : xlat s .store a = .error f) :
    runM (checkParts .store false e [(a, n)]) s = (.error (.exc { Exc.plain f.cause a with elem := e }), s.xlatMissed .store a) := by
  unfold checkParts
  rw [runM_bind_error (runM_translate_elem_error h)]

variable {x : Xlat} (hx : xlat s .store a = .ok (x, s))
include hx

theorem runM_checkParts_admitted (hv : s.storeVerdict false x.pa n (s.cpu.ctx .store).mode = .ok) :
    runM (checkParts .store false e [(a, n)]) s = (.ok [(x.pa, n, a)], s.l2Ask x.pa n x.dom) := by
  unfold checkParts
  rw [runM_bind_ok (runM_translate_ok hx), runM_bind_ok (runM_get s)]
  dsimp only
  rw [hv, runM_bind_ok (runM_obey_ok ..), runM_bind_ok (runM_asks ..)]
  rfl

theorem runM_checkParts_refused {c : Nat} (hv : s.storeVerdict false x.pa n (s.cpu.ctx .store).mode = .fault c) :
    runM (checkParts .store false e [(a, n)]) s = (.error (.exc { Exc.plain c a with elem := e }), s) := by
  unfold checkParts
  rw [runM_bind_ok (runM_translate_ok hx), runM_bind_ok (runM_get s)]
  dsimp only
  rw [hv, runM_bind_error (runM_obey_fault ..)]

end

/-- Where a vector store may put an element, its region admits it. -/
theorem storeVerdict_of_storable {s : State} {pa n : Nat} {mode : Mode} (h : storable s pa) : s.storeVerdict false pa n mode = .ok := by
  rcases h with hr | ⟨c, b, off, hr, hb, hm⟩ | ⟨bus, hr, hu⟩ | ⟨t, hr, hu⟩
  · simp [State.storeVerdict, hr]
  · rcases hm with hm | hm <;> simp [State.storeVerdict, hr, hb, hm, modeScratch, modeLatch, modeCache, modeFifo]
  · simp [State.storeVerdict, hr, hu]
  · simp [State.storeVerdict, hr, hu]

/-- What refuses a vector store is its region's verdict. -/
theorem storeVerdict_of_refused {s : State} {pa n c : Nat} {mode : Mode} (h : refused s false .store pa n mode c) :
    s.storeVerdict false pa n mode = .fault c := by
  unfold refused at h
  unfold State.storeVerdict
  split at h <;> simp_all [Acc.accessCause, modeCache, modeFifo]

theorem State.asking_l2Ask (s : State) (q : List (Nat × Option (BitVec 12))) (pa n : Nat) (dom : Option (BitVec 12)) :
    ∃ q', (s.asking q).l2Ask pa n dom = s.asking q' := by
  obtain ⟨q', h⟩ := (s.asking q).l2Ask_eq_asking pa n dom
  exact ⟨q', h⟩

section
variable {s : State} {b : Nat} {addr : Nat → Word} {pa : Nat → Nat}

/-- An element that a vector store may enter: it lies in one page, which translates to an address that admits it. -/
def elemEnters (s : State) (b : Nat) (addr : Nat → Word) (pa : Nat → Nat) (j : Nat) : Prop :=
  (addr j).toNat % 4096 + b ≤ 4096 ∧ storable s (pa j) ∧ ∃ x, held s .store (addr j) x ∧ x.pa = pa j

/-- Elements that may all be entered pass, in ascending order. -/
theorem runM_checkElems_enter {is : List Nat} (hg : ∀ j ∈ is, elemEnters s b addr pa j) (q : List (Nat × Option (BitVec 12))) :
    ∃ q', runM (checkElems .store b (is.map fun i => (i, addr i))) (s.asking q)
      = (.ok (is.map fun i => (i, [(pa i, b, addr i)])), s.asking q') := by
  induction is generalizing q with
  | nil => exact ⟨q, rfl⟩
  | cons i is ih =>
    obtain ⟨hpage, hst, x, hx, hpa⟩ := hg i List.mem_cons_self
    obtain ⟨q₁, hq₁⟩ := s.asking_l2Ask q x.pa b x.dom
    obtain ⟨q₂, hq₂⟩ := ih (fun j hj => hg j (List.mem_cons_of_mem _ hj)) q₁
    refine ⟨q₂, ?_⟩
    have hv : (s.asking q).storeVerdict false x.pa b ((s.asking q).cpu.ctx .store).mode = .ok :=
      hpa ▸ storeVerdict_of_storable (s := s) hst
    have hone : runM (checkParts .store false (some i) (parts (addr i) b)) (s.asking q) = (.ok [(pa i, b, addr i)], s.asking q₁) := by
      rw [parts_one hpage, runM_checkParts_admitted (hx q) hv, hq₁, hpa]
    rw [List.map_cons, checkElems, runM_bind_ok hone, runM_bind_ok hq₂]
    rfl

/-- The first element that fails stops the checks. -/
theorem runM_checkElems_stops {pre post : List Nat} {j : Nat} {e : Stop} {leave : State → State} (hg : ∀ k ∈ pre, elemEnters s b addr pa k)
    (hs : ∀ q, runM (checkParts .store false (some j) (parts (addr j) b)) (s.asking q) = (.error e, leave (s.asking q)))
    (q : List (Nat × Option (BitVec 12))) :
    ∃ q', runM (checkElems .store b ((pre ++ j :: post).map fun i => (i, addr i))) (s.asking q) = (.error e, leave (s.asking q')) := by
  induction pre generalizing q with
  | nil =>
    refine ⟨q, ?_⟩
    rw [List.nil_append, List.map_cons, checkElems, runM_bind_error (hs q)]
  | cons i is ih =>
    obtain ⟨hpage, hst, x, hx, hpa⟩ := hg i List.mem_cons_self
    obtain ⟨q₁, hq₁⟩ := s.asking_l2Ask q x.pa b x.dom
    obtain ⟨q₂, hq₂⟩ := ih (fun j hj => hg j (List.mem_cons_of_mem _ hj)) q₁
    refine ⟨q₂, ?_⟩
    have hv : (s.asking q).storeVerdict false x.pa b ((s.asking q).cpu.ctx .store).mode = .ok :=
      hpa ▸ storeVerdict_of_storable (s := s) hst
    have hone : runM (checkParts .store false (some i) (parts (addr i) b)) (s.asking q) = (.ok [(pa i, b, addr i)], s.asking q₁) := by
      rw [parts_one hpage, runM_checkParts_admitted (hx q) hv, hq₁, hpa]
    rw [List.cons_append, List.map_cons, checkElems, runM_bind_ok hone, runM_bind_error hq₂]

end

/-! ### The stores themselves -/

section
variable {ctr : Word} {b : Nat} {pa : Nat → Nat} {addr : Nat → Word} {val : Nat → Nat}

/-- What element j leaves in the strip buffer. -/
def storeEntry (v : Vec) (b : Nat) (pa val : Nat → Nat) (j : Nat) : BufEntry := .store (pa j) (bytesOf b (val j)) v.scope false

theorem runM_storePieces_one {s : State} {j : Nat} (hv : s.cpu.isVc = true)
    (hl : (bufSectors (storeEntry s.cpu.vec b pa val j :: s.cpu.buf)).length ≤ 512) :
    runM (storePieces (val j) false j [(pa j, b, addr j)]) s
      = (.ok (), { s with cpu := { s.cpu with buf := storeEntry s.cpu.vec b pa val j :: s.cpu.buf } }) := by
  have hput : runM (putStore (pa j) (bytesOf b (val j)) s.cpu.vec.scope false (addr j) j) s
      = (.ok (), { s with cpu := { s.cpu with buf := storeEntry s.cpu.vec b pa val j :: s.cpu.buf } }) := by
    unfold putStore
    rw [runM_bind_ok (runM_get s)]
    have hl : (bufSectors (.store (pa j) (bytesOf b (val j)) s.cpu.vec.scope false :: s.cpu.buf)).length ≤ stripEntries := hl
    dsimp only
    rw [if_pos hv, if_pos hl]
    rfl
  unfold storePieces
  rw [runM_bind_ok (runM_cpu s), runM_bind_ok hput]
  rfl

theorem runM_storeEach {is : List Nat} {f : Nat → M Unit} (hf : ∀ j ∈ is, f j = storePieces (val j) false j [(pa j, b, addr j)])
    {s : State} (hv : s.cpu.isVc = true) (hd : s.cpu.doneTo = 0)
    (hl : (bufSectors ((is.map (storeEntry s.cpu.vec b pa val)).reverse ++ s.cpu.buf)).length ≤ 512) :
    runM (storeEach ctr 0 f is) s
      = (.ok (), { s with cpu := { s.cpu with buf := (is.map (storeEntry s.cpu.vec b pa val)).reverse ++ s.cpu.buf } }) := by
  induction is generalizing s with
  | nil => rfl
  | cons j is ih =>
    let t : State := { s with cpu := { s.cpu with buf := storeEntry s.cpu.vec b pa val j :: s.cpu.buf } }
    have hbuf : ((j :: is).map (storeEntry s.cpu.vec b pa val)).reverse ++ s.cpu.buf
        = (is.map (storeEntry s.cpu.vec b pa val)).reverse ++ t.cpu.buf := by simp [t]
    rw [hbuf] at hl ⊢
    have hfirst : (bufSectors t.cpu.buf).length ≤ 512 := (bufSectors_length_le (List.sublist_append_right _ _)).trans hl
    have hone : runM (f j) s = (.ok (), t) := by rw [hf j List.mem_cons_self, runM_storePieces_one hv hfirst]
    have htry (k : Stop → M Unit) : runM (tryCatch (f j) k) s = (.ok (), t) := by rw [runM_tryCatch, hone]
    have hrest := ih (s := t) (fun i hi => hf i (List.mem_cons_of_mem _ hi)) hv hd hl
    rw [storeEach, runM_bind_ok (runM_cpu s), hd]
    dsimp only
    rw [if_pos (Nat.zero_le _)]
    exact (runM_bind_ok (htry _)).trans hrest

end

/-! ### The instruction -/

/-- The registers that a plain store reads: its elements, and the indices of an indexed one. -/
def AddrForm.regs (f : AddrForm) (o : VOp) : List Nat := o.vd.toNat :: match f with | .index => [o.vs2.toNat] | _ => []

/-- The elements of some registers. -/
def Vec.groups (v : Vec) (regs : List Nat) : List (List El) := regs.map fun reg => (List.range v.vl).map (v.el reg)

theorem AddrForm.srcs_eq (f : AddrForm) (o : VOp) : .group o.vd.toNat :: f.srcs o = (f.regs o).map Opnd.group := by cases f <;> rfl

section
variable {s : State} (hr : vectorReady s.cpu)
include hr

theorem runM_readOpnds_groups (act : Nat → Nat → Bool) (k : Nat) (regs : List Nat) :
    runM (readOpnds act k (regs.map Opnd.group) []) s = (.ok ((s.cpu.vec.groups regs).map .plain), s) := by
  obtain ⟨-, -, -, -, -, -, -, -, hn⟩ := hr
  induction regs generalizing k with
  | nil => rfl
  | cons reg regs ih =>
    rw [List.map_cons, readOpnds, runM_bind_ok (runM_readOpnd_group hn (act k) []), runM_bind_ok (ih (k + 1))]
    rfl

theorem groups_clean (regs : List Nat) : ∀ es ∈ s.cpu.vec.groups regs, ∀ e ∈ es, e.2 = false := by
  simp [Vec.groups, Vec.el_of_ready hr]

theorem opAt_groups {regs : List Nat} {k reg i : Nat} (hk : regs[k]? = some reg) (hi : i < s.cpu.vec.vl) :
    opAt (s.cpu.vec.groups regs) k i = (s.cpu.vec.elem reg i, false) := by
  simp [opAt, Vec.groups, hk, hi, Vec.el_of_ready hr]

/-- Nothing that an address is made of is poisoned. -/
theorem AddrForm.psn_clean (f : AddrForm) (o : VOp) (act : List Nat) (regs : List Nat) :
    f.psn o s.cpu act ((s.cpu.vec.groups regs).getD 1 []) = false := by
  have hx (r : Reg) : s.cpu.xPoisoned r = false := by
    obtain ⟨-, -, -, -, -, hxp, -⟩ := hr
    simp [Hart.xPoisoned, hxp]
  have hix (i : Nat) : (((s.cpu.vec.groups regs).getD 1 []).getD i (0, false)).2 = false := by
    simp only [Vec.groups, List.getD_eq_getElem?_getD, List.getElem?_map]
    cases regs[1]? with
    | none => rfl
    | some reg =>
      by_cases hi : i < s.cpu.vec.vl
      · simp [hi, Vec.el_of_ready hr]
      · simp [hi]
  simp only [AddrForm.psn, hx, hix]
  simp

/-- The checks of a vector memory instruction pass on a ready core with something to do. -/
theorem runM_memVec {o : VOp} {cfg : Vec → Bool} {body : Hart → M Unit} (hc : cfg s.cpu.vec = true) (hk : s.cpu.vec.keysOk o.km false = true) :
    runM (memVec o cfg body) s = if s.cpu.vec.vl = 0 then (.ok (), s) else runM (body s.cpu) s := by
  refine (runM_vectorChecks hr _).trans ?_
  obtain ⟨-, -, -, -, -, -, -, hw, -⟩ := hr
  have hdone : s.cpu.doneTo = 0 := by rw [Hart.doneTo, hw]; rfl
  rw [runM_bind_ok (runM_cpu s), hc, hk, Bool.and_self, runM_bind_ok (runM_need_true s)]
  split
  · rfl
  · rw [hdone, allPushed_ne_zero]
    rfl

variable {f : AddrForm} {o : VOp} {addr : Nat → Word} {pa : Nat → Nat} {b : Nat} (hb : s.cpu.vec.fmtB o.fmt.toNat = b)
  (hc : f.cfg o s.cpu.vec = true) (hk : s.cpu.vec.keysOk o.km false = true) (hl : s.cpu.vec.vl ≠ 0)
  (ha : ∀ j ∈ s.cpu.vec.actives o.km, f.addr o s.cpu b j (opAt (s.cpu.vec.groups (f.regs o)) 1 j).1 = addr j)
include hb hc hk hl ha

/-- A store whose checks stop leaves what they leave, and takes what they raise. -/
theorem runM_storeVec_stops {e : Stop} {t : State} (ht : t.cpu.rngctr = s.cpu.rngctr)
    (hs : runM (checkElems .store b ((s.cpu.vec.actives o.km).map fun i => (i, addr i))) s = (.error e, t)) :
    runM (storeVec o f) s = (.error e, t) := by
  refine (runM_memVec hr hc hk).trans ((if_neg hl).trans ?_)
  have hmap : ((s.cpu.vec.actives o.km).map fun i => (i, f.addr o s.cpu b i (opAt (s.cpu.vec.groups (f.regs o)) 1 i).1))
      = (s.cpu.vec.actives o.km).map fun i => (i, addr i) := List.map_congr_left fun j hj => by rw [ha j hj]
  have hctr : ({ t with cpu := { t.cpu with rngctr := s.cpu.rngctr } } : State) = t := by rw [← ht]
  refine (runM_bind_error (t := t) (e := e) ?_)
  rw [← hctr]
  refine runM_checked_error ?_
  rw [hb, AddrForm.srcs_eq]
  refine (runM_bind_ok (runM_readOpnds_groups hr _ 0 _)).trans ?_
  refine (runM_bind_ok (runM_drawing_of (rngBad_of_ready hr) (widenAll_plain _ _ _ 0 _))).trans ?_
  rw [AddrForm.psn_clean hr, hmap]
  exact runM_bind_error hs

/-- A store whose elements all pass enters them in ascending order, each narrowed with the numbers that its components take. -/
theorem runM_storeVec_enters {u : State} {val : Nat → Nat} {c : Word} (hu : u.cpu = s.cpu)
    (hs : runM (checkElems .store b ((s.cpu.vec.actives o.km).map fun i => (i, addr i))) s
      = (.ok ((s.cpu.vec.actives o.km).map fun i => (i, [(pa i, b, addr i)])), u))
    (hd : ((s.cpu.vec.actives o.km).mapM fun j => do
        return ((j, [(pa j, b, addr j)]), ← drawn (s.cpu.vec.narrowStore s.cpu.ovf o.fmt.toNat (s.cpu.vec.elem o.vd.toNat j)) false)).run s.cpu.rng
      = ((s.cpu.vec.actives o.km).map fun j => ((j, [(pa j, b, addr j)]), val j, false), { s.cpu.rng with ctr := c }))
    (hbuf : (bufSectors (((s.cpu.vec.actives o.km).map (storeEntry s.cpu.vec b pa val)).reverse ++ s.cpu.buf)).length ≤ 512) :
    runM (storeVec o f) s = (.ok (), { u with cpu := { s.cpu with
      rngctr := c, buf := ((s.cpu.vec.actives o.km).map (storeEntry s.cpu.vec b pa val)).reverse ++ s.cpu.buf } }) := by
  let act := s.cpu.vec.actives o.km
  let ops := s.cpu.vec.groups (f.regs o)
  have hmap : (act.map fun i => (i, f.addr o s.cpu b i (opAt ops 1 i).1)) = act.map fun i => (i, addr i) :=
    List.map_congr_left fun j hj => by rw [ha j hj]
  have hlt : ∀ j ∈ act, j < s.cpu.vec.vl := fun j hj => List.mem_range.mp (List.mem_filter.mp hj).1
  obtain ⟨hvc, -, -, -, hkp, -, hovf, hwd, -⟩ := id hr
  refine (runM_memVec hr hc hk).trans ((if_neg hl).trans ?_)
  refine (runM_bind_ok (a := (ops.map Gotten.plain, ops, act.map fun i => (i, [(pa i, b, addr i)]))) (t := u) (runM_checked_ok ?_)).trans ?_
  · rw [hb, AddrForm.srcs_eq]
    refine (runM_bind_ok (runM_readOpnds_groups hr _ 0 _)).trans ?_
    refine (runM_bind_ok (runM_drawing_of (rngBad_of_ready hr) (widenAll_plain _ _ _ 0 _))).trans ?_
    rw [AddrForm.psn_clean hr, hmap]
    exact runM_bind_ok hs
  have htab (c : Bool) : (s.cpu.ovfSpoils o.fmt.toNat && c) = false := by simp [Hart.ovfSpoils, hovf]
  have hfetch (j : Nat) (hj : j ∈ act) : opAt ops 0 j = (s.cpu.vec.elem o.vd.toNat j, false) := opAt_groups hr rfl (hlt j hj)
  dsimp only
  rw [htab, anyBad_clean (groups_clean hr _), Vec.keyBadAny_clean hkp]
  refine (runM_bind_ok (runM_consume false u)).trans ?_
  have hdraw : runM (drawing ((act.map fun i => (i, [(pa i, b, addr i)])).mapM fun p => do
      return (p, ← drawn (s.cpu.vec.narrowStore s.cpu.ovf o.fmt.toNat (opAt ops 0 p.1).1) ((opAt ops 0 p.1).2 || false)))) u
      = (.ok (act.map fun j => ((j, [(pa j, b, addr j)]), val j, false)), { u with cpu := { s.cpu with rngctr := c } }) := by
    rw [mapM_map_congr fun j hj => by rw [hfetch j hj, Bool.or_false], ← hu]
    exact runM_drawing_of (hu ▸ rngBad_of_ready hr) (hu ▸ hd)
  refine (runM_bind_ok hdraw).trans ?_
  have hfind (j : Nat) (hj : j ∈ act) : (act.map fun j => ((j, [(pa j, b, addr j)]), val j, false)).find? (fun e => e.1.1 == j)
      = some ((j, [(pa j, b, addr j)]), val j, false) := by
    have hself : act.find? (fun k => k == j) = some j := by
      cases h : act.find? (fun k => k == j) with
      | none => exact absurd (beq_self_eq_true j) (by simpa using List.find?_eq_none.mp h j hj)
      | some k =>
        have hk : (k == j) = true := List.find?_some (p := fun k => k == j) h
        rw [eq_of_beq hk]
    rw [List.find?_map]
    exact congrArg (Option.map _) hself
  let t : State := { u with cpu := { s.cpu with rngctr := c } }
  have hstores := runM_storeEach (ctr := s.cpu.rngctr) (b := b) (pa := pa) (addr := addr) (val := val) (is := act)
    (f := fun i => match (act.map fun j => ((j, [(pa j, b, addr j)]), val j, false)).find? (fun e => e.1.1 == i) with
      | some e => storePieces e.2.1 e.2.2 i e.1.2
      | none => pure ()) (fun j hj => by rw [hfind j hj]) (s := t) hvc (by show s.cpu.doneTo = 0; rw [Hart.doneTo, hwd]; rfl) hbuf
  refine (runM_bind_ok ((runM_bind_ok hstores).trans (runM_modCpu _ _))).trans ?_
  rw [runM_modify, gottenPops_plain]
  have hdone : ({ t.cpu with buf := (act.map (storeEntry t.cpu.vec b pa val)).reverse ++ t.cpu.buf } : Hart).clearDone
      = { t.cpu with buf := (act.map (storeEntry t.cpu.vec b pa val)).reverse ++ t.cpu.buf } := Hart.clearDone_of_nil hwd
  exact congrArg (fun g => ((.ok (), { u with cpu := g }) : Except Stop Unit × State)) hdone

end

/-- What a failed translation leaves does not touch the generator. -/
theorem State.xlatMissed_rngctr (s : State) (acc : Acc) (a : Word) : (s.xlatMissed acc a).cpu.rngctr = s.cpu.rngctr := by
  have hm : (s.missed s.cpu.tlb s.cpu.cluster (s.cpu.ctx acc).satp a).cpu = s.cpu := by
    obtain ⟨l, hl⟩ := State.foldl_withL2 (f := fun t (k : Nat) => t.l2Fill k 2 none) (fun t k => t.l2Fill_eq k 2 none)
      (s.walked s.cpu.tlb s.cpu.cluster (s.cpu.ctx acc).satp a) s
    unfold State.missed
    rw [hl]
  unfold State.xlatMissed
  rw [State.eats_cpu, Hart.eats_rngctr, hm]

/-- The active elements before j, j, and those behind it. -/
theorem Vec.actives_split {v : Vec} {km : BitVec 3} {j : Nat} (hj : j ∈ v.actives km) :
    ∃ pre post, v.actives km = pre ++ j :: post ∧ ∀ k ∈ pre, k ∈ v.actives km ∧ k < j := by
  obtain ⟨pre, post, h⟩ := List.append_of_mem hj
  have hsorted : (v.actives km).Pairwise (· < ·) := List.pairwise_lt_range.filter _
  rw [h] at hsorted
  exact ⟨pre, post, h, fun k hk => ⟨by rw [h]; exact List.mem_append_left _ hk,
    (List.pairwise_append.mp hsorted).2.2 k hk j List.mem_cons_self⟩⟩

/-- An instruction that stores elements in a form, the address of each as the form makes it. -/
def storesAs (i : Instr) (o : VOp) (f : AddrForm) (s : State) (addr : Nat → Word) : Prop :=
  (∀ t, exec i t = instr i (storeVec o f) t) ∧ instrLen i = 6 ∧ (f = .index → s.cpu.vec.groupOk o.vs2.toNat = true)
    ∧ ∀ j, f.addr o s.cpu (s.cpu.vec.fmtB o.fmt.toNat) j (s.cpu.vec.elem o.vs2.toNat j) = addr j

/-- The plain vector stores, each with its form (R217). -/
theorem exists_storesAs {s : State} {i : Instr} {o : VOp} {addr : Nat → Word}
    (h : i = .vst o ∧ (∀ j, addr j = s.cpu.xr (BitVec.ofNat 5 o.vs1.toNat) + BitVec.ofNat 64 (j * s.cpu.vec.fmtB o.fmt.toNat))
      ∨ i = .vsts o ∧ (∀ j, addr j = s.cpu.xr (BitVec.ofNat 5 o.vs1.toNat) + BitVec.ofNat 64 j * s.cpu.xr (BitVec.ofNat 5 o.vs2.toNat))
      ∨ i = .vstx o ∧ s.cpu.vec.groupOk o.vs2.toNat = true
        ∧ (∀ j, addr j = s.cpu.xr (BitVec.ofNat 5 o.vs1.toNat) + sextWord s.cpu.vec.ew (s.cpu.vec.elem o.vs2.toNat j))) :
    ∃ f, storesAs i o f s addr := by
  rcases h with ⟨rfl, ha⟩ | ⟨rfl, ha⟩ | ⟨rfl, hg, ha⟩
  · exact ⟨.unit, fun _ => rfl, rfl, nofun, fun j => (ha j).symm⟩
  · exact ⟨.stride, fun _ => rfl, rfl, nofun, fun j => (ha j).symm⟩
  · exact ⟨.index, fun _ => rfl, rfl, fun _ => hg, fun j => (ha j).symm⟩

/-- Only an indexed form looks at the index bits. -/
theorem AddrForm.addr_congr {f : AddrForm} {o : VOp} {h : Hart} {b j x y : Nat} (hxy : f = .index → x = y) :
    f.addr o h b j x = f.addr o h b j y := by
  cases f with
  | unit => rfl
  | stride => rfl
  | index => rw [hxy rfl]

section
variable {s : State} (hr : vectorReady s.cpu) {i : Instr} {f : AddrForm} {o : VOp} {addr : Nat → Word} (hi : storesAs i o f s addr)
include hr hi

/-- The address that a form makes of the index it reads. -/
theorem storesAs_addr : ∀ j ∈ s.cpu.vec.actives o.km,
    f.addr o s.cpu (s.cpu.vec.fmtB o.fmt.toNat) j (opAt (s.cpu.vec.groups (f.regs o)) 1 j).1 = addr j := by
  obtain ⟨-, -, -, ha⟩ := hi
  intro j hj
  rw [← ha j]
  refine AddrForm.addr_congr fun hf => ?_
  subst hf
  rw [opAt_groups hr (k := 1) rfl (List.mem_range.mp (List.mem_filter.mp hj).1)]

variable (hv : fitsAll s.cpu.vec o []) (hf : s.cpu.vec.fmtOk o.fmt.toNat = true)
include hv hf

omit hr in
theorem storesAs_cfg : f.cfg o s.cpu.vec = true ∧ s.cpu.vec.keysOk o.km false = true := by
  obtain ⟨hg, -, hk⟩ := hv
  obtain ⟨-, -, hx, -⟩ := hi
  refine ⟨?_, hk⟩
  cases f with
  | unit => simp [AddrForm.cfg, hf, hg]
  | stride => simp [AddrForm.cfg, hf, hg]
  | index => simp [AddrForm.cfg, hf, hg, hx rfl]

variable {pa : Nat → Nat}

/-- Elements that all pass enter the strip buffer. -/
theorem exec_storesAs_enters
    (hbuf : ∀ raw, (bufSectors (((s.cpu.vec.actives o.km).map (storeEntry s.cpu.vec (s.cpu.vec.fmtB o.fmt.toNat) pa raw)).reverse
      ++ s.cpu.buf)).length ≤ 512)
    (hg : ∀ j ∈ s.cpu.vec.actives o.km, elemEnters s (s.cpu.vec.fmtB o.fmt.toNat) addr pa j) :
    ∃ (q : List (Nat × Option (BitVec 12))) (c : Word) (raw : Nat → Nat),
      exec i s = .next ((s.asking q).retired { s.cpu with rngctr := c, buf := ((s.cpu.vec.actives o.km).map
        (storeEntry s.cpu.vec (s.cpu.vec.fmtB o.fmt.toNat) pa raw)).reverse ++ s.cpu.buf } 6)
      ∧ drawnAs s.cpu (s.cpu.vec.actives o.km) (partWidth o.fmt.toNat)
        (fun j => narrowParts s.cpu.vec s.cpu.ovf o.fmt.toNat (s.cpu.vec.elem o.vd.toNat j)) raw c
      ∧ (s.cpu.vec.rm ≠ .sr → c = s.cpu.rngctr) := by
  let act := s.cpu.vec.actives o.km
  let ps := fun j => narrowParts s.cpu.vec s.cpu.ovf o.fmt.toNat (s.cpu.vec.elem o.vd.toNat j)
  have hn : act.Nodup := List.nodup_range.filter _
  obtain ⟨hcfg, hkeys⟩ := storesAs_cfg hi hv hf
  obtain ⟨he, hlen, -, -⟩ := id hi
  obtain ⟨bits, hbits, hlens, hrun⟩ := run_roundParts s.cpu (rngBad_of_ready hr) hn
    (place := fun j => (j, [(pa j, s.cpu.vec.fmtB o.fmt.toNat, addr j)])) (parts := ps)
    (d := fun j => s.cpu.vec.narrowStore s.cpu.ovf o.fmt.toNat (s.cpu.vec.elem o.vd.toNat j))
    (fun j => Vec.narrowStore_eq ..) 0
  rw [Hart.rngAt_zero] at hrun
  have hundrawn : s.cpu.vec.rm ≠ .sr → s.cpu.rngctr + BitVec.ofNat 64 (rounded (drawOf s.cpu) 0 (act.flatMap ps)).2 = s.cpu.rngctr := by
    intro hm
    have hnone : ∀ p ∈ act.flatMap ps, ∀ u, (p u).drew = false := fun p hp => by
      obtain ⟨j, -, hj⟩ := List.mem_flatMap.mp hp
      exact narrowParts_undrawn hm _ _ _ p hj
    rw [rounded_undrawn hnone]
    simp
  have hdrawn : drawnAs s.cpu act (partWidth o.fmt.toNat) ps (fun j => joined (partWidth o.fmt.toNat) (bits j))
      (s.cpu.rngctr + BitVec.ofNat 64 (rounded (drawOf s.cpu) 0 (act.flatMap ps)).2) :=
    ⟨rfl, bits, hbits, fun j hj => ⟨hlens j hj, rfl⟩⟩
  by_cases hl : s.cpu.vec.vl = 0
  · have hnil : act = [] := by simp [act, Vec.actives, hl]
    have hz : runM (storeVec o f) s = (.ok (), s) := (runM_memVec hr hcfg hkeys).trans (if_pos hl)
    refine ⟨s.l2.asked, _, _, ?_, hdrawn, hundrawn⟩
    rw [he, show s.cpu.vec.actives o.km = [] from hnil]
    have hsame : ({ s.cpu with rngctr := s.cpu.rngctr + BitVec.ofNat 64 (rounded (drawOf s.cpu) 0 (act.flatMap ps)).2, buf := s.cpu.buf } : Hart)
        = s.cpu := by rw [hnil]; simp [rounded]
    exact (instr_retired (t := s) (h := s.cpu) hz hlen).trans (by rw [List.map_nil, List.reverse_nil, List.nil_append, hsame])
  · obtain ⟨q, hq⟩ := runM_checkElems_enter hg s.l2.asked
    refine ⟨q, _, _, ?_, hdrawn, hundrawn⟩
    rw [he]
    exact instr_retired (t := s.asking q)
      (runM_storeVec_enters hr rfl hcfg hkeys hl (storesAs_addr hr hi) (u := s.asking q) rfl hq hrun (hbuf _)) hlen

/-- The first element that does not pass has the instruction take its exception. -/
theorem exec_storesAs_faults {j : Nat} (hj : j ∈ s.cpu.vec.actives o.km)
    (hpage : (addr j).toNat % 4096 + s.cpu.vec.fmtB o.fmt.toNat ≤ 4096)
    (hg : ∀ k ∈ s.cpu.vec.actives o.km, k < j → elemEnters s (s.cpu.vec.fmtB o.fmt.toNat) addr pa k) :
    elementFaults s i .store (addr j) j (s.cpu.vec.fmtB o.fmt.toNat) (pa j) := by
  obtain ⟨hcfg, hkeys⟩ := storesAs_cfg hi hv hf
  obtain ⟨he, -⟩ := id hi
  have hl : s.cpu.vec.vl ≠ 0 := Nat.ne_of_gt (Nat.zero_lt_of_lt (List.mem_range.mp (List.mem_filter.mp hj).1))
  obtain ⟨pre, post, hact, hpre⟩ := Vec.actives_split hj
  have stops {e : Exc} {leave : State → State} (hctr : ∀ t, (leave t).cpu.rngctr = t.cpu.rngctr)
      (hs : ∀ q, runM (checkParts .store false (some j) (parts (addr j) (s.cpu.vec.fmtB o.fmt.toNat))) (s.asking q)
        = (.error (.exc e), leave (s.asking q))) :
      ∃ q, exec i s = .next ((leave (s.asking q)).takeTrap e (instrBits i).toNat) := by
    obtain ⟨q, hq⟩ := runM_checkElems_stops (fun k hk => hg k (hpre k hk).1 (hpre k hk).2) (post := post) hs s.l2.asked
    rw [← hact] at hq
    refine ⟨q, ?_⟩
    rw [he]
    exact instr_exc (runM_storeVec_stops hr rfl hcfg hkeys hl (storesAs_addr hr hi) (hctr _) hq)
  rw [parts_one hpage] at stops
  constructor
  · intro e hx
    exact stops (leave := (·.xlatMissed .store (addr j))) (fun t => t.xlatMissed_rngctr _ _) fun q => runM_checkParts_missed (hx q)
  · intro x cause hx hpa href
    rw [← hpa] at href
    have hverdict (q : List (Nat × Option (BitVec 12))) :
        (s.asking q).storeVerdict false x.pa (s.cpu.vec.fmtB o.fmt.toNat) ((s.asking q).cpu.ctx .store).mode = .fault cause :=
      storeVerdict_of_refused (s := s) href
    exact stops (leave := id) (fun _ => rfl) fun q => runM_checkParts_refused (hx q) (hverdict q)

end

/-- Settles O42: a store checks its elements in ascending order; the first that fails stops it, and where all pass each is narrowed
with the next numbers of the generator and entered. -/
theorem vectorStoresEnterTheStripBuffer : Obligations.VectorStoresEnterTheStripBuffer := by
  intro s i o addr pa h v code b base act entries good hform hr hv hf _
  obtain ⟨f, hi⟩ := exists_storesAs hform
  exact ⟨exec_storesAs_enters hr hi hv hf, fun j hj => exec_storesAs_faults hr hi hv hf hj⟩

end Sys2Proof.Machine
end

section
namespace Sys2Proof.Machine

/-! What the end of a task, with all that the deadline queue unit makes of it, leaves of a hart that does not end it, and of the RESULT
of each job (R47, R50, R61, R68, R75). -/

/-- What becomes of hart h while others end and start tasks: g. One with empty slots starts nothing, so an idle one stays idle; a running
one keeps its task and its context; one with nothing buffered that waits for nothing stays so. -/
structure Hart.Later (h g : Hart) : Prop where
  prefetch : h.prefetch = [] → g.prefetch = []
  idle : h.prefetch = [] → h.run = .idle → g.run = .idle
  busy : ∀ r, h.task = some r → (∃ u, g.task = some u ∧ u.mcAt = r.mcAt) ∧ g.buf = h.buf ∧ g.pops = h.pops ∧ g.vec = h.vec
  calm : h.buf = [] → h.wait = none → g.buf = [] ∧ g.wait = none

theorem Hart.Later.refl (h : Hart) : h.Later h := ⟨id, fun _ => id, fun r hr => ⟨⟨r, hr, rfl⟩, rfl, rfl, rfl⟩, fun hb hw => ⟨hb, hw⟩⟩

theorem Hart.Later.trans {h g k : Hart} (a : h.Later g) (b : g.Later k) : h.Later k where
  prefetch := b.prefetch ∘ a.prefetch
  idle hp hi := b.idle (a.prefetch hp) (a.idle hp hi)
  busy r hr := by
    obtain ⟨⟨u, hu, hm⟩, hb, hp, hv⟩ := a.busy r hr
    obtain ⟨⟨w, hw, hm'⟩, hb', hp', hv'⟩ := b.busy u hu
    exact ⟨⟨w, hw, hm'.trans hm⟩, hb'.trans hb, hp'.trans hp, hv'.trans hv⟩
  calm hb hw := by
    obtain ⟨hb', hw'⟩ := a.calm hb hw
    exact b.calm hb' hw'

/-- A hart whose task, wait, buffer and vector unit are as they were, and which gets no slot. -/
theorem Hart.Later.of_eq {h g : Hart} (hr : g.run = h.run) (hw : g.wait = h.wait) (hb : g.buf = h.buf) (hp : g.pops = h.pops)
    (hv : g.vec = h.vec) (hq : h.prefetch = [] → g.prefetch = []) : h.Later g where
  prefetch := hq
  idle _ hi := hr.trans hi
  busy r ht := ⟨⟨r, by rw [Hart.task, hr]; exact ht, rfl⟩, hb, hp, hv⟩
  calm hb' hw' := ⟨hb.trans hb', hw.trans hw'⟩

/-- Hart n and the results of the jobs on the way from s to t. -/
structure State.Spares (n : Nat) (s t : State) : Prop where
  num : (s.getHart n).num = n → (t.getHart n).num = n
  hart : (s.getHart n).Later (t.getHart n)
  results : ∀ id, (t.job? id).map Job.result = (s.job? id).map Job.result

section
variable {n : Nat} {s₀ s : State}

theorem State.Spares.refl (s : State) : s.Spares n s := ⟨id, .refl _, fun _ => rfl⟩

theorem State.Spares.trans {s t u : State} (a : s.Spares n t) (b : t.Spares n u) : s.Spares n u :=
  ⟨b.num ∘ a.num, a.hart.trans b.hart, fun id => (b.results id).trans (a.results id)⟩

/-- What touches neither hart n nor the jobs. -/
theorem State.Spares.of_same {t : State} (hg : t.getHart n = s.getHart n) (hj : t.dqu.jobs = s.dqu.jobs) : s.Spares n t where
  num := by rw [hg]; exact id
  hart := by rw [hg]; exact .refl _
  results id := by rw [State.job?, hj]; rfl

theorem State.Spares.of_parts {t : State} (hc : t.cpu = s.cpu) (hp : t.parked = s.parked) (he : t.entry = s.entry)
    (hj : t.dqu.jobs = s.dqu.jobs) : s.Spares n t :=
  .of_same (by simp only [State.getHart, State.freshHart, hc, hp, he]) hj

theorem State.spares_foldl {α : Type} {f : State → α → State} (hf : ∀ (s : State) (a : α), s.Spares n (f s a)) (l : List α) (s : State) :
    s.Spares n (l.foldl f s) := by
  induction l generalizing s with
  | nil => exact .refl s
  | cons a l ih => exact (hf s a).trans (ih _)

/-! ### Harts -/

theorem State.getHart_setHart (s : State) (h : Hart) : (s.setHart h).getHart n = if n = h.num then h else s.getHart n := by
  unfold State.setHart
  split
  next e =>
    simp only [State.getHart, e]
    split <;> rfl
  next e =>
    simp only [State.getHart, tabGet_insert, State.freshHart]
    split_ifs <;> simp_all

theorem State.getHart_modHart (s : State) (m : Nat) (f : Hart → Hart) :
    (s.modHart m f).getHart n = if n = m then { f (s.getHart m) with num := m } else s.getHart n := s.getHart_setHart _

theorem State.setHart_dqu (s : State) (h : Hart) : (s.setHart h).dqu = s.dqu := by
  unfold State.setHart
  split <;> rfl

theorem State.modHart_dqu (s : State) (m : Nat) (f : Hart → Hart) : (s.modHart m f).dqu = s.dqu := s.setHart_dqu _

/-- A change of one hart that lets it go on. -/
theorem State.spares_modHart {f : Hart → Hart} (hf : ∀ h : Hart, h.Later (f h)) (s : State) (m : Nat) : s.Spares n (s.modHart m f) := by
  refine ⟨?_, ?_, fun id => by rw [State.job?, State.modHart_dqu]; rfl⟩
  · rw [State.getHart_modHart]
    split
    next e => exact fun _ => e.symm
    · exact id
  · rw [State.getHart_modHart]
    split
    next e =>
      subst e
      obtain ⟨hp, hi, hb, hc⟩ := hf (s.getHart n)
      exact ⟨hp, hi, hb, hc⟩
    · exact .refl _

/-- A change of another hart. -/
theorem State.spares_modHart_ne {m : Nat} (hm : n ≠ m) (f : Hart → Hart) (s : State) : s.Spares n (s.modHart m f) :=
  .of_same (by rw [State.getHart_modHart, if_neg hm]) (by rw [State.modHart_dqu])

/-- A change of every hart that leaves the number of each. -/
theorem State.getHart_mapHarts {f : Hart → Hart} (hn : ∀ h, (f h).num = h.num) (s : State) :
    (s.mapHarts f).getHart n = f (s.getHart n) ∨ (s.mapHarts f).getHart n = s.getHart n := by
  have e := tabGet_map (Option.map f) none s.parked n
  rw [Option.map_none] at e
  unfold State.getHart
  show (if n = (f s.cpu).num then f s.cpu else (tabGet none (s.parked.map fun p => (p.1, p.2.map f)) n).getD (s.freshHart n)) = _ ∨
    (if n = (f s.cpu).num then f s.cpu else (tabGet none (s.parked.map fun p => (p.1, p.2.map f)) n).getD (s.freshHart n)) = _
  rw [hn, e]
  split
  · exact .inl rfl
  · cases tabGet none s.parked n with
    | none => exact .inr rfl
    | some h => exact .inl rfl

theorem State.spares_mapHarts {f : Hart → Hart} (hn : ∀ h, (f h).num = h.num) (hf : ∀ h : Hart, h.Later (f h)) (s : State) :
    s.Spares n (s.mapHarts f) := by
  refine ⟨?_, ?_, fun _ => rfl⟩
  · rcases State.getHart_mapHarts (n := n) hn s with e | e
    · rw [e, hn]; exact id
    · rw [e]; exact id
  · rcases State.getHart_mapHarts (n := n) hn s with e | e
    · rw [e]; exact hf _
    · rw [e]; exact .refl _

theorem Hart.loseResv_later (h : Hart) (who : Option Nat) (pa k : Nat) : h.Later (h.loseResv who pa k) := by
  unfold Hart.loseResv
  split
  · split
    · exact .of_eq rfl rfl rfl rfl rfl id
    · exact .refl h
  · exact .refl h

theorem Hart.countFell_later (id : Nat) (h : Hart) : h.Later (h.countFell id) := by
  unfold Hart.countFell
  split
  · split
    · exact .of_eq rfl rfl rfl rfl rfl (·)
    · exact .refl h
  · exact .refl h

/-! ### Writes of the device, and messages (R80, R84, R190, R297) -/

theorem State.spares_rawWrite (s : State) (who : Option Nat) (pa : Nat) (data : List Byte) (bad : Bool) :
    s.Spares n (s.rawWrite who pa data bad) := by
  unfold State.rawWrite
  dsimp only
  split
  · refine State.Spares.trans ?_ (State.spares_mapHarts (fun h => (h.loseResv_keeps who pa data.length).1) (fun h => h.loseResv_later who pa data.length) _)
    exact .of_parts rfl rfl rfl rfl
  · exact .of_parts rfl rfl rfl rfl

theorem State.spares_visWrite (s : State) (pa : Nat) (data : List Byte) (bad : Bool) : s.Spares n (s.visWrite none pa data bad) := by
  obtain ⟨l, hl⟩ := (s.rawWrite none pa data bad).l2Wrote_eq pa data.length none
  refine (s.spares_rawWrite none pa data bad).trans ?_
  show State.Spares n _ ((s.rawWrite none pa data bad).l2Wrote pa data.length none)
  rw [hl]
  exact .of_parts rfl rfl rfl rfl

theorem State.spares_devWrite (s : State) (pa : Nat) (data : List Byte) (bad : Bool) : s.Spares n (s.devWrite pa data bad) := by
  unfold State.devWrite
  split
  · exact s.spares_visWrite ..
  · dsimp only
    split
    · exact .of_parts rfl rfl rfl rfl
    · split
      · exact s.spares_visWrite ..
      · exact .refl s
  · split
    · exact .of_parts rfl rfl rfl rfl
    · exact .refl s
  · exact .refl s

theorem State.spares_bumpSat (s : State) (off w : Nat) : s.Spares n (s.bumpSat off w) := by
  unfold State.bumpSat
  dsimp only
  split
  · exact .refl s
  · exact .of_parts rfl rfl rfl rfl

theorem State.spares_sendCapped (s : State) (k : MsgKind) (cap c m q : Nat) (data : List Byte) :
    s.Spares n (s.sendCapped k cap c m q data) := by
  unfold State.sendCapped
  split
  · exact .of_parts rfl rfl rfl rfl
  · exact .refl s

theorem State.spares_mmioSet (s : State) (off : Nat) (reset v : Word) : s.Spares n (s.mmioSet off reset v) := .of_parts rfl rfl rfl rfl

theorem State.spares_hostWrite (s : State) (a : Nat) (data : List Byte) : s.Spares n (s.hostWrite a data) := .of_parts rfl rfl rfl rfl

theorem State.spares_charge (s : State) (d field : Nat) (rcb : Word) : s.Spares n (s.charge d field rcb) := by
  unfold State.charge
  extract_lets v c u nt
  have hu : s.Spares n u := s.spares_mmioSet ..
  split
  · exact hu
  · exact hu.trans (u.spares_sendCapped ..)

theorem State.spares_ringRecord (s : State) (h : Nat) (record : List Byte) : s.Spares n (s.ringRecord h record) := by
  unfold State.ringRecord
  extract_lets cfg prod cons k cword t u p q
  have ht : s.Spares n t := s.spares_hostWrite ..
  have hu : t.Spares n u := t.spares_mmioSet ..
  split
  · exact s.spares_mmioSet ..
  · split
    · exact .refl s
    · exact ht.trans (hu.trans (.of_parts rfl rfl rfl rfl))

theorem State.spares_sendCompletion (s : State) (j : Job) (t : Nat) : s.Spares n (s.sendCompletion j t) := by
  unfold State.sendCompletion
  dsimp only
  split
  · split
    · exact .of_parts rfl rfl rfl rfl
    · split
      · exact .of_parts rfl rfl rfl rfl
      · exact s.spares_bumpSat ..
  · exact s.spares_ringRecord ..
  · exact .refl s

theorem State.spares_completeJob (s : State) (id : Nat) (j : Job) (t : Nat) : s.Spares n (s.completeJob id j t) := by
  unfold State.completeJob
  split
  · dsimp only
    split
    · exact .of_parts rfl rfl rfl rfl
    · exact s.spares_sendCompletion ..
  · exact s.spares_sendCompletion ..

theorem State.spares_efPut (s : State) (c : Nat) (bs : List Byte) : s.Spares n (s.efPut c bs) := by
  unfold State.efPut
  dsimp only
  split
  · exact (s.spares_devWrite ..).trans (.of_parts rfl rfl rfl rfl)
  · exact (s.spares_devWrite ..).trans (.of_parts rfl rfl rfl rfl)

theorem State.spares_portEvent (s : State) (code unit : Nat) : s.Spares n (s.portEvent code unit) := by
  unfold State.portEvent
  split
  · exact .refl s
  · exact s.spares_sendCapped ..

theorem State.spares_faultRecord (s : State) (c : Nat) (f : FaultRec) : s.Spares n (s.faultRecord c f) := by
  unfold State.faultRecord
  dsimp only
  split
  · exact s.spares_efPut ..
  · split
    · exact .of_parts rfl rfl rfl rfl
    · split
      · exact (s.spares_bumpSat ..).trans (State.spares_portEvent ..)
      · exact s.spares_bumpSat ..

/-! ### Jobs (R36, R40, R47) -/

/-- A job that keeps its result is stored. -/
theorem State.spares_putJob {id : Nat} {j : Job} (hj : (s.job? id).map Job.result = some j.result) : s.Spares n (s.putJob id j) := by
  refine State.Spares.trans (t := { s with dqu := { s.dqu with jobs := tabInsert s.dqu.jobs id (some j) } }) ⟨(·), .refl _, fun k => ?_⟩
    (State.spares_devWrite ..)
  show (tabGet none (tabInsert s.dqu.jobs id (some j)) k).map Job.result = _
  rw [tabGet_insert]
  split
  next e => rw [e, hj]; rfl
  · rfl

theorem State.spares_modJob {f : Job → Job} (hf : ∀ j, (f j).result = j.result) (s : State) (id : Nat) : s.Spares n (s.modJob id f) := by
  unfold State.modJob
  split
  next j hj =>
    split
    · exact .refl s
    · exact State.spares_putJob (by rw [hj, hf]; rfl)
  · exact .refl s

theorem State.spares_emptyCont (s : State) (id : Nat) : s.Spares n (s.emptyCont id) := by
  unfold State.emptyCont State.setCont
  split
  · exact .refl s
  next j hj => exact (State.spares_putJob (by rw [hj]; rfl)).trans (State.spares_devWrite ..)

theorem State.spares_finalize (s : State) (id : Nat) (st : BitVec 8) (t : Nat) : s.Spares n (s.finalize id st t) := by
  unfold State.finalize
  split
  · exact .refl s
  next j hj =>
    exact (State.spares_putJob (by rw [hj]; rfl)).trans ((State.spares_devWrite ..).trans
      ((State.spares_devWrite ..).trans (State.spares_completeJob ..)))

theorem State.spares_nextSeq (s : State) : s.Spares n s.nextSeq := .of_parts rfl rfl rfl rfl

theorem State.spares_enqueue (s : State) (job tidx : Nat) (d : Desc) (seq : Nat) : s.Spares n (s.enqueue job tidx d seq) :=
  .of_parts rfl rfl rfl rfl

theorem State.spares_settle (fuel : Nat) (s : State) (id : Nat) : s.Spares n (State.settle fuel s id) := by
  induction fuel generalizing s id with
  | zero => exact .refl s
  | succ fuel ih =>
    simp only [State.settle]
    split
    · exact .refl s
    next j hj =>
      have hput (c : Nat) (w : Bool) (q : Nat) : s.Spares n (s.putJob id { j with count := c, contDue := w, contSeq := q }) :=
        State.spares_putJob (by rw [hj]; rfl)
      have up (st : BitVec 8) (t : Nat) (flag : Bool) : s.Spares n (match j.parent with
          | none => s.finalize id st t
          | some p => State.settle fuel (((s.finalize id st t).mapHarts (Hart.countFell p)).modJob p fun q =>
              { q with count := q.count - 1, abchild := q.abchild || flag }) p) := by
        have hfinal := s.spares_finalize (n := n) id st t
        split
        · exact hfinal
        next p _ =>
          refine hfinal.trans (State.Spares.trans ?_ (State.Spares.trans (State.spares_modJob ?_ _ p) (ih _ p)))
          · exact State.spares_mapHarts (fun h => (h.countFell_keeps p).1) (Hart.countFell_later p) _
          · exact fun _ => rfl
      split
      · exact .refl s
      · split
        · exact up _ _ _
        · split
          · split
            · exact (hput _ _ _).trans (State.spares_nextSeq _)
            · exact (hput _ _ _).trans ((State.spares_nextSeq _).trans ((State.spares_enqueue ..).trans (State.spares_emptyCont ..)))
          · exact up _ _ _

theorem State.spares_countDown (s : State) (id k : Nat) : s.Spares n (s.countDown id k) := by
  unfold State.countDown
  split
  · exact .refl s
  next j hj =>
    refine (State.spares_mapHarts (fun h => (h.countFell_keeps id).1) (Hart.countFell_later id) s).trans
      (State.Spares.trans (State.spares_putJob ?_) (State.spares_settle ..))
    show (s.job? id).map Job.result = _
    rw [hj]
    rfl

/-! ### The queue (R61, R62, R64) -/

theorem State.spares_recall (s : State) (id : Nat) : s.Spares n (s.recall id) := by
  unfold State.recall
  split
  · exact .refl s
  · refine (State.spares_foldl (fun s m => State.spares_modHart (fun h => ?_) s m) _ s).trans (.of_parts rfl rfl rfl rfl)
    exact .of_eq rfl rfl rfl rfl rfl fun hp => by rw [hp]; rfl

theorem State.spares_dropTask (s : State) (id : Nat) : s.Spares n (s.dropTask id) := (s.spares_recall id).trans (.of_parts rfl rfl rfl rfl)

theorem State.spares_reserveNext (s : State) (k : Nat) : s.Spares n (s.reserveNext k) := by
  unfold State.reserveNext
  split
  · unfold State.reserve
    extract_lets before
    split_ifs
    · exact .refl s
    · exact (State.spares_foldl (fun s (t : QTask) => s.spares_recall t.id) _ s).trans (.of_parts rfl rfl rfl rfl)
  · exact .refl s

theorem State.spares_trimDeficits (s : State) : s.Spares n s.trimDeficits := .of_parts rfl rfl rfl rfl

/-! ### Starts (R42, R49, R61, R64) -/

theorem Hart.task_of_free {h : Hart} (hf : h.free = true) : h.task = none := by
  unfold Hart.free at hf
  unfold Hart.task
  split at hf <;> simp_all

/-- A free hart with a slot that starts what it holds. -/
theorem State.Spares.of_start {t : State} (hf : (s.getHart n).free = true) (hp : (s.getHart n).prefetch ≠ [])
    (hb : (t.getHart n).buf = []) (hw : (t.getHart n).wait = none) (hn : (t.getHart n).num = n)
    (hr : ∀ id, (t.job? id).map Job.result = (s.job? id).map Job.result) : s.Spares n t where
  num _ := hn
  hart := {
    prefetch := fun h => absurd h hp
    idle := fun h => absurd h hp
    busy := fun r h => by rw [Hart.task_of_free hf] at h; cases h
    calm := fun _ _ => ⟨hb, hw⟩ }
  results := hr

theorem State.startOn_dqu (s : State) (t : QTask) (j : Job) (m : Nat) : (s.startOn t j m).dqu = s.dqu := by
  unfold State.startOn
  extract_lets b u
  split <;> exact State.modHart_dqu ..

theorem State.spares_startOn_ne {m : Nat} (hm : n ≠ m) (s : State) (t : QTask) (j : Job) : s.Spares n (s.startOn t j m) := by
  unfold State.startOn
  extract_lets b u
  have hu : s.Spares n u := State.spares_modHart_ne hm ..
  split
  · exact hu.trans (.of_parts rfl rfl rfl rfl)
  · exact hu

theorem State.getHart_startOn (s : State) (t : QTask) (j : Job) (m : Nat) :
    ∃ b c, (s.startOn t j m).getHart m = { (s.getHart m).startTask j t b c s.cycles with num := m } := by
  refine ⟨(s.taskBudget j m).1, (s.taskBudget j m).2, ?_⟩
  have hu : (s.modHart m fun h => h.startTask j t (s.taskBudget j m).1 (s.taskBudget j m).2 s.cycles).getHart m
      = { (s.getHart m).startTask j t (s.taskBudget j m).1 (s.taskBudget j m).2 s.cycles with num := m } := by
    rw [State.getHart_modHart, if_pos rfl]
  rw [← hu]
  unfold State.startOn
  dsimp only
  split <;> rfl

/-- Cores that start a task have nothing buffered and wait for nothing; others are spared. -/
theorem State.startAll_calm (t : QTask) (j : Job) (l : List Nat) (s : State) :
    (n ∈ l ∨ (s.getHart n).buf = [] ∧ (s.getHart n).wait = none ∧ (s.getHart n).num = n) →
      let u := l.foldl (fun s m => s.startOn t j m) s
      (u.getHart n).buf = [] ∧ (u.getHart n).wait = none ∧ (u.getHart n).num = n := by
  induction l generalizing s with
  | nil => exact fun h => h.resolve_left List.not_mem_nil
  | cons m l ih =>
    intro h
    refine ih (s.startOn t j m) ?_
    by_cases hm : n = m
    · subst hm
      obtain ⟨b, c, e⟩ := s.getHart_startOn t j n
      rw [e]
      exact .inr ⟨rfl, rfl, rfl⟩
    · rcases h with h | ⟨hb, hw, hn⟩
      · exact .inl ((List.mem_cons.mp h).resolve_left hm)
      · have hs := State.spares_startOn_ne hm s t j
        obtain ⟨hb', hw'⟩ := hs.hart.calm hb hw
        exact .inr ⟨hb', hw', hs.num hn⟩

theorem State.spares_startAll {l : List Nat} (hl : n ∉ l) (t : QTask) (j : Job) (s : State) :
    s.Spares n (l.foldl (fun s m => s.startOn t j m) s) := by
  induction l generalizing s with
  | nil => exact .refl s
  | cons m l ih =>
    rw [List.mem_cons, not_or] at hl
    exact (State.spares_startOn_ne hl.1 s t j).trans (ih hl.2 _)

theorem State.startAll_dqu (t : QTask) (j : Job) (l : List Nat) (s : State) :
    (l.foldl (fun s m => s.startOn t j m) s).dqu = s.dqu := by
  induction l generalizing s with
  | nil => rfl
  | cons m l ih => exact (ih _).trans (s.startOn_dqu t j m)

/-- Tasks that start on free cores which hold them. -/
theorem State.spares_starts {l : List Nat} {id : Nat} (t : QTask) (j : Job) (s : State)
    (hl : ∀ m ∈ l, (s.getHart m).free = true ∧ (s.getHart m).prefetch ≠ []) :
    s.Spares n (l.foldl (fun s m => s.startOn t j m) (s.dropTask id)) := by
  have hdrop : s.Spares n (s.dropTask id) := s.spares_dropTask id
  by_cases hn : n ∈ l
  · obtain ⟨hf, hp⟩ := hl n hn
    obtain ⟨hb, hw, hnum⟩ := State.startAll_calm (n := n) t j l (s.dropTask id) (.inl hn)
    refine .of_start hf hp hb hw hnum fun k => ?_
    rw [← hdrop.results k, State.job?, State.startAll_dqu]
    rfl
  · exact hdrop.trans (State.spares_startAll hn t j _)

theorem State.spares_startNext (s : State) (m : Nat) : s.Spares n (s.startNext m) := by
  unfold State.startNext
  dsimp only
  split
  · exact .refl s
  next id rest hpre =>
    split
    · exact .refl s
    · split
      · exact .refl s
      · split
        · exact .refl s
        next hgo =>
          have hfree : (s.getHart m).free = true := by
            simp only [Bool.or_eq_true, not_or, Bool.not_eq_true'] at hgo
            simpa using hgo.1.1.1.1.1
          split
          · split
            next hall =>
              refine (State.spares_starts _ _ s fun k hk => ?_).trans ((State.spares_reserveNext ..).trans (State.spares_trimDeficits _))
              have := List.all_eq_true.mp hall k hk
              simp only [Bool.and_eq_true, List.contains_eq_mem, decide_eq_true_eq] at this
              exact ⟨this.1, List.ne_nil_of_mem this.2⟩
            · exact .refl s
          · refine (State.spares_starts (l := [m]) _ _ s fun k hk => ?_).trans (State.spares_trimDeficits _)
            rw [List.mem_singleton.mp hk, hpre]
            exact ⟨hfree, List.cons_ne_nil _ _⟩

/-! ### The end of a task (R50, R74) -/

/-- A core that has given up its task: h before, g now. With empty slots it is idle. -/
structure Hart.Gone (h g : Hart) : Prop where
  buf : g.buf = []
  wait : g.wait = none
  prefetch : h.prefetch = [] → g.prefetch = []
  idle : h.prefetch = [] → g.run = .idle

theorem Hart.Gone.later {h g k : Hart} (a : h.Gone g) (b : g.Later k) : h.Gone k where
  buf := (b.calm a.buf a.wait).1
  wait := (b.calm a.buf a.wait).2
  prefetch hp := b.prefetch (a.prefetch hp)
  idle hp := b.idle (a.prefetch hp) (a.idle hp)

theorem Hart.Gone.of_prefetch {h g k : Hart} (hp : h.prefetch = [] → g.prefetch = []) (b : g.Gone k) : h.Gone k :=
  ⟨b.buf, b.wait, b.prefetch ∘ hp, b.idle ∘ hp⟩

/-- The core without the context of its task. -/
def Hart.left (h : Hart) : Hart := { h with
  run := .idle, wait := none, trap := none, posting := none, nest := 0, chkPend := [], buf := [], pops := [], matFaults := []
  la := [], winDone := [], resv := none, jobrcb := 0, vec := { h.vec.atTask with lanes := h.vec.lanes }, progress := 0, attempts := 0 }

theorem Hart.gangEnded_later (k : Nat) (bad : Bool) (h : Hart) : h.Later (h.gangEnded k bad) := by
  unfold Hart.gangEnded
  split
  next t ht =>
    refine ⟨id, fun _ hi => ?_, fun r hr => ⟨⟨_, rfl, ?_⟩, rfl, rfl, rfl⟩, fun hb hw => ⟨hb, hw⟩⟩
    · rw [ht] at hi; cases hi
    · have : some t = some r := by rw [← hr, Hart.task, ht]
      rw [Option.some.inj this]
  · exact .refl h

/-- Once a core has given up its task, what follows spares every hart. -/
theorem State.spares_finishTask {m : Nat} {r : TaskRun} (ht : (s.getHart m).task = some r) :
    (s.modHart m Hart.left).Spares n (s.finishTask m none) := by
  unfold State.finishTask
  extract_lets h dom bad u k row v
  split
  next hn => exact absurd (ht.symm.trans hn) nofun
  next t _ =>
    extract_lets gang w x dqu y z
    have hv : State.Spares n (s.modHart m Hart.left) v := by
      unfold v
      split
      · exact .of_parts rfl rfl rfl rfl
      · exact .refl u
    have hw : v.Spares n w := by
      unfold w
      split
      · split
        · exact v.spares_charge ..
        · exact .refl v
      · exact State.spares_foldl (fun s k => s.spares_modHart (Hart.gangEnded_later _ _) k) _ v
    have hx : w.Spares n x := by
      refine State.spares_modJob ?_ w t.job
      exact fun _ => rfl
    have hy : x.Spares n y := by
      unfold y
      split
      · split
        · exact .of_parts rfl rfl rfl rfl
        · exact .refl x
      · exact .refl x
    have hz : y.Spares n z := by
      unfold z
      split
      · exact y.spares_countDown ..
      · exact .refl y
    exact hv.trans (hw.trans (hx.trans (hy.trans (hz.trans ((State.spares_trimDeficits z).trans (State.spares_startNext ..))))))

/-- The core that ends its task. -/
theorem State.finishTask_gone {r : TaskRun} (ht : (s.getHart n).task = some r) :
    (s.getHart n).Gone ((s.finishTask n none).getHart n) := by
  have hleft : (s.getHart n).Gone ((s.modHart n Hart.left).getHart n) := by
    rw [State.getHart_modHart, if_pos rfl]
    exact ⟨rfl, rfl, id, fun _ => rfl⟩
  exact hleft.later (State.spares_finishTask ht).hart

/-- Another core's end of a task. -/
theorem State.spares_finishTask_ne {m : Nat} (hm : n ≠ m) (s : State) : s.Spares n (s.finishTask m none) := by
  cases ht : (s.getHart m).task with
  | none =>
    rw [show s.finishTask m none = s by simp [State.finishTask, ht]]
    exact .refl s
  | some r => exact (State.spares_modHart_ne hm _ s).trans (State.spares_finishTask ht)

theorem State.finishTask_results {r : TaskRun} {m : Nat} (ht : (s.getHart m).task = some r) (id : Nat) :
    ((s.finishTask m none).job? id).map Job.result = (s.job? id).map Job.result := by
  rw [(State.spares_finishTask (n := m) ht).results, State.job?, State.modHart_dqu]
  rfl

/-! ### Forced stops (R74) -/

/-- The core without its pops. -/
def Hart.unpopped (h : Hart) : Hart := { h with pops := [] }

/-- What a core has popped leaves its queues: banks change, and of the harts only its own pops. -/
theorem State.commitPops_eq (s : State) (m : Nat) : ∃ b, s.commitPops m = ({ s with banks := b } : State).modHart m Hart.unpopped := by
  obtain ⟨b, hb⟩ := foldl_setBank (f := fun t p =>
    let cl := clusterOf m
    let k := t.bank cl p.bank
    if k.gen = p.gen && k.mode == modeFifo then
      t.setBank cl p.bank { k with head := (k.head + p.bytes) % 0x40000, level := k.level - p.bytes, popped := k.popped - p.bytes }
    else t) (fun t p => by
      dsimp only
      split
      · exact ⟨_, rfl⟩
      · exact ⟨t.banks, rfl⟩) ((s.getHart m).pops : List Pop) s
  refine ⟨b, ?_⟩
  unfold State.commitPops
  dsimp only at hb ⊢
  rw [hb]
  rfl

theorem State.spares_dropChain (s : State) (k : Nat) : s.Spares n (s.dropChain k) := by
  unfold State.dropChain
  dsimp only
  split
  · exact .of_parts rfl rfl rfl rfl
  · exact .refl s

/-- A forced stop: the core has given up its task, and no RESULT changes. -/
theorem State.forcedStop_gone {r : TaskRun} (ht : (s.getHart n).task = some r) :
    (s.getHart n).Gone ((s.forcedStop n).getHart n)
      ∧ ∀ id, ((s.forcedStop n).job? id).map Job.result = (s.job? id).map Job.result := by
  obtain ⟨b, hb⟩ := s.commitPops_eq n
  let u := ({ s with banks := b } : State).modHart n Hart.unpopped
  have hu : u.getHart n = { (s.getHart n).unpopped with num := n } := by
    rw [State.getHart_modHart, if_pos rfl]
    rfl
  have hdqu : u.dqu = s.dqu := State.modHart_dqu ..
  let v := if isVcNum n then u.dropChain (rowOfHart n) else u
  have hv : u.Spares n v := by
    unfold v
    split
    · exact u.spares_dropChain _
    · exact .refl u
  have hstop : s.forcedStop n = v.finishTask n none := by
    unfold State.forcedStop
    rw [hb]
  obtain ⟨⟨w, hw, -⟩, -⟩ := hv.hart.busy r (by rw [hu]; exact ht)
  rw [hstop]
  refine ⟨.of_prefetch (fun hp => hv.hart.prefetch (by rw [hu]; exact hp)) (State.finishTask_gone hw), fun id => ?_⟩
  rw [State.finishTask_results hw, hv.results, State.job?, hdqu]
  rfl

/-! ### Stops where the core waits (R74, R75) -/

/-- A core with nothing buffered, popped or bound. -/
def Hart.still (h : Hart) : Prop := h.buf = [] ∧ h.pops = [] ∧ noSlots h

/-- The hart whose turn it is with its strip closed. -/
def State.closed (s : State) : State := { s with cpu := { s.cpu with vec := s.cpu.vec.closeStrip } }

theorem State.closed_getHart_ne (hn : n ≠ s.cpu.num) : s.closed.getHart n = s.getHart n := by
  unfold State.getHart
  rw [if_neg hn, if_neg (show n ≠ s.closed.cpu.num from hn)]
  rfl

theorem commit_of_still (h : s.cpu.still) : s.commit = (s.closed, none) := by
  obtain ⟨hb, hp, -⟩ := h
  have he : ({ s with cpu := { s.cpu with buf := [], vec := s.cpu.vec.closeStrip } } : State) = s.closed := by
    unfold State.closed
    rw [← hb]
  unfold State.commit
  simp only [he, hb, List.reverse_nil, State.performAll, List.drop_nil, unmark_nil]
  exact congrArg (·, none) (commitPops_nil s.closed hp)

theorem runM_drainSlot_of_noSlots (hn : noSlots s.cpu) (i : Nat) : runM (drainSlot i) s = (.ok (), s) := by
  unfold drainSlot
  rw [runM_bind_ok (runM_cpu s), hn i]
  rfl

theorem runM_drainSinks_of_noSlots (hn : noSlots s.cpu) : runM drainSinks s = (.ok (), s) := by
  unfold drainSinks
  simp only [List.forIn_cons, List.forIn_nil, bind_assoc, pure_bind]
  simp only [runM_bind_ok (runM_drainSlot_of_noSlots hn _)]
  rfl

theorem noSlots_closeStrip (hn : noSlots s.cpu) : noSlots s.closed.cpu := by
  intro i
  show s.cpu.vec.closeStrip.slots.getD i none = none
  unfold Vec.closeStrip
  split
  · exact hn i
  · exact hn i

/-- A still core that stops where it waits ends its task. -/
theorem does_stopHere (h : s.cpu.still) : s.does stopHere = s.closed.finishTask s.cpu.num none := by
  obtain ⟨-, -, hn⟩ := id h
  have hend : runM stopHere s = (.error .ended, s.closed.finishTask s.cpu.num none) := by
    unfold stopHere endTask
    rw [runM_bind_ok (runM_commit_ok (commit_of_still h) rfl), runM_bind_ok (runM_drainSinks_of_noSlots (noSlots_closeStrip hn)),
      runM_bind_ok (runM_modify _ _)]
    rfl
  unfold State.does
  rw [run_ended hend]

theorem State.spares_stopHere_ne (h : s.cpu.still) (hn : n ≠ s.cpu.num) : s.Spares n (s.does stopHere) := by
  rw [does_stopHere h]
  exact State.Spares.trans (.of_same (State.closed_getHart_ne hn) rfl) (State.spares_finishTask_ne hn _)

theorem stopHere_num (h : s.cpu.still) : (s.does stopHere).cpu.num = s.cpu.num := by
  rw [does_stopHere h]
  exact (keeps_finishTask (Keeps.refl s.closed)).num_eq

theorem stopHere_gone {r : TaskRun} (h : s.cpu.still) (ht : s.cpu.task = some r) :
    s.cpu.Gone ((s.does stopHere).getHart s.cpu.num) := by
  rw [does_stopHere h]
  have hself : s.closed.getHart s.cpu.num = s.closed.cpu := getHart_self s.closed
  refine .of_prefetch (g := s.closed.getHart s.cpu.num) (fun hp => ?_) (State.finishTask_gone (r := r) ?_)
  · rw [hself]; exact hp
  · rw [hself]; exact ht

/-! ### Turns -/

theorem State.turnTo_cpu (s : State) (m : Nat) : (s.turnTo m).cpu = s.getHart m := by
  unfold State.turnTo
  split
  next e => rw [e, getHart_self]
  · rfl

/-- The turn goes from hart to hart, and each stays as it is. -/
theorem State.getHart_turnTo {m : Nat} (hm : (s.getHart m).num = m) : (s.turnTo m).getHart n = s.getHart n := by
  unfold State.turnTo
  split
  · rfl
  next hne =>
    show (if n = (s.getHart m).num then s.getHart m
      else (tabGet none (tabErase (tabInsert s.parked s.cpu.num (some s.cpu)) m) n).getD (s.freshHart n)) = _
    rw [hm, tabGet_erase, tabGet_insert]
    split
    next e => rw [e]
    · unfold State.getHart
      split
      · rfl
      · rfl

theorem State.turnTo_dqu (s : State) (m : Nat) : (s.turnTo m).dqu = s.dqu := by
  unfold State.turnTo
  split <;> rfl

/-- A core of which a stop where it waits makes an end: still, with a task, at its own number. -/
def Hart.stops (h : Hart) (n : Nat) : Prop := h.still ∧ (∃ r, h.task = some r) ∧ h.num = n

theorem Hart.stops_later {h g : Hart} (a : h.stops n) (b : h.Later g) (hn : g.num = n) : g.stops n := by
  obtain ⟨⟨hb, hp, hs⟩, ⟨r, hr⟩, -⟩ := a
  obtain ⟨⟨u, hu, -⟩, hb', hp', hv⟩ := b.busy r hr
  refine ⟨⟨hb'.trans hb, hp'.trans hp, fun i => ?_⟩, ⟨u, hu⟩, hn⟩
  rw [hv]
  exact hs i

/-- Hart m stops where it waits; the turn stays where it was. -/
def State.stopAt (s : State) (m : Nat) : State := s.onHart m fun t => t.does stopHere

/-- The stop of one core: the turn stays, the core has given up its task, and other harts are spared. -/
theorem State.stopAt_spec {m : Nat} (h : (s.getHart m).stops m) :
    (s.stopAt m).cpu.num = s.cpu.num ∧ (s.getHart m).Gone ((s.stopAt m).getHart m) ∧ ∀ k, k ≠ m → s.Spares k (s.stopAt m) := by
  obtain ⟨hstill, ⟨r, hr⟩, hnum⟩ := h
  let u := s.turnTo m
  have hcpu : u.cpu = s.getHart m := s.turnTo_cpu m
  have hun : u.cpu.num = m := by rw [hcpu, hnum]
  have hstill' : u.cpu.still := by rw [hcpu]; exact hstill
  let v := u.does stopHere
  have hvn : v.cpu.num = m := (stopHere_num hstill').trans hun
  have hto (k : Nat) : s.Spares k u := .of_same (State.getHart_turnTo hnum) (congrArg Dqu.jobs (s.turnTo_dqu m))
  have hspare (k : Nat) (hk : k ≠ m) : s.Spares k v := (hto k).trans (State.spares_stopHere_ne hstill' (by rw [hun]; exact hk))
  have hme : (v.getHart s.cpu.num).num = s.cpu.num := by
    by_cases e : s.cpu.num = m
    · rw [e, ← hvn, getHart_self]
    · exact (hspare _ e).num (by rw [getHart_self])
  have hback (k : Nat) : (s.stopAt m).getHart k = v.getHart k := State.getHart_turnTo hme
  refine ⟨?_, ?_, fun k hk => (hspare k hk).trans (.of_same (hback k) (congrArg Dqu.jobs (v.turnTo_dqu _)))⟩
  · show (v.turnTo s.cpu.num).cpu.num = _
    rw [State.turnTo_cpu, hme]
  · have hgone := stopHere_gone (r := r) hstill' (by rw [hcpu]; exact hr)
    rw [hback]
    rwa [hcpu, hnum] at hgone

/-- The stops of several cores, one after another. -/
theorem State.stopEach_spec {l : List Nat} (hl : l.Nodup) (h : ∀ m ∈ l, (s.getHart m).stops m) :
    (l.foldl State.stopAt s).cpu.num = s.cpu.num ∧ (∀ m ∈ l, (s.getHart m).Gone ((l.foldl State.stopAt s).getHart m))
      ∧ ∀ k, k ∉ l → s.Spares k (l.foldl State.stopAt s) := by
  induction l generalizing s with
  | nil => exact ⟨rfl, nofun, fun _ _ => .refl s⟩
  | cons m l ih =>
    obtain ⟨hm, hl⟩ := List.nodup_cons.mp hl
    obtain ⟨hnum, hgone, hspare⟩ := State.stopAt_spec (h m List.mem_cons_self)
    have hne {k : Nat} (hk : k ∈ l) : k ≠ m := fun e => hm (e ▸ hk)
    obtain ⟨hnum', hgone', hspare'⟩ := ih (s := s.stopAt m) hl fun k hk =>
      have hk' := h k (List.mem_cons_of_mem _ hk)
      Hart.stops_later hk' (hspare k (hne hk)).hart ((hspare k (hne hk)).num hk'.2.2)
    refine ⟨hnum'.trans hnum, fun k hk => ?_, fun k hk => ?_⟩
    · rcases List.mem_cons.mp hk with rfl | hk
      · exact hgone.later (hspare' k hm).hart
      · exact .of_prefetch (hspare k (hne hk)).hart.prefetch (hgone' k hk)
    · rw [List.mem_cons, not_or] at hk
      exact (hspare k hk.1).trans (hspare' k hk.2)

/-! ### The stop of a row whose chain runs (R290) -/

theorem Hart.signalled_later (h : Hart) : h.Later h.signalled := by
  unfold Hart.signalled
  split
  next t ht =>
    refine ⟨id, fun _ hi => ?_, fun r hr => ⟨⟨_, rfl, ?_⟩, rfl, rfl, rfl⟩, fun hb hw => ⟨hb, hw⟩⟩
    · rw [ht] at hi; cases hi
    · have : some t = some r := by rw [← hr, Hart.task, ht]
      rw [Option.some.inj this]
  · exact .refl h

/-- Cores that are signalled are spared, and stand at their own numbers. -/
theorem State.signalEach_num {l : List Nat} {m : Nat} (hm : m ∈ l ∨ (s.getHart m).num = m) :
    ((l.foldl (fun s m => s.modHart m Hart.signalled) s).getHart m).num = m := by
  induction l generalizing s with
  | nil => exact hm.resolve_left List.not_mem_nil
  | cons k l ih =>
    refine ih ?_
    by_cases e : m = k
    · rw [State.getHart_modHart, if_pos e]
      exact .inr e.symm
    · rcases hm with hm | hm
      · exact .inl ((List.mem_cons.mp hm).resolve_left e)
      · rw [State.getHart_modHart, if_neg e]
        exact .inr hm

theorem vcNum_inj {c i j : Nat} (h : vcNum c i = vcNum c j) : i = j := by
  unfold vcNum at h
  omega

theorem rowHarts_nodup (k : Nat) : (rowHarts k).Nodup :=
  (List.nodup_range (n := 4)).map fun i j h => by have := vcNum_inj h; omega

/-- A vector core is one of its row's. -/
theorem mem_rowHarts_self (hv : isVcNum n = true) : n ∈ rowHarts (rowOfHart n) := by
  have hlt : n % 208 < 16 := of_decide_eq_true hv
  refine List.mem_map.mpr ⟨n % 208 % 4, List.mem_range.mpr (by omega), ?_⟩
  simp only [rowOfHart, rowKey, clusterOf, vcNum]
  omega

/-- The cores that run a vector core's task: distinct, the core among them, each with a task. -/
theorem State.gangOf_spec {r : TaskRun} (ht : (s.getHart n).task = some r) (hv : isVcNum n = true) :
    (s.gangOf n).Nodup ∧ n ∈ s.gangOf n ∧ ∀ m ∈ s.gangOf n, ∃ u, (s.getHart m).task = some u := by
  unfold State.gangOf
  simp only [ht]
  split
  · refine ⟨(rowHarts_nodup _).filter _, List.mem_filter.mpr ⟨mem_rowHarts_self hv, by rw [ht]; exact beq_self_eq_true _⟩, fun m hm => ?_⟩
    have := (List.mem_filter.mp hm).2
    cases hu : (s.getHart m).task with
    | none => rw [hu] at this; cases this
    | some u => exact ⟨u, rfl⟩
  · exact ⟨List.nodup_singleton n, List.mem_singleton_self n, fun m hm => ⟨r, by rw [List.mem_singleton.mp hm]; exact ht⟩⟩

/-- Where every core of the task is still, the stop of the chain ends the task on each. -/
theorem State.stopChain_gone {r : TaskRun} (ht : s.cpu.task = some r) (hv : s.cpu.isVc = true)
    (hall : ∀ m ∈ s.gangOf s.cpu.num, (s.getHart m).still) :
    s.stopChain.cpu.num = s.cpu.num ∧ s.cpu.Gone (s.stopChain.getHart s.cpu.num) := by
  let l := s.gangOf s.cpu.num
  obtain ⟨hnodup, hmem, htasks⟩ := State.gangOf_spec (n := s.cpu.num) (by rw [getHart_self]; exact ht) hv
  let u := s.dropChain (rowOfHart s.cpu.num)
  let v := l.foldl (fun s m => s.modHart m Hart.signalled) u
  have hsv (k : Nat) : s.Spares k v :=
    (s.spares_dropChain _).trans (State.spares_foldl (fun s m => State.spares_modHart Hart.signalled_later s m) l u)
  have hvnum : v.cpu.num = s.cpu.num :=
    (keeps_foldl (fun t m => keeps_modHart (by simp) (Keeps.refl t)) (keeps_dropChain (Keeps.refl s))).num_eq
  have hstops : ∀ m ∈ l, (v.getHart m).stops m := fun m hm => by
    obtain ⟨w, hw⟩ := htasks m hm
    have hfix : (v.getHart m).num = m := State.signalEach_num (.inl hm)
    obtain ⟨hb, hp, hs⟩ := hall m hm
    obtain ⟨⟨x, hx, -⟩, hb', hp', hv'⟩ := (hsv m).hart.busy w hw
    exact ⟨⟨hb'.trans hb, hp'.trans hp, fun i => by rw [hv']; exact hs i⟩, ⟨x, hx⟩, hfix⟩
  obtain ⟨hnum, hgone, -⟩ := State.stopEach_spec hnodup hstops
  have hstop : s.stopChain = l.foldl State.stopAt v := rfl
  rw [hstop]
  refine ⟨hnum.trans hvnum, ?_⟩
  have hself : (s.getHart s.cpu.num).Gone ((l.foldl State.stopAt v).getHart s.cpu.num) :=
    .of_prefetch (hsv _).hart.prefetch (hgone _ hmem)
  rwa [getHart_self] at hself

end

end Sys2Proof.Machine
end

section
namespace Sys2Proof.Machine

/-! The events at a core: signals, the ends of the grace time and of the budget, interrupts (R54, R75, R332, R346, R400). -/

/-- The core whose turn it was in s has given up its task in t. -/
def State.goneAfter (s t : State) : Prop :=
  t.cpu.num = s.cpu.num ∧ t.cpu.buf = [] ∧ t.cpu.wait = none ∧ (s.cpu.prefetch = [] → t.cpu.run = .idle)

section
variable {s : State} {r : TaskRun}

theorem State.goneAfter_of {t : State} (hn : t.cpu.num = s.cpu.num) (hg : s.cpu.Gone (t.getHart s.cpu.num)) : s.goneAfter t := by
  rw [← hn, getHart_self] at hg
  exact ⟨hn, hg.buf, hg.wait, hg.idle⟩

theorem forcedStop_num (s : State) (n : Nat) : (s.forcedStop n).cpu.num = s.cpu.num := (keeps_forcedStop (Keeps.refl s)).num_eq

theorem goneAfter_forcedStop (ht : s.cpu.task = some r) : s.goneAfter (s.forcedStop s.cpu.num) := by
  have hg := (State.forcedStop_gone (s := s) (n := s.cpu.num) (r := r) (by rw [getHart_self]; exact ht)).1
  rw [getHart_self] at hg
  exact State.goneAfter_of (forcedStop_num ..) hg

theorem goneAfter_stopHere (ht : s.cpu.task = some r) (h : s.cpu.still) : s.goneAfter (s.does stopHere) :=
  State.goneAfter_of (stopHere_num h) (stopHere_gone h ht)

theorem goneAfter_stopChain (ht : s.cpu.task = some r) (hv : s.cpu.isVc = true)
    (hall : ∀ m ∈ s.gangOf s.cpu.num, (s.getHart m).still) : s.goneAfter s.stopChain :=
  State.goneAfter_of (s.stopChain_gone ht hv hall).1 (s.stopChain_gone ht hv hall).2

/-! ### The abandon signal (R75, R400) -/

theorem Hart.task_of_run {h : Hart} (hr : h.run = .task r) : h.task = some r := by rw [Hart.task, hr]

/-- What a signal does to a core that waits for something. -/
def State.signalWaiting (s : State) (n : Nat) : WaitOn → State
  | .pop _ _ _ | .push _ | .skip _ _ _ | .slotStall _ _ _ => s.forcedStop n
  | .latch _ _ | .window _ _ | .timeline _ _ | .tags _ _ | .post _ | .hwait => s.does stopHere
  | .hinge _ => s.leaveHinge.does stopHere
  | .chain => s.stopChain
  | _ => s

/-- What a signal does to a core, by the handler it is in and by what it waits for. -/
def State.signalAt (s : State) (r : TaskRun) (n : Nat) : State :=
  if 0 < r.trapDepth then (if s.cpu.mode == .m then s else s.forcedStop n)
  else match s.cpu.wait with
    | none => s
    | some w => s.signalWaiting n w.on

/-- The hart whose turn it is with its task's signal marked. -/
def State.marked (s : State) (r : TaskRun) : State := { s with cpu := { s.cpu with run := .task { r with signal := true } } }

variable (hr : s.cpu.run = .task r)
include hr

theorem signalled_eq : ({ s with cpu := s.cpu.signalled } : State) = s.marked r := by
  rw [Hart.signalled, hr]
  rfl

omit hr in
theorem signalStop_eq (s : State) (r : TaskRun) :
    s.signalStop r = ({ s with cpu := s.cpu.signalled } : State).signalAt r s.cpu.num := by
  unfold State.signalStop
  extract_lets n u
  unfold State.signalAt
  split
  · rfl
  · cases u.cpu.wait with
    | none => rfl
    | some w =>
      show _ = u.signalWaiting n w.on
      cases hon : w.on <;> simp only [Option.map, hon] <;> rfl

/-- The signal as it reaches the marked task. -/
theorem exec_abandonSignal (hg : r.graceAt ≠ none) : exec .abandonSignal s = .next ((s.marked r).signalAt r s.cpu.num) := by
  obtain ⟨g, hg⟩ := Option.ne_none_iff_exists'.mp hg
  rw [← signalled_eq hr, ← signalStop_eq]
  show Host.Outcome.next _ = _
  dsimp only
  rw [Hart.task_of_run hr]
  dsimp only
  rw [hg]
  rfl

omit hr in
theorem State.leaveHinge_eq (s : State) : ∃ rows, s.leaveHinge = { s with rows := rows } := by
  unfold State.leaveHinge
  split
  · exact ⟨_, rfl⟩
  · exact ⟨s.rows, rfl⟩

/-- The mark changes neither whose the cores are that run the task. -/
theorem gangOf_marked : (s.marked r).gangOf s.cpu.num = s.gangOf s.cpu.num := by
  have hs : s.getHart s.cpu.num = s.cpu := getHart_self s
  have hm : (s.marked r).getHart s.cpu.num = (s.marked r).cpu := getHart_self (s.marked r)
  unfold State.gangOf
  rw [hs, hm, Hart.task_of_run hr, show (s.marked r).cpu.task = some { r with signal := true } from rfl]
  dsimp only
  split
  · refine List.filter_congr fun m _ => ?_
    by_cases e : m = s.cpu.num
    · rw [e, hs, hm, Hart.task_of_run hr]
      rfl
    · rw [show (s.marked r).getHart m = s.getHart m by rw [State.getHart, State.getHart, if_neg e]; exact if_neg e]
  · rfl

omit hr in
theorem marked_still {m : Nat} (h : (s.getHart m).still) : ((s.marked r).getHart m).still := by
  unfold State.getHart at h ⊢
  split at h
  next e => rw [if_pos (show m = (s.marked r).cpu.num from e)]; exact h
  next e => rw [if_neg (show m ≠ (s.marked r).cpu.num from e)]; exact h

omit hr in
theorem State.signalAt_handler (hd : 0 < r.trapDepth) (n : Nat) :
    s.signalAt r n = if s.cpu.mode == .m then s else s.forcedStop n := if_pos hd

omit hr in
theorem State.signalAt_running (hd : r.trapDepth = 0) (hw : s.cpu.wait = none) (n : Nat) : s.signalAt r n = s := by
  unfold State.signalAt
  rw [if_neg (by omega), hw]

omit hr in
theorem State.signalAt_waiting (hd : r.trapDepth = 0) {w : Wait} (hw : s.cpu.wait = some w) (n : Nat) :
    s.signalAt r n = s.signalWaiting n w.on := by
  unfold State.signalAt
  rw [if_neg (by omega), hw]

/-- What a signal makes of a core that waits, by what it waits for (R171). -/
theorem signalWaiting_marked (on : WaitOn) :
    let t := (s.marked r).signalWaiting s.cpu.num on
    (on = .interlock ∨ on = .wfi ∨ on = .messages ∨ on = .credit ∨ (∃ b, on = .modeChange b) → t = s.marked r)
    ∧ ((∃ q b n, on = .pop q b n) ∨ (∃ q b n, on = .skip q b n) ∨ (∃ q, on = .push q) ∨ (∃ q k b, on = .slotStall q k b) →
        s.goneAfter t)
    ∧ (s.cpu.still → (∃ a st, on = .latch a st) ∨ (∃ n a, on = .window n a) ∨ (∃ c n, on = .timeline c n)
        ∨ (∃ m all, on = .tags m all) ∨ (∃ c, on = .post c) ∨ on = .hwait ∨ (∃ d, on = .hinge d) → s.goneAfter t)
    ∧ (on = .chain → s.cpu.isVc = true → (∀ n ∈ s.gangOf s.cpu.num, (s.getHart n).still) → s.goneAfter t) := by
  have hforced : s.goneAfter ((s.marked r).forcedStop s.cpu.num) := goneAfter_forcedStop (s := s.marked r) rfl
  have hstop (hs : s.cpu.still) : s.goneAfter ((s.marked r).does stopHere) := goneAfter_stopHere (s := s.marked r) rfl hs
  have hhinge (hs : s.cpu.still) : s.goneAfter ((s.marked r).leaveHinge.does stopHere) := by
    obtain ⟨rows, e⟩ := (s.marked r).leaveHinge_eq
    rw [e]
    exact goneAfter_stopHere (s := { s.marked r with rows := rows }) rfl hs
  have hchain (hv : s.cpu.isVc = true) (hall : ∀ n ∈ s.gangOf s.cpu.num, (s.getHart n).still) : s.goneAfter (s.marked r).stopChain :=
    goneAfter_stopChain (s := s.marked r) rfl hv fun m hm => marked_still (hall m (gangOf_marked hr ▸ hm))
  refine ⟨?_, ?_, fun hs => ?_, ?_⟩
  · rintro (rfl | rfl | rfl | rfl | ⟨b, rfl⟩) <;> rfl
  · rintro (⟨q, b, n, rfl⟩ | ⟨q, b, n, rfl⟩ | ⟨q, rfl⟩ | ⟨q, k, b, rfl⟩) <;> exact hforced
  · rintro (⟨a, st, rfl⟩ | ⟨n, a, rfl⟩ | ⟨c, n, rfl⟩ | ⟨m, all, rfl⟩ | ⟨c, rfl⟩ | rfl | ⟨d, rfl⟩)
    iterate 6 exact hstop hs
    exact hhinge hs
  · rintro rfl hv hall
    exact hchain hv hall

/-! ### The ends of the grace time and of the budget (R74, R75, R346) -/

/-- The forced stop of the running task at the end of its grace time, which an M-mode handler holds back. -/
theorem exec_abandonGraceExpiry {g : Nat} (hg : r.graceAt = some g) :
    exec .abandonGraceExpiry s
      = .next (if g ≤ s.dquNow ∧ ¬s.cpu.inMHandler = true then s.forcedStop s.cpu.num else s) := by
  show Host.Outcome.next _ = _
  dsimp only
  rw [Hart.task_of_run hr]
  dsimp only
  rw [hg]

theorem exec_budgetExpiry : exec .budgetExpiry s = .next (if r.mcAt ≠ 0 then s else if r.stopMc then s.forcedStop s.cpu.num
    else if r.counts && s.cpu.tbudget == 0 then s.budgetStop r else s) := by
  show Host.Outcome.next _ = _
  dsimp only
  rw [Hart.task_of_run hr]
  simp only [bne_iff_ne]

omit hr in
theorem State.faultRecord_dqu (s : State) (c : Nat) (f : FaultRec) : (s.faultRecord c f).dqu = s.dqu := by
  have hput (bs : List Byte) : (s.efPut c bs).dqu = s.dqu := by
    unfold State.efPut
    dsimp only
    split <;> exact s.devWrite_dqu ..
  have hbump (off w : Nat) : (s.bumpSat off w).dqu = s.dqu := by
    unfold State.bumpSat
    dsimp only
    split <;> rfl
  have hevent (t : State) (code unit : Nat) : (t.portEvent code unit).dqu = t.dqu := by
    unfold State.portEvent State.sendCapped
    split
    · rfl
    · split <;> rfl
  unfold State.faultRecord
  dsimp only
  split
  · exact hput _
  · split
    · rfl
    · split
      · exact (hevent ..).trans (hbump ..)
      · exact hbump ..

omit hr in
/-- A change of a job changes no hart's context. -/
theorem State.modJob_later (s : State) (id : Nat) (f : Job → Job) (n : Nat) :
    (s.getHart n).Later ((s.modJob id f).getHart n) := by
  unfold State.modJob
  split
  next j hj =>
    split
    · exact .refl _
    · exact (State.spares_devWrite { s with dqu := { s.dqu with jobs := tabInsert s.dqu.jobs id (some (f j)) } } ..).hart
  · exact .refl _

omit hr in
theorem State.modJob_job {id : Nat} {j : Job} (hj : s.job? id = some j) (hf : j.final = false) (f : Job → Job) :
    (s.modJob id f).job? id = some (f j) := by
  simp only [State.modJob, hj, hf, Bool.false_eq_true, if_false]
  rw [State.job?, State.putJob_dqu]
  exact (tabGet_insert ..).trans (if_pos rfl)

/-- The record of a budget stop. -/
def State.budgetRecord (s : State) (r : TaskRun) : FaultRec :=
  ⟨0, 27, 0, 0xFF, false, false, 0, s.cpu.pc, s.cpu.csr.satp, s.rcbOf (some r.job), 0, s.cpu.num⟩

/-- A job whose task's budget has run out. -/
def Job.outOfBudget (j : Job) : Job := { j with result := budgetResult, resultBad := false }

/-- A task of one core whose budget has run out: the core has given it up, and its RESULT says so. -/
theorem budgetStop_gone (hm : r.mcAt = 0) (hg : r.gang = false) : s.goneAfter (s.budgetStop r)
    ∧ ∀ j, s.job? r.job = some j → j.final = false →
      ((s.budgetStop r).job? r.job).map Job.result = some budgetResult := by
  let u := s.faultRecord s.cpu.cluster (s.budgetRecord r)
  let v := u.modJob r.job Job.outOfBudget
  have hnum : v.cpu.num = s.cpu.num := (keeps_modJob (keeps_faultRecord (Keeps.refl s))).num_eq
  have hlater : s.cpu.Later v.cpu := by
    have h := (s.spares_faultRecord s.cpu.cluster (s.budgetRecord r)).hart.trans (u.modJob_later r.job Job.outOfBudget s.cpu.num)
    rw [getHart_self] at h
    rwa [← hnum, getHart_self] at h
  obtain ⟨⟨w, hw, hwm⟩, -⟩ := hlater.busy r (Hart.task_of_run hr)
  have hgang : s.gangOf s.cpu.num = [s.cpu.num] := by
    unfold State.gangOf
    rw [getHart_self, Hart.task_of_run hr]
    simp only [hg]
    rfl
  have hself : (v.getHart s.cpu.num).task = some w := by rw [← hnum, getHart_self]; exact hw
  have hstop : s.budgetStop r = v.forcedStop v.cpu.num := by
    unfold State.budgetStop
    dsimp only
    rw [hgang]
    show (match (v.getHart s.cpu.num).task with
      | some u => if u.mcAt = 0 then v.forcedStop s.cpu.num else v.modHart s.cpu.num Hart.stopLater
      | none => v) = _
    rw [hself, hnum]
    exact if_pos (hwm.trans hm)
  rw [hstop]
  refine ⟨?_, fun j hj hfin => ?_⟩
  · obtain ⟨hn, hb, hw', hi⟩ := goneAfter_forcedStop hw
    exact ⟨hn.trans hnum, hb, hw', fun hp => hi (hlater.prefetch hp)⟩
  · have hju : u.job? r.job = some j := by
      rw [State.job?, State.faultRecord_dqu]
      exact hj
    have hjv := State.modJob_job hju hfin Job.outOfBudget
    rw [(State.forcedStop_gone (n := v.cpu.num) (r := w) (by rw [getHart_self]; exact hw)).2]
    exact congrArg (Option.map Job.result) hjv

end

/-! ### Interrupts (R54, R332) -/

/-- The hart whose turn it is with an interrupt pending. -/
def State.pended (s : State) (code : Nat) : State :=
  { s with cpu := { s.cpu with csr := { s.cpu.csr with mip := s.cpu.csr.mip ||| ((1 : Word) <<< code) } } }

theorem exec_interrupt {s : State} {c : BitVec 6} (hc : c.toNat ∈ [1, 3, 5, 7, 9, 11]) :
    exec (.interrupt c) s = .next (s.interruptAt c.toNat) :=
  congrArg Host.Outcome.next (if_pos (by rw [isInterrupt, List.contains_eq_mem]; exact decide_eq_true hc))

theorem exec_interrupt_other {s : State} {c : BitVec 6} (hc : c.toNat ∉ [1, 3, 5, 7, 9, 11]) : exec (.interrupt c) s = .next s :=
  congrArg Host.Outcome.next (if_neg (by rw [isInterrupt, List.contains_eq_mem, decide_eq_true_iff]; exact hc))

/-- One that the hart does not take stays pending. -/
theorem interruptAt_stays {s : State} {code : Nat}
    (h : s.cpu.runs = false ∨ s.cpu.trap ≠ none ∨ (s.pended code).cpu.pendingInt ≠ some code) :
    s.interruptAt code = s.pended code := by
  refine if_pos ?_
  simp only [Bool.or_eq_true, Bool.not_eq_true', bne_iff_ne, Option.isSome_iff_ne_none]
  rcases h with h | h | h
  · exact .inl (.inl (.inl h))
  · exact .inl (.inl (.inr h))
  · exact .inl (.inr h)

/-- A hart that waits for no chain is held back by none. -/
theorem chainStalls_of_no_chain {s : State} (h : ∀ w, s.cpu.wait = some w → w.on ≠ .chain) : s.chainStalls = false := by
  unfold State.chainStalls
  split
  next hw => exact absurd rfl (h _ hw)
  · rfl

theorem leaveHinge_of_no_hinge {s : State} (h : ∀ w, s.cpu.wait = some w → ∀ d, w.on ≠ .hinge d) : s.leaveHinge = s := by
  unfold State.leaveHinge
  split
  next hw => exact absurd rfl (h _ hw _)
  · rfl

/-- A hart with nothing buffered, popped or open takes an interrupt at its instruction. -/
theorem takeInterrupt_quiet {s : State} (hq : quiet s) (h : ∀ w, s.cpu.wait = some w → ∀ d, w.on ≠ .hinge d) (code : Nat) :
    s.takeInterrupt code = { s with cpu := s.cpu.enterTrap true code 0 s.cpu.pc } := by
  obtain ⟨hb, hp, hs⟩ := hq
  unfold State.takeInterrupt
  rw [leaveHinge_of_no_hinge h]
  dsimp only
  rw [hs, commit_quiet s hb hp hs]
  rfl

/-- The hart whose turn it is once the platform's pulse of an interrupt is over. -/
def State.pulsed (s : State) (code : Nat) : State :=
  { s with cpu := { s.cpu with csr := { s.cpu.csr with mip := s.cpu.csr.mip &&& ~~~(takenMask code) } } }

/-- The first that is enabled is taken, here by a hart with nothing buffered, popped or open; the platform's pulse is over. -/
theorem interruptAt_taken {s : State} {code : Nat} (hr : s.cpu.runs = true) (ht : s.cpu.trap = none)
    (hp : (s.pended code).cpu.pendingInt = some code) (hq : quiet s)
    (hw : ∀ w, s.cpu.wait = some w → w.on ≠ .chain ∧ ∀ d, w.on ≠ .hinge d) :
    let t := (s.pended code).cpu.enterTrap true code 0 s.cpu.pc
    s.interruptAt code = { s with cpu := { t with csr := { t.csr with mip := t.csr.mip &&& ~~~(takenMask code) } } } := by
  unfold State.interruptAt
  extract_lets t hart csr u v w
  have hstalls : u.chainStalls = false := chainStalls_of_no_chain fun w e => (hw w e).1
  have hgo : ¬((!u.cpu.runs || u.cpu.trap.isSome || u.cpu.pendingInt != some code || u.chainStalls) = true) := by
    rw [show u.cpu.runs = true from hr, show u.cpu.trap = none from ht, show u.cpu.pendingInt = some code from hp, hstalls]
    simp
  have hv : v = u := by
    unfold v
    split
    next e => exact absurd rfl (hw _ e).1
    · rfl
  have htake : w = { u with cpu := u.cpu.enterTrap true code 0 u.cpu.pc } :=
    (congrArg (State.takeInterrupt · code) hv).trans (takeInterrupt_quiet (s := u) hq (fun w e => (hw w e).2) code)
  obtain ⟨hb, hpops, hs⟩ := hq
  have hcommit : (v.cpu.vec.strip.isSome || v.commit.2.isNone) = true := by
    rw [hv, commit_quiet u hb hpops hs]
    simp
  exact (if_neg hgo).trans ((if_pos hcommit).trans (congrArg (State.pulsed · code) htake))

/-- The platform's interrupts are pulses (R332). -/
theorem takenMask_eq (code : Nat) : takenMask code = if code ∈ [3, 7, 11] then (1 : Word) <<< code else 0 := by
  simp only [takenMask, List.contains_eq_mem, decide_eq_true_eq]

/-! ### The ends of waits (R86, R171, R179, R180, R183, R213) -/

theorem endWait_none {s : State} (h : s.cpu.wait = none) (p : WaitOn → Bool) : s.endWait p = s := by
  rw [State.endWait, h]

theorem endWait_some {s : State} {w : Wait} (h : s.cpu.wait = some w) (p : WaitOn → Bool) :
    s.endWait p = if p w.on then { s with cpu := { s.cpu with wait := none } } else s := by
  rw [State.endWait, h]

/-- An event that ends a wait where p holds of it, and not before. -/
theorem endsWait {s : State} {i : Instr} {p : WaitOn → Bool} (hi : exec i s = .next (s.endWait p)) :
    (s.cpu.wait = none → exec i s = .next s)
    ∧ ∀ w, s.cpu.wait = some w → (p w.on = true → exec i s = .next { s with cpu := { s.cpu with wait := none } })
      ∧ (p w.on = false → exec i s = .next s) := by
  refine ⟨fun h => by rw [hi, endWait_none h], fun w h => ⟨fun hp => ?_, fun hp => ?_⟩⟩
  · rw [hi, endWait_some h, if_pos hp]
  · rw [hi, endWait_some h, if_neg (by rw [hp]; exact Bool.false_ne_true)]

/-! ### The progress timer (R344, R345) -/

theorem exec_progressTimeout {s : State} {w : Wait} (hw : s.cpu.wait = some w) (ht : s.cpu.timed = true)
    (hp : s.cpu.vec.vprogtmo.toNat ≤ s.cpu.progress) :
    exec .progressTimeout s = .next (s.takeTrap ⟨26, progressTval w, some w.elem, true, none⟩ 0) := by
  show Host.Outcome.next _ = _
  dsimp only
  rw [hw]
  exact congrArg Host.Outcome.next (if_pos (by rw [ht, decide_eq_true hp]; rfl))

theorem exec_progressTimeout_early {s : State}
    (h : s.cpu.wait = none ∨ s.cpu.timed = false ∨ s.cpu.progress < s.cpu.vec.vprogtmo.toNat) :
    exec .progressTimeout s = .next s := by
  show Host.Outcome.next _ = _
  dsimp only
  cases hw : s.cpu.wait with
  | none => rfl
  | some w =>
    refine congrArg Host.Outcome.next (if_neg ?_)
    rw [Bool.and_eq_true, decide_eq_true_eq]
    rintro ⟨ht, hp⟩
    rcases h with h | h | h
    · rw [hw] at h; cases h
    · rw [ht] at h; cases h
    · omega

/-! ### The events -/

/-- The events of a task, and those of a core without one. -/
theorem events_no_task {s : State} (h : s.cpu.task = none) :
    exec .abandonSignal s = .next s ∧ exec .abandonGraceExpiry s = .next s ∧ exec .budgetExpiry s = .next s := by
  refine ⟨?_, ?_, ?_⟩ <;> show Host.Outcome.next _ = _ <;> dsimp only <;> rw [h]

theorem events_no_grace {s : State} {r : TaskRun} (hr : s.cpu.run = .task r) (hg : r.graceAt = none) :
    exec .abandonSignal s = .next s ∧ exec .abandonGraceExpiry s = .next s := by
  refine ⟨?_, ?_⟩
  · show Host.Outcome.next _ = _
    dsimp only
    rw [Hart.task_of_run hr]
    dsimp only
    rw [hg]
    rfl
  · show Host.Outcome.next _ = _
    dsimp only
    rw [Hart.task_of_run hr]
    dsimp only
    rw [hg]

/-- An event after which the core has given up its task. -/
theorem gives_gone {s t u : State} {i : Instr} (he : exec i s = .next u) (hu : u = t) (h : s.goneAfter t) :
    ∃ t, exec i s = .next t ∧ t.cpu.num = s.cpu.num ∧ t.cpu.buf = [] ∧ t.cpu.wait = none ∧ (s.cpu.prefetch = [] → t.cpu.run = .idle) :=
  ⟨t, he.trans (by rw [hu]), h⟩

/-- Settles O52: a stop leaves the core through `finishTask`, behind which the hart is only spared; the other events are their
conditions' branches. -/
theorem coreEvents : Obligations.CoreEvents := by
  intro s h now gives gone still waitEnds ready job
  refine ⟨events_no_task, fun r hr => ?_, fun w hw => exec_progressTimeout hw, exec_progressTimeout_early,
    fun c => exec_interrupt_other, fun c hc => ⟨fun hn => ?_, fun hruns ht hp hq hw => ?_⟩,
    ?_, ?_, ?_, ?_, ?_⟩
  · have ht : s.cpu.task = some r := Hart.task_of_run hr
    have hforced : s.goneAfter (s.forcedStop s.cpu.num) := goneAfter_forcedStop ht
    refine ⟨events_no_grace hr, fun hg hd => ⟨fun hm => ?_, fun hm => ?_⟩, fun hg hd => ⟨fun hw => ?_, fun w hw => ?_⟩,
      fun g hg => ⟨fun hn => ?_, fun hle hm => ?_⟩, fun hn => ?_, fun hm hs => ?_, fun hm hs hc hb hgang => ?_⟩
    · exact (exec_abandonSignal hr hg).trans (congrArg _ ((State.signalAt_handler hd _).trans (if_pos (beq_iff_eq.mpr hm))))
    · exact gives_gone (exec_abandonSignal hr hg) ((State.signalAt_handler hd _).trans (if_neg fun e => hm (beq_iff_eq.mp e)))
        (goneAfter_forcedStop (s := s.marked r) rfl)
    · exact (exec_abandonSignal hr hg).trans (congrArg _ (State.signalAt_running (s := s.marked r) hd hw _))
    · have he := (exec_abandonSignal hr hg).trans (congrArg _ (State.signalAt_waiting (s := s.marked r) hd hw _))
      obtain ⟨hstay, hstream, hstill, hchain⟩ := signalWaiting_marked hr w.on
      exact ⟨fun hw => he.trans (congrArg _ (hstay hw)), fun hw => gives_gone he rfl (hstream hw),
        fun hs hw => gives_gone he rfl (hstill hs hw), fun hw hv hall => gives_gone he rfl (hchain hw hv hall)⟩
    · refine (exec_abandonGraceExpiry hr hg).trans (congrArg _ (if_neg ?_))
      rintro ⟨hle, hm⟩
      exact hn.elim (fun hlt => absurd hle (Nat.not_le.mpr hlt)) hm
    · exact gives_gone (exec_abandonGraceExpiry hr hg) (if_pos ⟨hle, by rw [show s.cpu.inMHandler = false from hm]; exact Bool.false_ne_true⟩)
        hforced
    · refine (exec_budgetExpiry hr).trans (congrArg _ ?_)
      rcases hn with hm | ⟨hs, hc⟩
      · exact if_pos hm
      · have hstays : ¬((r.counts && s.cpu.tbudget == 0) = true) := by simpa [imp_iff_not_or] using hc
        rw [hs, if_neg Bool.false_ne_true, if_neg hstays, ite_self]
    · refine gives_gone (exec_budgetExpiry hr) ?_ hforced
      rw [if_neg (not_not_intro hm), hs]
      rfl
    · have he : exec .budgetExpiry s = .next (s.budgetStop r) := by
        rw [exec_budgetExpiry hr, if_neg (not_not_intro hm), hs, hc, show s.cpu.tbudget = 0 from hb]
        rfl
      obtain ⟨hgone, hresult⟩ := budgetStop_gone hr hm hgang
      refine ⟨gives_gone he rfl hgone, fun j hj hf => ?_⟩
      obtain ⟨k, hk, hkr⟩ := Option.map_eq_some_iff.mp (hresult j hj hf)
      exact ⟨_, k, he, hk, hkr⟩
  · exact (exec_interrupt hc).trans (congrArg _ (interruptAt_stays hn))
  · refine (exec_interrupt hc).trans ?_
    rw [interruptAt_taken hruns ht hp hq hw, takenMask_eq]
    rfl
  · exact endsWait (i := .latchWaitEnd) rfl
  · exact endsWait (i := .timelineWaitEnd) rfl
  · exact endsWait (i := .tagWaitEnd) rfl
  · exact endsWait (i := .streamWaitEnd) rfl
  · exact endsWait (i := .postStallEnd) rfl

end Sys2Proof.Machine
end

section
namespace Sys2Proof.Machine

/-! The scalar reads and the draw from the generator (R73, R137, R177, R180, R188, R189, R193). -/

section
variable (s : State) (rd rs1 : Reg)

theorem exec_tnow : exec (.tnow rd) s = .next (s.retired (s.cpu.setX rd (BitVec.ofNat 64 (s.ctrNs s.cpu.cluster))) 4) := by
  show execTnow rd s = _
  refine instr_retired (t := s) ?_
  rw [runM_bind_ok (runM_get s), runM_putX]

theorem exec_chkerr : exec (.chkerr rd) s = .next (s.retired
    ((s.cpu.eats (s.cpu.csrBad 0x804)).setXp rd (s.cpu.chkint.zeroExtend 64) (s.cpu.csrBad 0x804)) 4) := by
  have hv : BitVec.ofNat 64 s.cpu.chkint.toNat = s.cpu.chkint.zeroExtend 64 := by simp [BitVec.ofNat_toNat]
  show execChkerr rd s = _
  refine instr_retired (t := s) ?_
  rw [runM_bind_ok (runM_cpu s), runM_bind_ok (runM_consume _ s), runM_putXp, hv]

/-- The number `tlread` answers: POSTED or DONE of a context (R180). -/
def Hart.timelineRead (h : Hart) (v : Nat) : Nat := if bitAt v 8 then h.posted.getD (bitsAt v 0 2) 0 else h.done.getD (bitsAt v 0 2) 0

@[simp] theorem Hart.eats_timelineRead (h : Hart) (p : Bool) (v : Nat) : (h.eats p).timelineRead v = h.timelineRead v := by
  simp [Hart.timelineRead]

theorem exec_tlread : exec (.tlread rd rs1) s = .next (s.retired ((s.cpu.eats (s.cpu.xPoisoned rs1)).setXp rd
    (BitVec.ofNat 64 (s.cpu.timelineRead (s.cpu.xr rs1).toNat)) (s.cpu.xPoisoned rs1)) 4) := by
  show execTlread rd rs1 s = _
  refine instr_retired (t := s) ?_
  rw [runM_bind_ok (runM_dataX rs1 s), runM_bind_ok (runM_cpu _), runM_putXp, ← Hart.eats_timelineRead s.cpu (s.cpu.xPoisoned rs1)]
  rfl

/-- The count `mpoll` answers: the core's messages in flight, or those that wait in one of its queues (R193). -/
def State.messageCount (s : State) (v : Nat) : Nat :=
  if bitAt v 4 then s.inFlightOf s.cpu.num else if s.cpu.isVc then 0 else (s.cpu.queueOf (bitsAt v 0 4)).length

/-- Eating poison sends no message and lets none go. -/
@[simp] theorem State.eats_messageCount (p : Bool) (v : Nat) : (s.eats p).messageCount v = s.messageCount v := by
  have hself : (s.eats p).getHart s.cpu.num = s.cpu.eats p := by simpa using getHart_self (s.eats p)
  have hflight : (s.eats p).inFlightOf s.cpu.num = s.inFlightOf s.cpu.num := by simp [State.inFlightOf, hself]
  have hvc : (s.cpu.eats p).isVc = s.cpu.isVc := congrArg isVcNum (Hart.eats_num ..)
  have hqueue (q : Nat) : (s.cpu.eats p).queueOf q = s.cpu.queueOf q := by simp [Hart.queueOf]
  rw [State.messageCount, State.eats_cpu, Hart.eats_num, hflight, hvc, hqueue, State.messageCount]

theorem exec_mpoll : exec (.mpoll rd rs1) s = .next (s.retired ((s.cpu.eats (s.cpu.xPoisoned rs1)).setXp rd
    (BitVec.ofNat 64 (s.messageCount (s.cpu.xr rs1).toNat)) (s.cpu.xPoisoned rs1)) 4) := by
  show execMpoll rd rs1 s = _
  refine instr_retired (t := s) ?_
  rw [runM_bind_ok (runM_dataX rs1 s), runM_bind_ok (runM_get _), runM_putXp, ← State.eats_messageCount s (s.cpu.xPoisoned rs1),
    State.eats_eq]
  rfl

/-- A draw of `rnd` is marked where the generator's key or counter is poisoned, and consumes that poison (R361, R362). -/
theorem runM_drawing_nextRand : runM (drawing (tainted nextRand)) s
    = (.ok (s.cpu.rng.value, s.cpu.rngBad), { s with cpu := { s.cpu.eats s.cpu.rngBad with rngctr := s.cpu.rngctr + 1 } }) := by
  have hmoves : (s.cpu.rngctr + 1 != s.cpu.rngctr) = true := by simp
  have hdraw : (tainted nextRand).run s.cpu.rng = ((s.cpu.rng.value, s.cpu.rngBad), { s.cpu.rng with ctr := s.cpu.rngctr + 1 }) := by
    show ((s.cpu.rng.value, s.cpu.rngBad && (s.cpu.rngctr + 1 != s.cpu.rngctr)), _) = _
    rw [hmoves, Bool.and_true]
    rfl
  unfold drawing
  rw [runM_bind_ok (runM_cpu s), hdraw, runM_bind_ok (runM_modCpu _ s), hmoves, Bool.and_true, runM_pure]

theorem exec_rnd : exec (.rnd rd) s = .next (s.retired
    (Hart.setXp { s.cpu.eats s.cpu.rngBad with rngctr := s.cpu.rngctr + 1 } rd s.cpu.rng.value s.cpu.rngBad) 4) := by
  show execRnd rd s = _
  refine instr_retired (t := s) ?_
  rw [runM_bind_ok (runM_drawing_nextRand s), runM_putXp]

end

/-- Settles O1: each instruction by its body; the two numbers are the ones that `tlread` and `mpoll` name. -/
theorem scalarReadsAndRandomNumbers : Obligations.ScalarReadsAndRandomNumbers := by
  refine ⟨fun s rd rs1 => ?_, fun s rd => exec_rnd s rd⟩
  intro h v p number count
  have hnumber : h.timelineRead v = number := by simp only [Hart.timelineRead, number, bitAt_iff, bitsAt, pow_zero, Nat.div_one]; rfl
  have hcount : s.messageCount v = count := by simp only [State.messageCount, count, bitAt_iff, bitsAt, pow_zero, Nat.div_one]; rfl
  exact ⟨exec_tnow s rd, exec_chkerr s rd, hnumber ▸ exec_tlread s rd rs1, hcount ▸ exec_mpoll s rd rs1⟩

end Sys2Proof.Machine
end

section
namespace Sys2Proof.Machine

/-! Where a message's bytes go when it lands (R87, R191). -/

section
variable {s t : State}

/-- A change of every hart that leaves their message queues. -/
theorem State.mapHarts_queues {f : Hart → Hart} (hn : ∀ h, (f h).num = h.num) (hq : ∀ h, (f h).queues = h.queues) (s : State) (n : Nat) :
    ((s.mapHarts f).getHart n).queues = (s.getHart n).queues := by
  rcases State.getHart_mapHarts (n := n) hn s with e | e
  · rw [e, hq]
  · rw [e]

/-- The way from s to t stores bytes, and leaves banks, messages in flight and message queues alone. -/
structure State.Stores (s : State) (pa : Nat) (data : List Byte) (t : State) : Prop where
  mem : t.mem = memSetBytes s.mem pa data
  banks : t.banks = s.banks
  inflight : t.inflight = s.inflight
  queues : ∀ n, (t.getHart n).queues = (s.getHart n).queues

theorem Hart.loseResv_queues (h : Hart) (who : Option Nat) (pa n : Nat) : (h.loseResv who pa n).queues = h.queues := by
  unfold Hart.loseResv
  split
  · split <;> rfl
  · rfl

theorem State.visWrite_stores (s : State) (pa : Nat) (data : List Byte) (bad : Bool) : s.Stores pa data (s.visWrite none pa data bad) := by
  have hraw : s.Stores pa data (s.rawWrite none pa data bad) := by
    unfold State.rawWrite
    dsimp only
    split
    · refine ⟨rfl, rfl, rfl, fun n => ?_⟩
      exact State.mapHarts_queues (fun h => (h.loseResv_keeps none pa data.length).1) (fun h => h.loseResv_queues none pa data.length) _ n
    · exact ⟨rfl, rfl, rfl, fun n => rfl⟩
  obtain ⟨l, hl⟩ := (s.rawWrite none pa data bad).l2Wrote_eq pa data.length none
  show s.Stores pa data ((s.rawWrite none pa data bad).l2Wrote pa data.length none)
  rw [hl]
  exact ⟨hraw.mem, hraw.banks, hraw.inflight, hraw.queues⟩

theorem State.restartWaits_queues (p : Hart → WaitOn → Bool) (s : State) (n : Nat) :
    ((s.restartWaits p).getHart n).queues = (s.getHart n).queues := by
  refine State.mapHarts_queues (fun h => ?_) (fun h => ?_) s n
  · split
    · split <;> rfl
    · rfl
  · split
    · split <;> rfl
    · rfl

/-- A message gone from those in flight, and the timers of its sender's waits begun anew. -/
theorem State.landIdx_landed {n : Nat} {m : Msg} (hm : s.inflight[n]? = some m) (hl : s.mayLand n = true) (ht : s.landMsg m = some t) :
    (s.landIdx n).inflight = t.inflight.eraseIdx n ∧ (s.landIdx n).mem = t.mem ∧ (s.landIdx n).banks = t.banks
      ∧ ∀ k, ((s.landIdx n).getHart k).queues = (t.getHart k).queues := by
  unfold State.landIdx
  simp only [hm, hl, ht, Bool.not_true, Bool.false_eq_true, if_false]
  split
  next src _ =>
    exact ⟨rfl, rfl, rfl, State.restartWaits_queues (waitsPush src) { t with inflight := t.inflight.eraseIdx n }⟩
  · exact ⟨rfl, rfl, rfl, fun k => rfl⟩

theorem State.landIdx_none {n : Nat} (h : s.inflight[n]? = none ∨ s.mayLand n = false) : s.landIdx n = s := by
  unfold State.landIdx
  split
  · rfl
  next m hm => rw [hm, or_iff_right nofun] at h; simp [h]

theorem State.landIdx_waits {n : Nat} {m : Msg} (hm : s.inflight[n]? = some m) (ht : s.landMsg m = none) : s.landIdx n = s := by
  unfold State.landIdx
  simp only [hm, ht]
  split <;> rfl

/-- A message to a stream core's queue with a free entry, whose place lies in SCRATCH banks that do not change (R191). -/
theorem State.landMsg_queue {m : Msg} {e : Nat} (hf : m.toFifo = false) (he : (s.getHart (scNum m.cl m.dest)).freeEntry m.queue = some e)
    {a : Nat} (ha : a = m.land.getD ((s.handler m.cl m.dest m.queue 1).toNat + 32 * e)) (h1 : s.changingAt a = false)
    (h2 : s.changingAt (a + m.data.length - 1) = false) (hs : inScratch s m.cl a (max m.data.length 1) = true) :
    s.landMsg m = some ((s.visWrite none a m.data m.poisoned).modHart (scNum m.cl m.dest)
      (·.pushEntry m.queue ⟨e, BitVec.ofNat 64 a, m.data.length⟩)) := by
  unfold State.landMsg State.landQueue
  cases hland : m.land with
  | none =>
    rw [hland, Option.getD_none] at ha
    subst ha
    simp only [hf, he, h1, h2, hs, Bool.false_eq_true, Bool.or_self, Bool.not_true, if_false]
  | some b =>
    rw [hland, Option.getD_some] at ha
    subst ha
    simp only [hf, he, h1, h2, hs, Bool.false_eq_true, Bool.or_self, Bool.not_true, if_false]

theorem State.modHart_mem (s : State) (m : Nat) (f : Hart → Hart) : (s.modHart m f).mem = s.mem := by
  unfold State.modHart State.setHart
  split <;> rfl

theorem State.modHart_inflight (s : State) (m : Nat) (f : Hart → Hart) : (s.modHart m f).inflight = s.inflight := by
  unfold State.modHart State.setHart
  split <;> rfl

theorem Hart.queueOf_pushEntry (h : Hart) (q : Nat) (e : QEntry) : (h.pushEntry q e).queueOf q = h.queueOf q ++ [e] := by
  simp only [Hart.queueOf, Hart.pushEntry, tabGet_set, if_true]

/-- What the landing of such a message leaves (R191). -/
theorem State.landIdx_queue {n e : Nat} {m : Msg} (hm : s.inflight[n]? = some m) (hl : s.mayLand n = true) (hf : m.toFifo = false)
    (he : (s.getHart (scNum m.cl m.dest)).freeEntry m.queue = some e)
    {a : Nat} (ha : a = m.land.getD ((s.handler m.cl m.dest m.queue 1).toNat + 32 * e)) (h1 : s.changingAt a = false)
    (h2 : s.changingAt (a + m.data.length - 1) = false) (hs : inScratch s m.cl a (max m.data.length 1) = true) :
    (s.landIdx n).inflight = s.inflight.eraseIdx n ∧ (s.landIdx n).mem = memSetBytes s.mem a m.data
      ∧ ((s.landIdx n).getHart (scNum m.cl m.dest)).queueOf m.queue
        = (s.getHart (scNum m.cl m.dest)).queueOf m.queue ++ [⟨e, BitVec.ofNat 64 a, m.data.length⟩] := by
  obtain ⟨hinf, hmem, -, hqueues⟩ := State.landIdx_landed hm hl (State.landMsg_queue hf he ha h1 h2 hs)
  have hw := s.visWrite_stores a m.data m.poisoned
  refine ⟨?_, ?_, ?_⟩
  · rw [hinf, State.modHart_inflight, hw.inflight]
  · rw [hmem, State.modHart_mem, hw.mem]
  · rw [Hart.queueOf, hqueues, State.getHart_modHart, if_pos rfl, ← Hart.queueOf]
    refine (Hart.queueOf_pushEntry _ _ _).trans ?_
    rw [Hart.queueOf, hw.queues]
    rfl

/-- Bytes laid into a bank's ring lie there one behind another, wrapping at the bank's end (R87). -/
theorem State.ringWrite_bytes (s : State) (cl b o : Nat) {data : List Byte} (bad : Bool) (hd : data.length ≤ 0x40000) :
    let t := s.ringWrite cl b o data bad
    t.banks = s.banks ∧ t.inflight = s.inflight
      ∧ ∀ x, x < data.length → memByte t.mem (bankAddr cl b ((o + x) % 0x40000)) = data.getD x 0 := by
  set r := o % 0x40000 with hr
  have hlt : r < 0x40000 := Nat.mod_lt _ (by omega)
  have hfirst := s.visWrite_stores (bankAddr cl b r) (data.take (0x40000 - r)) bad
  have hlen : (data.take (0x40000 - r)).length = min (0x40000 - r) data.length := List.length_take
  have hat (x : Nat) : (o + x) % 0x40000 = (r + x) % 0x40000 := by omega
  -- a byte before the wrap
  have hinside (x : Nat) (hx : x < data.length) (hx' : x < 0x40000 - r) :
      memByte (memSetBytes s.mem (bankAddr cl b r) (data.take (0x40000 - r))) (bankAddr cl b ((o + x) % 0x40000)) = data.getD x 0 := by
    rw [hat, Nat.mod_eq_of_lt (by omega), show bankAddr cl b (r + x) = bankAddr cl b r + x by simp only [bankAddr]; omega,
      memByte_setBytes_inside _ _ _ _ (by omega), List.getElem_take, List.getD_eq_getElem _ _ hx]
  unfold State.ringWrite
  simp only [← hr]
  split
  next hle =>
    refine ⟨hfirst.banks, hfirst.inflight, fun x hx => ?_⟩
    rw [hfirst.mem]
    exact hinside x hx (by omega)
  next hgt =>
    have hrest := (s.visWrite none (bankAddr cl b r) (data.take (0x40000 - r)) bad).visWrite_stores (bankAddr cl b 0)
      (data.drop (data.take (0x40000 - r)).length) bad
    refine ⟨hrest.banks.trans hfirst.banks, hrest.inflight.trans hfirst.inflight, fun x hx => ?_⟩
    rw [hrest.mem, hfirst.mem]
    by_cases hx' : x < 0x40000 - r
    · rw [memByte_setBytes_outside]
      · exact hinside x hx hx'
      · simp only [bankAddr, List.length_drop, hlen]
        omega
    · have hwrap : bankAddr cl b ((o + x) % 0x40000) = bankAddr cl b 0 + (x - (0x40000 - r)) := by
        simp only [bankAddr]
        omega
      have hin : x - (0x40000 - r) < (data.drop (data.take (0x40000 - r)).length).length := by
        simp only [List.length_drop, hlen]
        omega
      rw [hwrap, memByte_setBytes_inside _ _ _ _ hin, List.getElem_drop, List.getD_eq_getElem _ _ hx]
      congr 1
      omega

/-- What the arrival of a message with the channel tag of a bank that has room leaves (R87). -/
theorem State.landIdx_fifo {n : Nat} {m : Msg} (hm : s.inflight[n]? = some m) (hl : s.mayLand n = true) (hf : m.toFifo = true)
    (hb : (s.bank m.cl m.dest).busy = none) (hmode : (s.bank m.cl m.dest).mode = 3) (hc : (s.bank m.cl m.dest).chan.toNat = m.chan)
    (hroom : (s.bank m.cl m.dest).level + (m.data.length + 127) / 128 * 128 ≤ 0x40000) :
    let k := s.bank m.cl m.dest
    (s.landIdx n).inflight = s.inflight.eraseIdx n
      ∧ (s.landIdx n).bank m.cl m.dest = { k with level := k.level + (m.data.length + 127) / 128 * 128 }
      ∧ ∀ x, x < m.data.length →
          memByte (s.landIdx n).mem (bankAddr m.cl m.dest ((k.head + k.level + x) % 0x40000)) = m.data.getD x 0 := by
  intro k
  have hsize : arrivalBytes m.data.length = (m.data.length + 127) / 128 * 128 := rfl
  have hge : m.data.length ≤ arrivalBytes m.data.length := by rw [hsize]; omega
  rw [← hsize] at hroom ⊢
  set pad := List.replicate (arrivalBytes m.data.length - m.data.length) (0 : Byte) with hpad
  have hlen : (m.data ++ pad).length = arrivalBytes m.data.length := by
    rw [List.length_append, hpad, List.length_replicate]
    omega
  have harrive : s.arrive m.cl m.dest m.chan m.data m.poisoned = .landed (((s.ringWrite m.cl m.dest (k.head + k.level) (m.data ++ pad)
      m.poisoned).setBank m.cl m.dest { k with level := k.level + arrivalBytes m.data.length }).restartWaits (waitsBank m.cl m.dest)) := by
    unfold State.arrive
    dsimp only
    rw [hb, hmode, if_neg (by simp), if_neg (by decide), if_neg (not_not_intro hc), if_pos hroom]
  have hland := (if_pos hf : s.landMsg m = _).trans (by rw [harrive])
  obtain ⟨hbanks, hinf, hbytes⟩ := s.ringWrite_bytes m.cl m.dest (k.head + k.level) m.poisoned (data := m.data ++ pad) (by omega)
  obtain ⟨hinf', hmem, hbank, -⟩ := State.landIdx_landed hm hl hland
  refine ⟨hinf'.trans (congrArg (List.eraseIdx · n) hinf), ?_, fun x hx => ?_⟩
  · rw [State.bank, hbank]
    exact (tabGet_set ..).trans (if_pos rfl)
  · rw [hmem]
    refine (hbytes x (by omega)).trans ?_
    rw [List.getD_eq_getElem _ _ (by omega : x < (m.data ++ pad).length), List.getElem_append_left hx, List.getD_eq_getElem _ _ hx]

end
end Sys2Proof.Machine
end

section
namespace Sys2Proof.Machine

/-! Tasks in and out of slots (R61, R62, R64): what recalls and reservations change, and what they leave. -/

/-- A task that stands in no slot. -/
def QTask.unslotted (q : QTask) : QTask := { q with slots := [] }

/-- What eligibility reads beside the cores, the rows and the queue: two machines that agree in the jobs, the registers and the time; and
in memory. -/
structure State.SameTerms (s t : State) : Prop where
  mem : t.mem = s.mem
  mmio : t.mmio = s.mmio
  counters : t.counters = s.counters
  cycles : t.cycles = s.cycles
  power : t.power = s.power
  jobs : t.dqu.jobs = s.dqu.jobs

section
variable {s t u : State}

theorem State.SameTerms.refl (s : State) : s.SameTerms s := ⟨rfl, rfl, rfl, rfl, rfl, rfl⟩

theorem State.SameTerms.trans (h : s.SameTerms t) (g : t.SameTerms u) : s.SameTerms u :=
  ⟨g.mem.trans h.mem, g.mmio.trans h.mmio, g.counters.trans h.counters, g.cycles.trans h.cycles, g.power.trans h.power, g.jobs.trans h.jobs⟩

theorem State.SameTerms.dquNow (h : s.SameTerms t) : t.dquNow = s.dquNow := by
  simp only [State.dquNow, State.ctrNs, State.counter, h.counters, h.cycles]

theorem State.SameTerms.job? (h : s.SameTerms t) (id : Nat) : t.job? id = s.job? id := by rw [State.job?, h.jobs, State.job?]

theorem State.SameTerms.classOf (h : s.SameTerms t) (q : QTask) : t.classOf q = s.classOf q := by
  simp only [State.classOf, h.job?]

theorem State.SameTerms.startable (h : s.SameTerms t) (j : Job) : t.startable j = s.startable j := by
  simp only [State.startable, State.quarantined, State.mmioGet, h.mmio, h.dquNow]

theorem State.SameTerms.leaseAdmits (h : s.SameTerms t) (j : Job) (k : Nat) : t.leaseAdmits j k = s.leaseAdmits j k := by
  simp only [State.leaseAdmits, State.leaseValid, State.rowLeased, State.lcfg, State.lrows, State.mmioGet, h.mmio]

/-! ### Changes of harts -/

theorem State.modHart_eq (s : State) (m : Nat) (f : Hart → Hart) : ∃ c p, s.modHart m f = { s with cpu := c, parked := p } := by
  unfold State.modHart State.setHart
  split
  · exact ⟨_, _, rfl⟩
  · exact ⟨_, _, rfl⟩

theorem State.modHarts_eq (l : List Nat) (f : Hart → Hart) (s : State) :
    ∃ c p, l.foldl (fun s m => s.modHart m f) s = { s with cpu := c, parked := p } := by
  induction l generalizing s with
  | nil => exact ⟨s.cpu, s.parked, rfl⟩
  | cons m l ih =>
    obtain ⟨c, p, e⟩ := s.modHart_eq m f
    obtain ⟨c', p', e'⟩ := ih (s.modHart m f)
    exact ⟨c', p', e'.trans (by rw [e])⟩

/-- Each of some harts is changed, once or more often by a change that is done with the first. -/
theorem State.getHart_modHarts (l : List Nat) {f : Hart → Hart}
    (hf : l.Nodup ∨ ∀ h m, f { f h with num := m } = { f h with num := m }) (s : State) (n : Nat) :
    (l.foldl (fun s m => s.modHart m f) s).getHart n = if n ∈ l then { f (s.getHart n) with num := n } else s.getHart n := by
  induction l generalizing s with
  | nil => rfl
  | cons m l ih =>
    have hf' : l.Nodup ∨ ∀ h m, f { f h with num := m } = { f h with num := m } := hf.imp_left fun h => (List.nodup_cons.mp h).2
    rw [List.foldl_cons, ih hf', State.getHart_modHart]
    by_cases hl : n ∈ l
    · rw [if_pos hl, if_pos (List.mem_cons_of_mem _ hl)]
      split
      next e =>
        have hagain := hf.resolve_left fun h => (List.nodup_cons.mp h).1 (e ▸ hl)
        rw [hagain, e]
      · rfl
    · simp only [List.mem_cons, hl, or_false, if_false]
      split
      next e => rw [e]
      · rfl

/-! ### The queue -/

theorem State.task?_id {id : Nat} {q : QTask} (h : s.task? id = some q) : q.id = id := by simpa using List.find?_some h

theorem State.task?_mem {id : Nat} {q : QTask} (h : s.task? id = some q) : q ∈ s.dqu.queue := List.mem_of_find?_eq_some h

/-- A task of the queue, found by a number that no other has. -/
theorem State.task?_of_nodup (hn : (s.dqu.queue.map (·.id)).Nodup) {q : QTask} (hq : q ∈ s.dqu.queue) : s.task? q.id = some q := by
  have hfound : (s.task? q.id).isSome := List.find?_isSome.mpr ⟨q, hq, beq_self_eq_true _⟩
  obtain ⟨r, hr⟩ := Option.isSome_iff_exists.mp hfound
  rw [hr, List.inj_on_of_nodup_map hn (State.task?_mem hr) hq (State.task?_id hr)]

theorem State.task?_putTask (s : State) (q : QTask) (id : Nat) :
    (s.putTask q).task? id = if id = q.id then (s.task? id).map fun _ => q else s.task? id := by
  unfold State.putTask State.task?
  dsimp only
  induction s.dqu.queue with
  | nil => split <;> rfl
  | cons a l ih =>
    rw [List.map_cons, List.find?_cons, List.find?_cons, ih]
    by_cases ha : a.id = q.id
    · rw [if_pos (beq_iff_eq.mpr ha), ha]
      by_cases hid : id = q.id
      · simp [hid]
      · rw [if_neg hid, if_neg hid, beq_eq_false_iff_ne.mpr (Ne.symm hid)]
    · rw [if_neg (by simpa using ha)]
      by_cases hid : id = q.id
      · rw [if_pos hid, if_pos hid, hid, beq_eq_false_iff_ne.mpr ha]
      · rw [if_neg hid, if_neg hid]

theorem State.mem_putTask {q b : QTask} (h : b ∈ (s.putTask q).dqu.queue) : b ∈ s.dqu.queue ∧ b.id ≠ q.id ∨ b = q := by
  obtain ⟨a, ha, rfl⟩ := List.mem_map.mp h
  split
  · exact .inr rfl
  next hne => exact .inl ⟨ha, by simpa using hne⟩

theorem State.ids_putTask (s : State) (q : QTask) : (s.putTask q).dqu.queue.map (·.id) = s.dqu.queue.map (·.id) := by
  show (s.dqu.queue.map _).map _ = _
  rw [List.map_map]
  refine List.map_congr_left fun a _ => ?_
  show (if a.id == q.id then q else a).id = a.id
  split
  next h => exact (beq_iff_eq.mp h).symm
  · rfl

/-! ### Recalls -/

/-- On the way from s to t tasks have left slots, and reservations have changed hands. -/
structure State.Recalled (s t : State) : Prop extends s.SameTerms t where
  reclaim : t.dqu.reclaim = s.dqu.reclaim
  ids : t.dqu.queue.map (·.id) = s.dqu.queue.map (·.id)
  hart : ∀ m, ∃ l k, t.getHart m = { s.getHart m with prefetch := l, num := k } ∧ l ⊆ (s.getHart m).prefetch
  task : ∀ id, t.task? id = s.task? id
    ∨ t.task? id = (s.task? id).map QTask.unslotted ∧ ∀ q, s.task? id = some q → ∀ m ∈ q.slots, id ∉ (t.getHart m).prefetch
  queue : ∀ b ∈ t.dqu.queue, ∃ q ∈ s.dqu.queue, b = q ∨ b = q.unslotted

theorem State.Recalled.of_parts (hterms : s.SameTerms t) (hc : t.cpu = s.cpu) (hp : t.parked = s.parked) (he : t.entry = s.entry)
    (hq : t.dqu.queue = s.dqu.queue) (hr : t.dqu.reclaim = s.dqu.reclaim) : s.Recalled t where
  toSameTerms := hterms
  reclaim := hr
  ids := by rw [hq]
  hart m := ⟨(s.getHart m).prefetch, (s.getHart m).num, by simp only [State.getHart, State.freshHart, hc, hp, he], fun _ h => h⟩
  task id := .inl (by rw [State.task?, hq, State.task?])
  queue b hb := ⟨b, hq ▸ hb, .inl rfl⟩

theorem State.Recalled.refl (s : State) : s.Recalled s := .of_parts (.refl s) rfl rfl rfl rfl rfl

theorem State.Recalled.prefetch (h : s.Recalled t) (m : Nat) : (t.getHart m).prefetch ⊆ (s.getHart m).prefetch := by
  obtain ⟨l, k, e, hl⟩ := h.hart m
  rw [e]
  exact hl

theorem State.Recalled.trans (h : s.Recalled t) (g : t.Recalled u) : s.Recalled u where
  toSameTerms := h.toSameTerms.trans g.toSameTerms
  reclaim := g.reclaim.trans h.reclaim
  ids := g.ids.trans h.ids
  hart m := by
    obtain ⟨l, k, e, hl⟩ := h.hart m
    obtain ⟨l', k', e', hl'⟩ := g.hart m
    rw [e] at e' hl'
    exact ⟨l', k', e', List.Subset.trans hl' hl⟩
  task id := by
    rcases h.task id with e | ⟨e, hgone⟩
    · rw [← e]
      exact g.task id
    · refine .inr ⟨?_, fun q hq m hm hin => hgone q hq m hm (g.prefetch m hin)⟩
      rcases g.task id with e' | ⟨e', -⟩
      · rw [e', e]
      · rw [e', e, Option.map_map]
        rfl
  queue b hb := by
    obtain ⟨q, hq, e⟩ := g.queue b hb
    obtain ⟨r, hr, e'⟩ := h.queue q hq
    refine ⟨r, hr, ?_⟩
    rcases e with rfl | rfl
    · exact e'
    · rcases e' with rfl | rfl
      · exact .inr rfl
      · exact .inr rfl

theorem State.Recalled.foldl {α : Type} {f : State → α → State} (hf : ∀ (s : State) (a : α), s.Recalled (f s a)) (l : List α) (s : State) :
    s.Recalled (l.foldl f s) := by
  induction l generalizing s with
  | nil => exact .refl s
  | cons a l ih => exact (hf s a).trans (ih _)

/-- A core takes tasks, and is free, as before. -/
theorem State.Recalled.free (h : s.Recalled t) (m : Nat) : (t.getHart m).free = (s.getHart m).free := by
  obtain ⟨l, k, e, -⟩ := h.hart m
  rw [e]
  rfl

/-- A task that has left its slots stays out of them. -/
theorem State.Recalled.unslotted (h : s.Recalled t) {id : Nat} (hs : ∀ b ∈ s.dqu.queue, b.id = id → b.slots = []) :
    ∀ b ∈ t.dqu.queue, b.id = id → b.slots = [] := by
  intro b hb hid
  obtain ⟨q, hq, rfl | rfl⟩ := h.queue b hb
  · exact hs _ hq hid
  · rfl

/-- The state in which a task's number has left the slots of these cores, and the task has not been told yet. -/
def State.leave (s : State) (id : Nat) (l : List Nat) : State :=
  l.foldl (fun s n => s.modHart n fun h => { h with prefetch := h.prefetch.filter (· != id) }) s

theorem State.leave_eq (s : State) (id : Nat) (l : List Nat) : ∃ c p, s.leave id l = { s with cpu := c, parked := p } := s.modHarts_eq ..

theorem State.getHart_leave (s : State) (id : Nat) (l : List Nat) (n : Nat) : (s.leave id l).getHart n
    = if n ∈ l then { s.getHart n with prefetch := (s.getHart n).prefetch.filter (· != id), num := n } else s.getHart n :=
  State.getHart_modHarts l (.inr fun h m => by simp [List.filter_filter]) s n

theorem State.recall_of_none {id : Nat} (h : s.task? id = none) : s.recall id = s := by simp only [State.recall, h]

theorem State.recall_of_some {id : Nat} {q : QTask} (h : s.task? id = some q) :
    s.recall id = (s.leave id q.slots).putTask q.unslotted := by simp only [State.recall, h]; rfl

theorem State.getHart_recall {id : Nat} {q : QTask} (h : s.task? id = some q) (n : Nat) : (s.recall id).getHart n
    = if n ∈ q.slots then { s.getHart n with prefetch := (s.getHart n).prefetch.filter (· != id), num := n } else s.getHart n := by
  rw [State.recall_of_some h, ← State.getHart_leave]
  rfl

theorem State.task?_recall {id : Nat} {q : QTask} (h : s.task? id = some q) (n : Nat) :
    (s.recall id).task? n = if n = id then some q.unslotted else s.task? n := by
  obtain ⟨c, p, e⟩ := s.leave_eq id q.slots
  rw [State.recall_of_some h, State.task?_putTask, e, show q.unslotted.id = id from (State.task?_id h : q.id = id)]
  show (if n = id then (s.task? n).map _ else s.task? n) = _
  split
  next hn => rw [hn, h]; rfl
  · rfl

theorem State.recalled_recall (s : State) (id : Nat) : s.Recalled (s.recall id) := by
  cases h : s.task? id with
  | none => rw [State.recall_of_none h]; exact .refl s
  | some q =>
    obtain ⟨c, p, e⟩ := s.leave_eq id q.slots
    have hrecall := State.recall_of_some h
    have hstate := hrecall
    rw [e] at hstate
    exact {
      toSameTerms := by rw [hstate]; exact ⟨rfl, rfl, rfl, rfl, rfl, rfl⟩
      reclaim := by rw [hstate]; rfl
      ids := by rw [hstate]; exact State.ids_putTask ..
      hart := fun m => by
        rw [State.getHart_recall h]
        split
        · exact ⟨_, _, rfl, List.filter_sublist.subset⟩
        · exact ⟨_, _, rfl, fun _ hx => hx⟩
      task := fun n => by
        rw [State.task?_recall h]
        split
        next hn =>
          subst hn
          refine .inr ⟨by rw [h]; rfl, fun r hr m hm hin => ?_⟩
          obtain rfl : q = r := Option.some.inj (h.symm.trans hr)
          rw [State.getHart_recall h, if_pos hm] at hin
          exact absurd rfl (bne_iff_ne.mp (List.mem_filter.mp hin).2)
        · exact .inl rfl
      queue := fun b hb => by
        rw [hstate] at hb
        rcases State.mem_putTask hb with ⟨hm, -⟩ | rfl
        · exact ⟨b, hm, .inl rfl⟩
        · exact ⟨q, State.task?_mem h, .inr rfl⟩ }

/-- A recalled task stands in no slot. -/
theorem State.recall_unslotted (s : State) (id : Nat) : ∀ b ∈ (s.recall id).dqu.queue, b.id = id → b.slots = [] := by
  intro b hb hid
  cases h : s.task? id with
  | none =>
    rw [State.recall_of_none h] at hb
    exact absurd (beq_iff_eq.mpr hid) (List.find?_eq_none.mp h b hb)
  | some q =>
    rw [State.recall_of_some h] at hb
    rcases State.mem_putTask hb with ⟨-, hne⟩ | rfl
    · exact absurd (hid.trans (State.task?_id h).symm) hne
    · rfl

theorem State.recalled_recallAll (s : State) (l : List QTask) : s.Recalled (s.recallAll l) := .foldl (fun s (q : QTask) => s.recalled_recall q.id) l s

/-! ### Reservations -/

theorem State.recalled_reserved (s : State) (r : Tab (Option Nat)) : s.Recalled { s with dqu := { s.dqu with reserved := r } } :=
  .of_parts ⟨rfl, rfl, rfl, rfl, rfl, rfl⟩ rfl rfl rfl rfl rfl

theorem State.recalled_reserve (s : State) (k : Nat) (q : QTask) : s.Recalled (s.reserve k q) := by
  unfold State.reserve
  extract_lets before u
  split_ifs
  · exact .refl s
  · exact (s.recalled_recallAll _).trans (State.recalled_reserved ..)

theorem State.recalled_reserveNext (s : State) (k : Nat) : s.Recalled (s.reserveNext k) := by
  unfold State.reserveNext
  split
  · exact s.recalled_reserve ..
  · exact .refl s

theorem State.recalled_passOn (s : State) (b : QTask) (k : Nat) : s.Recalled (s.passOn b k) := by
  unfold State.passOn
  split
  · exact s.recalled_reserve ..
  · exact .refl s

/-- A row whose reservation ends is reserved for the next. -/
def State.passReservation (s : State) (k : Nat) : State :=
  ({ s with dqu := { s.dqu with reserved := tabErase s.dqu.reserved k } } : State).reserveNext k

theorem State.sendBack_eq (s : State) (id : Nat) : s.sendBack id = (s.reservedFor id).foldl State.passReservation (s.recall id) := rfl

theorem State.recalled_passReservation (s : State) (k : Nat) : s.Recalled (s.passReservation k) :=
  (s.recalled_reserved _).trans (State.recalled_reserveNext ..)

theorem State.recalled_sendBack (s : State) (id : Nat) : s.Recalled (s.sendBack id) :=
  (s.recalled_recall id).trans (.foldl State.recalled_passReservation _ _)

theorem State.recalled_sendBackAll (s : State) (l : List QTask) : s.Recalled (s.sendBackAll l) :=
  .foldl (fun s (q : QTask) => s.recalled_sendBack q.id) l s

/-! ### The reservations that a recalled task held -/

theorem mem_tabInsert {α : Type} {t : Tab α} {k : Nat} {v : α} {p : Nat × α} (h : p ∈ tabInsert t k v) : p = (k, v) ∨ p ∈ t := by
  induction t with
  | nil => exact .inl (List.mem_singleton.mp h)
  | cons a r ih =>
    unfold tabInsert at h
    split_ifs at h
    · exact (List.mem_cons.mp h).imp_right (List.mem_cons_of_mem _)
    · exact List.mem_cons.mp h
    · rcases List.mem_cons.mp h with rfl | h
      · exact .inr (List.mem_cons_self ..)
      · exact (ih h).imp_right (List.mem_cons_of_mem _)

theorem mem_of_tabGet {α : Type} {t : Tab (Option α)} {k : Nat} {v : α} (h : tabGet none t k = some v) : (k, some v) ∈ t := by
  induction t with
  | nil => exact absurd h nofun
  | cons a r ih =>
    unfold tabGet at h
    split_ifs at h with hk
    · rw [← hk, ← h]
      exact List.mem_cons_self ..
    · exact List.mem_cons_of_mem _ (ih h)

theorem State.reserved_recall (s : State) (id : Nat) : (s.recall id).dqu.reserved = s.dqu.reserved := by
  cases h : s.task? id with
  | none => rw [State.recall_of_none h]
  | some q =>
    obtain ⟨c, p, e⟩ := s.leave_eq id q.slots
    rw [State.recall_of_some h, e]
    rfl

theorem State.reserved_recallAll (l : List QTask) (s : State) : (s.recallAll l).dqu.reserved = s.dqu.reserved := by
  induction l generalizing s with
  | nil => rfl
  | cons q l ih => exact (ih (s.recall q.id)).trans (s.reserved_recall q.id)

/-- The reservation of a row changes for one task, or none. -/
theorem State.mem_reserved_reserve {k : Nat} {q : QTask} {p : Nat × Option Nat} (h : p ∈ (s.reserve k q).dqu.reserved) :
    p = (k, some q.id) ∨ p ∈ s.dqu.reserved := by
  unfold State.reserve at h
  extract_lets before u at h
  split_ifs at h
  · exact .inr h
  · have hu : u.dqu.reserved = s.dqu.reserved := State.reserved_recallAll _ s
    exact hu ▸ mem_tabInsert h

theorem State.firstOf_eq_none {l : List QTask} (h : s.firstOf l = none) : l = [] := by
  cases l with
  | nil => rfl
  | cons q l =>
    unfold State.firstOf at h
    split at h
    · cases h
    · split at h <;> cases h

theorem State.firstOf_mem {l : List QTask} {q : QTask} (h : s.firstOf l = some q) : q ∈ l := by
  induction l generalizing q with
  | nil => cases h
  | cons a l ih =>
    unfold State.firstOf at h
    split at h
    · exact Option.some.inj h ▸ List.mem_cons_self ..
    next r hr =>
      split at h
      · exact Option.some.inj h ▸ List.mem_cons_of_mem _ (ih hr)
      · exact Option.some.inj h ▸ List.mem_cons_self ..

/-- A task in no slot gets no reservation that ends for another. -/
theorem State.mem_reserved_passReservation {id k : Nat} (hs : ∀ b ∈ s.dqu.queue, b.id = id → b.slots = []) {p : Nat × Option Nat}
    (h : p ∈ (s.passReservation k).dqu.reserved) (hp : p.2 = some id) : p ∈ s.dqu.reserved ∧ p.1 ≠ k := by
  have hold {p : Nat × Option Nat} (h : p ∈ tabErase s.dqu.reserved k) : p ∈ s.dqu.reserved ∧ p.1 ≠ k :=
    ⟨(List.mem_filter.mp h).1, bne_iff_ne.mp (List.mem_filter.mp h).2⟩
  unfold State.passReservation State.reserveNext at h
  split at h
  next q hq =>
    rcases State.mem_reserved_reserve h with rfl | h
    · have hslot : q ∈ s.dqu.queue ∧ q.slots ≠ [] := by
        have hq := (List.mem_filter.mp (List.mem_filter.mp (State.firstOf_mem hq)).1)
        refine ⟨hq.1, fun he => ?_⟩
        have hany := hq.2
        rw [he] at hany
        exact absurd hany Bool.false_ne_true
      exact absurd (hs q hslot.1 (Option.some.inj hp)) hslot.2
    · exact hold h
  · exact hold h

/-- A task that has gone back to the tideline holds no reservation (R62, R64). -/
theorem State.sendBack_not_reserved (s : State) (id r : Nat) : tabGet none (s.sendBack id).dqu.reserved r ≠ some id := by
  have hfold (l : List Nat) (t : State) (hs : ∀ b ∈ t.dqu.queue, b.id = id → b.slots = [])
      (hl : ∀ p ∈ t.dqu.reserved, p.2 = some id → p.1 ∈ l) :
      ∀ p ∈ (l.foldl State.passReservation t).dqu.reserved, p.2 ≠ some id := by
    induction l generalizing t with
    | nil => exact fun p hp he => absurd (hl p hp he) List.not_mem_nil
    | cons k l ih =>
      refine ih _ ((t.recalled_passReservation k).unslotted hs) fun p hp he => ?_
      obtain ⟨hold, hne⟩ := State.mem_reserved_passReservation hs hp he
      exact (List.mem_cons.mp (hl p hold he)).resolve_left hne
  intro hr
  rw [State.sendBack_eq] at hr
  refine hfold _ (s.recall id) (s.recall_unslotted id) (fun p hp he => ?_) _ (mem_of_tabGet hr) rfl
  rw [State.reserved_recall] at hp
  exact List.mem_filterMap.mpr ⟨p, hp, if_pos he⟩

end
end Sys2Proof.Machine
end

section
namespace Sys2Proof.Machine

/-! What a core starts, and what is prefetched into its slots (R60 to R64). -/

section
variable {s t u : State} {n : Nat}

/-- Whether a slotted task of job j may start on a core (R60, R67, R71, R372). -/
def State.startsOn (s : State) (j : Job) (n : Nat) : Prop :=
  s.startable j = true ∧ (isVcNum n = true → s.leaseAdmits j (rowOfHart n) = true) ∧ s.power.locked = true
    ∧ s.power.shutdown = false ∧ s.power.fatal = none

theorem State.SameTerms.startsOn (h : s.SameTerms t) {j : Job} (hs : s.startsOn j n) : t.startsOn j n := by
  obtain ⟨hstart, hlease, hl, hd, hf⟩ := hs
  exact ⟨by rw [h.startable, hstart], fun hv => by rw [h.leaseAdmits, hlease hv], by rw [h.power, hl], by rw [h.power, hd], by rw [h.power, hf]⟩

theorem State.SameTerms.messagesWait (h : s.SameTerms t) (hq : (t.getHart n).queues = (s.getHart n).queues) :
    t.messagesWait n = s.messagesWait n := by
  simp only [State.messagesWait, Hart.queueOf, State.handler, State.mmioGet, h.mmio, hq]

/-- What an eligible task's job, and the module, have to be like (R60, R67, R69). -/
theorem State.eligible_spec {q : QTask} (h : s.eligible q n = true) : ∃ j, s.job? q.job = some j ∧ s.startsOn j n
    ∧ (isVcNum n = true → j.runClass = 2 → tabGet none s.dqu.reclaim (rowOfHart n) = none) ∧ (q.desc.kind = 1 → isVcNum n = true) := by
  unfold State.eligible at h
  split at h
  · exact absurd h Bool.false_ne_true
  next j hj =>
    simp only [Bool.and_eq_true, Bool.or_eq_true, Bool.not_eq_true', Option.isNone_iff_eq_none, bne_iff_ne] at h
    obtain ⟨⟨⟨⟨⟨⟨⟨hl, hd⟩, hf⟩, hs⟩, -⟩, hk⟩, hv⟩, -⟩ := h
    have hrow (hn : isVcNum n = true) := hv.resolve_left (by simp [hn])
    refine ⟨j, hj, ⟨hs, fun hn => (hrow hn).1, hl, hd, hf⟩, fun hn hc => (hrow hn).2.resolve_left (by simp [hc]), fun h1 => ?_⟩
    rw [h1] at hk
    exact (Bool.and_eq_true_iff.mp (Bool.and_eq_true_iff.mp hk).1).1

/-! ### Starts -/

/-- A core that is not free, or that has a message to serve first, starts nothing (R57, R61). -/
theorem State.startNext_of_occupied (h : (s.getHart n).free = false ∨ s.messagesWait n = true) : s.startNext n = s := by
  have hno : (!(s.getHart n).free || s.messagesWait n) = true := by rcases h with h | h <;> simp [h]
  unfold State.startNext
  simp only [hno, Bool.true_or, if_true]
  split
  · rfl
  · split
    · rfl
    · split <;> rfl

theorem State.startNext_of_busy (h : (s.getHart n).free = false) : s.startNext n = s := State.startNext_of_occupied (.inl h)

theorem State.startNext_stays (h : (s.getHart n).free = false ∨ (s.getHart n).prefetch = [] ∨ s.messagesWait n = true) :
    s.startNext n = s := by
  rcases h with h | h | h
  · exact State.startNext_of_busy h
  · exact State.startNext_of_no_prefetch h
  · exact State.startNext_of_occupied (.inr h)

section
variable {id : Nat} {rest : List Nat} {q : QTask} {j : Job} (hp : (s.getHart n).prefetch = id :: rest) (ht : s.task? id = some q)
  (hj : s.job? q.job = some j) (hf : (s.getHart n).free = true) (hm : s.messagesWait n = false)
include hp ht hj

/-- A task whose start something forbids stays in its slot. -/
theorem State.startNext_forbidden (hs : ¬s.startsOn j n) : s.startNext n = s := by
  have hno : (!(s.getHart n).free || s.messagesWait n || !s.mayStart q n || !s.power.locked || s.power.shutdown || s.power.fatal.isSome)
      = true := by
    by_contra hc
    refine hs ?_
    simp only [State.mayStart, hj, Bool.not_eq_true, Bool.or_eq_false_iff, Bool.not_eq_false', Bool.and_eq_true,
      Option.isSome_eq_false_iff, Option.isNone_iff_eq_none] at hc
    obtain ⟨⟨⟨⟨-, hstart, hv⟩, hl⟩, hd⟩, hfat⟩ := hc
    exact ⟨hstart, fun hn => by simpa [hn] using hv, hl, hd, hfat⟩
  unfold State.startNext
  simp only [hp, ht, hj, hno, if_true]

include hf hm

/-- The task of the older slot starts on a free core (R61). -/
theorem State.startNext_starts (hk : q.desc.kind ≠ 1) (hs : s.startsOn j n) :
    s.startNext n = ((s.dropTask id).startOn q j n).trimDeficits := by
  obtain ⟨hstart, hlease, hl, hd, hfat⟩ := hs
  have hmay : s.mayStart q n = true := by
    simp only [State.mayStart, hj, hstart, Bool.true_and]
    cases hv : isVcNum n
    · rfl
    · exact hlease hv
  have hk' : (q.desc.kind == 1) = false := beq_eq_false_iff_ne.mpr hk
  unfold State.startNext
  simp only [hp, ht, hj, hf, hm, hmay, hl, hd, hfat, hk', Bool.not_true, Bool.or_self, Option.isSome_none, Bool.false_eq_true, if_false]

end

theorem State.startOn_mem (s : State) (q : QTask) (j : Job) (m : Nat) : (s.startOn q j m).mem = s.mem := by
  unfold State.startOn
  extract_lets b u
  split
  · exact State.modHart_mem ..
  · exact State.modHart_mem ..

theorem State.task?_dropTask (s : State) (id : Nat) : (s.dropTask id).task? id = none :=
  List.find?_eq_none.mpr fun _ hq he => bne_iff_ne.mp (List.mem_filter.mp hq).2 (beq_iff_eq.mp he)

/-- What a core runs once a task has started on it (R49). -/
theorem State.startedOn (s : State) (q : QTask) (j : Job) (n id : Nat) :
    let t := ((s.dropTask id).startOn q j n).trimDeficits
    (∃ r, (t.getHart n).run = .task r ∧ r.id = q.id ∧ r.job = q.job ∧ r.tidx = q.tidx) ∧ (t.getHart n).pc = q.desc.entry
      ∧ (t.getHart n).prefetch = ((s.recall id).getHart n).prefetch ∧ t.task? id = none ∧ t.mem = s.mem := by
  intro t
  obtain ⟨b, c, e⟩ := (s.dropTask id).getHart_startOn q j n
  have hg : t.getHart n = { ((s.dropTask id).getHart n).startTask j q b c (s.dropTask id).cycles with num := n } := e
  refine ⟨?_, by rw [hg]; rfl, by rw [hg]; rfl, ?_, ?_⟩
  · rw [hg]
    exact ⟨_, rfl, rfl, rfl, rfl⟩
  · show ((s.dropTask id).startOn q j n).task? id = none
    rw [State.task?, State.startOn_dqu]
    exact s.task?_dropTask id
  · exact ((s.dropTask id).startOn_mem q j n).trans (s.recalled_recall id).mem

/-! ### Choices -/

/-- The DQU with another round robin (R68). -/
def State.withRobin (s : State) (d : Tab Int) (p : Nat) : State := { s with dqu := { s.dqu with deficit := d, pointer := p } }

theorem State.drr_spec {l : List QTask} {q : QTask} (h : s.drr l = some (q, u)) : q ∈ l ∧ ∃ d p, u = s.withRobin d p := by
  have hhead {f : QTask → Bool} {v : State} (hm : ((s.firstOf (l.filter f)).map fun r => (r, v)) = some (q, u)) : q ∈ l ∧ u = v := by
    obtain ⟨r, hr, e⟩ := Option.map_eq_some_iff.mp hm
    obtain ⟨rfl, rfl⟩ := Prod.mk.inj e
    exact ⟨(List.mem_filter.mp (State.firstOf_mem hr)).1, rfl⟩
  unfold State.drr at h
  extract_lets cand head age aged best at h
  split at h
  · obtain ⟨hq, hu⟩ := hhead h
    exact ⟨hq, s.dqu.deficit, s.dqu.pointer, hu⟩
  · split at h
    · cases h
    · obtain ⟨hq, hu⟩ := hhead h
      exact ⟨hq, _, _, hu⟩

theorem State.choose_spec {ok : QTask → Bool} {q : QTask} (h : s.choose n ok = some (q, u)) :
    q ∈ s.dqu.queue ∧ s.eligible q n = true ∧ ∃ d p, u = s.withRobin d p := by
  have hlist {f : QTask → Bool} (hm : q ∈ (s.dqu.queue.filter fun t => ok t && s.eligible t n).filter f) :
      q ∈ s.dqu.queue ∧ s.eligible q n = true := by
    obtain ⟨hq, hok⟩ := List.mem_filter.mp (List.mem_filter.mp hm).1
    exact ⟨hq, (Bool.and_eq_true_iff.mp hok).2⟩
  have hfirst {l : List QTask} {o : Option QTask} (ho : s.firstOf l = o) (hm : o.map (fun r => (r, s)) = some (q, u)) :
      q ∈ l ∧ u = s.withRobin s.dqu.deficit s.dqu.pointer := by
    obtain ⟨r, hr, e⟩ := Option.map_eq_some_iff.mp hm
    obtain ⟨rfl, rfl⟩ := Prod.mk.inj e
    exact ⟨State.firstOf_mem (ho.trans hr), rfl⟩
  unfold State.choose at h
  extract_lets ts cls at h
  split at h
  next r hr =>
    obtain ⟨hq, hu⟩ := hfirst hr h
    exact ⟨(hlist hq).1, (hlist hq).2, _, _, hu⟩
  · split at h
    next r hr =>
      obtain ⟨hq, hu⟩ := hfirst hr h
      exact ⟨(hlist hq).1, (hlist hq).2, _, _, hu⟩
    · split at h
      next r hr =>
        obtain ⟨hq, hu⟩ := State.drr_spec (hr.trans h)
        exact ⟨(hlist hq).1, (hlist hq).2, hu⟩
      · obtain ⟨hq, hu⟩ := hfirst rfl h
        exact ⟨(hlist hq).1, (hlist hq).2, _, _, hu⟩

/-! ### Places -/

theorem State.place_of_some {id : Nat} {ns : List Nat} {q : QTask} (h : s.task? id = some q) :
    s.place id ns = (ns.foldl (fun s n => s.modHart n fun h => { h with prefetch := h.prefetch ++ [id] }) s).putTask { q with slots := ns } := by
  simp only [State.place, h]

theorem State.placed_eq {id : Nat} {ns : List Nat} {q : QTask} (h : s.task? id = some q) :
    ∃ c p, s.place id ns = ({ s with cpu := c, parked := p } : State).putTask { q with slots := ns } := by
  obtain ⟨c, p, e⟩ := s.modHarts_eq ns fun h => { h with prefetch := h.prefetch ++ [id] }
  exact ⟨c, p, by rw [State.place_of_some h, e]⟩

theorem State.getHart_place {id : Nat} {ns : List Nat} {q : QTask} (h : s.task? id = some q) (hn : ns.Nodup) (m : Nat) :
    (s.place id ns).getHart m
      = if m ∈ ns then { s.getHart m with prefetch := (s.getHart m).prefetch ++ [id], num := m } else s.getHart m := by
  rw [State.place_of_some h]
  exact State.getHart_modHarts ns (.inl hn) s m

theorem State.free_place {id : Nat} {ns : List Nat} {q : QTask} (h : s.task? id = some q) (hn : ns.Nodup) (m : Nat) :
    ((s.place id ns).getHart m).free = (s.getHart m).free := by
  rw [State.getHart_place h hn]
  split <;> rfl

theorem State.sameTerms_place {id : Nat} {ns : List Nat} {q : QTask} (h : s.task? id = some q) : s.SameTerms (s.place id ns) := by
  obtain ⟨c, p, e⟩ := State.placed_eq (ns := ns) h
  rw [e]
  exact ⟨rfl, rfl, rfl, rfl, rfl, rfl⟩

theorem State.task?_place {id : Nat} {ns : List Nat} {q : QTask} (h : s.task? id = some q) :
    (s.place id ns).task? id = some { q with slots := ns } := by
  obtain ⟨c, p, e⟩ := State.placed_eq (ns := ns) h
  rw [e, State.task?_putTask, if_pos (State.task?_id h).symm]
  show (s.task? id).map _ = _
  rw [h]
  rfl

theorem nodup_rowHarts (k : Nat) : (rowHarts k).Nodup :=
  List.nodup_range.map fun a b h => by simp only [vcNum] at h; omega

/-- A row that no task has reserved, with no VC task in its cores' slots, is reserved as it is (R64). -/
theorem State.reserve_fresh {k : Nat} {q : QTask} (hr : tabGet none s.dqu.reserved k = none)
    (hs : (s.rowSlotted k).all (fun b => b.desc.kind != 0) = true) :
    s.reserve k q = { s with dqu := { s.dqu with reserved := tabInsert s.dqu.reserved k (some q.id) } } := by
  have hnone : ((s.rowSlotted k).filter fun b => b.desc.kind == 0 || some b.id == none) = [] := by
    refine List.filter_eq_nil_iff.mpr fun b hb => ?_
    have := List.all_eq_true.mp hs b hb
    simpa using this
  unfold State.reserve
  simp only [hr, Option.bind_none, Option.map_none, Bool.false_eq_true, if_false, hnone]
  rfl

/-! ### The events -/

/-- The filling of a core's slots once everything has been recalled (R61, R63, R64). -/
def State.fill (s : State) (n : Nat) : State :=
  let h := s.getHart n
  if h.prefetch.length ≥ 2 || !h.takesTasks then s.startNext n
  else
    match s.choose n fun q => q.slots.isEmpty with
    | none => s.startNext n
    | some (q, u) =>
      if q.desc.kind == 1 then
        let v := u.reserve (rowOfHart n) q
        if (rowHarts (rowOfHart n)).all fun m => decide ((v.getHart m).prefetch.length < 2) then
          (v.place q.id (rowHarts (rowOfHart n))).startNext n
        else v
      else (u.place q.id [n]).startNext n

theorem State.prefetchFill_eq (s : State) (n : Nat) :
    s.prefetchFill n = ((s.reclaims.recallables n).foldl State.recallOne s.reclaims).fill n := rfl

theorem State.reclaimRow_unwanted {k : Nat} (h : ∀ q ∈ s.dqu.queue, s.wantsRow k q = false) : s.reclaimRow k = s := by
  have hnil : s.dqu.queue.filter (s.wantsRow k) = [] := List.filter_eq_nil_iff.mpr fun q hq => by rw [h q hq]; exact Bool.false_ne_true
  unfold State.reclaimRow
  rw [hnil]
  rfl

section
variable (hcalm : ∀ r q, q ∈ s.dqu.queue → s.wantsRow r q = false)
include hcalm

theorem State.reclaims_calm : s.reclaims = s := List.foldl_fixed' (fun r => State.reclaimRow_unwanted (hcalm r)) _

theorem State.prefetchFill_calm (hr : s.recallables n = []) : s.prefetchFill n = s.fill n := by
  rw [State.prefetchFill_eq, State.reclaims_calm hcalm, hr, List.foldl_nil]

end

/-- Nothing is placed where both slots are taken, the core takes no task, or none is chosen. -/
theorem State.fill_nothing (h : 2 ≤ (s.getHart n).prefetch.length ∨ (s.getHart n).takesTasks = false
    ∨ (s.choose n fun q => q.slots.isEmpty) = none) : s.fill n = s.startNext n := by
  unfold State.fill
  dsimp only
  split
  · rfl
  next hgo =>
    simp only [ge_iff_le, Bool.or_eq_true, decide_eq_true_eq, Bool.not_eq_true', not_or, Bool.not_eq_false] at hgo
    have hnone := (h.resolve_left hgo.1).resolve_left (by simp [hgo.2])
    rw [hnone]

section
variable {q : QTask} (hlen : (s.getHart n).prefetch.length < 2) (htakes : (s.getHart n).takesTasks = true)
  (hchoose : (s.choose n fun q => q.slots.isEmpty) = some (q, u))
include hlen htakes hchoose

theorem State.fill_task (hk : q.desc.kind ≠ 1) : s.fill n = (u.place q.id [n]).startNext n := by
  have hgo : ¬((decide ((s.getHart n).prefetch.length ≥ 2) || !(s.getHart n).takesTasks) = true) := by
    simp [htakes, hlen]
  unfold State.fill
  dsimp only
  rw [if_neg hgo, hchoose]
  exact if_neg fun h => hk (beq_iff_eq.mp h)

theorem State.fill_row (hk : q.desc.kind = 1) : s.fill n = if (rowHarts (rowOfHart n)).all fun m =>
      decide (((u.reserve (rowOfHart n) q).getHart m).prefetch.length < 2) then
      ((u.reserve (rowOfHart n) q).place q.id (rowHarts (rowOfHart n))).startNext n
    else u.reserve (rowOfHart n) q := by
  have hgo : ¬((decide ((s.getHart n).prefetch.length ≥ 2) || !(s.getHart n).takesTasks) = true) := by
    simp [htakes, hlen]
  unfold State.fill
  dsimp only
  rw [if_neg hgo, hchoose]
  exact if_pos (beq_iff_eq.mpr hk)

omit hlen htakes in
/-- A chosen task is in the queue, and so can be found there by its number. -/
theorem State.chosen_task? : ∃ k, u.task? q.id = some k ∧ k.id = q.id := by
  obtain ⟨hq, -, d, p, rfl⟩ := State.choose_spec hchoose
  have hfound : (s.task? q.id).isSome := List.find?_isSome.mpr ⟨q, hq, beq_self_eq_true _⟩
  obtain ⟨k, hk⟩ := Option.isSome_iff_exists.mp hfound
  exact ⟨k, hk, State.task?_id hk⟩

/-- A chosen task goes into the younger slot of a core that is not free (R61). -/
theorem State.fill_busy (hk : q.desc.kind ≠ 1) (hf : (s.getHart n).free = false) :
    ((s.fill n).getHart n).prefetch = (s.getHart n).prefetch ++ [q.id] ∧ (s.fill n).mem = s.mem
      ∧ ∃ k, (s.fill n).task? q.id = some k ∧ k.slots = [n] := by
  obtain ⟨k, hk', -⟩ := State.chosen_task? hchoose
  obtain ⟨-, -, d, p, rfl⟩ := State.choose_spec hchoose
  have hnodup : [n].Nodup := List.nodup_singleton n
  have hbusy : (((s.withRobin d p).place q.id [n]).getHart n).free = false := (State.free_place hk' hnodup n).trans hf
  rw [State.fill_task hlen htakes hchoose hk, State.startNext_of_busy hbusy]
  refine ⟨?_, (State.sameTerms_place hk').mem, _, State.task?_place hk', rfl⟩
  rw [State.getHart_place hk' hnodup, if_pos (List.mem_singleton_self n)]
  rfl

/-- A chosen task starts at once on a free core (R61). -/
theorem State.fill_free (hk : q.desc.kind ≠ 1) (hf : (s.getHart n).free = true) (hp : (s.getHart n).prefetch = [])
    (hm : s.messagesWait n = false) (hq : s.task? q.id = some q) :
    let t := s.fill n
    (∃ r, (t.getHart n).run = .task r ∧ r.id = q.id ∧ r.job = q.job ∧ r.tidx = q.tidx) ∧ (t.getHart n).pc = q.desc.entry
      ∧ (t.getHart n).prefetch = [] ∧ t.task? q.id = none ∧ t.mem = s.mem := by
  obtain ⟨-, helig, d, p, rfl⟩ := State.choose_spec hchoose
  obtain ⟨j, hj, hs, -, -⟩ := State.eligible_spec helig
  have hq' : (s.withRobin d p).task? q.id = some q := hq
  have hnodup : [n].Nodup := List.nodup_singleton n
  let v := (s.withRobin d p).place q.id [n]
  have hterms : s.SameTerms v := .trans (t := s.withRobin d p) ⟨rfl, rfl, rfl, rfl, rfl, rfl⟩ (State.sameTerms_place hq')
  have hv : v.getHart n = { s.getHart n with prefetch := [q.id], num := n } := by
    refine (State.getHart_place hq' hnodup n).trans ((if_pos (List.mem_singleton_self n)).trans ?_)
    show ({ s.getHart n with prefetch := (s.getHart n).prefetch ++ [q.id], num := n } : Hart) = _
    rw [hp]
    rfl
  have htask : v.task? q.id = some { q with slots := [n] } := State.task?_place hq'
  have hstart := State.startNext_starts (s := v) (n := n) (rest := []) (by rw [hv]) htask ((hterms.job? _).trans hj)
    ((State.free_place hq' hnodup n).trans hf) ((hterms.messagesWait (by rw [hv])).trans hm) hk (hterms.startsOn hs)
  obtain ⟨hrun, hpc, hpre, hgone, hmem⟩ := v.startedOn { q with slots := [n] } j n q.id
  intro t
  have ht : t = ((v.dropTask q.id).startOn { q with slots := [n] } j n).trimDeficits := (State.fill_task hlen htakes hchoose hk).trans hstart
  rw [ht]
  refine ⟨hrun, hpc, hpre.trans ?_, hgone, hmem.trans hterms.mem⟩
  rw [State.getHart_recall htask, if_pos (List.mem_singleton_self n), hv]
  simp

/-- A chosen ROW task goes into the slots of its row's cores and reserves the row, where no VC task and no other reservation stands
in its way (R64). -/
theorem State.fill_row_busy (hk : q.desc.kind = 1) (hf : (s.getHart n).free = false) (hr : tabGet none s.dqu.reserved (rowOfHart n) = none)
    (hs : (s.rowSlotted (rowOfHart n)).all (fun b => b.desc.kind != 0) = true)
    (hroom : ∀ m ∈ rowHarts (rowOfHart n), (s.getHart m).prefetch.length < 2) :
    tabGet none (s.fill n).dqu.reserved (rowOfHart n) = some q.id ∧ (s.fill n).mem = s.mem
      ∧ ∀ m ∈ rowHarts (rowOfHart n), ((s.fill n).getHart m).prefetch = (s.getHart m).prefetch ++ [q.id] := by
  obtain ⟨k, hk', -⟩ := State.chosen_task? hchoose
  obtain ⟨-, -, d, p, rfl⟩ := State.choose_spec hchoose
  let v := (s.withRobin d p).reserve (rowOfHart n) q
  have hv : v = { s.withRobin d p with dqu := { (s.withRobin d p).dqu with reserved := tabInsert s.dqu.reserved (rowOfHart n) (some q.id) } } :=
    State.reserve_fresh (s := s.withRobin d p) hr hs
  have hroom' : ((rowHarts (rowOfHart n)).all fun m => decide ((v.getHart m).prefetch.length < 2)) = true :=
    List.all_eq_true.mpr fun m hm => decide_eq_true (by rw [hv]; exact hroom m hm)
  have htask : v.task? q.id = some k := by rw [hv]; exact hk'
  have hnodup := nodup_rowHarts (rowOfHart n)
  have hbusy : ((v.place q.id (rowHarts (rowOfHart n))).getHart n).free = false := by
    rw [State.free_place htask hnodup, hv]
    exact hf
  rw [State.fill_row hlen htakes hchoose hk, if_pos hroom', State.startNext_of_busy hbusy]
  refine ⟨?_, ?_, fun m hm => ?_⟩
  · obtain ⟨c, w, e⟩ := State.placed_eq (ns := rowHarts (rowOfHart n)) htask
    rw [e, hv]
    exact (tabGet_insert ..).trans (if_pos rfl)
  · rw [(State.sameTerms_place htask).mem, hv]
    rfl
  · rw [State.getHart_place htask hnodup, if_pos hm, hv]
    rfl

end

/-! ### Recalls -/

theorem State.foldl_startNext_of_busy {l : List Nat} (h : ∀ m ∈ l, (s.getHart m).free = false) : l.foldl State.startNext s = s := by
  induction l with
  | nil => rfl
  | cons m l ih =>
    rw [List.foldl_cons, State.startNext_of_busy (h m (List.mem_cons_self ..))]
    exact ih fun k hk => h k (List.mem_cons_of_mem _ hk)

/-- The reservations of a task pass to those that come before it. -/
def State.passAllOn (s : State) (b : QTask) : State := (s.reservedFor b.id).foldl (fun s k => s.passOn b k) s

theorem State.recalled_passAllOn (s : State) (b : QTask) : s.Recalled (s.passAllOn b) := .foldl (fun s k => s.recalled_passOn b k) _ s

theorem State.recalled_back (s : State) (b : QTask) : s.Recalled ((s.passAllOn b).sendBack b.id) :=
  (s.recalled_passAllOn b).trans (State.recalled_sendBack ..)

/-- Where no core of the task is free, none starts another task behind it. -/
theorem State.recallOne_of_busy {b : QTask} (h : ∀ m ∈ b.slots, (s.getHart m).free = false) :
    s.recallOne b = (s.passAllOn b).sendBack b.id :=
  State.foldl_startNext_of_busy fun m hm => ((s.recalled_back b).free m).trans (h m hm)

/-- A task that is found by a number stands in no slot after the recall of that number. -/
theorem State.Recalled.sendBack_task? {id : Nat} {k : QTask} (h : s.Recalled t) (hk : s.task? id = some k) :
    (t.sendBack id).task? id = some k.unslotted := by
  have hkept {v w : State} (g : v.Recalled w) (hv : v.task? id = some k.unslotted) : w.task? id = some k.unslotted := by
    rcases g.task id with e | ⟨e, -⟩
    · rw [e, hv]
    · rw [e, hv]
      rfl
  rw [State.sendBack_eq]
  refine hkept (.foldl State.recalled_passReservation _ _) ?_
  rcases h.task id with e | ⟨e, -⟩
  · rw [State.task?_recall (e.trans hk), if_pos rfl]
  · rw [hk] at e
    rw [State.task?_recall e, if_pos rfl]
    rfl

/-- What a recall leaves where the cores of the task are not free (R62). -/
theorem State.recallOne_spec {b k : QTask} (h : ∀ m ∈ b.slots, (s.getHart m).free = false) (hk : s.task? b.id = some k) :
    let t := s.recallOne b
    t.mem = s.mem ∧ t.task? b.id = some k.unslotted ∧ (∀ m ∈ k.slots, b.id ∉ (t.getHart m).prefetch)
      ∧ (∀ r, tabGet none t.dqu.reserved r ≠ some b.id)
      ∧ (s.reservedFor b.id = [] → ∀ m ∈ k.slots, (t.getHart m).prefetch = (s.getHart m).prefetch.filter (· != b.id)) := by
  intro t
  have ht : t = (s.passAllOn b).sendBack b.id := State.recallOne_of_busy h
  have hrecalled := s.recalled_back b
  have htask := (s.recalled_passAllOn b).sendBack_task? hk
  rw [ht]
  refine ⟨hrecalled.mem, htask, fun m hm => ?_, State.sendBack_not_reserved _ b.id, fun hnone m hm => ?_⟩
  · rcases hrecalled.task b.id with e | ⟨-, hgone⟩
    · have hslots : k.slots = [] := congrArg QTask.slots (Option.some.inj ((e.trans hk).symm.trans htask))
      exact absurd (hslots ▸ hm) List.not_mem_nil
    · exact hgone k hk m hm
  · have hpass : s.passAllOn b = s := by rw [State.passAllOn, hnone, List.foldl_nil]
    rw [hpass, State.sendBack_eq, hnone, List.foldl_nil, State.getHart_recall hk, if_pos hm]

end
end Sys2Proof.Machine
end

section
namespace Sys2Proof.Machine

/-! Reclaim of a lent row (R61, R69). -/

section
variable {s t : State} {k n : Nat} {x : Reclaim}

/-- Row k is under reclaim x, no class-2 task stands in its cores' slots, and no core is free to start one of others. -/
structure State.RowReclaimed (k : Nat) (x : Reclaim) (s : State) : Prop where
  busy : ∀ m, (s.getHart m).free = false
  reclaim : tabGet none s.dqu.reclaim k = some x
  clear : ∀ b ∈ s.dqu.queue, s.classOf b = 2 → ∀ m ∈ b.slots, isVcNum m = true → rowOfHart m ≠ k
  nodup : (s.dqu.queue.map (·.id)).Nodup

theorem State.RowReclaimed.recalled (h : s.RowReclaimed k x) (g : s.Recalled t) : t.RowReclaimed k x where
  busy m := (g.free m).trans (h.busy m)
  reclaim := by rw [g.reclaim, h.reclaim]
  clear b hb hc := by
    obtain ⟨q, hq, rfl | rfl⟩ := g.queue b hb
    · exact h.clear _ hq (by rw [← g.classOf, hc])
    · exact fun m hm => absurd hm List.not_mem_nil
  nodup := by rw [g.ids]; exact h.nodup

/-- Where no core that something is held of is free, none is: the others are as at their start. -/
theorem State.getHart_busy (h : ∀ g ∈ s.liveHarts, g.free = false) (m : Nat) : (s.getHart m).free = false := by
  unfold State.getHart
  split
  · exact h _ (List.mem_cons_self ..)
  · cases hp : tabGet none s.parked m with
    | none => rfl
    | some g => exact h g (List.mem_cons_of_mem _ (List.mem_filterMap.mpr ⟨(m, some g), mem_of_tabGet hp, rfl⟩))

/-! ### The beginning of reclaim -/

/-- Each of the tasks that are sent back stands in no slot. -/
theorem State.sendBackAll_unslotted {l : List QTask} {q : QTask} (hq : q ∈ l) (s : State) :
    ∀ b ∈ (s.sendBackAll l).dqu.queue, b.id = q.id → b.slots = [] := by
  induction l generalizing s with
  | nil => exact absurd hq List.not_mem_nil
  | cons a l ih =>
    rcases List.mem_cons.mp hq with rfl | hq
    · have hback : (s.recall q.id).Recalled ((s.sendBack q.id).sendBackAll l) :=
        .trans (State.Recalled.foldl State.recalled_passReservation _ _) (State.recalled_sendBackAll ..)
      exact hback.unslotted (s.recall_unslotted q.id)
    · exact ih hq (s.sendBack a.id)

/-- The tasks that reclaim of a row sends back. -/
def State.borrowers (s : State) (k : Nat) : List QTask := (s.rowSlotted k).filter fun q => s.classOf q == 2

/-- Once they are back, no class-2 task stands in the slots of the row's cores. -/
theorem State.sendBackAll_borrowers (s : State) (k : Nat) : let t := s.sendBackAll (s.borrowers k)
    ∀ b ∈ t.dqu.queue, t.classOf b = 2 → ∀ m ∈ b.slots, isVcNum m = true → rowOfHart m ≠ k := by
  intro t b hb hc m hm hv hrow
  have hback : s.Recalled t := s.recalled_sendBackAll _
  obtain ⟨q, hq, rfl | rfl⟩ := hback.queue b hb
  · have hslotted : b ∈ s.rowSlotted k :=
      List.mem_filter.mpr ⟨hq, List.any_eq_true.mpr ⟨m, hm, by rw [hv, hrow, Bool.true_and]; exact beq_self_eq_true k⟩⟩
    have hborrows : b ∈ s.borrowers k := List.mem_filter.mpr ⟨hslotted, by rw [← hback.classOf, hc]; rfl⟩
    exact absurd (State.sendBackAll_unslotted hborrows s b hb rfl ▸ hm) List.not_mem_nil
  · exact absurd hm List.not_mem_nil

theorem State.beginReclaim_of_busy (hbusy : ∀ m, (s.getHart m).free = false) (k id : Nat) :
    let w := s.sendBackAll (s.borrowers k)
    s.beginReclaim k id
      = { w with dqu := { w.dqu with reclaim := tabInsert w.dqu.reclaim k (some ⟨w.dquNow, id, w.leaseOfRow k, false⟩) } } := by
  intro w
  refine State.foldl_startNext_of_busy fun m _ => ?_
  exact ((s.recalled_sendBackAll (s.borrowers k)).free m).trans (hbusy m)

/-- Reclaim begins. -/
theorem State.beginReclaim_reclaimed (hbusy : ∀ m, (s.getHart m).free = false) (hnodup : (s.dqu.queue.map (·.id)).Nodup) (k id : Nat) :
    ∃ l, (s.beginReclaim k id).RowReclaimed k ⟨s.dquNow, id, l, false⟩ := by
  have hback := s.recalled_sendBackAll (s.borrowers k)
  have hnow := hback.dquNow
  refine ⟨(s.sendBackAll (s.borrowers k)).leaseOfRow k, ?_⟩
  rw [State.beginReclaim_of_busy hbusy]
  exact {
    busy := fun m => (hback.free m).trans (hbusy m)
    reclaim := by rw [← hnow]; exact (tabGet_insert ..).trans (if_pos rfl)
    clear := s.sendBackAll_borrowers k
    nodup := by
      show ((s.sendBackAll (s.borrowers k)).dqu.queue.map (·.id)).Nodup
      rw [hback.ids]
      exact hnodup }

/-- Reclaim of one row lets that of another go on. -/
theorem State.RowReclaimed.beginReclaim (h : s.RowReclaimed k x) {r : Nat} (hr : k ≠ r) (id : Nat) :
    (s.beginReclaim r id).RowReclaimed k x := by
  obtain ⟨hbusy, hreclaim, hclear, hnodup⟩ := h.recalled (s.recalled_sendBackAll (s.borrowers r))
  rw [State.beginReclaim_of_busy h.busy]
  exact ⟨hbusy, (tabGet_insert ..).trans ((if_neg hr).trans hreclaim), hclear, hnodup⟩

theorem State.wantsRow_reclaim {q : QTask} (h : s.wantsRow k q = true) : tabGet none s.dqu.reclaim k = none := by
  simp only [State.wantsRow, Bool.and_eq_true, Option.isNone_iff_eq_none] at h
  obtain ⟨⟨⟨⟨-, hnone⟩, -⟩, -⟩, -⟩ := h
  exact hnone

theorem State.RowReclaimed.reclaimRow (h : s.RowReclaimed k x) (r : Nat) : (s.reclaimRow r).RowReclaimed k x := by
  unfold State.reclaimRow
  split
  next q hq =>
    have hnone := State.wantsRow_reclaim (List.mem_filter.mp (State.firstOf_mem hq)).2
    exact h.beginReclaim (fun e => by rw [← e, h.reclaim] at hnone; cases hnone) q.id
  · exact h

/-- Reclaim begins of the one row that tasks want, for one of them. -/
theorem State.foldl_reclaimRow (hbusy : ∀ m, (s.getHart m).free = false) (hnodup : (s.dqu.queue.map (·.id)).Nodup)
    (hwants : ∃ q ∈ s.dqu.queue, s.wantsRow k q = true) (honly : ∀ r, ∀ q ∈ s.dqu.queue, s.wantsRow r q = true → r = k)
    {l : List Nat} (hl : k ∈ l) : ∃ x, (l.foldl State.reclaimRow s).RowReclaimed k x ∧ x.since = s.dquNow ∧ x.late = false
      ∧ ∃ q ∈ s.dqu.queue, s.wantsRow k q = true ∧ x.task = q.id := by
  induction l with
  | nil => exact absurd hl List.not_mem_nil
  | cons r l ih =>
    by_cases hr : k = r
    · subst hr
      obtain ⟨q, hq⟩ : ∃ q, s.firstOf (s.dqu.queue.filter (s.wantsRow k)) = some q := by
        refine Option.ne_none_iff_exists'.mp fun hnone => ?_
        obtain ⟨p, hp, hw⟩ := hwants
        exact absurd (List.mem_filter.mpr ⟨hp, hw⟩) (State.firstOf_eq_none hnone ▸ List.not_mem_nil)
      obtain ⟨hmem, hw⟩ := List.mem_filter.mp (State.firstOf_mem hq)
      obtain ⟨c, hbegun⟩ := State.beginReclaim_reclaimed hbusy hnodup k q.id
      have hhead : s.reclaimRow k = s.beginReclaim k q.id := by
        unfold State.reclaimRow
        rw [hq]
      have hrest (l : List Nat) (t : State) (h : t.RowReclaimed k ⟨s.dquNow, q.id, c, false⟩) :
          (l.foldl State.reclaimRow t).RowReclaimed k ⟨s.dquNow, q.id, c, false⟩ := by
        induction l generalizing t with
        | nil => exact h
        | cons r l ih => exact ih _ (h.reclaimRow r)
      exact ⟨_, hrest l _ (hhead ▸ hbegun), rfl, rfl, q, hmem, hw, rfl⟩
    · have hskip : s.reclaimRow r = s :=
        State.reclaimRow_unwanted fun q hq => Bool.eq_false_iff.mpr fun hw => hr (honly r q hq hw).symm
      rw [List.foldl_cons, hskip]
      exact ih ((List.mem_cons.mp hl).resolve_left hr)

/-! ### What is placed while a row is under reclaim -/

theorem State.classOf_of_job {a b : QTask} (h : a.job = b.job) : s.classOf a = s.classOf b := by
  simp only [State.classOf, h]

theorem State.RowReclaimed.place (h : s.RowReclaimed k x) {id : Nat} {ns : List Nat} {q : QTask} (hq : s.task? id = some q) (hn : ns.Nodup)
    (hc : s.classOf q = 2 → ∀ m ∈ ns, isVcNum m = true → rowOfHart m ≠ k) : (s.place id ns).RowReclaimed k x := by
  obtain ⟨c, p, e⟩ := State.placed_eq (ns := ns) hq
  exact {
    busy := fun m => (State.free_place hq hn m).trans (h.busy m)
    reclaim := by rw [e]; exact h.reclaim
    clear := fun b hb hb2 => by
      rw [(State.sameTerms_place hq).classOf] at hb2
      rw [e] at hb
      rcases State.mem_putTask hb with ⟨hb, -⟩ | rfl
      · exact h.clear b hb hb2
      · exact hc hb2
    nodup := by
      rw [e, State.ids_putTask]
      exact h.nodup }

theorem rowOfHart_of_mem {r m : Nat} (h : m ∈ rowHarts r) : rowOfHart m = r := by
  obtain ⟨i, hi, rfl⟩ := List.mem_map.mp h
  have hlt := List.mem_range.mp hi
  simp only [rowOfHart, rowKey, clusterOf, vcNum]
  omega

/-- A class-2 task is eligible for no vector core of a row under reclaim (R69). -/
theorem State.RowReclaimed.eligible_ne (h : s.RowReclaimed k x) {q : QTask} (he : s.eligible q n = true) (hc : s.classOf q = 2)
    (hv : isVcNum n = true) : rowOfHart n ≠ k := by
  obtain ⟨j, hj, -, hrow, -⟩ := State.eligible_spec he
  have hclass : j.runClass = 2 := by simpa only [State.classOf, hj] using hc
  intro e
  have hnone := hrow hv hclass
  rw [e, h.reclaim] at hnone
  cases hnone

theorem State.RowReclaimed.startNext (h : s.RowReclaimed k x) (n : Nat) : (s.startNext n).RowReclaimed k x := by
  rw [State.startNext_of_busy (h.busy n)]
  exact h

/-- What fills a core's slots is no class-2 task of a row under reclaim. -/
theorem State.RowReclaimed.fill (h : s.RowReclaimed k x) (n : Nat) : (s.fill n).RowReclaimed k x := by
  by_cases hnothing : 2 ≤ (s.getHart n).prefetch.length ∨ (s.getHart n).takesTasks = false ∨ (s.choose n fun q => q.slots.isEmpty) = none
  · rw [State.fill_nothing hnothing]
    exact h.startNext n
  · simp only [not_or, not_le, Bool.not_eq_false] at hnothing
    obtain ⟨hlen, htakes, hsome⟩ := hnothing
    obtain ⟨⟨q, u⟩, hchoose⟩ := Option.ne_none_iff_exists'.mp hsome
    obtain ⟨hq, he, d, p, rfl⟩ := State.choose_spec hchoose
    have hu : (s.withRobin d p).RowReclaimed k x := ⟨h.busy, h.reclaim, h.clear, h.nodup⟩
    have htask : (s.withRobin d p).task? q.id = some q := State.task?_of_nodup h.nodup hq
    by_cases hk : q.desc.kind = 1
    · have hreserved := (s.withRobin d p).recalled_reserve (rowOfHart n) q
      obtain ⟨b, hb, hjob⟩ : ∃ b, ((s.withRobin d p).reserve (rowOfHart n) q).task? q.id = some b ∧ b.job = q.job := by
        rcases hreserved.task q.id with e | ⟨e, -⟩
        · exact ⟨q, e.trans htask, rfl⟩
        · exact ⟨q.unslotted, by rw [e, htask]; rfl, rfl⟩
      rw [State.fill_row hlen htakes hchoose hk]
      split
      · refine State.RowReclaimed.startNext ((hu.recalled hreserved).place hb (nodup_rowHarts _) fun hc m hm hv => ?_) n
        rw [rowOfHart_of_mem hm]
        obtain ⟨-, -, -, -, hvc⟩ := State.eligible_spec he
        rw [hreserved.classOf, State.classOf_of_job hjob] at hc
        exact h.eligible_ne he hc (hvc hk)
      · exact hu.recalled hreserved
    · rw [State.fill_task hlen htakes hchoose hk]
      refine State.RowReclaimed.startNext (hu.place htask (List.nodup_singleton n) fun hc m hm hv => ?_) n
      obtain rfl := List.mem_singleton.mp hm
      exact h.eligible_ne he hc hv

/-! ### The two events -/

theorem State.RowReclaimed.recallOne (h : s.RowReclaimed k x) (b : QTask) : (s.recallOne b).RowReclaimed k x := by
  rw [State.recallOne_of_busy fun m _ => h.busy m]
  exact h.recalled (s.recalled_back b)

/-- The recall of the first task that has to leave a core's slots (R62). -/
def State.prefetchRecall (s : State) (n : Nat) : State :=
  match s.reclaims.recallables n with
  | b :: _ => s.reclaims.recallOne b
  | [] => s.reclaims

theorem exec_prefetchRecall (n : Nat) (s : State) : exec (.prefetchRecall n) s = .next (s.prefetchRecall n) := rfl

theorem exec_prefetchFill {n : Nat} (hn : n < hartCount) (s : State) : exec (.prefetchFill n) s = .next (s.prefetchFill n) :=
  congrArg Host.Outcome.next (if_pos hn)

/-- A reclaimed row stays clear of class-2 tasks in what the event that begins its reclaim does next. -/
theorem State.RowReclaimed.prefetchRecall (h : s.reclaims.RowReclaimed k x) (n : Nat) : (s.prefetchRecall n).RowReclaimed k x := by
  unfold State.prefetchRecall
  split
  · exact h.recallOne _
  · exact h

theorem State.RowReclaimed.prefetchFill (h : s.reclaims.RowReclaimed k x) (n : Nat) : (s.prefetchFill n).RowReclaimed k x := by
  have hrecalls (l : List QTask) (t : State) (h : t.RowReclaimed k x) : (l.foldl State.recallOne t).RowReclaimed k x := by
    induction l generalizing t with
    | nil => exact h
    | cons b l ih => exact ih _ (h.recallOne b)
  rw [State.prefetchFill_eq]
  exact (hrecalls _ _ h).fill n

theorem State.reclaims_reclaimed {g : Hart} (hfree : ∀ m ∈ s.liveHarts, m.free = false) (hg : g ∈ s.liveHarts) (hv : isVcNum g.num = true)
    (hk : rowOfHart g.num = k) (hwants : ∃ q ∈ s.dqu.queue, s.wantsRow k q = true)
    (honly : ∀ r, ∀ q ∈ s.dqu.queue, s.wantsRow r q = true → r = k) (hnodup : (s.dqu.queue.map (·.id)).Nodup) :
    ∃ x, s.reclaims.RowReclaimed k x ∧ x.since = s.dquNow ∧ x.late = false
      ∧ ∃ q ∈ s.dqu.queue, s.wantsRow k q = true ∧ x.task = q.id := by
  refine State.foldl_reclaimRow (State.getHart_busy hfree) hnodup hwants honly (List.mem_eraseDups.mpr ?_)
  exact List.mem_map.mpr ⟨g.num, List.mem_filter.mpr ⟨List.mem_map.mpr ⟨g, hg, rfl⟩, hv⟩, hk⟩

end
end Sys2Proof.Machine
end

section
namespace Sys2Proof.Machine

/-! Jobs at their release and at their cliff, and their continuations (R38, R74, R75, R77, R374). -/

section
variable {s t : State} {id : Nat} {j : Job}

theorem State.job?_putJob (s : State) (d : Nat) (j : Job) (id : Nat) : (s.putJob d j).job? id = if id = d then some j else s.job? id := by
  rw [State.job?, State.putJob_dqu]
  exact tabGet_insert ..

theorem State.modJob_of_live (hj : s.job? id = some j) (hf : j.final = false) (f : Job → Job) : s.modJob id f = s.putJob id (f j) := by
  simp only [State.modJob, hj, hf, Bool.false_eq_true, if_false]

/-- A change of one job leaves the others. -/
theorem State.job?_modJob_ne {d : Nat} (hd : id ≠ d) (s : State) (f : Job → Job) : (s.modJob d f).job? id = s.job? id := by
  unfold State.modJob
  split
  · split
    · rfl
    · rw [State.job?_putJob, if_neg hd]
  · rfl

theorem State.emptyCont_dqu (hj : s.job? id = some j) :
    (s.emptyCont id).dqu = { s.dqu with jobs := tabInsert s.dqu.jobs id (some { j with cont := none }) } := by
  simp only [State.emptyCont, State.setCont, hj, State.devWrite_dqu, State.putJob_dqu]

theorem State.emptyCont_of_none (hj : s.job? id = none) : s.emptyCont id = s := by simp only [State.emptyCont, State.setCont, hj]

theorem State.job?_emptyCont (s : State) (d id : Nat) :
    (s.emptyCont d).job? id = if id = d then (s.job? id).map fun j => { j with cont := none } else s.job? id := by
  cases hj : s.job? d with
  | none =>
    rw [State.emptyCont_of_none hj]
    split
    next e => rw [e, hj]; rfl
    · rfl
  | some j =>
    rw [State.job?, State.emptyCont_dqu hj]
    refine (tabGet_insert ..).trans ?_
    split
    next e => rw [e, hj]; rfl
    · rfl

/-! ### Continuations -/

/-- The waiting continuation of a job, once it has its entry (R374). -/
def State.continued (s : State) (id : Nat) (d : Desc) (n : Nat) : State :=
  ((s.modJob id fun j => { j with contDue := false, contSeq := 0 }).enqueue id 0 d n).emptyCont id

theorem exec_waitingContinuationEnqueue_stays (h : s.nextCont = none ∨ s.dqFree = 0) : exec .waitingContinuationEnqueue s = .next s := by
  refine congrArg Host.Outcome.next ?_
  dsimp only
  split
  next id d n hc => exact if_pos (h.resolve_left (by rw [hc]; nofun))
  · rfl

theorem exec_waitingContinuationEnqueue {d : Desc} {n : Nat} (hc : s.nextCont = some (id, d, n)) (hf : s.dqFree ≠ 0) :
    exec .waitingContinuationEnqueue s = .next (s.continued id d n) := by
  refine congrArg Host.Outcome.next ?_
  simp only [hc, hf, if_false]
  rfl

/-- The task is the last of the queue, under the number it took before; the job's continuation slot is empty. -/
theorem State.continued_spec (hj : s.job? id = some j) (hf : j.final = false) (d : Desc) (n : Nat) :
    (s.continued id d n).dqu.queue = s.dqu.queue ++ [⟨s.dqu.nextTask, id, 0, d, n, s.dquNow, []⟩]
      ∧ (s.continued id d n).dqu.seq = s.dqu.seq
      ∧ (s.continued id d n).job? id = some { j with contDue := false, contSeq := 0, cont := none } := by
  let u := s.putJob id { j with contDue := false, contSeq := 0 }
  have hu : u.dqu = { s.dqu with jobs := tabInsert s.dqu.jobs id (some { j with contDue := false, contSeq := 0 }) } := s.putJob_dqu ..
  have hnow : u.dquNow = s.dquNow := s.putJob_dquNow ..
  have hentry : (u.enqueue id 0 d n).job? id = some { j with contDue := false, contSeq := 0 } :=
    (s.job?_putJob id _ id).trans (if_pos rfl)
  have hdqu : (s.continued id d n).dqu = { (u.enqueue id 0 d n).dqu with
      jobs := tabInsert (u.enqueue id 0 d n).dqu.jobs id (some { j with contDue := false, contSeq := 0, cont := none }) } := by
    rw [State.continued, State.modJob_of_live hj hf]
    exact State.emptyCont_dqu hentry
  refine ⟨?_, ?_, ?_⟩
  · rw [hdqu]
    show u.dqu.queue ++ [⟨u.dqu.nextTask, id, 0, d, n, u.dquNow, []⟩] = _
    rw [hnow, hu]
  · rw [hdqu]
    show u.dqu.seq = _
    rw [hu]
  · rw [State.job?, hdqu]
    exact (tabGet_insert ..).trans (if_pos rfl)

/-! ### Release -/

theorem exec_jobRelease (hj : s.job? id = some j) : exec (.jobRelease id) s = .next (if j.release.toNat ≤ s.dquNow then s.release id else s) := by
  refine congrArg Host.Outcome.next ?_
  simp only [hj]

/-- The first byte of a number's bytes in memory. -/
theorem memRead_one_setBytes (m : Memory) (a n v : Nat) : memRead (memSetBytes m a (bytesOf (n + 1) v)) a 1 = v % 256 := by
  have hbyte : memByte (memSetBytes m a (bytesOf (n + 1) v)) a = BitVec.ofNat 8 v :=
    memByte_setBytes_inside m a 0 (bytesOf (n + 1) v) (by simp)
  show ofBytes [memByte (memSetBytes m a (bytesOf (n + 1) v)) a] = _
  rw [hbyte]
  simp [ofBytes]

/-- A PENDING job runs from its release on, and its RCB says so (R38, R74). -/
theorem State.release_spec (hj : s.job? id = some j) (h1 : j.state = 1) :
    (s.release id).job? id = some { j with state := 2, runningAt := s.dquNow }
      ∧ (regionOf (j.pa + 0x28) = .lpddr → memRead (s.release id).mem (j.pa + 0x28) 1 = 2) := by
  have hf : j.final = false := by rw [Job.final, h1]; rfl
  have hrelease : s.release id = s.putJob id { j with state := 2, runningAt := s.dquNow } := by
    rw [State.release, State.modJob_of_live hj hf, h1]
    rfl
  rw [hrelease]
  refine ⟨(s.job?_putJob ..).trans (if_pos rfl), fun hr => ?_⟩
  let v := ({ j with state := 2, runningAt := s.dquNow } : Job).status
  let u : State := { s with dqu := { s.dqu with jobs := tabInsert s.dqu.jobs id (some { j with state := 2, runningAt := s.dquNow }) } }
  have hput : (s.putJob id { j with state := 2, runningAt := s.dquNow }).mem = memSetBytes s.mem (j.pa + 0x28) (bytesOf 8 v) := by
    show (u.devWrite (j.pa + 0x28) (bytesOf 8 v)).mem = _
    rw [State.devWrite, hr]
    exact (u.visWrite_stores (j.pa + 0x28) (bytesOf 8 v) false).mem
  rw [hput, memRead_one_setBytes]
  have htwo : (2 : BitVec 8).toNat = 2 := rfl
  simp only [v, Job.status, htwo]
  omega

/-! ### Deferral -/

theorem exec_jobCliff_stays (hj : s.job? id = some j)
    (h : j.deferred = true ∨ s.dquNow < j.cliffValue ∨ j.live = false ∨ j.abandonAt ≠ none) :
    exec (.jobCliff id) s = .next s := by
  refine congrArg Host.Outcome.next ?_
  simp only [hj, Job.cliff]
  cases hd : j.deferred with
  | true => rfl
  | false =>
    simp only [hd, Bool.false_eq_true, if_false, false_or] at h ⊢
    rcases h with h | h | h
    · exact if_neg (Nat.not_le.mpr h)
    · simp only [State.passCliff, hj, h, Bool.not_false, Bool.true_or, if_true, ite_self]
    · simp only [State.passCliff, hj, Option.isSome_iff_ne_none.mpr h, Bool.or_true, Bool.true_or, if_true, ite_self]

theorem exec_jobCliff_passes (hj : s.job? id = some j) (hd : j.deferred = false) (hc : j.cliffValue ≤ s.dquNow) (hl : j.live = true)
    (ha : j.abandonAt = none) : exec (.jobCliff id) s
      = .next (if j.defer = true then s.deferJob id else s.abandon id j.cliffValue (j.cliffValue + 2000) false) := by
  refine congrArg Host.Outcome.next ?_
  simp only [hj, Job.cliff, hd, hc, State.passCliff, hl, ha, Bool.false_eq_true, if_false, if_true, Bool.not_true, Option.isSome_none,
    Bool.or_self]

/-- A live job is not final. -/
theorem Job.final_of_live (hl : j.live = true) : j.final = false := by
  simp only [Job.live, Bool.or_eq_true, beq_iff_eq] at hl
  rcases hl with h | h <;> rw [Job.final, h] <;> rfl

theorem State.trimDeficits_jobs (s : State) : s.trimDeficits.dqu.jobs = s.dqu.jobs := rfl

/-- The DQU defers the job itself, whatever else is of its tree (R77). -/
theorem State.deferJob_job? (hj : s.job? id = some j) (hf : j.final = false) : (s.deferJob id).job? id = some { j with deferred := true } := by
  have hkeeps (l : List Nat) (t : State) (ht : t.job? id = some { j with deferred := true }) :
      (l.foldl (fun s d => s.modJob d fun j => { j with deferred := true }) t).job? id = some { j with deferred := true } := by
    induction l generalizing t with
    | nil => exact ht
    | cons d l ih =>
      refine ih _ ?_
      by_cases hd : id = d
      · rw [← hd]
        exact State.modJob_job ht hf fun j => { j with deferred := true }
      · exact (State.job?_modJob_ne hd t fun j => { j with deferred := true }).trans ht
  unfold State.deferJob
  generalize s.descendants id = l
  dsimp only
  rw [State.job?, State.trimDeficits_jobs, (State.recalled_sendBackAll _ _).jobs, ← State.job?, List.foldl_cons]
  exact hkeeps l _ (State.modJob_job hj hf fun j => { j with deferred := true })

/-! ### Abandonment -/

/-- Job id is abandoned at an instant, and has no continuation. -/
def State.Doomed (id instant : Nat) (s : State) : Prop := ∃ k, s.job? id = some k ∧ k.abandonAt = some instant ∧ k.cont = none

section
variable {a : Nat}

theorem State.Doomed.of_jobs (h : s.Doomed id a) (hj : t.dqu.jobs = s.dqu.jobs) : t.Doomed id a := by
  unfold State.Doomed State.job? at *
  rw [hj]
  exact h

theorem State.Doomed.mapHarts (h : s.Doomed id a) (f : Hart → Hart) : (s.mapHarts f).Doomed id a := h.of_jobs rfl

theorem State.Doomed.nextSeq (h : s.Doomed id a) : s.nextSeq.Doomed id a := h.of_jobs rfl

theorem State.Doomed.enqueue (h : s.Doomed id a) (job tidx : Nat) (d : Desc) (n : Nat) : (s.enqueue job tidx d n).Doomed id a := h.of_jobs rfl

/-- A job of the DQU is stored again, abandoned as it was. -/
theorem State.Doomed.restore (h : s.Doomed id a) {d : Nat} (hj : s.job? d = some j) {k : Job}
    (hk : j.abandonAt = some a ∧ j.cont = none → k.abandonAt = some a ∧ k.cont = none) : (s.putJob d k).Doomed id a := by
  obtain ⟨i, hi, hia⟩ := h
  by_cases hd : id = d
  · obtain rfl : i = j := Option.some.inj (hi.symm.trans (hd ▸ hj))
    exact ⟨k, (s.job?_putJob ..).trans (if_pos hd), hk hia⟩
  · exact ⟨i, (s.job?_putJob ..).trans ((if_neg hd).trans hi), hia⟩

theorem State.Doomed.modJob (h : s.Doomed id a) {f : Job → Job}
    (hf : ∀ j, j.abandonAt = some a ∧ j.cont = none → (f j).abandonAt = some a ∧ (f j).cont = none) (d : Nat) :
    (s.modJob d f).Doomed id a := by
  unfold State.modJob
  split
  next k hk =>
    split
    · exact h
    · exact h.restore hk (hf k)
  · exact h

theorem State.Doomed.emptyCont (h : s.Doomed id a) (d : Nat) : (s.emptyCont d).Doomed id a := by
  obtain ⟨k, hk, ha, hc⟩ := h
  by_cases hd : id = d
  · exact ⟨{ k with cont := none }, by rw [State.job?_emptyCont, if_pos hd, hk]; rfl, ha, rfl⟩
  · exact ⟨k, by rw [State.job?_emptyCont, if_neg hd, hk], ha, hc⟩

theorem State.hostWrite_dqu (s : State) (instant : Nat) (data : List Byte) : (s.hostWrite instant data).dqu = s.dqu := rfl

theorem State.sendCompletion_jobs (s : State) (j : Job) (instant : Nat) : (s.sendCompletion j instant).dqu.jobs = s.dqu.jobs := by
  have hbump (off w : Nat) : (s.bumpSat off w).dqu = s.dqu := by
    unfold State.bumpSat
    dsimp only
    split <;> rfl
  have hring (h : Nat) (record : List Byte) : (s.ringRecord h record).dqu = s.dqu := by
    unfold State.ringRecord
    extract_lets cfg prod cons k cword t u p q
    have hwrite : t.dqu = s.dqu := State.hostWrite_dqu ..
    have hset : u.dqu = t.dqu := State.mmioSet_dqu ..
    split
    · exact State.mmioSet_dqu ..
    · split
      · rfl
      · exact hset.trans hwrite
  unfold State.sendCompletion
  dsimp only
  split
  · split
    · rfl
    · split
      · rfl
      · rw [hbump]
  · rw [hring]
  · rfl

theorem State.completeJob_jobs (s : State) (d : Nat) (j : Job) (instant : Nat) : (s.completeJob d j instant).dqu.jobs = s.dqu.jobs := by
  unfold State.completeJob
  split
  · dsimp only
    split
    · rfl
    · exact s.sendCompletion_jobs ..
  · exact s.sendCompletion_jobs ..

/-- A final job keeps that it was abandoned. -/
theorem State.Doomed.finalize (h : s.Doomed id a) (d : Nat) (st : BitVec 8) (instant : Nat) : (s.finalize d st instant).Doomed id a := by
  unfold State.finalize
  split
  · exact h
  next j hj =>
    refine State.Doomed.of_jobs (h.restore (k := { j with state := st, count := 0, contDue := false }) hj (·)) ?_
    dsimp only
    rw [State.completeJob_jobs, State.devWrite_dqu, State.devWrite_dqu]

theorem State.Doomed.settle (h : s.Doomed id a) (fuel d : Nat) : (State.settle fuel s d).Doomed id a := by
  induction fuel generalizing s d with
  | zero => exact h
  | succ fuel ih =>
    simp only [State.settle]
    split
    · exact h
    next j hj =>
      have up (st : BitVec 8) (t : Nat) (flag : Bool) : State.Doomed id a (match j.parent with
          | none => s.finalize d st t
          | some p => State.settle fuel (((s.finalize d st t).mapHarts (Hart.countFell p)).modJob p fun q =>
              { q with count := q.count - 1, abchild := q.abchild || flag }) p) := by
        have hfinal := h.finalize d st t
        split
        · exact hfinal
        next p _ =>
          refine ih (State.Doomed.modJob (hfinal.mapHarts _) (f := fun q => { q with count := q.count - 1, abchild := q.abchild || flag }) ?_ p) p
          exact fun _ hq => hq
      have hput (c : Nat) (w : Bool) (n : Nat) : (s.putJob d { j with count := c, contDue := w, contSeq := n }).nextSeq.Doomed id a :=
        (h.restore (k := { j with count := c, contDue := w, contSeq := n }) hj (·)).nextSeq
      split
      · exact h
      · split
        · exact up _ _ _
        · split
          · split
            · exact hput _ _ _
            · exact ((hput _ _ _).enqueue ..).emptyCont d
          · exact up _ _ _

theorem State.Doomed.countDown (h : s.Doomed id a) (d n : Nat) : (s.countDown d n).Doomed id a := by
  unfold State.countDown
  split
  · exact h
  next j hj =>
    have hfell := h.mapHarts (Hart.countFell d)
    exact State.Doomed.settle (hfell.restore (k := { j with count := j.count - n }) hj (·)) _ _

theorem State.Doomed.foldl {α : Type} {f : State → α → State} (hf : ∀ (s : State) (x : α), s.Doomed id a → (f s x).Doomed id a)
    (l : List α) (h : s.Doomed id a) : (l.foldl f s).Doomed id a := by
  induction l generalizing s with
  | nil => exact h
  | cons x l ih => exact ih (hf s x h)

theorem State.Doomed.markAbandoned (h : s.Doomed id a) (lost : Bool) (d : Nat) : (s.markAbandoned a lost d).Doomed id a := by
  refine State.Doomed.emptyCont (h.modJob ?_ d) d
  exact fun _ hj => ⟨rfl, hj.2⟩

theorem State.dropTask_jobs (s : State) (d : Nat) : (s.dropTask d).dqu.jobs = s.dqu.jobs := (s.recalled_recall d).jobs

theorem State.Doomed.withdraw (h : s.Doomed id a) (grace : Nat) (p : Nat × Bool) : (s.withdraw grace p).Doomed id a := by
  unfold State.withdraw
  extract_lets d mine rows u v w x
  have hu : u.Doomed id a := State.Doomed.foldl (fun s (q : QTask) hs => hs.of_jobs (s.dropTask_jobs q.id)) mine h
  have hv : v.Doomed id a := State.Doomed.foldl (fun s k hs => hs.of_jobs (s.recalled_reserveNext k).jobs) rows hu
  exact State.Doomed.countDown (hv.of_jobs (t := x) rfl) _ _

/-- The marking of a job that is not final. -/
theorem State.markAbandoned_doomed (hj : s.job? id = some j) (hf : j.final = false) (lost : Bool) : (s.markAbandoned a lost id).Doomed id a := by
  refine ⟨{ j with abandonAt := some a, lost := lost, contDue := false, cont := none }, ?_, rfl, rfl⟩
  rw [State.markAbandoned, State.job?_emptyCont, if_pos rfl, State.modJob_job hj hf]
  rfl

theorem State.job?_markAbandoned_ne {d : Nat} (hd : id ≠ d) (s : State) (lost : Bool) : (s.markAbandoned a lost d).job? id = s.job? id := by
  rw [State.markAbandoned, State.job?_emptyCont, if_neg hd, State.job?_modJob_ne hd]

/-- The marking of a list of jobs among which it stands. -/
theorem State.markAll_doomed (hf : j.final = false) (lost : Bool) (l : List (Nat × Bool)) (hl : id ∈ l.map Prod.fst)
    (hj : s.job? id = some j) : (l.foldl (fun s p => s.markAbandoned a lost p.1) s).Doomed id a := by
  induction l generalizing s with
  | nil => exact absurd hl List.not_mem_nil
  | cons p l ih =>
    by_cases hp : id = p.1
    · exact State.Doomed.foldl (fun s (p : Nat × Bool) hs => hs.markAbandoned lost p.1) l (hp ▸ State.markAbandoned_doomed hj hf lost)
    · exact ih ((List.mem_cons.mp hl).resolve_left hp) ((State.job?_markAbandoned_ne hp s lost).trans hj)

/-- A job that is abandoned keeps the instant, and loses its continuation (R75). -/
theorem State.abandon_doomed (hj : s.job? id = some j) (hf : j.final = false) (ha : j.abandonAt = none) (grace : Nat) (lost : Bool) :
    (s.abandon id a grace lost).Doomed id a := by
  unfold State.abandon
  generalize s.descendants id = l
  extract_lets todo u
  have hmem : id ∈ todo.map Prod.fst := by
    refine List.mem_map.mpr ⟨(id, j.contDue), List.mem_filterMap.mpr ⟨id, List.mem_append_right _ (List.mem_singleton_self id), ?_⟩, rfl⟩
    simp only [hj, hf, ha, Option.isSome_none, Bool.or_self, Bool.false_eq_true, if_false]
  have hmarked : u.Doomed id a := State.markAll_doomed hf lost todo hmem hj
  exact (State.Doomed.foldl (fun s p hs => hs.withdraw grace p) todo hmarked).of_jobs (State.trimDeficits_jobs _)

end
end
end Sys2Proof.Machine
end

section
namespace Sys2Proof.Machine

/-! A reclaim that is late (R69, R376), and the events of the deadline queue unit together. -/

section
variable {s : State} {c r : Nat}

theorem State.reclaimLate_stays (h : ∀ x, tabGet none s.dqu.reclaim (rowKey c r) = some x →
    x.late = true ∨ s.dquNow ≤ x.since + s.leaseCap x.lease + 200) : s.reclaimLate c r = s := by
  unfold State.reclaimLate
  dsimp only
  split
  · rfl
  next x hx => exact if_pos (by simpa using h x hx)

/-- RCLATE with one late reclaim more, and the lease it is counted under. -/
def lateCount (v lease : Nat) : Nat := putBits (putBits v 0 32 (min (bitsAt v 0 32 + 1) 0xFFFFFFFF)) 32 8 lease

theorem lateCount_low (v lease : Nat) : (BitVec.ofNat 64 (lateCount v lease)).toNat % 2 ^ 32 = min (v % 2 ^ 32 + 1) 0xFFFFFFFF := by
  have hlow (w : Nat) : bitsAt w 0 32 = w % 2 ^ 32 := by rw [bitsAt, pow_zero, Nat.div_one]
  rw [← hlow, ← hlow v, bitsAt_ofNat (by omega), lateCount, bitsAt_putBits_ne (by omega), bitsAt_putBits_same]
  omega

/-- A reclaim past the lease cap and 200 ns is marked, and counts once. -/
theorem State.reclaimLate_spec {x : Reclaim} (hx : tabGet none s.dqu.reclaim (rowKey c r) = some x) (hl : x.late = false)
    (hnow : x.since + s.leaseCap x.lease + 200 < s.dquNow) :
    tabGet none (s.reclaimLate c r).dqu.reclaim (rowKey c r) = some { x with late := true }
      ∧ ((s.reclaimLate c r).mmioGet 0x20 0).toNat % 2 ^ 32 = min ((s.mmioGet 0x20 0).toNat % 2 ^ 32 + 1) 0xFFFFFFFF := by
  let u := s.mmioSet 0x20 0 (BitVec.ofNat 64 (lateCount (s.mmioGet 0x20 0).toNat x.lease))
  let v : State := { u with dqu := { u.dqu with reclaim := tabInsert u.dqu.reclaim (rowKey c r) (some { x with late := true }) } }
  have hlate : ¬((x.late || decide (s.dquNow ≤ x.since + s.leaseCap x.lease + 200)) = true) := by
    rw [hl, Bool.false_or, decide_eq_true_eq]
    exact Nat.not_le.mpr hnow
  have hback : v.Recalled (s.reclaimLate c r) := by
    have he : s.reclaimLate c r = v.sendBack x.task := by
      unfold State.reclaimLate
      simp only [hx]
      exact if_neg hlate
    rw [he]
    exact v.recalled_sendBack x.task
  refine ⟨?_, ?_⟩
  · rw [hback.reclaim]
    exact (tabGet_insert ..).trans (if_pos rfl)
  · rw [State.mmioGet, hback.mmio]
    show (u.mmioGet 0x20 0).toNat % 2 ^ 32 = _
    rw [mmioGet_mmioSet_same, lateCount_low]

end

/-! ### The clauses -/

section
variable (s : State)

theorem exec_messageLand (n : Nat) : exec (.messageLand n) s = .next (s.landIdx n) := rfl

theorem exec_completionMessageSend_stays (h : s.dqu.compWait.find? s.hasRoom = none) : exec .completionMessageSend s = .next s := by
  refine congrArg Host.Outcome.next ?_
  simp only [h]

theorem exec_completionMessageSend {m : Msg} (h : s.dqu.compWait.find? s.hasRoom = some m) : exec .completionMessageSend s
    = .next { s with dqu := { s.dqu with compWait := s.dqu.compWait.erase m }, inflight := s.inflight ++ [m] } := by
  refine congrArg Host.Outcome.next ?_
  simp only [h]
  rfl

theorem exec_prefetchFill_outside {n : Nat} (hn : hartCount ≤ n) : exec (.prefetchFill n) s = .next s :=
  congrArg Host.Outcome.next (if_neg (Nat.not_lt.mpr hn))

theorem exec_reclaimLate (c r : Nat) : exec (.reclaimLate c r) s = .next (s.reclaimLate c r) := rfl

theorem exec_jobEvents_none {id : Nat} (h : s.job? id = none) : exec (.jobRelease id) s = .next s ∧ exec (.jobCliff id) s = .next s :=
  ⟨congrArg Host.Outcome.next (by simp only [h]), congrArg Host.Outcome.next (by simp only [h])⟩

end

section
variable {s : State} {n : Nat} (hcalm : ∀ r q, q ∈ s.dqu.queue → s.wantsRow r q = false)
include hcalm

theorem exec_prefetchFill_calm (hn : n < hartCount) (hr : s.recallables n = []) : exec (.prefetchFill n) s = .next (s.fill n) := by
  rw [exec_prefetchFill hn, State.prefetchFill_calm hcalm hr]

theorem exec_prefetchRecall_stays (hr : s.recallables n = []) : exec (.prefetchRecall n) s = .next s := by
  rw [exec_prefetchRecall, State.prefetchRecall, State.reclaims_calm hcalm, hr]

theorem exec_prefetchRecall_calm {b : QTask} {bs : List QTask} (hr : s.recallables n = b :: bs) :
    exec (.prefetchRecall n) s = .next (s.recallOne b) := by
  rw [exec_prefetchRecall, State.prefetchRecall, State.reclaims_calm hcalm, hr]

end

/-- Settles O51: each event by its own rule; those of prefetch by what reclaims and recalls leave of the slots. -/
theorem deadlineQueueEvents : Obligations.DeadlineQueueEvents := by
  intro s now gives calm
  refine ⟨fun n h => congrArg _ (State.landIdx_none h), fun n m hm hl => ?_, exec_completionMessageSend_stays s,
    fun m => exec_completionMessageSend s, fun n => exec_prefetchFill_outside s, ?_, fun n hn hc hr => ?_,
    fun n hc hr => exec_prefetchRecall_stays hc hr, fun n b bs k hc hr hk hb => ?_, exec_waitingContinuationEnqueue_stays,
    fun id d n j hnext hfree hj hf => ?_, fun id => exec_jobEvents_none s, fun id j hj => ?_, fun c r => ?_⟩
  · refine ⟨fun ht => congrArg _ (State.landIdx_waits hm ht), fun hf e he => ?_, fun hf hb hmode hc hroom => ?_⟩
    · intro a h1 h2 hs
      obtain ⟨hinf, hmem, hqueue⟩ := State.landIdx_queue hm hl hf he rfl h1 h2 hs
      refine ⟨_, ⟨exec_messageLand s n, hinf⟩, ?_, fun x hx => ?_, hqueue⟩
      · rw [hmem, memBytes_setBytes]
      · rw [hmem, memByte_setBytes_outside _ _ _ _ hx]
    · obtain ⟨hinf, hbank, hbytes⟩ := State.landIdx_fifo hm hl hf hb hmode hc hroom
      exact ⟨_, ⟨exec_messageLand s n, hinf⟩, hbank, hbytes⟩
  · intro n k g hn _ hfree hg hv hrow hwants honly hnodup i hi
    obtain ⟨x, hreclaimed, hsince, hlate, htask⟩ := State.reclaims_reclaimed hfree hg hv hrow hwants honly hnodup
    have hevent : ∃ t, exec i s = .next t ∧ t.RowReclaimed k x := by
      rcases hi with rfl | rfl
      · exact ⟨_, exec_prefetchFill hn s, hreclaimed.prefetchFill n⟩
      · exact ⟨_, exec_prefetchRecall n s, hreclaimed.prefetchRecall n⟩
    obtain ⟨t, ht, hrow⟩ := hevent
    exact ⟨t, x, ht, hrow.reclaim, hsince, hlate, htask, hrow.clear⟩
  · have hfill := exec_prefetchFill_calm hc hn hr
    refine ⟨fun hnothing hstays => ?_, fun hnothing hf hm id rest q j hp hq hj hk => ⟨fun hmay => ?_, fun hmay => ?_⟩,
      fun q u hlen htakes hchoose => ⟨fun hk hf => ?_, fun hk hf hp hm hq => ?_, fun hk hf hres hs hroom => ?_⟩⟩
    · exact hfill.trans (congrArg _ ((State.fill_nothing hnothing).trans (State.startNext_stays hstays)))
    · exact hfill.trans (congrArg _ ((State.fill_nothing hnothing).trans (State.startNext_forbidden hp hq hj hmay)))
    · have hstart := hfill.trans (congrArg _ ((State.fill_nothing hnothing).trans (State.startNext_starts hp hq hj hf hm hk hmay)))
      obtain ⟨⟨r, hrun, hid, hjob, htidx⟩, hpc, -, hgone, hmem⟩ := s.startedOn q j n id
      exact ⟨_, r, hstart, hrun, hid.trans (State.task?_id hq), hjob, htidx, hpc, hgone, hmem⟩
    · obtain ⟨hpre, hmem, k, hk', hslots⟩ := State.fill_busy hlen htakes hchoose hk hf
      exact ⟨_, k, hfill, hpre, hk', hslots, hmem⟩
    · obtain ⟨⟨r, hrun, hid, hjob, htidx⟩, hpc, hpre, hgone, hmem⟩ := State.fill_free hlen htakes hchoose hk hf hp hm hq
      exact ⟨_, r, hfill, hrun, hid, hjob, htidx, hpc, hpre, hgone, hmem⟩
    · obtain ⟨hreserved, hmem, hpre⟩ := State.fill_row_busy hlen htakes hchoose hk hf hres hs hroom
      exact ⟨_, hfill, hreserved, hmem, hpre⟩
  · exact ⟨_, exec_prefetchRecall_calm hc hr, State.recallOne_spec hb hk⟩
  · exact ⟨_, exec_waitingContinuationEnqueue hnext hfree, State.continued_spec hj hf d n⟩
  · have hrelease := exec_jobRelease hj
    refine ⟨fun hlt => ?_, fun hle h1 => ?_, exec_jobCliff_stays hj, fun hd hle hl ha => ?_⟩
    · exact hrelease.trans (congrArg _ (if_neg (Nat.not_le.mpr hlt)))
    · exact ⟨_, hrelease.trans (congrArg _ (if_pos hle)), State.release_spec hj h1⟩
    · have hcliff := exec_jobCliff_passes hj hd hle hl ha
      have hf := Job.final_of_live hl
      refine ⟨fun hp => ⟨hcliff.trans (congrArg _ (if_pos hp)), State.deferJob_job? hj hf⟩, fun hp => ?_⟩
      obtain ⟨k, hk, hka, hkc⟩ := State.abandon_doomed (a := j.cliffValue) hj hf ha (j.cliffValue + 2000) false
      exact ⟨_, k, hcliff.trans (congrArg _ (if_neg (by rw [hp]; exact Bool.false_ne_true))), hk, hka, hkc⟩
  · refine ⟨fun hnone => congrArg _ (State.reclaimLate_stays fun x hx => ?_), fun x hx => ⟨fun hstays => ?_, fun hl hnow => ?_⟩⟩
    · rw [hnone] at hx
      cases hx
    · refine congrArg _ (State.reclaimLate_stays fun y hy => ?_)
      obtain rfl : x = y := Option.some.inj (hx.symm.trans hy)
      exact hstays
    · exact ⟨_, exec_reclaimLate s c r, State.reclaimLate_spec hx hl hnow⟩

end Sys2Proof.Machine
end
